-- ==== Sys2Proof/Word.lean ====
section
/-! DEFINITION. The word types of the L7 (R3): bit 0 is the least significant bit, and the byte at the lowest address
holds bits 7 to 0. -/

namespace Sys2Proof

/-- A byte of memory, scratchpad or a code table. -/
abbrev Byte := BitVec 8
/-- A vector register of one lane, or an instruction word. -/
abbrev Word := BitVec 32
/-- A scalar register, or a 64-bit value of a vector register pair. -/
abbrev DWord := BitVec 64
/-- One bit for each lane of a group (R98). -/
abbrev Lanes := BitVec 32

end Sys2Proof
end

