-- ==== Sys2Proof/Syntax.lean ====
section
/-! DEFINITION. The instructions of the L7: the group instructions (R59), the tile words (R63) and the other steps of
the opcode table (spec/95), one constructor for each row. Operands are pulled out of the words once, by the decoder. -/

namespace Sys2Proof

/-- The four lengths of a group instruction (R50). -/
inductive Len where
  | base    -- 4 bytes
  | lit     -- 12 bytes: base word and literal
  | ext     -- 12 bytes: base word and extended words
  | extLit  -- 20 bytes: all five words
  deriving DecidableEq, Repr

/-- What every group instruction carries: its length (R50) and its guard (R57). -/
structure Hdr where
  len : Len
  p   : BitVec 3
  neg : Bool
  deriving DecidableEq, Repr

/-- A vector operand: a register number, or `v[xn+off]` (R108). In scalar forms the number names a scalar register. -/
inductive VOp where
  | reg (n : BitVec 10)
  | idx (x : BitVec 3) (off : BitVec 10)
  deriving DecidableEq, Repr

/-- Source B of the integer and floating-point mould (R128). -/
inductive SrcB where
  | vec (o : VOp)
  | sca (n : BitVec 10)
  | imm (w : Word)
  deriving DecidableEq, Repr

/-- The integer types (R111), in the order of their codes. -/
inductive ITy where
  | s32 | b32 | s64 | b64
  deriving DecidableEq, Repr

/-- The rounding modes (R116). -/
inductive RMode where
  | rn | rz | rm | rp
  deriving DecidableEq, Repr

/-- The scopes (R57). -/
inductive Scope where
  | grp | team | clu | part | dev | sys
  deriving DecidableEq, Repr

/-- The type codes 0 to 9 (R60, R46). -/
inductive Fmt where
  | s32 | b32 | s64 | b64 | f32 | bf16 | e4m3 | e5m2 | i4g | i3g
  deriving DecidableEq, Repr

/-- The compare codes (R60). -/
inductive Cmp where
  | eq | ne | lt | le | gt | ge | num | nan
  deriving DecidableEq, Repr

/-- The atomic operation codes (R60). -/
inductive AOp where
  | add | min | max | and | or | xor | exch | cas | fadd | pbfadd
  deriving DecidableEq, Repr

/-- The operations of REDG and SCANG (R151). -/
inductive ROp where
  | add | min | max | and | or | xor | fadd | fmin | fmax
  deriving DecidableEq, Repr

/-- The conditions of the branches (R100). -/
inductive Cond where
  | any | all | none
  deriving DecidableEq, Repr

/-- The sizes of the access mould (R160). -/
inductive Size where
  | b32 | b64 | b128
  deriving DecidableEq, Repr

/-- A key operand: per lane, or one scalar for all lanes (R168, R176). -/
inductive KeyOp where
  | vec (n : BitVec 10)
  | sca (n : BitVec 10)
  deriving DecidableEq, Repr

/-- Two-source integer operands (R128). With `sf` the registers are scalar. -/
structure Alu where
  ty  : ITy
  sat : Bool
  sf  : Bool
  d   : VOp
  a   : VOp
  b   : SrcB
  deriving DecidableEq, Repr

/-- One-source integer operands (R134). -/
structure Alu1 where
  ty  : ITy
  sat : Bool
  sf  : Bool
  d   : VOp
  a   : VOp
  deriving DecidableEq, Repr

/-- Two-source floating-point operands (R142). -/
structure Fpu where
  mode : RMode
  sat  : Bool
  d    : VOp
  a    : VOp
  b    : SrcB
  deriving DecidableEq, Repr

/-- One-source floating-point operands (R144). -/
structure Fpu1 where
  mode : RMode
  d    : VOp
  a    : VOp
  deriving DecidableEq, Repr

/-- The control of BFI: source C, or IMM32 (R135). -/
inductive Ctl where
  | c (o : VOp)
  | imm (w : Word)
  deriving DecidableEq, Repr

/-- The forms of MOV (R138). `raw` is the immediate as carried: IMM32 zero-extended, or the literal. -/
inductive MovForm where
  | vv (d a : BitVec 10)
  | vs (d a : BitVec 10)
  | vi (d : BitVec 10) (raw : DWord)
  | ss (d a : BitVec 10)
  | si (d : BitVec 10) (raw : DWord)
  | first (d a : BitVec 10)
  deriving DecidableEq, Repr

/-- Where MFSR writes (R140). -/
inductive SrDst where
  | v | s | pair
  deriving DecidableEq, Repr

/-- The working set of RGN (R103): none, or `n1 + 1` registers from `vb` with a live mask. -/
inductive WSet where
  | none
  | some (vb : BitVec 10) (n1 : BitVec 6) (live : DWord)
  deriving DecidableEq, Repr

/-- The operand n of SHFL (R149). -/
inductive ShN where
  | vec (n : BitVec 10)
  | imm (n : BitVec 6)
  deriving DecidableEq, Repr

/-- The modes of SHFL (R149). -/
inductive ShMode where
  | idx | up | down | xor
  deriving DecidableEq, Repr

/-- The base of a scratchpad address (R161). -/
inductive SpBase where
  | vec (o : VOp)
  | sca (n : BitVec 10)
  | none
  deriving DecidableEq, Repr

/-- LDS and STS (R161, R165). -/
structure SpAcc where
  size : Size
  base : SpBase
  disp : Word
  data : VOp
  deriving DecidableEq, Repr

/-- DLD and DST (R161, R168). -/
structure DnAcc where
  size  : Size
  scope : Scope
  data  : VOp
  tab   : BitVec 10
  key   : KeyOp
  off   : BitVec 16
  deriving DecidableEq, Repr

/-- TLD and TST (R161, R169). `ck` is the predicate of TLD.ck. -/
structure RowAcc where
  size  : Size
  scope : Scope
  data  : VOp
  ref   : BitVec 10
  off   : BitVec 16
  ck    : Option (BitVec 3)
  deriving DecidableEq, Repr

/-- The key operand of FETCH (R170). -/
inductive FKey where
  | vec (o : VOp)
  | sca (n : BitVec 10)
  deriving DecidableEq, Repr

/-- The element index of FETCH (R170). -/
inductive FIdx where
  | vec (o : VOp)
  | imm (w : Word)
  deriving DecidableEq, Repr

/-- FETCH (R170): `n1 + 1` registers. -/
structure Fetch where
  fmt : Fmt
  n1  : BitVec 2
  d   : VOp
  tab : BitVec 10
  key : FKey
  c   : FIdx
  deriving DecidableEq, Repr

/-- TLK, TINS, TUPS and TDEL (R176). TDEL has no `d`. -/
structure TPoint where
  d   : BitVec 10
  p   : BitVec 3
  tab : BitVec 10
  key : KeyOp
  deriving DecidableEq, Repr

/-- TSEEK, TCNT and TDROP (R176): a range of keys. `d` is a cursor, a register pair, or unused. -/
structure TRange where
  d   : BitVec 10
  tab : BitVec 10
  lo  : KeyOp
  hi  : KeyOp
  deriving DecidableEq, Repr

/-- The key widths of TNEXT and TKEY (R176). -/
inductive KWidth where
  | k32 | k64 | k128
  deriving DecidableEq, Repr

/-- ATOMS, TATOM and DATOM (R161, R266). For DATOM `b` is the first of the operand registers. -/
structure Atom where
  op    : AOp
  ty    : ITy
  scope : Scope
  d     : BitVec 10
  b     : BitVec 10
  c     : BitVec 10
  off   : Word
  deriving DecidableEq, Repr

/-- The directions of CPY (R200). -/
inductive CpyDir where
  | ld | st | pf
  deriving DecidableEq, Repr

/-- The list kinds of GATH (R202). -/
inductive GathKind where
  | k32 | k64 | ref
  deriving DecidableEq, Repr

/-- The operand of a gate instruction (R284). -/
inductive GateArg where
  | sca (n : BitVec 6)
  | imm (w : Word)
  deriving DecidableEq, Repr

/-- The forms of TRET (R301). -/
inductive TretForm where
  | retry | skip | term
  deriving DecidableEq, Repr

/-- A group of a team, by the team's serial number and GROUPID. -/
structure GRef where
  team : Nat
  grp  : Nat
  deriving DecidableEq, Repr

/-- A register that has no step of its own in the opcode table (R5, R335). -/
inductive RegName where
  | spcfg (part n : Nat) | spstat (part n : Nat) | cqcfg (part n : Nat)
  | stalestat (part : Nat) | trapcfg (part : Nat)
  | pcfg (part : Nat) | wdlim (part : Nat) | ptroot (part : Nat) | dlcfg (part : Nat)
  | timeval (part : Nat) | walloff (part : Nat) | apbase (part : Nat) | peeracl (part i : Nat)
  | window (part i word : Nat) | gateSlot (part i : Nat) | gateRecord (gate word : Nat)
  | perr | pwrcap | elbase | elhead | tqbase | tqtail | tqstat | tierwm (t : Nat)
  | readOnly (offset : Nat)
  deriving DecidableEq, Repr

/-- What storage an uncorrectable or corrected error strikes (R330, R333). -/
inductive ErrWhere where
  | granule (addr : Nat)            -- device memory, by physical key
  | line (addr : Nat)               -- a line in L2
  | index (part slot : Nat)         -- an index node of a table
  | group (g : GRef)                -- core state of one group
  | team (team : Nat)               -- scratchpad or array of a team
  deriving DecidableEq, Repr

/-- The units of R334. -/
inductive Unit334 where
  | memRow (addr : Nat) | l2Line (addr : Nat) | core (c : Nat) | bobbin (n : Nat) | hub | link (n : Nat)
  deriving DecidableEq, Repr

/-- The partition, and the spool, ring position and table slot of the grid or command, whose access met an error
(R329). -/
structure ErrTie where
  part  : Nat
  spool : Nat
  pos   : Nat
  slot  : Nat
  deriving DecidableEq, Repr

/-- How a PCIe AtomicOp completes (R269). -/
inductive Completion where
  | ok | unsupported | abort
  deriving DecidableEq, Repr

/-- The kinds of peer request (R339). -/
inductive PeerOp where
  | load (n : Nat)
  | store (bytes : List Byte)
  | atomic (op : AOp) (ty : ITy) (b c : DWord)
  | gsig (gate : Nat) (addend : DWord) | gread (gate : Nat) | gwait (gate : Nat) (t : DWord)
  deriving DecidableEq, Repr

/-- The causes of a code-fetch fault (R58, R332). -/
inductive FetchErr where
  | range | translation | poisoned
  deriving DecidableEq, Repr

/-- A reduction tree of a collective: which ranks' elements are combined with which (R126, R208). -/
inductive RTree where
  | leaf (rank : Nat)
  | node (a b : RTree)
  deriving DecidableEq, Repr

/-- What a rank announces at the first step of a collective (R340): the digest of its communicator table and its operand
block. -/
structure CoHead where
  rank   : Nat
  digest : BitVec 256
  block  : BitVec 512
  deriving DecidableEq, Repr

/-- What reaches an item of a collective from the ranks of other devices, and the tree that combines the elements: `elems`
gives each rank's element, none where it is poisoned. -/
structure CoFar where
  elems : List (Nat × Option Word)
  tree  : RTree
  deriving DecidableEq, Repr

/-- What the near-memory engine of a team does next: a command by its place in the queue and a row of it, which a bobbin
unit takes up, or of which it writes an element once it holds it (R206, R322). -/
structure NearPick where
  op   : Nat
  row  : Nat
  elem : Option Nat
  deriving DecidableEq, Repr

/-- A group whose grant the gate unit answers. Where another part homes the gate, `far` is that unit's answer: none yet, 0
the grant, else the detail of a fault (R285). -/
structure GateAsk where
  group : GRef
  far   : Option (BitVec 2)
  deriving DecidableEq, Repr

/-- An operation that takes its point at a gate, and the value that the unit of another part sends back (R287). -/
structure GateAt where
  op  : Nat
  far : DWord
  deriving DecidableEq, Repr

/-- A physical address in a tier (R316). -/
structure TierPlace where
  tier : Nat
  addr : Nat
  deriving DecidableEq, Repr

/-- One constructor for each row of spec/opcode_table.json. -/
inductive Instr where
  -- control (R97, R99 to R106, R81 to R83, R91, R96)
  | nop (h : Hdr)
  | bra (h : Hdr) (c : Cond) (disp : Word)
  | brx (h : Hdr) (c : Cond) (a : BitVec 6) (off : Word)
  | call (h : Hdr) (c : Cond) (d : BitVec 6) (disp : Word)
  | ret (h : Hdr) (c : Cond) (a : BitVec 6)
  | mif (inv : Bool) (d : BitVec 6) (a : BitVec 3)
  | melse (a : BitVec 6)
  | mend (a : BitVec 6)
  | rgn (len : Len) (idem conv : Bool) (ws : WSet)
  | exit (h : Hdr)
  | prioPassImm (h : Hdr) (t : BitVec 6)
  | prioPassReg (h : Hdr) (a : BitVec 6)
  | spawn (h : Hdr) (d a : BitVec 6) (spool : BitVec 6)
  | ltrig (h : Hdr)
  | icinv (h : Hdr) (sc : Scope) (a b : BitVec 6)
  | icinvAcknowledge (g : GRef) (core : Nat)
  -- integer (R131 to R141)
  | iadd (h : Hdr) (o : Alu)
  | iaddc (h : Hdr) (w64 : Bool) (d a : VOp) (b : SrcB) (po : BitVec 3) (cie : Bool) (pi : BitVec 3)
  | isub (h : Hdr) (o : Alu)
  | imul (h : Hdr) (o : Alu)
  | imulh (h : Hdr) (o : Alu)
  | imad (h : Hdr) (o : Alu) (c : VOp)
  | imin (h : Hdr) (o : Alu)
  | imax (h : Hdr) (o : Alu)
  | iabs (h : Hdr) (o : Alu1)
  | and (h : Hdr) (o : Alu)
  | or (h : Hdr) (o : Alu)
  | xor (h : Hdr) (o : Alu)
  | not (h : Hdr) (o : Alu1)
  | shl (h : Hdr) (o : Alu)
  | shr (h : Hdr) (o : Alu)
  | sar (h : Hdr) (o : Alu)
  | bfe (h : Hdr) (o : Alu)
  | bfi (h : Hdr) (o : Alu) (ctl : Ctl)
  | popc (h : Hdr) (o : Alu1)
  | clz (h : Hdr) (o : Alu1)
  | brev (h : Hdr) (o : Alu1)
  | iset (h : Hdr) (cmp : Cmp) (ty : ITy) (d : BitVec 3) (a : VOp) (b : SrcB)
  | sel (h : Hdr) (ty : ITy) (d a : VOp) (b : SrcB) (pc : BitVec 3) (inv : Bool)
  | mov (h : Hdr) (w64 : Bool) (f : MovForm)
  | mtx (h : Hdr) (d : BitVec 3) (a : VOp)
  | mtxIdx (h : Hdr) (d : BitVec 3) (a : VOp)
  | mtxAdd (h : Hdr) (d : BitVec 3) (imm : BitVec 6)
  | mfsr (h : Hdr) (dst : SrDst) (d : BitVec 10) (sr : BitVec 6)
  | mtsr (len : Len) (sr : BitVec 6) (a : BitVec 10)
  -- floating point (R142 to R147)
  | fadd (h : Hdr) (o : Fpu)
  | fsub (h : Hdr) (o : Fpu)
  | fmul (h : Hdr) (o : Fpu)
  | ffma (h : Hdr) (o : Fpu) (c : VOp)
  | fmin (h : Hdr) (d a : VOp) (b : SrcB)
  | fmax (h : Hdr) (d a : VOp) (b : SrcB)
  | fset (h : Hdr) (cmp : Cmp) (d : BitVec 3) (a : VOp) (b : SrcB)
  | frcp (h : Hdr) (o : Fpu1)
  | frsq (h : Hdr) (d a : VOp)
  | fsqrt (h : Hdr) (o : Fpu1)
  | fexp2 (h : Hdr) (d a : VOp)
  | flog2 (h : Hdr) (d a : VOp)
  | fsin (h : Hdr) (d a : VOp)
  | fcos (h : Hdr) (d a : VOp)
  | ftanh (h : Hdr) (d a : VOp)
  | fsigm (h : Hdr) (d a : VOp)
  | pfadd (h : Hdr) (o : Fpu)
  | pfmul (h : Hdr) (o : Fpu)
  | pffma (h : Hdr) (o : Fpu) (c : VOp)
  | cvt (h : Hdr) (dt st : Fmt) (el : BitVec 2) (mode : RMode) (sat : Bool) (d a : VOp)
  | pack (h : Hdr) (hi : Bool) (fmt : Fmt) (mode : RMode) (sat : Bool) (d a b : VOp)
  -- lane exchange (R148 to R152)
  | shfl (h : Hdr) (mode : ShMode) (seg : BitVec 3) (d a : BitVec 10) (n : ShN)
  | voteBallot (h : Hdr) (inv : Bool) (d : BitVec 10) (a : BitVec 3)
  | voteAny (h : Hdr) (inv : Bool) (d a : BitVec 3)
  | voteAll (h : Hdr) (inv : Bool) (d a : BitVec 3)
  | voteUni (h : Hdr) (inv : Bool) (d a : BitVec 3)
  | redg (h : Hdr) (op : ROp) (ty : ITy) (toV : Bool) (d a : BitVec 10)
  | scang (h : Hdr) (op : ROp) (ty : ITy) (excl : Bool) (d a : BitVec 10)
  | rebal (h : Hdr) (d : BitVec 10) (p : BitVec 3) (a b : BitVec 10)
  -- memory (R158 to R170)
  | lds (h : Hdr) (o : SpAcc)
  | sts (h : Hdr) (o : SpAcc)
  | atoms (h : Hdr) (o : Atom) (a : BitVec 10)
  | dld (h : Hdr) (o : DnAcc)
  | dst (h : Hdr) (o : DnAcc)
  | tld (h : Hdr) (o : RowAcc)
  | tst (h : Hdr) (o : RowAcc)
  | fetch (h : Hdr) (o : Fetch)
  | wait (len : Len) (ld st cp mx : BitVec 6)
  | waitp (path : BitVec 3) (a : BitVec 6)
  -- keyed tables (R173 to R190)
  | tlk (h : Hdr) (o : TPoint)
  | tins (h : Hdr) (o : TPoint)
  | tups (h : Hdr) (o : TPoint)
  | tdel (h : Hdr) (o : TPoint)
  | tseek (h : Hdr) (o : TRange)
  | tnext (h : Hdr) (w : KWidth) (d : BitVec 10) (p : BitVec 3) (k : BitVec 10) (cur : BitVec 10)
  | tkey (h : Hdr) (w : KWidth) (d : BitVec 10) (p : BitVec 3) (ref : BitVec 10)
  | tcnt (h : Hdr) (o : TRange)
  | tdrop (h : Hdr) (o : TRange)
  | tableOrderPoint (g : GRef) (op : Nat) (pick : Nat) (bad : Bool)
  -- engines (R193 to R209)
  | cpy (h : Hdr) (dir : CpyDir) (bar : Option (BitVec 4)) (mc : Option (BitVec 8)) (d a b : BitVec 10)
  | gath (h : Hdr) (kind : GathKind) (bar : Option (BitVec 4)) (d a b : BitVec 10) (off len : BitVec 16)
  | nmc (h : Hdr) (bar : Option (BitVec 4)) (d a : BitVec 10)
  | coll (h : Hdr) (bar : Option (BitVec 4)) (d a : BitVec 10)
  | cpyqf (h : Hdr) (bar : Option (BitVec 4)) (mask : BitVec 4)
  | copyEngineOperation (team : Nat) (item : Nat) (fail : Bool)
  | gatherEngineOperation (team : Nat) (item : Nat) (fail : Bool)
  | nearMemoryCommandApply (team : Nat) (pick : NearPick)
  | collectiveOperation (team : Nat) (item : Nat) (ext : CoFar) (digests : List CoHead)
  -- matrix (R228, R237 to R241)
  | mxstart (h : Hdr) (q : Option (BitVec 6)) (stream : Word)
  | mxstat (d : BitVec 6)
  | mxrd (h : Hdr) (n1 : BitVec 3) (m : BitVec 2) (d : BitVec 10) (a : BitVec 6)
  | mxwr (h : Hdr) (n1 : BitVec 3) (m : BitVec 2) (d : BitVec 10) (a : BitVec 6)
  | mxdrain (h : Hdr) (core : Option (BitVec 3)) (a : BitVec 6)
  | mxrest (h : Hdr) (core : Option (BitVec 3)) (a : BitVec 6)
  -- barriers (R211)
  | barinit (h : Hdr) (b : BitVec 4) (a : BitVec 6) (count : BitVec 12)
  | bararr (h : Hdr) (b : BitVec 4) (a : BitVec 6)
  | barwait (h : Hdr) (b : BitVec 4) (a : BitVec 6) (phase : Bool)
  | bartest (h : Hdr) (d : BitVec 3) (a : BitVec 6) (b : BitVec 4) (phase : Bool)
  -- atomics, grid barrier, gates (R266, R271, R284)
  | tatom (h : Hdr) (o : Atom) (ref : BitVec 10)
  | datom (h : Hdr) (o : Atom) (tab : BitVec 10) (key : BitVec 10)
  | barg (h : Hdr) (a : BitVec 6)
  | gsig (h : Hdr) (a : BitVec 6) (v : GateArg)
  | gwait (h : Hdr) (d a : BitVec 6) (v : GateArg)
  | grd (h : Hdr) (d a : BitVec 6)
  | gtry (h : Hdr) (d : BitVec 3) (a : BitVec 6) (v : GateArg)
  | gateGrant (g : GateAsk)
  | gatePoint (g : GRef) (op : GateAt)
  | gateTokenRefill
  -- traps (R300, R301)
  | trap (h : Hdr) (code : Word)
  | brk (h : Hdr) (code : Word)
  | tret (h : Hdr) (form : TretForm)
  -- tile words (R63, R229)
  | tnop
  | tend
  | tsetq (q : BitVec 3) (k : Word)
  | tlw (ws : BitVec 1) (fmt : Fmt) (q : BitVec 3) (pi : Bool) (k : Word)
  | tmm (m : BitVec 2) (ws : BitVec 1) (fmt : Fmt) (acc : Bool) (q : BitVec 3) (pi : Bool) (n : BitVec 7) (k : Word)
  | tzero (m : BitVec 2)
  | tlda (m : BitVec 2) (q : BitVec 3) (pi : Bool) (k : Word)
  | tsto (m : BitVec 2) (fmt : Fmt) (q : BitVec 3) (pi : Bool) (k : Word)
  | tarb (b : BitVec 4)
  | twb (b : BitVec 4) (phase : Bool)
  | tloop (n : BitVec 7) (k : Word)
  -- steps of the sequencer, of parks and of the ordering machine
  | tileWordFetchMiss (team : Nat)
  | stopDelivery (team : Nat)
  | serveParkSlots (g : GRef)
  | loadComplete (g : GRef) (op : Nat) (lanes : Lanes) (ext : List (BitVec 128))
  | storePerform (g : GRef) (op : Nat) (lanes : Lanes)
  | moveHome (core : Nat) (index : Nat)
  | l1Drop (core : Nat) (line : Nat)
  | clusterWriteBack (cluster : Nat) (line : Nat) (drop : Bool)
  | clusterAtomicEngineBatch (cluster : Nat) (reqs : List (GRef × Nat))
  | homeSliceAtomic (g : GRef) (op : Nat)
  | atomicopCompletion (g : GRef) (op : Nat) (lane : Nat) (c : Completion) (ext : DWord)
  -- spooler and reports
  | takeRecord (part spool : Nat)
  | waitOnValue (part spool : Nat)
  | signalValue (part spool : Nat)
  | copyCommand (part spool : Nat) (item : Nat) (fail : Bool)
  | collectiveCommand (part spool : Nat) (item : Nat) (ext : CoFar) (digests : List CoHead)
  | earlyDependentLaunch (part spool : Nat)
  | placeGang (part spool pos : Nat) (cluster : Nat)
  | teamEnd (team : Nat)
  | continuationPush (part : Nat) (index : Nat)
  | completionRecord (part spool pos : Nat)
  | pushReport (part : Nat)
  | spoolEnable (part spool : Nat) (v : DWord)
  | spoolDisable (part spool : Nat)
  | sptailWrite (part spool : Nat) (v : Word)
  | cqcfgEnable (part spool : Nat) (v : DWord)
  | supackWrite (part : Nat) (v : Word)
  | registerWrite (r : RegName) (v : DWord)
  -- tables, gates, partitions, pre-emption
  | tableBind (part slot : Nat) (rec : BitVec 1024)
  | tableUnbind (part slot : Nat)
  | gateActivate (gate : Nat) (rec : BitVec 512)
  | gateFreeze (gate : Nat)
  | gateMigrate (gate : Nat) (dev num : Nat)
  | partitionEnable (part : Nat) (v : DWord)
  | partitionDisable (part : Nat)
  | sliceEnd (part : Nat)
  | preemptRequest (team : Nat)
  | fullSave (g : GRef)
  | teamStop (team : Nat)
  | hubArrayDrain (team : Nat)
  | teamResume (team : Nat)
  | endHaltedTeam (team : Nat)
  | gridAbort (part spool pos : Nat)
  | communicatorAbort (part comm : Nat)
  | thermalThrottle (cluster : Nat) (num den : Nat)
  | thrdebtWrite (part : Nat) (v : DWord)
  | powerCapThrottle (num den : Nat)
  | hangWatchdogExpiry (part spool pos : Nat)
  -- translation, tiers, time, windows
  | inval
  | resume
  | move
  | discard
  | tierDemotion (tier : Nat) (part va : Nat)
  | pageMove (dest : TierPlace)
  | timectlWrite (part : Nat) (v : DWord)
  | windowEnable (part index : Nat) (v : BitVec 256)
  | windowDisable (part index : Nat)
  | inboundApertureRead (part off n : Nat)
  | inboundApertureWrite (part off : Nat) (bytes : List Byte)
  | peerRequest (part : Nat) (srcDev srcPart off : Nat) (op : PeerOp)
  | skeinPortDown (port : Nat)
  | skcfgWrite (v : DWord)
  -- reset, firmware, power, errors
  | coldReset
  | warmReset
  | functionLevelReset (part : Nat)
  | mailboxImageWrite (image : List Byte)
  | attestationRequest (part : Option Nat) (nonce : List Byte)
  | standbyEntry
  | standbyExit
  | clusterIdle (cluster : Nat)
  | uncorrectableError (w : ErrWhere) (lasting : Bool) (tie : ErrTie)
  | correctedError (w : ErrWhere)
  | selfTest (unit : Unit334) (lasting : Bool) (tie : ErrTie)
  | remapRewrite (core : Nat) (entry : Option Nat)
  -- fates of words that are not instructions
  | unassignedEncoding (sub : BitVec 8) (len : Len)
  | codeFetchFault (e : FetchErr)
  | unassignedTileWord (sub : BitVec 8)
  | tileWordFetchFault (e : FetchErr)
  | linkLevelRetry (port : Nat)
  | completionTimeout (g : GRef) (op : Nat) (lane : Nat)
  | thermalThrottleEnd (cluster : Nat)
  | powerCapThrottleEnd
  deriving DecidableEq, Repr

end Sys2Proof
end

