-- ==== Sys2Proof/WellFormed.lean ====
section
/-! DEFINITION. Which terms of Syntax are instructions of the L7: the lengths each entry accepts (R50), the register
classes and alignments (R55, R36), the limits of its fields. -/

namespace Sys2Proof

/-- The register classes that operand fields name (R55). -/
inductive RCls where
  | v | s | p | x | c
  deriving DecidableEq, Repr

/-- One register operand of an instruction: its class, its first register, how many registers it spans, the alignment
its entry asks for, and whether the instruction writes it. -/
structure Use where
  cls   : RCls
  op    : VOp
  cnt   : Nat
  align : Nat
  dst   : Bool
  deriving DecidableEq, Repr

/-- The width of an integer type in bits (R111). -/
def ITy.width : ITy → Nat
  | .s32 | .b32 => 32
  | .s64 | .b64 => 64

/-- The vector registers that a value of an integer type occupies (R129). -/
def ITy.regs : ITy → Nat
  | .s32 | .b32 => 1
  | .s64 | .b64 => 2

/-- Whether the type is signed (R111). -/
def ITy.signed : ITy → Bool
  | .s32 | .s64 => true
  | .b32 | .b64 => false

/-- The bytes of an access (R160). -/
def Size.bytes : Size → Nat
  | .b32 => 4
  | .b64 => 8
  | .b128 => 16

/-- Registers of an access (R160). -/
def Size.regs : Size → Nat
  | .b32 => 1
  | .b64 => 2
  | .b128 => 4

/-- Whether the words hold extended words 1 and 2 (R50). -/
def Len.isExt : Len → Bool
  | .ext | .extLit => true
  | .base | .lit => false

/-- Whether the words end in a literal (R50). -/
def Len.isLit : Len → Bool
  | .lit | .extLit => true
  | .base | .ext => false

/-- The length in bytes (R50). -/
def Len.bytes : Len → Nat
  | .base => 4
  | .lit | .ext => 12
  | .extLit => 20

/-- Registers of a format in vector registers (R111, R146). -/
def Fmt.regs : Fmt → Nat
  | .s64 | .b64 => 2
  | _ => 1

/-- Whether the format is an integer type. -/
def Fmt.isInt : Fmt → Bool
  | .s32 | .b32 | .s64 | .b64 => true
  | _ => false

/-- Whether the code is one that CVT accepts (R146): codes 0 to 7. -/
def Fmt.inCvt : Fmt → Bool
  | .i4g | .i3g => false
  | _ => true

/-- The order of the floating-point formats by width; a conversion to a higher rank widens (R118). -/
def Fmt.rank : Fmt → Nat
  | .f32 => 3
  | .bf16 => 2
  | .e4m3 | .e5m2 => 1
  | _ => 0

/-- Whether a conversion between floating-point formats is exact for every value: to a wider format, or to the same. -/
def exactConv (dt st : Fmt) : Bool := dt == st || decide (st.rank < dt.rank)

/-- The registers of a key (R36, R176). -/
def KWidth.regs : KWidth → Nat
  | .k32 => 1
  | .k64 => 2
  | .k128 => 4

def vUse (o : VOp) (cnt align : Nat) (dst : Bool) : Use := ⟨.v, o, cnt, align, dst⟩
def sUse (n : BitVec 10) (cnt align : Nat) (dst : Bool) : Use := ⟨.s, .reg n, cnt, align, dst⟩
def s6Use (n : BitVec 6) (cnt align : Nat) (dst : Bool) : Use := ⟨.s, .reg (n.setWidth 10), cnt, align, dst⟩
def pUse (n : BitVec 3) (dst : Bool) : Use := ⟨.p, .reg (n.setWidth 10), 1, 1, dst⟩

/-- Source B of the mould, with `n` registers; in scalar form every name is scalar (R129). -/
def srcUse (sf : Bool) (n : Nat) : SrcB → List Use
  | .vec o => if sf then [⟨.s, o, 1, 1, false⟩] else [vUse o n n false]
  | .sca m => [sUse m 1 1 false]
  | .imm _ => []

/-- A vector operand of the mould, or a scalar one in scalar form. -/
def mouldUse (sf : Bool) (o : VOp) (n : Nat) (dst : Bool) : Use :=
  if sf then ⟨.s, o, 1, 1, dst⟩ else vUse o n n dst

def Alu.uses (o : Alu) : List Use :=
  [mouldUse o.sf o.d o.ty.regs true, mouldUse o.sf o.a o.ty.regs false] ++ srcUse o.sf o.ty.regs o.b

def Alu1.uses (o : Alu1) : List Use := [mouldUse o.sf o.d o.ty.regs true, mouldUse o.sf o.a o.ty.regs false]

def Fpu.uses (o : Fpu) : List Use := [vUse o.d 1 1 true, vUse o.a 1 1 false] ++ srcUse false 1 o.b

/-- The uses of a key operand whose width the instruction does not fix: its first register only. The registers that
the table's key type adds are found at issue (R36). -/
def KeyOp.use : KeyOp → Use
  | .vec n => vUse (.reg n) 1 1 false
  | .sca n => sUse n 1 1 false

def spUse : SpBase → List Use
  | .vec o => [vUse o 1 1 false]
  | .sca n => [sUse n 1 1 false]
  | .none => []

/-- Every register operand of an instruction. -/
def Instr.uses : Instr → List Use
  | .brx _ _ a _ => [s6Use a 1 1 false]
  | .call _ _ d _ => [s6Use d 1 1 true]
  | .ret _ _ a => [s6Use a 1 1 false]
  | .mif _ d a => [s6Use d 1 1 true, pUse a false]
  | .melse a => [s6Use a 1 1 false]
  | .mend a => [s6Use a 1 1 false]
  | .rgn _ _ _ (.some vb n1 _) => [vUse (.reg vb) (n1.toNat + 1) 1 false]
  | .prioPassReg _ a => [s6Use a 1 1 false]
  | .spawn _ d a _ => [s6Use d 1 1 true, s6Use a 4 4 false]
  | .icinv _ _ a b => [s6Use a 1 1 false, s6Use b 1 1 false]
  | .iadd _ o | .isub _ o | .imul _ o | .imulh _ o | .imin _ o | .imax _ o | .and _ o | .or _ o | .xor _ o
  | .shl _ o | .shr _ o | .sar _ o | .bfe _ o => o.uses
  | .iaddc _ w64 d a b po _ pi =>
    let n := if w64 then 2 else 1
    [vUse d n n true, vUse a n n false, pUse po true, pUse pi false] ++ srcUse false n b
  | .imad _ o c => o.uses ++ [mouldUse o.sf c o.ty.regs false]
  | .iabs _ o | .not _ o | .popc _ o | .clz _ o | .brev _ o => o.uses
  | .bfi _ o ctl =>
    o.uses ++ (match ctl with | .c c => [mouldUse o.sf c o.ty.regs false] | .imm _ => [])
  | .iset _ _ ty d a b => [pUse d true, vUse a ty.regs ty.regs false] ++ srcUse false ty.regs b
  | .sel _ ty d a b pc _ =>
    [vUse d ty.regs ty.regs true, vUse a ty.regs ty.regs false, pUse pc false] ++ srcUse false ty.regs b
  | .mov _ w f =>
    let n := if w then 2 else 1
    match f with
    | .vv d a => [vUse (.reg d) n n true, vUse (.reg a) n n false]
    | .vs d a => [vUse (.reg d) n n true, sUse a 1 1 false]
    | .vi d _ => [vUse (.reg d) n n true]
    | .ss d a => [sUse d 1 1 true, sUse a 1 1 false]
    | .si d _ => [sUse d 1 1 true]
    | .first d a => [sUse d 1 1 true, vUse (.reg a) n n false]
  | .mtx _ _ a | .mtxIdx _ _ a => [vUse a 1 1 false]
  | .mfsr _ .v d _ => [vUse (.reg d) 1 1 true]
  | .mfsr _ .s d _ => [sUse d 1 1 true]
  | .mfsr _ .pair d _ => [vUse (.reg d) 2 2 true]
  | .mtsr _ _ a => [sUse a 1 1 false]
  | .fadd _ o | .fsub _ o | .fmul _ o | .pfadd _ o | .pfmul _ o => o.uses
  | .ffma _ o c | .pffma _ o c => o.uses ++ [vUse c 1 1 false]
  | .fmin _ d a b | .fmax _ d a b => [vUse d 1 1 true, vUse a 1 1 false] ++ srcUse false 1 b
  | .fset _ _ d a b => [pUse d true, vUse a 1 1 false] ++ srcUse false 1 b
  | .frcp _ o | .fsqrt _ o => [vUse o.d 1 1 true, vUse o.a 1 1 false]
  | .frsq _ d a | .fexp2 _ d a | .flog2 _ d a | .fsin _ d a | .fcos _ d a | .ftanh _ d a | .fsigm _ d a =>
    [vUse d 1 1 true, vUse a 1 1 false]
  | .cvt _ dt st _ _ _ d a => [vUse d dt.regs dt.regs true, vUse a st.regs st.regs false]
  | .pack _ _ _ _ _ d a b => [vUse d 1 1 true, vUse a 1 1 false, vUse b 1 1 false]
  | .shfl _ _ _ d a n =>
    [vUse (.reg d) 1 1 true, vUse (.reg a) 1 1 false] ++
      (match n with | .vec b => [vUse (.reg b) 1 1 false] | .imm _ => [])
  | .voteBallot _ _ d a => [sUse d 1 1 true, pUse a false]
  | .voteAny _ _ d a | .voteAll _ _ d a | .voteUni _ _ d a => [pUse d true, pUse a false]
  | .redg _ _ ty toV d a =>
    (if toV then [vUse (.reg d) ty.regs ty.regs true] else [sUse d 1 1 true]) ++ [vUse (.reg a) ty.regs ty.regs false]
  | .scang _ _ ty _ d a => [vUse (.reg d) ty.regs ty.regs true, vUse (.reg a) ty.regs ty.regs false]
  | .rebal _ d p a b => [vUse (.reg d) 2 2 true, pUse p true, vUse (.reg a) 1 1 false, sUse b 1 1 false]
  | .lds _ o => vUse o.data o.size.regs o.size.regs true :: spUse o.base
  | .sts _ o => vUse o.data o.size.regs o.size.regs false :: spUse o.base
  | .atoms _ o a =>
    let n := o.ty.regs
    [vUse (.reg o.d) n n true, vUse (.reg a) 1 1 false, vUse (.reg o.b) n n false] ++
      (if o.op = .cas then [vUse (.reg o.c) n n false] else [])
  | .dld _ o => [vUse o.data o.size.regs o.size.regs true, sUse o.tab 1 1 false, o.key.use]
  | .dst _ o => [vUse o.data o.size.regs o.size.regs false, sUse o.tab 1 1 false, o.key.use]
  | .tld _ o =>
    [vUse o.data o.size.regs o.size.regs true, vUse (.reg o.ref) 2 2 false] ++
      (match o.ck with | some p => [pUse p true] | none => [])
  | .tst _ o => [vUse o.data o.size.regs o.size.regs false, vUse (.reg o.ref) 2 2 false]
  | .fetch _ o =>
    [vUse o.d (o.n1.toNat + 1) 1 true, sUse o.tab 1 1 false] ++
      (match o.key with | .vec k => [vUse k 1 1 false] | .sca n => [sUse n 1 1 false]) ++
      (match o.c with | .vec c => [vUse c 1 1 false] | .imm _ => [])
  | .waitp _ a => [s6Use a 1 1 false]
  | .tlk _ o | .tins _ o | .tups _ o =>
    [vUse (.reg o.d) 2 2 true, pUse o.p true, sUse o.tab 1 1 false, o.key.use]
  | .tdel _ o => [pUse o.p true, sUse o.tab 1 1 false, o.key.use]
  | .tseek _ o => [⟨.c, .reg o.d, 1, 1, true⟩, sUse o.tab 1 1 false, o.lo.use, o.hi.use]
  | .tnext _ w d p k cur =>
    [vUse (.reg d) 2 2 true, pUse p true, vUse (.reg k) w.regs w.regs true, ⟨.c, .reg cur, 1, 1, true⟩]
  | .tkey _ w d p ref => [vUse (.reg d) w.regs w.regs true, pUse p true, vUse (.reg ref) 2 2 false]
  | .tcnt _ o => [vUse (.reg o.d) 2 2 true, sUse o.tab 1 1 false, o.lo.use, o.hi.use]
  | .tdrop _ o => [sUse o.tab 1 1 false, o.lo.use, o.hi.use]
  | .cpy _ _ _ _ d a b => [sUse d 2 2 false, sUse a 2 2 false, sUse b 1 1 false]
  | .gath _ k _ d a b _ _ =>
    [sUse d 2 2 false, sUse b 2 2 false] ++ (if k = .ref then [] else [sUse a 1 1 false])
  | .nmc _ _ d a => [sUse d 1 1 false, sUse a 4 4 false]
  | .coll _ _ d a => [sUse d 1 1 false, sUse a 2 2 false]
  | .mxstart _ (some a) _ => [s6Use a 8 8 false]
  | .mxstat d => [s6Use d 1 1 true]
  | .mxrd _ n1 _ d a => [vUse (.reg d) (n1.toNat + 1) 1 true, s6Use a 1 1 false]
  | .mxwr _ n1 _ d a => [vUse (.reg d) (n1.toNat + 1) 1 false, s6Use a 1 1 false]
  | .mxdrain _ _ a | .mxrest _ _ a => [s6Use a 2 2 false]
  | .barinit _ _ a _ | .bararr _ _ a | .barwait _ _ a _ => [s6Use a 1 1 false]
  | .bartest _ d a _ _ => [pUse d true, s6Use a 1 1 false]
  | .tatom _ o ref =>
    let n := o.ty.regs
    [vUse (.reg o.d) n n true, vUse (.reg ref) 2 2 false, vUse (.reg o.b) n n false] ++
      (if o.op = .cas then [vUse (.reg o.c) n n false] else [])
  | .datom _ o tab key =>
    let n := o.ty.regs
    let m := if o.op = .cas then 2 * n else n
    [vUse (.reg o.d) n n true, sUse tab 1 1 false, vUse (.reg key) 1 1 false, vUse (.reg o.b) m m false]
  | .barg _ a => [s6Use a 1 1 false]
  | .gsig _ a v => s6Use a 1 1 false :: (match v with | .sca n => [s6Use n 1 1 false] | .imm _ => [])
  | .gwait _ d a v =>
    [s6Use d 1 1 true, s6Use a 1 1 false] ++ (match v with | .sca n => [s6Use n 1 1 false] | .imm _ => [])
  | .grd _ d a => [s6Use d 1 1 true, s6Use a 1 1 false]
  | .gtry _ d a v =>
    [pUse d true, s6Use a 1 1 false] ++ (match v with | .sca n => [s6Use n 1 1 false] | .imm _ => [])
  | _ => []

/-- The numbers a class allows, trap-mode numbers included (R55). A range that runs past the last vector register is
refused too; past another class's last register only an unaligned range can run, and the alignment refuses that. -/
def Use.legal (u : Use) : Bool :=
  match u.op with
  | .idx _ off => decide (u.cls = .v ∧ u.cnt = 1 ∧ off.toNat ≤ 639)
  | .reg n =>
    let i := n.toNat
    match u.cls with
    | .v => decide (i + u.cnt ≤ 640 ∨ (1008 ≤ i ∧ (i + u.cnt ≤ 1024 ∨ i % u.align ≠ 0)))
    | .s => decide (i + u.cnt ≤ 64 ∨ (i ≤ 63 ∧ i % u.align ≠ 0) ∨ (1016 ≤ i ∧ (i + u.cnt ≤ 1024 ∨ i % u.align ≠ 0)))
    | .p => decide (i ≤ 7) && !(u.dst && decide (i = 7))
    | .x | .c => decide (i ≤ 7)

/-- The alignment of the first register (R55). -/
def Use.aligned (u : Use) : Bool :=
  match u.op with
  | .idx _ _ => true
  | .reg n => decide (n.toNat % u.align = 0)

/-- Whether the length carries the operand: numbers above 63 need the extended forms, indexed operands the literal. -/
def Use.carried (l : Len) (u : Use) : Bool :=
  match u.op with
  | .idx _ _ => l.isLit
  | .reg n => l.isExt || decide (n.toNat < 64)

/-- The guard and the length (R50, R57): NEG needs the extended form, and P = 7 with NEG = 1 is no instruction. -/
def Hdr.wf (h : Hdr) (lens : List Len) : Bool :=
  lens.contains h.len && (h.len.isExt || !h.neg) && !(h.neg && h.p == 7)

def allLens : List Len := [.base, .lit, .ext, .extLit]
def extLens : List Len := [.ext, .extLit]
def shortLens : List Len := [.base, .ext]

/-- In the base form and with L = 0b01 every modifier is the default one (R53). -/
def plain (h : Hdr) (b : Bool) : Bool := h.len.isExt || b

/-- Source B: an immediate or a scalar needs the extended form. -/
def SrcB.plain : SrcB → Bool
  | .vec _ => true
  | _ => false

def Alu.wf (h : Hdr) (o : Alu) (sat : Bool) : Bool :=
  h.wf allLens && Sys2Proof.plain h (!o.sat && !o.sf && o.b.plain) && (sat || !o.sat)

def Alu1.wf (h : Hdr) (o : Alu1) (sat : Bool) : Bool :=
  h.wf allLens && Sys2Proof.plain h (!o.sat && !o.sf) && (sat || !o.sat)

def Fpu.wf (h : Hdr) (o : Fpu) (lens : List Len) : Bool :=
  h.wf lens && Sys2Proof.plain h (!o.sat && o.mode == .rn && o.b.plain)

/-- A scalar operand outside the scalar form is never indexed. -/
def scalarOk (sf : Bool) (os : List VOp) : Bool :=
  !sf || os.all fun o => match o with | .reg _ => true | .idx _ _ => false

def srcOps : SrcB → List VOp
  | .vec o => [o]
  | _ => []

/-- A branch displacement: `w` bits in the base form, a multiple of 4 in both (R100). -/
def dispOk (h : Hdr) (w : Nat) (d : Word) : Bool :=
  decide (d.toNat % 4 = 0) &&
    (h.len.isExt || decide (-(2 ^ (w + 1) : Int) ≤ d.toInt ∧ d.toInt < 2 ^ (w + 1)))

/-- A scratchpad displacement: 0 to 252 in steps of 4 in the base form (R161). -/
def spOk (h : Hdr) (d : Word) : Bool := h.len.isExt || decide (d.toNat % 4 = 0 ∧ d.toNat < 256)

def barOk (h : Hdr) (b : Option (BitVec 4)) : Bool := h.len.isExt || b.isNone

/-- Whether the term is a group instruction of the L7, entry by entry. Register classes, alignments and what the
length can carry are added by `Instr.wf`. -/
def Instr.formOk : Instr → Bool
  | .nop h | .exit h | .ltrig h => h.wf [.base]
  | .bra h _ d => h.wf shortLens && dispOk h 18 d
  | .brx h _ _ off => h.wf shortLens && plain h (off == 0)
  | .call h _ _ d => h.wf shortLens && dispOk h 12 d
  | .ret h _ _ => h.wf shortLens
  | .mif _ _ _ | .melse _ | .mend _ => true
  | .rgn len _ _ ws =>
    match ws with
    | .none => len.isExt
    | .some vb n1 live => decide (vb.toNat + n1.toNat < 640) &&
      if len.isLit then decide (live.toNat < 2 ^ (n1.toNat + 1)) else decide (live.toNat = 2 ^ (n1.toNat + 1) - 1)
  | .prioPassImm h _ | .prioPassReg h _ => h.wf [.base]
  | .spawn h _ _ _ => h.wf [.base]
  | .icinv h sc _ _ => h.wf shortLens && plain h (sc == .team)
  | .iadd h o | .isub h o | .imul h o => o.wf h true && scalarOk o.sf ([o.d, o.a] ++ srcOps o.b)
  | .imulh h o | .imin h o | .imax h o | .and h o | .or h o | .xor h o | .shl h o | .shr h o | .sar h o | .bfe h o =>
    o.wf h false && scalarOk o.sf ([o.d, o.a] ++ srcOps o.b)
  | .iaddc h _ _ _ _ _ _ _ => h.wf extLens
  | .imad h o c => o.wf h true && h.len.isExt && scalarOk o.sf ([o.d, o.a, c] ++ srcOps o.b)
  | .iabs h o => o.wf h true && o.ty.signed && scalarOk o.sf [o.d, o.a]
  | .not h o | .popc h o | .clz h o | .brev h o => o.wf h false && scalarOk o.sf [o.d, o.a]
  | .bfi h o ctl =>
    o.wf h false && h.len.isExt && scalarOk o.sf ([o.d, o.a] ++ srcOps o.b) &&
      (match o.b, ctl with | .imm _, _ => false | _, .c c => scalarOk o.sf [c] | _, .imm _ => true)
  | .iset h cmp _ _ _ b => h.wf allLens && plain h (cmp == .eq && b.plain) && cmp != .num && cmp != .nan
  | .sel h _ _ _ _ _ _ => h.wf extLens
  | .mov h w f =>
    match f with
    | .vv _ _ => h.wf shortLens && plain h (!w)
    | .vs _ _ | .ss _ _ | .first _ _ => h.wf [.ext]
    | .vi _ raw | .si _ raw => h.wf extLens && (if h.len.isLit then w else decide (raw.toNat < 2 ^ 32))
  | .mtx h _ _ | .mtxIdx h _ _ | .mtxAdd h _ _ => h.wf allLens
  | .mfsr h out _ sr =>
    h.wf shortLens && decide (sr.toNat ≤ 16) && (out != .s || (h.p == 7 && sr != 1))
  | .mtsr len sr _ =>
    [Len.base, .ext].contains len && [0, 11, 12, 13, 14, 15, 16].contains sr.toNat
  | .fadd h o | .fsub h o | .fmul h o => o.wf h allLens
  | .ffma h o _ => o.wf h extLens
  | .fmin h _ _ b | .fmax h _ _ b => h.wf allLens && plain h b.plain
  | .fset h cmp _ _ b => h.wf allLens && plain h (cmp == .eq && b.plain)
  | .frcp h o | .fsqrt h o => h.wf allLens && plain h (o.mode == .rn)
  | .frsq h _ _ | .fexp2 h _ _ | .flog2 h _ _ | .fsin h _ _ | .fcos h _ _ | .ftanh h _ _ | .fsigm h _ _ =>
    h.wf allLens
  | .pfadd h o | .pfmul h o => o.wf h allLens
  | .pffma h o _ => o.wf h extLens
  | .cvt h dt st el mode sat _ _ =>
    h.wf allLens && plain h (dt == .s32 && mode == .rn) && dt.inCvt && st.inCvt &&
      (match st with | .bf16 => decide (el.toNat ≤ 1) | .e4m3 | .e5m2 => true | _ => el == 0) &&
      (if st.isInt then
        (if dt.isInt then mode == .rn else !(sat && dt == .f32))
      else if dt.isInt then !sat
      else !exactConv dt st || (mode == .rn && !sat))
  | .pack h hi fmt mode sat _ _ _ =>
    h.wf allLens && plain h (fmt == .bf16 && mode == .rn && !sat) &&
      (match fmt with | .bf16 => !hi | .e4m3 | .e5m2 => true | _ => false)
  | .shfl h _ seg _ _ n =>
    h.wf shortLens && plain h (seg == 0 && (match n with | .vec _ => true | .imm _ => false)) && decide (seg.toNat ≤ 4)
  | .voteBallot h inv _ _ => h.wf shortLens && plain h (!inv)
  | .voteAny h inv _ _ | .voteAll h inv _ _ | .voteUni h inv _ _ => h.wf shortLens && plain h (!inv)
  | .redg h op ty _ _ _ | .scang h op ty _ _ _ =>
    h.wf shortLens && plain h (op == .add && ty == .s32) &&
      (match op with | .fadd | .fmin | .fmax => ty == .s32 | _ => true)
  | .rebal h _ _ _ _ => h.wf [.ext]
  | .lds h o | .sts h o =>
    h.wf allLens && spOk h o.disp &&
      (match o.base with | .vec _ => true | _ => h.len.isExt) && (o.size == .b32 || scalarOk true [o.data]) &&
      (o.size == .b32 || (match o.base with | .vec b => scalarOk true [b] | _ => true))
  | .atoms h o _ =>
    h.wf shortLens && plain h (o.op == .add && o.off == 0) && (o.op == .cas || o.c == 0) && o.scope == .team &&
      (match o.op with | .fadd | .pbfadd => o.ty == .b32 | _ => true)
  | .dld h o | .dst h o =>
    h.wf allLens && plain h (o.scope == .team && o.off == 0 && (match o.key with | .vec _ => true | .sca _ => false)) &&
      (o.size == .b32 || scalarOk true [o.data])
  | .tld h o =>
    h.wf allLens && plain h (o.scope == .team && o.ck.isNone && decide (o.off.toNat % 4 = 0 ∧ o.off.toNat < 256)) &&
      (o.size == .b32 || scalarOk true [o.data])
  | .tst h o =>
    h.wf allLens && plain h (o.scope == .team && decide (o.off.toNat % 4 = 0 ∧ o.off.toNat < 256)) && o.ck.isNone &&
      (o.size == .b32 || scalarOk true [o.data])
  | .fetch h o =>
    h.wf extLens && (match o.fmt with | .s32 | .b32 | .f32 | .bf16 | .e4m3 | .e5m2 => true | _ => false) &&
      (o.n1 == 0 || scalarOk true [o.d])
  | .wait len _ _ _ mx => [Len.base, .ext].contains len && (len.isExt || mx == 63)
  | .waitp _ _ => true
  | .tlk h _ | .tins h _ | .tups h _ => h.wf [.ext]
  | .tdel h o => h.wf [.ext] && o.d == 0
  | .tseek h _ | .tcnt h _ => h.wf [.ext]
  | .tdrop h o => h.wf [.ext] && o.d == 0
  | .tnext h _ _ _ _ _ | .tkey h _ _ _ _ => h.wf [.ext]
  | .cpy h _ bar mc _ _ _ => h.wf shortLens && barOk h bar && plain h mc.isNone
  | .gath h k _ _ a _ _ len => h.wf [.ext] && (k != .ref || a == 0) && decide (len.toNat < 16384)
  | .nmc h bar _ _ | .coll h bar _ _ => h.wf shortLens && barOk h bar
  | .cpyqf h bar mask => h.wf shortLens && barOk h bar && mask != 0
  | .mxstart h _ stream => h.wf [.ext] && decide (stream.toNat % 8 = 0)
  | .mxstat _ => true
  | .mxrd h _ _ _ _ | .mxwr h _ _ _ _ => h.wf shortLens
  | .mxdrain h _ _ | .mxrest h _ _ => h.wf shortLens
  | .barinit h _ _ count => h.wf shortLens && plain h (decide (count.toNat ≤ 63))
  | .bararr h _ _ | .barwait h _ _ _ | .bartest h _ _ _ _ => h.wf shortLens
  | .tatom h o _ =>
    h.wf shortLens && plain h (o.op == .add && o.off == 0 && o.scope == .team) && (o.op == .cas || o.c == 0) &&
      decide (o.off.toNat < 65536) && (match o.op with | .fadd | .pbfadd => o.ty == .b32 | _ => true)
  | .datom h o _ _ =>
    h.wf [.ext] && o.c == 0 && decide (o.off.toNat < 65536) &&
      (match o.op with | .fadd | .pbfadd => o.ty == .b32 | _ => true)
  | .barg h _ => h.wf shortLens
  | .gsig h _ v | .gwait h _ _ v | .gtry h _ _ v =>
    h.wf shortLens && plain h (match v with | .sca _ => true | .imm _ => false)
  | .grd h _ _ => h.wf shortLens
  | .trap h code | .brk h code => h.wf shortLens && plain h (decide (code.toNat ≤ 63))
  | .tret h _ => h.wf [.base]
  | _ => false

/-- The length of a group instruction. -/
def Instr.len : Instr → Len
  | .nop h | .bra h _ _ | .brx h _ _ _ | .call h _ _ _ | .ret h _ _ | .exit h | .prioPassImm h _ | .prioPassReg h _
  | .spawn h _ _ _ | .ltrig h | .icinv h _ _ _ => h.len
  | .rgn len _ _ _ | .mtsr len _ _ | .wait len _ _ _ _ => len
  | .iadd h _ | .isub h _ | .imul h _ | .imulh h _ | .imin h _ | .imax h _ | .and h _ | .or h _ | .xor h _ | .shl h _
  | .shr h _ | .sar h _ | .bfe h _ | .iabs h _ | .not h _ | .popc h _ | .clz h _ | .brev h _ | .imad h _ _
  | .bfi h _ _ => h.len
  | .iaddc h _ _ _ _ _ _ _ | .iset h _ _ _ _ _ | .sel h _ _ _ _ _ _ | .mov h _ _ | .mtx h _ _ | .mtxIdx h _ _
  | .mtxAdd h _ _ | .mfsr h _ _ _ => h.len
  | .fadd h _ | .fsub h _ | .fmul h _ | .ffma h _ _ | .fmin h _ _ _ | .fmax h _ _ _ | .fset h _ _ _ _ | .frcp h _
  | .fsqrt h _ | .frsq h _ _ | .fexp2 h _ _ | .flog2 h _ _ | .fsin h _ _ | .fcos h _ _ | .ftanh h _ _
  | .fsigm h _ _ | .pfadd h _ | .pfmul h _ | .pffma h _ _ | .cvt h _ _ _ _ _ _ _ | .pack h _ _ _ _ _ _ _ => h.len
  | .shfl h _ _ _ _ _ | .voteBallot h _ _ _ | .voteAny h _ _ _ | .voteAll h _ _ _ | .voteUni h _ _ _
  | .redg h _ _ _ _ _ | .scang h _ _ _ _ _ | .rebal h _ _ _ _ => h.len
  | .lds h _ | .sts h _ | .atoms h _ _ | .dld h _ | .dst h _ | .tld h _ | .tst h _ | .fetch h _ => h.len
  | .tlk h _ | .tins h _ | .tups h _ | .tdel h _ | .tseek h _ | .tnext h _ _ _ _ _ | .tkey h _ _ _ _ | .tcnt h _
  | .tdrop h _ => h.len
  | .cpy h _ _ _ _ _ _ | .gath h _ _ _ _ _ _ _ | .nmc h _ _ _ | .coll h _ _ _ | .cpyqf h _ _ | .mxstart h _ _
  | .mxrd h _ _ _ _ | .mxwr h _ _ _ _ | .mxdrain h _ _ | .mxrest h _ _ | .barinit h _ _ _ | .bararr h _ _
  | .barwait h _ _ _ | .bartest h _ _ _ _ => h.len
  | .tatom h _ _ | .datom h _ _ _ | .barg h _ | .gsig h _ _ | .gwait h _ _ _ | .grd h _ _ | .gtry h _ _ _
  | .trap h _ | .brk h _ | .tret h _ => h.len
  | .unassignedEncoding _ len => len
  | _ => .base

/-- The guard of a group instruction: predicate number and negation; p7 where it takes none (R57). -/
def Instr.guard : Instr → BitVec 3 × Bool
  | .nop h | .bra h _ _ | .brx h _ _ _ | .call h _ _ _ | .ret h _ _ | .exit h | .prioPassImm h _ | .prioPassReg h _
  | .spawn h _ _ _ | .ltrig h | .icinv h _ _ _ => (h.p, h.neg)
  | .iadd h _ | .isub h _ | .imul h _ | .imulh h _ | .imin h _ | .imax h _ | .and h _ | .or h _ | .xor h _ | .shl h _
  | .shr h _ | .sar h _ | .bfe h _ | .iabs h _ | .not h _ | .popc h _ | .clz h _ | .brev h _ | .imad h _ _
  | .bfi h _ _ => (h.p, h.neg)
  | .iaddc h _ _ _ _ _ _ _ | .iset h _ _ _ _ _ | .sel h _ _ _ _ _ _ | .mov h _ _ | .mtx h _ _ | .mtxIdx h _ _
  | .mtxAdd h _ _ | .mfsr h _ _ _ => (h.p, h.neg)
  | .fadd h _ | .fsub h _ | .fmul h _ | .ffma h _ _ | .fmin h _ _ _ | .fmax h _ _ _ | .fset h _ _ _ _ | .frcp h _
  | .fsqrt h _ | .frsq h _ _ | .fexp2 h _ _ | .flog2 h _ _ | .fsin h _ _ | .fcos h _ _ | .ftanh h _ _
  | .fsigm h _ _ | .pfadd h _ | .pfmul h _ | .pffma h _ _ | .cvt h _ _ _ _ _ _ _ | .pack h _ _ _ _ _ _ _ =>
    (h.p, h.neg)
  | .shfl h _ _ _ _ _ | .voteBallot h _ _ _ | .voteAny h _ _ _ | .voteAll h _ _ _ | .voteUni h _ _ _
  | .redg h _ _ _ _ _ | .scang h _ _ _ _ _ | .rebal h _ _ _ _ => (h.p, h.neg)
  | .lds h _ | .sts h _ | .atoms h _ _ | .dld h _ | .dst h _ | .tld h _ | .tst h _ | .fetch h _ => (h.p, h.neg)
  | .tlk h _ | .tins h _ | .tups h _ | .tdel h _ | .tseek h _ | .tnext h _ _ _ _ _ | .tkey h _ _ _ _ | .tcnt h _
  | .tdrop h _ => (h.p, h.neg)
  | .cpy h _ _ _ _ _ _ | .gath h _ _ _ _ _ _ _ | .nmc h _ _ _ | .coll h _ _ _ | .cpyqf h _ _ | .mxstart h _ _
  | .mxrd h _ _ _ _ | .mxwr h _ _ _ _ | .mxdrain h _ _ | .mxrest h _ _ | .barinit h _ _ _ | .bararr h _ _
  | .barwait h _ _ _ | .bartest h _ _ _ _ => (h.p, h.neg)
  | .tatom h _ _ | .datom h _ _ _ | .barg h _ | .gsig h _ _ | .gwait h _ _ _ | .grd h _ _ | .gtry h _ _ _
  | .trap h _ | .brk h _ | .tret h _ => (h.p, h.neg)
  | _ => (7, false)

/-- A well-formed group instruction. -/
def Instr.wf (i : Instr) : Bool :=
  i.formOk && i.uses.all (fun u => u.legal && u.aligned && u.carried i.len)

/-- The tile words whose field values R63 admits. -/
def Instr.tileWf : Instr → Bool
  | .tnop | .tend | .tsetq _ _ | .tzero _ | .tarb _ | .twb _ _ => true
  | .tlw _ fmt _ pi k =>
    (match fmt with | .bf16 | .e4m3 | .e5m2 | .i4g | .i3g => true | _ => false) && (pi || k == 0)
  | .tmm _ _ fmt _ _ pi _ k => (match fmt with | .bf16 | .e4m3 | .e5m2 => true | _ => false) && (pi || k == 0)
  | .tlda _ _ pi k => pi || k == 0
  | .tsto _ fmt _ pi k => (match fmt with | .f32 | .bf16 | .e4m3 | .e5m2 => true | _ => false) && (pi || k == 0)
  | .tloop _ k => decide (k.toNat % 8 = 0)
  | _ => false

end Sys2Proof
end

