-- ==== Sys2Proof/Decode.lean ====
section
/-! DEFINITION. Decoding of group instructions (R50 to R61, R65) and tile words (R62 to R64), total on any bytes, and
after it the encoder. A word that is no instruction is rejected with its illegal-instruction subcode. -/

namespace Sys2Proof

/-- The fields of a group instruction, as R51 and R52 lay them out. -/
structure Raw where
  l   : BitVec 2
  m   : BitVec 2
  p   : BitVec 3
  b   : BitVec 6
  a   : BitVec 6
  d   : BitVec 6
  op  : BitVec 7
  xop : BitVec 6
  sc  : BitVec 3
  neg : Bool
  c   : BitVec 10
  bhi : BitVec 4
  ahi : BitVec 4
  dhi : BitVec 4
  imm : Word
  lit : DWord
  deriving DecidableEq, Repr

/-- What decoding gives: an instruction; or a rejection with the lowest static subcode (R65), the length that L gives,
and, where the opcode, the length and M select an entry, that entry's instruction, on which the checks that need the
group's state are still made; or too few bytes. -/
inductive Dec where
  | ok (i : Instr)
  | bad (sub : Nat) (len : Len) (loose : Option Instr)
  | short
  deriving DecidableEq, Repr

def Raw.len (r : Raw) : Len :=
  if r.l = 0 then .base else if r.l = 1 then .lit else if r.l = 2 then .ext else .extLit

def Raw.dn (r : Raw) : BitVec 10 := r.dhi ++ r.d
def Raw.an (r : Raw) : BitVec 10 := r.ahi ++ r.a
def Raw.bn (r : Raw) : BitVec 10 := r.bhi ++ r.b
def Raw.isExt (r : Raw) : Bool := r.len.isExt
def Raw.hdr (r : Raw) : Hdr := { len := r.len, p := r.p, neg := r.neg }

/-- The guard value that an instruction without a guard carries. -/
def noGuard (len : Len) : Hdr := { len := len, p := 7, neg := false }

/-- A subcode, where a condition holds. -/
def err (b : Bool) (n : Nat) : List Nat := if b then [n] else []

/-- The least of a list of subcodes. -/
def least : List Nat → Option Nat
  | [] => none
  | n :: r => match least r with | none => some n | some m => some (if n ≤ m then n else m)

/-- Subcodes of the register operands (R55). -/
def useErrs (us : List Use) : List Nat :=
  us.flatMap fun u => err (!u.legal) 8 ++ err (!u.aligned) 9

/-- Join an entry's checks: length (R50), M (R59), then the lowest of the rest (R65). -/
def Raw.entry (r : Raw) (lens : List Len) (mOk : Bool) (errs : List Nat) (i : Instr) : Dec :=
  if lens.contains r.len then
    if mOk then
      match least (errs ++ err (decide (6 ≤ r.sc.toNat)) 6 ++ err (r.neg && r.p == 7) 7 ++ useErrs i.uses) with
      | none => .ok i
      | some n => .bad n r.len (some i)
    else .bad 4 r.len none
  else .bad 3 r.len none

/-- Subcode 0x0A where a field that must be zero is not. -/
def zeros (bs : List Bool) : List Nat := err (bs.any fun b => !b) 10

/-- Extended fields that are all zero (R52). -/
def Raw.noX (r : Raw) : Bool := r.xop == 0
def Raw.noSc (r : Raw) : Bool := r.sc == 0
def Raw.noC (r : Raw) : Bool := r.c == 0
def Raw.noHi (r : Raw) : Bool := r.dhi == 0 && r.ahi == 0 && r.bhi == 0
def Raw.noImm (r : Raw) : Bool := r.imm == 0
def Raw.noGuard (r : Raw) : Bool := r.p == 7

/-- The selector of operand k (R108). -/
def Raw.sel (r : Raw) (k : Nat) : BitVec 16 := r.lit.extractLsb' (16 * k) 16

/-- The operand that register number `n` and selector `k` give, where the instruction accepts selectors; `ok` where
the operand is a single vector register (R108). -/
def Raw.vop (r : Raw) (k : Nat) (n : BitVec 10) (ok : Bool) : VOp :=
  if ok && r.len.isLit && (r.sel k).getLsbD 15 then .idx ((r.sel k).extractLsb' 12 3) ((r.sel k).setWidth 10) else .reg n

/-- The subcodes of selector `k` (R108): an OFF above 639 has 0x08 whatever IXE holds. -/
def Raw.vopErrs (r : Raw) (k : Nat) (n : BitVec 10) (ok : Bool) : List Nat :=
  if r.len.isLit then
    err (decide (640 ≤ ((r.sel k).setWidth 10).toNat)) 8 ++
      if (r.sel k).getLsbD 15 then zeros [ok, (r.sel k).extractLsb' 10 2 == 0, n == 0] else zeros [r.sel k == 0]
  else []

def ITy.ofCode (m : BitVec 2) : ITy := if m = 0 then .s32 else if m = 1 then .b32 else if m = 2 then .s64 else .b64
def RMode.ofCode (m : BitVec 2) : RMode := if m = 0 then .rn else if m = 1 then .rz else if m = 2 then .rm else .rp
def Cond.ofCode (m : BitVec 2) : Cond := if m = 0 then .any else if m = 1 then .all else .none

/-- The scope of SC (R57); in the short forms the default, team, that every entry with a scope names (R53). -/
def Raw.scope (r : Raw) : Scope :=
  if r.isExt then
    if r.sc = 0 then .grp else if r.sc = 1 then .team else if r.sc = 2 then .clu else if r.sc = 3 then .part
    else if r.sc = 4 then .dev else .sys
  else .team

/-- The type code of R60. -/
def Fmt.ofCode (n : Nat) : Option Fmt :=
  match n with
  | 0 => some .s32 | 1 => some .b32 | 2 => some .s64 | 3 => some .b64 | 4 => some .f32 | 5 => some .bf16
  | 6 => some .e4m3 | 7 => some .e5m2 | 8 => some .i4g | 9 => some .i3g | _ => none

/-- The atomic operation code of R60. -/
def AOp.ofCode (n : Nat) : Option AOp :=
  match n with
  | 0 => some .add | 1 => some .min | 2 => some .max | 3 => some .and | 4 => some .or | 5 => some .xor
  | 6 => some .exch | 7 => some .cas | 8 => some .fadd | 9 => some .pbfadd | _ => none

def Cmp.ofCode (n : Nat) : Cmp :=
  match n with
  | 0 => .eq | 1 => .ne | 2 => .lt | 3 => .le | 4 => .gt | 5 => .ge | 6 => .num | _ => .nan

/-- The operation codes of R151. -/
def ROp.ofCode (n : Nat) : Option ROp :=
  match n with
  | 0 => some .add | 1 => some .min | 2 => some .max | 3 => some .and | 4 => some .or | 5 => some .xor
  | 8 => some .fadd | 9 => some .fmin | 10 => some .fmax | _ => none

/-! ### Control -/

/-- BRA, BRX, CALL and RET (R100): what their extended form must leave zero. R100 gives a breach, XOP among the fields,
subcode 0x0A (log 19). -/
def Raw.branchZ (r : Raw) : List Bool := [r.noX, r.noSc, r.noC, r.noHi]

def Raw.bra (r : Raw) : Dec :=
  let disp : Word := if r.isExt then r.imm else (r.b ++ r.a ++ r.d).signExtend 32 <<< 2
  r.entry shortLens (r.m != 3)
    (zeros (r.branchZ ++ (if r.isExt then [r.d == 0, r.a == 0, r.b == 0, r.imm.setWidth 2 == (0 : BitVec 2)] else [])))
    (.bra r.hdr (Cond.ofCode r.m) disp)

def Raw.brx (r : Raw) : Dec :=
  r.entry shortLens (r.m != 3) (zeros (r.branchZ ++ [r.d == 0, r.b == 0])) (.brx r.hdr (Cond.ofCode r.m) r.a r.imm)

def Raw.call (r : Raw) : Dec :=
  let disp : Word := if r.isExt then r.imm else (r.b ++ r.a).signExtend 32 <<< 2
  r.entry shortLens (r.m != 3)
    (zeros (r.branchZ ++ (if r.isExt then [r.a == 0, r.b == 0, r.imm.setWidth 2 == (0 : BitVec 2)] else [])))
    (.call r.hdr (Cond.ofCode r.m) r.d disp)

def Raw.ret (r : Raw) : Dec :=
  r.entry shortLens (r.m != 3) (zeros (r.branchZ ++ [r.d == 0, r.b == 0, r.noImm])) (.ret r.hdr (Cond.ofCode r.m) r.a)

def Raw.mif (r : Raw) : Dec :=
  r.entry [.base] (r.m == 0 || r.m == 1)
    (zeros [r.noGuard, r.b == 0] ++ err (decide (8 ≤ r.a.toNat)) 8) (.mif (r.m == 1) r.d (r.a.setWidth 3))

def Raw.melse (r : Raw) : Dec :=
  r.entry [.base] (r.m == 0) (zeros [r.noGuard, r.d == 0, r.b == 0]) (.melse r.a)

def Raw.mend (r : Raw) : Dec :=
  r.entry [.base] (r.m == 0) (zeros [r.noGuard, r.d == 0, r.b == 0]) (.mend r.a)

def Raw.rgn (r : Raw) : Dec :=
  let idem := r.m.getLsbD 0
  let conv := r.m.getLsbD 1
  let x5 := err (r.xop.extractLsb' 1 5 != (0 : BitVec 5)) 5
  let rest := [r.noGuard, r.d == 0, r.noSc, r.noC, r.dhi == 0, r.bhi == 0, r.noImm]
  if r.xop.getLsbD 0 then
    r.entry allLens true (x5 ++ zeros (rest ++ [r.an == 0, r.b == 0, r.lit == 0])) (.rgn r.len idem conv .none)
  else
    let n1 := r.b
    let live : DWord := if r.len.isLit then r.lit else BitVec.ofNat 64 (2 ^ (n1.toNat + 1) - 1)
    r.entry allLens true
      (x5 ++ zeros (rest ++ [decide (live.toNat < 2 ^ (n1.toNat + 1))]) ++ err (decide (640 ≤ r.an.toNat + n1.toNat)) 8)
      (.rgn r.len idem conv (.some r.an n1 live))

def Raw.prio (r : Raw) : Dec :=
  if r.m = 0 then r.entry [.base] true (zeros [r.a == 0, r.d == 0]) (.prioPassImm r.hdr r.b)
  else r.entry [.base] (r.m == 1) (zeros [r.b == 0, r.d == 0]) (.prioPassReg r.hdr r.a)

def Raw.spawn (r : Raw) : Dec := r.entry [.base] (r.m == 0) [] (.spawn r.hdr r.d r.a r.b)

def Raw.icinv (r : Raw) : Dec :=
  r.entry shortLens (r.m == 0) (err (!r.noX) 5 ++ zeros [r.d == 0, r.noC, r.noHi, r.noImm])
    (.icinv r.hdr r.scope r.a r.b)

/-- NOP, EXIT and LTRIG (R97, R83, R82). -/
def Raw.plain0 (r : Raw) (i : Hdr → Instr) : Dec :=
  r.entry [.base] (r.m == 0) (zeros [r.d == 0, r.a == 0, r.b == 0]) (i r.hdr)

/-! ### The lane mould (R128 to R130) -/

def Raw.imb (r : Raw) : Bool := r.xop.getLsbD 0
def Raw.satB (r : Raw) : Bool := r.xop.getLsbD 1
def Raw.sbB (r : Raw) : Bool := r.xop.getLsbD 2
def Raw.sfB (r : Raw) : Bool := r.xop.getLsbD 3
def Raw.xhi (r : Raw) : BitVec 2 := r.xop.extractLsb' 4 2

/-- Source B, where single-register vector operands may be indexed. -/
def Raw.srcB (r : Raw) (single : Bool) : SrcB :=
  if r.imb then .imm r.imm else if r.sbB then .sca r.bn else .vec (r.vop 2 r.bn single)

/-- Checks of source B. -/
def Raw.srcErrs (r : Raw) (single : Bool) : List Nat :=
  zeros (if r.imb then [r.bn == 0] else [r.noImm]) ++ err (r.imb && r.sbB) 5 ++
    r.vopErrs 2 r.bn (single && !r.imb && !r.sbB)

/-- Whether an operand of the type is a single vector register. -/
def single (ty : ITy) (sf : Bool) : Bool := ty.regs == 1 && !sf

def Raw.ity (r : Raw) : ITy := ITy.ofCode r.m

def Raw.alu (r : Raw) : Alu :=
  let s := single r.ity r.sfB
  { ty := r.ity, sat := r.satB, sf := r.sfB, d := r.vop 0 r.dn s, a := r.vop 1 r.an s, b := r.srcB s }

def Raw.aluErrs (r : Raw) (sat : Bool) : List Nat :=
  let s := single r.ity r.sfB
  err (r.xhi != 0) 5 ++ err (r.satB && !sat) 5 ++ zeros [r.noSc] ++ r.vopErrs 0 r.dn s ++ r.vopErrs 1 r.an s

/-- A binary integer instruction (R131). -/
def Raw.bin (r : Raw) (sat : Bool) (i : Hdr → Alu → Instr) : Dec :=
  r.entry allLens true
    (r.aluErrs sat ++ r.srcErrs (single r.ity r.sfB) ++ zeros [r.noC] ++ r.vopErrs 3 r.c false) (i r.hdr r.alu)

def Raw.alu1 (r : Raw) : Alu1 :=
  let s := single r.ity r.sfB
  { ty := r.ity, sat := r.satB, sf := r.sfB, d := r.vop 0 r.dn s, a := r.vop 1 r.an s }

/-- A unary integer instruction (R134). -/
def Raw.una (r : Raw) (mOk sat : Bool) (i : Hdr → Alu1 → Instr) : Dec :=
  r.entry allLens mOk
    (r.aluErrs sat ++ err (r.imb || r.sbB) 5 ++ zeros [r.bn == 0, r.noImm, r.noC] ++ r.vopErrs 2 r.bn false ++
      r.vopErrs 3 r.c false) (i r.hdr r.alu1)

def Raw.imad (r : Raw) : Dec :=
  let s := single r.ity r.sfB
  r.entry extLens true (r.aluErrs true ++ r.srcErrs s ++ r.vopErrs 3 r.c s) (.imad r.hdr r.alu (r.vop 3 r.c s))

def Raw.bfi (r : Raw) : Dec :=
  let s := single r.ity r.sfB
  let b : SrcB := if r.sbB then .sca r.bn else .vec (r.vop 2 r.bn s)
  let o : Alu := { ty := r.ity, sat := r.satB, sf := r.sfB, d := r.vop 0 r.dn s, a := r.vop 1 r.an s, b := b }
  r.entry extLens true
    (r.aluErrs false ++ r.vopErrs 2 r.bn (s && !r.sbB) ++ zeros [if r.imb then r.noC else r.noImm] ++
      r.vopErrs 3 r.c (s && !r.imb))
    (.bfi r.hdr o (if r.imb then .imm r.imm else .c (r.vop 3 r.c s)))

def Raw.iaddc (r : Raw) : Dec :=
  let w64 := r.m == 3
  let s := !w64
  r.entry extLens (r.m == 1 || r.m == 3)
    (err (r.satB || r.sfB || r.xhi != 0) 5 ++ r.srcErrs s ++ r.vopErrs 0 r.dn s ++ r.vopErrs 1 r.an s ++
      r.vopErrs 3 r.c false ++
      zeros [r.noSc, r.c.extractLsb' 7 3 == 0])
    (.iaddc r.hdr w64 (r.vop 0 r.dn s) (r.vop 1 r.an s) (r.srcB s) (r.c.extractLsb' 4 3) (r.c.getLsbD 3)
      (r.c.setWidth 3))

/-- ISET and FSET (R136): the operand fields and their checks. -/
def Raw.setB (r : Raw) (s : Bool) : SrcB :=
  if r.xop.getLsbD 3 then .imm r.imm else if r.xop.getLsbD 4 then .sca r.bn else .vec (r.vop 2 r.bn s)

def Raw.setErrs (r : Raw) (s : Bool) : List Nat :=
  let imb := r.xop.getLsbD 3
  let sb := r.xop.getLsbD 4
  err (imb && sb) 5 ++ err (r.xop.getLsbD 5) 5 ++ zeros [r.noSc, r.noC, if imb then r.bn == 0 else r.noImm] ++
    err (decide (8 ≤ r.dn.toNat)) 8 ++ r.vopErrs 0 r.dn false ++ r.vopErrs 1 r.an s ++
    r.vopErrs 2 r.bn (s && !imb && !sb) ++ r.vopErrs 3 r.c false

def Raw.iset (r : Raw) : Dec :=
  let s := single r.ity false
  let cmp := (r.xop.setWidth 3 : BitVec 3).toNat
  r.entry allLens true (r.setErrs s ++ err (decide (6 ≤ cmp)) 5)
    (.iset r.hdr (Cmp.ofCode cmp) r.ity (r.dn.setWidth 3) (r.vop 1 r.an s) (r.setB s))

def Raw.fset (r : Raw) : Dec :=
  r.entry allLens (r.m == 0) (r.setErrs true)
    (.fset r.hdr (Cmp.ofCode (r.xop.setWidth 3 : BitVec 3).toNat) (r.dn.setWidth 3) (r.vop 1 r.an true) (r.setB true))

def Raw.selI (r : Raw) : Dec :=
  let s := single r.ity false
  r.entry extLens true
    (err (r.satB || r.sfB || r.xhi != 0) 5 ++ r.srcErrs s ++ r.vopErrs 0 r.dn s ++ r.vopErrs 1 r.an s ++
      r.vopErrs 3 r.c false ++ zeros [r.noSc, r.c.extractLsb' 4 6 == 0])
    (.sel r.hdr r.ity (r.vop 0 r.dn s) (r.vop 1 r.an s) (r.srcB s) (r.c.setWidth 3) (r.c.getLsbD 3))

/-! ### Moves and special registers (R138 to R141) -/

def Raw.mov (r : Raw) : Dec :=
  let w := r.xop.getLsbD 0
  let src := r.xop.extractLsb' 1 2
  let sd := r.xop.getLsbD 3
  let raw : DWord := if r.len.isLit then r.lit else r.imm.setWidth 64
  let f : MovForm :=
    if sd then
      if src = 2 then .si r.dn raw else if src = 3 then .first r.dn r.an else .ss r.dn r.an
    else if src = 0 then .vv r.dn r.an else if src = 1 then .vs r.dn r.an else .vi r.dn raw
  let lens := if src = 2 && w then [Len.base, .ext, .extLit] else shortLens
  r.entry lens (r.m == 0)
    (err (r.xhi != 0) 5 ++ err ((!sd && src == 3) || (sd && src == 0)) 5 ++
      zeros [r.noSc, r.noC, r.bn == 0, if src = 2 then r.an == 0 else r.noImm, !r.len.isLit || r.noImm])
    (.mov r.hdr w f)

def Raw.mtx (r : Raw) : Dec :=
  let errs := err (r.xop != 0) 5 ++ zeros [r.noSc, r.noC, r.noImm] ++ err (decide (8 ≤ r.dn.toNat)) 8 ++
    r.vopErrs 0 r.dn false ++ r.vopErrs 2 r.bn false ++ r.vopErrs 3 r.c false
  let d : BitVec 3 := r.dn.setWidth 3
  if r.m = 2 then
    r.entry allLens true (errs ++ r.vopErrs 1 r.an false ++ zeros [r.an == 0, r.bhi == 0]) (.mtxAdd r.hdr d r.b)
  else
    r.entry allLens (r.m != 3) (errs ++ r.vopErrs 1 r.an true ++ zeros [r.bn == 0])
      (if r.m = 0 then .mtx r.hdr d (r.vop 1 r.an true) else .mtxIdx r.hdr d (r.vop 1 r.an true))

def Raw.mfsr (r : Raw) : Dec :=
  let dst : SrDst := if r.m = 0 then .v else if r.m = 1 then .s else .pair
  r.entry shortLens (r.m != 3 && !(r.m == 1 && r.a == 1))
    (err (r.xop != 0) 5 ++ zeros [r.noSc, r.noC, r.noImm, r.bn == 0, r.ahi == 0, r.m != 1 || r.noGuard] ++
      err (decide (17 ≤ r.a.toNat)) 8)
    (.mfsr r.hdr dst r.dn r.a)

/-- The special registers that MTSR writes in some mode (R140). -/
def writableSr (n : Nat) : Bool := n == 0 || (decide (11 ≤ n) && decide (n ≤ 16))

def Raw.mtsr (r : Raw) : Dec :=
  r.entry shortLens (r.m == 0)
    (err (r.xop != 0) 5 ++ zeros [r.noSc, r.noC, r.noImm, r.bn == 0, r.dhi == 0, r.noGuard] ++
      err (!writableSr r.d.toNat) 8)
    (.mtsr r.len r.d r.an)

/-! ### Floating point (R142 to R147) -/

def Raw.fpu (r : Raw) : Fpu :=
  { mode := RMode.ofCode r.xhi, sat := r.satB, d := r.vop 0 r.dn true, a := r.vop 1 r.an true, b := r.srcB true }

def Raw.fpuErrs (r : Raw) : List Nat :=
  err r.sfB 5 ++ zeros [r.noSc] ++ r.vopErrs 0 r.dn true ++ r.vopErrs 1 r.an true ++ r.srcErrs true

def Raw.fbin (r : Raw) (i : Hdr → Fpu → Instr) : Dec :=
  r.entry allLens (r.m == 0) (r.fpuErrs ++ zeros [r.noC] ++ r.vopErrs 3 r.c false) (i r.hdr r.fpu)

def Raw.ffma3 (r : Raw) (i : Hdr → Fpu → VOp → Instr) : Dec :=
  r.entry extLens (r.m == 0) (r.fpuErrs ++ r.vopErrs 3 r.c true) (i r.hdr r.fpu (r.vop 3 r.c true))

def Raw.fmnx (r : Raw) (i : Hdr → VOp → VOp → SrcB → Instr) : Dec :=
  r.entry allLens (r.m == 0)
    (r.fpuErrs ++ err (r.satB || r.xhi != 0) 5 ++ zeros [r.noC] ++ r.vopErrs 3 r.c false)
    (i r.hdr (r.vop 0 r.dn true) (r.vop 1 r.an true) (r.srcB true))

/-- A special function (R144). -/
def Raw.sfn (r : Raw) (mode : Bool) (i : Hdr → RMode → VOp → VOp → Instr) : Dec :=
  r.entry allLens (r.m == 0)
    (err (r.xop.setWidth 4 != (0 : BitVec 4) || (r.xhi != 0 && !mode)) 5 ++
      zeros [r.noSc, r.noC, r.noImm, r.bn == 0] ++
      r.vopErrs 0 r.dn true ++ r.vopErrs 1 r.an true ++ r.vopErrs 2 r.bn false ++ r.vopErrs 3 r.c false)
    (i r.hdr (RMode.ofCode r.xhi) (r.vop 0 r.dn true) (r.vop 1 r.an true))

/-- The uses of a mode or of .sat that CVT forbids (R146). -/
def cvtBad (dt st : Fmt) (mode : RMode) (sat : Bool) : Bool :=
  if st.isInt then (if dt.isInt then mode != .rn else sat && dt == .f32)
  else if dt.isInt then sat
  else exactConv dt st && (mode != .rn || sat)

/-- The source elements that CVT admits (R146). -/
def cvtElOk (st : Fmt) (m : BitVec 2) : Bool :=
  match st with
  | .bf16 => decide (m.toNat ≤ 1)
  | .e4m3 | .e5m2 => true
  | _ => m == 0

/-- The type codes 0 to 7; a code that CVT rejects reads as .s32 here, with subcode 0x05 beside it. -/
def cvtFmt (n : BitVec 4) : Fmt := if n.toNat < 8 then (Fmt.ofCode n.toNat).getD .s32 else .s32

def Raw.cvt (r : Raw) : Dec :=
  let dc : BitVec 4 := r.xop.setWidth 4
  let sc : BitVec 4 := r.b.setWidth 4
  let dt := cvtFmt dc
  let st := cvtFmt sc
  let mode := RMode.ofCode r.xhi
  let sat := r.b.getLsbD 4
  let ds := dt.regs == 1
  let ss := st.regs == 1
  r.entry allLens (cvtElOk st r.m)
    (err (dc.getLsbD 3 || sc.getLsbD 3 || cvtBad dt st mode sat) 5 ++
      zeros [r.noSc, r.noC, r.noImm, r.bhi == 0, !r.b.getLsbD 5] ++
      r.vopErrs 0 r.dn ds ++ r.vopErrs 1 r.an ss ++ r.vopErrs 2 0 false ++ r.vopErrs 3 r.c false)
    (.cvt r.hdr dt st r.m mode sat (r.vop 0 r.dn ds) (r.vop 1 r.an ss))

def Raw.pack (r : Raw) : Dec :=
  let fc := r.xop.extractLsb' 2 2
  let fmt : Fmt := if fc = 0 then .bf16 else if fc = 1 then .e4m3 else .e5m2
  r.entry allLens (r.m == 0 || (r.m == 1 && fc != 0))
    (err (fc == 3 || r.xop.getLsbD 0) 5 ++ zeros [r.noSc, r.noC, r.noImm] ++
      r.vopErrs 0 r.dn true ++ r.vopErrs 1 r.an true ++ r.vopErrs 2 r.bn true ++ r.vopErrs 3 r.c false)
    (.pack r.hdr (r.m == 1) fmt (RMode.ofCode r.xhi) (r.xop.getLsbD 1) (r.vop 0 r.dn true) (r.vop 1 r.an true)
      (r.vop 2 r.bn true))

/-! ### Lane exchange (R148 to R152) -/

def Raw.shfl (r : Raw) : Dec :=
  let mode : ShMode := if r.m = 0 then .idx else if r.m = 1 then .up else if r.m = 2 then .down else .xor
  let seg := r.xop.extractLsb' 1 3
  let imm := r.xop.getLsbD 0
  r.entry shortLens true
    (err (r.xhi != 0 || decide (5 ≤ seg.toNat)) 5 ++ zeros [r.noSc, r.noC, r.noImm, !imm || r.bhi == 0])
    (.shfl r.hdr mode seg r.dn r.an (if imm then .imm r.b else .vec r.bn))

def Raw.vote (r : Raw) : Dec :=
  let inv := r.xop.getLsbD 0
  let a : BitVec 3 := r.an.setWidth 3
  let errs := err (r.xop.extractLsb' 1 5 != 0) 5 ++ zeros [r.noSc, r.noC, r.noImm, r.bn == 0] ++
    err (decide (8 ≤ r.an.toNat)) 8
  let p : BitVec 3 := r.dn.setWidth 3
  let perrs := errs ++ err (decide (8 ≤ r.dn.toNat)) 8
  if r.m = 0 then r.entry shortLens true errs (.voteBallot r.hdr inv r.dn a)
  else if r.m = 1 then r.entry shortLens true perrs (.voteAny r.hdr inv p a)
  else if r.m = 2 then r.entry shortLens true perrs (.voteAll r.hdr inv p a)
  else r.entry shortLens true perrs (.voteUni r.hdr inv p a)

def ROp.isF : ROp → Bool
  | .fadd | .fmin | .fmax => true
  | _ => false

/-- REDG and SCANG (R151). -/
def Raw.red (r : Raw) (i : Hdr → ROp → ITy → Bool → BitVec 10 → BitVec 10 → Instr) : Dec :=
  let opc := (r.xop.setWidth 4 : BitVec 4).toNat
  let op := (ROp.ofCode opc).getD .add
  let ty := ITy.ofCode r.xhi
  r.entry shortLens (r.m == 0 || r.m == 1)
    (err ((ROp.ofCode opc).isNone || (op.isF && ty != .s32)) 5 ++ zeros [r.noSc, r.noC, r.noImm, r.bn == 0])
    (i r.hdr op ty (r.m == 1) r.dn r.an)

def Raw.rebal (r : Raw) : Dec :=
  r.entry [.ext] (r.m == 0)
    (err (r.xop != 0) 5 ++ zeros [r.noSc, r.noImm, r.c.extractLsb' 3 7 == 0])
    (.rebal r.hdr r.dn (r.c.setWidth 3) r.an r.bn)

/-! ### Memory (R158 to R170) -/

def Size.ofCode (m : BitVec 2) : Size := if m = 0 then .b32 else if m = 1 then .b64 else .b128

/-- LDS and STS (R161). -/
def Raw.spAcc (r : Raw) (i : Hdr → SpAcc → Instr) : Dec :=
  let size := Size.ofCode r.m
  let one := size == .b32
  let base : BitVec 2 := r.xop.setWidth 2
  let disp : Word := if r.isExt then r.imm else r.b.setWidth 32 <<< 2
  let ab : SpBase := if base = 0 then .vec (r.vop 1 r.an one) else if base = 1 then .sca r.an else .none
  r.entry allLens (r.m != 3)
    (err (base == 3 || r.xop.extractLsb' 2 4 != 0) 5 ++
      zeros [r.noSc, r.noC, !r.isExt || r.bn == 0, base != 2 || r.an == 0] ++
      r.vopErrs 0 r.dn one ++ r.vopErrs 1 r.an (one && base == 0) ++ r.vopErrs 2 0 false ++ r.vopErrs 3 r.c false)
    (i r.hdr { size := size, base := ab, disp := disp, data := r.vop 0 r.dn one })

def AOp.isF : AOp → Bool
  | .fadd | .pbfadd => true
  | _ => false

/-- Checks of an atomic's operation (R60, R167, R266). -/
def Raw.atomErrs (r : Raw) : List Nat :=
  let opc := (r.xop.setWidth 4 : BitVec 4).toNat
  err (r.xhi != 0 || decide (10 ≤ opc) || (decide (opc = 8 ∨ opc = 9) && r.m != 1)) 5

def Raw.aop (r : Raw) : AOp := (AOp.ofCode (r.xop.setWidth 4 : BitVec 4).toNat).getD .add

def Raw.atoms (r : Raw) : Dec :=
  r.entry shortLens true (r.atomErrs ++ zeros [r.noSc, r.aop == .cas || r.noC])
    (.atoms r.hdr { op := r.aop, ty := r.ity, scope := .team, d := r.dn, b := r.bn, c := r.c, off := r.imm } r.an)

def Raw.tatom (r : Raw) : Dec :=
  r.entry shortLens true (r.atomErrs ++ zeros [r.aop == .cas || r.noC, decide (r.imm.toNat < 65536)])
    (.tatom r.hdr { op := r.aop, ty := r.ity, scope := r.scope, d := r.dn, b := r.bn, c := r.c, off := r.imm } r.an)

def Raw.datom (r : Raw) : Dec :=
  r.entry [.ext] true (r.atomErrs ++ zeros [decide (r.imm.toNat < 65536)])
    (.datom r.hdr { op := r.aop, ty := r.ity, scope := r.scope, d := r.dn, b := r.c, c := 0, off := r.imm } r.an r.bn)

/-- DLD and DST (R161, R168). -/
def Raw.dnAcc (r : Raw) (i : Hdr → DnAcc → Instr) : Dec :=
  let size := Size.ofCode r.m
  let one := size == .b32
  r.entry allLens (r.m != 3)
    (err (r.xop.extractLsb' 1 5 != 0) 5 ++ zeros [r.noC, decide (r.imm.toNat < 65536)] ++
      r.vopErrs 0 r.dn one ++ r.vopErrs 1 r.an false ++ r.vopErrs 2 r.bn false ++ r.vopErrs 3 r.c false)
    (i r.hdr { size := size, scope := r.scope, data := r.vop 0 r.dn one, tab := r.an,
               key := if r.xop.getLsbD 0 then .sca r.bn else .vec r.bn, off := r.imm.setWidth 16 })

/-- TLD and TST (R161, R169). -/
def Raw.rowAcc (r : Raw) (load : Bool) (i : Hdr → RowAcc → Instr) : Dec :=
  let size := Size.ofCode r.m
  let one := size == .b32
  let ck := load && r.xop.getLsbD 0
  let off : BitVec 16 := if r.isExt then r.imm.setWidth 16 else r.b.setWidth 16 <<< 2
  r.entry allLens (r.m != 3)
    (err (if load then r.xop.extractLsb' 1 5 != 0 else !r.noX) 5 ++
      zeros [decide (r.imm.toNat < 65536), !r.isExt || r.bn == 0,
            if ck then r.c.extractLsb' 3 7 == 0 else r.noC] ++
      r.vopErrs 0 r.dn one ++ r.vopErrs 1 r.an false ++ r.vopErrs 2 0 false ++ r.vopErrs 3 0 false)
    (i r.hdr { size := size, scope := r.scope, data := r.vop 0 r.dn one, ref := r.an, off := off,
               ck := if ck then some (r.c.setWidth 3) else none })

/-- The element types of FETCH (R170); another code reads as .s32, with subcode 0x05 beside it. -/
def fetchFmt (n : BitVec 4) : Option Fmt :=
  match n.toNat with
  | 0 => some .s32 | 1 => some .b32 | 4 => some .f32 | 5 => some .bf16 | 6 => some .e4m3 | 7 => some .e5m2
  | _ => none

def Raw.fetch (r : Raw) : Dec :=
  let f := fetchFmt (r.xop.setWidth 4)
  let ks := r.xop.getLsbD 4
  let ci := r.xop.getLsbD 5
  let one := r.m == 0
  r.entry extLens true
    (err f.isNone 5 ++ zeros [r.noSc, if ci then r.noC else r.noImm] ++
      r.vopErrs 0 r.dn one ++ r.vopErrs 1 r.an false ++ r.vopErrs 2 r.bn (!ks) ++ r.vopErrs 3 r.c (!ci))
    (.fetch r.hdr { fmt := f.getD .s32, n1 := r.m, d := r.vop 0 r.dn one, tab := r.an,
                    key := if ks then .sca r.bn else .vec (r.vop 2 r.bn true),
                    c := if ci then .imm r.imm else .vec (r.vop 3 r.c true) })

def Raw.wait (r : Raw) : Dec :=
  let mx : BitVec 6 := if r.isExt then r.c.setWidth 6 else 63
  r.entry shortLens (r.m == 0)
    (err (!r.noX) 5 ++ zeros [r.noGuard, r.c.extractLsb' 6 4 == 0, r.noSc, r.noHi, r.noImm])
    (.wait r.len r.d r.a r.b mx)

def Raw.waitp (r : Raw) : Dec :=
  r.entry [.base] (r.m == 0) (zeros [r.noGuard, r.d == 0, r.b.extractLsb' 3 3 == 0]) (.waitp (r.b.setWidth 3) r.a)

/-! ### Keyed tables (R176) -/

/-- What all nine require: XOP[5:2] zero, KS and HS only where the entry has them, SC and IMM32 zero. -/
def Raw.tblErrs (r : Raw) (ks hs : Bool) : List Nat :=
  err (r.xop.extractLsb' 2 4 != 0 || (r.xop.getLsbD 0 && !ks) || (r.xop.getLsbD 1 && !hs)) 5 ++ zeros [r.noSc, r.noImm]

/-- A key operand from KS or HS and its register number. -/
def keyOp (s : Bool) (n : BitVec 10) : KeyOp := if s then .sca n else .vec n

/-- TLK, TINS, TUPS and TDEL. -/
def Raw.point (r : Raw) (mOk d : Bool) (i : Hdr → TPoint → Instr) : Dec :=
  r.entry [.ext] mOk (r.tblErrs true false ++ zeros [d || r.dn == 0, r.c.extractLsb' 3 7 == 0])
    (i r.hdr { d := r.dn, p := r.c.setWidth 3, tab := r.an, key := keyOp (r.xop.getLsbD 0) r.bn })

/-- TSEEK, TCNT and TDROP. -/
def Raw.range (r : Raw) (d cur : Bool) (i : Hdr → TRange → Instr) : Dec :=
  r.entry [.ext] (r.m == 0)
    (r.tblErrs true true ++ zeros [d || r.dn == 0] ++ err (cur && decide (8 ≤ r.dn.toNat)) 8)
    (i r.hdr { d := r.dn, tab := r.an, lo := keyOp (r.xop.getLsbD 0) r.bn, hi := keyOp (r.xop.getLsbD 1) r.c })

def KWidth.ofCode (m : BitVec 2) : KWidth := if m = 0 then .k32 else if m = 1 then .k64 else .k128

def Raw.tnext (r : Raw) : Dec :=
  r.entry [.ext] (r.m != 3)
    (r.tblErrs false false ++ zeros [r.c.extractLsb' 3 7 == 0] ++ err (decide (8 ≤ r.an.toNat)) 8)
    (.tnext r.hdr (KWidth.ofCode r.m) r.dn (r.c.setWidth 3) r.bn r.an)

def Raw.tkey (r : Raw) : Dec :=
  r.entry [.ext] (r.m != 3) (r.tblErrs false false ++ zeros [r.c.extractLsb' 3 7 == 0, r.bn == 0])
    (.tkey r.hdr (KWidth.ofCode r.m) r.dn (r.c.setWidth 3) r.an)

/-! ### Engines, matrix, barriers, gates, traps -/

/-- The barrier of C[4:0]; a barrier number without C[4] is an unused field not zero. -/
def Raw.bar (r : Raw) : Option (BitVec 4) := if r.c.getLsbD 4 then some (r.c.setWidth 4) else none
def Raw.barErrs (r : Raw) : List Nat :=
  zeros [r.noSc, r.c.extractLsb' 5 5 == 0, r.c.getLsbD 4 || r.c.setWidth 4 == (0 : BitVec 4)]

def Raw.cpy (r : Raw) : Dec :=
  let dir : CpyDir := if r.m = 0 then .ld else if r.m = 1 then .st else .pf
  let mc := r.xop.getLsbD 0
  r.entry shortLens (r.m != 3)
    (err (r.xop.extractLsb' 1 5 != 0) 5 ++ r.barErrs ++ zeros [if mc then r.imm.extractLsb' 8 24 == 0 else r.noImm])
    (.cpy r.hdr dir r.bar (if mc then some (r.imm.setWidth 8) else none) r.dn r.an r.bn)

def Raw.gath (r : Raw) : Dec :=
  let kind : GathKind := if r.m = 0 then .k32 else if r.m = 1 then .k64 else .ref
  r.entry [.ext] (r.m != 3)
    (err (!r.noX) 5 ++ r.barErrs ++ zeros [r.m != 2 || r.an == 0,
      decide ((r.imm.setWidth 16 : BitVec 16).toNat < 16384)])
    (.gath r.hdr kind r.bar r.dn r.an r.bn (r.imm.extractLsb' 16 16) (r.imm.setWidth 16))

def Raw.nmc (r : Raw) : Dec :=
  r.entry shortLens (r.m == 0) (err (!r.noX) 5 ++ r.barErrs ++ zeros [r.noImm, r.bn == 0]) (.nmc r.hdr r.bar r.dn r.an)

def Raw.coll (r : Raw) : Dec :=
  r.entry shortLens (r.m == 0) (err (!r.noX) 5 ++ r.barErrs ++ zeros [r.noImm, r.bn == 0]) (.coll r.hdr r.bar r.dn r.an)

def Raw.cpyqf (r : Raw) : Dec :=
  r.entry shortLens (r.m == 0)
    (err (!r.noX) 5 ++ r.barErrs ++ zeros [r.noImm, r.an == 0, r.dn == 0, r.bhi == 0, r.b.extractLsb' 4 2 == 0,
      r.b.setWidth 4 != (0 : BitVec 4)])
    (.cpyqf r.hdr r.bar (r.b.setWidth 4))

def Raw.mxs (r : Raw) : Dec :=
  if r.m = 1 then r.entry [.base] true (zeros [r.noGuard, r.a == 0, r.b == 0]) (.mxstat r.d)
  else
    let q := r.xop.getLsbD 0
    r.entry (if r.m = 0 then [.ext] else shortLens) (r.m == 0)
      (err (r.xop.extractLsb' 1 5 != 0) 5 ++
        zeros [r.noSc, r.noC, r.noHi, r.b == 0, r.d == 0, q || r.a == 0, r.imm.setWidth 3 == (0 : BitVec 3)])
      (.mxstart r.hdr (if q then some r.a else none) r.imm)

def Raw.mxrw (r : Raw) : Dec :=
  let errs := err (!r.noX) 5 ++ zeros [r.noSc, r.noC, r.ahi == 0, r.bhi == 0, r.noImm, !r.b.getLsbD 5]
  let n1 : BitVec 3 := r.b.setWidth 3
  let mt := r.b.extractLsb' 3 2
  if r.m = 0 then r.entry shortLens true errs (.mxrd r.hdr n1 mt r.dn r.a)
  else r.entry shortLens (r.m == 1) errs (.mxwr r.hdr n1 mt r.dn r.a)

def Raw.mxdr (r : Raw) : Dec :=
  let oth := r.b.getLsbD 3
  let core : Option (BitVec 3) := if oth then some (r.b.setWidth 3) else none
  let errs := err (!r.noX) 5 ++ zeros [r.noSc, r.noC, r.noHi, r.noImm, r.d == 0, r.b.extractLsb' 4 2 == 0,
    oth || r.b.setWidth 3 == (0 : BitVec 3)]
  if r.m = 0 then r.entry shortLens true errs (.mxdrain r.hdr core r.a)
  else r.entry shortLens (r.m == 1) errs (.mxrest r.hdr core r.a)

def Raw.barrier (r : Raw) : Dec :=
  let z := [r.noSc, r.noC, r.noHi]
  let x5 := err (!r.noX) 5
  let d16 := x5 ++ err (decide (16 ≤ r.d.toNat)) 8
  let b : BitVec 4 := r.d.setWidth 4
  if r.m = 0 then
    r.entry shortLens true
      (d16 ++ zeros (z ++ [!r.isExt || r.b == 0, decide (r.imm.toNat < 4096)]))
      (.barinit r.hdr b r.a (if r.isExt then r.imm.setWidth 12 else r.b.setWidth 12))
  else if r.m = 1 then r.entry shortLens true (d16 ++ zeros (z ++ [r.noImm, r.b == 0])) (.bararr r.hdr b r.a)
  else if r.m = 2 then
    r.entry shortLens true (d16 ++ zeros (z ++ [r.noImm, r.b.extractLsb' 1 5 == 0]))
      (.barwait r.hdr b r.a (r.b.getLsbD 0))
  else
    r.entry shortLens true
      (x5 ++ err (decide (8 ≤ r.d.toNat)) 8 ++ zeros (z ++ [r.noImm, !r.b.getLsbD 5]))
      (.bartest r.hdr (r.d.setWidth 3) r.a (r.b.setWidth 4) (r.b.getLsbD 4))

def Raw.barg (r : Raw) : Dec :=
  r.entry shortLens (r.m == 0) (err (!r.noX) 5 ++ zeros [r.noSc, r.noC, r.noHi, r.noImm, r.d == 0, r.b == 0])
    (.barg r.hdr r.a)

def Raw.gate (r : Raw) : Dec :=
  let imb := r.xop.getLsbD 0
  let x5 := err (r.xop.extractLsb' 1 5 != 0) 5
  let z := [r.noSc, r.noC, r.noHi, if imb then r.b == 0 else r.noImm]
  let v : GateArg := if imb then .imm r.imm else .sca r.b
  if r.m = 0 then r.entry shortLens true (x5 ++ zeros (z ++ [r.d == 0])) (.gsig r.hdr r.a v)
  else if r.m = 1 then r.entry shortLens true (x5 ++ zeros z) (.gwait r.hdr r.d r.a v)
  else if r.m = 2 then r.entry shortLens true (x5 ++ err imb 5 ++ zeros (z ++ [r.b == 0, r.noImm])) (.grd r.hdr r.d r.a)
  else r.entry shortLens true (x5 ++ err (decide (8 ≤ r.d.toNat)) 8 ++ zeros z)
    (.gtry r.hdr (r.d.setWidth 3) r.a v)

def Raw.trapI (r : Raw) : Dec :=
  let errs := err (!r.noX) 5 ++ zeros [r.noSc, r.noC, r.noHi, r.a == 0, r.d == 0, !r.isExt || r.b == 0]
  let code : Word := if r.isExt then r.imm else r.b.setWidth 32
  if r.m = 0 then r.entry shortLens true errs (.trap r.hdr code)
  else r.entry shortLens (r.m == 1) errs (.brk r.hdr code)

def Raw.tret (r : Raw) : Dec :=
  let form : TretForm := if r.m = 0 then .retry else if r.m = 1 then .skip else .term
  r.entry [.base] (r.m != 3) (zeros [r.d == 0, r.a == 0, r.b == 0]) (.tret r.hdr form)

/-- The primary opcode map (R59). -/
def Raw.decode (r : Raw) : Dec :=
  match r.op.toNat with
  | 0x01 => r.plain0 .nop
  | 0x02 => r.bra
  | 0x03 => r.brx
  | 0x04 => r.call
  | 0x05 => r.ret
  | 0x06 => r.mif
  | 0x07 => r.melse
  | 0x08 => r.mend
  | 0x09 => r.rgn
  | 0x0A => r.plain0 .exit
  | 0x0B => r.prio
  | 0x0C => r.spawn
  | 0x0D => r.plain0 .ltrig
  | 0x0E => r.icinv
  | 0x10 => r.bin true .iadd
  | 0x11 => r.iaddc
  | 0x12 => r.bin true .isub
  | 0x13 => r.bin true .imul
  | 0x14 => r.bin false .imulh
  | 0x15 => r.imad
  | 0x16 => r.bin false .imin
  | 0x17 => r.bin false .imax
  | 0x18 => r.una r.ity.signed true .iabs
  | 0x19 => r.bin false .and
  | 0x1A => r.bin false .or
  | 0x1B => r.bin false .xor
  | 0x1C => r.una true false .not
  | 0x1D => r.bin false .shl
  | 0x1E => r.bin false .shr
  | 0x1F => r.bin false .sar
  | 0x20 => r.bin false .bfe
  | 0x21 => r.bfi
  | 0x22 => r.una true false .popc
  | 0x23 => r.una true false .clz
  | 0x24 => r.una true false .brev
  | 0x25 => r.iset
  | 0x26 => r.selI
  | 0x27 => r.mov
  | 0x28 => r.mtx
  | 0x29 => r.mfsr
  | 0x2A => r.mtsr
  | 0x30 => r.fbin .fadd
  | 0x31 => r.fbin .fsub
  | 0x32 => r.fbin .fmul
  | 0x33 => r.ffma3 .ffma
  | 0x34 => r.fmnx .fmin
  | 0x35 => r.fmnx .fmax
  | 0x36 => r.fset
  | 0x37 => r.sfn true fun h m d a => .frcp h { mode := m, d := d, a := a }
  | 0x38 => r.sfn false fun h _ d a => .frsq h d a
  | 0x39 => r.sfn true fun h m d a => .fsqrt h { mode := m, d := d, a := a }
  | 0x3A => r.sfn false fun h _ d a => .fexp2 h d a
  | 0x3B => r.sfn false fun h _ d a => .flog2 h d a
  | 0x3C => r.sfn false fun h _ d a => .fsin h d a
  | 0x3D => r.sfn false fun h _ d a => .fcos h d a
  | 0x3E => r.sfn false fun h _ d a => .ftanh h d a
  | 0x3F => r.sfn false fun h _ d a => .fsigm h d a
  | 0x40 => r.fbin .pfadd
  | 0x41 => r.fbin .pfmul
  | 0x42 => r.ffma3 .pffma
  | 0x43 => r.cvt
  | 0x44 => r.pack
  | 0x50 => r.shfl
  | 0x51 => r.vote
  | 0x52 => r.red .redg
  | 0x53 => r.red .scang
  | 0x54 => r.rebal
  | 0x58 => r.spAcc .lds
  | 0x59 => r.spAcc .sts
  | 0x5A => r.atoms
  | 0x5B => r.dnAcc .dld
  | 0x5C => r.dnAcc .dst
  | 0x5D => r.rowAcc true .tld
  | 0x5E => r.rowAcc false .tst
  | 0x5F => r.fetch
  | 0x60 => r.wait
  | 0x61 => r.waitp
  | 0x68 => r.point (r.m == 0) true .tlk
  | 0x69 => if r.m = 0 then r.point true true .tins else r.point (r.m == 1) true .tups
  | 0x6A => r.point (r.m == 0) false .tdel
  | 0x6B => r.range true true .tseek
  | 0x6C => r.tnext
  | 0x6D => r.tkey
  | 0x6E => r.range true false .tcnt
  | 0x6F => r.range false false .tdrop
  | 0x70 => r.cpy
  | 0x71 => r.gath
  | 0x72 => r.nmc
  | 0x73 => r.coll
  | 0x74 => r.cpyqf
  | 0x75 => r.mxs
  | 0x76 => r.mxrw
  | 0x77 => r.mxdr
  | 0x78 => r.barrier
  | 0x79 => r.tatom
  | 0x7A => r.datom
  | 0x7B => r.barg
  | 0x7C => r.gate
  | 0x7E => r.trapI
  | 0x7F => r.tret
  | _ => .bad 2 r.len none

/-- The fields of the words, lowest address first (R50 to R53): base word, extended words, literal. -/
def unpack (w0 x1 x2 : Word) (lit : DWord) : Raw :=
  { l := w0.setWidth 2, op := w0.extractLsb' 2 7, d := w0.extractLsb' 9 6, a := w0.extractLsb' 15 6,
    b := w0.extractLsb' 21 6, p := w0.extractLsb' 27 3, m := w0.extractLsb' 30 2,
    dhi := x1.setWidth 4, ahi := x1.extractLsb' 4 4, bhi := x1.extractLsb' 8 4, c := x1.extractLsb' 12 10,
    neg := x1.getLsbD 22, sc := x1.extractLsb' 23 3, xop := x1.extractLsb' 26 6, imm := x2, lit := lit }

/-- The length that a base word's L gives (R50). -/
def lenOf (w0 : Word) : Len :=
  let l : BitVec 2 := w0.setWidth 2
  if l = 0 then .base else if l = 1 then .lit else if l = 2 then .ext else .extLit

/-- A group instruction's fields from its words; words that L does not give are zero. -/
def rawOf (w0 w1 w2 w3 w4 : Word) : Raw :=
  match lenOf w0 with
  | .base => unpack w0 0 0 0
  | .lit => unpack w0 0 0 (w2 ++ w1)
  | .ext => unpack w0 w1 w2 0
  | .extLit => unpack w0 w1 w2 (w4 ++ w3)

/-- A little-endian word (R3). -/
def wordLE (b0 b1 b2 b3 : Byte) : Word := b3 ++ b2 ++ b1 ++ b0

/-- Decode a group instruction from the bytes at the program counter, as many as its L gives. -/
def decode : List Byte → Dec
  | b0 :: b1 :: b2 :: b3 :: r =>
    let w0 := wordLE b0 b1 b2 b3
    match lenOf w0, r with
    | .base, _ => (rawOf w0 0 0 0 0).decode
    | .lit, c0 :: c1 :: c2 :: c3 :: d0 :: d1 :: d2 :: d3 :: _ =>
      (rawOf w0 (wordLE c0 c1 c2 c3) (wordLE d0 d1 d2 d3) 0 0).decode
    | .ext, c0 :: c1 :: c2 :: c3 :: d0 :: d1 :: d2 :: d3 :: _ =>
      (rawOf w0 (wordLE c0 c1 c2 c3) (wordLE d0 d1 d2 d3) 0 0).decode
    | .extLit, c0 :: c1 :: c2 :: c3 :: d0 :: d1 :: d2 :: d3 :: e0 :: e1 :: e2 :: e3 :: f0 :: f1 :: f2 :: f3 :: _ =>
      (rawOf w0 (wordLE c0 c1 c2 c3) (wordLE d0 d1 d2 d3) (wordLE e0 e1 e2 e3) (wordLE f0 f1 f2 f3)).decode
    | _, _ => .short
  | _ => .short

/-! ### Tile words (R62 to R64) -/

/-- The fields of a tile word. -/
structure TRaw where
  top : BitVec 6
  pi  : Bool
  acc : Bool
  qa  : BitVec 3
  rsv : BitVec 3
  mt  : BitVec 2
  ws  : BitVec 1
  fmt : BitVec 4
  bn  : BitVec 4
  n   : BitVec 7
  k   : Word
  deriving DecidableEq, Repr

def tunpack (w : DWord) : TRaw :=
  { top := w.setWidth 6, pi := w.getLsbD 6, acc := w.getLsbD 7, qa := w.extractLsb' 8 3, rsv := w.extractLsb' 11 3,
    mt := w.extractLsb' 14 2, ws := w.extractLsb' 16 1, fmt := w.extractLsb' 17 4, bn := w.extractLsb' 21 4,
    n := w.extractLsb' 25 7, k := w.extractLsb' 32 32 }

/-- What decoding a tile word gives. -/
inductive TDec where
  | ok (i : Instr)
  | bad (sub : Nat)
  deriving DecidableEq, Repr

/-- Accept a word whose unused fields are zero and whose fields keep their limits. -/
def tok (b : Bool) (i : Instr) : TDec := if b then .ok i else .bad 0x21

def TRaw.z (r : TRaw) (useMt useWs useFmt useBn useN useQa useAcc usePi useK : Bool) : Bool :=
  r.rsv == 0 && (useMt || r.mt == 0) && (useWs || r.ws == 0) && (useFmt || r.fmt == 0) && (useBn || r.bn == 0) &&
    (useN || r.n == 0) && (useQa || r.qa == 0) && (useAcc || !r.acc) && (usePi || !r.pi) && (useK || r.k == 0)

/-- Decode a tile word. -/
def TRaw.decode (r : TRaw) : TDec :=
  let f := Fmt.ofCode r.fmt.toNat
  let fm := f.getD .s32
  let inc := r.pi || r.k == 0
  match r.top.toNat with
  | 1 => tok (r.z false false false false false false false false false) .tnop
  | 2 => tok (r.z false false false false false false false false false) .tend
  | 3 => tok (r.z false true true false false true false true true && inc && decide (5 ≤ r.fmt.toNat ∧ r.fmt.toNat ≤ 9))
      (.tlw r.ws fm r.qa r.pi r.k)
  | 4 => tok (r.z true true true false true true true true true && inc && decide (5 ≤ r.fmt.toNat ∧ r.fmt.toNat ≤ 7))
      (.tmm r.mt r.ws fm r.acc r.qa r.pi r.n r.k)
  | 5 => tok (r.z true false false false false false false false false) (.tzero r.mt)
  | 6 => tok (r.z true false false false false true false true true && inc) (.tlda r.mt r.qa r.pi r.k)
  | 7 => tok (r.z true false true false false true false true true && inc && decide (4 ≤ r.fmt.toNat ∧ r.fmt.toNat ≤ 7))
      (.tsto r.mt fm r.qa r.pi r.k)
  | 8 => tok (r.z false false false true false false false false false) (.tarb r.bn)
  | 9 => tok (r.z false false false true false false false false true && decide (r.k.toNat < 2))
      (.twb r.bn (r.k.getLsbD 0))
  | 10 => tok (r.z false false false false true false false false true && decide (r.k.toNat % 8 = 0)) (.tloop r.n r.k)
  | 11 => tok (r.z false false false false false true false false true) (.tsetq r.qa r.k)
  | _ => .bad 0x20

/-- Decode a 64-bit tile word. -/
def decodeTile (w : DWord) : TDec := (tunpack w).decode

/-! ### The encoder -/

def Len.code : Len → BitVec 2
  | .base => 0 | .lit => 1 | .ext => 2 | .extLit => 3
def ITy.code : ITy → BitVec 2
  | .s32 => 0 | .b32 => 1 | .s64 => 2 | .b64 => 3
def RMode.code : RMode → BitVec 2
  | .rn => 0 | .rz => 1 | .rm => 2 | .rp => 3
def Cond.code : Cond → BitVec 2
  | .any => 0 | .all => 1 | .none => 2
def Scope.code : Scope → BitVec 3
  | .grp => 0 | .team => 1 | .clu => 2 | .part => 3 | .dev => 4 | .sys => 5
def Fmt.code : Fmt → BitVec 4
  | .s32 => 0 | .b32 => 1 | .s64 => 2 | .b64 => 3 | .f32 => 4 | .bf16 => 5 | .e4m3 => 6 | .e5m2 => 7 | .i4g => 8
  | .i3g => 9
def Cmp.code : Cmp → BitVec 3
  | .eq => 0 | .ne => 1 | .lt => 2 | .le => 3 | .gt => 4 | .ge => 5 | .num => 6 | .nan => 7
def AOp.code : AOp → BitVec 4
  | .add => 0 | .min => 1 | .max => 2 | .and => 3 | .or => 4 | .xor => 5 | .exch => 6 | .cas => 7 | .fadd => 8
  | .pbfadd => 9
def ROp.code : ROp → BitVec 4
  | .add => 0 | .min => 1 | .max => 2 | .and => 3 | .or => 4 | .xor => 5 | .fadd => 8 | .fmin => 9 | .fmax => 10
def Size.code : Size → BitVec 2
  | .b32 => 0 | .b64 => 1 | .b128 => 2
def KWidth.code : KWidth → BitVec 2
  | .k32 => 0 | .k64 => 1 | .k128 => 2
def ShMode.code : ShMode → BitVec 2
  | .idx => 0 | .up => 1 | .down => 2 | .xor => 3
def CpyDir.code : CpyDir → BitVec 2
  | .ld => 0 | .st => 1 | .pf => 2
def GathKind.code : GathKind → BitVec 2
  | .k32 => 0 | .k64 => 1 | .ref => 2
def TretForm.code : TretForm → BitVec 2
  | .retry => 0 | .skip => 1 | .term => 2

def bit1 (b : Bool) (i : Nat) : BitVec 6 := if b then BitVec.ofNat 6 (2 ^ i) else 0

/-- A raw instruction with its opcode, M and guard, every other field zero. -/
def Hdr.raw (h : Hdr) (op : BitVec 7) (m : BitVec 2) : Raw :=
  { l := h.len.code, m := m, p := h.p, b := 0, a := 0, d := 0, op := op, xop := 0, sc := 0, neg := h.neg, c := 0,
    bhi := 0, ahi := 0, dhi := 0, imm := 0, lit := 0 }

def Raw.setD (r : Raw) (n : BitVec 10) : Raw := { r with d := n.setWidth 6, dhi := n.extractLsb' 6 4 }
def Raw.setA (r : Raw) (n : BitVec 10) : Raw := { r with a := n.setWidth 6, ahi := n.extractLsb' 6 4 }
def Raw.setBn (r : Raw) (n : BitVec 10) : Raw := { r with b := n.setWidth 6, bhi := n.extractLsb' 6 4 }

/-- The selector of an operand, in its place of the literal (R108). -/
def VOp.selWord (k : Nat) : VOp → DWord
  | .reg _ => 0
  | .idx x off => (((1 : BitVec 1) ++ x ++ (0 : BitVec 2) ++ off).setWidth 64 : DWord) <<< (16 * k)

/-- The register number an operand leaves in its field. -/
def VOp.num : VOp → BitVec 10
  | .reg n => n
  | .idx _ _ => 0

def Raw.opD (r : Raw) (o : VOp) : Raw := { r.setD o.num with lit := r.lit ||| o.selWord 0 }
def Raw.opA (r : Raw) (o : VOp) : Raw := { r.setA o.num with lit := r.lit ||| o.selWord 1 }
def Raw.opB (r : Raw) (o : VOp) : Raw := { r.setBn o.num with lit := r.lit ||| o.selWord 2 }
def Raw.opC (r : Raw) (o : VOp) : Raw := { r with c := o.num, lit := r.lit ||| o.selWord 3 }

/-- Source B, with the XOP bits that say which kind it is. -/
def Raw.srcE (r : Raw) (imb sb : Nat) : SrcB → Raw
  | .vec o => r.opB o
  | .sca n => { r.setBn n with xop := r.xop ||| bit1 true sb }
  | .imm w => { r with imm := w, xop := r.xop ||| bit1 true imb }

def Raw.x (r : Raw) (v : BitVec 6) : Raw := { r with xop := r.xop ||| v }

def Alu.raw (o : Alu) (h : Hdr) (op : BitVec 7) : Raw :=
  ((((h.raw op o.ty.code).opD o.d).opA o.a).x (bit1 o.sat 1 ||| bit1 o.sf 3)).srcE 0 2 o.b
def Alu1.raw (o : Alu1) (h : Hdr) (op : BitVec 7) : Raw :=
  (((h.raw op o.ty.code).opD o.d).opA o.a).x (bit1 o.sat 1 ||| bit1 o.sf 3)
def Fpu.raw (o : Fpu) (h : Hdr) (op : BitVec 7) : Raw :=
  ((((h.raw op 0).opD o.d).opA o.a).x (bit1 o.sat 1 ||| o.mode.code ++ (0 : BitVec 4))).srcE 0 2 o.b
def fmnxRaw (h : Hdr) (op : BitVec 7) (d a : VOp) (b : SrcB) : Raw := (((h.raw op 0).opD d).opA a).srcE 0 2 b
def sfnRaw (h : Hdr) (op : BitVec 7) (m : RMode) (d a : VOp) : Raw :=
  (((h.raw op 0).opD d).opA a).x (m.code ++ (0 : BitVec 4))

def barRaw (r : Raw) (b : Option (BitVec 4)) : Raw :=
  match b with
  | none => r
  | some n => { r with c := (1 : BitVec 6) ++ n }

def KeyOp.num : KeyOp → BitVec 10
  | .vec n | .sca n => n
def KeyOp.isS : KeyOp → Bool
  | .vec _ => false
  | .sca _ => true

def TPoint.raw (o : TPoint) (h : Hdr) (op : BitVec 7) (m : BitVec 2) : Raw :=
  { (((h.raw op m).setD o.d).setA o.tab).setBn o.key.num with c := o.p.setWidth 10, xop := bit1 o.key.isS 0 }
def TRange.raw (o : TRange) (h : Hdr) (op : BitVec 7) : Raw :=
  { (((h.raw op 0).setD o.d).setA o.tab).setBn o.lo.num with
    c := o.hi.num, xop := bit1 o.lo.isS 0 ||| bit1 o.hi.isS 1 }

def SpAcc.raw (o : SpAcc) (h : Hdr) (op : BitVec 7) : Raw :=
  let r := (h.raw op o.size.code).opD o.data
  let r := if h.len.isExt then { r with imm := o.disp } else { r with b := o.disp.extractLsb' 2 6 }
  match o.base with
  | .vec v => r.opA v
  | .sca n => { r.setA n with xop := 1 }
  | .none => { r with xop := 2 }

def scE (h : Hdr) (s : Scope) : BitVec 3 := if h.len.isExt then s.code else 0

def DnAcc.raw (o : DnAcc) (h : Hdr) (op : BitVec 7) : Raw :=
  { ((((h.raw op o.size.code).opD o.data).setA o.tab).setBn o.key.num) with
    xop := bit1 o.key.isS 0, sc := scE h o.scope, imm := o.off.setWidth 32 }

def RowAcc.raw (o : RowAcc) (h : Hdr) (op : BitVec 7) : Raw :=
  let r := { ((h.raw op o.size.code).opD o.data).setA o.ref with sc := scE h o.scope }
  let r := if h.len.isExt then { r with imm := o.off.setWidth 32 } else { r with b := o.off.extractLsb' 2 6 }
  match o.ck with
  | none => r
  | some p => { r with xop := 1, c := p.setWidth 10 }

/-- The fields of an instruction; the steps that no group instruction word carries have none. -/
def Instr.raw : Instr → Option Raw
  | .nop h => some (h.raw 0x01 0)
  | .bra h c d =>
    let r := h.raw 0x02 c.code
    some (if h.len.isExt then { r with imm := d }
      else { r with d := d.extractLsb' 2 6, a := d.extractLsb' 8 6, b := d.extractLsb' 14 6 })
  | .brx h c a off => some { h.raw 0x03 c.code with a := a, imm := off }
  | .call h c d disp =>
    let r := { h.raw 0x04 c.code with d := d }
    some (if h.len.isExt then { r with imm := disp }
      else { r with a := disp.extractLsb' 2 6, b := disp.extractLsb' 8 6 })
  | .ret h c a => some { h.raw 0x05 c.code with a := a }
  | .mif inv d a => some { (noGuard .base).raw 0x06 (if inv then 1 else 0) with d := d, a := a.setWidth 6 }
  | .melse a => some { (noGuard .base).raw 0x07 0 with a := a }
  | .mend a => some { (noGuard .base).raw 0x08 0 with a := a }
  | .rgn len idem conv ws =>
    let r := (noGuard len).raw 0x09 (BitVec.ofBool conv ++ BitVec.ofBool idem)
    some (match ws with
      | .none => { r with xop := 1 }
      | .some vb n1 live => { r.setA vb with b := n1, lit := if len.isLit then live else 0 })
  | .exit h => some (h.raw 0x0A 0)
  | .prioPassImm h t => some { h.raw 0x0B 0 with b := t }
  | .prioPassReg h a => some { h.raw 0x0B 1 with a := a }
  | .spawn h d a spool => some { h.raw 0x0C 0 with d := d, a := a, b := spool }
  | .ltrig h => some (h.raw 0x0D 0)
  | .icinv h sc a b => some { h.raw 0x0E 0 with a := a, b := b, sc := scE h sc }
  | .iadd h o => some (o.raw h 0x10)
  | .iaddc h w64 d a b po cie pi =>
    some { ((((h.raw 0x11 (if w64 then 3 else 1)).opD d).opA a).srcE 0 2 b) with
      c := (0 : BitVec 3) ++ po ++ BitVec.ofBool cie ++ pi }
  | .isub h o => some (o.raw h 0x12)
  | .imul h o => some (o.raw h 0x13)
  | .imulh h o => some (o.raw h 0x14)
  | .imad h o c => some ((o.raw h 0x15).opC c)
  | .imin h o => some (o.raw h 0x16)
  | .imax h o => some (o.raw h 0x17)
  | .iabs h o => some (o.raw h 0x18)
  | .and h o => some (o.raw h 0x19)
  | .or h o => some (o.raw h 0x1A)
  | .xor h o => some (o.raw h 0x1B)
  | .not h o => some (o.raw h 0x1C)
  | .shl h o => some (o.raw h 0x1D)
  | .shr h o => some (o.raw h 0x1E)
  | .sar h o => some (o.raw h 0x1F)
  | .bfe h o => some (o.raw h 0x20)
  | .bfi h o ctl =>
    some (match ctl with
      | .c v => (o.raw h 0x21).opC v
      | .imm w => { (o.raw h 0x21).x (bit1 true 0) with imm := w })
  | .popc h o => some (o.raw h 0x22)
  | .clz h o => some (o.raw h 0x23)
  | .brev h o => some (o.raw h 0x24)
  | .iset h cmp ty d a b =>
    some ((((h.raw 0x25 ty.code).setD (d.setWidth 10)).opA a).x (cmp.code.setWidth 6) |>.srcE 3 4 b)
  | .sel h ty d a b pc inv =>
    some { ((((h.raw 0x26 ty.code).opD d).opA a).srcE 0 2 b) with c := (0 : BitVec 6) ++ BitVec.ofBool inv ++ pc }
  | .mov h w f =>
    let r := h.raw 0x27 0
    let x := bit1 w 0
    let im := fun (r : Raw) (raw : DWord) =>
      if h.len.isLit then { r with lit := raw } else { r with imm := raw.setWidth 32 }
    some (match f with
      | .vv d a => ((r.setD d).setA a).x x
      | .vs d a => ((r.setD d).setA a).x (x ||| 2)
      | .vi d raw => im ((r.setD d).x (x ||| 4)) raw
      | .ss d a => ((r.setD d).setA a).x (x ||| 10)
      | .si d raw => im ((r.setD d).x (x ||| 12)) raw
      | .first d a => ((r.setD d).setA a).x (x ||| 14))
  | .mtx h d a => some (((h.raw 0x28 0).setD (d.setWidth 10)).opA a)
  | .mtxIdx h d a => some (((h.raw 0x28 1).setD (d.setWidth 10)).opA a)
  | .mtxAdd h d imm => some { (h.raw 0x28 2).setD (d.setWidth 10) with b := imm }
  | .mfsr h out d sr =>
    some { (h.raw 0x29 (match out with | .v => 0 | .s => 1 | .pair => 2)).setD d with a := sr }
  | .mtsr len sr a => some { ((noGuard len).raw 0x2A 0).setA a with d := sr }
  | .fadd h o => some (o.raw h 0x30)
  | .fsub h o => some (o.raw h 0x31)
  | .fmul h o => some (o.raw h 0x32)
  | .ffma h o c => some ((o.raw h 0x33).opC c)
  | .fmin h d a b => some (fmnxRaw h 0x34 d a b)
  | .fmax h d a b => some (fmnxRaw h 0x35 d a b)
  | .fset h cmp d a b =>
    some ((((h.raw 0x36 0).setD (d.setWidth 10)).opA a).x (cmp.code.setWidth 6) |>.srcE 3 4 b)
  | .frcp h o => some (sfnRaw h 0x37 o.mode o.d o.a)
  | .frsq h d a => some (sfnRaw h 0x38 .rn d a)
  | .fsqrt h o => some (sfnRaw h 0x39 o.mode o.d o.a)
  | .fexp2 h d a => some (sfnRaw h 0x3A .rn d a)
  | .flog2 h d a => some (sfnRaw h 0x3B .rn d a)
  | .fsin h d a => some (sfnRaw h 0x3C .rn d a)
  | .fcos h d a => some (sfnRaw h 0x3D .rn d a)
  | .ftanh h d a => some (sfnRaw h 0x3E .rn d a)
  | .fsigm h d a => some (sfnRaw h 0x3F .rn d a)
  | .pfadd h o => some (o.raw h 0x40)
  | .pfmul h o => some (o.raw h 0x41)
  | .pffma h o c => some ((o.raw h 0x42).opC c)
  | .cvt h dt st el mode sat d a =>
    some { (((h.raw 0x43 el).opD d).opA a) with
      b := BitVec.ofBool false ++ BitVec.ofBool sat ++ st.code, xop := mode.code ++ dt.code }
  | .pack h hi fmt mode sat d a b =>
    let fc : BitVec 2 := match fmt with | .bf16 => 0 | .e4m3 => 1 | _ => 2
    some { ((((h.raw 0x44 (if hi then 1 else 0)).opD d).opA a).opB b) with
      xop := mode.code ++ fc ++ BitVec.ofBool sat ++ BitVec.ofBool false }
  | .shfl h mode seg d a n =>
    let r := ((h.raw 0x50 mode.code).setD d).setA a
    let x : BitVec 6 := (0 : BitVec 2) ++ seg ++ (0 : BitVec 1)
    some (match n with
      | .vec b => { r.setBn b with xop := x }
      | .imm b => { r with b := b, xop := x ||| 1 })
  | .voteBallot h inv d a => some { (h.raw 0x51 0).setD d with a := a.setWidth 6, xop := bit1 inv 0 }
  | .voteAny h inv d a => some { h.raw 0x51 1 with d := d.setWidth 6, a := a.setWidth 6, xop := bit1 inv 0 }
  | .voteAll h inv d a => some { h.raw 0x51 2 with d := d.setWidth 6, a := a.setWidth 6, xop := bit1 inv 0 }
  | .voteUni h inv d a => some { h.raw 0x51 3 with d := d.setWidth 6, a := a.setWidth 6, xop := bit1 inv 0 }
  | .redg h op ty toV d a =>
    some { ((h.raw 0x52 (if toV then 1 else 0)).setD d).setA a with xop := ty.code ++ op.code }
  | .scang h op ty excl d a =>
    some { ((h.raw 0x53 (if excl then 1 else 0)).setD d).setA a with xop := ty.code ++ op.code }
  | .rebal h d p a b => some { (((h.raw 0x54 0).setD d).setA a).setBn b with c := p.setWidth 10 }
  | .lds h o => some (o.raw h 0x58)
  | .sts h o => some (o.raw h 0x59)
  | .atoms h o a =>
    some { (((h.raw 0x5A o.ty.code).setD o.d).setA a).setBn o.b with
      c := o.c, imm := o.off, xop := o.op.code.setWidth 6 }
  | .dld h o => some (o.raw h 0x5B)
  | .dst h o => some (o.raw h 0x5C)
  | .tld h o => some (o.raw h 0x5D)
  | .tst h o => some (o.raw h 0x5E)
  | .fetch h o =>
    let r := (((h.raw 0x5F o.n1).opD o.d).setA o.tab)
    let r := match o.key with | .vec v => r.opB v | .sca n => (r.setBn n).x (bit1 true 4)
    let r := match o.c with | .vec v => r.opC v | .imm w => { r.x (bit1 true 5) with imm := w }
    some (r.x (o.fmt.code.setWidth 6))
  | .wait len ld st cp mx =>
    some { (noGuard len).raw 0x60 0 with d := ld, a := st, b := cp, c := if len.isExt then mx.setWidth 10 else 0 }
  | .waitp path a => some { (noGuard .base).raw 0x61 0 with b := path.setWidth 6, a := a }
  | .tlk h o => some (o.raw h 0x68 0)
  | .tins h o => some (o.raw h 0x69 0)
  | .tups h o => some (o.raw h 0x69 1)
  | .tdel h o => some (o.raw h 0x6A 0)
  | .tseek h o => some (o.raw h 0x6B)
  | .tnext h w d p k cur => some { (((h.raw 0x6C w.code).setD d).setA cur).setBn k with c := p.setWidth 10 }
  | .tkey h w d p ref => some { ((h.raw 0x6D w.code).setD d).setA ref with c := p.setWidth 10 }
  | .tcnt h o => some (o.raw h 0x6E)
  | .tdrop h o => some (o.raw h 0x6F)
  | .cpy h dir bar mc d a b =>
    let r := barRaw ((((h.raw 0x70 dir.code).setD d).setA a).setBn b) bar
    some (match mc with | none => r | some k => { r with xop := 1, imm := k.setWidth 32 })
  | .gath h kind bar d a b off len =>
    some { barRaw ((((h.raw 0x71 kind.code).setD d).setA a).setBn b) bar with imm := off ++ len }
  | .nmc h bar d a => some (barRaw (((h.raw 0x72 0).setD d).setA a) bar)
  | .coll h bar d a => some (barRaw (((h.raw 0x73 0).setD d).setA a) bar)
  | .cpyqf h bar mask => some { barRaw (h.raw 0x74 0) bar with b := mask.setWidth 6 }
  | .mxstart h q stream =>
    some (match q with
      | none => { h.raw 0x75 0 with imm := stream }
      | some a => { h.raw 0x75 0 with imm := stream, a := a, xop := 1 })
  | .mxstat d => some { (noGuard .base).raw 0x75 1 with d := d }
  | .mxrd h n1 m d a => some { (h.raw 0x76 0).setD d with a := a, b := (0 : BitVec 1) ++ m ++ n1 }
  | .mxwr h n1 m d a => some { (h.raw 0x76 1).setD d with a := a, b := (0 : BitVec 1) ++ m ++ n1 }
  | .mxdrain h core a =>
    some { h.raw 0x77 0 with a := a, b := match core with | none => 0 | some k => (1 : BitVec 3) ++ k }
  | .mxrest h core a =>
    some { h.raw 0x77 1 with a := a, b := match core with | none => 0 | some k => (1 : BitVec 3) ++ k }
  | .barinit h b a count =>
    let r := { h.raw 0x78 0 with d := b.setWidth 6, a := a }
    some (if h.len.isExt then { r with imm := count.setWidth 32 } else { r with b := count.setWidth 6 })
  | .bararr h b a => some { h.raw 0x78 1 with d := b.setWidth 6, a := a }
  | .barwait h b a phase => some { h.raw 0x78 2 with d := b.setWidth 6, a := a, b := bit1 phase 0 }
  | .bartest h d a b phase =>
    some { h.raw 0x78 3 with d := d.setWidth 6, a := a, b := (0 : BitVec 1) ++ BitVec.ofBool phase ++ b }
  | .tatom h o ref =>
    some { (((h.raw 0x79 o.ty.code).setD o.d).setA ref).setBn o.b with
      c := o.c, imm := o.off, sc := scE h o.scope, xop := o.op.code.setWidth 6 }
  | .datom h o tab key =>
    some { (((h.raw 0x7A o.ty.code).setD o.d).setA tab).setBn key with
      c := o.b, imm := o.off, sc := scE h o.scope, xop := o.op.code.setWidth 6 }
  | .barg h a => some { h.raw 0x7B 0 with a := a }
  | .gsig h a v =>
    let r := { h.raw 0x7C 0 with a := a }
    some (match v with | .sca n => { r with b := n } | .imm w => { r with imm := w, xop := 1 })
  | .gwait h d a v =>
    let r := { h.raw 0x7C 1 with d := d, a := a }
    some (match v with | .sca n => { r with b := n } | .imm w => { r with imm := w, xop := 1 })
  | .grd h d a => some { h.raw 0x7C 2 with d := d, a := a }
  | .gtry h d a v =>
    let r := { h.raw 0x7C 3 with d := d.setWidth 6, a := a }
    some (match v with | .sca n => { r with b := n } | .imm w => { r with imm := w, xop := 1 })
  | .trap h code =>
    let r := h.raw 0x7E 0
    some (if h.len.isExt then { r with imm := code } else { r with b := code.setWidth 6 })
  | .brk h code =>
    let r := h.raw 0x7E 1
    some (if h.len.isExt then { r with imm := code } else { r with b := code.setWidth 6 })
  | .tret h form => some (h.raw 0x7F form.code)
  | _ => none

/-- The base word (R51). -/
def Raw.word0 (r : Raw) : Word := r.m ++ r.p ++ r.b ++ r.a ++ r.d ++ r.op ++ r.l
/-- Extended word 1 (R52). -/
def Raw.word1 (r : Raw) : Word := r.xop ++ r.sc ++ BitVec.ofBool r.neg ++ r.c ++ r.bhi ++ r.ahi ++ r.dhi

/-- The words that the length gives, lowest address first (R50). -/
def Raw.words (r : Raw) : List Word :=
  let lit := [r.lit.setWidth 32, r.lit.extractLsb' 32 32]
  match r.len with
  | .base => [r.word0]
  | .lit => r.word0 :: lit
  | .ext => [r.word0, r.word1, r.imm]
  | .extLit => [r.word0, r.word1, r.imm] ++ lit

/-- The bytes of a word, lowest address first (R3). -/
def wordBytes (w : Word) : List Byte :=
  [w.setWidth 8, w.extractLsb' 8 8, w.extractLsb' 16 8, w.extractLsb' 24 8]

/-- The fields of a tile word (R63). -/
def Instr.traw : Instr → Option TRaw
  | .tnop => some (mk 1 0 0 0 0 0 0 false false 0)
  | .tend => some (mk 2 0 0 0 0 0 0 false false 0)
  | .tlw ws f q pi k => some (mk 3 0 ws f.code 0 0 q false pi k)
  | .tmm m ws f acc q pi n k => some (mk 4 m ws f.code 0 n q acc pi k)
  | .tzero m => some (mk 5 m 0 0 0 0 0 false false 0)
  | .tlda m q pi k => some (mk 6 m 0 0 0 0 q false pi k)
  | .tsto m f q pi k => some (mk 7 m 0 f.code 0 0 q false pi k)
  | .tarb b => some (mk 8 0 0 0 b 0 0 false false 0)
  | .twb b ph => some (mk 9 0 0 0 b 0 0 false false (if ph then 1 else 0))
  | .tloop n k => some (mk 10 0 0 0 0 n 0 false false k)
  | .tsetq q k => some (mk 11 0 0 0 0 0 q false false k)
  | _ => none
where
  mk (top : BitVec 6) (mt : BitVec 2) (ws : BitVec 1) (fmt bn : BitVec 4) (n : BitVec 7) (qa : BitVec 3)
      (acc pi : Bool) (k : Word) : TRaw :=
    { top := top, pi := pi, acc := acc, qa := qa, rsv := 0, mt := mt, ws := ws, fmt := fmt, bn := bn, n := n, k := k }

/-- A tile word (R62). -/
def TRaw.word (r : TRaw) : DWord :=
  r.k ++ r.n ++ r.bn ++ r.fmt ++ r.ws ++ r.mt ++ r.rsv ++ r.qa ++ BitVec.ofBool r.acc ++ BitVec.ofBool r.pi ++ r.top

/-- The words of a well-formed instruction: 32-bit words of a group instruction, lowest address first. -/
def encode (i : Instr) : List Word :=
  match i.raw with
  | some r => r.words
  | none => []

/-- The 64-bit word of a well-formed tile word. -/
def encodeTile (i : Instr) : DWord :=
  match i.traw with
  | some r => r.word
  | none => 0

/-- The bytes of a word list. -/
def wordsBytes (ws : List Word) : List Byte := ws.flatMap wordBytes

/-- The byte `k` of a number. -/
def natByte (w k : Nat) : Byte := BitVec.ofNat 8 (w / 256 ^ k)

/-- `n` bytes of a number, lowest first. -/
def natBytes : Nat → Nat → List Byte
  | _, 0 => []
  | w, n + 1 => BitVec.ofNat 8 w :: natBytes (w / 256) n

/-- The instruction that the decoder reads from an instruction of the opcode table whose bits are `w`: a tile word
where the table gives 64 bits, else a group instruction with zero bits above the given ones. -/
def decodeTableWord (nbits w : Nat) : Option Instr :=
  if nbits = 64 then
    match decodeTile (BitVec.ofNat 64 w) with
    | .ok i => some i
    | .bad _ => none
  else
    match decode (natBytes w 20) with
    | .ok i => some i
    | _ => none

end Sys2Proof
end

