-- ==== Sys2Proof/Machine/Tab.lean ====
section
/-! DEFINITION. Sparse data by key: a list of key and value pairs in one canonical form, keys strictly rising and no
entry equal to what an unlisted key reads as. -/

namespace Sys2Proof.Machine

/-- What key `i` holds; an unlisted key reads as `d`. -/
def tget {α : Type} (d : α) : List (Nat × α) → Nat → α
  | [], _ => d
  | (k, v) :: r, i => if i = k then v else tget d r i

/-- Put an entry in its place. -/
def tput {α : Type} : List (Nat × α) → Nat → α → List (Nat × α)
  | [], i, v => [(i, v)]
  | (k, w) :: r, i, v =>
    if i < k then (i, v) :: (k, w) :: r else if i = k then (i, v) :: r else (k, w) :: tput r i v

/-- Write `v` at key `i`; writing what an unlisted key reads as removes the entry. -/
def tset {α : Type} [DecidableEq α] (d : α) (m : List (Nat × α)) (i : Nat) (v : α) : List (Nat × α) :=
  if v = d then m.filter fun c => c.1 != i else tput m i v

/-- Every key of the list is greater than `b`. -/
def tabove {α : Type} (b : Nat) : List (Nat × α) → Bool
  | [] => true
  | (k, _) :: r => decide (b < k) && tabove b r

/-- The canonical form. -/
def twf {α : Type} [DecidableEq α] (d : α) : List (Nat × α) → Bool
  | [] => true
  | (k, v) :: r => tabove k r && decide (v ≠ d) && twf d r

/-- Write a list of values at `i`, `i + 1`, ... -/
def tsets {α : Type} [DecidableEq α] (d : α) : List (Nat × α) → Nat → List α → List (Nat × α)
  | m, _, [] => m
  | m, i, v :: vs => tsets d (tset d m i v) (i + 1) vs

/-- The values at `i`, ..., `i + n - 1`. -/
def tgets {α : Type} (d : α) (m : List (Nat × α)) (i : Nat) : Nat → List α
  | 0 => []
  | n + 1 => tget d m i :: tgets d m (i + 1) n

/-- Insert a number into a strictly rising list. -/
def ninsert (i : Nat) : List Nat → List Nat
  | [] => [i]
  | k :: r => if i < k then i :: k :: r else if i = k then k :: r else k :: ninsert i r

end Sys2Proof.Machine
end

