-- ==== Sys2Proof/Machine/State.lean ====
section
/-! DEFINITION. The state of the L7: all the spec gives the device, as plain data. Sparse data (registers, memory,
scratchpad, accumulators) is kept in the canonical form of Machine/Tab.lean. -/

namespace Sys2Proof.Machine

/-- A cursor register of one lane (R183). `state`: 0 closed, 1 opened, 2 stepping, 3 ended. Keys are held as integers
of the key type's order (R36). -/
structure Cursor where
  slot  : Nat
  ktype : Nat
  state : Nat
  lo    : Int
  hi    : Int
  last  : Int
  deriving DecidableEq, Repr

/-- One lane's own cause and address detail in a park (R294, R299), and the table slot that a report of it names (R329). -/
structure LaneFault where
  cause  : BitVec 8
  detail : BitVec 16
  addr   : DWord
  aux    : Word
  slot   : Nat
  deriving DecidableEq, Repr

/-- A park (R292, R295): the lanes of one issue of one instruction, of one class. -/
structure Park where
  rpl      : Bool
  async    : Bool
  pc       : Word
  next     : Word
  insn     : Word
  faults   : List (Nat × LaneFault)   -- by lane, rising
  resolved : Bool                     -- replayable: a RESUME has come (R314)
  op       : Option Nat               -- the issue's operation, some of whose lanes may still meet a fault (R168, R294)
  deriving DecidableEq, Repr

/-- The eight access paths (R156), in the order of their codes. -/
inductive Path where
  | ld | st | tb | ft | cp | mx | nm | gt
  deriving DecidableEq, Repr

/-- What a pending operation does when it reaches its point. -/
inductive PKind where
  | load | store                       -- DLD, TLD; DST, TST
  | lds | sts | atoms (op : AOp) (ty : ITy)
  | atom (op : AOp) (ty : ITy)         -- TATOM, DATOM
  | fetch (fmt : Fmt)
  | tlk | tins | tups | tdel | tkey | tcnt | tdrop
  | tnext (w : KWidth) (k : Nat) (cur : Nat)
  | mxrd (m : Nat) | mxwr (m : Nat)
  | engine (id : Nat)                  -- CPY, GATH, NMC, COLL, CPYQF
  | mx                                 -- MXSTART, MXDRAIN, MXREST
  | gsig (gate : Nat) (addend : DWord)   -- a gate: its part's device number times 2^16, plus its number there
  | grd (gate : Nat) (d : Nat) | gtry (gate : Nat) (d : Nat) (t : DWord)
  deriving DecidableEq, Repr

/-- One lane's part of a pending operation. `addr` is a key of device memory, a scratchpad offset, or an accumulator
row; `va` the virtual address it came from, `leaf` the key of that page's entry; `key` the key or rowref that a fault record shows. -/
structure LaneReq where
  lane : Nat
  addr : Nat
  va   : Nat
  leaf : Option Nat    -- the page-table entry through which it goes (R310)
  reg  : Nat           -- destination or source register of the lane
  data : BitVec 128    -- store data or operand b
  dat2 : BitVec 128    -- operand c
  key  : DWord
  lo   : Int
  hi   : Int
  zero : Bool          -- the lane completes with zeros and touches nothing (R162, R170)
  half : Option Bool   -- the half of a .b128 access that has taken effect, true the high one (R160)
  deriving DecidableEq, Repr

/-- An unfinished operation of a path queue (R246, R249). -/
structure Pend where
  id    : Nat
  kind  : PKind
  path  : Path
  scope : Scope
  pc    : Word
  next  : Word
  insn  : Word
  slot  : Nat
  size  : Nat                  -- bytes of each lane's access
  regs  : Nat                  -- destination registers of each lane, 0 if none
  pred  : Option Nat           -- destination predicate
  byRef : Bool                 -- checks the generation at its point (R169)
  quiet : Bool                 -- .ck: leaves the stale-row record alone
  lanes : List LaneReq         -- lanes not done
  faults : List (Nat × LaneFault)   -- lanes whose point answered with a fault; they park together (R168, R294)
  fin   : Bool
  deriving DecidableEq, Repr

/-- Lanes that wait for their turn in a catch-up run: the lanes, those of them in EM, and where they run from (R296). A
handler's lanes resume with all of them in EM; lanes that a trap interrupted keep what a masked section has left out. -/
structure LaneTurn where
  run : Lanes
  em  : Lanes
  pc  : Word
  deriving DecidableEq, Repr

/-- What trap mode keeps (R299). -/
structure TrapSt where
  em      : Lanes
  p       : List (Nat × Lanes)
  pending : Lanes
  park    : Park
  resume  : List (Lanes × Word)   -- lanes handed back, with their program counters
  skipped : List (Lanes × Word)
  deriving DecidableEq, Repr

/-- A catch-up run (R296). -/
structure CatchUp where
  head   : Option Word            -- the convergence head at which the others wait
  point  : Bool                   -- `head` is no head: the others of an issue that found no park slot wait there (R295)
  waitEM : Lanes
  held   : Lanes
  resume : List LaneTurn
  deriving DecidableEq, Repr

/-- The checkpoint slot (R104). -/
structure Slot where
  pc : Word
  em : Lanes
  s  : List (Nat × DWord)
  p  : List (Nat × Lanes)
  x  : List (Nat × Word)
  c  : List (Nat × Cursor)
  ws : WSet
  rs : Bool
  deriving DecidableEq, Repr

/-- A group that parks as a whole (R295). -/
structure Whole where
  em       : Lanes
  noted    : Lanes
  park     : Park
  resolved : Bool
  deriving DecidableEq, Repr

/-- A whole group's instruction issues again (R295): for which lanes, and where the group goes on after it. -/
structure Redo where
  noted : Lanes
  next  : Word
  deriving DecidableEq, Repr

/-- What a group that is not ready has begun (R286, R315). -/
inductive GWait where
  | none
  | gwait (gate : Nat) (t : DWord) (answer : Option DWord)
  | xlate (va : Nat)              -- an access to an unpaged table whose page is not present waits for a RESUME (R315)
  deriving DecidableEq, Repr

/-- How a group stands toward a stop request (R304). -/
inductive Stop where
  | running | asked (trap : Bool) | stopped
  deriving DecidableEq, Repr

/-- A group (R98 and the chapters on registers). -/
structure Group where
  pc        : Word
  em        : Lanes
  exited    : Lanes
  triggered : Lanes
  v         : List (Nat × Word)      -- main register file, key 32 * register + lane
  s         : List (Nat × DWord)
  p         : List (Nat × Lanes)     -- p0 to p6
  x         : List (Nat × Word)      -- key 32 * register + lane
  c         : List (Nat × Cursor)
  nf        : Word
  sf        : DWord
  trapPC    : Word
  trapCause : Word
  trapInfo  : Word
  trapAddr  : DWord
  trap      : Option TrapSt
  parks     : List Park              -- at most four, oldest first
  whole     : Option Whole
  redo      : Option Redo            -- a replay in progress (R295)
  atHead    : Bool                   -- waits at the convergence head at pc
  catchUp   : Option CatchUp
  slot      : Option Slot
  fast      : List (Nat × Word)      -- fast operand buffer, key as `v`
  pend      : List Pend              -- unfinished operations in issue order
  nextOp    : Nat
  wait      : GWait
  barg      : Option Nat             -- the phase of the grid barrier in which its BARG has arrived (R272)
  icReq     : List (Nat × Nat × Nat) -- what ICINV has asked of other cores: core, first byte, count (R91)
  grant     : Option Nat
  starve    : Nat
  halted    : Bool
  stop      : Stop
  insn      : Word                   -- base word of the instruction last fetched
  deriving DecidableEq, Repr

/-- A team barrier (R210). -/
structure Barrier where
  e  : Nat
  a  : Nat
  ph : Bool
  deriving DecidableEq, Repr

/-- The engines (R195, R209). -/
inductive Engine where
  | copy | gather | near | coll | join
  deriving DecidableEq, Repr

/-- A failed item of an engine operation (R195), with what its report names (R329). -/
structure BadItem where
  item : Nat
  code : Nat
  addr : DWord
  slot : Nat
  deriving DecidableEq, Repr

/-- An element of a held row that is still to be written (R322): its number, where it lies, and its bytes. -/
structure HeldElem where
  num   : Nat
  key   : Nat
  va    : Nat
  bytes : List Byte
  deriving DecidableEq, Repr

/-- A row that a bobbin unit holds while it updates it (R322): the ranges of memory that it covers, and what is still to
be written. -/
structure RowHold where
  item : Nat
  span : List (Nat × Nat)
  todo : List HeldElem
  deriving DecidableEq, Repr

/-- The communicator of a collective operation that its rank has joined (R207, R208, R340). -/
structure CollAt where
  comm  : BitVec 256            -- digest of the communicator table
  k     : Nat                   -- how many COLLs on it the rank joined before
  lo    : Nat                   -- the first rank
  rank  : Nat                   -- the issuing partition's rank
  ranks : List (Option Nat)     -- from `lo` on: the rank's partition, where it is one of this device
  deriving DecidableEq, Repr

/-- One COLL that a rank has joined: its operand block, and the elements of its source as it read them for the other ranks
before its own COLL finished, a poisoned one none (R208). -/
structure CollPart where
  block : BitVec 512
  sent  : Option (List (Option Nat))
  deriving DecidableEq, Repr

/-- The COLLs that a rank of this device has joined on a communicator, oldest first (R208). -/
structure CollJoin where
  comm  : BitVec 256
  part  : Nat
  colls : List CollPart
  deriving DecidableEq, Repr

/-- An engine operation (R193 to R209). -/
structure EngOp where
  id     : Nat
  eng    : Engine
  grp    : Nat
  bar    : Option Nat
  dir    : CpyDir
  kind   : GathKind
  mc     : Option (BitVec 8)
  mask   : BitVec 4             -- CPYQF
  arg    : List DWord           -- scalar operands, in the entry's order
  off    : Nat
  len    : Nat
  begun  : Bool
  recd   : List (BitVec 512)    -- the layout or operand block, once it is checked
  total  : Nat                  -- item count
  items  : List (Nat × Nat)     -- items not done: first and count
  bad    : List BadItem         -- rising by item
  rej    : Option Nat           -- the code with which the whole operation was rejected
  sum    : DWord                -- CHECKSUM
  stall  : Option Nat           -- waits for the translation of an address (R315)
  read   : List (Nat × DWord)   -- list elements that are read and whose rows are not yet copied (R204)
  hold   : List RowHold         -- oldest first
  coll   : Option CollAt
  deriving DecidableEq, Repr

/-- A weight slot (R218): elements in 24 bits each as R240 lays them out, key 128 * j + k; descriptors, key 256 * b + j.
`tiny` keeps the signs of the non-zero elements whose aligned integer is 0, 1 positive and 2 negative (R223); `src` where
in scratchpad the tile lay, and in what allocation: bytes beyond that were read as zero (R164, R224). -/
structure WSlot where
  wfmt : Nat
  el   : List (Nat × BitVec 24)
  desc : List (Nat × DWord)
  tiny : List (Nat × Nat)
  src  : Option (Nat × Nat)
  deriving DecidableEq, Repr

/-- A stop of the sequencer that is not delivered yet (R227). -/
structure SeqStop where
  cause  : BitVec 8
  detail : BitVec 16
  insn   : Word
  spc    : Word
  grp    : Nat
  deriving DecidableEq, Repr

/-- The array and the sequencer of an array team (R225). `st`: 0 to 5. Accumulator element (i, j) of tile t has key
32768 * t + 256 * i + j. -/
structure Arr where
  st     : Nat
  frozen : Nat                  -- the STATE it had when it froze (R308)
  spc    : Word
  q      : List (Nat × Word)
  lcnt   : BitVec 7
  loff   : Word
  mxgrp  : Nat
  tsub   : BitVec 8
  bn     : BitVec 4
  ph     : Bool
  w0     : WSlot
  w1     : WSlot
  m      : List (Nat × Word)
  stops  : List SeqStop
  word   : DWord                -- the tile word last fetched
  miss   : Bool                 -- waits for a tile-word fetch to be resolved (R226)
  grp0   : Nat                  -- the group of the last MXSTART and its operations before it (R226)
  op0    : Nat
  deriving DecidableEq, Repr

/-- How a team stands toward pre-emption (R304 to R307). -/
inductive TeamSt where
  | running | stopping | draining | stopped
  deriving DecidableEq, Repr

/-- Why a team is being ended from outside (R302, R326, R333). -/
inductive EndWhy where
  | none | halted | coreError | aborted
  deriving DecidableEq, Repr

/-- A resident team (R79, R85). -/
structure Team where
  part    : Nat
  spool   : Nat
  pos     : Nat
  record  : BitVec 256          -- its work record
  teamId  : Nat
  gang    : Nat
  gangSz  : Nat
  gangIdx : Nat
  core    : Nat
  base    : Nat                 -- first group slot on the core (R92)
  groups  : List Group
  token   : Option Nat
  scratch : List (Nat × Byte)
  bars    : List (Nat × Barrier)
  engs    : List EngOp
  nextEng : Nat
  arr     : Option Arr
  image   : Option Arr          -- the array that the hub drained (R306)
  imgAt   : Option (Nat × Nat)  -- the slot and position of an image that a handler drained
  st      : TeamSt
  why     : EndWhy
  coreErr : Bool                -- an uncorrectable error has struck its core state (R333)
  abandon : Bool
  nfail   : Nat
  deriving DecidableEq, Repr

/-- A bound table (R39, R43, R173). Index keys rise in the key type's order. -/
structure Table where
  record : BitVec 1024
  gens : List (Nat × BitVec 16)      -- row slots whose generation is not GENSEED
  keys : List (Int × Nat)            -- live keys and their row slots
  bad  : Bool                        -- an index node has met an uncorrectable error
  deriving DecidableEq, Repr

/-- A grid or command that a spool has taken and not yet completed (R78, R328). -/
structure Grid where
  spool   : Nat
  pos     : Nat
  record  : BitVec 256
  placed  : Nat                      -- teams placed
  ended   : Nat                      -- teams ended
  nbad    : Nat
  nfail   : Nat
  ndone   : Nat
  code    : BitVec 8
  value   : DWord
  op      : Option EngOp             -- the engine operation of a command
  retired : Bool                     -- ready for its completion record
  phase   : Nat                      -- of the grid barrier (R272)
  aborted : Bool
  wd      : Nat                      -- watchdog count (R291)
  wdDone  : Bool
  stall   : Bool                     -- a gate has stalled a group of it in this microsecond (R291)
  deriving DecidableEq, Repr

/-- A spool's registers (R67 to R70, R325). -/
structure Spool where
  cfg  : DWord
  head : Word
  tail : Word
  done : Word
  stat : Word
  cq   : DWord
  fin  : List Nat                    -- completed positions not yet counted
  deriving DecidableEq, Repr

/-- A report waiting to be pushed (R329): one to three records. -/
structure Report where
  recs : List (BitVec 256)
  deriving DecidableEq, Repr

/-- A partition: its registers, slots, spools and running work. -/
structure Partition where
  pcfg      : DWord
  thrdebt   : DWord
  wdlim     : DWord
  ptroot    : DWord
  dlcfg     : DWord
  timeval   : DWord
  timectl   : DWord
  walloff   : DWord
  apbase    : DWord
  peeracl   : List (Nat × Word)
  windows   : List (Nat × BitVec 256)
  stalestat : DWord
  staleref  : DWord
  trapcfg   : DWord
  spools    : List (Nat × Spool)
  tables    : List (Nat × Option Table)
  gateSlots : List (Nat × DWord)
  grids     : List Grid
  conts     : List (Nat × BitVec 256)   -- continuations waiting for their push (R80)
  reports   : List Report
  inSlice   : Bool                      -- holds its clusters now (R279)
  sliceUs   : Nat                       -- length of the current slice in microseconds
  debtNum   : Nat                       -- thermal debt below a microsecond, in parts of 10^6
  closing   : List Nat                  -- slots unbound while engine items that had begun on them go on (R41)
  turns     : List (Nat × Nat)          -- by PRIO: the spool that last placed a gang (R86)
  ending    : Bool                      -- a write has cleared EN, which falls once the teams have ended (R279)
  deriving DecidableEq, Repr

/-- An outbound write of a core (R246, R250). -/
structure OutW where
  addr  : Nat
  bytes : List Byte
  who   : Nat × Nat × Nat               -- team, group, lane
  part  : Nat
  va    : Nat
  half  : Bool                          -- one half of a .b128 store (R160)
  deriving DecidableEq, Repr

/-- A cached translation (R312): virtual pages of `asid` from `va`, `size` bytes, with the key of the leaf entry. -/
structure Tlb where
  asid : Nat
  va   : Nat
  size : Nat
  pa   : Nat
  leaf : Nat
  w    : Bool
  deriving DecidableEq, Repr

/-- A logical core: caches, translations and issue counters (R90, R93, R153, R170, R246, R312). `spVict` and `icVict` are
the victim translations in idle scratchpad units and idle instruction-cache lines. -/
structure Core where
  l1     : List (Nat × Option (BitVec 1024))
  outb   : List OutW
  icache : List (Nat × Option (BitVec 1024))
  ft     : List (Nat × Option (BitVec 1024))
  idle   : List (Nat × BitVec 8)
  tlb    : List Tlb
  spVict : List Tlb
  icVict : List Tlb
  noTeam : Bool                         -- retired: takes no further team (R334)
  deriving DecidableEq, Repr

/-- A line of the cluster atomic engine (R252, R263). -/
structure HotLine where
  line : Nat
  data : BitVec 1024
  own  : List (Nat × Nat × Nat)         -- lanes whose writes it holds
  got  : List Nat                       -- teams that may have acquired one of them (R256)
  part : Nat
  va   : Nat
  deriving DecidableEq, Repr

/-- A logical cluster (R263, R264, R290, R312, R346). Hot lines stand most recently used first. -/
structure Cluster where
  hot  : List HotLine
  tlb  : List Tlb
  rot  : BitVec 3
  frac : Option (Nat × Nat)             -- throttled issue fraction
  idle : Bool                           -- P1
  deriving DecidableEq, Repr

/-- Who has a signal held at a gate, or waits at it: a group of this part that has its grant and has not issued yet, or
that waits; a group with its operation; or a partition of another part (R287, R288). -/
inductive GateParty where
  | asked (r : GRef)
  | group (r : GRef) (op : Nat)
  | far (dev part : Nat)
  deriving DecidableEq, Repr

/-- A held signal of a frozen gate (R288), in hold order. -/
structure HeldSig where
  who    : GateParty
  addend : DWord
  deriving DecidableEq, Repr

/-- A gate (R283). `st`: 0 free, 1 active, 2 frozen, 3 migrating. -/
structure Gate where
  st      : Nat
  value   : DWord
  acl     : List (Nat × Word)
  tok     : List (Nat × BitVec 16)
  burst   : BitVec 16
  rate    : BitVec 16
  mode    : Bool
  limen   : Bool
  home    : BitVec 10
  held    : List HeldSig
  waiters : List (GateParty × DWord)   -- in the order of registration, each with its threshold
  fwd     : Option (Nat × Nat)
  deriving DecidableEq, Repr

/-- A write in a posted stream: to host memory behind a link, or to a peer (R254, R339). -/
structure Post where
  part  : Nat
  addr  : Nat
  bytes : List Byte
  deriving DecidableEq, Repr

/-- What a discard has still to do to a range of one page that was not present (R190): set it to zero, or clear the poison
of granules that the discard covered whole (R332). -/
structure Drop where
  asid  : Nat
  va    : Nat
  bytes : Nat
  clean : Bool
  deriving DecidableEq, Repr

/-- A page move in progress (R316). -/
structure PageMove where
  pte  : Nat          -- memory key of the leaf entry
  asid : Nat
  va   : Nat
  size : Nat
  src  : Nat
  tier : Nat
  byTq : Bool         -- asked for by the translation queue
  deriving DecidableEq, Repr

/-- The module's power state (R346). -/
inductive Power where
  | p0 | p2
  deriving DecidableEq, Repr

/-- The outcome of the boot sequence (R344). -/
inductive Boot where
  | running | recovery
  deriving DecidableEq, Repr

/-- Registers and units of the hub that belong to no partition. -/
structure Hub where
  perr    : Word
  pwrcap  : DWord
  elbase  : DWord
  eltail  : Word
  elhead  : Word
  skcfg   : DWord
  tqbase  : DWord
  tqtail  : Word
  tqdone  : Word
  tqstat  : Word
  tierwm  : List (Nat × DWord)
  tierfree : List (Nat × Word)
  power   : Power
  boot    : Boot
  flash   : Option (List Byte)      -- the firmware image of the module's flash (R344), none: the one it came with
  fw      : Option (DWord × BitVec 256)  -- version and body digest of the firmware that runs, none: of that image
  demoting : List Nat               -- tiers whose engines demote (R316)
  cxlAsk  : Bool × Bool             -- links the configuration asks to train in mode 1 (R336)
  cxl     : Bool × Bool             -- links trained in mode 1
  capFrac : Option (Nat × Nat)      -- issue fraction under the power cap (R347)
  dead    : List Nat                -- physical cores that are retired: bits [9:0] of their remap entries (R334)
  degraded : Bool                   -- a unit that cannot be retired has failed (R334)
  deriving DecidableEq, Repr

/-- One choice of what the machine does next. -/
inductive Sched where
  | issue (g : GRef)                     -- the group fetches and issues its next instruction
  | policy (core quad : Nat)             -- the quadrant issues by the policy of R94
  | tile (team : Nat)                    -- the team's sequencer issues its next word
  | event (i : Instr)                    -- a step of the opcode table that no group issues
  | icFill (core part slot block : Nat)  -- the core fills an instruction block (R90)
  | icEvict (core key : Nat)
  | ftEvict (core line : Nat)
  | tlbEvict (level at_ index : Nat)     -- an entry of a core's (0), cluster's (1) or die's (2) TLB goes
  | tlbSpill (core index : Nat) (ic : Bool)   -- a core's entry moves to an idle unit as a victim (R312)
  | l1Fill (core line : Nat)             -- step 3 of R250
  | drain (part stream : Nat)            -- the oldest write of a posted stream arrives (R254)
  | farWrite (key : Nat) (bs : List Byte)   -- the host, or a peer, changes memory of its own
  | tierFree (tier units : Nat)          -- the hub counts a tier's free units anew (R316)
  | hostRead (fn off n : Nat)            -- the host reads a register of a function (R5, R335)
  | hostWrite (fn off : Nat) (v : DWord) -- the host writes a register of a function
  | hostAtomic (part off : Nat) (op : AOp) (ty : ITy) (b c : DWord)   -- an AtomicOp of the host (R336)
  | cxlConfig (a b : Bool)               -- the modes that the module's configuration asks of the links (R336)
  | farPoison (key : Nat)                -- a granule of a peer is poisoned
  | farDeny (space : Nat) (on : Bool)    -- a peer's partition refuses this device's units, or answers them again (R339)
  | partIn (part : Nat) (p : Partition) (ts : List Team) (bad : List Nat)   -- a partition that another part has stopped
                                         -- comes here, with granules of its pages that are poisoned (R318, R330)
  | partOut (part : Nat)                 -- a stopped partition leaves
  | gateIn (from_ : Nat) (g : Gate)      -- a frozen gate of another part moves here (R319)
  | half (g : GRef) (op lane : Nat) (hi : Bool) (ext : Option (BitVec 128))   -- one half of a .b128 access takes effect
                                         -- (R160); of a load from a peer, with what that holds
  | tick (ns : Nat) (turns : List Nat) (far : List GRef)   -- the reference clock advances; the partitions that waited
                                         -- for another's turn, the groups that another part's gate unit stalled (R291)
  deriving DecidableEq, Repr

/-- The whole device. -/
structure State where
  mem      : List Host.Cell                    -- every tier and host window, by address key
  poison   : List Nat                          -- poisoned 64-byte granules, by key / 64, rising
  parts    : List (Nat × Partition)
  cores    : List (Nat × Core)
  clusters : List (Nat × Cluster)
  teams    : List (Nat × Option Team)
  nextTeam : Nat
  nextGang : Nat
  gates    : List (Nat × Gate)
  denied   : List Nat                          -- spaces of peers that refuse what units of this device read (R339)
  redirect : List (Nat × Nat)                  -- where requests for gates of other parts are redirected to (R319)
  hub      : Hub
  remap    : List (Nat × Word)                 -- logical core to remap entry, where it is not the identity
  tlb      : List (Nat × List Tlb)             -- the last-level translations of each die (R312)
  posted   : List Post                         -- posted window writes, oldest first (R246, R254)
  pmoves   : List (Nat × Option PageMove)      -- by tier, what its migration engine moves (R316)
  lru      : List (Nat × Nat)                  -- pages in use, the last used first: asid, va / 2^16 (R316)
  drops    : List Drop                         -- what discards have still to do, the oldest first (R190)
  colls    : List CollJoin                     -- the COLLs that this device's ranks have joined (R208)
  waits    : List (Nat × Nat)                  -- addresses that a unit of the hub waits for: asid, va
                                               -- (R315)
  refNs    : Nat
  aborted  : List (Nat × Nat)                  -- communicators aborted: partition, slot
  answer   : List DWord                        -- the hub's last answer to a request
  sched    : List Sched
  cur      : Option GRef                       -- the group that issues
  seq      : Option Nat                        -- the team whose sequencer issues
  deriving DecidableEq, Repr

/-- Why a step stops with no next state. -/
inductive Fault where
  /-- Raised by every meaning of a group instruction when `State.cur` names no group, and of a tile word when
  `State.seq` names no array: there is no agent to execute it. `step` never asks for it. Safe. -/
  | noAgent
  deriving DecidableEq, Repr

/-- Why a step has no meaning. -/
inductive Refusal where
  /-- Raised by an arm of `exec` whose instruction has no meaning yet; carries its mnemonic. Safe. -/
  | notModelled (mnemonic : String)
  deriving DecidableEq, Repr

/-- A partition at reset: every register 0 (R5, R181, R279, R290, R291, R297, R309, R317, R320, R337). -/
def Partition.reset : Partition :=
  { pcfg := 0, thrdebt := 0, wdlim := 0, ptroot := 0, dlcfg := 0, timeval := 0, timectl := 0, walloff := 0,
    apbase := 0, peeracl := [], windows := [], stalestat := 0, staleref := 0, trapcfg := 0, spools := [],
    tables := [], gateSlots := [], grids := [], conts := [], reports := [], inSlice := false, sliceUs := 0,
    debtNum := 0, closing := [], turns := [], ending := false }

/-- A spool block at reset (R68 to R70, R325). -/
def Spool.reset : Spool := { cfg := 0, head := 0, tail := 0, done := 0, stat := 0, cq := 0, fin := [] }

/-- A core at reset: nothing cached, nothing outbound. DESIGN CHOICE (log 2): idle counters 0. -/
def Core.reset : Core := { l1 := [], outb := [], icache := [], ft := [], idle := [], tlb := [],
                             spVict := [], icVict := [], noTeam := false }

/-- A cluster at reset: rotation pointer 0 (R264). -/
def Cluster.reset : Cluster := { hot := [], tlb := [], rot := 0, frac := none, idle := false }

/-- A free gate (R283). -/
def Gate.reset : Gate :=
  { st := 0, value := 0, acl := [], tok := [], burst := 0, rate := 0, mode := false, limen := false, home := 0,
    held := [], waiters := [], fwd := none }

/-- A barrier at team start (R79). -/
def Barrier.reset : Barrier := { e := 0, a := 0, ph := false }

/-- A closed cursor (R183). -/
def Cursor.closed : Cursor := { slot := 0, ktype := 0, state := 0, lo := 0, hi := 0, last := 0 }

/-- A weight slot that holds no weights (R219). -/
def WSlot.empty : WSlot := { wfmt := 0, el := [], desc := [], tiny := [], src := none }

/-- The array at team start (R225). -/
def Arr.start : Arr :=
  { st := 0, frozen := 0, spc := 0, q := [], lcnt := 0, loff := 0, mxgrp := 0, tsub := 0, bn := 0, ph := false,
    w0 := WSlot.empty, w1 := WSlot.empty, m := [], stops := [], word := 0, miss := false, grp0 := 0, op0 := 0 }

/-- The hub at reset (R313, R316, R335, R341, R342, R346, R347). DESIGN CHOICE (log 3): EL*, TQ* and TIERFREE are 0.
DESIGN CHOICE (log 6): the boot sequence of R344 has accepted its firmware. -/
def Hub.reset : Hub :=
  { perr := 0, pwrcap := 0, elbase := 0, eltail := 0, elhead := 0, skcfg := 0x3FF, tqbase := 0, tqtail := 0,
    tqdone := 0, tqstat := 0, tierwm := [], tierfree := [], power := .p0, boot := .running, flash := none,
    fw := none, demoting := [], cxlAsk := (false, false), cxl := (false, false), capFrac := none, dead := [],
    degraded := false }

/-- The device right after reset: no partition enabled, no table bound, no team resident, memory all zero
(DEDUCED, log 4), the remap table the identity (DESIGN CHOICE, log 5). -/
def State.reset : State :=
  { mem := [], poison := [], parts := [], cores := [], clusters := [], teams := [], nextTeam := 0, nextGang := 0,
    gates := [], denied := [], redirect := [], hub := Hub.reset, remap := [], tlb := [], posted := [],
    pmoves := [], lru := [], drops := [], colls := [], waits := [], refNs := 0, aborted := [],
    answer := [], sched := [], cur := none, seq := none }

end Sys2Proof.Machine
end

