-- ==== Sys2Proof/Machine/Ops.lean ====
section
/-! DEFINITION. Named operations over the state: registers, masks, path counters, parks, taking an exception and
returning from one, reports, and the frame in which every group instruction executes. -/

namespace Sys2Proof.Machine

/-! ### Parts of the state -/

def State.team (s : State) (t : Nat) : Option Team := tget none s.teams t
def State.setTeam (s : State) (t : Nat) (x : Option Team) : State := { s with teams := tset none s.teams t x }
def State.partn (s : State) (p : Nat) : Partition := tget Partition.reset s.parts p
def State.setPartn (s : State) (p : Nat) (x : Partition) : State := { s with parts := tset Partition.reset s.parts p x }
def State.core (s : State) (c : Nat) : Core := tget Core.reset s.cores c
def State.setCore (s : State) (c : Nat) (x : Core) : State := { s with cores := tset Core.reset s.cores c x }
def State.cluster (s : State) (c : Nat) : Cluster := tget Cluster.reset s.clusters c
def State.setCluster (s : State) (c : Nat) (x : Cluster) : State :=
  { s with clusters := tset Cluster.reset s.clusters c x }
def State.gate (s : State) (n : Nat) : Gate := tget Gate.reset s.gates n
def State.setGate (s : State) (n : Nat) (x : Gate) : State := { s with gates := tset Gate.reset s.gates n x }

/-- The group that a reference names, with its team. -/
def State.group (s : State) (r : GRef) : Option (Team × Group) :=
  match s.team r.team with
  | none => none
  | some t => match t.groups[r.grp]? with
    | none => none
    | some g => some (t, g)

/-- Put a group back into its team. -/
def Team.putGroup (t : Team) (n : Nat) (g : Group) : Team := { t with groups := t.groups.set n g }
def State.putGroup (s : State) (r : GRef) (g : Group) : State :=
  match s.team r.team with
  | none => s
  | some t => s.setTeam r.team (some (t.putGroup r.grp g))

def Partition.spool (p : Partition) (n : Nat) : Spool := tget Spool.reset p.spools n
def Partition.setSpool (p : Partition) (n : Nat) (x : Spool) : Partition :=
  { p with spools := tset Spool.reset p.spools n x }
/-- The table in a slot, one that is being unbound included: engine items that had begun on it go on (R41). -/
def Partition.held (p : Partition) (n : Nat) : Option Table := tget none p.tables n
/-- The table bound in a slot. -/
def Partition.table (p : Partition) (n : Nat) : Option Table := if p.closing.contains n then none else p.held n
def Partition.setTable (p : Partition) (n : Nat) (x : Option Table) : Partition :=
  { p with tables := tset none p.tables n x }
def State.table (s : State) (part slot : Nat) : Option Table := (s.partn part).table slot
def State.held (s : State) (part slot : Nat) : Option Table := (s.partn part).held slot
def State.setTable (s : State) (part slot : Nat) (x : Option Table) : State :=
  s.setPartn part ((s.partn part).setTable slot x)

/-- Bits `hi` to `lo` of a record as a number. -/
def fld {w : Nat} (v : BitVec w) (hi lo : Nat) : Nat := v.toNat / 2 ^ lo % 2 ^ (hi + 1 - lo)
def fbit {w : Nat} (v : BitVec w) (i : Nat) : Bool := v.getLsbD i
/-- A record with bits `hi` to `lo` replaced. -/
def setFld {w : Nat} (v : BitVec w) (hi lo n : Nat) : BitVec w :=
  BitVec.ofNat w (v.toNat / 2 ^ (hi + 1) * 2 ^ (hi + 1) + n % 2 ^ (hi + 1 - lo) * 2 ^ lo + v.toNat % 2 ^ lo)

/-! ### The work record of a team (R73, R74) -/

def recShape (r : BitVec 256) : DWord := r.extractLsb' 64 64
def Team.shape (t : Team) : DWord := recShape t.record
def shG (v : DWord) : Nat := fld v 4 0
def shP (v : DWord) : Nat := fld v 10 5
def shRP (v : DWord) : Nat := fld v 15 11
def shRC (v : DWord) : Nat := fld v 22 16
def shSCR (v : DWord) : Nat := fld v 31 23
def shCQ (v : DWord) : Nat := fld v 38 32
def shPREF (v : DWord) : Nat := fld v 40 39
def shFALL (v : DWord) : Nat := fld v 42 41
def shCORES (v : DWord) : Bool := fbit v 43
def shEDL (v : DWord) : Bool := fbit v 44
def shMX (v : DWord) : Bool := fbit v 45
def recTeams (r : BitVec 256) : Nat := fld r 151 128
def recCSlot (r : BitVec 256) : Nat := fld r 179 168
def recCode (r : BitVec 256) : Nat := fld r 31 0

/-- A group's register budget (R88). -/
def Team.budget (t : Team) (grp : Nat) : Nat := if grp < shP t.shape then shRP t.shape * 8 else shRC t.shape * 8
/-- The scratchpad allocation in bytes (R162). -/
def Team.alloc (t : Team) : Nat := shSCR t.shape * 1024

/-! ### Lanes and registers -/

def allOnes : Lanes := 0xFFFFFFFF
def laneList (m : Lanes) : List Nat := (List.range 32).filter fun l => m.getLsbD l
def lane1 (l : Nat) : Lanes := BitVec.ofNat 32 (2 ^ l)
def lanesOf (ls : List Nat) : Lanes := ls.foldl (fun m l => m ||| lane1 l) 0
def popcount (m : Lanes) : Nat := (laneList m).length

/-- Whether a vector register belongs to the open region's working set (R102). -/
def Group.inWs (g : Group) (n : Nat) : Bool :=
  match g.slot with
  | some sl => match sl.ws with
    | .some vb n1 _ => decide (vb.toNat ≤ n ∧ n ≤ vb.toNat + n1.toNat)
    | .none => false
  | none => false

/-- One lane of a vector register: in the fast operand buffer inside the working set, else in the main file. -/
def Group.rdV (g : Group) (n l : Nat) : Word :=
  if g.inWs n then tget 0 g.fast (32 * n + l) else tget 0 g.v (32 * n + l)
def Group.wrV (g : Group) (n l : Nat) (w : Word) : Group :=
  if g.inWs n then { g with fast := tset 0 g.fast (32 * n + l) w } else { g with v := tset 0 g.v (32 * n + l) w }

/-- `k` consecutive registers of one lane as a value, the first lowest (R36, R111). -/
def Group.rdN (g : Group) (n l : Nat) : Nat → Nat
  | 0 => 0
  | k + 1 => (g.rdV n l).toNat + 2 ^ 32 * g.rdN (n + 1) l k
def Group.wrN (g : Group) (n l : Nat) (v : Nat) : Nat → Group
  | 0 => g
  | k + 1 => (g.wrV n l (BitVec.ofNat 32 v)).wrN (n + 1) l (v / 2 ^ 32) k

def Group.rdS (g : Group) (n : Nat) : DWord := tget 0 g.s n
def Group.wrS (g : Group) (n : Nat) (v : DWord) : Group := { g with s := tset 0 g.s n v }
/-- p7 reads true (R55). -/
def Group.rdP (g : Group) (n : Nat) : Lanes := if n = 7 then allOnes else tget 0 g.p n
def Group.wrP (g : Group) (n : Nat) (v : Lanes) : Group := if n = 7 then g else { g with p := tset 0 g.p n v }
/-- Write a predicate on the lanes of `m` only. -/
def Group.wrPOn (g : Group) (n : Nat) (m v : Lanes) : Group := g.wrP n ((g.rdP n &&& ~~~m) ||| (v &&& m))
def Group.rdX (g : Group) (n l : Nat) : Word := tget 0 g.x (32 * n + l)
/-- Bits [31:30] of an index register are ignored (R107). -/
def Group.wrX (g : Group) (n l : Nat) (w : Word) : Group := { g with x := tset 0 g.x (32 * n + l) (w &&& 0x3FFFFFFF) }
def Group.rdC (g : Group) (n l : Nat) : Cursor := tget Cursor.closed g.c (32 * n + l)
def Group.wrC (g : Group) (n l : Nat) (c : Cursor) : Group := { g with c := tset Cursor.closed g.c (32 * n + l) c }
def Group.orNF (g : Group) (w : Word) : Group := { g with nf := g.nf ||| w }

/-- The value of the guard in every lane (R57). -/
def Group.guardLanes (g : Group) (p : BitVec 3) (neg : Bool) : Lanes :=
  if neg then ~~~(g.rdP p.toNat) else g.rdP p.toNat

def parkLanes (ps : List Park) : Lanes := ps.foldl (fun m p => m ||| lanesOf (p.faults.map Prod.fst)) 0
def runsLanes (rs : List LaneTurn) : Lanes := rs.foldl (fun m r => m ||| r.run) 0

/-- The run mask (R98, R296, R299): in trap mode the pending set; else the lanes that have not exited, are not parked,
and neither wait at a head nor for their turn in a catch-up run. -/
def Group.run (g : Group) : Lanes :=
  match g.trap with
  | some t => t.pending
  | none =>
    let held := match g.catchUp with | none => 0 | some c => c.held ||| runsLanes c.resume
    ~~~(g.exited ||| parkLanes g.parks ||| held)

/-- The lanes on which a fault of the whole group falls (R98). -/
def Group.faultLanes (g : Group) : Lanes := if g.em = 0 then g.run else g.em

/-- The lanes whose faults wait until the operation that met them is over (R168; DEDUCED, log 18). -/
def Group.owed (g : Group) : Lanes := g.pend.foldl (fun m o => m ||| lanesOf (o.faults.map Prod.fst)) 0
/-- Whether such faults are there: the group then neither issues nor serves its parks. -/
def Group.owes (g : Group) : Bool := g.pend.any fun o => !o.faults.isEmpty

/-- The lanes on which a fault of the whole instruction falls: where it issues again, the noted ones (R295) that have no
fault of their own. -/
def Group.issueLanes (g : Group) : Lanes :=
  match g.redo with
  | some d => g.faultLanes &&& d.noted &&& ~~~g.owed
  | none => g.faultLanes

def Group.ended (g : Group) : Bool := g.exited == allOnes

/-! ### Path counters (R156) -/

/-- A path's counter: the operations from the oldest unfinished one on. -/
def Group.count (g : Group) (p : Path) : Nat := ((g.pend.filter fun o => o.path = p).dropWhile Pend.fin).length

/-- Remove the finished operations with no unfinished older one on their path; one of lanes that have exited stays until
what it has still to perform has performed (R83), and one whose faults have still to park until they have. -/
def settleOps : List Path → List Pend → List Pend
  | _, [] => []
  | blocked, o :: r =>
    if o.fin && o.lanes.isEmpty && o.faults.isEmpty && !blocked.contains o.path then settleOps blocked r
    else o :: settleOps (if o.fin then blocked else o.path :: blocked) r
def Group.settle (g : Group) : Group := { g with pend := settleOps [] g.pend }
def Group.addPend (g : Group) (o : Pend) : Group :=
  { g with pend := g.pend ++ [{ o with id := g.nextOp }], nextOp := g.nextOp + 1 }
def Group.findOp (g : Group) (id : Nat) : Option Pend := g.pend.find? fun o => o.id = id
def Group.setOp (g : Group) (o : Pend) : Group := { g with pend := g.pend.map fun q => if q.id = o.id then o else q }
/-- Whether an operation consists of lane accesses, each of which finishes for itself (R157). -/
def PKind.perLane : PKind → Bool
  | .engine _ | .mx | .gsig _ _ | .grd _ _ | .gtry _ _ _ => false
  | _ => true

/-- Whether the lanes that an operation has left have all exited (R157). -/
def Pend.over (o : Pend) (exited : Lanes) : Bool :=
  if o.kind.perLane then o.lanes.all fun q => exited.getLsbD q.lane else o.lanes.isEmpty

/-- Replace an operation's lanes; once those left have exited it is finished, and the counter is lowered in issue
order. -/
def Group.opLanes (g : Group) (o : Pend) (ls : List LaneReq) : Group :=
  (g.setOp { o with lanes := ls, fin := { o with lanes := ls }.over g.exited }).settle

/-! ### Reports (R329) -/

/-- A report's header; TIME is written at the push. -/
def reportHdr (type nrec code src : Nat) (pos : Nat) (spool slot item : Nat) (addr : DWord) : BitVec 256 :=
  (0 : DWord) ++ addr ++ BitVec.ofNat 32 item ++ (0 : BitVec 16) ++ BitVec.ofNat 12 slot ++ BitVec.ofNat 4 spool ++
    BitVec.ofNat 32 pos ++ BitVec.ofNat 8 src ++ BitVec.ofNat 8 code ++ (0 : BitVec 6) ++ BitVec.ofNat 2 nrec ++
    BitVec.ofNat 6 type ++ (3 : BitVec 2)

def State.report (s : State) (part : Nat) (recs : List (BitVec 256)) : State :=
  let p := s.partn part
  s.setPartn part { p with reports := p.reports ++ [{ recs := recs }] }

/-- The tie of a report to no grid or command, and to a team's grid. -/
def noTie (part : Nat) : ErrTie := { part := part, spool := 0, pos := 0xFFFFFFFF, slot := 0 }
def teamTie (t : Team) : ErrTie := { part := t.part, spool := t.spool, pos := t.pos, slot := 0 }

/-- A report tied to a team's grid. -/
def State.teamReport (s : State) (t : Team) (type code src slot item : Nat) (addr : DWord)
    (recs : List (BitVec 256)) : State :=
  s.report t.part (reportHdr type recs.length code src t.pos t.spool slot item addr :: recs)

/-! ### Faults and parks (R292 to R296) -/

def mkFault (cause detail : Nat) (addr : DWord) (aux : Word) : LaneFault :=
  { cause := BitVec.ofNat 8 cause, detail := BitVec.ofNat 16 detail, addr := addr, aux := aux, slot := 0 }

/-- The translation fault (R311): 0 load, 1 store, 2 fetch, 3 atomic. -/
def missFault (acc va slot : Nat) : LaneFault := { mkFault 0x11 acc (BitVec.ofNat 64 va) 0 with slot := slot }

/-- AUX: a slot in [27:16] and an offset or register number in [15:0]. -/
def mkAux (slot off : Nat) : Word := BitVec.ofNat 32 (slot * 65536 + off % 65536)

def minCause : List (Nat × LaneFault) → Nat
  | [] => 255
  | (_, f) :: r => min f.cause.toNat (minCause r)

/-- The fault of a park's record: that of the lowest-numbered lane with the lowest cause (R294). -/
def Park.lead (p : Park) : LaneFault :=
  match p.faults.find? fun x => x.2.cause.toNat = minCause p.faults with
  | some x => x.2
  | none => mkFault (minCause p.faults) 0 0 0

/-- The fault record of a park (R292). -/
def Park.record (p : Park) : BitVec 256 :=
  let f := p.lead
  f.addr ++ f.aux ++ lanesOf (p.faults.map Prod.fst) ++ p.pc ++ p.next ++ p.insn ++ f.detail ++ (0 : BitVec 6) ++
    BitVec.ofBool p.async ++ BitVec.ofBool p.rpl ++ BitVec.ofNat 8 (minCause p.faults)

def trapEN (p : Partition) : Bool := fbit p.trapcfg 32
def trapHOFF (p : Partition) : Word := p.trapcfg.setWidth 32
def trapSUP (p : Partition) : Nat := fld p.trapcfg 39 36

/-- A halted group (R302): it issues nothing more, and a report of type 3 holds the records. -/
def State.halt (s : State) (r : GRef) (t : Team) (g : Group) (recs : List (BitVec 256)) : State :=
  (s.putGroup r { g with halted := true }).teamReport t 3 0 6 0 0 0 recs

/-- A group waits at no gate any more: a grant that it holds lapses with the place of its signal, and a GWAIT issues again
(R286, R288, R305). -/
def State.leaveGates (s : State) (r : GRef) : State :=
  let keep := fun (g : Gate) => { g with
    waiters := g.waiters.filter fun w => w.1 != .asked r
    held := g.held.filter fun h => h.who != .asked r }
  { s with gates := s.gates.foldl (fun gs e => tset Gate.reset gs e.1 (keep (tget Gate.reset gs e.1))) s.gates }

/-- Taking the exception of a park (R299): the frame is kept, the record goes to st0 to st3 and the trap registers,
each lane's own detail to vt0 to vt2, and the pending lanes run from the handler's entry. -/
def Group.enterTrap (g : Group) (hoff : Word) (p : Park) : Group :=
  let rec0 := p.record
  let ls := p.faults.map Prod.fst
  let g := { g with
    trapPC := p.pc
    trapCause := (rec0.setWidth 16 : BitVec 16).setWidth 32
    trapInfo := (rec0.extractLsb' 16 16).setWidth 32
    trapAddr := rec0.extractLsb' 192 64
    trap := some { em := g.em, p := g.p, pending := lanesOf ls, park := p, resume := [], skipped := [] }
    em := lanesOf ls
    pc := hoff
    redo := none
    wait := .none
    grant := none }
  let g := (((g.wrS 1016 (rec0.setWidth 64)).wrS 1017 (rec0.extractLsb' 64 64)).wrS 1018
    (rec0.extractLsb' 128 64)).wrS 1019 (rec0.extractLsb' 192 64)
  p.faults.foldl (fun g x =>
    ((g.wrV 1008 x.1 (x.2.addr.setWidth 32)).wrV 1009 x.1 (x.2.addr.extractLsb' 32 32)).wrV 1010 x.1
      (x.2.detail ++ (0 : BitVec 8) ++ x.2.cause)) g

/-- Serve a non-replayable park that a slot holds or that found none: the handler, or a halt while EN = 0 (R297). -/
def State.takeTrap (s : State) (r : GRef) (t : Team) (g : Group) (p : Park) : State :=
  let pt := s.partn t.part
  let s := s.leaveGates r
  if trapEN pt then s.putGroup r (g.enterTrap (trapHOFF pt) p) else s.halt r t g [p.record]

/-- The four park slots (R295). -/
def parkSlots : Nat := 4

/-- A new non-replayable park (R295): a slot if one is free; else the lanes enter the handler at once and the others
wait at the group's next instruction for the lanes that the handler returns, which join them there: no head, so no park slot
is served there (R296). `again` are the lanes
of the same issue that a replayable park takes: with no slot free they wait for neither. -/
def State.parkNow (s : State) (r : GRef) (t : Team) (g : Group) (p : Park) (again : Lanes) : State :=
  let ls := lanesOf (p.faults.map Prod.fst)
  let others := g.em &&& ~~~ls
  if g.parks.length < parkSlots then s.putGroup r { g with em := others, parks := g.parks ++ [p] }
  else
    let rest := g.run &&& ~~~ls &&& ~~~again
    let cu : CatchUp := match g.catchUp with
      | none => { head := some g.pc, point := true, waitEM := others &&& ~~~again, held := rest, resume := [] }
      | some c =>
        if rest = 0 then c else { c with resume := ⟨rest, others &&& ~~~again, g.pc⟩ :: c.resume }
    s.takeTrap r t { g with em := others, atHead := false, catchUp := some cu } p

/-- A new replayable park (R295, R311): a slot, or the whole group parks at the instruction, keeping its EM and noting
the unfinished lanes. A copy of the record goes to the supervisor spool. Where lanes of the same issue have just entered
the handler for want of a slot, the handler runs first, and the group is parked for the noted lanes when it has ended
(DESIGN CHOICE, log 48). -/
def State.parkReplay (s : State) (r : GRef) (t : Team) (g : Group) (p : Park) : State :=
  let ls := lanesOf (p.faults.map Prod.fst)
  let s := s.teamReport t 6 0 6 p.lead.slot 0 p.lead.addr [p.record]
  if g.trap.isSome || g.halted then
    s.putGroup r { g with whole := some { em := ls, noted := ls, park := p, resolved := false } }
  else if g.parks.length < parkSlots then s.putGroup r { g with em := g.em &&& ~~~ls, parks := g.parks ++ [p] }
  else s.putGroup r { g with pc := p.pc, whole := some { em := g.em, noted := ls, park := p, resolved := false } }

/-- The parks of one issue (R294): one for each class; `op` is the operation that other lanes of the issue have under
way. In trap mode any fault is a double fault (R302). -/
def State.takeFaults (s : State) (r : GRef) (t : Team) (g : Group) (pc next insn : Word) (op : Option Nat)
    (nf rf : List (Nat × LaneFault)) : State :=
  let mk := fun (rpl : Bool) (fs : List (Nat × LaneFault)) =>
    ({ rpl := rpl, async := false, pc := pc, next := next, insn := insn, faults := fs, resolved := false,
       op := op } : Park)
  if nf.isEmpty && rf.isEmpty then s.putGroup r g
  else match g.trap with
    | some ts => s.halt r t g [ts.park.record, (mk nf.isEmpty (if nf.isEmpty then rf else nf)).record]
    | none =>
      let s1 := if nf.isEmpty then s.putGroup r g else s.parkNow r t g (mk false nf) (lanesOf (rf.map Prod.fst))
      if rf.isEmpty then s1
      else match s1.group r with
        | none => s1
        | some (t, g) => s1.parkReplay r t g (mk true rf)

/-- Whether a group can stop by region restart (R105, R304). -/
def Group.restartable (g : Group) : Bool :=
  g.trap.isNone && g.whole.isNone && !g.halted && !g.ended && (match g.slot with | some sl => sl.rs | none => false)

/-- The same fault on every lane of a mask. -/
def onLanes (m : Lanes) (f : LaneFault) : List (Nat × LaneFault) := (laneList m).map fun l => (l, f)

/-! ### Ending lanes (R83) -/

/-- Lanes exit: they count as triggered and leave EM, and an operation left with exited lanes alone has finished
(R157). -/
def Group.exitLanes (g : Group) (m : Lanes) : Group :=
  { g with exited := g.exited ||| m, triggered := g.triggered ||| m, em := g.em &&& ~~~m,
           pend := settleOps [] (g.pend.map fun o =>
             { o with fin := o.fin || (o.kind.perLane && o.over (g.exited ||| m)) }) }

/-- The lowest-numbered group of a team that has not ended. -/
def Team.firstLive (t : Team) : Option Nat := (List.range t.groups.length).find? fun n =>
  match t.groups[n]? with | some g => !g.ended | none => false

/-- MXGRP passes on while the stream may still need a group (R227). -/
def Team.passMx (t : Team) (n : Nat) : Team :=
  match t.arr with
  | none => t
  | some a =>
    if a.mxgrp = n ∧ (a.st = 1 ∨ a.st = 2 ∨ a.st = 4) then
      match t.firstLive with
      | some k => { t with arr := some { a with mxgrp := k } }
      | none => t
    else t

/-- A group that ends holds no token (R96). -/
def Team.dropToken (t : Team) (n : Nat) : Team := if t.token = some n then { t with token := none } else t

/-- The stream of a team whose last group has ended is abandoned where it waits at a TWB, or where a stop waits for a group
to take it: it takes STATE 4 and keeps its TSUB (R83). -/
def Team.abandonStream (t : Team) : Team :=
  match t.arr with
  | some a =>
    if t.firstLive.isNone && (a.st == 2 || !a.stops.isEmpty) then
      { t with abandon := true, arr := some { a with st := 4, bn := 0, ph := false, stops := [] } }
    else t
  | none => t

/-- What follows when a group has ended. -/
def Team.afterEnd (t : Team) (n : Nat) : Team :=
  match t.groups[n]? with
  | none => t
  | some g => if g.ended then ((t.dropToken n).passMx n).abandonStream else t

def State.afterEnd (s : State) (r : GRef) : State :=
  match s.team r.team with
  | none => s
  | some t => s.setTeam r.team (some (t.afterEnd r.grp))

/-! ### Serving parks (R296) -/

/-- Whether lanes of the issue of a park are still under way: any that fault belong to the same park (R294). -/
def Park.open (p : Park) (g : Group) : Bool := g.pend.any fun o => decide (p.op = some o.id) && !o.fin

/-- What the group does next once its run mask is empty or it waits at a head: the next lanes that a handler returned,
the oldest park, or, with none left, it stands at the head with the waiting lanes joined. Where the others only wait for the
lanes of a handler that found no slot, these join them and no park is served (R295). -/
def State.serveNext (s : State) (r : GRef) (t : Team) (g : Group) (c : CatchUp) : State :=
  let g := { g with grant := none, wait := .none }
  let idle := s
  let s := s.leaveGates r
  match c.resume with
  | q :: rest =>
    s.putGroup r { g with em := q.em, pc := q.pc, atHead := false, catchUp := some { c with resume := rest } }
  | [] => match if c.point then [] else g.parks with
    | p :: rest =>
      if p.rpl then
        if p.resolved then
          s.putGroup r { g with em := lanesOf (p.faults.map Prod.fst), pc := p.pc, parks := rest, atHead := false,
                                catchUp := some c }
        else idle
      else if p.open g then idle
      else idle.takeTrap r t { g with parks := rest, atHead := false, catchUp := some c } p
    | [] => match c.head with
      | some h => s.putGroup r { g with em := c.waitEM, pc := h, atHead := false, catchUp := none }
      | none => s.putGroup r { g with atHead := false, catchUp := none }

/-- Whether the lanes of a catch-up run stand where the others wait. -/
def Group.arrived (g : Group) : Bool :=
  match g.catchUp with
  | some c => c.head == some g.pc && g.run != 0 && g.trap.isNone
  | none => false

/-- Whether the group has parks to serve: at a convergence head, at the waiting point, or with its run mask empty. -/
def Group.serves (g : Group) : Bool :=
  !g.halted && g.trap.isNone && g.whole.isNone && g.stop != .stopped && !g.owes &&
    (g.atHead || g.arrived || (g.run == 0 && !(g.parks.isEmpty && g.catchUp.isNone)))

/-- Serve the park slots (R296). -/
def State.serve (s : State) (r : GRef) : State :=
  match s.group r with
  | none => s
  | some (t, g) =>
    if !g.serves then s
    else
      let c0 : CatchUp := match g.catchUp with
        | some c => c
        | none => { head := none, point := false, waitEM := 0, held := 0, resume := [] }
      if g.arrived then
        s.serveNext r t { g with em := 0 } { c0 with waitEM := c0.waitEM ||| g.em, held := c0.held ||| g.run }
      else if g.atHead then
        s.serveNext r t { g with em := 0 } { c0 with head := some g.pc, waitEM := g.em, held := c0.held ||| g.run }
      else s.serveNext r t g c0

/-! ### Operand checks at issue (R88, R109) -/

/-- The x register, the computed register and whether it is in bounds (R109). -/
def Group.idxReg (g : Group) (x : BitVec 3) (off : BitVec 10) (l : Nat) : Nat × Bool :=
  let xr := g.rdX x.toNat l
  let i := fld xr 9 0 + off.toNat
  let reg := fld xr 29 20 + i
  (reg, decide (i < fld xr 19 10 ∧ reg < 640))

/-- The vector register of an operand in one lane. -/
def Group.reg (g : Group) (o : VOp) (l : Nat) : Nat :=
  match o with
  | .reg n => n.toNat
  | .idx x off => (g.idxReg x off l).1

/-- The register-budget fault of an operand in one lane (R88). -/
def Group.budgetFault (g : Group) (budget l : Nat) (u : Use) : Option LaneFault :=
  if u.cls ≠ .v then none
  else match u.op with
    | .reg n =>
      let i := n.toNat
      if i < 640 ∧ budget < i + u.cnt then some (mkFault 2 (max i budget) 0 0) else none
    | .idx x off =>
      let r := g.idxReg x off l
      if r.2 && decide (budget ≤ r.1) then some (mkFault 2 r.1 0 0) else none

/-- The index-bounds fault of an operand in one lane (R109). -/
def Group.indexFault (g : Group) (l : Nat) (u : Use) : Option LaneFault :=
  match u.op with
  | .reg _ => none
  | .idx x off =>
    let r := g.idxReg x off l
    if r.2 then none else some (mkFault 3 r.1 0 (BitVec.ofNat 32 x.toNat))

/-- The first register fault of a lane: the lowest cause, operands in order. -/
def Group.regFault (g : Group) (budget l : Nat) (us : List Use) : Option LaneFault :=
  match us.findSome? (g.budgetFault budget l) with
  | some f => some f
  | none => us.findSome? (g.indexFault l)

/-! ### Tables as the core sees them (R38, R39) -/

def tKind (t : Table) : Nat := fld t.record 3 0
def tKType (t : Table) : Nat := fld t.record 7 4
def tWidth (t : Table) : Nat := (fld t.record 27 16 + 1) * 16
def tCap (t : Table) : Nat := fld t.record 111 64
def tHome (t : Table) : Nat := fld t.record 54 52
def tRowCount (t : Table) : Nat := fld t.record 255 192
def tHeap (t : Table) : Nat := fld t.record 319 256
def tIndexVa (t : Table) : Nat := fld t.record 383 320
def tPaged (t : Table) : Bool := fbit t.record 392
def tRead (t : Table) : Bool := fbit t.record 384
def tWrite (t : Table) : Bool := fbit t.record 385
def tInsert (t : Table) : Bool := fbit t.record 386
def tDelete (t : Table) : Bool := fbit t.record 387
def tNear (t : Table) : Bool := fbit t.record 388
def tCopy (t : Table) : Bool := fbit t.record 389
def tSeed (t : Table) : BitVec 16 := t.record.extractLsb' 400 16

/-- The width in bits of a key type, and whether it is signed (R36). -/
def ktBits (k : Nat) : Nat := if k ≤ 1 then 32 else if k ≤ 3 then 64 else 128
def ktSigned (k : Nat) : Bool := k == 0 || k == 2
def ktRegs (k : Nat) : Nat := ktBits k / 32

/-- Reverse the 16 bytes of a K128 key: its order is lexicographic from byte 0. -/
def revBytes : Nat → Nat → Nat → Nat
  | 0, _, acc => acc
  | n + 1, v, acc => revBytes n (v / 256) (acc * 256 + v % 256)

/-- A register value as a key: an integer in the key type's order (R36). -/
def keyOfNat (kt v : Nat) : Int :=
  let b := ktBits kt
  let n := v % 2 ^ b
  if kt = 4 then (revBytes 16 n 0 : Nat)
  else if ktSigned kt ∧ 2 ^ (b - 1) ≤ n then (n : Int) - 2 ^ b else n
/-- The register value of a key. -/
def keyToNat (kt : Nat) (k : Int) : Nat :=
  if kt = 4 then revBytes 16 k.toNat 0 else (k % (2 ^ ktBits kt : Int)).toNat

/-- LO of a dense table as a key. -/
def tLo (t : Table) : Int := keyOfNat (tKType t) (fld t.record 191 128)

/-- The generation of a row slot (R43). -/
def tGen (t : Table) (slot : Nat) : BitVec 16 := tget (tSeed t) t.gens slot

/-- The bound table that a handle names (R38). -/
def State.handle (s : State) (part : Nat) (h : DWord) : Option (Nat × Table) :=
  if h.toNat < 4096 then
    match s.table part h.toNat with
    | some t => some (h.toNat, t)
    | none => none
  else none

/-- The table handle register of an instruction and its key operands. -/
def Instr.keys : Instr → Option (BitVec 10 × List KeyOp)
  | .dld _ o | .dst _ o => some (o.tab, [o.key])
  | .fetch _ o => match o.key with
    | .vec (.reg n) => some (o.tab, [.vec n])
    | .vec (.idx _ _) => none
    | .sca n => some (o.tab, [.sca n])
  | .tlk _ o | .tins _ o | .tups _ o | .tdel _ o => some (o.tab, [o.key])
  | .tseek _ o | .tcnt _ o | .tdrop _ o => some (o.tab, [o.lo, o.hi])
  | .datom _ _ tab key => some (tab, [.vec key])
  | _ => none

/-- The registers of a key operand, once the table's key type is known (R36). -/
def keyUse (kt : Nat) : KeyOp → Use
  | .vec n => ⟨.v, .reg n, ktRegs kt, ktRegs kt, false⟩
  | .sca n => if kt = 4 then ⟨.s, .reg n, 2, 2, false⟩ else ⟨.s, .reg n, 1, 1, false⟩

/-- The key registers of an instruction whose handle names a bound table. -/
def State.keyUses (s : State) (t : Team) (g : Group) (i : Instr) : List Use :=
  match Instr.keys i with
  | none => []
  | some (tab, ks) => match s.handle t.part (g.rdS tab.toNat) with
    | none => []
    | some (_, tb) => ks.map (keyUse (tKType tb))

/-- Whether an operand names a register of trap mode (R55, R298). -/
def Use.isTrap (u : Use) : Bool :=
  match u.op with
  | .idx _ _ => false
  | .reg n => (u.cls == .v && decide (1008 ≤ n.toNat)) || (u.cls == .s && decide (1016 ≤ n.toNat))

/-- The illegal-instruction subcodes that depend on the group's state: a matrix instruction without the array (R225),
BARG outside a co-resident launch (R271), trap-mode registers outside trap mode (R55, R141), key alignment (R36). -/
def State.dynSubs (s : State) (t : Team) (g : Group) (i : Instr) : List Nat :=
  let noMx := !shMX t.shape
  let other := fun (c : Option (BitVec 3)) => c.isSome && g.trap.isSome
  let m := match i with
    | .mxstart _ _ _ | .mxstat _ | .mxrd _ _ _ _ _ | .mxwr _ _ _ _ _ => noMx
    | .mxdrain _ c _ | .mxrest _ c _ => noMx && !other c
    | .barg _ _ => !shCORES t.shape
    | _ => false
  let sr := match i with
    | .mtsr _ n _ => decide (13 ≤ n.toNat) && g.trap.isNone
    | _ => false
  let ku := s.keyUses t g i
  err m 4 ++ err (sr || (g.trap.isNone && (i.uses ++ ku).any Use.isTrap)) 8 ++ err (ku.any fun u => !u.legal) 8 ++
    err (ku.any fun u => !u.aligned) 9

/-! ### The frame of a group instruction -/

/-- One issue of one instruction: the group as the instruction changes it, the lanes that take part, the faults. -/
structure Iss where
  r   : GRef
  t   : Team
  g   : Group
  i   : Instr
  act : Lanes
  nf  : List (Nat × LaneFault)
  rf  : List (Nat × LaneFault)

/-- The instructions whose effect may not be repeated (R105). -/
def Instr.noRepeat : Instr → Bool
  | .atoms _ _ _ | .tatom _ _ _ | .datom _ _ _ _ | .tins _ _ | .tups _ _ | .tdel _ _ | .tdrop _ _
  | .cpy _ _ _ _ _ _ _ | .gath _ _ _ _ _ _ _ _ | .nmc _ _ _ _ | .coll _ _ _ _ | .cpyqf _ _ _ | .mxstart _ _ _
  | .barinit _ _ _ _ | .bararr _ _ _ | .barg _ _ | .gsig _ _ _ | .spawn _ _ _ _ | .ltrig _ => true
  | _ => false

/-- Whether the instruction writes a vector register outside the working set in some lane that takes part (R105). -/
def Iss.writesOut (x : Iss) : Bool :=
  (Instr.uses x.i).any fun u => u.cls == .v && u.dst &&
    (laneList x.act).any fun l =>
      let n := x.g.reg u.op l
      (List.range u.cnt).any fun k => !x.g.inWs (n + k) && decide (n + k < 640)

/-- Clear the restartable bit where R105 says so. -/
def Iss.clearRs (x : Iss) : Group :=
  match x.g.slot with
  | some sl =>
    if sl.rs && (Instr.noRepeat x.i || x.writesOut) then { x.g with slot := some { sl with rs := false } } else x.g
  | none => x.g

/-- The operation that this issue has put into a path queue and that has lanes left. -/
def Iss.opId (x : Iss) : Option Nat :=
  match x.t.groups[x.r.grp]? with
  | some g0 =>
    if g0.nextOp < x.g.nextOp && (x.g.pend.any fun o => decide (o.id + 1 = x.g.nextOp) && !o.lanes.isEmpty)
    then some (x.g.nextOp - 1) else none
  | none => none

def Iss.next (x : Iss) : Word := x.g.pc + BitVec.ofNat 32 (Instr.len x.i).bytes

/-- The group once the instruction has issued: a replay for noted lanes is over, EM being what the group kept (R295), and
the program counter moves to `pc`. -/
def Iss.issued (x : Iss) (pc : Word) : Group :=
  { x.clearRs with pc := pc, redo := none, starve := 0, wait := .none, grant := none }

/-- The instruction has issued: the faults of the issue are taken. -/
def Iss.finishAt (x : Iss) (s : State) (pc : Word) : State :=
  ((s.setTeam x.r.team (some x.t)).takeFaults x.r x.t (x.issued pc) x.g.pc x.next x.g.insn x.opId x.nf x.rf).afterEnd x.r

def Iss.finish (x : Iss) (s : State) : State := x.finishAt s x.next

/-- A fault of the whole instruction on the lanes that take part: nothing else happens. -/
def Iss.fail (x : Iss) (s : State) (f : LaneFault) : State :=
  Iss.finish { x with nf := x.nf ++ onLanes x.act f, act := 0 } s

/-- A fault of the whole instruction on given lanes. -/
def Iss.failOn (x : Iss) (s : State) (m : Lanes) (f : LaneFault) : State :=
  Iss.finish { x with nf := onLanes m f, act := 0 } s

/-- A fault on one lane, which then takes no further part. -/
def Iss.fault (x : Iss) (l : Nat) (f : LaneFault) : Iss :=
  { x with nf := x.nf ++ [(l, f)], act := x.act &&& ~~~lane1 l }
def Iss.replay (x : Iss) (l : Nat) (f : LaneFault) : Iss :=
  { x with rf := x.rf ++ [(l, f)], act := x.act &&& ~~~lane1 l }

/-- Where a group goes on whose fetch is no instruction: `next`, or behind the instruction that issues again (R295), unless
its own fetch missed and the park could not tell where that is. -/
def Group.goesTo (g : Group) (next : Word) : Word :=
  match g.redo with
  | some d => if d.next = g.pc then next else d.next
  | none => next

/-- The illegal-instruction trap (R65, R66): on the lanes of EM, or of the run mask. -/
def State.illegal (s : State) (r : GRef) (t : Team) (g : Group) (sub : Nat) (len : Len) : State :=
  let next := g.pc + BitVec.ofNat 32 len.bytes
  s.takeFaults r t { g with pc := g.goesTo next, starve := 0, redo := none } g.pc next g.insn none
    (onLanes g.issueLanes (mkFault 1 sub 0 0)) []

/-- The lanes for which the instruction issues: EM and guard (R57); in a replay only the noted ones that have no fault of
their own (R295). -/
def Group.takingPart (g : Group) (i : Instr) : Lanes :=
  let m := g.em &&& g.guardLanes i.guard.1 i.guard.2
  match g.redo with
  | some d => m &&& d.noted &&& ~~~g.owed
  | none => m

/-- The lanes that take part and meet no register fault, with the faults of the others. -/
def startIss (s : State) (r : GRef) (t : Team) (g : Group) (i : Instr) : Iss :=
  let us := i.uses ++ s.keyUses t g i
  let b := t.budget r.grp
  (laneList (g.takingPart i)).foldl
    (fun x l => match g.regFault b l us with
      | some f => x.fault l f
      | none => x)
    { r := r, t := t, g := g, i := i, act := g.takingPart i, nf := [], rf := [] }

/-- The group that `State.cur` names. -/
def State.curGroup (s : State) : Option (GRef × Team × Group) :=
  match s.cur with
  | none => none
  | some r => match s.group r with
    | none => none
    | some (t, g) => some (r, t, g)

/-- Execute a group instruction: the checks that need the group's state, then the instruction's own effect. -/
def onGroup (i : Instr) (s : State) (k : State → Iss → State) : Host.Outcome State Fault Refusal :=
  match s.curGroup with
  | none => .fault .noAgent
  | some (r, t, g) =>
    match least (s.dynSubs t g i) with
    | some n => .next (s.illegal r t g n i.len)
    | none => .next (k s (startIss s r t g i))

/-- A lane instruction: it changes the group's registers and flags only (R127). -/
def onLanesOp (i : Instr) (s : State) (k : Iss → Group) : Host.Outcome State Fault Refusal :=
  onGroup i s fun s x => Iss.finish { x with g := k x } s

/-- Scope clamp of a guest (R248): the scope, and whether SF.CLAMP is set. -/
def clampScope (p : Partition) (sc : Scope) : Scope × Bool :=
  if fbit p.pcfg 1 then (sc, false)
  else match sc with
    | .dev | .sys => (.part, true)
    | o => (o, false)

/-- SF bits (R163). -/
def sfSPOOR : DWord := 1
def sfSPMULTI : DWord := 2
def sfCLAMP : DWord := 4

end Sys2Proof.Machine
end

