-- ==== Sys2Proof/Config.lean ====
section
/-! DEFINITION. What one L7 fixes and the manual leaves open: free values, which have no body, and the figures of R2. -/

namespace Sys2Proof.Config

/-- A special function's result for an operand, where R144 gives only a bound on its error (log 7). The codes are
those of the opcodes 0x38 to 0x3F. The result that a lane writes is held to the bound. -/
opaque sfn (op : Nat) (x : Word) : Word

/-- The half of an odd difference S - rowsq - COLSQ (R220), which only a restored image can make odd (log 11). -/
opaque oddHalf (n : Int) : Int

/-- The signature of the attestation key over a message (R345, log 8). -/
opaque attestationSign (message : List Byte) : BitVec 512

/-- The public-key hash and the least security version that the fuses hold (R344, log 8). -/
opaque fuseKeyHash : BitVec 256
opaque fuseMinVersion : Nat

/-- The security version and body digest of the image that the module's flash holds at first (R344, log 8). -/
opaque factoryVersion : DWord
opaque factoryDigest : BitVec 256

/-- The fuse summary, and the certificate of the attestation key, which each boot derives from the digest of its firmware
(R345, log 8). -/
opaque fuseSummary : List Byte
opaque attestationCert (firmware : BitVec 256) : List (BitVec 64)

/-- The Skein ports that train at a boot (R341, log 14). -/
opaque trainedPorts : BitVec 20

/-- The record with which a refused peer store is logged (R339), and the one with which the hub reports that host memory
runs low (R316): the manual gives neither a type (log 13). -/
opaque refusedStoreRecord (srcDev srcPart off : Nat) : BitVec 256
opaque hostTierRecord : BitVec 256

/-- Cores of a logical cluster, logical clusters, cores (R1, R89). -/
def coresPerCluster : Nat := 8
def clusters : Nat := 32
def cores : Nat := 256

/-- The capacities of HBM and of the LPDDR tier in bytes, and the number of gates (R2). -/
def hbmBytes : Nat := 512 * 2 ^ 30
def lpddrBytes : Nat := 2 ^ 40
def gates : Nat := 65536
/-- The devices that Skein numbers (R2, R341). -/
def devices : Nat := 640

end Sys2Proof.Config
end

