-- ==== Sys2Proof/Machine/Float.lean ====
section
/-! DEFINITION. The floating-point formats, rounding, overflow and exact arithmetic (R112 to R120, R143, R144). A finite
value is held exactly, as a signed magnitude times a power of two. -/

namespace Sys2Proof.Machine

/-- The lane flags of NF (R122). -/
def fIV : Word := 1
def fOF : Word := 2
def fSAT : Word := 4
def fDZ : Word := 16

/-- A decoded value: a NaN, signalling or not; an infinity; or (-1)^neg * m * 2^e. -/
inductive FV where
  | nan (sig : Bool)
  | inf (neg : Bool)
  | fin (neg : Bool) (m : Nat) (e : Int)
  deriving DecidableEq, Repr

/-- Width, fraction bits, exponent bits (R112). -/
def fWidth : Fmt → Nat
  | .f32 => 32 | .bf16 => 16 | _ => 8
def fFrac : Fmt → Nat
  | .f32 => 23 | .bf16 => 7 | .e4m3 => 3 | _ => 2
def fExp : Fmt → Nat
  | .e4m3 => 4 | .e5m2 => 5 | _ => 8
/-- The exponent of the subnormal step. -/
def fMinQ : Fmt → Int
  | .f32 => -149 | .bf16 => -133 | .e4m3 => -9 | _ => -16
/-- The largest finite value as k * 2^q (R112). -/
def fMaxK : Fmt → Nat
  | .f32 => 16777215 | .bf16 => 255 | .e4m3 => 14 | _ => 7
def fMaxQ : Fmt → Int
  | .f32 => 104 | .bf16 => 120 | .e4m3 => 5 | _ => 13
/-- The canonical NaN, the infinity and the largest finite value of each format. E4M3 has no infinity: its canonical
NaN stands in its place (R117). -/
def fNaN : Fmt → Nat
  | .f32 => 0x7FC00000 | .bf16 => 0x7FC0 | .e4m3 => 0x7F | _ => 0x7E
def fInf : Fmt → Nat
  | .f32 => 0x7F800000 | .bf16 => 0x7F80 | .e4m3 => 0x7F | _ => 0x7C
def fMax : Fmt → Nat
  | .f32 => 0x7F7FFFFF | .bf16 => 0x7F7F | .e4m3 => 0x7E | _ => 0x7B
def fSign (f : Fmt) (neg : Bool) : Nat := if neg then 2 ^ (fWidth f - 1) else 0

/-- Decode the bits of a format (R112, R114). -/
def fdec (f : Fmt) (bits : Nat) : FV :=
  let fb := fFrac f
  let neg := bits / 2 ^ (fWidth f - 1) % 2 = 1
  let ex := bits / 2 ^ fb % 2 ^ fExp f
  let fr := bits % 2 ^ fb
  if f = .e4m3 ∧ ex = 15 ∧ fr = 7 then .nan false
  else if f ≠ .e4m3 ∧ ex = 2 ^ fExp f - 1 then
    if fr = 0 then .inf neg else .nan (f != .e5m2 && decide (fr < 2 ^ (fb - 1)))
  else if ex = 0 then .fin neg fr (fMinQ f)
  else .fin neg (fr + 2 ^ fb) (fMinQ f + ((ex : Int) - 1))

/-- Round `m / 2^d` to an integer by the mode (R116). -/
def roundShift (mode : RMode) (neg : Bool) (m d : Nat) : Nat :=
  let k := m / 2 ^ d
  let r := m % 2 ^ d
  let half := 2 * r
  let up := match mode with
    | .rn => decide (2 ^ d < half) || (decide (half = 2 ^ d) && k % 2 == 1)
    | .rz => false
    | .rm => neg && r != 0
    | .rp => !neg && r != 0
  if up then k + 1 else k

/-- The exponent of the last fraction bit at which `m * 2^e` is rounded. -/
def quantum (f : Fmt) (m : Nat) (e : Int) : Int :=
  let q := e + (Nat.log2 m : Int) - (fFrac f : Int)
  if q < fMinQ f then fMinQ f else q

/-- A rounded magnitude k * 2^q, or an overflow. -/
def fBits (f : Fmt) (neg : Bool) (k : Nat) (q : Int) : Nat :=
  fSign f neg + (q - fMinQ f).toNat * 2 ^ fFrac f + k

/-- The result of an overflow (R117). -/
def fOverflow (f : Fmt) (mode : RMode) (sat neg : Bool) : Nat × Word :=
  let big := fSign f neg + fMax f
  let inf := if f = .e4m3 then fNaN f else fSign f neg + fInf f
  if sat then (big, fSAT)
  else
    (match mode with
      | .rn => inf
      | .rz => big
      | .rm => if neg then inf else big
      | .rp => if neg then big else inf, fOF)

/-- Round the exact value (-1)^neg * m * 2^e once to a format (R116, R117). -/
def fround (f : Fmt) (mode : RMode) (sat neg : Bool) (m : Nat) (e : Int) : Nat × Word :=
  if m = 0 then (fSign f neg, 0)
  else
    let q := quantum f m e
    let k := if q ≤ e then m * 2 ^ (e - q).toNat else roundShift mode neg m (q - e).toNat
    if fMaxQ f < q ∨ (q = fMaxQ f ∧ fMaxK f < k) then fOverflow f mode sat neg
    else (fBits f neg k q, 0)

/-- A value's signed magnitude at exponent `e0`, at or below its own. -/
def scaled (neg : Bool) (m : Nat) (e e0 : Int) : Int :=
  let n : Int := ((m * 2 ^ (e - e0).toNat : Nat) : Int)
  if neg then -n else n

/-- Round an exact integer times 2^e, the sign of a zero result given. -/
def froundInt (f : Fmt) (mode : RMode) (sat zneg : Bool) (n : Int) (e : Int) : Nat × Word :=
  if n = 0 then (fSign f zneg, 0) else fround f mode sat (decide (n < 0)) n.natAbs e

def FV.isNaN : FV → Bool
  | .nan _ => true
  | _ => false
def FV.isSig : FV → Bool
  | .nan s => s
  | _ => false
def FV.isInf : FV → Bool
  | .inf _ => true
  | _ => false
def FV.isZero : FV → Bool
  | .fin _ m _ => m == 0
  | _ => false
def FV.neg : FV → Bool
  | .nan _ => false
  | .inf n => n
  | .fin n _ _ => n
def FV.flip : FV → FV
  | .nan s => .nan s
  | .inf n => .inf (!n)
  | .fin n m e => .fin (!n) m e

/-- IV where an operand is a signalling NaN (R114). -/
def sigFlag (xs : List FV) : Word := if xs.any FV.isSig then fIV else 0

/-- The exact sum of two values, neither a NaN, rounded once (R143). -/
def fsum (f : Fmt) (mode : RMode) (sat : Bool) : FV → FV → Nat × Word
  | .inf n, .inf k => if n = k then (fSign f n + fInf f, 0) else (fNaN f, fIV)
  | .inf n, _ => (fSign f n + fInf f, 0)
  | _, .inf n => (fSign f n + fInf f, 0)
  | .fin n m e, .fin n' m' e' =>
    let e0 := if e ≤ e' then e else e'
    let z := if m = 0 ∧ m' = 0 ∧ n = n' then n else mode == .rm
    froundInt f mode sat z (scaled n m e e0 + scaled n' m' e' e0) e0
  | _, _ => (fNaN f, 0)

/-- The exact product, neither factor a NaN; none where it is invalid. -/
def fprod : FV → FV → Option FV
  | .fin n m e, .fin n' m' e' => some (.fin (n != n') (m * m') (e + e'))
  | x, y => if x.isZero || y.isZero then none else some (.inf (x.neg != y.neg))

/-- FADD and each element of PFADD (R143, R145). -/
def fadd (f : Fmt) (mode : RMode) (sat : Bool) (x y : FV) : Nat × Word :=
  if x.isNaN || y.isNaN then (fNaN f, sigFlag [x, y]) else fsum f mode sat x y

/-- FMUL and each element of PFMUL. -/
def fmul (f : Fmt) (mode : RMode) (sat : Bool) (x y : FV) : Nat × Word :=
  if x.isNaN || y.isNaN then (fNaN f, sigFlag [x, y])
  else match fprod x y with
    | none => (fNaN f, fIV)
    | some (.fin n m e) => fround f mode sat n m e
    | some p => (fSign f p.neg + fInf f, 0)

/-- FFMA and each element of PFFMA: one rounding; 0 * infinity is invalid whatever c is. -/
def ffma (f : Fmt) (mode : RMode) (sat : Bool) (x y c : FV) : Nat × Word :=
  let sig := sigFlag [x, y, c]
  if x.isNaN || y.isNaN then (fNaN f, sig)
  else match fprod x y with
    | none => (fNaN f, sig ||| fIV)
    | some p => if c.isNaN then (fNaN f, sig) else fsum f mode sat p c

/-- Less than, for two values that are no NaN; the zeros are equal. -/
def flt : FV → FV → Bool
  | .inf n, .inf k => n && !k
  | .inf n, .fin _ _ _ => n
  | .fin _ _ _, .inf n => !n
  | .fin n m e, .fin n' m' e' =>
    let e0 := if e ≤ e' then e else e'
    decide (scaled n m e e0 < scaled n' m' e' e0)
  | _, _ => false

/-- FMIN and FMAX on bit patterns (R143): a NaN gives way to the other operand, and -0 lies below +0. -/
def fminmax (f : Fmt) (max : Bool) (a b : Nat) : Nat × Word :=
  let x := fdec f a
  let y := fdec f b
  let sig := sigFlag [x, y]
  if x.isNaN then (if y.isNaN then fNaN f else b, sig)
  else if y.isNaN then (a, sig)
  else
    let lt := flt x y || (x.isZero && y.isZero && x.neg && !y.neg)
    let gt := flt y x || (x.isZero && y.isZero && y.neg && !x.neg)
    ((if max then (if lt then b else a) else (if gt then b else a)), 0)

/-- The conditions of FSET (R60, R136), with the flag they set. -/
def fcompare (c : Cmp) (a b : Nat) : Bool × Word :=
  let x := fdec .f32 a
  let y := fdec .f32 b
  let sig := sigFlag [x, y]
  let un := x.isNaN || y.isNaN
  match c with
  | .num => (!un, sig)
  | .nan => (un, sig)
  | .eq => (!un && !flt x y && !flt y x, sig)
  | .ne => (un || flt x y || flt y x, sig)
  | .lt => (!un && flt x y, if un then fIV else sig)
  | .le => (!un && !flt y x, if un then fIV else sig)
  | .gt => (!un && flt y x, if un then fIV else sig)
  | .ge => (!un && !flt x y, if un then fIV else sig)

/-! ### Conversions (R118 to R120, R146) -/

/-- A conversion between floating-point formats (R118). -/
def fconv (dt st : Fmt) (mode : RMode) (sat : Bool) (bits : Nat) : Nat × Word :=
  match fdec st bits with
  | .nan s => (fNaN dt, if s then fIV else 0)
  | .inf n =>
    if sat then (fSign dt n + fMax dt, fSAT)
    else if dt = .e4m3 then (fNaN dt, fOF) else (fSign dt n + fInf dt, 0)
  | .fin n m e => fround dt mode sat n m e

/-- The least and greatest value of an integer type, and a value's bit pattern. -/
def tleast (t : ITy) : Int := if t.signed then -(2 ^ (t.width - 1) : Int) else 0
def tgreatest (t : ITy) : Int := if t.signed then 2 ^ (t.width - 1) - 1 else 2 ^ t.width - 1
def tofInt (t : ITy) (n : Int) : DWord := BitVec.ofNat 64 (n % (2 ^ t.width : Int)).toNat
/-- A bit pattern as an integer of the type. -/
def ttoInt (t : ITy) (v : DWord) : Int :=
  let n := v.toNat % 2 ^ t.width
  if t.signed ∧ 2 ^ (t.width - 1) ≤ n then (n : Int) - 2 ^ t.width else n

/-- The type's own clamp of an exact integer (R111). -/
def tclamp (t : ITy) (x : Int) : DWord × Word :=
  if x < (tleast t) then (tofInt t (tleast t), fSAT)
  else if (tgreatest t) < x then (tofInt t (tgreatest t), fSAT)
  else (tofInt t x, 0)

/-- Round a value to an integer by the mode (R119). -/
def fToInt (mode : RMode) (n : Bool) (m : Nat) (e : Int) : Int :=
  let k := if 0 ≤ e then m * 2 ^ e.toNat else roundShift mode n m (-e).toNat
  if n then -(k : Int) else k

/-- A conversion from a floating-point format to an integer type (R119). -/
def fconvInt (t : ITy) (st : Fmt) (mode : RMode) (bits : Nat) : DWord × Word :=
  match fdec st bits with
  | .nan _ => (0, fIV)
  | .inf n => (tofInt t (if n then tleast t else tgreatest t), fSAT)
  | .fin n m e => tclamp t (fToInt mode n m e)

/-- A conversion from an integer to a floating-point format (R120). -/
def iconvF (dt : Fmt) (t : ITy) (mode : RMode) (sat : Bool) (v : DWord) : Nat × Word :=
  let x := ttoInt t v
  fround dt mode sat (decide (x < 0)) x.natAbs 0

/-- A conversion between integer types (R146): .sat clamps where the width stays or shrinks, a widening one extends. -/
def iconvI (d t : ITy) (sat : Bool) (v : DWord) : DWord × Word :=
  if sat && decide (d.width ≤ t.width) then tclamp d (ttoInt t v) else (tofInt d (ttoInt t v), 0)

def fmtInt : Fmt → ITy
  | .b32 => .b32 | .s64 => .s64 | .b64 => .b64 | _ => .s32

/-- CVT of one element (R146). -/
def convert (dt st : Fmt) (mode : RMode) (sat : Bool) (v : DWord) : DWord × Word :=
  if st.isInt then
    if dt.isInt then iconvI (fmtInt dt) (fmtInt st) sat v
    else let r := iconvF dt (fmtInt st) mode sat v; (BitVec.ofNat 64 r.1, r.2)
  else if dt.isInt then fconvInt (fmtInt dt) st mode v.toNat
  else let r := fconv dt st mode sat v.toNat; (BitVec.ofNat 64 r.1, r.2)

/-- Widen an element exactly to FP32 (R118); the flag of a signalling NaN beside it. -/
def widen (st : Fmt) (v : Nat) : Word × Word :=
  let r := fconv .f32 st .rn false v
  (BitVec.ofNat 32 r.1, r.2)

/-! ### Special functions (R144) -/

/-- Integer square root, bit by bit from 2^n. -/
def isqrt (x : Nat) : Nat → Nat → Nat
  | 0, r => r
  | n + 1, r =>
    let t := r + 2 ^ n
    isqrt x n (if t * t ≤ x then t else r)

/-- FRCP: 1/x correctly rounded, from 64 quotient bits beyond the operand and a sticky bit. -/
def frcp (mode : RMode) (a : Nat) : Nat × Word :=
  match fdec .f32 a with
  | .nan s => (fNaN .f32, if s then fIV else 0)
  | .inf n => (fSign .f32 n, 0)
  | .fin n m e =>
    if m = 0 then (fSign .f32 n + fInf .f32, fDZ)
    else
      let q := 2 ^ 96 / m
      let st := if 2 ^ 96 % m = 0 then 0 else 1
      fround .f32 mode false n (2 * q + st) (-97 - e)

/-- FSQRT: correctly rounded, from a root of at least 60 bits and a sticky bit. -/
def fsqrt (mode : RMode) (a : Nat) : Nat × Word :=
  match fdec .f32 a with
  | .nan s => (fNaN .f32, if s then fIV else 0)
  | .inf n => if n then (fNaN .f32, fIV) else (fInf .f32, 0)
  | .fin n m e =>
    if m = 0 then (fSign .f32 n, 0)
    else if n then (fNaN .f32, fIV)
    else
      let sh : Nat := if e % 2 = 0 then 120 else 121
      let x := m * 2 ^ sh
      let r := isqrt x 80 0
      let st := if r * r = x then 0 else 1
      fround .f32 mode false false (2 * r + st) ((e - (sh : Int)) / 2 - 1)

/-- Fixed-point numbers below carry 96 fraction bits. -/
def fxOne : Nat := 2 ^ 96
/-- pi with 320 fraction bits. -/
def pi320 : Nat :=
  6710401180212168915155840974220003240804194089427148950727106424351713218671805380099500388914039
/-- ln 2 and log2 e with 128 fraction bits. -/
def ln2fx : Nat := 235865763225513294137944142764154484399
def log2efx : Nat := 490923683258796565746369346286093237521

/-- The exponential series of a fixed-point argument below 1: `n` terms, `t` the last term, `k` its index. -/
def expSeries (x : Nat) : Nat → Nat → Nat → Nat
  | 0, _, _ => 0
  | n + 1, k, t => t + expSeries x n (k + 1) (t * x / fxOne / (k + 1))

/-- 2^f for a fixed-point f in [0, 1). -/
def exp2fx (f : Nat) : Nat := expSeries (f * ln2fx / 2 ^ 128) 40 0 fxOne

/-- Fraction bits of log2 of a fixed-point mantissa in [1, 2), by repeated squaring. -/
def log2Bits (m : Nat) : Nat → Nat → Nat
  | 0, acc => acc
  | n + 1, acc =>
    let s := m * m / fxOne
    if 2 * fxOne ≤ s then log2Bits (s / 2) n (2 * acc + 1) else log2Bits s n (2 * acc)

/-- The sine (k = 1) or cosine (k = 0) series of a fixed-point argument: signed terms. -/
def trigSeries (x : Nat) : Nat → Nat → Int → Int
  | 0, _, _ => 0
  | n + 1, k, t => t + trigSeries x n (k + 2) (-(t * x / fxOne * x / fxOne) / (((k + 1) * (k + 2) : Nat) : Int))

/-- An approximation `v * 2^e` of the exact result. -/
structure Approx where
  v : Int
  e : Int

/-- A finite operand in fixed point: magnitude with 96 fraction bits. -/
def toFx (m : Nat) (e : Int) : Nat := if -96 ≤ e then m * 2 ^ (e + 96).toNat else m / 2 ^ (-96 - e).toNat

def approxExp2 (neg : Bool) (m : Nat) (e : Int) : Approx :=
  let x := toFx m e
  let i := x / fxOne
  let f := x % fxOne
  if !neg then ⟨exp2fx f, (i : Int) - 96⟩
  else if f = 0 then ⟨fxOne, -(i : Int) - 96⟩ else ⟨exp2fx (fxOne - f), -(i : Int) - 97⟩

def approxLog2 (m : Nat) (e : Int) : Approx :=
  let l := Nat.log2 m
  let mant := m * fxOne / 2 ^ l
  ⟨((e + (l : Int)) * 2 ^ 90) + (log2Bits mant 90 0 : Nat), -90⟩

/-- The operand reduced exactly modulo 2 pi, in fixed point. -/
def reduce2pi (m : Nat) (e : Int) : Nat :=
  let x := if -320 ≤ e then m * 2 ^ (e + 320).toNat else m / 2 ^ (-320 - e).toNat
  x % (2 * pi320) / 2 ^ 224

def approxSin (neg : Bool) (m : Nat) (e : Int) : Approx :=
  let x := reduce2pi m e
  let v := trigSeries x 40 1 (x : Int)
  ⟨if neg then -v else v, -96⟩
def approxCos (m : Nat) (e : Int) : Approx := ⟨trigSeries (reduce2pi m e) 40 0 (fxOne : Int), -96⟩

/-- e^-y in fixed point, for y = s * m * 2^e. -/
def expNeg (s m : Nat) (e : Int) : Nat :=
  let y := toFx (s * m) e * log2efx / 2 ^ 128
  let i := y / fxOne
  let f := y % fxOne
  if 200 < i then 0 else if f = 0 then fxOne / 2 ^ i else exp2fx (fxOne - f) / 2 ^ (i + 1)

def approxTanh (neg : Bool) (m : Nat) (e : Int) : Approx :=
  let t := expNeg 2 m e
  let v : Int := ((fxOne - t) * fxOne / (fxOne + t) : Nat)
  ⟨if neg then -v else v, -96⟩
def approxSigm (neg : Bool) (m : Nat) (e : Int) : Approx :=
  let t := expNeg 1 m e
  ⟨((if neg then t * fxOne / (fxOne + t) else fxOne * fxOne / (fxOne + t) : Nat) : Int), -96⟩

def approxRsq (m : Nat) (e : Int) : Approx :=
  let sh : Nat := if e % 2 = 0 then 0 else 1
  let r := isqrt (2 ^ 240 / (m * 2 ^ sh)) 124 0
  ⟨(r : Int), -120 - (e - (sh : Int)) / 2⟩

/-- Whether a bit pattern is a finite value within `b * 2^be` of the approximation. -/
def within (a : Approx) (b : Nat) (be : Int) (w : Nat) : Bool :=
  match fdec .f32 w with
  | .fin n m e =>
    let e0 := min (min a.e be) e
    let d := scaled n m e e0 - (if a.v < 0 then scaled true a.v.natAbs a.e e0 else scaled false a.v.natAbs a.e e0)
    decide ((d.natAbs : Int) ≤ scaled false b be e0)
  | _ => false

/-- The unit in the last place of FP32 at an approximation. -/
def ulpExp (a : Approx) : Int := quantum .f32 (a.v.natAbs + (if a.v = 0 then 1 else 0)) a.e

/-- A result that R144 bounds only: the free value where it keeps the bound and the entry's own condition, else the
approximation rounded by .rn. -/
def freeResult (op : Nat) (x : Nat) (a : Approx) (b : Nat) (be : Int) (cond : Nat → Bool) : Nat :=
  let c := (Config.sfn op (BitVec.ofNat 32 x)).toNat
  if within a b be c && cond c then c
  else (froundInt .f32 .rn false false a.v a.e).1

def one32 : Nat := 0x3F800000

/-- Whether a finite magnitude is an integer. -/
def isIntVal (m : Nat) (e : Int) : Bool := decide (0 ≤ e) || m % 2 ^ (-e).toNat == 0

/-- The magnitude compared with a natural number: m * 2^e < n. -/
def magLt (m : Nat) (e : Int) (n : Nat) : Bool :=
  if 0 ≤ e then decide (m * 2 ^ e.toNat < n) else decide (m < n * 2 ^ (-e).toNat)

def fexp2 (a : Nat) : Nat × Word :=
  match fdec .f32 a with
  | .nan s => (fNaN .f32, if s then fIV else 0)
  | .inf n => (if n then 0 else fInf .f32, 0)
  | .fin n m e =>
    if !n && !magLt m e 128 then (fInf .f32, fOF)
    else if n && !magLt m e 150 && !(isIntVal m e && decide (toFx m e = 150 * fxOne)) then (0, 0)
    else
      let ap := approxExp2 n m e
      if isIntVal m e && (!n || magLt m e 150) then ((froundInt .f32 .rn false false ap.v ap.e).1, 0)
      else (freeResult 0x3A a ap 2 (ulpExp ap) fun _ => true, 0)

def flog2 (a : Nat) : Nat × Word :=
  match fdec .f32 a with
  | .nan s => (fNaN .f32, if s then fIV else 0)
  | .inf n => if n then (fNaN .f32, fIV) else (fInf .f32, 0)
  | .fin n m e =>
    if m = 0 then (fSign .f32 true + fInf .f32, fDZ)
    else if n then (fNaN .f32, fIV)
    else
      let ap := approxLog2 m e
      if 2 ^ Nat.log2 m = m then ((froundInt .f32 .rn false false (e + (Nat.log2 m : Int)) 0).1, 0)
      else
        let mid := !magLt (2 * m) e 1 && (magLt m e 2 || decide (toFx m e = 2 * fxOne))
        let be := ulpExp ap + 1
        (if mid && decide (be < -22) then freeResult 0x3B a ap 1 (-22) fun _ => true
         else freeResult 0x3B a ap 1 be fun _ => true, 0)

def frsq (a : Nat) : Nat × Word :=
  match fdec .f32 a with
  | .nan s => (fNaN .f32, if s then fIV else 0)
  | .inf n => if n then (fNaN .f32, fIV) else (0, 0)
  | .fin n m e =>
    if m = 0 then (fSign .f32 n + fInf .f32, fDZ)
    else if n then (fNaN .f32, fIV)
    else
      let ap := approxRsq m e
      (freeResult 0x38 a ap 1 (ulpExp ap) fun _ => true, 0)

def fsincos (cos : Bool) (a : Nat) : Nat × Word :=
  match fdec .f32 a with
  | .nan s => (fNaN .f32, if s then fIV else 0)
  | .inf _ => (fNaN .f32, 0)
  | .fin n m e =>
    if m = 0 then (if cos then one32 else a, 0)
    else
      let ap := if cos then approxCos m e else approxSin n m e
      (freeResult (if cos then 0x3D else 0x3C) a ap 1 (-21) fun _ => true, 0)

/-- The magnitude of a bit pattern is at most 1. -/
def leOne (w : Nat) : Bool := decide (w % 2 ^ 31 ≤ one32)

def ftanh (a : Nat) : Nat × Word :=
  match fdec .f32 a with
  | .nan s => (fNaN .f32, if s then fIV else 0)
  | .inf n => (fSign .f32 n + one32, 0)
  | .fin n m e => if m = 0 then (a, 0) else (freeResult 0x3E a (approxTanh n m e) 1 (-21) leOne, 0)

def fsigm (a : Nat) : Nat × Word :=
  match fdec .f32 a with
  | .nan s => (fNaN .f32, if s then fIV else 0)
  | .inf n => (if n then 0 else one32, 0)
  | .fin n m e =>
    if m = 0 then (0x3F000000, 0)
    else (freeResult 0x3F a (approxSigm n m e) 1 (-22) fun w => leOne w && decide (w < 2 ^ 31), 0)

end Sys2Proof.Machine
end

