-- ==== Sys2Proof/Machine/Operands.lean ====
section
/-! DEFINITION. Every operand form: the lane mould and its scalar form (R128, R129), predicates, keys, immediates. -/

namespace Sys2Proof.Machine

/-- The low `w` bits of a value. -/
def low (w : Nat) (v : DWord) : DWord := BitVec.ofNat 64 (v.toNat % 2 ^ w)

/-- A register operand of the mould: a vector register or pair of lane `l`, or, in scalar form, a scalar register. -/
def Group.rdOp (g : Group) (ty : ITy) (sf : Bool) (o : VOp) (l : Nat) : DWord :=
  if sf then
    match o with
    | .reg n => low ty.width (g.rdS n.toNat)
    | .idx _ _ => 0
  else BitVec.ofNat 64 (g.rdN (g.reg o l) l ty.regs)

/-- Source B (R129): IMM32 is sign-extended for .s64 and zero-extended for .b64. -/
def Group.rdB (g : Group) (ty : ITy) (sf : Bool) (b : SrcB) (l : Nat) : DWord :=
  match b with
  | .vec o => g.rdOp ty sf o l
  | .sca n => low ty.width (g.rdS n.toNat)
  | .imm w => if ty = .s64 then w.signExtend 64 else w.setWidth 64

/-- Write `k` registers of an operand in every lane of a mask; the values are computed before any write. -/
def Group.wrLanes (g : Group) (m : Lanes) (d : VOp) (k : Nat) (f : Nat → Nat) : Group :=
  (laneList m).foldl (fun h l => h.wrN (g.reg d l) l (f l) k) g

/-- The result of a scalar form: sign-extended for .s32, zero-extended for .b32, whole for 64 bits (R129). -/
def scalarResult (ty : ITy) (v : DWord) : DWord :=
  match ty with
  | .s32 => (v.setWidth 32 : Word).signExtend 64
  | .b32 => (v.setWidth 32 : Word).setWidth 64
  | _ => v

/-- The mask of the lanes of `m` where a condition holds. -/
def lanesWhere (m : Lanes) (f : Nat → Bool) : Lanes := lanesOf ((laneList m).filter f)

/-- A key operand of lane `l`, as a key of type `kt` (R36). -/
def Group.rdKey (g : Group) (kt : Nat) (k : KeyOp) (l : Nat) : Int :=
  match k with
  | .vec n => keyOfNat kt (g.rdN n.toNat l (ktRegs kt))
  | .sca n =>
    keyOfNat kt (if kt = 4 then (g.rdS n.toNat).toNat + 2 ^ 64 * (g.rdS (n.toNat + 1)).toNat else (g.rdS n.toNat).toNat)

/-- The 64-bit image of a key in a fault record's ADDR: its register value, low 64 bits. -/
def keyAddr (kt : Nat) (k : Int) : DWord := BitVec.ofNat 64 (keyToNat kt k)

/-- A gate operand (R284). -/
def Group.rdGateArg (g : Group) : GateArg → DWord
  | .sca n => g.rdS n.toNat
  | .imm w => w.setWidth 64

end Sys2Proof.Machine
end

