-- ==== Sys2Proof/Machine/Flags.lean ====
section
/-! DEFINITION. The numeric flags (R122 to R125): what a lane's result carries, and the OR over the lanes that take
part. -/

namespace Sys2Proof.Machine

/-- The OR of the flags of the lanes of a mask (R124). -/
def flagsOver (m : Lanes) (f : Nat → Word) : Word := (laneList m).foldl (fun w l => w ||| f l) 0

/-- W1C bits and reserved bits of NF (R122) and SF (R163). -/
def nfW1C : Word := 0x1F1F
def sfW1C : DWord := 7
def sfRsv : DWord := 0xFFFFFFF8

/-- Clear the bits written as 1. -/
def clearBits {w : Nat} (old m : BitVec w) : BitVec w := old &&& ~~~m

/-- An exact integer result, clamped with .sat or wrapped (R131). -/
def intResult (ty : ITy) (sat : Bool) (x : Int) : DWord × Word :=
  if sat then tclamp ty x else (tofInt ty x, 0)

/-- A two-source integer operation of the mould: per lane, or once in scalar form (R129, R131). -/
def Iss.alu (x : Iss) (o : Alu) (f : DWord → DWord → DWord × Word) : Group :=
  let g := x.g
  let res := fun l => f (g.rdOp o.ty o.sf o.a l) (g.rdB o.ty o.sf o.b l)
  if o.sf then
    if x.act = 0 then g
    else match o.d with
      | .reg n => (g.wrS n.toNat (scalarResult o.ty (res 0).1)).orNF (res 0).2
      | .idx _ _ => g
  else (g.wrLanes x.act o.d o.ty.regs fun l => (res l).1.toNat).orNF (flagsOver x.act fun l => (res l).2)

/-- A three-source integer operation. -/
def Iss.alu3 (x : Iss) (o : Alu) (c : VOp) (f : DWord → DWord → DWord → DWord × Word) : Group :=
  let g := x.g
  let res := fun l => f (g.rdOp o.ty o.sf o.a l) (g.rdB o.ty o.sf o.b l) (g.rdOp o.ty o.sf c l)
  if o.sf then
    if x.act = 0 then g
    else match o.d with
      | .reg n => (g.wrS n.toNat (scalarResult o.ty (res 0).1)).orNF (res 0).2
      | .idx _ _ => g
  else (g.wrLanes x.act o.d o.ty.regs fun l => (res l).1.toNat).orNF (flagsOver x.act fun l => (res l).2)

/-- A one-source integer operation. -/
def Iss.alu1 (x : Iss) (o : Alu1) (f : DWord → DWord × Word) : Group :=
  let g := x.g
  let res := fun l => f (g.rdOp o.ty o.sf o.a l)
  if o.sf then
    if x.act = 0 then g
    else match o.d with
      | .reg n => (g.wrS n.toNat (scalarResult o.ty (res 0).1)).orNF (res 0).2
      | .idx _ _ => g
  else (g.wrLanes x.act o.d o.ty.regs fun l => (res l).1.toNat).orNF (flagsOver x.act fun l => (res l).2)

/-- A 32-bit result with flags in every lane that takes part. -/
def Iss.lanes32 (x : Iss) (d : VOp) (f : Nat → Nat × Word) : Group :=
  (x.g.wrLanes x.act d 1 fun l => (f l).1).orNF (flagsOver x.act fun l => (f l).2)

/-- A predicate result with flags in every lane that takes part. -/
def Iss.pred (x : Iss) (d : BitVec 3) (f : Nat → Bool × Word) : Group :=
  (x.g.wrPOn d.toNat x.act (lanesWhere x.act fun l => (f l).1)).orNF (flagsOver x.act fun l => (f l).2)

end Sys2Proof.Machine
end

