-- ==== Sys2Proof/Machine/Memory.lean ====
section
/-! DEFINITION. Device memory: address keys, translation (R309 to R312), poison (R332), the home, cluster and team points
(R246 to R254), table rows (R42, R44, R338), and the rings of the hub. -/

namespace Sys2Proof.Machine

/-! ### Bytes by key. A key is a space times 2^64 plus an address: spaces 0 to 3 are the tiers (R310), 16 and 17 the
hosts behind the links, from 32 on the peers (R338). -/

def spaceOf (key : Nat) : Nat := key / 2 ^ 64
def mkKey (space addr : Nat) : Nat := space * 2 ^ 64 + addr % 2 ^ 64
def isHost (key : Nat) : Bool := decide (spaceOf key = 16 ∨ spaceOf key = 17)
def isPeer (key : Nat) : Bool := decide (32 ≤ spaceOf key)
def isWindow (key : Nat) : Bool := decide (16 ≤ spaceOf key)

/-- What a byte of memory that nothing has written reads as: zero (R44, R343; DEDUCED, log 4). -/
def emptyByte : Byte := 0

/-- The canonical form of memory: addresses strictly rising, no entry equal to what an unlisted address reads as. -/
abbrev Memory.wf (m : List Host.Cell) : Prop := twf emptyByte m = true

def State.rd (s : State) (key n : Nat) : List Byte := tgets emptyByte s.mem key n
def State.wr (s : State) (key : Nat) (bs : List Byte) : State := { s with mem := tsets emptyByte s.mem key bs }

/-- Read one byte. -/
def State.byte (s : State) (key : Nat) : Byte := tget emptyByte s.mem key

/-- A little-endian number (R3). -/
def leNat : List Byte → Nat
  | [] => 0
  | b :: r => b.toNat + 256 * leNat r
def State.rdNat (s : State) (key n : Nat) : Nat := leNat (s.rd key n)
def State.wrNat (s : State) (key n v : Nat) : State := s.wr key (natBytes v n)

/-- Set every byte of a range to zero. -/
def State.zeroRange (s : State) (key n : Nat) : State :=
  { s with mem := s.mem.filter fun c => decide (c.1 < key ∨ key + n ≤ c.1) }

/-! ### Poison: granules of 64 bytes (R330, R332) -/

def State.poisoned (s : State) (key n : Nat) : Bool :=
  s.poison.any fun g => decide (g * 64 < key + n ∧ key < g * 64 + 64)
def State.addPoison (s : State) (key : Nat) : State := { s with poison := ninsert (key / 64) s.poison }
/-- A write that covers a granule whole clears its poison, where R332 lets it. -/
def State.clearPoison (s : State) (key n : Nat) : State :=
  { s with poison := s.poison.filter fun g => !decide (key ≤ g * 64 ∧ g * 64 + 64 ≤ key + n) }
/-- Whether a write would cover a poisoned granule only in part. -/
def State.partPoison (s : State) (key n : Nat) : Bool :=
  s.poison.any fun g => decide (g * 64 < key + n ∧ key < g * 64 + 64) && !decide (key ≤ g * 64 ∧ g * 64 + 64 ≤ key + n)

/-! ### Translation -/

/-- What a walk finds: a page, with the key of its leaf entry; no page; or a page that is being moved. -/
inductive Walk where
  | ok (key leaf size : Nat) (w : Bool)
  | miss
  | busy (leaf : Nat)

/-- Whether an address lies within a tier (R2). CXL memory is there once a link trained for it (R336); its size, and that
of host memory, are not stated. -/
def State.inTier (s : State) (tier addr : Nat) : Bool :=
  match tier with
  | 0 => decide (addr < Config.hbmBytes)
  | 1 => decide (addr < Config.lpddrBytes)
  | 2 => s.hub.cxl.1 || s.hub.cxl.2
  | _ => true

/-- The levels of R309: lowest address bit, index bits, whether a leaf may stand here. -/
def walkLevels : List (Nat × Nat × Bool) := [(39, 5, false), (26, 13, true), (21, 5, true), (16, 5, true)]

/-- What a page-table entry is at a level (R310): nothing that is present, a further node, or a page. -/
inductive Pte where
  | absent
  | node (key : Nat)
  | leaf (key : Nat) (w busy : Bool)

/-- The entry at `ek`. DESIGN CHOICE (log 49): one whose address lies beyond its tier is not present. -/
def State.pte (s : State) (lo : Nat) (leafOk : Bool) (ek : Nat) : Pte :=
  let e := BitVec.ofNat 64 (s.rdNat ek 8)
  let base := fld e 51 8 * 256
  if !fbit e 0 || decide (4 ≤ fld e 63 60) || fld e 59 52 != 0 || fld e 7 5 != 0 || !s.inTier (fld e 63 60) base then .absent
  else if !fbit e 1 then .node (mkKey (fld e 63 60) base)
  else if leafOk && decide (base % 2 ^ lo = 0) then .leaf (mkKey (fld e 63 60) base) (fbit e 2) (fbit e 4)
  else .absent

/-- Walk the page table from a node (R309 to R311). -/
def State.walkFrom (s : State) (va : Nat) : List (Nat × Nat × Bool) → Nat → Walk
  | [], _ => .miss
  | (lo, w, leafOk) :: rest, node =>
    let ek := node + 8 * (va / 2 ^ lo % 2 ^ w)
    match s.pte lo leafOk ek with
    | .absent => .miss
    | .node key => s.walkFrom va rest key
    | .leaf key w busy => if busy then .busy ek else .ok (key + va % 2 ^ lo) ek (2 ^ lo) w

/-- Where the root node of a partition's page table lies, if it lies within its tier (R309; DESIGN CHOICE, log 49). -/
def State.rootNode (s : State) (part : Nat) : Option Nat :=
  let root := (s.partn part).ptroot
  if 4 ≤ fld root 63 60 ∨ s.inTier (fld root 63 60) (fld root 51 8 * 256) = false then none
  else some (mkKey (fld root 63 60) (fld root 51 8 * 256))

def State.walk (s : State) (part va : Nat) : Walk :=
  match s.rootNode part with
  | some node => if 2 ^ 44 ≤ va then .miss else s.walkFrom va walkLevels node
  | none => .miss

/-- The entries of a node of `2 ^ w` that are not all zero, by number. -/
def State.entries (s : State) (node w : Nat) : List Nat :=
  ((s.mem.filter fun c => decide (node ≤ c.1 ∧ c.1 < node + 8 * 2 ^ w)).map fun c => (c.1 - node) / 8).eraseDups

/-- The pages below a node: virtual address, key and size. -/
def State.pagesFrom (s : State) : List (Nat × Nat × Bool) → Nat → Nat → List (Nat × Nat × Nat)
  | [], _, _ => []
  | (lo, w, leafOk) :: rest, node, va =>
    (s.entries node w).flatMap fun i => match s.pte lo leafOk (node + 8 * i) with
      | .absent => []
      | .node key => s.pagesFrom rest key (va + i * 2 ^ lo)
      | .leaf key _ _ => [(va + i * 2 ^ lo, key, 2 ^ lo)]

/-- The pages that a partition's page table maps. -/
def State.pages (s : State) (part : Nat) : List (Nat × Nat × Nat) :=
  match s.rootNode part with
  | some node => s.pagesFrom walkLevels node 0
  | none => []

/-- The entry of a TLB that covers an address. -/
def tlbHit (l : List Tlb) (part va : Nat) : Option Tlb :=
  l.find? fun e => decide (e.asid = part ∧ e.va ≤ va ∧ va < e.va + e.size)

def State.dieTlb (s : State) (core : Nat) : List Tlb := tget [] s.tlb (core / 64)

/-- The translation that a core finds cached: in its own TLB, among its victim entries, in its cluster's or its die's
TLB (R312). -/
def State.cached (s : State) (core part va : Nat) : Option Tlb :=
  [(s.core core).tlb, (s.core core).spVict, (s.core core).icVict, (s.cluster (core / 8)).tlb, s.dieTlb core].findSome?
    fun l => tlbHit l part va

/-- A core's translation: a cached one, else a walk (R312). -/
def State.translate (s : State) (core part va : Nat) : Walk :=
  match s.cached core part va with
  | some e => .ok (e.pa + (va - e.va)) e.leaf e.size e.w
  | none => s.walk part va

/-- The translation that an access uses: of the core whose access it is, with what that has cached; a unit of the hub
walks. -/
def State.view (s : State) (v : Option Nat) (part va : Nat) : Walk :=
  match v with
  | some core => s.translate core part va
  | none => s.walk part va

/-- An entry joins a TLB of `cap` entries; a full one gives up its oldest (DESIGN CHOICE, log 39). -/
def tlbPut (cap : Nat) (l : List Tlb) (e : Tlb) : List Tlb :=
  if l.contains e then l else (if cap ≤ l.length then l.drop 1 else l) ++ [e]

/-- The core, and with a walk its cluster and its die, cache the translation that an access used (R312). -/
def State.noteTlb (s : State) (core part va : Nat) : State :=
  if (tlbHit (s.core core).tlb part va).isSome then s
  else
    let put := fun (s : State) (e : Tlb) => s.setCore core { s.core core with tlb := tlbPut 128 (s.core core).tlb e }
    match s.cached core part va with
    | some e => put s e
    | none => match s.walk part va with
      | .ok key leaf size w =>
        let e : Tlb :=
          { asid := part, va := va / size * size, size := size, pa := key - va % size, leaf := leaf, w := w }
        let s := put s e
        let cl := s.cluster (core / 8)
        let s := s.setCluster (core / 8) { cl with tlb := tlbPut 2048 cl.tlb e }
        { s with tlb := tset [] s.tlb (core / 64) (tlbPut 16384 (s.dieTlb core) e) }
      | _ => s

/-- Before a write through a page-table entry performs, D is set in that entry (R310, R311), while the page is being moved
as well. A window has none. -/
def State.setD (s : State) (leaf : Option Nat) : State :=
  match leaf with
  | some k => s.wrNat k 1 (s.rdNat k 1 ||| 8)
  | none => s

/-- The entry through which a write of a page that a unit walks to goes. -/
def State.leafOf (s : State) (part va : Nat) : Option Nat :=
  match s.walk part va with
  | .ok _ leaf _ _ => some leaf
  | _ => none

/-- While the dirty log runs, a write sets the page's bit (R317). DESIGN CHOICE (log 49): a bit beyond HBM is not kept. -/
def State.logWrite (s : State) (part va : Nat) : State :=
  let d := (s.partn part).dlcfg
  let a := fld d 51 12 * 4096 + va / 65536 / 8
  if fbit d 0 && s.inTier 0 a then
    s.wrNat (mkKey 0 a) 1 (s.rdNat (mkKey 0 a) 1 ||| 2 ^ (va / 65536 % 8))
  else s

/-- A write through an entry sets D and the page's bit. -/
def State.markWrite (s : State) (part va : Nat) (leaf : Option Nat) : State := (s.setD leaf).logWrite part va

/-- Ranges that were discarded while their page was not present read as zero once it is (R190, R314), and the granules
that a discard covered whole are clean (R332). Each lies within one 64 KiB page. -/
def State.applyDrops (s : State) (part va : Nat) : State :=
  let here := fun (d : Drop) => decide (d.asid = part ∧ d.va / 65536 = va / 65536)
  if s.drops.any here then
    match s.walk part va with
    | .ok key leaf _ _ =>
      let at_ := fun (d : Drop) => key - va % 65536 + d.va % 65536
      ((s.drops.filter here).foldl
        (fun (s : State) d => if d.clean then s.clearPoison (at_ d) d.bytes else s.zeroRange (at_ d) d.bytes)
        { s with drops := s.drops.filter fun d => !here d }).markWrite part va (some leaf)
    | _ => s
  else s

/-! ### Lines, the cluster point and the home point (R246 to R252) -/

def lineOf (key : Nat) : Nat := key / 128
def bitsToBytes (v : BitVec 1024) : List Byte := natBytes v.toNat 128
def bytesToBits (bs : List Byte) : BitVec 1024 := BitVec.ofNat 1024 (leNat bs)
def State.lineBits (s : State) (line : Nat) : BitVec 1024 := BitVec.ofNat 1024 (s.rdNat (128 * line) 128)

/-- Replace bytes of a line. -/
def patchLine (v : BitVec 1024) (off : Nat) (bs : List Byte) : BitVec 1024 :=
  let n := bs.length
  BitVec.ofNat 1024 (v.toNat / 2 ^ (8 * (off + n)) * 2 ^ (8 * (off + n)) + leNat bs * 2 ^ (8 * off) +
    v.toNat % 2 ^ (8 * off))
/-- Bytes of a line. -/
def sliceLine (v : BitVec 1024) (off n : Nat) : List Byte := natBytes (v.toNat / 2 ^ (8 * off)) n

def Cluster.line (c : Cluster) (l : Nat) : Option HotLine := c.hot.find? fun h => h.line = l

/-- The cluster whose engine holds a line. -/
def State.holder (s : State) (l : Nat) : Option (Nat × HotLine) :=
  s.clusters.findSome? fun c => (c.2.line l).map fun h => (c.1, h)

/-- A cluster point writes a line back and drops it (R252, R263). -/
def State.writeBack (s : State) (c : Nat) (h : HotLine) (drop : Bool) : State :=
  let cl := s.cluster c
  let cl := if drop then { cl with hot := cl.hot.filter fun x => x.line != h.line }
    else { cl with hot := cl.hot.map fun x => if x.line = h.line then { x with own := [], got := [] } else x }
  let s := s.setCluster c cl
  if h.own.isEmpty then s else (s.logWrite h.part h.va).wr (128 * h.line) (bitsToBytes h.data)

/-- A wider access recalls a line from the cluster point that holds it. -/
def State.recall (s : State) (l : Nat) : State :=
  match s.holder l with
  | some (c, h) => s.writeBack c h true
  | none => s

/-- Recall every line of a range. -/
def State.recallRange (s : State) (key n : Nat) : State :=
  (List.range ((key + n - 1) / 128 + 1 - key / 128)).foldl (fun s i => s.recall (key / 128 + i)) s

/-- The device number, and whether Skein requests leave this part and reach it: once it has one, through a port that is
up (R341). -/
def State.devNum (s : State) : Nat := fld s.hub.skcfg 9 0
def State.onSkein (s : State) : Bool := s.devNum != 0x3FF
def State.portUp (s : State) : Bool := fld s.hub.skcfg 29 10 != 0

/-- The posted stream of a window write: one for each partition and host link, and for each partition and peer device
(R254, R339). -/
def streamOf (key : Nat) : Nat := if isPeer key then 32 + (spaceOf key - 32) / 32 else spaceOf key

/-- Whether earlier window writes of the partition have still to arrive where `key` lies: a read does not pass them. -/
def State.streamBusy (s : State) (part key : Nat) : Bool :=
  isWindow key && s.posted.any fun w => decide (w.part = part ∧ streamOf w.addr = streamOf key)

/-- Whether a peer answers what units of this device read there (R339, R341). -/
def State.answered (s : State) (key : Nat) : Bool :=
  !isPeer key || (s.onSkein && s.portUp && !s.denied.contains (spaceOf key))

/-- Whether a fetch of code that `key` answers waits: for the writes posted before it (R254), or for a peer (DESIGN CHOICE,
log 50). -/
def State.readWaits (s : State) (part key : Nat) : Bool := s.streamBusy part key || !s.answered key

/-- A write performs at the home point, after the cluster points have given the line back and with the page's bit of the
dirty log set; to a window it performs as the hub places it in the posted stream (R254). -/
def State.homeWrite (s : State) (part va key : Nat) (bs : List Byte) : State :=
  if bs.isEmpty then s
  else if isWindow key then { s with posted := s.posted ++ [{ part := part, addr := key, bytes := bs }] }
  else ((s.recallRange key bs.length).logWrite part va).wr key bs

/-! ### Table rows -/

/-- The valid window entry of a table slot (R338). -/
def Partition.windowOf (p : Partition) (slot : Nat) : Option (BitVec 256) :=
  (p.windows.find? fun w => fbit w.2 0 && decide (fld w.2 35 24 = slot)).map Prod.snd

/-- Whether a slot's window refuses writes (R338). -/
def Partition.readOnly (p : Partition) (slot : Nat) : Bool :=
  match p.windowOf slot with
  | some w => fbit w 4
  | none => false

/-- The key of byte `off` of a window table's image. -/
def windowKey (w : BitVec 256) (off : Nat) : Nat :=
  let tgt := fld w 7 6
  mkKey (if tgt = 2 then 32 + fld w 63 54 * 32 + fld w 53 49 else 16 + tgt) (fld w 255 192 + off)

/-- Where a byte of a table's image lies: its virtual address, and what the translation of the core `v`, or a unit's walk,
finds; a window needs none. -/
def State.locate (s : State) (v : Option Nat) (part slot : Nat) (t : Table) (off : Nat) : Nat × Walk :=
  match (s.partn part).windowOf slot with
  | some w => (0, .ok (windowKey w off) 0 (2 ^ 44) (!fbit w 4))
  | none => (tHeap t + off, s.view v part (tHeap t + off))

/-- The key of a byte of a table's image, where it is mapped. -/
def State.imageKey (s : State) (v : Option Nat) (part slot : Nat) (t : Table) (off : Nat) : Option Nat :=
  match (s.locate v part slot t off).2 with
  | .ok k _ _ _ => some k
  | _ => none

/-- A unit reads a table's image at the home point, byte by byte where pages part; unmapped bytes read zero. DEDUCED
(log 67): a line that a cluster point holds is not written back for it (R252), so a clu store of the issuing group that has
landed there may not be found (R198). -/
def State.imageRead (s : State) (v : Option Nat) (part slot : Nat) (t : Table) (off : Nat) : Nat → List Byte
  | 0 => []
  | n + 1 =>
    (match s.imageKey v part slot t off with | some k => s.byte k | none => 0) :: s.imageRead v part slot t (off + 1) n

/-- Outside recovery the management block is there (R344). -/
def State.managed (s : State) : Bool := s.hub.boot == .running

/-- Whether a unit can reach a range of an image. -/
inductive Avail where
  | ok
  | busy                   -- a page is being moved, or posted writes have to arrive first: it waits (R254, R311)
  | miss (va : Nat)        -- a page is not present, or not writable: reported, and it waits for a RESUME (R315)
  | refused                -- a write to a read-only window, or a read that a peer does not answer (R338, R339, R341)
  deriving DecidableEq, Repr

/-- The oldest write of a posted stream arrives: in host memory, or at a peer; with no way to the peer it stays. What a
peer does with it is the peer's: a later read finds it unless the peer changes its memory. -/
def State.drainPost (s : State) (part stream : Nat) : State :=
  match s.posted.find? fun w => decide (w.part = part ∧ streamOf w.addr = stream) with
  | some w =>
    if isHost w.addr || (s.onSkein && s.portUp) then { s with posted := s.posted.erase w }.wr w.addr w.bytes else s
  | none => s

/-- Whether a unit can reach byte `off` of an image. -/
def State.reach1 (s : State) (v : Option Nat) (part slot : Nat) (t : Table) (wr : Bool) (off : Nat) : Avail :=
  match (s.partn part).windowOf slot with
  | some w =>
    if wr then (if fbit w 4 then .refused else .ok)
    else if !s.answered (windowKey w off) then .refused
    else if s.streamBusy part (windowKey w off) then .busy else .ok
  | none => match s.view v part (tHeap t + off) with
    | .ok _ _ _ w => if wr && !w then .miss (tHeap t + off) else .ok
    | .miss => .miss (tHeap t + off)
    | .busy _ => .busy

/-- The bytes of a range at which its first page and every further one begin. -/
def pageStarts (va off n : Nat) : List Nat :=
  if n = 0 then []
  else (List.range ((va + off + n - 1) / 65536 + 1 - (va + off) / 65536)).map fun i =>
    if i = 0 then off else ((va + off) / 65536 + i) * 65536 - va

/-- Whether a unit can reach a range of an image: a missing page before one that is being moved. -/
def State.avail (s : State) (v : Option Nat) (part slot : Nat) (t : Table) (off n : Nat) (wr : Bool) : Avail :=
  let rs := (pageStarts (tHeap t) off n).map (s.reach1 v part slot t wr)
  match rs.find? fun r => match r with | .miss _ | .refused => true | _ => false with
  | some r => r
  | none => if rs.any fun r => r == .busy then .busy else .ok

/-- A page is accessed (R316). -/
def State.noteUse (s : State) (part va : Nat) : State :=
  { s with lru := (part, va / 65536) :: s.lru.filter fun e => e != (part, va / 65536) }

/-- A page is used: its discards that are still due are carried out (R190, R314), and a core caches its translation
(R312). -/
def State.usePage (s : State) (v : Option Nat) (part va : Nat) : State :=
  let s := (s.applyDrops part va).noteUse part va
  match v with
  | some core => s.noteTlb core part va
  | none => s

/-- A fetch from memory uses its page (R190, R312, R316). -/
def State.useFetch (s : State) (core part slot : Nat) (t : Table) (off : Nat) : State :=
  match s.locate (some core) part slot t off with
  | (va, .ok k _ _ _) => if isWindow k then s else s.usePage (some core) part va
  | _ => s

/-- The pages of an image range are used. -/
def State.touchImage (s : State) (v : Option Nat) (part slot : Nat) (t : Table) (off n : Nat) : State :=
  match (s.partn part).windowOf slot with
  | some _ => s
  | none => (pageStarts (tHeap t) off n).foldl (fun s o => s.usePage v part (tHeap t + o)) s

/-- The pages of an image range that a unit can read are used (R316). -/
def State.useImage (s : State) (v : Option Nat) (part slot : Nat) (t : Table) (off n : Nat) : State :=
  if s.avail v part slot t off n false == .ok then s.touchImage v part slot t off n else s

/-- Whether a byte range of an image meets poison. -/
def State.imagePoison (s : State) (v : Option Nat) (part slot : Nat) (t : Table) (off n : Nat) : Bool :=
  (List.range ((off + n - 1) / 64 + 1 - off / 64)).any fun i =>
    match s.imageKey v part slot t ((off / 64 + i) * 64) with
    | some k => n != 0 && s.poisoned k 64
    | none => false

/-- Write part of an image within one page. -/
def State.imageWrite1 (s : State) (v : Option Nat) (part slot : Nat) (t : Table) (off : Nat) (bs : List Byte) : State :=
  match s.locate v part slot t off with
  | (va, .ok k leaf _ true) => (if isWindow k then s else s.setD (some leaf)).homeWrite part va k bs
  | _ => s

/-- A unit writes a table's image at part scope, a 64-byte granule at a time. -/
def State.imageWrite (s : State) (v : Option Nat) (part slot : Nat) (t : Table) : Nat → Nat → List Byte → State
  | 0, _, _ => s
  | n + 1, off, bs =>
    if bs.isEmpty then s
    else
      let k := 64 - off % 64
      (s.imageWrite1 v part slot t off (bs.take k)).imageWrite v part slot t n (off + k) (bs.drop k)

/-- Number of granules that a write can touch. -/
def granules (n : Nat) : Nat := n / 64 + 2

/-- A write of a row range of a dense table by a unit, at part scope. -/
def State.rowWrite (s : State) (v : Option Nat) (part slot : Nat) (t : Table) (off : Nat) (bs : List Byte) : State :=
  s.imageWrite v part slot t (granules bs.length) off bs

/-- Bytes of an image that lie in one page, from `off`. -/
def pagePiece (va n : Nat) : Nat := min n (65536 - va % 65536)

/-- Outbound writes of every core that start in a range are gone: they performed before the rows of the range were
discarded or taken for a new key, and are erased with the earlier bytes (R178, R190, R249; DEDUCED, log 17). -/
def State.eraseOut (s : State) (key n : Nat) : State :=
  { s with cores := s.cores.map fun e =>
      (e.1, { e.2 with outb := e.2.outb.filter fun w => !decide (key ≤ w.addr ∧ w.addr < key + n) }) }

/-- What a discard cannot do yet, the page not being present, joins what is due. -/
def State.dropLater (s : State) (d : Drop) : State := if s.drops.contains d then s else { s with drops := s.drops ++ [d] }

/-- Set a range of an image to zero at the home points, page by page (R178, R189, R190); a page that is not present
reads as zero once it is, and its bit in the dirty log is set at once (R317). -/
def State.zeroImage (s : State) (v : Option Nat) (part slot : Nat) (t : Table) : Nat → Nat → Nat → State
  | 0, _, _ => s
  | fuel + 1, off, n =>
    if n = 0 then s
    else
      let va := tHeap t + off
      let k := pagePiece va n
      let s := match s.locate v part slot t off with
        | (va, .ok key leaf _ _) =>
          if isWindow key then (s.eraseOut key k).homeWrite part va key (List.replicate k 0)
          else (((s.eraseOut key k).recallRange key k).markWrite part va (some leaf)).zeroRange key k
        | _ => (s.logWrite part va).dropLater { asid := part, va := va, bytes := k, clean := false }
      s.zeroImage v part slot t fuel (off + k) (n - k)

/-- Clear the poison of the granules that an image range covers whole, page by page (R332); of a page that is not present
once it is. -/
def State.clearImage (s : State) (v : Option Nat) (part slot : Nat) (t : Table) (off n : Nat) : State :=
  let first := (off + 63) / 64 * 64
  let whole := (off + n) / 64 * 64 - first
  (pageStarts (tHeap t) first whole).foldl
    (fun s o =>
      let k := pagePiece (tHeap t + o) (first + whole - o)
      match s.locate v part slot t o with
      | (_, .ok key _ _ _) => s.clearPoison key k
      | (va, _) => s.dropLater { asid := part, va := va, bytes := k, clean := true }) s

/-- A dense UINT32 table with LO = 0 and rows of 32 bytes: a ring (R67, R325). -/
def ringTable (t : Table) (log2n : Nat) : Bool :=
  tKind t == 0 && tKType t == 1 && fld t.record 191 128 == 0 && tWidth t == 32 && decide (2 ^ log2n ≤ tCap t)

/-! ### Spools (R67 to R70) -/

def spEN (p : Spool) : Bool := fbit p.cfg 5
def spDEV (p : Spool) : Bool := fbit p.cfg 7
def spLOG (p : Spool) : Nat := fld p.cfg 24 20
def spSlot (p : Spool) : Nat := fld p.cfg 19 8
def spClass (p : Spool) : Nat := fld p.cfg 4 3

/-- The record at a ring position. -/
def State.ringRead (s : State) (part slot log2n pos : Nat) : BitVec 256 :=
  match s.table part slot with
  | some t => BitVec.ofNat 256 (leNat (s.imageRead none part slot t (pos % 2 ^ log2n * 32) 32))
  | none => 0
def State.ringWrite (s : State) (part slot log2n pos : Nat) (r : BitVec 256) : State :=
  match s.table part slot with
  | some t =>
    let off := pos % 2 ^ log2n * 32
    (s.touchImage none part slot t off 32).rowWrite none part slot t off (natBytes r.toNat 32)
  | none => s

/-- A unit of the hub waits for an address; the first time this is reported (R315). -/
def State.hubMiss (s : State) (tie : ErrTie) (va : Nat) : State :=
  if s.waits.contains (tie.part, va) then s
  else { s with waits := s.waits ++ [(tie.part, va)] }.report tie.part
    [reportHdr 7 0 0 10 tie.pos tie.spool tie.slot 0 (BitVec.ofNat 64 va)]

/-- Whether the hub can reach a row range, else the state in which it waits: for a page that was not present until a
RESUME covers it (R315). What a read-only window, a peer that no request reaches or an unbound slot keeps from the hub, it
never does (DESIGN CHOICE, log 50). -/
def State.hubWait (s : State) (tie : ErrTie) (slot : Nat) (t : Table) (off n : Nat) (wr : Bool) : Option State :=
  let lo := tHeap t + off
  if s.waits.any fun e => decide (e.1 = tie.part ∧ lo ≤ e.2 ∧ e.2 < lo + n) then some s
  else match s.avail none tie.part slot t off n wr with
  | .ok => none
  | .busy | .refused => some s
  | .miss va => some (s.hubMiss { tie with slot := slot } va)

/-- The ring positions from `pos` on that a push writes, as one or two ranges; whether each can be written. -/
def State.ringWait (s : State) (tie : ErrTie) (slot log2n pos : Nat) : Nat → Option State
  | 0 => none
  | n + 1 => match s.table tie.part slot with
    | none => some s
    | some t => match s.hubWait tie slot t (pos % 2 ^ log2n * 32) 32 true with
      | some s => some s
      | none => s.ringWait tie slot log2n (pos + 1) n

/-- What a device-side push comes to. -/
inductive Push where
  | full
  | wait (s : State)
  | done (s : State)

/-- A device-side push into a spool (R80, R81): not made while the spool is full, and only once the ring's pages can be
written (R311, R315); `tie` is whose push it is. -/
def State.push (s : State) (tie : ErrTie) (spool : Nat) (recs : List (BitVec 256)) : Push :=
  let part := tie.part
  let p := s.partn part
  let sp := p.spool spool
  if 2 ^ spLOG sp < (sp.tail - sp.head).toNat + recs.length then .full
  else match s.ringWait tie (spSlot sp) (spLOG sp) sp.tail.toNat recs.length with
    | some s => .wait s
    | none =>
      let s1 := (List.range recs.length).foldl
        (fun s i => s.ringWrite part (spSlot sp) (spLOG sp) (sp.tail.toNat + i) (recs.getD i 0)) s
      let p1 := s1.partn part
      .done (s1.setPartn part (p1.setSpool spool { sp with tail := sp.tail + BitVec.ofNat 32 recs.length }))

/-- Whether a spool takes device-side pushes. -/
def Partition.pushable (p : Partition) (spool : Nat) : Bool :=
  decide (spool < 16) && spEN (p.spool spool) && spDEV (p.spool spool)

/-! ### Partitions and clusters (R279) -/

def pEN (p : Partition) : Bool := fbit p.pcfg 0
def pWhole (p : Partition) : Bool := fbit p.pcfg 1
def pSlice (p : Partition) : Nat := fld p.pcfg 9 2
def pFirst (p : Partition) : Nat := fld p.pcfg 17 13
def pClusters (p : Partition) : Nat := 2 ^ fld p.pcfg 12 10
/-- The logical cores of a partition. -/
def Partition.coreList (p : Partition) : List Nat := (List.range (8 * pClusters p)).map fun i => 8 * pFirst p + i

/-! ### Outbound writes of a core (R250 to R252) -/

/-- An outbound write leaves the team point: it lands in the cluster point that holds the line, else at home (R252). -/
def State.landWrite (s : State) (core : Nat) (w : OutW) : State :=
  let cl := s.cluster (core / 8)
  match cl.line (lineOf w.addr) with
  | some h =>
    let h' := { h with data := patchLine h.data (w.addr % 128) w.bytes, own := h.own ++ [w.who], part := w.part, va := w.va }
    s.setCluster (core / 8) { cl with hot := h' :: cl.hot.filter fun x => x.line != h.line }
  | none => s.homeWrite w.part w.va w.addr w.bytes

/-- Move every outbound write of a core that `p` picks, in the order in which they reached the team point. -/
def State.moveWhere (s : State) (core : Nat) (p : OutW → Bool) : State :=
  let c := s.core core
  (c.outb.filter p).foldl (fun s w => s.landWrite core w)
    (s.setCore core { c with outb := c.outb.filter fun w => !p w })

/-- Every outbound write of a core moves home (R251). -/
def State.flush (s : State) (core : Nat) : State := s.moveWhere core fun _ => true

/-- Write back every line that a cluster point holds. -/
def State.writeBackAll (s : State) (c : Nat) : State :=
  (s.cluster c).hot.foldl (fun s h => s.writeBack c h false) s

/-- What precedes an access of scope part that releases: all that the core has taken in moves home, and the cluster point
writes back what landed there (R251, R257). DEDUCED (log 67): every line that it holds, since any write there may be one
that the core has acquired. -/
def State.flushWide (s : State) (core : Nat) : State := (s.flush core).writeBackAll (core / 8)

end Sys2Proof.Machine
end

