-- ==== Sys2Proof/Machine/Control.lean ====
section
/-! DEFINITION. Control: branches, masks, regions, ending lanes, the token, SPAWN, LTRIG and ICINV (R81 to R83, R91,
R96, R97, R99 to R106). -/

namespace Sys2Proof.Machine

def execNop (h : Hdr) (s : State) :=
  onGroup (.nop h) s fun s x => x.finish s

/-! ### Branches and calls (R100, R101) -/

/-- Whether a branch is taken: the active lanes whose guard is true against all active lanes. -/
def Iss.taken (x : Iss) (c : Cond) : Bool :=
  match c with
  | .any => x.act != 0
  | .all => x.act == x.g.em
  | .none => x.act == 0

def execBra (h : Hdr) (c : Cond) (disp : Word) (s : State) :=
  onGroup (.bra h c disp) s fun s x => x.finishAt s (if x.taken c then x.g.pc + disp else x.next)

def execBrx (h : Hdr) (c : Cond) (a : BitVec 6) (off : Word) (s : State) :=
  onGroup (.brx h c a off) s fun s x =>
    x.finishAt s (if x.taken c then (x.g.rdS a.toNat).setWidth 32 + off else x.next)

def execCall (h : Hdr) (c : Cond) (d : BitVec 6) (disp : Word) (s : State) :=
  onGroup (.call h c d disp) s fun s x =>
    if x.taken c then
      Iss.finishAt { x with g := x.g.wrS d.toNat (x.next.setWidth 64) } s (x.g.pc + disp)
    else x.finish s

def execRet (h : Hdr) (c : Cond) (a : BitVec 6) (s : State) :=
  onGroup (.ret h c a) s fun s x => x.finishAt s (if x.taken c then (x.g.rdS a.toNat).setWidth 32 else x.next)

/-! ### Masked sections (R99): once for the group, even when EM is 0 -/

def execMif (inv : Bool) (d : BitVec 6) (a : BitVec 3) (s : State) :=
  onGroup (.mif inv d a) s fun s x =>
    let c := if inv then ~~~(x.g.rdP a.toNat) else x.g.rdP a.toNat
    let g := x.g.wrS d.toNat ((x.g.em &&& ~~~c &&& x.g.run) ++ x.g.em)
    Iss.finish { x with g := { g with em := x.g.em &&& c &&& x.g.run } } s

def execMelse (a : BitVec 6) (s : State) :=
  onGroup (.melse a) s fun s x =>
    Iss.finish { x with g := { x.g with em := (x.g.rdS a.toNat).extractLsb' 32 32 &&& x.g.run } } s

def execMend (a : BitVec 6) (s : State) :=
  onGroup (.mend a) s fun s x =>
    Iss.finish { x with g := { x.g with em := (x.g.rdS a.toNat).setWidth 32 &&& x.g.run } } s

/-! ### Regions (R102 to R106) -/

/-- Registers of a working set. -/
def wsRegs : WSet → List Nat
  | .none => []
  | .some vb n1 _ => (List.range (n1.toNat + 1)).map fun i => vb.toNat + i

/-- The registers of a working set, with their lanes, as keys of a register file. -/
def wsCells (ws : WSet) : List Nat := (wsRegs ws).flatMap fun n => (List.range 32).map fun l => 32 * n + l

/-- main[ws] := fast[ws] for the open region. -/
def Group.writeBackWs (g : Group) : Group :=
  match g.slot with
  | none => g
  | some sl => { g with v := (wsCells sl.ws).foldl (fun v k => tset 0 v k (tget 0 g.fast k)) g.v }

/-- Whether register `n` of a working set is live. -/
def wsLive : WSet → Nat → Bool
  | .none, _ => false
  | .some vb _ live, n => live.getLsbD (n - vb.toNat)

/-- Open a region (R104): the checkpoint slot is written and the fast operand buffer filled from the main file. -/
def Group.openRegion (g : Group) (idem : Bool) (ws : WSet) : Group :=
  let g := g.writeBackWs
  { g with
    slot := some { pc := g.pc, em := g.em, s := g.s.filter fun r => r.1 < 64, p := g.p, x := g.x, c := g.c, ws := ws,
                   rs := idem }
    fast := (wsCells ws).foldl (fun f k => tset 0 f k (if wsLive ws (k / 32) then tget 0 g.v k else 0)) [] }

/-- The register-budget fault of a working set (R103). -/
def wsBudget (budget : Nat) : WSet → Option LaneFault
  | .none => none
  | .some vb n1 _ =>
    if budget < vb.toNat + n1.toNat + 1 then some (mkFault 2 (max vb.toNat budget) 0 0) else none

/-- Whether the lanes stand at a head other than the one where the others wait (R296). -/
def Group.otherHead (g : Group) : Bool :=
  match g.catchUp with
  | some c => match c.head with
    | some h => h != g.pc
    | none => false
  | none => false

/-- Whether some lane of the group is parked or waits for its turn in a catch-up run. -/
def Group.hasParked (g : Group) : Bool :=
  !g.parks.isEmpty || (match g.catchUp with | some c => !c.resume.isEmpty | none => false)

/-- Whether a stop has been asked of the group (R304). -/
def Group.asked (g : Group) : Bool :=
  match g.stop with
  | .asked _ => true
  | _ => false

/-- At a convergence head outside trap mode the group waits for its parked lanes, or stops where that is asked: such a
turn issues nothing (R92, R106, R304). -/
def Group.holdsAt (g : Group) (budget : Nat) : Instr → Bool
  | .rgn _ _ conv ws =>
    conv && g.trap.isNone && (wsBudget budget ws).isNone && !g.otherHead && (g.hasParked || g.asked)
  | _ => false

/-- RGN (R103 to R106), once for the group. At a head the group waits for its parked lanes; asked to stop, it stops
there once its path counters are 0, unless region restart, which comes first, is open to it (R304). Past a head no catch-up run goes on (R296). -/
def execRgn (len : Len) (idem conv : Bool) (ws : WSet) (s : State) :=
  onGroup (.rgn len idem conv ws) s fun s x =>
    let g := x.g
    let fault := fun (m : Lanes) (f : LaneFault) => Iss.failOn { x with nf := [] } s m f
    let here := conv && g.trap.isNone
    match wsBudget (x.t.budget x.r.grp) ws with
    | some f => fault g.run f
    | none =>
      let conv_ := mkFault 5 0 ((g.em ||| g.exited).setWidth 64) 0
      if here && g.otherHead then fault g.faultLanes conv_
      else if here && g.hasParked then s.putGroup x.r { g with atHead := true }
      else if here && g.asked then
        if g.pend.isEmpty && !(g.stop == .asked false && g.restartable) then
          s.putGroup x.r { g.writeBackWs with stop := .stopped, starve := 0 }
        else s
      else if conv && (g.em ||| g.exited) != allOnes then fault g.faultLanes conv_
      else
        let g := if here then { g with catchUp := none } else g
        Iss.finish { x with nf := [], g := g.openRegion idem ws } s

/-! ### Ending lanes (R83), and the end of trap mode (R301) -/

/-- Once the handler has handed back every lane, the predicates are the frame's again and the lanes that resume run in
a catch-up run, retried lanes first (R296, R301). -/
def Group.endTrap (g : Group) : Group :=
  match g.trap with
  | none => g
  | some ts =>
    if ts.pending != 0 then g
    else
      let c : CatchUp := match g.catchUp with
        | some c => c
        | none => { head := none, point := false, waitEM := 0, held := 0, resume := [] }
      let turn := fun (q : Lanes × Word) => (⟨q.1, q.1, q.2⟩ : LaneTurn)
      { g with p := ts.p, trap := none, em := 0
               catchUp := some { c with resume := (ts.resume ++ ts.skipped).map turn ++ c.resume } }

/-- Leave trap mode if no lane is pending, and serve what is parked. -/
def State.endTrap (s : State) (r : GRef) : State :=
  match s.group r with
  | none => s
  | some (_, g) =>
    match g.trap with
    | none => s
    | some ts => if ts.pending != 0 then s else (s.putGroup r g.endTrap).serve r

/-- Lanes leave the pending set. -/
def Group.unpend (g : Group) (m : Lanes) : Group :=
  match g.trap with
  | none => g
  | some ts => { g with trap := some { ts with pending := ts.pending &&& ~~~m } }

def execExit (h : Hdr) (s : State) :=
  onGroup (.exit h) s fun s x =>
    (Iss.finish { x with g := (x.g.exitLanes x.act).unpend x.act } s).endTrap x.r

/-! ### PRIO.PASS (R96) -/

/-- Give the token to group `n` of the team, or release it. -/
def Iss.passToken (x : Iss) (s : State) (n : Nat) : State :=
  if x.act = 0 then x.finish s
  else Iss.finish { x with t := { x.t with token := if n ≤ shG x.t.shape then some n else none } } s

def execPrioPassImm (h : Hdr) (t : BitVec 6) (s : State) :=
  onGroup (.prioPassImm h t) s fun s x => x.passToken s t.toNat
def execPrioPassReg (h : Hdr) (a : BitVec 6) (s : State) :=
  onGroup (.prioPassReg h a) s fun s x => x.passToken s (fld (x.g.rdS a.toNat) 5 0)

/-! ### SPAWN and LTRIG (R81, R82) -/

/-- The record that four scalar registers hold. -/
def Group.rdRecord (g : Group) (n : Nat) : BitVec 256 :=
  g.rdS (n + 3) ++ g.rdS (n + 2) ++ g.rdS (n + 1) ++ g.rdS n

/-- SPAWN waits for the group's earlier stores, and all that its core has taken in performs at part scope (R251, R257); then
its record is pushed, or its status says why not: 2 for a spool that takes none, 1 for a full one. The group waits while the
ring's page cannot be written. -/
def execSpawn (h : Hdr) (d a spool : BitVec 6) (s : State) :=
  onGroup (.spawn h d a spool) s fun s x =>
    let done := fun (s : State) (v : DWord) => Iss.finish { x with g := x.g.wrS d.toNat v } s
    if x.act = 0 then x.finish s
    else if x.g.pend.any fun o => o.path == .st then s
    else
    let s := s.flushWide x.t.core
    if !(s.partn x.t.part).pushable spool.toNat then done s 2
    else match s.push (teamTie x.t) spool.toNat [x.g.rdRecord a.toNat] with
      | .full => done s 1
      | .wait s => s
      | .done s => done s 0

def execLtrig (h : Hdr) (s : State) :=
  onGroup (.ltrig h) s fun s x => Iss.finish { x with g := { x.g with triggered := x.g.triggered ||| x.act } } s

/-! ### ICINV (R91) -/

/-- Blocks of a code table by their number: the range [first, first + count), or all of them for count 0. -/
def inBlocks (first count b : Nat) : Bool :=
  count == 0 || decide (first < b * 128 + 128 ∧ b * 128 < first + count)

/-- The key of an instruction block of a partition's code table. -/
def icKey (part slot block : Nat) : Nat := (part * 4096 + slot) * 2 ^ 32 + block

/-- Drop every copy of a range of blocks from a core's instruction cache. -/
def State.dropBlocks (s : State) (core part slot first count : Nat) : State :=
  let c := s.core core
  s.setCore core { c with icache := c.icache.filter fun e =>
    !(e.1 / 2 ^ 32 == part * 4096 + slot && inBlocks first count (e.1 % 2 ^ 32)) }

/-- The cores whose instruction caches a scope reaches. -/
def State.icCores (s : State) (part core : Nat) : Scope → List Nat
  | .grp | .team => [core]
  | .clu => (List.range 8).map fun i => core / 8 * 8 + i
  | .part => (s.partn part).coreList
  | .dev | .sys => List.range Config.cores

/-- ICINV issues once: the issuing core drops its copies, and until the other cores have acknowledged the group is not
ready. -/
def execIcinv (h : Hdr) (sc : Scope) (a b : BitVec 6) (s : State) :=
  onGroup (.icinv h sc a b) s fun s x =>
    if x.act = 0 then x.finish s
    else
        let first := fld (x.g.rdS a.toNat) 31 0
        let count := fld (x.g.rdS b.toNat) 31 0
        let (sc, cl) := clampScope (s.partn x.t.part) sc
        let g := if cl then { x.g with sf := x.g.sf ||| sfCLAMP } else x.g
        let s := s.dropBlocks x.t.core x.t.part (recCSlot x.t.record) first count
        let left := (s.icCores x.t.part x.t.core sc).filter fun c => c != x.t.core
        Iss.finish { x with g := { g with icReq := g.icReq ++ left.map fun c => (c, first, count) } } s

/-- A core acknowledges an ICINV: it has dropped its copies. -/
def execIcinvAcknowledge (r : GRef) (core : Nat) (s : State) : Host.Outcome State Fault Refusal :=
  match s.group r with
  | none => .next s
  | some (t, g) => match g.icReq.find? fun q => q.1 = core with
    | some q =>
      .next ((s.dropBlocks core t.part (recCSlot t.record) q.2.1 q.2.2).putGroup r { g with icReq := g.icReq.erase q })
    | none => .next s

end Sys2Proof.Machine
end

