-- ==== Sys2Proof/Machine/Fetch.lean ====
section
/-! DEFINITION. What a group needs before it issues (R92, R127, R156), fetching its instruction (R58, R90), and the
fates of code that is no instruction (R58, R65, R332). -/

namespace Sys2Proof.Machine

/-! ### Fetching (R58, R90) -/

/-- What a fetch finds. -/
inductive Fetched where
  | range (w0 : Option Word)              -- misaligned, or beyond the code table; the base word if it can be read
  | miss (va : Nat)                       -- not present
  | busy                                  -- the page is being moved
  | poison (key : DWord) (slot : Nat) (w0 : Option Word)   -- the base word if it can be read
  | got (w0 : Word) (d : Dec)

/-- Bytes of a code block as the core holds it, or from its place in memory. -/
def State.codeBytes (s : State) (t : Team) (tb : Table) (pc n : Nat) : List Byte :=
  let slot := recCSlot t.record
  match tget none (s.core t.core).icache (icKey t.part slot (pc / 128)) with
  | some b => sliceLine b (pc % 128) n
  | none => match (s.locate (some t.core) t.part slot tb pc).2 with
    | .ok k _ _ _ => s.rd k n
    | _ => []

/-- The base word at `pc`, which at an address that is no multiple of 4 may lie in two blocks. DESIGN CHOICE (log 66): where
its last bytes lie in a block on a page that is absent or being moved, no base word is read, and the code-range fault falls
without one. -/
def State.codeWord (s : State) (t : Team) (tb : Table) (pc : Nat) : Option Word :=
  let n := min 4 (128 - pc % 128)
  let bs := s.codeBytes t tb pc n ++ (if n < 4 then s.codeBytes t tb (pc + n) (4 - n) else [])
  if bs.length = 4 then some (BitVec.ofNat 32 (leNat bs)) else none

/-- Whether the core holds a copy of the block. -/
def State.codeHeld (s : State) (t : Team) (pc : Nat) : Bool :=
  (tget none (s.core t.core).icache (icKey t.part (recCSlot t.record) (pc / 128))).isSome

/-- The image size in bytes of a table. -/
def tBytes (tb : Table) : Nat := tCap tb * tWidth tb

/-- A fetch from memory uses its page: discards that are due are carried out, and the core caches the translation (R190,
R312). -/
def State.useCode (s : State) (t : Team) (pc : Nat) : State :=
  let slot := recCSlot t.record
  match s.table t.part slot with
  | none => s
  | some tb =>
    if s.codeHeld t pc then s else s.useFetch t.core t.part slot tb pc

/-- Fetch the instruction at `pc`: the length in the base word, the boundary test, then the range of the whole instruction
and the alignment of `pc` (R58). DESIGN CHOICE (log 66): where the page of the base word is not present the translation
fault comes before the code-range fault of an address that is no multiple of 4. -/
def State.fetch (s : State) (t : Team) (pc : Nat) : Fetched :=
  let s := s.useCode t pc
  let slot := recCSlot t.record
  match s.table t.part slot with
  | none => .range none
  | some tb =>
    if tBytes tb < pc + 4 then .range none
    else
      let walk := if s.codeHeld t pc then .ok 0 0 0 false else (s.locate (some t.core) t.part slot tb pc).2
      match walk with
      | .busy _ => .busy
      | .miss => .miss (tHeap tb + pc)
      | .ok k _ _ _ =>
        if !s.codeHeld t pc && s.readWaits t.part k then .busy
        else
        let bad := fun (n : Nat) => !s.codeHeld t pc && s.poisoned k n
        let key : DWord := keyAddr (tKType tb) (tLo tb + (pc / tWidth tb : Nat))
        match if bad 4 then none else s.codeWord t tb pc with
        | none => if pc % 4 ≠ 0 then .range none else .poison key slot none
        | some w0 =>
          let n := (lenOf w0).bytes
          if 128 < pc % 128 + n then .got w0 (.bad 1 (lenOf w0) none)
          else if pc % 4 ≠ 0 ∨ tBytes tb < pc + n then .range (some w0)
          else if bad n then .poison key slot (some w0)
          else .got w0 (decode (s.codeBytes t tb pc n))

/-! ### The fates of code that is no instruction -/

/-- An illegal encoding (R65, R66): the trap falls on the lanes of EM, or of the run mask. -/
def execUnassignedEncoding (sub : BitVec 8) (len : Len) (s : State) : Host.Outcome State Fault Refusal :=
  match s.curGroup with
  | none => .fault .noAgent
  | some (r, t, g) => .next (s.illegal r t g sub.toNat len)

/-- Whether the code table of a team is paged: only then does a missing page fault (R311, R315). -/
def State.codePaged (s : State) (t : Team) : Bool :=
  match s.table t.part (recCSlot t.record) with
  | some tb => tPaged tb
  | none => false

/-- The base word in a fault's record and NEXT: PC plus the length that the word gives; where none can be read zero, and PC
or, where an instruction issues again, what followed it (DEDUCED, log 9). -/
def Group.fetched (g : Group) (w0 : Option Word) : Word × Word :=
  match w0 with
  | some w => (w, g.pc + BitVec.ofNat 32 (lenOf w).bytes)
  | none => (0, g.goesTo g.pc)

/-- A code fetch that faults (R58, R311, R332), on the lanes for which the instruction issues (R98, R295). A missing page of
an unpaged code table is reported, and the group waits for a RESUME before it fetches again (R315). -/
def execCodeFetchFault (e : FetchErr) (s : State) : Host.Outcome State Fault Refusal :=
  match s.curGroup with
  | none => .fault .noAgent
  | some (r, t, g) =>
    let take := fun (w0 : Option Word) (nf rf : List (Nat × LaneFault)) =>
      let (insn, next) := g.fetched w0
      Host.Outcome.next (s.takeFaults r t { g with redo := none, pc := g.goesTo next } g.pc next insn none nf rf)
    let all := onLanes g.issueLanes
    let slot := recCSlot t.record
    match e with
    | .range =>
      let w0 := match s.fetch t g.pc.toNat with
        | .range w0 => w0
        | _ => none
      take w0 (all (mkFault 4 0 (g.pc.setWidth 64) 0)) []
    | .translation =>
      let va := match s.fetch t g.pc.toNat with
        | .miss va => va
        | _ => 0
      if s.codePaged t then take none [] (all (missFault 2 va slot))
      else .next ((s.putGroup r { g with wait := .xlate va }).teamReport t 7 0 10 slot 0 (BitVec.ofNat 64 va) [])
    | .poisoned => match s.fetch t g.pc.toNat with
      | .poison key slot w0 => take w0 (all (mkFault 0x10 0 key (mkAux slot 0))) []
      | _ => take none (all (mkFault 0x10 0 0 0)) []

/-! ### The register interlock (R127) -/

/-- The scalar register, predicate and cursor that an unfinished operation still writes. -/
def PKind.sDst : PKind → Option Nat
  | .grd _ d => some d
  | _ => none
def PKind.pDst : PKind → Option Nat
  | .gtry _ d _ => some d
  | _ => none
def PKind.cDst : PKind → Option Nat
  | .tnext _ _ cur => some cur
  | _ => none
/-- The key registers that TNEXT writes beside its rowref. -/
def PKind.kDst : PKind → Option (Nat × Nat)
  | .tnext w k _ => some (k, match w with | .k32 => 1 | .k64 => 2 | .k128 => 4)
  | _ => none

/-- Two ranges of registers meet. -/
def meets (a n b m : Nat) : Bool := decide (a < b + m ∧ b < a + n)

/-- Whether an unfinished operation still writes one of `n` vector registers from `a`. -/
def Pend.writesV (o : Pend) (a n : Nat) : Bool :=
  !o.fin && ((o.regs != 0 && o.lanes.any fun q => meets a n q.reg o.regs) ||
    (match o.kind.kDst with | some (k, m) => !o.lanes.isEmpty && meets a n k m | none => false))

/-- FETCH, whose conversion sets flags in NF as a lane completes (R170). -/
def PKind.isFetch : PKind → Bool
  | .fetch _ => true
  | _ => false

/-- Whether an unfinished operation still writes a predicate. -/
def Pend.writesP (o : Pend) (n : Nat) : Bool :=
  (o.kind.pDst == some n || o.pred == some n) && !o.fin

def Pend.writesS (o : Pend) (a n : Nat) : Bool :=
  match o.kind.sDst with | some d => !o.fin && meets a n d 1 | none => false
def Pend.writesC (o : Pend) (n : Nat) : Bool := o.kind.cDst == some n && !o.fin

/-- Whether an unfinished operation still writes an operand. An indexed operand is taken as the lane reaches it. -/
def Pend.writesUse (o : Pend) (g : Group) (u : Use) : Bool :=
  match u.cls with
  | .v => match u.op with
    | .reg n => o.writesV n.toNat u.cnt
    | .idx x off => (List.range 32).any fun l => o.writesV (g.idxReg x off l).1 1
  | .s => match u.op with
    | .reg n => o.writesS n.toNat u.cnt
    | .idx _ _ => false
  | .p => match u.op with
    | .reg n => o.writesP n.toNat
    | .idx _ _ => false
  | .c => match u.op with
    | .reg n => o.writesC n.toNat
    | .idx _ _ => false
  | _ => false

/-- Whether every earlier write to the registers of the instruction has been made. RGN reads all that it checkpoints
(DEDUCED, log 10), and MFSR and MTSR of NF find the flags of every earlier FETCH there (R125). -/
def State.interlock (s : State) (t : Team) (g : Group) (i : Instr) : Bool :=
  let us := Instr.uses i ++ s.keyUses t g i ++ [⟨.p, .reg ((Instr.guard i).1.setWidth 10), 1, 1, false⟩]
  let rgn := match i with | .rgn _ _ _ _ => true | _ => false
  let nf := match i with
    | .mfsr _ _ _ sr | .mtsr _ sr _ => sr == 11
    | _ => false
  g.pend.all fun o =>
    !(us.any fun u => o.writesUse g u) && !(nf && !o.fin && o.kind.isFetch) &&
      !(rgn && !o.fin && (o.kind.sDst.isSome || o.kind.pDst.isSome || o.kind.cDst.isSome || o.pred.isSome))

/-- The path on which an instruction raises its counter (R156). -/
def Instr.path : Instr → Option Path
  | .lds _ _ | .dld _ _ | .tld _ _ | .atoms _ _ _ | .tatom _ _ _ | .datom _ _ _ _ => some .ld
  | .sts _ _ | .dst _ _ | .tst _ _ => some .st
  | .tlk _ _ | .tins _ _ | .tups _ _ | .tdel _ _ | .tseek _ _ | .tnext _ _ _ _ _ _ | .tkey _ _ _ _ _ | .tcnt _ _
  | .tdrop _ _ => some .tb
  | .fetch _ _ => some .ft
  | .cpy _ _ _ _ _ _ _ | .gath _ _ _ _ _ _ _ _ | .coll _ _ _ _ | .cpyqf _ _ _ => some .cp
  | .mxstart _ _ _ | .mxrd _ _ _ _ _ | .mxwr _ _ _ _ _ | .mxdrain _ _ _ | .mxrest _ _ _ => some .mx
  | .nmc _ _ _ _ => some .nm
  | .gsig _ _ _ | .grd _ _ _ | .gtry _ _ _ _ => some .gt
  | _ => none

/-- Whether the counter of the instruction's path can take what the instruction adds: 0 where no lane takes part
(R156). -/
def Group.pathFree (g : Group) (i : Instr) : Bool :=
  match Instr.path i with
  | some p => decide (g.count p < 255) || g.takingPart i == 0
  | none => true

/-- Whether a group can issue at all: it runs, no core has still to acknowledge its ICINV (R91), and it does not stand where
its parks must be served first (R92). In trap mode a park of the whole group waits for the handler to end. While faults of
an operation wait for it to be over, only an instruction that issues again does so (log 18). -/
def Group.canIssue (g : Group) : Bool :=
  !g.halted && g.stop != .stopped && !g.ended && !g.serves && !g.atHead && g.run != 0 && g.icReq.isEmpty &&
    (match g.whole with
      | some w => if g.trap.isSome then !g.owes else w.resolved
      | none => g.redo.isSome || !g.owes)

/-- Whether a group waits for the RESUME of a page, for an access or for its fetch (R315). -/
def Group.awaits (g : Group) : Bool :=
  match g.wait with
  | .xlate _ => true
  | _ => false

/-- A group that parked as a whole issues again for the noted lanes once its translation is resolved (R295). -/
def Group.wake (g : Group) : Group :=
  match g.whole with
  | some w =>
    if w.resolved && g.trap.isNone then
      { g with whole := none, redo := some { noted := w.noted, next := w.park.next }, em := w.em, pc := w.park.pc }
    else g
  | none => g

end Sys2Proof.Machine
end

