-- ==== Sys2Proof/Machine/Integer.lean ====
section
/-! DEFINITION. Integer, move and special-register instructions (R131 to R141). -/

namespace Sys2Proof.Machine

/-! ### Arithmetic and logic (R131 to R135) -/

def iaddF (ty : ITy) (sat : Bool) (a b : DWord) : DWord × Word := intResult ty sat (ttoInt ty a + ttoInt ty b)
def isubF (ty : ITy) (sat : Bool) (a b : DWord) : DWord × Word := intResult ty sat (ttoInt ty a - ttoInt ty b)
def imulF (ty : ITy) (sat : Bool) (a b : DWord) : DWord × Word := intResult ty sat (ttoInt ty a * ttoInt ty b)
def imulhF (ty : ITy) (a b : DWord) : DWord × Word := (tofInt ty ((ttoInt ty a * ttoInt ty b) / 2 ^ ty.width), 0)
def imadF (ty : ITy) (sat : Bool) (a b c : DWord) : DWord × Word :=
  intResult ty sat (ttoInt ty a * ttoInt ty b + ttoInt ty c)
def iminF (ty : ITy) (a b : DWord) : DWord × Word := (if ttoInt ty a ≤ ttoInt ty b then a else b, 0)
def imaxF (ty : ITy) (a b : DWord) : DWord × Word := (if ttoInt ty a ≤ ttoInt ty b then b else a, 0)

/-- A shift count: the low 32 bits of source B (R131). -/
def shCount (b : DWord) : Nat := b.toNat % 2 ^ 32
def shlF (ty : ITy) (a b : DWord) : DWord × Word :=
  (if ty.width ≤ shCount b then 0 else low ty.width (a <<< shCount b), 0)
def shrF (ty : ITy) (a b : DWord) : DWord × Word := (if ty.width ≤ shCount b then 0 else a >>> shCount b, 0)
/-- The operand read as signed, whatever the type. -/
def asSigned (ty : ITy) (a : DWord) : Int := ttoInt (if ty.width = 32 then .s32 else .s64) a
def sarF (ty : ITy) (a b : DWord) : DWord × Word :=
  let n := if ty.width ≤ shCount b then ty.width else shCount b
  (tofInt ty (asSigned ty a / 2 ^ n), 0)

/-- BFE (R135). A bit at or above the width reads as 0, or as the sign for .s types. -/
def bfeF (ty : ITy) (a ctl : DWord) : DWord × Word :=
  let pos := ctl.toNat % 256
  let len0 := ctl.toNat / 256 % 256
  let len := if ty.width < len0 then ty.width else len0
  if len = 0 then (0, 0)
  else
    let n := (ttoInt ty a / 2 ^ pos) % 2 ^ len
    let v : Int := if ty.signed ∧ 2 ^ (len - 1) ≤ n then n - 2 ^ len else n
    (tofInt ty v, 0)

/-- BFI (R135). -/
def bfiF (ty : ITy) (a b ctl : DWord) : DWord × Word :=
  let pos := ctl.toNat % 256
  let len := ctl.toNat / 256 % 256
  let mask := BitVec.ofNat 64 (2 ^ ty.width - 1) &&& (BitVec.ofNat 64 ((2 ^ len - 1) * 2 ^ pos))
  let sh : DWord := if 64 ≤ pos then 0 else b <<< pos
  ((a &&& ~~~mask) ||| (sh &&& mask), 0)

def iabsF (ty : ITy) (sat : Bool) (a : DWord) : DWord × Word := intResult ty sat ((ttoInt ty a).natAbs : Int)
def notF (ty : ITy) (a : DWord) : DWord × Word := (low ty.width (~~~a), 0)

/-- The bits of a value, lowest first. -/
def bitsOf (w : Nat) (a : DWord) : List Bool := (List.range w).map fun i => a.getLsbD i
def popcF (ty : ITy) (a : DWord) : DWord × Word := (BitVec.ofNat 64 ((bitsOf ty.width a).filter id).length, 0)
def clzF (ty : ITy) (a : DWord) : DWord × Word :=
  (BitVec.ofNat 64 ((bitsOf ty.width a).reverse.takeWhile fun b => !b).length, 0)
def ofBits : List Bool → Nat
  | [] => 0
  | b :: r => (if b then 1 else 0) + 2 * ofBits r
def brevF (ty : ITy) (a : DWord) : DWord × Word := (BitVec.ofNat 64 (ofBits (bitsOf ty.width a).reverse), 0)

def execIadd (h : Hdr) (o : Alu) (s : State) := onLanesOp (.iadd h o) s fun x => x.alu o (iaddF o.ty o.sat)
def execIsub (h : Hdr) (o : Alu) (s : State) := onLanesOp (.isub h o) s fun x => x.alu o (isubF o.ty o.sat)
def execImul (h : Hdr) (o : Alu) (s : State) := onLanesOp (.imul h o) s fun x => x.alu o (imulF o.ty o.sat)
def execImulh (h : Hdr) (o : Alu) (s : State) := onLanesOp (.imulh h o) s fun x => x.alu o (imulhF o.ty)
def execImad (h : Hdr) (o : Alu) (c : VOp) (s : State) :=
  onLanesOp (.imad h o c) s fun x => x.alu3 o c (imadF o.ty o.sat)
def execImin (h : Hdr) (o : Alu) (s : State) := onLanesOp (.imin h o) s fun x => x.alu o (iminF o.ty)
def execImax (h : Hdr) (o : Alu) (s : State) := onLanesOp (.imax h o) s fun x => x.alu o (imaxF o.ty)
def execIabs (h : Hdr) (o : Alu1) (s : State) := onLanesOp (.iabs h o) s fun x => x.alu1 o (iabsF o.ty o.sat)
def execAnd (h : Hdr) (o : Alu) (s : State) := onLanesOp (.and h o) s fun x => x.alu o fun a b => (a &&& b, 0)
def execOr (h : Hdr) (o : Alu) (s : State) := onLanesOp (.or h o) s fun x => x.alu o fun a b => (a ||| b, 0)
def execXor (h : Hdr) (o : Alu) (s : State) := onLanesOp (.xor h o) s fun x => x.alu o fun a b => (a ^^^ b, 0)
def execNot (h : Hdr) (o : Alu1) (s : State) := onLanesOp (.not h o) s fun x => x.alu1 o (notF o.ty)
def execShl (h : Hdr) (o : Alu) (s : State) := onLanesOp (.shl h o) s fun x => x.alu o (shlF o.ty)
def execShr (h : Hdr) (o : Alu) (s : State) := onLanesOp (.shr h o) s fun x => x.alu o (shrF o.ty)
def execSar (h : Hdr) (o : Alu) (s : State) := onLanesOp (.sar h o) s fun x => x.alu o (sarF o.ty)
def execBfe (h : Hdr) (o : Alu) (s : State) := onLanesOp (.bfe h o) s fun x => x.alu o (bfeF o.ty)
def execBfi (h : Hdr) (o : Alu) (ctl : Ctl) (s : State) :=
  onLanesOp (.bfi h o ctl) s fun x =>
    match ctl with
    | .c c => x.alu3 o c (bfiF o.ty)
    | .imm w => x.alu o fun a b => bfiF o.ty a b (w.setWidth 64)
def execPopc (h : Hdr) (o : Alu1) (s : State) := onLanesOp (.popc h o) s fun x => x.alu1 o (popcF o.ty)
def execClz (h : Hdr) (o : Alu1) (s : State) := onLanesOp (.clz h o) s fun x => x.alu1 o (clzF o.ty)
def execBrev (h : Hdr) (o : Alu1) (s : State) := onLanesOp (.brev h o) s fun x => x.alu1 o (brevF o.ty)

/-- IADDC (R133): unsigned addition with a predicate carry in and out. -/
def execIaddc (h : Hdr) (w64 : Bool) (d a : VOp) (b : SrcB) (po : BitVec 3) (cie : Bool) (pi : BitVec 3) (s : State) :=
  onLanesOp (.iaddc h w64 d a b po cie pi) s fun x =>
    let ty : ITy := if w64 then .b64 else .b32
    let sum := fun l => (x.g.rdOp ty false a l).toNat + (x.g.rdB ty false b l).toNat +
      (if cie && (x.g.rdP pi.toNat).getLsbD l then 1 else 0)
    (x.g.wrLanes x.act d ty.regs fun l => sum l % 2 ^ ty.width).wrPOn po.toNat x.act
      (lanesWhere x.act fun l => decide (2 ^ ty.width ≤ sum l))

/-- The integer comparisons (R60, R136). -/
def icompare (c : Cmp) (a b : Int) : Bool :=
  match c with
  | .eq => decide (a = b)
  | .ne => decide (a ≠ b)
  | .lt => decide (a < b)
  | .le => decide (a ≤ b)
  | .gt => decide (b < a)
  | .ge => decide (b ≤ a)
  | .num => true
  | .nan => false

def execIset (h : Hdr) (cmp : Cmp) (ty : ITy) (d : BitVec 3) (a : VOp) (b : SrcB) (s : State) :=
  onLanesOp (.iset h cmp ty d a b) s fun x =>
    x.pred d fun l => (icompare cmp (ttoInt ty (x.g.rdOp ty false a l)) (ttoInt ty (x.g.rdB ty false b l)), 0)

/-- SEL (R137). -/
def execSel (h : Hdr) (ty : ITy) (d a : VOp) (b : SrcB) (pc : BitVec 3) (inv : Bool) (s : State) :=
  onLanesOp (.sel h ty d a b pc inv) s fun x =>
    x.g.wrLanes x.act d ty.regs fun l =>
      (if xor ((x.g.rdP pc.toNat).getLsbD l) inv then x.g.rdOp ty false a l else x.g.rdB ty false b l).toNat

/-! ### Moves and index registers (R138, R139) -/

/-- The immediate of MOV as a 64-bit value: sign-extended from IMM32 with W64, else as carried. -/
def movImm (h : Hdr) (w64 : Bool) (raw : DWord) : DWord :=
  if w64 && !h.len.isLit then (raw.setWidth 32 : Word).signExtend 64 else raw

def execMov (h : Hdr) (w64 : Bool) (f : MovForm) (s : State) :=
  onLanesOp (.mov h w64 f) s fun x =>
    let g := x.g
    let k := if w64 then 2 else 1
    let any := x.act != 0
    match f with
    | .vv d a => g.wrLanes x.act (.reg d) k fun l => g.rdN a.toNat l k
    | .vs d a => g.wrLanes x.act (.reg d) k fun _ => (g.rdS a.toNat).toNat
    | .vi d raw => g.wrLanes x.act (.reg d) k fun _ => (movImm h w64 raw).toNat
    | .ss d a => if any then g.wrS d.toNat (low (32 * k) (g.rdS a.toNat)) else g
    | .si d raw => if any then g.wrS d.toNat (movImm h w64 raw) else g
    | .first d a => match laneList x.act with
      | l :: _ => g.wrS d.toNat (BitVec.ofNat 64 (g.rdN a.toNat l k))
      | [] => g

/-- Write an index register in the lanes that take part. -/
def Iss.wrXs (x : Iss) (d : BitVec 3) (f : Nat → Word) : Group :=
  (laneList x.act).foldl (fun h l => h.wrX d.toNat l (f l)) x.g

/-- IDX replaced, BASE and LEN kept. -/
def withIdx (w : Word) (i : Nat) : Word := setFld w 9 0 i

def execMtx (h : Hdr) (d : BitVec 3) (a : VOp) (s : State) :=
  onLanesOp (.mtx h d a) s fun x => x.wrXs d fun l => x.g.rdV (x.g.reg a l) l
def execMtxIdx (h : Hdr) (d : BitVec 3) (a : VOp) (s : State) :=
  onLanesOp (.mtxIdx h d a) s fun x =>
    x.wrXs d fun l => withIdx (x.g.rdX d.toNat l) ((x.g.rdV (x.g.reg a l) l).toNat % 1024)
def execMtxAdd (h : Hdr) (d : BitVec 3) (imm : BitVec 6) (s : State) :=
  onLanesOp (.mtxAdd h d imm) s fun x =>
    x.wrXs d fun l =>
      let w := x.g.rdX d.toNat l
      withIdx w (((fld w 9 0 : Int) + imm.toInt) % 1024).toNat

/-! ### Special registers (R140, R141) -/

/-- WALL: the reference clock plus the partition's offset (R320). -/
def State.wall (s : State) (part : Nat) : DWord := BitVec.ofNat 64 s.refNs + (s.partn part).walloff

/-- The value of a special register (R140). -/
def State.readSr (s : State) (t : Team) (grp : Nat) (g : Group) (sr l : Nat) : DWord :=
  match sr with
  | 0 => g.em.setWidth 64
  | 1 => BitVec.ofNat 64 l
  | 2 => BitVec.ofNat 64 grp
  | 3 => BitVec.ofNat 64 t.teamId
  | 4 => BitVec.ofNat 64 (recTeams t.record + 1)
  | 5 => BitVec.ofNat 64 t.gangSz
  | 6 => BitVec.ofNat 64 t.gangIdx
  | 7 => if grp < shP t.shape then 0 else 1
  | 8 => BitVec.ofNat 64 t.part
  | 9 => (s.partn t.part).timeval
  | 10 => s.wall t.part
  | 11 => g.nf.setWidth 64
  | 12 => g.sf
  | 13 => g.trapPC.setWidth 64
  | 14 => g.trapCause.setWidth 64
  | 15 => g.trapInfo.setWidth 64
  | 16 => g.trapAddr
  | _ => 0

/-- MFSR (R140). The scalar form acts whatever EM holds. -/
def execMfsr (h : Hdr) (out : SrDst) (d : BitVec 10) (sr : BitVec 6) (s : State) :=
  onGroup (.mfsr h out d sr) s fun s x =>
    let v := fun l => (s.readSr x.t x.r.grp x.g sr.toNat l).toNat
    let g := match out with
      | .v => x.g.wrLanes x.act (.reg d) 1 v
      | .pair => x.g.wrLanes x.act (.reg d) 2 v
      | .s => x.g.wrS d.toNat (BitVec.ofNat 64 (v 0))
    Iss.finish { x with g := g } s

/-- MTSR (R141). It acts even when EM is 0; a 1 in a reserved bit of NF or SF takes the special-register fault on the
lanes of the run mask. -/
def execMtsr (len : Len) (sr : BitVec 6) (a : BitVec 10) (s : State) :=
  onGroup (.mtsr len sr a) s fun s x =>
    let v := x.g.rdS a.toNat
    let w : Word := v.setWidth 32
    let bad := (sr.toNat == 11 && (w &&& ~~~nfW1C) != 0) || (sr.toNat == 12 && (v &&& sfRsv) != 0)
    if bad then x.failOn s x.g.run (mkFault 6 sr.toNat v 0)
    else
      let g := match sr.toNat with
        | 0 => { x.g with em := w &&& x.g.run }
        | 11 => { x.g with nf := clearBits x.g.nf w }
        | 12 => { x.g with sf := clearBits x.g.sf (v &&& sfW1C) }
        | 13 => { x.g with trapPC := w }
        | 14 => { x.g with trapCause := w }
        | 15 => { x.g with trapInfo := w }
        | 16 => { x.g with trapAddr := v }
        | _ => x.g
      Iss.finish { x with g := g } s

end Sys2Proof.Machine
end

