-- ==== Sys2Proof/Machine/FloatOps.lean ====
section
/-! DEFINITION. Floating-point, conversion and packing instructions (R136, R142 to R147). -/

namespace Sys2Proof.Machine

/-- Source values of a lane as FP32 bits. -/
def Iss.fa (x : Iss) (a : VOp) (l : Nat) : Nat := (x.g.rdV (x.g.reg a l) l).toNat
def Iss.fb (x : Iss) (b : SrcB) (l : Nat) : Nat := (x.g.rdB .b32 false b l).toNat % 2 ^ 32

/-- A two-source FP32 operation. -/
def Iss.fp2 (x : Iss) (o : Fpu) (f : FV → FV → Nat × Word) : Group :=
  x.lanes32 o.d fun l => f (fdec .f32 (x.fa o.a l)) (fdec .f32 (x.fb o.b l))

/-- Both BF16 elements of a pair (R113, R145): each rounded once, the flags ORed. -/
def pairOp (f : Nat → Nat × Word) : Nat × Word :=
  let r0 := f 0
  let r1 := f 1
  (r0.1 + 65536 * r1.1, r0.2 ||| r1.2)
def half (v e : Nat) : FV := fdec .bf16 (v / 65536 ^ e % 65536)

def execFadd (h : Hdr) (o : Fpu) (s : State) := onLanesOp (.fadd h o) s fun x => x.fp2 o (fadd .f32 o.mode o.sat)
def execFsub (h : Hdr) (o : Fpu) (s : State) :=
  onLanesOp (.fsub h o) s fun x => x.fp2 o fun a b => fadd .f32 o.mode o.sat a b.flip
def execFmul (h : Hdr) (o : Fpu) (s : State) := onLanesOp (.fmul h o) s fun x => x.fp2 o (fmul .f32 o.mode o.sat)
def execFfma (h : Hdr) (o : Fpu) (c : VOp) (s : State) :=
  onLanesOp (.ffma h o c) s fun x =>
    x.lanes32 o.d fun l =>
      ffma .f32 o.mode o.sat (fdec .f32 (x.fa o.a l)) (fdec .f32 (x.fb o.b l)) (fdec .f32 (x.fa c l))
def execFmin (h : Hdr) (d a : VOp) (b : SrcB) (s : State) :=
  onLanesOp (.fmin h d a b) s fun x => x.lanes32 d fun l => fminmax .f32 false (x.fa a l) (x.fb b l)
def execFmax (h : Hdr) (d a : VOp) (b : SrcB) (s : State) :=
  onLanesOp (.fmax h d a b) s fun x => x.lanes32 d fun l => fminmax .f32 true (x.fa a l) (x.fb b l)
def execFset (h : Hdr) (cmp : Cmp) (d : BitVec 3) (a : VOp) (b : SrcB) (s : State) :=
  onLanesOp (.fset h cmp d a b) s fun x => x.pred d fun l => fcompare cmp (x.fa a l) (x.fb b l)

def execFrcp (h : Hdr) (o : Fpu1) (s : State) :=
  onLanesOp (.frcp h o) s fun x => x.lanes32 o.d fun l => frcp o.mode (x.fa o.a l)
def execFsqrt (h : Hdr) (o : Fpu1) (s : State) :=
  onLanesOp (.fsqrt h o) s fun x => x.lanes32 o.d fun l => fsqrt o.mode (x.fa o.a l)
def execFrsq (h : Hdr) (d a : VOp) (s : State) :=
  onLanesOp (.frsq h d a) s fun x => x.lanes32 d fun l => frsq (x.fa a l)
def execFexp2 (h : Hdr) (d a : VOp) (s : State) :=
  onLanesOp (.fexp2 h d a) s fun x => x.lanes32 d fun l => fexp2 (x.fa a l)
def execFlog2 (h : Hdr) (d a : VOp) (s : State) :=
  onLanesOp (.flog2 h d a) s fun x => x.lanes32 d fun l => flog2 (x.fa a l)
def execFsin (h : Hdr) (d a : VOp) (s : State) :=
  onLanesOp (.fsin h d a) s fun x => x.lanes32 d fun l => fsincos false (x.fa a l)
def execFcos (h : Hdr) (d a : VOp) (s : State) :=
  onLanesOp (.fcos h d a) s fun x => x.lanes32 d fun l => fsincos true (x.fa a l)
def execFtanh (h : Hdr) (d a : VOp) (s : State) :=
  onLanesOp (.ftanh h d a) s fun x => x.lanes32 d fun l => ftanh (x.fa a l)
def execFsigm (h : Hdr) (d a : VOp) (s : State) :=
  onLanesOp (.fsigm h d a) s fun x => x.lanes32 d fun l => fsigm (x.fa a l)

def execPfadd (h : Hdr) (o : Fpu) (s : State) :=
  onLanesOp (.pfadd h o) s fun x =>
    x.lanes32 o.d fun l => pairOp fun e => fadd .bf16 o.mode o.sat (half (x.fa o.a l) e) (half (x.fb o.b l) e)
def execPfmul (h : Hdr) (o : Fpu) (s : State) :=
  onLanesOp (.pfmul h o) s fun x =>
    x.lanes32 o.d fun l => pairOp fun e => fmul .bf16 o.mode o.sat (half (x.fa o.a l) e) (half (x.fb o.b l) e)
def execPffma (h : Hdr) (o : Fpu) (c : VOp) (s : State) :=
  onLanesOp (.pffma h o c) s fun x =>
    x.lanes32 o.d fun l => pairOp fun e =>
      ffma .bf16 o.mode o.sat (half (x.fa o.a l) e) (half (x.fb o.b l) e) (half (x.fa c l) e)

/-- The source element of CVT (R146): element `el` of the register, or the whole register or pair. -/
def cvtSource (st : Fmt) (el : BitVec 2) (v : Nat) : DWord :=
  match st with
  | .bf16 => BitVec.ofNat 64 (v / 65536 ^ el.toNat % 65536)
  | .e4m3 | .e5m2 => BitVec.ofNat 64 (v / 256 ^ el.toNat % 256)
  | _ => BitVec.ofNat 64 v

def execCvt (h : Hdr) (dt st : Fmt) (el : BitVec 2) (mode : RMode) (sat : Bool) (d a : VOp) (s : State) :=
  onLanesOp (.cvt h dt st el mode sat d a) s fun x =>
    let res := fun l => convert dt st mode sat (cvtSource st el (x.g.rdN (x.g.reg a l) l st.regs))
    (x.g.wrLanes x.act d dt.regs fun l => (res l).1.toNat).orNF (flagsOver x.act fun l => (res l).2)

/-- PACK (R147): FP8 pairs replace one half of the destination. -/
def execPack (h : Hdr) (hi : Bool) (fmt : Fmt) (mode : RMode) (sat : Bool) (d a b : VOp) (s : State) :=
  onLanesOp (.pack h hi fmt mode sat d a b) s fun x =>
    x.lanes32 d fun l =>
      let ra := fconv fmt .f32 mode sat (x.fa a l)
      let rb := fconv fmt .f32 mode sat (x.fa b l)
      let old := x.fa d l
      let fl := ra.2 ||| rb.2
      if fmt = .bf16 then (rb.1 * 65536 + ra.1, fl)
      else if hi then ((rb.1 * 256 + ra.1) * 65536 + old % 65536, fl)
      else (old / 65536 * 65536 + rb.1 * 256 + ra.1, fl)

end Sys2Proof.Machine
end

