-- ==== Sys2Proof/Machine/Access.lean ====
section
/-! DEFINITION. The points of the ordering machine (R246 to R252, R263, R265), and what an access does when it issues:
checks, translation and its place in the path queue (R156, R171, R309 to R315). -/

namespace Sys2Proof.Machine

/-! ### The team point: L1 copies and outbound writes (R250, R251) -/

/-- A line as a core's outbound writes leave it. -/
def overlay (line : Nat) (v : BitVec 1024) (ws : List OutW) : BitVec 1024 :=
  ws.foldl (fun v w => if lineOf w.addr = line then patchLine v (w.addr % 128) w.bytes else v) v

/-- The value that an L1 fill takes (R250, R265): the cluster point's if it holds the line, else the home point's,
under the core's outbound writes. -/
def State.fillValue (s : State) (core line : Nat) : BitVec 1024 :=
  let base := match (s.cluster (core / 8)).line line with
    | some h => h.data
    | none => s.lineBits line
  overlay line base (s.core core).outb

def State.setL1 (s : State) (core line : Nat) (v : Option (BitVec 1024)) : State :=
  let c := s.core core
  s.setCore core { c with l1 := tset none c.l1 line v }

/-- An L1 copy is filled (R250); a full cache of 1,024 lines drops one first (R153; DESIGN CHOICE, log 39). -/
def State.newL1 (s : State) (core line : Nat) : State :=
  let l1 := (s.core core).l1.filter fun e => e.1 != line
  let s := match l1 with
    | e :: _ => if l1.length < 1024 then s else s.setL1 core e.1 none
    | [] => s
  s.setL1 core line (some (s.fillValue core line))

/-- Fill an L1 copy if none is present. -/
def State.fillL1 (s : State) (core line : Nat) : State :=
  match tget none (s.core core).l1 line with
  | some _ => s
  | none => s.newL1 core line

/-- The machine may fill a copy at any time (R250), from a window once no earlier write of the streams stands before the
read; the lines of a peer it does not fetch unasked. -/
def State.anyFill (s : State) (core line : Nat) : State :=
  if isPeer (128 * line) || (isWindow (128 * line) && s.posted.any fun w => decide (streamOf w.addr = streamOf (128 * line)))
  then s else s.newL1 core line

/-- A store updates the L1 copy, if one is present. -/
def State.patchL1 (s : State) (core key : Nat) (bs : List Byte) : State :=
  match tget none (s.core core).l1 (lineOf key) with
  | some v => s.setL1 core (lineOf key) (some (patchLine v (key % 128) bs))
  | none => s

/-! ### Loads and stores at their points (R247, R252) -/

/-- Before a lane's wider load, the team's outbound writes of the line move home: its own earlier ones (R171), and those
that it may have acquired at a narrower scope (R256). -/
def State.ownHome (s : State) (core line : Nat) (who : Nat × Nat × Nat) : State :=
  if (s.core core).outb.any fun w => decide (lineOf w.addr = line ∧ w.who.1 = who.1) then
    s.moveWhere core fun w => decide (lineOf w.addr = line)
  else s

/-- Before a lane's load of scope part or wider, the cluster point writes back a line that holds writes of its team, or
writes that its team may have acquired (R256). -/
def State.ownBack (s : State) (core line : Nat) (who : Nat × Nat × Nat) : State :=
  match (s.cluster (core / 8)).line line with
  | some h => if (h.own.any fun w => w.1 == who.1) || h.got.contains who.1 then s.writeBack (core / 8) h false else s
  | none => s

/-- A load of scope clu or wider may be one that acquires: its team may have acquired whatever writes the lines of its
cluster point hold then (R256). -/
def State.mayAcquire (s : State) (core team : Nat) : State :=
  let cl := s.cluster (core / 8)
  s.setCluster (core / 8) { cl with hot := cl.hot.map fun h =>
    if h.own.isEmpty then h else { h with got := ninsert team h.got } }

/-- What precedes a lane's load of a line, by its scope. -/
def State.beforeLoad (s : State) (sc : Scope) (core line : Nat) (who : Nat × Nat × Nat) : State :=
  match sc with
  | .grp | .team => s
  | .clu => s.ownHome core line who
  | .part | .dev | .sys => (s.ownHome core line who).ownBack core line who

/-- A load at its point. -/
def State.loadAt (s : State) (sc : Scope) (core : Nat) (who : Nat × Nat × Nat) (key n : Nat) : State × List Byte :=
  let line := lineOf key
  let s := s.beforeLoad sc core line who
  let wide := s.mayAcquire core who.1
  match sc with
  | .grp | .team =>
    let s := s.fillL1 core line
    (s, match tget none (s.core core).l1 line with
      | some v => sliceLine v (key % 128) n
      | none => [])
  | .clu =>
    match (s.cluster (core / 8)).line line with
    | some h => (wide, sliceLine h.data (key % 128) n)
    | none => (wide, s.rd key n)
  | .part | .dev | .sys => (wide, s.rd key n)

/-- The single-copy-atomic pieces of a store (R160): the halves of a .b128 store move one by one. -/
def storePieces (key : Nat) (bs : List Byte) : List (Nat × List Byte) :=
  if bs.length = 16 then [(key, bs.take 8), (key + 8, bs.drop 8)] else [(key, bs)]

/-- A store at its point, through the page-table entry `leaf`, in which D is set first (R310); `half` says that it is one
half of a .b128 store. -/
def State.storeAt (s : State) (sc : Scope) (core part va : Nat) (leaf : Option Nat) (who : Nat × Nat × Nat) (key : Nat)
    (bs : List Byte) (half : Bool) : State :=
  let ws := (storePieces key bs).map fun p =>
    ({ addr := p.1, bytes := p.2, who := who, part := part, va := va, half := half || bs.length == 16 } : OutW)
  let s := s.setD leaf
  (match sc with
    | .grp | .team =>
      let c := s.core core
      s.setCore core { c with outb := c.outb ++ ws }
    | .clu => ws.foldl (fun s w => s.landWrite core w) (s.flush core)
    | .part | .dev | .sys => ws.foldl (fun s (w : OutW) => s.homeWrite part va w.addr w.bytes) (s.flushWide core)).patchL1 core key bs

/-! ### Atomics (R262 to R267) -/

/-- The new value of an atomic; none where a compare-and-swap fails. Floating-point forms set no flag. -/
def atomicNew (op : AOp) (ty : ITy) (old b c : DWord) : Option DWord :=
  match op with
  | .add => some (tofInt ty (ttoInt ty old + ttoInt ty b))
  | .min => some (iminF ty old b).1
  | .max => some (imaxF ty old b).1
  | .and => some (old &&& b)
  | .or => some (old ||| b)
  | .xor => some (old ^^^ b)
  | .exch => some b
  | .cas => if old = b then some c else none
  | .fadd => some (BitVec.ofNat 64 (fadd .f32 .rn false (fdec .f32 old.toNat) (fdec .f32 b.toNat)).1)
  | .pbfadd =>
    some (BitVec.ofNat 64 (pairOp fun e => fadd .bf16 .rn false (half old.toNat e) (half b.toNat e)).1)

/-- The cluster atomic engine takes a line (R252, R263): another cluster writes it back and drops it, and a full store
evicts the line used least recently. -/
def State.takeLine (s : State) (cl line part va : Nat) : State :=
  match (s.cluster cl).line line with
  | some h =>
    let c := s.cluster cl
    s.setCluster cl { c with hot := h :: c.hot.filter fun x => x.line != line }
  | none =>
    let s := s.recall line
    let s := if (s.cluster cl).hot.length < 256 then s
      else match (s.cluster cl).hot.getLast? with
        | some h => s.writeBack cl h true
        | none => s
    let c := s.cluster cl
    s.setCluster cl { c with hot := { line := line, data := s.lineBits line, own := [], got := [], part := part, va := va } :: c.hot }

/-- A team or clu atomic at the cluster point: the old value. The core's L1 copy shows what the line then holds, where a
compare-and-swap fails too, so that no later load finds an older value than the atomic did (R253, R265). -/
def State.atomicAtCluster (s : State) (core part va : Nat) (leaf : Option Nat) (who : Nat × Nat × Nat) (op : AOp)
    (ty : ITy) (wide : Bool) (key : Nat) (b c : DWord) : State × DWord :=
  let n := ty.width / 8
  let line := lineOf key
  let s := if wide then (s.flush core).mayAcquire core who.1 else s.moveWhere core fun w => decide (lineOf w.addr = line)
  let s := s.takeLine (core / 8) line part va
  match (s.cluster (core / 8)).line line with
  | none => (s, 0)
  | some h =>
    let old := BitVec.ofNat 64 (leNat (sliceLine h.data (key % 128) n))
    match atomicNew op ty old b c with
    | none => (s.patchL1 core key (natBytes old.toNat n), old)
    | some new =>
      let bs := natBytes new.toNat n
      let cl := s.cluster (core / 8)
      let h' := { h with data := patchLine h.data (key % 128) bs, own := h.own ++ [who], part := part, va := va }
      (((s.setCluster (core / 8) { cl with hot := h' :: cl.hot.filter fun x => x.line != line }).setD leaf).patchL1
        core key bs, old)

/-- A part atomic at the home L2 slice. -/
def State.atomicAtHome (s : State) (core part va : Nat) (leaf : Option Nat) (op : AOp) (ty : ITy) (key : Nat)
    (b c : DWord) : State × DWord :=
  let n := ty.width / 8
  let s := (s.flushWide core).recall (lineOf key)
  let old := BitVec.ofNat 64 (s.rdNat key n)
  match atomicNew op ty old b c with
  | none => (s.patchL1 core key (natBytes old.toNat n), old)
  | some new =>
    (((s.setD leaf).homeWrite part va key (natBytes new.toNat n)).patchL1 core key (natBytes new.toNat n), old)

/-! ### Placing an access -/

/-- Where a lane's bytes lie, or why they do not answer. -/
inductive Place where
  | at (key va : Nat) (leaf : Option Nat)
  | away (va : Nat)        -- the replayable translation fault
  | error (va : Nat)       -- R315: reported, and the access waits
  | busy
  | noRight                -- a read-only window (R338)

/-- Place byte `off` of a table's image for an access of a core: 0 load, 1 store, 2 fetch, 3 atomic (R311, R315, R338).
DESIGN CHOICE (log 51): a write to a page with W = 0 takes the translation fault of R311 whatever the table. -/
def State.place (s : State) (core part slot : Nat) (t : Table) (off acc : Nat) : Place :=
  let wr := acc == 1 || acc == 3
  match (s.partn part).windowOf slot with
  | some w => if wr && fbit w 4 then .noRight else .at (windowKey w off) 0 none
  | none =>
    let va := tHeap t + off
    match s.translate core part va with
    | .ok k leaf _ w => if wr && !w then .away va else .at k va (some leaf)
    | .miss => if tPaged t then .away va else .error va
    | .busy _ => .busy

/-- One access of one lane before it is placed: table slot, table, image offset and the request. -/
abbrev Want := Nat × Table × Nat × LaneReq

/-- What stalls an access as a whole. -/
inductive Stall where
  | none | busy | error (va slot : Nat)

structure Acc where
  x     : Iss
  reqs  : List LaneReq
  stall : Stall

/-- Place every request of a lane, or fault the lane. -/
def State.placeLane (s : State) (acc l : Nat) (a : Acc) : List Want → List LaneReq → Acc
  | [], done => { a with reqs := a.reqs ++ done }
  | (slot, t, off, q) :: rest, done =>
    if q.zero then s.placeLane acc l a rest (done ++ [q])
    else match s.place a.x.t.core a.x.t.part slot t off acc with
      | .at key va leaf => s.placeLane acc l a rest (done ++ [{ q with addr := key, va := va, leaf := leaf }])
      | .away va => { a with x := a.x.replay l (missFault acc va slot) }
      | .error va => { a with stall := .error va slot }
      | .busy => { a with stall := .busy }
      | .noRight => { a with x := a.x.fault l (mkFault 0x0D 0 q.key (mkAux slot 0)) }

/-- Collect the requests of every lane that takes part; `f` checks a lane. -/
def State.collect (s : State) (x : Iss) (acc : Nat) (f : Nat → LaneFault ⊕ List Want) : Acc :=
  (laneList x.act).foldl
    (fun a l => match f l with
      | .inl e => { a with x := a.x.fault l e }
      | .inr ws => s.placeLane acc l a ws [])
    { x := x, reqs := [], stall := .none }

/-- The pages that an access uses. -/
def State.touch (s : State) (core part : Nat) (qs : List LaneReq) : State :=
  qs.foldl (fun s q => if q.zero || isWindow q.addr then s else s.usePage (some core) part q.va) s

/-- A lane's request with nothing in it. -/
def mkReq (lane : Nat) : LaneReq :=
  { lane := lane, addr := 0, va := 0, leaf := none, reg := 0, data := 0, dat2 := 0, key := 0, lo := 0, hi := 0, zero := false,
    half := none }

/-- An operation of an issue; its id is given when it joins the queue. -/
def Iss.op (x : Iss) (kind : PKind) (path : Path) (sc : Scope) (slot size regs : Nat) : Pend :=
  { id := 0, kind := kind, path := path, scope := sc, pc := x.g.pc, next := x.next, insn := x.g.insn, slot := slot,
    size := size, regs := regs, pred := none, byRef := false, quiet := false, lanes := [], faults := [],
    fin := false }

/-- The operation joins its path queue, which raises the counter if a lane takes part (R156); with nothing left to do it
is finished. -/
def Iss.enqueue (x : Iss) (o : Pend) (qs : List LaneReq) : Group :=
  if x.g.takingPart x.i = 0 then x.g else (x.g.addPend { o with lanes := qs, fin := qs.isEmpty }).settle

/-- A fault of the whole instruction; its counter is raised and the operation has finished. -/
def Iss.failOp (x : Iss) (s : State) (o : Pend) (f : LaneFault) : State :=
  Iss.fail { x with g := x.enqueue o [] } s f

/-- Issue an access: it waits while a page is being moved or is missing from an unpaged table (R311, R315); else its
requests join the path queue. -/
def Acc.launch (a : Acc) (s : State) (o : Pend) : State :=
  match a.x.g.wait with
  | .xlate _ => s
  | _ =>
    match a.stall with
    | .busy => s
    | .error va slot =>
      (s.putGroup a.x.r { a.x.g with wait := .xlate va }).teamReport a.x.t 7 0 10 slot 0 (BitVec.ofNat 64 va) []
    | .none =>
      Iss.finish { a.x with g := a.x.enqueue o a.reqs } (s.touch a.x.t.core a.x.t.part a.reqs)

/-! ### Checks of table accesses (R38, R42, R44, R168, R169) -/

/-- Check a rowref by R42 steps 1 and 2. -/
def State.rowref (s : State) (part : Nat) (rr : DWord) : LaneFault ⊕ (Nat × Table × Nat) :=
  let slot := fld rr 63 52
  match s.table part slot with
  | none => .inl (mkFault 0x0B 0 rr 0)
  | some t =>
    if tCap t ≤ fld rr 51 16 then .inl (mkFault 0x0A 0 rr 0) else .inr (slot, t, fld rr 51 16)

/-- Whether a rowref is current (R42 step 3). -/
def rowCurrent (t : Table) (rr : DWord) : Bool := decide (tGen t (fld rr 51 16) = BitVec.ofNat 16 (fld rr 15 0))

/-- A dense access: its row slot, or the fault (R168). `right` is whether the table grants the access. -/
def denseCheck (slot : Nat) (t : Table) (right : Bool) (k : Int) (off size : Nat) : LaneFault ⊕ Nat :=
  let key := keyAddr (tKType t) k
  if tKind t != 0 then .inl (mkFault 0x0C 0 key (mkAux slot 0))
  else if !right then .inl (mkFault 0x0D 0 key (mkAux slot 0))
  else if off % size != 0 then .inl (mkFault 7 0 (BitVec.ofNat 64 off) 0)
  else if k < tLo t ∨ tLo t + tCap t ≤ k ∨ tWidth t < off + size then .inl (mkFault 8 0 key (mkAux slot off))
  else .inr (k - tLo t).toNat

/-- A row access by rowref (R169). -/
def State.rowCheck (s : State) (part : Nat) (rr : DWord) (wr : Bool) (off size : Nat) :
    LaneFault ⊕ (Nat × Table × Nat) :=
  match s.rowref part rr with
  | .inl f => .inl f
  | .inr (slot, t, row) =>
    if !(if wr then tWrite t else tRead t) then .inl (mkFault 0x0D 0 rr (mkAux slot 0))
    else if off % size != 0 then .inl (mkFault 7 0 (BitVec.ofNat 64 off) 0)
    else if tWidth t < off + size then .inl (mkFault 9 0 rr (BitVec.ofNat 32 off))
    else .inr (slot, t, row)

/-- The stale-row record of R181. -/
def Partition.noteStale (p : Partition) (rr : DWord) (wr : Bool) : Partition :=
  if fbit p.stalestat 0 then { p with stalestat := p.stalestat ||| 2 }
  else { p with stalestat := (p.stalestat &&& ~~~16) ||| 1 ||| (if wr then 16 else 0), staleref := rr }
def State.noteStale (s : State) (part : Nat) (rr : DWord) (wr : Bool) : State :=
  s.setPartn part ((s.partn part).noteStale rr wr)

/-! ### Scratchpad (R162) -/

/-- Record an out-of-range lane access in SF. -/
def Group.recordOor (g : Group) (a : Nat) : Group :=
  if fbit g.sf 0 then { g with sf := g.sf ||| sfSPMULTI }
  else { g with sf := (g.sf &&& 0xFFFFFFFF) ||| sfSPOOR ||| (BitVec.ofNat 64 a <<< 32) }

def Team.spRead (t : Team) (a n : Nat) : List Byte := tgets 0 t.scratch a n
def Team.spWrite (t : Team) (a : Nat) (bs : List Byte) : Team := { t with scratch := tsets 0 t.scratch a bs }

/-- The base of a scratchpad address in one lane. -/
def Group.spBase (g : Group) (b : SpBase) (l : Nat) : Nat :=
  match b with
  | .vec o => (g.rdV (g.reg o l) l).toNat
  | .sca n => fld (g.rdS n.toNat) 31 0
  | .none => 0

/-- Check the scratchpad address of every lane that takes part, in ascending lane order: an alignment fault, a recorded
access out of range, or a request that `f` makes. -/
def Iss.spLanes (x : Iss) (size : Nat) (addr : Nat → Nat) (keep : Bool) (f : Nat → LaneReq) : Acc :=
  (laneList x.act).foldl
    (fun a l =>
      let ad := addr l
      if ad % size != 0 then { a with x := a.x.fault l (mkFault 7 0 (BitVec.ofNat 64 ad) 0) }
      else if a.x.t.alloc < ad + size then
        let x := { a.x with g := a.x.g.recordOor ad }
        if keep then { a with x := x, reqs := a.reqs ++ [{ f l with zero := true }] } else { a with x := x }
      else { a with reqs := a.reqs ++ [{ f l with addr := ad }] })
    { x := x, reqs := [], stall := .none }

/-- Issue a scratchpad access. -/
def Acc.launchSp (a : Acc) (s : State) (o : Pend) : State :=
  Iss.finish { a.x with g := a.x.enqueue o a.reqs } s

/-- The scope of an access after the clamp (R248), and the group with SF.CLAMP (R155). DESIGN CHOICE (log 74): the flag is
set where a lane takes part and has passed the checks that come before the scope is looked at. -/
def State.clamp (s : State) (x : Iss) (sc : Scope) : Scope × Iss :=
  let r := clampScope (s.partn x.t.part) sc
  (r.1, if r.2 && x.act != 0 then { x with g := { x.g with sf := x.g.sf ||| sfCLAMP } } else x)

end Sys2Proof.Machine
end

