-- ==== Sys2Proof/Machine/MemoryOps.lean ====
section
/-! DEFINITION. The memory instructions at issue (R158 to R172, R266, R267): lane accesses join their path queues and
take effect at their points (Machine/Events.lean). -/

namespace Sys2Proof.Machine

/-! ### Scratchpad (R165, R167) -/

/-- The address of a scratchpad access in one lane (R162). -/
def Group.spAddr (g : Group) (b : SpBase) (disp : Word) (l : Nat) : Nat := (g.spBase b l + disp.toNat) % 2 ^ 32

def execLds (h : Hdr) (o : SpAcc) (s : State) :=
  onGroup (.lds h o) s fun s x =>
    (x.spLanes o.size.bytes (x.g.spAddr o.base o.disp) true fun l =>
      { mkReq l with reg := x.g.reg o.data l }).launchSp s
      (x.op .lds .ld .team 0 o.size.bytes o.size.regs)

def execSts (h : Hdr) (o : SpAcc) (s : State) :=
  onGroup (.sts h o) s fun s x =>
    (x.spLanes o.size.bytes (x.g.spAddr o.base o.disp) false fun l =>
      { mkReq l with data := BitVec.ofNat 128 (x.g.rdN (x.g.reg o.data l) l o.size.regs) }).launchSp s
      (x.op .sts .st .team 0 o.size.bytes 0)

def execAtoms (h : Hdr) (o : Atom) (a : BitVec 10) (s : State) :=
  onGroup (.atoms h o a) s fun s x =>
    let n := o.ty.regs
    (x.spLanes (4 * n) (fun l => ((x.g.rdV a.toNat l).toNat + o.off.toNat) % 2 ^ 32) true fun l =>
      { mkReq l with reg := o.d.toNat, data := BitVec.ofNat 128 (x.g.rdN o.b.toNat l n)
                     dat2 := BitVec.ofNat 128 (x.g.rdN o.c.toNat l n) }).launchSp s
      (x.op (.atoms o.op o.ty) .ld .team 0 (4 * n) n)

/-! ### Dense tables (R168) -/

/-- A dense access of a lane: a load into `data`, or a store of it. -/
def Iss.denseWant (x : Iss) (o : DnAcc) (slot : Nat) (t : Table) (wr : Bool) (l : Nat) : LaneFault ⊕ List Want :=
  let k := x.g.rdKey (tKType t) o.key l
  match denseCheck slot t (if wr then tWrite t else tRead t) k o.off.toNat o.size.bytes with
  | .inl f => .inl f
  | .inr row =>
    let r := x.g.reg o.data l
    let q := { mkReq l with key := keyAddr (tKType t) k, reg := r }
    .inr [(slot, t, row * tWidth t + o.off.toNat,
      if wr then { q with data := BitVec.ofNat 128 (x.g.rdN r l o.size.regs) } else q)]

def execDld (h : Hdr) (o : DnAcc) (s : State) :=
  onGroup (.dld h o) s fun s x =>
    let hd := x.g.rdS o.tab.toNat
    match s.handle x.t.part hd with
    | none => x.failOp s (x.op .load .ld .team 0 4 0) (mkFault 0x0B 0 hd 0)
    | some (slot, t) =>
      let (sc, x) := s.clamp x o.scope
      (s.collect x 0 (x.denseWant o slot t false)).launch s (x.op .load .ld sc slot o.size.bytes o.size.regs)

def execDst (h : Hdr) (o : DnAcc) (s : State) :=
  onGroup (.dst h o) s fun s x =>
    let hd := x.g.rdS o.tab.toNat
    match s.handle x.t.part hd with
    | none => x.failOp s (x.op .store .st .team 0 4 0) (mkFault 0x0B 0 hd 0)
    | some (slot, t) =>
      let (sc, x) := s.clamp x o.scope
      (s.collect x 1 (x.denseWant o slot t true)).launch s (x.op .store .st sc slot o.size.bytes 0)

/-! ### Rows (R169) -/

/-- A rowref in an even pair of a lane. -/
def Group.rdRef (g : Group) (n : BitVec 10) (l : Nat) : DWord := BitVec.ofNat 64 (g.rdN n.toNat l 2)

/-- A row access of a lane. -/
def Iss.rowWant (s : State) (x : Iss) (o : RowAcc) (wr : Bool) (l : Nat) : LaneFault ⊕ List Want :=
  let rr := x.g.rdRef o.ref l
  match s.rowCheck x.t.part rr wr o.off.toNat o.size.bytes with
  | .inl f => .inl f
  | .inr (slot, t, row) =>
    let r := x.g.reg o.data l
    let q := { mkReq l with key := rr, reg := r }
    .inr [(slot, t, row * tWidth t + o.off.toNat,
      if wr then { q with data := BitVec.ofNat 128 (x.g.rdN r l o.size.regs) } else q)]

def execTld (h : Hdr) (o : RowAcc) (s : State) :=
  onGroup (.tld h o) s fun s x =>
    let (sc, x) := s.clamp x o.scope
    (s.collect x 0 (Iss.rowWant s x o false)).launch s
      { x.op .load .ld sc 0 o.size.bytes o.size.regs with
        byRef := true, pred := o.ck.map BitVec.toNat, quiet := o.ck.isSome }

def execTst (h : Hdr) (o : RowAcc) (s : State) :=
  onGroup (.tst h o) s fun s x =>
    let (sc, x) := s.clamp x o.scope
    (s.collect x 1 (Iss.rowWant s x o true)).launch s { x.op .store .st sc 0 o.size.bytes 0 with byRef := true }

/-! ### FETCH (R170) -/

/-- The bytes of an element. -/
def fetchSize : Fmt → Nat
  | .bf16 => 2
  | .e4m3 | .e5m2 => 1
  | _ => 4

/-- The elements that a lane fetches; a key or element out of range reads zero. -/
def Iss.fetchWant (x : Iss) (o : Fetch) (slot : Nat) (t : Table) (l : Nat) : LaneFault ⊕ List Want :=
  let kt := tKType t
  let k := match o.key with
    | .vec (.reg n) => x.g.rdKey kt (.vec n) l
    | .vec (.idx a off) => keyOfNat kt (x.g.rdV (x.g.idxReg a off l).1 l).toNat
    | .sca n => x.g.rdKey kt (.sca n) l
  let idxKey := match o.key with | .vec (.idx _ _) => ktBits kt != 32 | _ => false
  let c := match o.c with
    | .vec v => (x.g.rdV (x.g.reg v l) l).toNat
    | .imm w => w.toNat
  let key := keyAddr kt k
  if tKind t != 0 || idxKey then .inl (mkFault 0x0C 0 key (mkAux slot 0))
  else if !tRead t then .inl (mkFault 0x0D 0 key (mkAux slot 0))
  else
    let sz := fetchSize o.fmt
    let oor := decide (k < tLo t ∨ tLo t + tCap t ≤ k)
    .inr ((List.range (o.n1.toNat + 1)).map fun i =>
      (slot, t, (k - tLo t).toNat * tWidth t + (c + i) * sz,
        { mkReq l with key := key, reg := x.g.reg o.d l + i, zero := oor || decide (tWidth t < (c + i + 1) * sz) }))

def execFetch (h : Hdr) (o : Fetch) (s : State) :=
  onGroup (.fetch h o) s fun s x =>
    let hd := x.g.rdS o.tab.toNat
    match s.handle x.t.part hd with
    | none => x.failOp s (x.op (.fetch o.fmt) .ft .part 0 4 0) (mkFault 0x0B 0 hd 0)
    | some (slot, t) =>
      (s.collect x 2 (x.fetchWant o slot t)).launch s (x.op (.fetch o.fmt) .ft .part slot (fetchSize o.fmt) 1)

/-! ### WAIT and WAITP (R158, R159) -/

/-- Whether a threshold of WAIT is met. -/
def Group.reached (g : Group) (p : Path) (th : BitVec 6) : Bool := th == 63 || decide (g.count p ≤ th.toNat)

def execWait (len : Len) (ld st cp mx : BitVec 6) (s : State) :=
  onGroup (.wait len ld st cp mx) s fun s x =>
    if x.g.reached .ld ld && x.g.reached .st st && x.g.reached .cp cp && x.g.reached .mx mx then x.finish s else s

/-- The path codes of R156. -/
def Path.ofCode (n : Nat) : Path :=
  match n with
  | 0 => .ld | 1 => .st | 2 => .tb | 3 => .ft | 4 => .cp | 5 => .mx | 6 => .nm | _ => .gt

def execWaitp (path : BitVec 3) (a : BitVec 6) (s : State) :=
  onGroup (.waitp path a) s fun s x =>
    if x.g.count (Path.ofCode path.toNat) ≤ (x.g.rdS a.toNat).toNat then x.finish s else s

/-! ### Atomics (R266, R267) -/

def execTatom (h : Hdr) (o : Atom) (ref : BitVec 10) (s : State) :=
  onGroup (.tatom h o ref) s fun s x =>
    let n := o.ty.regs
    let (sc, x) := s.clamp x o.scope
    (s.collect x 3 fun l =>
      let rr := x.g.rdRef ref l
      match s.rowCheck x.t.part rr true o.off.toNat (4 * n) with
      | .inl f => .inl f
      | .inr (slot, t, row) =>
        .inr [(slot, t, row * tWidth t + o.off.toNat,
          { mkReq l with key := rr, reg := o.d.toNat, data := BitVec.ofNat 128 (x.g.rdN o.b.toNat l n)
                         dat2 := BitVec.ofNat 128 (x.g.rdN o.c.toNat l n) })]).launch s
      { x.op (.atom o.op o.ty) .ld sc 0 (4 * n) n with byRef := true }

/-- The checks of a DATOM in one lane, in the order of R267: the key is located before the right is asked for. -/
def datomCheck (slot : Nat) (t : Table) (k : Int) (off size : Nat) : LaneFault ⊕ Nat :=
  if tKind t = 0 ∧ (k < tLo t ∨ tLo t + tCap t ≤ k) then .inl (mkFault 8 0 (keyAddr (tKType t) k) (mkAux slot off))
  else denseCheck slot t (tWrite t) k off size

def execDatom (h : Hdr) (o : Atom) (tab key : BitVec 10) (s : State) :=
  onGroup (.datom h o tab key) s fun s x =>
    let n := o.ty.regs
    let hd := x.g.rdS tab.toNat
    match s.handle x.t.part hd with
    | none => x.failOp s (x.op (.atom o.op o.ty) .ld .team 0 4 0) (mkFault 0x0B 0 hd 0)
    | some (slot, t) =>
      let (sc, x) := s.clamp x o.scope
      (s.collect x 3 fun l =>
        let k := x.g.rdKey (tKType t) (.vec key) l
        match datomCheck slot t k o.off.toNat (4 * n) with
        | .inl f => .inl f
        | .inr row =>
          .inr [(slot, t, row * tWidth t + o.off.toNat,
            { mkReq l with key := keyAddr (tKType t) k, reg := o.d.toNat
                           data := BitVec.ofNat 128 (x.g.rdN o.b.toNat l n)
                           dat2 := BitVec.ofNat 128 (x.g.rdN (o.b.toNat + n) l n) })]).launch s
        (x.op (.atom o.op o.ty) .ld sc slot (4 * n) n)

end Sys2Proof.Machine
end

