-- ==== Sys2Proof/Machine/Tables.lean ====
section
/-! DEFINITION. Keyed tables (R173 to R190): the nine instructions at issue, and the points that their lanes take in the
table order. -/

namespace Sys2Proof.Machine

/-! ### Index operations on a table -/

def tIndexed (t : Table) : Bool := decide (1 ≤ tKind t ∧ tKind t ≤ 3)
def tOrdered (t : Table) : Bool := tKind t == 1 || tKind t == 3

/-- A rowref (R42). -/
def mkRowref (slot row : Nat) (gen : BitVec 16) : DWord := BitVec.ofNat 12 slot ++ BitVec.ofNat 36 row ++ gen

/-- The row slot of a present key. -/
def Table.find (t : Table) (k : Int) : Option Nat := (t.keys.find? fun e => e.1 = k).map Prod.snd

/-- Insert into a list of keys in rising order. -/
def keyInsert (k : Int) (row : Nat) : List (Int × Nat) → List (Int × Nat)
  | [] => [(k, row)]
  | e :: r => if k < e.1 then (k, row) :: e :: r else e :: keyInsert k row r

/-- The row slot that an insert takes: the one that `pick` names if it is free, else the lowest free one (R178). -/
def Table.freeSlot (t : Table) (pick : Nat) : Nat :=
  let used := fun n => t.keys.any fun e => e.2 == n
  if pick < tCap t ∧ !used pick then pick
  else ((List.range (t.keys.length + 1)).find? fun n => !used n).getD 0

def Table.setRowCount (t : Table) (n : Nat) : Table := { t with record := setFld t.record 255 192 n }

/-- Add a key (R178). -/
def Table.insert (t : Table) (k : Int) (row : Nat) : Table :=
  { t with keys := keyInsert k row t.keys }.setRowCount (tRowCount t + 1)

/-- The next generation (R43). -/
def nextGen (g : BitVec 16) : BitVec 16 := if g = 0xFFFF then 1 else g + 1

/-- Remove a key: its slot is freed and the slot's generation advances (R179). -/
def Table.remove (t : Table) (k : Int) (row : Nat) : Table :=
  { t with keys := t.keys.filter fun e => e.1 != k, gens := tset (tSeed t) t.gens row (nextGen (tGen t row)) }.setRowCount
    (tRowCount t - 1)

/-- The rowref of a key of any table (R177): the dense row's, or the live row's. -/
def Table.lookup (t : Table) (slot : Nat) (k : Int) : Option DWord :=
  if tKind t = 0 then
    if tLo t ≤ k ∧ k < tLo t + tCap t ∧ (k - tLo t).toNat < 2 ^ 36 then
      some (mkRowref slot (k - tLo t).toNat (tSeed t))
    else none
  else (t.find k).map fun row => mkRowref slot row (tGen t row)

/-- The key of a row that a rowref names, if it is current (R180). -/
def Table.keyOf (t : Table) (rr : DWord) : Option Int :=
  let row := fld rr 51 16
  if !rowCurrent t rr then none
  else if tKind t = 0 then some (tLo t + row)
  else (t.keys.find? fun e => e.2 = row).map Prod.fst

/-- The least present key that a cursor's next step finds (R185). -/
def Table.step (t : Table) (c : Cursor) : Option (Int × Nat) :=
  t.keys.find? fun e => (if c.state = 1 then decide (c.lo ≤ e.1) else decide (c.last < e.1)) && decide (e.1 ≤ c.hi)

/-! ### The instructions at issue (R175 to R189) -/

/-- The faults of a point operation that a lane meets at issue: kind, then right. -/
def pointCheck (slot : Nat) (kinds right : Bool) (key : DWord) : Option LaneFault :=
  if !kinds then some (mkFault 0x0C 0 key (mkAux slot 0))
  else if !right then some (mkFault 0x0D 0 key (mkAux slot 0))
  else none

/-- Check every lane and collect its request. -/
def Iss.tbLanes (x : Iss) (f : Nat → LaneFault ⊕ LaneReq) : Acc :=
  (laneList x.act).foldl
    (fun a l => match f l with
      | .inl e => { a with x := a.x.fault l e }
      | .inr q => { a with reqs := a.reqs ++ [q] })
    { x := x, reqs := [], stall := .none }

/-- A point operation by handle and key (R177 to R179). -/
def execPoint (i : Instr) (o : TPoint) (kind : PKind) (admits right : Table → Bool) (regs : Nat) (s : State) :
    Host.Outcome State Fault Refusal :=
  onGroup i s fun s x =>
    let hd := x.g.rdS o.tab.toNat
    let p := { x.op kind .tb .part 0 0 regs with pred := some o.p.toNat }
    match s.handle x.t.part hd with
    | none => x.failOp s p (mkFault 0x0B 0 hd 0)
    | some (slot, t) =>
      (x.tbLanes fun l =>
        let k := x.g.rdKey (tKType t) o.key l
        match pointCheck slot (admits t) (right t) (keyAddr (tKType t) k) with
        | some f => .inl f
        | none => .inr { mkReq l with addr := slot, reg := o.d.toNat, lo := k, key := keyAddr (tKType t) k }).launchSp s
        { p with slot := slot }

def execTlk (h : Hdr) (o : TPoint) (s : State) := execPoint (.tlk h o) o .tlk (fun _ => true) tRead 2 s
def execTins (h : Hdr) (o : TPoint) (s : State) := execPoint (.tins h o) o .tins tIndexed tInsert 2 s
def execTups (h : Hdr) (o : TPoint) (s : State) := execPoint (.tups h o) o .tups tIndexed tInsert 2 s
def execTdel (h : Hdr) (o : TPoint) (s : State) := execPoint (.tdel h o) o .tdel tIndexed tDelete 0 s

/-- TSEEK opens a cursor in each lane (R184); it has finished when it issues. -/
def execTseek (h : Hdr) (o : TRange) (s : State) :=
  onGroup (.tseek h o) s fun s x =>
    let hd := x.g.rdS o.tab.toNat
    let p := x.op .tlk .tb .part 0 0 0
    match s.handle x.t.part hd with
    | none => x.failOp s p (mkFault 0x0B 0 hd 0)
    | some (slot, t) =>
      let kt := tKType t
      let key := fun l => x.g.rdKey kt o.lo l
      let a := x.tbLanes fun l =>
        match pointCheck slot (tOrdered t) (tRead t) (keyAddr kt (key l)) with
        | some f => .inl f
        | none => .inr (mkReq l)
      let g := a.reqs.foldl (fun g q => g.wrC o.d.toNat q.lane
        { slot := slot, ktype := kt, state := 1, lo := key q.lane, hi := x.g.rdKey kt o.hi q.lane, last := 0 }) a.x.g
      Iss.finish { a.x with g := Iss.enqueue { a.x with g := g } p [] } s

/-- The key type of a width field. -/
def kwMatches (w : KWidth) (kt : Nat) : Bool :=
  match w with
  | .k32 => ktBits kt == 32
  | .k64 => ktBits kt == 64
  | .k128 => ktBits kt == 128
def kwRegs : KWidth → Nat
  | .k32 => 1 | .k64 => 2 | .k128 => 4

/-- TNEXT (R185): a closed or ended cursor answers without a check or a point; else the slot is checked, then the READ
right, then the width against the cursor's key type and the table's (R175), which differ after a rebind. DESIGN CHOICE
(log 75): the records show the slot's number for the handle, and for the key the cursor's LO, or the last key of one that
steps. -/
def execTnext (h : Hdr) (w : KWidth) (d : BitVec 10) (p : BitVec 3) (k : BitVec 10) (cur : BitVec 10) (s : State) :=
  onGroup (.tnext h w d p k cur) s fun s x =>
    (x.tbLanes fun l =>
      let c := x.g.rdC cur.toNat l
      let q := { mkReq l with addr := c.slot, reg := d.toNat }
      if c.state = 0 ∨ c.state = 3 then .inr { q with zero := true }
      else match s.table x.t.part c.slot with
        | none => .inl (mkFault 0x0B 0 (BitVec.ofNat 64 c.slot) 0)
        | some t =>
          let key := keyAddr c.ktype (if c.state = 1 then c.lo else c.last)
          if !tRead t then .inl (mkFault 0x0D 0 key (mkAux c.slot 0))
          else if !(kwMatches w c.ktype && kwMatches w (tKType t) && tOrdered t) then .inl (mkFault 0x0C 0 key (mkAux c.slot 0))
          else .inr { q with key := key }).launchSp s
      { x.op (.tnext w k.toNat cur.toNat) .tb .part 0 0 2 with pred := some p.toNat }

/-- TKEY (R180). DESIGN CHOICE (log 70): a lane that fails both checks takes the table-kind fault. -/
def execTkey (h : Hdr) (w : KWidth) (d : BitVec 10) (p : BitVec 3) (ref : BitVec 10) (s : State) :=
  onGroup (.tkey h w d p ref) s fun s x =>
    (x.tbLanes fun l =>
      let rr := x.g.rdRef ref l
      match s.rowref x.t.part rr with
      | .inl f => .inl f
      | .inr (slot, t, _) =>
        match pointCheck slot (kwMatches w (tKType t)) (tRead t) rr with
        | some f => .inl f
        | none => .inr { mkReq l with addr := slot, reg := d.toNat, key := rr }).launchSp s
      { x.op .tkey .tb .part 0 0 (kwRegs w) with pred := some p.toNat }

/-- TCNT and TDROP: a range of keys by handle. `va` keeps the first row of a discard. A discard through a read-only
window is a write, and takes the table-rights fault (R338). DESIGN CHOICE (log 75): of the two keys the records show LO; so
do those of TSEEK. -/
def execRange (i : Instr) (o : TRange) (kind : PKind) (admits right : Table → Bool) (regs : Nat) (s : State) :
    Host.Outcome State Fault Refusal :=
  onGroup i s fun s x =>
    let hd := x.g.rdS o.tab.toNat
    let p := x.op kind .tb .part 0 0 regs
    match s.handle x.t.part hd with
    | none => x.failOp s p (mkFault 0x0B 0 hd 0)
    | some (slot, t) =>
      let kt := tKType t
      (x.tbLanes fun l =>
        let lo := x.g.rdKey kt o.lo l
        let hi := x.g.rdKey kt o.hi l
        let mayDrop := match kind with
          | .tdrop => !(s.partn x.t.part).readOnly slot
          | _ => true
        match pointCheck slot (admits t) (right t && mayDrop) (keyAddr kt lo) with
        | some f => .inl f
        | none =>
          let q := { mkReq l with addr := slot, reg := o.d.toNat, lo := lo, hi := hi, key := keyAddr kt lo }
          match kind with
          | .tdrop =>
            let lo := max lo (tLo t)
            .inr { q with lo := lo, hi := min hi (tLo t + tCap t - 1), va := (lo - tLo t).toNat }
          | _ => .inr q).launchSp s { p with slot := slot }

def execTcnt (h : Hdr) (o : TRange) (s : State) := execRange (.tcnt h o) o .tcnt tOrdered tRead 2 s
def execTdrop (h : Hdr) (o : TRange) (s : State) :=
  execRange (.tdrop h o) o .tdrop (fun t => tKind t == 0) tDelete 0 s

/-! ### Points (R173, R174) -/

/-- A late fault of an unfinished operation's lanes (R157, R168): exited lanes and lanes already parked take none; the
others leave EM, or the lanes that wait or resume, and park. -/
def Group.dropLanes (g : Group) (m : Lanes) : Group :=
  { g with
    em := g.em &&& ~~~m
    redo := g.redo.map fun d => { d with noted := d.noted &&& ~~~m }
    catchUp := g.catchUp.map fun c =>
      { c with waitEM := c.waitEM &&& ~~~m, held := c.held &&& ~~~m,
               resume := c.resume.map fun q => { q with run := q.run &&& ~~~m, em := q.em &&& ~~~m } } }

/-- The lanes that can take a fault. -/
def Group.faultable (g : Group) : Lanes := ~~~(g.exited ||| parkLanes g.parks)

/-- Whether a park is the non-replayable one of an operation's issue. -/
def Park.of (p : Park) (o : Pend) : Bool := decide (p.op = some o.id) && !p.rpl

/-- Whether faults of an operation can park while others of its lanes wait for their answers: there is a slot for them, or
their issue has its park. Those that would enter the handler at once, or halt the group, wait for the others, whose record
they share (R294, R295, R302; DEDUCED, log 18). -/
def Group.parksNow (g : Group) (o : Pend) : Bool :=
  g.trap.isNone && (decide (g.parks.length < parkSlots) || g.parks.any fun p => p.of o)

/-- A lane's fault among those of its issue, by lane. -/
def insFault (f : Nat × LaneFault) : List (Nat × LaneFault) → List (Nat × LaneFault)
  | [] => [f]
  | x :: r => if f.1 < x.1 then f :: x :: r else x :: insFault f r

/-- Late faults of an operation: they join the park that the issue formed, or form it (R168, R294); `link` is the operation
while others of its lanes may still meet a fault. -/
def State.lateFault (s : State) (r : GRef) (o : Pend) (link : Option Nat) (fs : List (Nat × LaneFault)) : State :=
  match s.group r with
  | none => s
  | some (t, g) =>
    let fs := fs.filter fun f => g.faultable.getLsbD f.1
    if fs.isEmpty || g.halted then s
    else
      let g := g.dropLanes (lanesOf (fs.map Prod.fst))
      let p : Park :=
        { rpl := false, async := false, pc := o.pc, next := o.next, insn := o.insn, faults := fs, resolved := false,
          op := link }
      match g.trap with
      | some ts => s.halt r t g [ts.park.record, p.record]
      | none =>
        let mine := fun (q : Park) => q.of o
        if g.parks.any mine = true then
          let join := fun (q : Park) => { q with faults := fs.foldl (fun l f => insFault f l) q.faults }
          s.putGroup r { g with parks := g.parks.map fun q => if mine q = true then join q else q }
        else s.parkNow r t g p 0

/-- The lanes of an operation that met faults park as the point answers, where they can, else once none of its lanes but
exited ones waits for an answer; a group that is parked as a whole, or issues again, takes the faults after that. -/
def State.settleFaults (s : State) (r : GRef) (id : Nat) : State :=
  match s.group r with
  | none => s
  | some (_, g) =>
    match g.findOp id with
    | none => s
    | some o =>
      let ended := o.over g.exited
      if o.faults.isEmpty then s
      else if g.redo.isSome || (g.whole.isSome && g.trap.isNone) || !(ended || g.parksNow o) then
        s.putGroup r (g.setOp { o with fin := ended })
      else
        (s.putGroup r (g.setOp { o with faults := [], fin := ended }).settle).lateFault r o
          (if ended then none else some o.id) o.faults

/-- The results of a lane: its destination registers and predicate are written unless it has exited (R83, R172). -/
def Group.result (g : Group) (o : Pend) (q : LaneReq) (v : Nat) (p : Bool) : Group :=
  if g.exited.getLsbD q.lane then g
  else
    let g := g.wrN q.reg q.lane v o.regs
    match o.pred with
    | some n => g.wrPOn n (lane1 q.lane) (if p then allOnes else 0)
    | none => g

/-- A lane of an operation is done. -/
def Group.laneDone (g : Group) (o : Pend) (l : Nat) : Group := g.opLanes o (o.lanes.filter fun q => q.lane != l)

/-- The point has answered a lane of an operation with a fault. -/
def State.failLane (s : State) (r : GRef) (g : Group) (o : Pend) (l : Nat) (f : LaneFault) : State :=
  s.putGroup r (g.setOp { o with lanes := o.lanes.filter fun q => q.lane != l, faults := insFault (l, f) o.faults })

/-- Whether an older table operation of the group still has a point to take on the table (R174). -/
def Group.tbBlocked (g : Group) (o : Pend) (slot : Nat) : Bool :=
  g.pend.any fun p => decide (p.id < o.id) && p.path == .tb && p.lanes.any fun q => q.addr == slot && !q.zero

/-- One point of the table order for the next lane of an operation. DESIGN CHOICE (log 70): a TCNT reads its leaves in
ascending key order, and holds the group's younger operations on the table until it has read the last. `pick` chooses the
free slot of an insert, how many keys the leaf of a TCNT gives (0: all that are left), or how many further rows of a TDROP
follow at once; `bad` says that the lane's path meets a poisoned index node, on a table that has one. -/
def State.tablePoint (s : State) (r : GRef) (t : Team) (g : Group) (o : Pend) (q : LaneReq) (pick : Nat) (bad : Bool) :
    State :=
  let part := t.part
  let slot := q.addr
  let done := fun (s : State) (v : Nat) (p : Bool) => s.putGroup r ((g.result o q v p).laneDone o q.lane)
  let fail := fun (f : LaneFault) => s.failLane r g o q.lane f
  let ref := fun (x : Option DWord) => match x with | some v => v.toNat | none => 0
  match o.kind with
  | .tnext w kd cur =>
    let write := fun (rr : Nat) (kv : Nat) (found : Bool) (c : Cursor) =>
      let g' := g.result o q rr found
      let g' := if g.exited.getLsbD q.lane then g' else (g'.wrN kd q.lane kv (kwRegs w)).wrC cur q.lane c
      s.putGroup r (g'.laneDone o q.lane)
    let c := g.rdC cur q.lane
    if q.zero then write 0 0 false c
    else match s.table part slot with
      | none => fail (mkFault 0x0B 0 (BitVec.ofNat 64 slot) 0)
      | some tb =>
        if bad && tb.bad then fail (mkFault 0x0F 0 q.key (mkAux slot 0))
        else match tb.step c with
          | some (k, row) =>
            write (mkRowref slot row (tGen tb row)).toNat (keyToNat c.ktype k) true { c with last := k, state := 2 }
          | none => write 0 0 false { c with state := 3 }
  | kind =>
    match s.table part slot with
    | none => fail (mkFault 0x0B 0 (if kind = .tkey then q.key else BitVec.ofNat 64 slot) 0)
    | some tb =>
      let poisoned := bad && tb.bad && tIndexed tb
      if poisoned then fail (mkFault 0x0F 0 q.key (mkAux slot 0))
      else match kind with
        | .tlk => done s (ref (tb.lookup slot q.lo)) (tb.lookup slot q.lo).isSome
        | .tins | .tups =>
          match tb.find q.lo with
          | some row => done s (if kind = .tups then (mkRowref slot row (tGen tb row)).toNat else 0) false
          | none =>
            if tCap tb ≤ tRowCount tb then fail (mkFault 0x0E 0 q.key (mkAux slot 0))
            else
              let row := tb.freeSlot pick
              let n := tWidth tb
              let s1 := ((s.zeroImage none part slot tb (n / 65536 + 2) (row * n) n).clearImage none part slot tb (row * n) n).setTable
                part slot (some (tb.insert q.lo row))
              done s1 (mkRowref slot row (tGen tb row)).toNat true
        | .tdel =>
          match tb.find q.lo with
          | some row => done (s.setTable part slot (some (tb.remove q.lo row))) 0 true
          | none => done s 0 false
        | .tkey =>
          match tb.keyOf q.key with
          | some k => done s (keyToNat (tKType tb) k) true
          | none => done s 0 false
        | .tcnt =>
          let ks := (tb.keys.map Prod.fst).filter fun k => decide (q.lo ≤ k ∧ k ≤ q.hi)
          let leaf := if pick = 0 then ks else ks.take pick
          let sum := q.data + BitVec.ofNat 128 leaf.length
          match leaf.getLast? with
          | some k =>
            if pick = 0 ∨ ks.length ≤ pick then done s sum.toNat false
            else s.putGroup r (g.setOp { o with lanes := o.lanes.map fun p =>
              if p.lane = q.lane then { p with lo := k + 1, data := sum } else p })
          | none => done s sum.toNat false
        | .tdrop =>
          if q.hi < q.lo then done s 0 false
          else
            let row := (q.lo - tLo tb).toNat
            let last := min (row + pick) (q.hi - tLo tb).toNat
            let n := tWidth tb
            let from_ := max (q.va * n) (row * n / 64 * 64)
            let s1 := (s.zeroImage none part slot tb ((last + 1 - row) * n / 65536 + 2) (row * n)
              ((last + 1 - row) * n)).clearImage none part slot tb from_ ((last + 1) * n - from_)
            if last = (q.hi - tLo tb).toNat then done s1 0 false
            else s1.putGroup r (g.setOp { o with lanes := o.lanes.map fun p =>
              if p.lane = q.lane then { p with lo := tLo tb + last + 1 } else p })
        | _ => s

/-- Whether the point of an operation changes the index of its table: an insert of a new key, the removal of a present
one. -/
def Table.changes (t : Table) (kind : PKind) (q : LaneReq) : Bool :=
  match kind with
  | .tins | .tups => (t.find q.lo).isNone && decide (tRowCount t < tCap t)
  | .tdel => (t.find q.lo).isSome
  | _ => false

/-- A walk of one address by a unit of the hub: the state in which it waits, where the page cannot be reached. -/
def State.vaWait (s : State) (tie : ErrTie) (va : Nat) (wr : Bool) : Option State :=
  if s.waits.contains (tie.part, va) then some s
  else match s.walk tie.part va with
    | .ok _ _ _ w => if wr && !w then some (s.hubMiss tie va) else none
    | .miss => some (s.hubMiss tie va)
    | .busy _ => some s

/-- The rows that the next point of an operation sets to zero: image offset and bytes. -/
def Table.zeroes (t : Table) (kind : PKind) (q : LaneReq) (pick : Nat) : Option (Nat × Nat) :=
  let n := tWidth t
  match kind with
  | .tins | .tups =>
    if (t.find q.lo).isSome || decide (tCap t ≤ tRowCount t) then none else some (t.freeSlot pick * n, n)
  | .tdrop =>
    let row := (q.lo - tLo t).toNat
    if q.hi < q.lo ∨ tPaged t then none else some (row * n, (min (row + pick) (q.hi - tLo t).toNat + 1 - row) * n)
  | _ => none

/-- What keeps a bobbin unit from a point: the index's page, or in an unpaged table a page of the rows that it sets to
zero, is not present or is being moved (R311, R315). DESIGN CHOICE (log 64): the index, whose layout the manual does not
give, is the page at INDEXVA; a page with W = 0 that the point would write is one that it cannot reach, while the rows of a
paged table are discarded whatever W is. -/
def State.tbWait (s : State) (t : Team) (o : Pend) (q : LaneReq) (pick : Nat) : Option State :=
  if q.zero then none
  else match s.table t.part q.addr with
  | none => none
  | some tb =>
    match if tIndexed tb then
        s.vaWait { teamTie t with slot := q.addr } (tIndexVa tb) (tb.changes o.kind q)
      else none with
    | some s => some s
    | none => match tb.zeroes o.kind q pick with
      | some (off, n) => s.hubWait (teamTie t) q.addr tb off n true
      | none => none

/-- A point that changes the index marks its page (R310, R317). -/
def State.markIndex (s : State) (part : Nat) (o : Pend) (q : LaneReq) (bad : Bool) : State :=
  match s.table part q.addr with
  | some tb =>
    if tIndexed tb && tb.changes o.kind q && !(bad && tb.bad) then
      s.markWrite part (tIndexVa tb) (s.leafOf part (tIndexVa tb))
    else s
  | none => s

/-- Whether a point counts as a store of scope part: of TINS and TDEL, whatever they find, of a TUPS that inserts, and of
each row that TDROP discards (R258). -/
def Table.stores (t : Table) (kind : PKind) (q : LaneReq) : Bool :=
  match kind with
  | .tins | .tdel => true
  | .tdrop => decide (q.lo ≤ q.hi)
  | k => t.changes k q

/-- A point that counts as a store of scope part follows all that its core had taken in (R251, R258). -/
def State.beforePoint (s : State) (t : Team) (o : Pend) (q : LaneReq) : State :=
  match s.table t.part q.addr with
  | some tb => if tb.stores o.kind q then s.flushWide t.core else s
  | none => s

/-- The next lane of a table operation takes its point, in ascending lane order, once the group's older operations on
that table have taken theirs and the unit can reach what it changes. -/
def execTableOrderPoint (r : GRef) (op : Nat) (pick : Nat) (bad : Bool) (s : State) : Host.Outcome State Fault Refusal :=
  match s.group r with
  | none => .next s
  | some (t, g) =>
    match g.findOp op with
    | none => .next s
    | some o =>
      match o.path, o.lanes with
      | .tb, q :: _ =>
        if !q.zero && g.tbBlocked o q.addr then .next s
        else match s.tbWait t o q pick with
          | some s => .next s
          | none =>
            .next ((((s.beforePoint t o q).markIndex t.part o q bad).tablePoint r t g o q pick bad).settleFaults r op)
      | _, _ => .next s

end Sys2Proof.Machine
end

