-- ==== Sys2Proof/Machine/Engines.lean ====
section
/-! DEFINITION. The asynchronous engines and their queues (R193 to R209), and the barriers at which they arrive (R210). -/

namespace Sys2Proof.Machine

/-! ### Barriers (R210) -/

def Team.bar (t : Team) (b : Nat) : Barrier := tget Barrier.reset t.bars b
def Team.setBar (t : Team) (b : Nat) (x : Barrier) : Team := { t with bars := tset Barrier.reset t.bars b x }

/-- One arrival: the phase completes when the count is reached. -/
def Barrier.arrive (b : Barrier) : Barrier :=
  if b.e = 0 then b
  else if b.a + 1 = b.e then { b with a := 0, ph := !b.ph } else { b with a := b.a + 1 }
def Team.arrive (t : Team) (b : Nat) : Team := t.setBar b (t.bar b).arrive

/-! ### Engine traffic to scratchpad (R164) -/

/-- An allocation rounded up to a power of two. -/
def wrapSize (alloc : Nat) : Nat := if alloc ≤ 1 then 1 else 2 ^ (Nat.log2 (alloc - 1) + 1)

/-- Where an engine's byte offset lies, if it lies within an allocation. -/
def wrapAddr (alloc o : Nat) : Option Nat :=
  let a := o % wrapSize alloc
  if a < alloc then some a else none
def Team.engAddr (t : Team) (o : Nat) : Option Nat := wrapAddr t.alloc o

/-- Whether element `k` of a row at `base`, its elements `w` bits wide, lies wholly in bytes that read as zero because they
are beyond the allocation. -/
def padElem (alloc base w k : Nat) : Bool :=
  (wrapAddr alloc (base + w * k / 8)).isNone && (wrapAddr alloc (base + (w * k + w - 1) / 8)).isNone

def Team.engRead (t : Team) (o : Nat) : Nat → List Byte
  | 0 => []
  | n + 1 => (match t.engAddr o with | some a => tget 0 t.scratch a | none => 0) :: t.engRead (o + 1) n

def Team.engWrite (t : Team) : Nat → List Byte → Team
  | _, [] => t
  | o, b :: bs =>
    (match t.engAddr o with
      | some a => { t with scratch := tset 0 t.scratch a b }
      | none => t).engWrite (o + 1) bs

/-! ### Items -/

/-- Remove one item from the runs that are left. -/
def takeItem (i : Nat) : List (Nat × Nat) → List (Nat × Nat)
  | [] => []
  | (a, n) :: r =>
    if a ≤ i ∧ i < a + n then
      (if i = a then [] else [(a, i - a)]) ++ (if i + 1 = a + n then [] else [(i + 1, a + n - i - 1)]) ++ r
    else (a, n) :: takeItem i r
def hasItem (i : Nat) (rs : List (Nat × Nat)) : Bool := rs.any fun r => decide (r.1 ≤ i ∧ i < r.1 + r.2)
def itemsLeft (rs : List (Nat × Nat)) : Nat := rs.foldl (fun n r => n + r.2) 0
/-- All the items of an operation. -/
def allItems (n : Nat) : List (Nat × Nat) := if n = 0 then [] else [(0, n)]

def badInsert (b : BadItem) : List BadItem → List BadItem
  | [] => [b]
  | c :: r => if b.item < c.item then b :: c :: r else c :: badInsert b r

/-- Mark an item done, with its failure if it failed. -/
def EngOp.did (op : EngOp) (i : Nat) (f : Option BadItem) : EngOp :=
  { op with stall := none, items := takeItem i op.items, read := op.read.filter fun e => e.1 != i, bad := match f with | some b => badInsert b op.bad | none => op.bad }

/-- Begin an operation: its items, or its rejection with the lowest code that applies (R195). -/
def EngOp.start (op : EngOp) (codes : List Nat) (recd : List (BitVec 512)) (n : Nat) : EngOp :=
  match least codes with
  | some c => { op with begun := true, rej := some c, total := 0, items := [], recd := recd, stall := none }
  | none => { op with begun := true, total := n, items := allItems n, recd := recd, stall := none }

def EngOp.nfail (op : EngOp) : Nat := op.bad.length
def EngOp.ndone (op : EngOp) : Nat := op.total - itemsLeft op.items - op.bad.length
/-- The failure code of the lowest-numbered cause. -/
def EngOp.code (op : EngOp) : Nat :=
  match op.rej with
  | some c => c
  | none => (least (op.bad.map BadItem.code)).getD 0
/-- What the completion record counts (R326): a rejected operation counts as one failed item. -/
def EngOp.failed (op : EngOp) : Nat := if op.rej.isSome then 1 else op.nfail

def Engine.code : Engine → Nat
  | .copy => 1 | .gather => 2 | .near => 3 | .coll => 4 | .join => 0

/-- The status record (R195). -/
def EngOp.status (op : EngOp) : BitVec 128 :=
  let first := match op.bad with | b :: _ => b.item | [] => 0
  BitVec.ofNat 32 op.nfail ++ BitVec.ofNat 32 first ++ BitVec.ofNat 32 op.ndone ++ (0 : BitVec 16) ++
    BitVec.ofNat 8 op.eng.code ++ BitVec.ofNat 8 op.code

/-- The reports of an operation's failures (R195, R329). -/
def EngOp.reports (op : EngOp) (pos spool : Nat) (slot : Nat) : List Report :=
  match op.rej with
  | some c => [{ recs := [reportHdr 1 0 c op.eng.code pos spool slot 0xFFFFFFFF 0] }]
  | none => op.bad.map fun b => { recs := [reportHdr 1 0 b.code op.eng.code pos spool b.slot b.item b.addr] }

/-! ### Layout records (R46 to R49) -/

/-- The element size in bits of a format code (R46). -/
def fmtBits (f : Nat) : Nat :=
  match f with
  | 0 | 1 | 4 => 32
  | 2 | 3 => 64
  | 5 => 16
  | 6 | 7 => 8
  | 8 => 4
  | 9 => 3
  | _ => 0

def lyFmt (r : BitVec 512) : Nat := fld r 3 0
def lySwz (r : BitVec 512) : Nat := fld r 7 4
def lyRows (r : BitVec 512) : Nat := fld r 15 8
def lyCols (r : BitVec 512) : Nat := fld r 23 16
def lySlot (r : BitVec 512) : Nat := fld r 35 24
def lyBase (r : BitVec 512) : Nat := fld r 55 40
def lyKStride (r : BitVec 512) : Int := (r.extractLsb' 64 32).toInt
def lyCStride (r : BitVec 512) : Nat := fld r 127 96
/-- KEYLO and KEYHI are compared as 64-bit values of the key type's signedness (R28). -/
def lyBound (kt v : Nat) : Int := if ktSigned kt then (BitVec.ofNat 64 v).toInt else v
def lyLo (kt : Nat) (r : BitVec 512) : Int := lyBound kt (fld r 191 128)
def lyHi (kt : Nat) (r : BitVec 512) : Int := lyBound kt (fld r 255 192)
/-- The formats whose elements are smaller than a byte. -/
def lySub (r : BitVec 512) : Bool := lyFmt r == 8 || lyFmt r == 9
/-- The pitch of a tile row, and the bytes of its group scales. -/
def lyPitch (r : BitVec 512) : Nat := (lyCols r + 1) * fmtBits (lyFmt r) / 8
def lyScales (r : BitVec 512) : Nat := if lySub r then 2 * ((lyCols r + 1) / 32) else 0

/-- The codes with which the copy engine rejects a layout record (R49). -/
def State.layoutCodes (s : State) (part : Nat) (r : BitVec 512) : List Nat :=
  let b := fmtBits (lyFmt r)
  let n := lySwz r
  let cs := lyCStride r
  let tb := s.table part (lySlot r)
  let width := match tb with | some t => tWidth t | none => 2 ^ 64
  let tooWide :=
    if lySub r then decide (width < lyBase r + lyPitch r + lyScales r ∨ cs ≠ 1 ∨ (lyCols r + 1) % 32 ≠ 0)
    else decide (width < (lyBase r * 8 + (lyCols r * cs + 1) * b + 7) / 8)
  err (decide (9 < lyFmt r)) 0x10 ++
    err (decide (3 < n) || (decide (1 ≤ n) && (lyCols r + 1) * b % (128 * 2 ^ n) != 0)) 0x11 ++
    err (match tb with | some t => tKind t != 0 | none => true) 0x12 ++
    err (tooWide || decide (cs < 1 ∨ 4096 < cs) || lyKStride r == 0) 0x13 ++
    (match tb with
      | some t => err (decide (lyHi (tKType t) r < lyLo (tKType t) r)) 0x14 ++ err (!tCopy t) 0x15
      | none => []) ++
    err (fld r 511 256 != 0 || fld r 63 56 != 0 || fld r 39 36 != 0) 0x17

/-- What an engine finds when it reaches into a table. -/
inductive Reach (α : Type) where
  | ok (x : α)
  | code (n : Nat)
  | miss (va slot : Nat)  -- of a table's page: reported, and it waits for a RESUME (R315, R329)
  | busy                  -- it waits

/-- Go on with what was found. -/
def Reach.bind {α β : Type} (x : Reach α) (f : α → Reach β) : Reach β :=
  match x with
  | .ok a => f a
  | .code c => .code c
  | .miss va slot => .miss va slot
  | .busy => .busy

/-- A unit reads a range of an image as it is once the discards due there are carried out; `c` is the code where a window
refuses it. -/
def State.unitRead (s : State) (v : Option Nat) (part slot : Nat) (t : Table) (off n c : Nat) : Reach (List Byte) :=
  match s.avail v part slot t off n false with
  | .ok => .ok ((s.touchImage v part slot t off n).imageRead v part slot t off n)
  | .busy => .busy
  | .miss va => .miss va slot
  | .refused => .code c

/-- The table in which a layout record lies, 64 bytes at a position of its image (R200). -/
def State.layoutIn (s : State) (part : Nat) (h : DWord) (pos : Nat) : Option (Nat × Table) :=
  match s.handle part h with
  | none => none
  | some (slot, t) =>
    if tKind t != 0 || pos % 64 != 0 || decide (tBytes t < pos + 64) || !tRead t then none else some (slot, t)

/-- Read a layout record, or code 0x1A (R200, R195). DESIGN CHOICE (log 52): a record in a poisoned granule is read as it
stands. -/
def State.layoutAt (s : State) (v : Option Nat) (part : Nat) (h : DWord) (pos : Nat) : Reach (BitVec 512) :=
  match s.layoutIn part h pos with
  | none => .code 0x1A
  | some (slot, t) => (s.unitRead v part slot t pos 64 0x1A).bind fun bs => .ok (BitVec.ofNat 512 (leNat bs))

/-- The page of a layout record is used as it is read. -/
def State.useLayout (s : State) (v : Option Nat) (part : Nat) (h : DWord) (pos : Nat) : State :=
  match s.layoutIn part h pos with
  | some (slot, t) => s.useImage v part slot t pos 64
  | none => s

/-- The byte runs of one tile row within a table row, in tile order, its scales last. -/
def lyRuns (r : BitVec 512) : List (Nat × Nat) :=
  let es := fmtBits (lyFmt r) / 8
  if lySub r then [(lyBase r, lyPitch r), (lyBase r + lyPitch r, lyScales r)]
  else if lyCStride r = 1 then [(lyBase r, lyPitch r)]
  else (List.range (lyCols r + 1)).map fun j => (lyBase r + j * lyCStride r * es, es)

/-- The row slot of a tile row's key, if it lies inside both ranges. -/
def lyRow (t : Table) (r : BitVec 512) (k : Int) : Option Nat :=
  if lyLo (tKType t) r ≤ k ∧ k < lyHi (tKType t) r ∧ tLo t ≤ k ∧ k < tLo t + tCap t then some (k - tLo t).toNat else none

/-- Whether the runs of a row can be reached: a missing page before one that is being moved. -/
def State.runsAvail (s : State) (v : Option Nat) (part slot : Nat) (t : Table) (row : Nat) (runs : List (Nat × Nat))
    (wr : Bool) : Avail :=
  let rs := runs.map fun r => s.avail v part slot t (row * tWidth t + r.1) r.2 wr
  match rs.find? fun r => match r with | .miss _ | .refused => true | _ => false with
  | some r => r
  | none => if rs.any fun r => r == .busy then .busy else .ok

/-- Carry out the discards that wait for the pages of a row. -/
def State.touchRow (s : State) (v : Option Nat) (part slot : Nat) (t : Table) (row : Nat) : State :=
  s.touchImage v part slot t (row * tWidth t) (tWidth t)

/-- The code of an item whose bytes a window keeps from the engine (DESIGN CHOICE, log 52). -/
def refusedCode : Nat := 0x1D

/-- A unit reads the runs of a row; poison delivers zeros with code 0x1C (R332). -/
def State.readRuns (s : State) (v : Option Nat) (part slot : Nat) (t : Table) (row : Nat) (runs : List (Nat × Nat)) :
    Reach (List Byte) :=
  match s.runsAvail v part slot t row runs false with
  | .busy => .busy
  | .miss va => .miss va slot
  | .refused => .code refusedCode
  | .ok =>
    if runs.any fun r => s.imagePoison v part slot t (row * tWidth t + r.1) r.2 then .code 0x1C
    else .ok (runs.flatMap fun r => s.imageRead v part slot t (row * tWidth t + r.1) r.2)

/-- Whether a write of an image range would cover a poisoned granule only in part. -/
def State.imagePart (s : State) (v : Option Nat) (part slot : Nat) (t : Table) (off n : Nat) : Bool :=
  (List.range ((off + n - 1) / 64 + 1 - off / 64)).any fun i =>
    let g := (off / 64 + i) * 64
    n != 0 && !decide (off ≤ g ∧ g + 64 ≤ off + n) &&
      (match s.imageKey v part slot t g with | some k => s.poisoned k 64 | none => false)

/-- A core drops the L1 copies that a range of memory meets (R250). -/
def State.dropLines (s : State) (core key n : Nat) : State :=
  let c := s.core core
  s.setCore core { c with l1 := c.l1.filter fun e => !decide (128 * e.1 < key + n ∧ key < 128 * e.1 + 128) }

/-- A unit's write of an image range at part scope, `core` being the core whose team issued it, of a command of a spool
none. Where the operation is to arrive at a barrier (`bar`), that core drops its copies of the range, so that what passes the
barrier finds the writes at team scope (R213); else an older copy may stay (R198). -/
def State.unitWrite (s : State) (core : Option Nat) (bar : Bool) (part slot : Nat) (t : Table) (off : Nat) (bs : List Byte) :
    State :=
  let s := s.rowWrite core part slot t off bs
  match core, bar with
  | some c, true => (pageStarts (tHeap t) off bs.length).foldl
      (fun s o => match s.imageKey core part slot t o with
        | some key => s.dropLines c key (pagePiece (tHeap t + o) (off + bs.length - o))
        | none => s) s
  | _, _ => s

/-- Write bytes over the runs of a row. -/
def State.putRuns (s : State) (core : Option Nat) (bar : Bool) (part slot : Nat) (t : Table) (row : Nat) :
    List (Nat × Nat) → List Byte → State
  | [], _ => s
  | (o, n) :: rs, bs =>
    (s.unitWrite core bar part slot t (row * tWidth t + o) (bs.take n)).putRuns core bar part slot t row rs (bs.drop n)

/-- Runs of a row with those that adjoin joined. -/
def joinRuns (rs : List (Nat × Nat)) : List (Nat × Nat) :=
  rs.foldr (fun r js => match js with
    | (o, n) :: t => if r.1 + r.2 = o then (r.1, r.2 + n) :: t else r :: js
    | [] => [r]) []

/-- A unit writes the runs of a row, unless they cover only part of a poisoned granule (R332). -/
def State.writeRuns (s : State) (core : Option Nat) (bar : Bool) (part slot : Nat) (t : Table) (row : Nat)
    (runs : List (Nat × Nat)) (bs : List Byte) : Reach State :=
  match s.runsAvail core part slot t row runs true with
  | .busy => .busy
  | .miss va => .miss va slot
  | .refused => .code refusedCode
  | .ok =>
    if (joinRuns runs).any fun r => s.imagePart core part slot t (row * tWidth t + r.1) r.2 then .code 0x1C
    else .ok ((joinRuns runs).foldl (fun s r => s.clearImage core part slot t (row * tWidth t + r.1) r.2)
      (s.putRuns core bar part slot t row runs bs))

/-- The swizzle of R48 on one tile row: its own inverse. -/
def swizzle (n i : Nat) (bs : List Byte) : List Byte :=
  if n = 0 then bs
  else (List.range (bs.length / 16)).flatMap fun c => (bs.drop (16 * (c ^^^ (i % 2 ^ n)))).take 16

/-- Tile row `i` of a team's scratchpad tile at `base`. -/
def Team.tileRow (t : Team) (r : BitVec 512) (base i : Nat) : List Byte :=
  swizzle (lySwz r) i (t.engRead (base + i * lyPitch r) (lyPitch r)) ++
    t.engRead (base + (lyRows r + 1) * lyPitch r + i * lyScales r) (lyScales r)
def Team.putTileRow (t : Team) (r : BitVec 512) (base i : Nat) (bs : List Byte) : Team :=
  (t.engWrite (base + i * lyPitch r) (swizzle (lySwz r) i (bs.take (lyPitch r)))).engWrite
    (base + (lyRows r + 1) * lyPitch r + i * lyScales r) (bs.drop (lyPitch r))

/-! ### Operations of a team -/

def EngOp.a (op : EngOp) (i : Nat) : DWord := op.arg.getD i 0
def EngOp.aN (op : EngOp) (i : Nat) : Nat := (op.a i).toNat
def EngOp.lo32 (op : EngOp) (i : Nat) : Nat := fld (op.a i) 31 0
def EngOp.rec0 (op : EngOp) : BitVec 512 := op.recd.getD 0 0

/-- The members of the issuing gang that a multicast mask names, ascending. -/
def Team.named (t : Team) (m : BitVec 8) : List Nat := (List.range 8).filter fun g => m.getLsbD g && decide (g < t.gangSz)

/-- The team of a gang with a GANGIDX, if it has not ended. -/
def State.gangMember (s : State) (gang idx : Nat) : Option (Nat × Team) :=
  s.teams.findSome? fun e => match e.2 with
    | some t => if t.gang = gang ∧ t.gangIdx = idx then some (e.1, t) else none
    | none => none

/-- Where an operation names its status record: bits [31:0] of a scalar (R195). -/
def EngOp.statusOff (op : EngOp) : Option Nat :=
  let n := match op.eng with
    | .copy | .gather => op.lo32 1
    | .near | .coll => op.lo32 0
    | .join => 0xFFFFFFFF
  if n = 0xFFFFFFFF then none else some (n / 16 * 16)

/-- The status area: 32 bytes for CHECKSUM (R206). -/
def EngOp.statusBytes (op : EngOp) : List Byte :=
  let st := natBytes op.status.toNat 16
  if op.eng = .near ∧ fld (op.a 1) 7 0 = 5 then st ++ natBytes op.sum.toNat 8 ++ natBytes 0 8 else st

/-- The slot that a rejected operation's report names. -/
def EngOp.mainSlot (op : EngOp) : Nat :=
  match op.eng with
  | .copy => if op.recd.isEmpty then op.aN 2 % 4096 else lySlot op.rec0
  | .gather => op.aN 2 % 4096
  | .near => fld (op.a 1) 27 16
  | .coll => op.aN 1 % 4096
  | .join => 0

/-- The items of multicast targets that have ended, or whose barrier is inactive, fail with 0x19 (R201, R213). -/
def State.dropTargets (s : State) (t : Team) (op : EngOp) : EngOp :=
  match op.mc, op.rej with
  | some m, none =>
    let rows := lyRows op.rec0 + 1
    let slot := lySlot op.rec0
    let k := fun i => match s.held t.part slot with
      | some tb => keyAddr (tKType tb) (keyOfNat (tKType tb) (op.aN 4) + i * lyKStride op.rec0)
      | none => 0
    let ns := t.named m
    (List.range ns.length).foldl
      (fun op n =>
        let gone := match s.gangMember t.gang (ns.getD n 0) with
          | none => true
          | some (_, tm) => match op.bar with | some b => (tm.bar b).e == 0 | none => false
        if gone then
          { op with bad := (op.bad.filter fun b => b.item / rows < n) ++
              ((List.range rows).map fun i => ⟨n * rows + i, 0x19, k i, slot⟩) ++
              (op.bad.filter fun b => n < b.item / rows) }
        else op) op
  | _, _ => op

/-- The arrivals of an operation (R194, R195, R201): one at the issuing team, or one at each named team that runs. -/
def State.arriveAll (s : State) (tn : Nat) (t : Team) (op : EngOp) : State :=
  match op.bar with
  | none => s
  | some b =>
    match op.mc with
    | none => match s.team tn with
      | some t => s.setTeam tn (some (t.arrive b))
      | none => s
    | some m => (t.named m).foldl
        (fun s g => match s.gangMember t.gang g with
          | some (n, tm) => s.setTeam n (some (tm.arrive b))
          | none => s) s

/-- Finish an operation on its path (R194 step 4). -/
def Team.finishPath (t : Team) (op : EngOp) : Team :=
  match t.groups[op.grp]? with
  | none => t
  | some g =>
    match g.pend.find? fun o => o.kind = .engine op.id with
    | some o => t.putGroup op.grp (g.opLanes o [])
    | none => t

def EngOp.inMask (m : BitVec 4) (op : EngOp) : Bool :=
  match op.eng with
  | .copy => m.getLsbD 0
  | .gather => m.getLsbD 1
  | .near => m.getLsbD 2
  | .coll => m.getLsbD 3
  | .join => false

/-- The first join with no operation before it in a queue it names (R209). -/
def readyJoin : List EngOp → List EngOp → Option EngOp
  | _, [] => none
  | before, op :: r =>
    if op.eng = .join && !(before.any (EngOp.inMask op.mask)) then some op else readyJoin (before ++ [op]) r

/-- Complete every join that can complete. -/
def State.joins (s : State) (tn : Nat) : Nat → State
  | 0 => s
  | n + 1 =>
    match s.team tn with
    | none => s
    | some t => match readyJoin [] t.engs with
      | none => s
      | some op =>
        let s := s.arriveAll tn t op
        match s.team tn with
        | none => s
        | some t =>
          (s.setTeam tn (some ({ t with engs := t.engs.filter fun e => e.id != op.id }.finishPath op))).joins tn n

/-- An engine operation finishes (R194): the status record, the arrivals, the path; its failures are reported. -/
def State.engFinish (s : State) (tn : Nat) (op : EngOp) : State :=
  match s.team tn with
  | none => s
  | some t =>
    let op := s.dropTargets t op
    let t1 := match op.statusOff with
      | some o => t.engWrite o op.statusBytes
      | none => t
    let s := s.setTeam tn (some { t1 with nfail := t1.nfail + op.failed })
    let p := s.partn t.part
    let s := s.setPartn t.part { p with reports := p.reports ++ op.reports t.pos t.spool op.mainSlot }
    let s := s.arriveAll tn t op
    match s.team tn with
    | none => s
    | some t =>
      let t := { t with engs := t.engs.filter fun e => e.id != op.id }.finishPath op
      (s.setTeam tn (some t)).joins tn (t.engs.length + 1)

def State.putEng (s : State) (tn : Nat) (op : EngOp) : State :=
  match s.team tn with
  | none => s
  | some t => s.setTeam tn (some { t with engs := t.engs.map fun e => if e.id = op.id then op else e })

/-- Whether an operation may finish: each completes after the one before it in its queue (R196). -/
def Team.mayFinish (t : Team) (op : EngOp) : Bool :=
  op.eng != .near || (t.engs.find? fun e => e.eng == .near).map EngOp.id == some op.id

/-- Keep an operation, or finish it once no item is left. -/
def State.engKeep (s : State) (tn : Nat) (op : EngOp) : State :=
  if op.begun && op.items.isEmpty && ((s.team tn).map fun t => t.mayFinish op).getD true then s.engFinish tn op
  else s.putEng tn op

/-- Whether every scratchpad access that its group issued before an operation has been made (R198). -/
def Team.scratchDone (t : Team) (op : EngOp) : Bool :=
  match t.groups[op.grp]? with
  | none => true
  | some g => match g.pend.find? fun o => o.kind = .engine op.id with
    | none => true
    | some o => !g.pend.any fun q => decide (q.id < o.id) && !q.lanes.isEmpty &&
        (match q.kind with | .lds | .sts | .atoms _ _ => true | _ => false)

/-- The operation that an engine works on: the first of its queue, with no join before it that names the queue (R196,
R209), and every scratchpad access that its group issued before it done (R198). DESIGN CHOICE (log 76): a later operation of
the copy, gather or collective queue is not begun before it has finished. -/
def Team.engHead (t : Team) (e : Engine) : Option EngOp :=
  match t.engs.find? fun op => op.eng = e || (op.eng = .join && EngOp.inMask op.mask { op with eng := e }) with
  | none => none
  | some op => if op.eng = e ∧ t.scratchDone op = true then some op else none

/-- The engine waits for the translation of an address of a table: reported once, until a RESUME covers it (R315). -/
def State.engStall (s : State) (tn : Nat) (op : EngOp) (va slot : Nat) : State :=
  match s.team tn with
  | none => s
  | some t =>
    (s.teamReport t 7 0 op.eng.code slot 0 (BitVec.ofNat 64 va) []).putEng tn { op with stall := some va }

/-- Begin an operation once the engine has what it reads first. -/
def State.engBegin (s : State) (tn : Nat) (op : EngOp) (f : Reach EngOp) : State :=
  if op.stall.isSome then s
  else match f with
  | .ok op => s.engKeep tn op
  | .code c => s.engKeep tn (op.start [c] [] 0)
  | .miss va slot => s.engStall tn op va slot
  | .busy => s

/-- Do one item: `f` gives what it does, or the failure; a page that is being moved makes it wait; a miss waits, or with
`fail` ends the item with 0x1D. -/
def State.engItem (s : State) (tn : Nat) (op : EngOp) (i : Nat) (fail : Bool) (addr : DWord) (slot : Nat)
    (f : Reach State) (zero : State) : State :=
  if op.stall.isSome && !fail then s
  else match f with
  | .ok s => s.engKeep tn (op.did i none)
  | .code c => zero.engKeep tn (op.did i (some ⟨i, c, addr, slot⟩))
  | .miss va at_ =>
    if fail then zero.engKeep tn (op.did i (some ⟨i, 0x1D, addr, slot⟩))
    else s.engStall tn op va at_
  | .busy => s.putEng tn op

/-! ### Issue (R193, R197, R213) -/

/-- What an engine instruction hands over. -/
def mkEng (eng : Engine) (bar : Option (BitVec 4)) (arg : List DWord) : EngOp :=
  { id := 0, eng := eng, grp := 0, bar := bar.map BitVec.toNat, dir := .ld, kind := .k32, mc := none, mask := 0,
    arg := arg, off := 0, len := 0, begun := false, recd := [], total := 0, items := [], bad := [], rej := none,
    sum := 0, stall := none, read := [], hold := [], coll := none }

/-- Whether the engine's queue has room (R197). -/
def Team.engRoom (t : Team) (e : Engine) : Bool :=
  let n := fun (p : EngOp → Bool) => (t.engs.filter p).length
  match e with
  | .copy | .gather => decide (n (fun o => o.eng = .copy || o.eng = .gather) < shCQ t.shape)
  | .near => decide (n (fun o => o.eng = .near) < 16)
  | .coll => decide (n (fun o => o.eng = .coll) < 8)
  | .join => true

/-- Whether the group is ready as far as the engine's queue goes (R92, R197); without a reservation it takes the fault. -/
def Team.engReady (t : Team) (e : Engine) : Bool :=
  t.engRoom e || ((e = .copy || e = .gather) && shCQ t.shape == 0)

/-- Issue an engine operation once for the group: while its queue is full the group is not ready; the handle, the
reservation and the barrier are checked, in the order of their causes. DESIGN CHOICE (log 77): none of the three faults
raises the path's counter, that of the reservation included. -/
def Iss.engine (x : Iss) (s : State) (path : Path) (handle : Option DWord) (op : EngOp) : State :=
  let badHandle := match handle with | some h => (s.handle x.t.part h).isNone | none => false
  let noBar := match op.bar with | some b => (x.t.bar b).e == 0 | none => false
  if x.act = 0 then x.finish s
  else if !x.t.engReady op.eng then s
  else if badHandle then x.fail s (mkFault 0x0B 0 (handle.getD 0) 0)
  else if (op.eng = .copy || op.eng = .gather) && shCQ x.t.shape == 0 then x.fail s (mkFault 0x12 0 0 0)
  else if noBar then x.fail s (mkFault 0x14 (op.bar.getD 0) 0 0)
  else
    let id := x.t.nextEng
    let g := x.g.addPend { x.op (.engine id) path .part 0 0 0 with lanes := [mkReq 0] }
    let t := { x.t with engs := x.t.engs ++ [{ op with id := id, grp := x.r.grp }], nextEng := id + 1 }
    (Iss.finish { x with g := g, t := t } s).joins x.r.team 1

def execCpy (h : Hdr) (dir : CpyDir) (bar : Option (BitVec 4)) (mc : Option (BitVec 8)) (d a b : BitVec 10)
    (s : State) :=
  onGroup (.cpy h dir bar mc d a b) s fun s x =>
    let r := fun n => x.g.rdS n
    x.engine s .cp (some (r a.toNat))
      { mkEng .copy bar [r d.toNat, r (d.toNat + 1), r a.toNat, r (a.toNat + 1), r b.toNat] with dir := dir, mc := mc }

/-- GATH (R202): an element count above 65,536 is an unused-field trap at issue. -/
def execGath (h : Hdr) (kind : GathKind) (bar : Option (BitVec 4)) (d a b : BitVec 10) (off len : BitVec 16)
    (s : State) :=
  onGroup (.gath h kind bar d a b off len) s fun s x =>
    let r := fun n => x.g.rdS n
    if x.act != 0 && x.t.engReady .gather && decide (65536 < (r (b.toNat + 1)).toNat) then s.illegal x.r x.t x.g 0x0A h.len
    else
      x.engine s .cp (if kind = .ref then none else some (r a.toNat))
        { mkEng .gather bar [r d.toNat, r (d.toNat + 1), r a.toNat, r b.toNat, r (b.toNat + 1)] with
          kind := kind, off := off.toNat * 4, len := (len.toNat + 1) * 4 }

def execNmc (h : Hdr) (bar : Option (BitVec 4)) (d a : BitVec 10) (s : State) :=
  onGroup (.nmc h bar d a) s fun s x =>
    let r := fun n => x.g.rdS (a.toNat + n)
    x.engine s .nm none (mkEng .near bar [x.g.rdS d.toNat, r 0, r 1, r 2, r 3])

def execColl (h : Hdr) (bar : Option (BitVec 4)) (d a : BitVec 10) (s : State) :=
  onGroup (.coll h bar d a) s fun s x =>
    x.engine s .cp (some (x.g.rdS a.toNat))
      (mkEng .coll bar [x.g.rdS d.toNat, x.g.rdS a.toNat, x.g.rdS (a.toNat + 1)])

def execCpyqf (h : Hdr) (bar : Option (BitVec 4)) (mask : BitVec 4) (s : State) :=
  onGroup (.cpyqf h bar mask) s fun s x => x.engine s .cp none { mkEng .join bar [] with mask := mask }

/-! ### The copy engine (R201) -/

/-- The copy engine reaches a CPY: the layout's place, the record, the multicast mask. -/
def State.cpyBegin (s : State) (t : Team) (op : EngOp) : Reach EngOp :=
  let badMask := match op.mc with
    | none => false
    | some m => m == 0 || ((List.range 8).any fun g => m.getLsbD g && decide (t.gangSz ≤ g)) || op.dir != .ld
  let teams := match op.mc with | some m => (t.named m).length | none => 1
  match s.layoutAt (some t.core) t.part (op.a 2) (op.aN 3) with
  | .code c => .ok (op.start (c :: err badMask 0x18) [] 0)
  | .miss va slot => .miss va slot
  | .busy => .busy
  | .ok r => .ok (op.start (s.layoutCodes t.part r ++ err badMask 0x18) [r] ((lyRows r + 1) * teams))

/-- One tile row, or with .mc one tile row as it is delivered to one named team. -/
def State.cpyItem (s : State) (tn : Nat) (t : Team) (op : EngOp) (item : Nat) (fail : Bool) : State :=
  let r := op.rec0
  let slot := lySlot r
  let rows := lyRows r + 1
  let i := item % rows
  match s.held t.part slot with
  | none => s
  | some tb =>
    let k := keyOfNat (tKType tb) (op.aN 4) + i * lyKStride r
    let addr := keyAddr (tKType tb) k
    let target : Option (Nat × Team) := match op.mc with
      | none => some (tn, t)
      | some m => s.gangMember t.gang ((t.named m).getD (item / rows) 0)
    let deliver := fun (s : State) (bs : List Byte) => match target with
      | some (n, tm) => s.setTeam n (some (tm.putTileRow r (op.lo32 0) i bs))
      | none => s
    let zeros := List.replicate (lyPitch r + lyScales r) (0 : Byte)
    match lyRow tb r k with
    | none => s.engItem tn op item fail addr slot (.ok (if op.dir = .ld then deliver s zeros else s)) s
    | some row =>
      let v := some t.core
      let s := s.touchRow v t.part slot tb row
      match op.dir with
      | .ld =>
        s.engItem tn op item fail addr slot
          ((s.readRuns v t.part slot tb row (lyRuns r)).bind fun bs => .ok (deliver s bs)) (deliver s zeros)
      | .st =>
        s.engItem tn op item fail addr slot
          (s.writeRuns v op.bar.isSome t.part slot tb row (lyRuns r) (t.tileRow r (op.lo32 0) i)) s
      | .pf =>
        let f : Reach State := match s.readRuns v t.part slot tb row (lyRuns r) with
          | .code 0x1C => .code 0x1C
          | .miss va slot => if fail then .ok s else .miss va slot
          | .busy => .busy
          | _ => .ok s
        s.engItem tn op item fail addr slot f s

/-- The copy engine works on the head of a team's copy queue: it checks the record, or does one item. -/
def execCopyEngineOperation (tn : Nat) (item : Nat) (fail : Bool) (s : State) : Host.Outcome State Fault Refusal :=
  match s.team tn with
  | none => .next s
  | some t => match t.engHead .copy with
    | none => .next s
    | some op =>
      if !op.begun then
        let s := s.useLayout (some t.core) t.part (op.a 2) (op.aN 3)
        .next (s.engBegin tn op (s.cpyBegin t op))
      else if hasItem item op.items then .next (s.cpyItem tn t op item fail)
      else .next s

/-! ### The gather engine (R203) -/

/-- The table of a GATH by key, or the code that rejects it. DESIGN CHOICE (log 30): the table is checked where there is no
element too. -/
def State.gathBegin (s : State) (t : Team) (op : EngOp) : EngOp :=
  let bad := if op.kind = .ref then false
    else match s.handle t.part (op.a 2) with
      | none => true
      | some (_, tb) =>
        tKind tb != 0 || !tCopy tb || decide (tWidth tb < op.off + op.len) ||
          ktBits (tKType tb) != (if op.kind = .k32 then 32 else 64)
  op.start (err bad 0x1B) [] (op.aN 4)

/-- What the row that a list element names comes to: nothing, the code of the item, or the row. -/
def State.gathRow (s : State) (part : Nat) (op : EngOp) (ev : DWord) : Nat ⊕ Option (Nat × Table × Nat) :=
  if op.kind = .ref then
    match s.held part (fld ev 63 52) with
    | none => .inl 0x1B
    | some tb =>
      let row := fld ev 51 16
      if !tCopy tb || decide (tWidth tb < op.off + op.len) then .inl 0x1B
      else if decide (row < tCap tb) && tRead tb && rowCurrent tb ev then .inr (some (fld ev 63 52, tb, row))
      else .inl 0x1E
  else
    let slot := op.mainSlot
    match s.held part slot with
    | none => .inl 0x1E
    | some tb =>
      let k := keyOfNat (tKType tb) ev.toNat
      .inr (if tLo tb ≤ k ∧ k < tLo tb + tCap tb then some (slot, tb, (k - tLo tb).toNat) else none)

/-- One list element: the first step reads it, once (R204); the next copies the bytes of the row that it named, whole. A
rowref names its table at the first step (R41). -/
def State.gathItem (s : State) (tn : Nat) (t : Team) (op : EngOp) (i : Nat) (fail : Bool) : State :=
  let deliver := fun (s : State) (bs : List Byte) => s.setTeam tn (some (t.engWrite (op.lo32 0 + i * op.len) bs))
  let zeros := List.replicate op.len (0 : Byte)
  match op.read.find? fun e => e.1 == i with
  | none =>
    let es := if op.kind = .k32 then 4 else 8
    let ev : DWord := BitVec.ofNat 64 (leNat (t.engRead (op.lo32 3 + i * es) es))
    if op.kind = .ref ∧ s.table t.part (fld ev 63 52) = none then
      s.engItem tn op i fail ev (fld ev 63 52) (.code 0x1B) (deliver s zeros)
    else s.putEng tn { op with read := op.read ++ [(i, ev)] }
  | some (_, ev) =>
    match s.gathRow t.part op ev with
    | .inl c => s.engItem tn op i fail ev (fld ev 63 52) (.code c) (deliver s zeros)
    | .inr none => s.engItem tn op i fail ev 0 (.ok (deliver s zeros)) s
    | .inr (some (slot, tb, row)) =>
      let s := s.touchRow (some t.core) t.part slot tb row
      s.engItem tn op i fail ev slot
        ((s.readRuns (some t.core) t.part slot tb row [(op.off, op.len)]).bind fun bs => .ok (deliver s bs)) (deliver s zeros)

def execGatherEngineOperation (tn : Nat) (item : Nat) (fail : Bool) (s : State) : Host.Outcome State Fault Refusal :=
  match s.team tn with
  | none => .next s
  | some t => match t.engHead .gather with
    | none => .next s
    | some op =>
      if !op.begun then .next (s.engKeep tn (s.gathBegin t op))
      else if hasItem item op.items then .next (s.gathItem tn t op item fail)
      else .next s

/-! ### The near-memory engine (R205, R206) -/

/-- The 32-byte command. -/
def EngOp.cmd (op : EngOp) : BitVec 256 := op.a 4 ++ op.a 3 ++ op.a 2 ++ op.a 1
def nmCmd (c : BitVec 256) : Nat := fld c 7 0
def nmFmt (c : BitVec 256) : Nat := fld c 11 8
def nmSize (c : BitVec 256) : Nat := if nmFmt c = 5 then 2 else 4
def nmSrc (c : BitVec 256) : Bool := nmCmd c == 3 || nmCmd c == 4
def nmCount (c : BitVec 256) : Nat := fld c 159 144 + 1

/-- Whether a table serves a command: bound, dense, with its right, the keys and the elements within it. -/
def State.nmTable (s : State) (part slot : Nat) (right : Table → Bool) (c : BitVec 256) (off : Nat) : Bool :=
  match s.table part slot with
  | none => false
  | some t =>
    let k := keyOfNat (tKType t) (fld c 127 64)
    tKind t == 0 && right t && decide (tLo t ≤ k ∧ k + fld c 63 32 < tLo t + tCap t) &&
      decide (off + nmCount c * nmSize c ≤ tWidth t)

def State.nmcBegin (s : State) (t : Team) (op : EngOp) : EngOp :=
  let c := op.cmd
  let es := nmSize c
  let bad30 := decide (nmCmd c < 1 ∨ 5 < nmCmd c) || decide (nmFmt c ≠ 4 ∧ nmFmt c ≠ 5) ||
    fld c 175 172 != 0 || fld c 31 28 != 0 || fld c 15 12 != 0 ||
    (!nmSrc c && (fld c 171 160 != 0 || fld c 191 176 != 0)) ||
    fld c 143 128 % es != 0 || (nmSrc c && fld c 191 176 % es != 0)
  let bad31 := !s.nmTable t.part (fld c 27 16) tNear c (fld c 143 128) ||
    (nmSrc c && !s.nmTable t.part (fld c 171 160) tRead c (fld c 191 176))
  op.start (err bad30 0x30 ++ err bad31 0x31) [] (fld c 63 32 + 1)

/-- The elements of a byte list. -/
def elems (es : Nat) : Nat → List Byte → List Nat
  | 0, _ => []
  | n + 1, bs => leNat (bs.take es) :: elems es n (bs.drop es)

/-- An element widened exactly to FP32, and FP32 rounded to the element's format. -/
def nmIn (bf : Bool) (v : Nat) : Nat := if bf then (widen .bf16 v).1.toNat else v
def nmOut (bf : Bool) (v : Nat) : Nat := if bf then (fconv .bf16 .f32 .rn false v).1 else v

/-- A fused multiply-add and a product in FP32, rounded once by .rn. -/
def fma32 (a b c : Nat) : Nat := (ffma .f32 .rn false (fdec .f32 a) (fdec .f32 b) (fdec .f32 c)).1
def mul32 (a b : Nat) : Nat := (fmul .f32 .rn false (fdec .f32 a) (fdec .f32 b)).1
/-- NaN becomes the canonical NaN. -/
def canon32 (v : Nat) : Nat := if (fdec .f32 v).isNaN then fNaN .f32 else v
def neg32 (v : Nat) : Nat := (v + 2 ^ 31) % 2 ^ 32

/-- The new value of a target element `t` with source `x`, both in FP32. -/
def nmApply (cmd av bv t x : Nat) : Nat :=
  match cmd with
  | 1 => canon32 av
  | 2 => mul32 av t
  | 3 => fma32 av x t
  | _ => fma32 (neg32 av) (fma32 bv t x) t

/-- The memory that a row's elements cover, page by page. -/
def State.spanOf (s : State) (v : Option Nat) (part slot : Nat) (t : Table) (off n : Nat) : List (Nat × Nat) :=
  (pageStarts (tHeap t) off n).filterMap fun o =>
    (s.imageKey v part slot t o).map fun k => (k, min (off + n - o) (pagePiece (tHeap t + o) n))

def spansMeet (xs ys : List (Nat × Nat)) : Bool :=
  xs.any fun x => ys.any fun y => decide (x.1 < y.1 + y.2 ∧ y.1 < x.1 + x.2)

/-- The rows that bobbin units hold, but for those of one team. -/
def State.heldSpans (s : State) (but : Option Nat) : List (Nat × Nat) :=
  s.teams.flatMap fun e => match e.2 with
    | some t => if but = some e.1 then [] else t.engs.flatMap fun op => op.hold.flatMap RowHold.span
    | none => []

/-- The rows of a near-memory item that lie within reach, target and source: slot, table, image offset and bytes. -/
def State.nmcRows (s : State) (part : Nat) (op : EngOp) (i : Nat) : List (Nat × Table × Nat × Nat) :=
  let c := op.cmd
  let n := nmCount c * nmSize c
  let one := fun (slot off : Nat) => match s.held part slot with
    | some t => [(slot, t, (keyOfNat (tKType t) (fld c 127 64) + i - tLo t).toNat * tWidth t + off, n)]
    | none => []
  one (fld c 27 16) (fld c 143 128) ++ if nmSrc c then one (fld c 171 160) (fld c 191 176) else []

/-- Whether one half of a lane's store to a range has performed and the other has not (R160). -/
def State.halfStored (s : State) (spans : List (Nat × Nat)) : Bool :=
  s.teams.any fun e => match e.2 with
    | some t => t.groups.any fun g => g.pend.any fun o =>
        o.kind == .store && o.lanes.any fun q => q.half.isSome && spansMeet [(q.addr, 16)] spans
    | none => false

/-- Whether of a .b128 store to a range one half has left its core's outbound writes and the other has not (R160). -/
def State.tornOut (s : State) (spans : List (Nat × Nat)) : Bool :=
  s.cores.any fun c =>
    let hs := c.2.outb.filter fun w => w.half && spansMeet [(w.addr / 16 * 16, 16)] spans
    hs.any fun w =>
      let same := hs.filter fun x => x.who == w.who && x.addr / 16 == w.addr / 16
      2 * (same.filter fun x => x.addr % 16 < 8).length != same.length

/-- The memory of rows `i` to `i + n − 1` of a command, each row whole: what it reads, and what it writes; none where a page
of it is not mapped, or a slot is not bound. -/
def State.nmcMem (s : State) (part : Nat) (op : EngOp) (i n : Nat) : Option (List (Nat × Nat) × List (Nat × Nat)) :=
  let c := op.cmd
  let rows := fun (slot : Nat) => match s.held part slot with
    | none => none
    | some t =>
      let bytes := n * tWidth t
      let sp := s.spanOf none part slot t ((keyOfNat (tKType t) (fld c 127 64) + i - tLo t).toNat * tWidth t) bytes
      if (sp.map Prod.snd).sum = bytes then some sp else none
  match rows (fld c 27 16), if nmSrc c then rows (fld c 171 160) else some [] with
  | some tgt, some src => some (tgt ++ src, if nmCmd c = 5 then [] else tgt)
  | _, _ => none

/-- Whether row `i` of a command waits for an earlier command of its queue: for one that has still to be checked, or of which
a row is left that writes what this row touches, or touches what this row writes (R196). -/
def State.nmcAfter (s : State) (part : Nat) (op : EngOp) (i : Nat) (before : EngOp) : Bool :=
  !before.begun || before.items.any fun r => match s.nmcMem part op i 1, s.nmcMem part before r.1 r.2 with
    | some (xr, xw), some (yr, yw) => spansMeet xr yw || spansMeet xw yr
    | _, _ => true

/-- What the bobbin unit has still to write of a row: element `j` and the entry through which it goes. -/
def State.heldElem (s : State) (part slot : Nat) (tb : Table) (off es j : Nat) (bs : List Byte) :
    Option (HeldElem × Option Nat) :=
  match s.locate none part slot tb (off + j * es) with
  | (va, .ok k leaf _ _) => some ({ num := j, key := k, va := va, bytes := bs }, if isWindow k then none else some leaf)
  | _ => none

/-- The bobbin unit takes up a row, which it holds whole: it makes the cluster points give the row's lines back, reads every
target and source element, and decides whether any of their granules is poisoned, before it writes any (R206, R322). While a
lane's store to what it reads has performed in part it waits, and it waits for a row that another unit holds. -/
def State.nmcItem (s : State) (tn : Nat) (t : Team) (op : EngOp) (i : Nat) : State :=
  let c := op.cmd
  let es := nmSize c
  let n := nmCount c
  match s.nmcRows t.part op i with
  | [] => s
  | (slot, tb, off, len) :: srcs =>
    let rows := (slot, tb, off, len) :: srcs
    let addr := keyAddr (tKType tb) (keyOfNat (tKType tb) (fld c 127 64) + i)
    let s := rows.foldl (fun s r => s.touchImage none t.part r.1 r.2.1 r.2.2.1 r.2.2.2) s
    let at_ := fun (wr : Bool) (r : Nat × Table × Nat × Nat) =>
      (r.1, s.avail none t.part r.1 r.2.1 r.2.2.1 r.2.2.2 wr)
    let reach := (if nmCmd c = 1 then [] else rows.map (at_ false)) ++
      if nmCmd c = 5 then [] else [at_ true (slot, tb, off, len)]
    let item := s.engItem tn op i false addr slot
    match reach.find? fun r => match r.2 with | .miss _ | .refused => true | _ => false with
    | some (at_, .miss va) => item (.miss va at_) s
    | some _ => item (.code 0x31) s
    | none =>
      let span := s.spanOf none t.part slot tb (off - fld c 143 128) (tWidth tb)
      let all := span ++ srcs.flatMap fun r => s.spanOf none t.part r.1 r.2.1 r.2.2.1 r.2.2.2
      if (reach.any fun r => r.2 == .busy) || spansMeet all (s.heldSpans none) || s.halfStored all || s.tornOut all then
        item .busy s
      else if rows.any fun r => s.imagePoison none t.part r.1 r.2.1 r.2.2.1 r.2.2.2 then item (.code 0x32) s
      else
        let s := if nmCmd c = 5 then s else span.foldl (fun s p => s.recallRange p.1 p.2) s
        let read := fun (r : Nat × Table × Nat × Nat) => elems es n (s.imageRead none t.part r.1 r.2.1 r.2.2.1 r.2.2.2)
        let tv := read (slot, tb, off, len)
        if nmCmd c = 5 then
          s.engKeep tn ({ op with sum := op.sum + BitVec.ofNat 64 (tv.foldl (· + ·) 0) }.did i none)
        else
          let bf := nmFmt c == 5
          let xv := match srcs with | r :: _ => read r | [] => List.replicate n 0
          let out := (tv.zip xv).map fun p =>
            natBytes (nmOut bf (nmApply (nmCmd c) (fld c 223 192) (fld c 255 224) (nmIn bf p.1) (nmIn bf p.2))) es
          let todo := (List.range n).filterMap fun j => s.heldElem t.part slot tb off es j (out.getD j [])
          let h : RowHold := { item := i, span := span, todo := todo.map Prod.fst }
          (todo.foldl (fun (s : State) e => s.setD e.2) s).putEng tn { op with hold := op.hold ++ [h] }

/-- The bobbin unit writes element `j` of a row that it holds, where the row lay when it was taken up (R322, R324); after the
last the row is done. The issuing core may keep an older copy (R206), but where the command is to arrive at a barrier
(R213). -/
def State.nmcElem (s : State) (tn : Nat) (t : Team) (op : EngOp) (row j : Nat) : State :=
  match op.hold.find? fun h => h.item == row with
  | none => s
  | some h => match h.todo.find? fun e => e.num == j with
    | none => s
    | some e =>
      let s := s.homeWrite t.part e.va e.key e.bytes
      let s := if op.bar.isSome then s.dropLines t.core e.key e.bytes.length else s
      let todo := h.todo.filter fun e => e.num != j
      let rest := op.hold.filter fun h => h.item != row
      if todo.isEmpty then s.engKeep tn ({ op with hold := rest }.did row none)
      else s.putEng tn { op with hold := rest ++ [{ h with todo := todo }] }

/-- The commands that the near-memory engine may work on, in issue order: those before the first join that names its queue
(R209). -/
def Team.nearQueue (t : Team) : List EngOp :=
  (t.engs.takeWhile fun op => !(op.eng == .join && op.mask.getLsbD 2)).filter fun op => op.eng == .near

/-- The near-memory engine checks a command, takes up a row of it, writes an element of a row that it holds, or finishes it
once no row is left. Its units work on several rows and commands at a time (R206, R322), each command finishing after the one
before it (R196). -/
def execNearMemoryCommandApply (tn : Nat) (pick : NearPick) (s : State) : Host.Outcome State Fault Refusal :=
  match s.team tn with
  | none => .next s
  | some t => match t.nearQueue[pick.op]? with
    | none => .next s
    | some op =>
      if !t.scratchDone op then .next s
      else if !op.begun then .next (s.engKeep tn (s.nmcBegin t op))
      else if op.items.isEmpty then .next (s.engKeep tn op)
      else match pick.elem with
        | some j => .next (s.nmcElem tn t op pick.row j)
        | none =>
          if !hasItem pick.row op.items || (op.hold.any fun h => h.item == pick.row) ||
            (t.nearQueue.take pick.op).any (s.nmcAfter t.part op pick.row) then .next s
          else .next (s.nmcItem tn t op pick.row)

/-! ### The collective engine (R207, R208, R340) -/

def coKind (r : BitVec 512) : Nat := fld r 3 0
def coRed (r : BitVec 512) : Nat := fld r 7 4
def coFmt (r : BitVec 512) : Nat := fld r 11 8
def coSrc (r : BitVec 512) : Nat := fld r 39 28
def coDst (r : BitVec 512) : Nat := fld r 51 40
def coComm (r : BitVec 512) : Nat := fld r 63 52
def coSPos (r : BitVec 512) : Nat := fld r 127 64
def coDPos (r : BitVec 512) : Nat := fld r 191 128
def coCount (r : BitVec 512) : Nat := fld r 255 192
def coSize (r : BitVec 512) : Nat := if coFmt r = 5 then 2 else 4

/-- Where the operand block lies, the first 64 bytes of a row: its slot and table, and its offset in the image. -/
def State.coBlockAt (s : State) (part : Nat) (h key : DWord) : Option (Nat × Table × Nat) :=
  match s.handle part h with
  | none => none
  | some (slot, t) =>
    let k := keyOfNat (tKType t) key.toNat
    if tKind t != 0 || decide (tWidth t < 64 ∨ k < tLo t ∨ tLo t + tCap t ≤ k) then none
    else some (slot, t, (k - tLo t).toNat * tWidth t)

/-- The operand block. DESIGN CHOICE (log 52): in a poisoned granule it is read as it stands. -/
def State.coBlock (s : State) (part : Nat) (h key : DWord) : Reach (BitVec 512) :=
  match s.coBlockAt part h key with
  | none => .code 0x39
  | some (slot, t, off) => (s.unitRead none part slot t off 64 0x39).bind fun bs => .ok (BitVec.ofNat 512 (leNat bs))

/-- The pages of an operand block, and of a communicator, are used as they are read (R316). -/
def State.useBlock (s : State) (part : Nat) (h key : DWord) : State :=
  match s.coBlockAt part h key with
  | some (slot, t, off) => s.useImage none part slot t off 64
  | none => s
def State.useComm (s : State) (part comm : Nat) : State :=
  match s.table part comm with
  | some t => s.useImage none part comm t 0 (tCap t * 16)
  | none => s

/-- The COLLs that a partition of this device has joined on a communicator. -/
def State.joined (s : State) (comm : BitVec 256) (part : Nat) : List CollPart :=
  match s.colls.find? fun j => decide (j.comm = comm ∧ j.part = part) with
  | some j => j.colls
  | none => []
def State.setJoined (s : State) (comm : BitVec 256) (part : Nat) (l : List CollPart) : State :=
  { s with colls := (s.colls.filter fun j => !decide (j.comm = comm ∧ j.part = part)) ++
      [{ comm := comm, part := part, colls := l }] }

/-- A partition joins one more COLL on a communicator. -/
def State.joinColl (s : State) (comm : BitVec 256) (part : Nat) (r : BitVec 512) : State :=
  s.setJoined comm part (s.joined comm part ++ [{ block := r, sent := none }])

/-- The communicator in a slot, and the issuing partition's rank: the key of the one valid row that names it (R207, R340).
DESIGN CHOICE (log 53): with LO below 0 there is no rank. -/
def State.coRank (s : State) (part comm : Nat) : Reach CollAt :=
  match s.table part comm with
  | none => .code 0x39
  | some t =>
    if tKind t != 0 || tWidth t != 16 || decide (tLo t < 0) then .code 0x39
    else (s.unitRead none part comm t 0 (tCap t * 16) 0x39).bind fun bs =>
      let row := fun q => BitVec.ofNat 64 (leNat ((bs.drop (q * 16)).take 8))
      let local_ := fun q => fbit (row q) 63 && fld (row q) 41 32 == s.devNum
      let digest := sha256 bs
      match (List.range (tCap t)).filter fun q => local_ q && fld (row q) 4 0 == part with
      | [q] => .ok
        { comm := digest, k := (s.joined digest part).length, lo := (tLo t).toNat, rank := (tLo t).toNat + q,
          ranks := (List.range (tCap t)).map fun q => if local_ q then some (fld (row q) 4 0) else none }
      | _ => .code 0x39

/-- The destination's element count. -/
def coItems (r : BitVec 512) (n : Nat) : Nat := if coKind r = 3 then n * coCount r else coCount r
/-- The first and the number of the elements that lie at SPOS and at DPOS: ranks and their parts count from key 0. -/
def coSources (r : BitVec 512) (c : CollAt) : Nat := if coKind r = 2 then (c.lo + c.ranks.length) * coCount r else coCount r
def coTargets (r : BitVec 512) (c : CollAt) : Nat := if coKind r = 3 then (c.lo + c.ranks.length) * coCount r else coCount r

/-- Check an operand block against its communicator, where there is one (R195, R207). -/
def State.coCodes (s : State) (part : Nat) (r : BitVec 512) (comm : Option CollAt) : List Nat :=
  let bad38 := decide (coKind r < 1 ∨ 3 < coKind r) || decide (2 < coRed r) || (coKind r == 3 && coRed r != 0) ||
    !([0, 1, 4, 5].contains (coFmt r)) || decide (coCount r < 1 ∨ 2 ^ 40 < coCount r) ||
    fld r 511 256 != 0 || fld r 27 12 != 0
  let fits := fun slot pos n => match s.table part slot with
    | some t => tKind t == 0 && tCopy t && decide (pos + n * coSize r ≤ tBytes t)
    | none => false
  let bad39 := match comm with
    | none => true
    | some c => !fits (coSrc r) (coSPos r) (coSources r c) || !fits (coDst r) (coDPos r) (coTargets r c)
  err bad38 0x38 ++ err bad39 0x39

/-- Whether two ranks' operand blocks agree. -/
def coAgree (a b : BitVec 512) : Bool :=
  coKind a == coKind b && coRed a == coRed b && coFmt a == coFmt b && coCount a == coCount b

/-- The issuing rank joins: its block and its communicator are checked. -/
def State.coJoin (s : State) (part : Nat) (op : EngOp) (h key : DWord) : Reach (State × EngOp) :=
  (s.coBlock part h key).bind fun r =>
    let s := (s.useBlock part h key).useComm part (coComm r)
    match s.coRank part (coComm r) with
    | .miss va slot => .miss va slot
    | .busy => .busy
    | .code _ => .ok (s, op.start (s.coCodes part r none) [r] 0)
    | .ok c =>
      let op := { op with recd := [r], coll := some c, stall := none }
      .ok (s.joinColl c.comm part r, match s.coCodes part r (some c) with | [] => op | cs => op.start cs [r] 0)

/-- What a rank other than the issuing one has brought to the COLL: whether it agrees, once it is known. A rank of this
device brings the block with which it joined; of another device, what it announces. -/
def State.coPeer (s : State) (r : BitVec 512) (c : CollAt) (heads : List CoHead) (q : Nat) : Option Bool :=
  let head := heads.find? fun h => h.rank == c.lo + q
  match (c.ranks[q]?).getD none with
  | some p => match (s.joined c.comm p)[c.k]? with
    | some b => some (coAgree r b.block)
    | none => match head with
      | some h => if h.digest != c.comm && !(s.joined h.digest p).isEmpty then some false else none
      | none => none
  | none =>
    if !(s.onSkein && s.portUp) then none
    else head.map fun h => h.digest == c.comm && coAgree r h.block

/-- The first step of a collective whose rank has joined: its tables are checked again, one of which may have been unbound
meanwhile (R41), and every rank's digest and block are compared (R195, R340). -/
def State.coOpen (s : State) (part : Nat) (op : EngOp) (c : CollAt) (heads : List CoHead) : Reach EngOp :=
  let r := op.rec0
  let peers := ((List.range c.ranks.length).filter fun q => c.lo + q != c.rank).map (s.coPeer r c heads)
  let aborted := s.aborted.contains (part, coComm r)
  let own := s.coCodes part r (some c)
  if own.isEmpty && !aborted && peers.any Option.isNone then .busy
  else
    .ok (op.start (own ++ err (peers.contains (some false)) 0x3A ++ err aborted 0x3B) [r] (coItems r c.ranks.length))

/-- Combine two elements in their format's working form. -/
def coCombine (fmt red : Nat) (a b : Nat) : Nat :=
  let ty := if fmt = 0 then ITy.s32 else ITy.b32
  let i := fun (f : DWord → DWord → DWord × Word) => (f (BitVec.ofNat 64 a) (BitVec.ofNat 64 b)).1.toNat
  if fmt ≤ 1 then
    match red with
    | 0 => i (iaddF ty false)
    | 1 => i (iminF ty)
    | _ => i (imaxF ty)
  else
    match red with
    | 0 => (fadd .f32 .rn false (fdec .f32 a) (fdec .f32 b)).1
    | 1 => (fminmax .f32 false a b).1
    | _ => (fminmax .f32 true a b).1

/-- The ranks at the leaves of a reduction tree. -/
def treeRanks : RTree → List Nat
  | .leaf q => [q]
  | .node a b => treeRanks a ++ treeRanks b

/-- The ranks' elements combined along a tree. -/
def treeCombine (fmt red : Nat) (v : Nat → Nat) : RTree → Nat
  | .leaf q => nmIn (fmt == 5) (v q)
  | .node a b => coCombine fmt red (treeCombine fmt red v a) (treeCombine fmt red v b)

/-- The reduction of the ranks' elements along a tree, of any shape (R126, R208). -/
def coReduce (fmt red : Nat) (tree : RTree) (v : Nat → Nat) : Nat :=
  (if fmt = 4 then canon32 else nmOut (fmt == 5)) (treeCombine fmt red v tree)

/-- Whether a tree takes each of the ranks once. -/
def treeCovers (tree : RTree) (lo n : Nat) : Bool :=
  (treeRanks tree).length == n && (List.range n).all fun q => (treeRanks tree).contains (lo + q)

/-- Element `j` of a source on this device. A poisoned one has code 0x3C (R332). -/
def State.coRead (s : State) (part : Nat) (r : BitVec 512) (j : Nat) : Reach Nat :=
  match s.held part (coSrc r) with
  | none => .code 0x3C
  | some t =>
    let es := coSize r
    let off := coSPos r + j * es
    let x := s.touchImage none part (coSrc r) t off es
    if s.avail none part (coSrc r) t off es false == .ok && x.imagePoison none part (coSrc r) t off es then .code 0x3C
    else (s.unitRead none part (coSrc r) t off es 0x3C).bind fun bs => .ok (leNat bs)

/-- The first `n` elements of a source, a poisoned one none. -/
def State.coReadAll (s : State) (part : Nat) (r : BitVec 512) : Nat → Reach (List (Option Nat))
  | 0 => .ok []
  | n + 1 => (s.coReadAll part r n).bind fun l => match s.coRead part r n with
    | .ok v => .ok (l ++ [some v])
    | .code _ => .ok (l ++ [none])
    | .miss va slot => .miss va slot
    | .busy => .busy

/-- The pages of the sources that a destination element reads on this device are used (R316). -/
def State.useSource (s : State) (part : Nat) (r : BitVec 512) (j n : Nat) : State :=
  match s.held part (coSrc r) with
  | some t => s.useImage none part (coSrc r) t (coSPos r + j * coSize r) (n * coSize r)
  | none => s
def State.useSources (s : State) (part : Nat) (r : BitVec 512) (c : CollAt) (i : Nat) : State :=
  let j := if coKind r = 2 then c.rank * coCount r + i else if coKind r = 3 then i % coCount r else i
  ((List.range c.ranks.length).filter fun q => coKind r != 3 || q == i / coCount r).foldl
    (fun s q =>
      if c.lo + q = c.rank then s.useSource part r j 1
      else match (c.ranks[q]?).getD none with
        | some p => match (s.joined c.comm p)[c.k]? with
          | some b => if b.sent.isNone then s.useSource p b.block j 1 else s
          | none => s
        | none => s) s

/-- Before a rank's COLL finishes, which frees its source, the elements that the other ranks of this device may still want
are read (R208). -/
def State.coSend (s : State) (part : Nat) (r : BitVec 512) (c : CollAt) : Reach State :=
  if (c.ranks.filterMap id).all fun p => p == part then .ok s
  else (s.coReadAll part r (coSources r c)).bind fun l =>
    let s := s.useSource part r 0 (coSources r c)
    let js := s.joined c.comm part
    match js[c.k]? with
    | some j => .ok (s.setJoined c.comm part (js.set c.k { j with sent := some l }))
    | none => .ok s

/-- Element `j` of rank `q`'s source: read here for a rank of this device, sent by the others; it waits while it is not
known. What keeps another rank's page back is that rank's to report. DESIGN CHOICE (log 71): of a rank whose COLL was
rejected after it joined, or aborted, the source is read as it stands. -/
def State.coElem (s : State) (part : Nat) (r : BitVec 512) (c : CollAt) (far : CoFar) (q j : Nat) : Reach Nat :=
  if q = c.rank then s.coRead part r j
  else match (c.ranks[q - c.lo]?).getD none with
    | some p => match (s.joined c.comm p)[c.k]? with
      | some b => match b.sent with
        | some l => match (l[j]?).getD none with
          | some v => .ok v
          | none => .code 0x3C
        | none => match s.coRead p b.block j with
          | .miss _ _ => .busy
          | x => x
      | none => .busy
    | none => match if s.onSkein && s.portUp then far.elems.find? fun e => e.1 == q else none with
      | none => .busy
      | some (_, none) => .code 0x3C
      | some (_, some w) => .ok (w.toNat % 2 ^ (8 * coSize r))

/-- The elements of several ranks: all known, else the first that is not. -/
def collectReach (f : Nat → Reach Nat) : List Nat → Reach (List (Nat × Nat))
  | [] => .ok []
  | q :: qs => (f q).bind fun v => (collectReach f qs).bind fun vs => .ok ((q, v) :: vs)

/-- One destination element (R208). -/
def State.coValue (s : State) (part : Nat) (r : BitVec 512) (c : CollAt) (i : Nat) (far : CoFar) : Reach Nat :=
  if coKind r = 3 then s.coElem part r c far (c.lo + i / coCount r) (i % coCount r)
  else if !treeCovers far.tree c.lo c.ranks.length then .busy
  else
    (collectReach (fun q => s.coElem part r c far q (if coKind r = 2 then c.rank * coCount r + i else i))
      ((List.range c.ranks.length).map fun q => c.lo + q)).bind fun vs =>
        .ok (coReduce (coFmt r) (coRed r) far.tree fun q => ((vs.find? fun e => e.1 == q).map Prod.snd).getD 0)

/-- Where the destination element of an item lies. -/
def coAt (r : BitVec 512) (c : CollAt) (i : Nat) : Nat :=
  coDPos r + (if coKind r = 3 then c.lo * coCount r + i else i) * coSize r

/-- Write one destination element, once its page can be written. A poisoned source, or a poisoned granule there, is the
item's failure (R332). -/
def State.coWrite (s : State) (core : Option Nat) (bar : Bool) (part : Nat) (r : BitVec 512) (off : Nat) (v : Reach Nat) :
    Reach State :=
  match s.held part (coDst r) with
  | none => .code 0x3C
  | some t =>
    let es := coSize r
    let reach := s.avail core part (coDst r) t off es true
    match v, reach with
    | .busy, _ => .busy
    | .miss va slot, _ => .miss va slot
    | _, .busy => .busy
    | _, .miss va => .miss va (coDst r)
    | _, .refused => .code 0x39
    | .code c, .ok => .code c
    | .ok n, .ok =>
      let s := s.touchImage core part (coDst r) t off es
      if s.imagePoison core part (coDst r) t off es then .code 0x3C
      else .ok (s.unitWrite core bar part (coDst r) t off (natBytes n es))

/-- The granule of a destination element whose item fails is poisoned (R332), its page being used first. -/
def State.coPoison (s : State) (core : Option Nat) (part : Nat) (r : BitVec 512) (off : Nat) : State :=
  match s.held part (coDst r) with
  | none => s
  | some t =>
    let s := s.touchImage core part (coDst r) t off (coSize r)
    match s.imageKey core part (coDst r) t off with
    | some k => if isWindow k then s else s.addPoison k
    | none => s

/-- COLL: the rank joins, the ranks' communicators and blocks are compared, then element after element is written. -/
def execCollectiveOperation (tn : Nat) (item : Nat) (far : CoFar) (heads : List CoHead) (s : State) :
    Host.Outcome State Fault Refusal :=
  match s.team tn with
  | none => .next s
  | some t => match t.engHead .coll with
    | none => .next s
    | some op => match op.coll with
      | none =>
        if op.stall.isSome then .next s
        else match s.coJoin t.part op (op.a 1) (op.a 2) with
          | .ok (s, op) => .next (s.engKeep tn op)
          | .code c => .next (s.engKeep tn (op.start [c] [] 0))
          | .miss va slot => .next (s.engStall tn op va slot)
          | .busy => .next s
      | some c =>
        let r := op.rec0
        if !op.begun then .next (s.engBegin tn op (s.coOpen t.part op c heads))
        else if hasItem item op.items then
          let off := coAt r c item
          let v := some t.core
          match if itemsLeft op.items = 1 then s.coSend t.part r c else .ok s with
          | .ok s =>
            let s := s.useSources t.part r c item
            .next (s.engItem tn op item false (BitVec.ofNat 64 off) (coDst r)
              (s.coWrite v op.bar.isSome t.part r off (s.coValue t.part r c item far)) (s.coPoison v t.part r off))
          | .miss va slot => .next (if op.stall.isSome then s else s.engStall tn op va slot)
          | _ => .next s
        else .next s

end Sys2Proof.Machine
end

