-- ==== Sys2Proof/Machine/Sync.lean ====
section
/-! DEFINITION. Barriers (R210 to R213), the grid barrier (R271, R272) and gates (R282 to R288, R319). -/

namespace Sys2Proof.Machine

/-! ### Team barriers (R212) -/

/-- The membership check shared by the four barrier instructions and BARG: the fault's lanes if the mask differs from
the lanes that take part. -/
def Iss.maskFault (x : Iss) (m : Word) : Option Lanes :=
  if m != x.act then some (x.act ||| (m &&& x.g.run)) else none

/-- A barrier instruction: the mask is checked, and with no lane taking part nothing happens. -/
def onBarrier (i : Instr) (b : BitVec 4) (a : BitVec 6) (s : State) (k : State → Iss → State) :
    Host.Outcome State Fault Refusal :=
  onGroup i s fun s x =>
    let m : Word := (x.g.rdS a.toNat).setWidth 32
    match x.maskFault m with
    | some ls => x.failOn s ls (mkFault 0x13 b.toNat (m.setWidth 64) 0)
    | none => if x.act = 0 then x.finish s else k s x

def execBarinit (h : Hdr) (b : BitVec 4) (a : BitVec 6) (count : BitVec 12) (s : State) :=
  onBarrier (.barinit h b a count) b a s fun s x =>
    let t := x.t.setBar b.toNat { x.t.bar b.toNat with e := count.toNat, a := 0 }
    Iss.finish { x with t := t } s

/-- Whether the group's earlier stores of scope team or wider and its earlier scratchpad accesses have performed. -/
def Group.arrivalReady (g : Group) : Bool :=
  g.pend.all fun o => o.lanes.isEmpty ||
    (match o.kind with
      | .store => o.scope = .grp
      | .lds | .sts | .atoms _ _ => false
      | _ => true)

def execBararr (h : Hdr) (b : BitVec 4) (a : BitVec 6) (s : State) :=
  onBarrier (.bararr h b a) b a s fun s x =>
    if (x.t.bar b.toNat).e = 0 then x.fail s (mkFault 0x14 b.toNat ((x.g.rdS a.toNat) &&& 0xFFFFFFFF) 0)
    else if !x.g.arrivalReady then s
    else Iss.finish { x with t := x.t.arrive b.toNat } s

def execBarwait (h : Hdr) (b : BitVec 4) (a : BitVec 6) (phase : Bool) (s : State) :=
  onBarrier (.barwait h b a phase) b a s fun s x => if (x.t.bar b.toNat).ph != phase then x.finish s else s

def execBartest (h : Hdr) (d : BitVec 3) (a : BitVec 6) (b : BitVec 4) (phase : Bool) (s : State) :=
  onBarrier (.bartest h d a b phase) b a s fun s x =>
    Iss.finish { x with g := x.g.wrPOn d.toNat x.act (if (x.t.bar b.toNat).ph != phase then allOnes else 0) } s

/-! ### The grid barrier (R272) -/

/-- The grid that a spool and ring position name. -/
def Partition.grid (p : Partition) (spool pos : Nat) : Option Grid :=
  p.grids.find? fun g => decide (g.spool = spool ∧ g.pos = pos)
def Partition.putGrid (p : Partition) (g : Grid) : Partition :=
  { p with grids := p.grids.map fun x => if x.spool = g.spool ∧ x.pos = g.pos then g else x }
def State.putGrid (s : State) (part : Nat) (g : Grid) : State := s.setPartn part ((s.partn part).putGrid g)

/-- The resident teams of a grid, with their serial numbers. -/
def State.gridTeams (s : State) (part spool pos : Nat) : List (Nat × Team) :=
  s.teams.filterMap fun e => match e.2 with
    | some t => if t.part = part ∧ t.spool = spool ∧ t.pos = pos then some (e.1, t) else none
    | none => none

/-- Every group of the grid has arrived in this phase or ended. -/
def State.gridFull (s : State) (part : Nat) (g : Grid) : Bool :=
  let per := shG (recShape g.record) + 1
  let counts := fun (x : Group) => x.ended || x.barg == some g.phase
  let here := (s.gridTeams part g.spool g.pos).foldl (fun n t => n + (t.2.groups.filter counts).length) 0
  decide ((recTeams g.record + 1) * per ≤ g.ended * per + here)

def State.dropL1 (s : State) (core : Nat) : State := s.setCore core { s.core core with l1 := [] }

/-- A phase of the grid barrier completes: cluster points write back, the grid's cores drop their L1 copies, and the
waiting groups are released. -/
def State.gridPhase (s : State) (part : Nat) (g : Grid) : State :=
  let p := s.partn part
  let s := ((List.range (pClusters p)).map fun i => pFirst p + i).foldl (fun s c => s.writeBackAll c) s
  let s := (s.gridTeams part g.spool g.pos).foldl (fun s t => s.dropL1 t.2.core) s
  s.putGrid part { g with phase := g.phase + 1 }

/-- BARG acts once for the group, whatever EM holds (R272): it arrives once its LD, ST and TB counts are 0 and its
core has nothing outbound, and then waits until the phase completes. The arrival stands where a trap or a stop takes the
group away from the wait (R305). -/
def execBarg (h : Hdr) (a : BitVec 6) (s : State) :=
  onGroup (.barg h a) s fun s x =>
    let m : Word := (x.g.rdS a.toNat).setWidth 32
    match (s.partn x.t.part).grid x.t.spool x.t.pos with
    | none => s
    | some gr =>
      let pass := Iss.finish { x with g := { x.g with barg := none } }
      match x.g.barg with
      | some ph =>
        if gr.phase ≠ ph then pass s
        else if s.gridFull x.t.part gr then pass (s.gridPhase x.t.part gr) else s
      | none =>
        match x.maskFault m with
        | some ls => x.failOn s ls (mkFault 0x13 0 (m.setWidth 64) 0)
        | none =>
          if x.g.count .ld != 0 || x.g.count .st != 0 || x.g.count .tb != 0 || !(s.core x.t.core).outb.isEmpty then s
          else
            let s := s.putGroup x.r { x.clearRs with barg := some gr.phase }
            if s.gridFull x.t.part gr then pass (s.gridPhase x.t.part gr) else s

/-! ### Gates and where they are (R282, R283, R319) -/

/-- A gate's name on every part. -/
def gateKey (dev num : Nat) : Nat := dev * 65536 + num

/-- Follow forwarding entries: this part's own, and those that requests to other parts have met. -/
def State.gateAt (s : State) : Nat → Nat → Nat
  | 0, k => k
  | n + 1, k =>
    if k / 65536 = s.devNum then
      match (s.gate (k % 65536)).fwd with
      | some (d, m) => s.gateAt n (gateKey d m)
      | none => k
    else match s.redirect.find? fun e => e.1 == k with
      | some e => s.gateAt n e.2
      | none => k

/-- Where a gate is now. -/
def State.gateHome (s : State) (k : Nat) : Nat := s.gateAt (s.gates.length + s.redirect.length + 1) k
/-- The number of a gate that this part homes. -/
def State.gateHere (s : State) (k : Nat) : Option Nat :=
  let h := s.gateHome k
  if h / 65536 = s.devNum then some (h % 65536) else none

def aclV (e : Word) : Bool := fbit e 31
def aclFor (e : Word) (dev part : Nat) : Bool := aclV e && decide (fld e 27 18 = dev ∧ fld e 4 0 = part)

/-- The access entry of a partition, with its index. -/
def gateEntry (g : Gate) (dev part : Nat) : Option (Nat × Word) :=
  (List.range 8).findSome? fun i =>
    let e := tget 0 g.acl i
    if aclFor e dev part then some (i, e) else none

/-! ### Grants (R285, R288) -/

/-- Whether a held signal still stands: one whose group has its grant alone lapses with the grant. -/
def State.heldLive (s : State) (n : Nat) (h : HeldSig) : Bool :=
  match h.who with
  | .asked r => match s.group r with
    | some (_, g) => g.grant == some (gateKey s.devNum n)
    | none => false
  | _ => true

/-- The signals held at a gate: at most 16, those included that are granted and have not issued. -/
def State.heldAt (s : State) (n : Nat) : List HeldSig := (s.gate n).held.filter (s.heldLive n)

/-- The answer to a grant request. -/
inductive Grant where
  | fault (detail slot : Nat)
  | wait
  | far (slot : Nat)               -- another part's gate unit answers
  | ok (gate : Nat) (s : State)

/-- The gate unit of gate `n` of this part grants a right to a partition, or withholds the grant. -/
def State.grantAt (s : State) (n slot dev part right : Nat) : Grant :=
  let g := s.gate n
  if g.st = 0 then .fault 1 slot
  else match gateEntry g dev part with
    | none => .fault 2 slot
    | some (i, en) =>
      if !fbit en right then .fault 2 slot
      else if g.st ≠ 1 && !(right == 28 && decide ((s.heldAt n).length < 16)) then .wait
      else
        let tok := tget 0 g.tok i
        if g.limen && tok == 0 then (if g.mode then .fault 3 slot else .wait)
        else if g.limen then .ok (gateKey s.devNum n) (s.setGate n { g with tok := tset 0 g.tok i (tok - 1) })
        else .ok (gateKey s.devNum n) s

/-- Ask for a right on the gate that a handle names. -/
def State.grant (s : State) (part : Nat) (h : DWord) (right : Nat) : Grant :=
  let slot := fld h 11 0
  let e := tget 0 (s.partn part).gateSlots slot
  if fld h 63 12 != 0 || !fbit e 63 then .fault 1 slot
  else match s.gateHere (gateKey (fld e 41 32) (fld e 15 0)) with
    | none => .far slot
    | some n => s.grantAt n slot s.devNum part right

/-- The handle and right that a gate instruction asks for. -/
def Instr.gateAsk : Instr → Option (BitVec 6 × Nat)
  | .gsig _ a _ => some (a, 28)
  | .gwait _ _ a _ => some (a, 29)
  | .grd _ _ a | .gtry _ _ a _ => some (a, 30)
  | _ => none

/-- The group's grid has a stalled group in this microsecond (R291). -/
def State.stallGrid (s : State) (t : Team) : State :=
  match (s.partn t.part).grid t.spool t.pos with
  | some g => s.putGrid t.part { g with stall := true }
  | none => s

/-- A gate instruction: nothing without a lane; with the grant that it holds or asks for now, its own effect; else a
gate fault, or it waits. -/
def onGate (i : Instr) (s : State) (k : State → Iss → Nat → State) : Host.Outcome State Fault Refusal :=
  onGroup i s fun s x =>
    if x.act = 0 then x.finish s
    else match x.g.grant, Instr.gateAsk i with
      | some n, _ => k s x n
      | none, none => s
      | none, some (a, right) =>
        let hd := x.g.rdS a.toNat
        match s.grant x.t.part hd right with
        | .fault d slot => x.fail s (mkFault 0x18 d hd (mkAux slot 0))
        | .wait => s.stallGrid x.t
        | .far _ => s
        | .ok n s => k s x n

/-- A gate operation joins the GT queue. -/
def Iss.gateOp (x : Iss) (kind : PKind) (lanes : List LaneReq) : Iss :=
  { x with g := x.g.addPend { x.op kind .gt .part 0 0 0 with lanes := lanes } }

/-- A signal joins those held at a gate, in the place of its grant. -/
def holdSig (held : List HeldSig) (r : GRef) (h : HeldSig) : List HeldSig :=
  if held.any fun x => x.who == .asked r then held.map fun x => if x.who = .asked r then h else x else held ++ [h]

def execGsig (h : Hdr) (a : BitVec 6) (v : GateArg) (s : State) :=
  onGate (.gsig h a v) s fun s x k =>
    let add := x.g.rdGateArg v
    let s := match s.gateHere k with
      | some n =>
        let g := s.gate n
        if g.st = 1 then s else s.setGate n { g with held := holdSig g.held x.r ⟨.group x.r x.g.nextOp, add⟩ }
      | none => s
    (x.gateOp (.gsig k add) [mkReq 0]).finish s

def execGrd (h : Hdr) (d a : BitVec 6) (s : State) :=
  onGate (.grd h d a) s fun s x n => (x.gateOp (.grd n d.toNat) [mkReq 0]).finish s

def execGtry (h : Hdr) (d : BitVec 3) (a : BitVec 6) (v : GateArg) (s : State) :=
  onGate (.gtry h d a v) s fun s x n =>
    (x.gateOp (.gtry n d.toNat (x.g.rdGateArg v)) ((laneList x.act).map mkReq)).finish s

/-- The gate of a gate operation. -/
def PKind.gate : PKind → Option Nat
  | .gsig n _ | .grd n _ | .gtry n _ _ => some n
  | _ => none

/-- Whether an operation older than `op` of the group has still to take its point at a gate (R287). -/
def State.gateOlder (s : State) (g : Group) (op k : Nat) : Bool :=
  g.pend.any fun p => decide (p.id < op) && p.kind.gate.map s.gateHome == some (s.gateHome k) && !p.lanes.isEmpty

/-- GWAIT (R286): after the group's older operations at the gate it is answered at its first point, or is registered at
the gate until a later signal answers it; a frozen gate answers nobody (R288). -/
def execGwait (h : Hdr) (d a : BitVec 6) (v : GateArg) (s : State) :=
  onGroup (.gwait h d a v) s fun s x =>
    match x.g.wait with
    | .gwait _ _ (some v) => Iss.finish { x with g := x.g.wrS d.toNat v } s
    | .gwait _ _ none => s
    | _ =>
      if x.act = 0 then x.finish s
      else
        let t := x.g.rdGateArg v
        let wait := fun (s : State) (k : Nat) =>
          s.putGroup x.r { x.g with wait := .gwait k t none, grant := none }
        let go := fun (s0 s : State) (k : Nat) =>
          if s.gateOlder x.g x.g.nextOp k then s0
          else match s.gateHere k with
            | some n =>
              let g := s.gate n
              if g.st = 1 ∧ t ≤ g.value then Iss.finish { x with g := x.g.wrS d.toNat g.value } s
              else wait (s.setGate n { g with waiters := g.waiters ++ [(.asked x.r, t)] }) k
            | none => wait s k
        let hd := x.g.rdS a.toNat
        match x.g.grant with
        | some k => go s s k
        | none =>
          match s.grant x.t.part hd 29 with
          | .fault dt slot => x.fail s (mkFault 0x18 dt hd (mkAux slot 0))
          | .wait => s.stallGrid x.t
          | .far _ => s
          | .ok k s1 => go s s1 k

/-- Whether a frozen or migrating gate, or an empty bucket, stalls a group (R285, R288): it stands before a gate whose grant
is withheld, waits at a gate that answers nobody, or waits for a signal that is held. Of a gate on another part `far`
tells. -/
def State.gateStall (s : State) (far : List GRef) (r : GRef) (t : Team) (g : Group) : Bool :=
  let still := fun (k : Nat) => match s.gateHere k with
    | some n => (s.gate n).st != 1
    | none => far.contains r
  match g.wait with
  | .gwait k _ none => still k
  | .none =>
    g.canIssue && match s.fetch t g.pc.toNat with
      | .got _ (.ok i) => match Instr.gateAsk i, i with
        | some (a, right), _ =>
          g.takingPart i != 0 && s.interlock t g i && g.pathFree i && g.grant.isNone && (match s.grant t.part (g.rdS a.toNat) right with
            | .wait => true
            | .far _ => far.contains r
            | _ => false)
        | none, .waitp 7 _ => g.pend.any fun o => !o.lanes.isEmpty && (o.kind.gate.map still).getD false
        | none, _ => false
      | _ => false
  | _ => false

/-- What ends a stall comes after it has been noted: each grid of which a group is stalled at a gate of this part. -/
def State.noteStalls (s : State) : State :=
  s.teams.foldl
    (fun s e => match e.2 with
      | some t =>
        if (List.range t.groups.length).any fun k => match t.groups[k]? with
            | some g => s.gateStall [] ⟨e.1, k⟩ t g
            | none => false
        then s.stallGrid t else s
      | none => s) s

/-- The gate unit answers the grant request of the gate instruction that a group is about to issue (R285). -/
def execGateGrant (q : GateAsk) (s : State) : Host.Outcome State Fault Refusal :=
  let r := q.group
  match s.group r with
  | none => .next s
  | some (t, g) =>
    let asks := match g.wait with
      | .gwait _ _ _ => false
      | _ => true
    if !g.canIssue || g.grant.isSome || !asks then .next s
    else match s.fetch t g.pc.toNat with
      | .got w0 (.ok i) =>
        match Instr.gateAsk i with
        | none => .next s
        | some (a, right) =>
          if !s.interlock t g i || !g.pathFree i || g.takingPart i = 0 then .next s
          else
            let hd := g.rdS a.toNat
            let e := tget 0 (s.partn t.part).gateSlots (fld hd 11 0)
            let fault := fun (d slot : Nat) =>
              (startIss s r t { g with insn := w0 } i).fail s (mkFault 0x18 d hd (mkAux slot 0))
            match s.grant t.part hd right with
            | .fault d slot => .next (fault d slot)
            | .wait => .next (s.stallGrid t)
            | .ok k s =>
              let n := k % 65536
              let gt := s.gate n
              let held := s.heldAt n ++ [⟨.asked r, 0⟩]
              let s := s.putGroup r { g with grant := some k }
              .next (if right = 28 ∧ gt.st ≠ 1 then s.setGate n { gt with held := held } else s)
            | .far slot =>
              if !(s.onSkein && s.portUp) then .next s
              else match q.far with
                | none => .next s
                | some 0 => .next (s.putGroup r { g with grant := some (s.gateHome (gateKey (fld e 41 32) (fld e 15 0))) })
                | some d => .next (fault d.toNat slot)
      | _ => .next s

/-! ### Gate points (R286, R287, R288) -/

/-- Answer every registered waiter whose threshold the value reaches, in the order of registration. The answer to a
party of another part leaves this part. -/
def State.answerWaiters (s : State) (n : Nat) : State :=
  let g := s.gate n
  let met := fun (w : GateParty × DWord) => decide (w.2 ≤ g.value)
  (g.waiters.filter met).foldl
    (fun s w => match w.1 with
      | .asked r => match s.group r with
        | none => s
        | some (_, gr) => match gr.wait with
          | .gwait k t none =>
            if s.gateHere k = some n ∧ t = w.2 then s.putGroup r { gr with wait := .gwait k t (some g.value) } else s
          | _ => s
      | _ => s) (s.setGate n { g with waiters := g.waiters.filter fun w => !met w })

/-- A signal takes its point: the value wraps, and waiters are evaluated again. -/
def State.signal (s : State) (n : Nat) (add : DWord) : State :=
  let g := s.gate n
  (s.setGate n { g with value := g.value + add }).answerWaiters n

/-- Finish a gate operation of a group. -/
def State.gateDone (s : State) (r : GRef) (op : Nat) : State :=
  match s.group r with
  | none => s
  | some (_, g) => match g.findOp op with
    | none => s
    | some o => s.putGroup r (g.opLanes o [])

/-- Whether every earlier access of the group has performed at its point (R260, R286). Before the signal takes its own, all
that the core has taken in moves home, with these accesses (R251, R257). -/
def Group.signalReady (g : Group) (op : Nat) : Bool :=
  g.pend.all fun o => decide (op ≤ o.id) || o.lanes.isEmpty ||
    !(o.path == .ld || o.path == .st || o.path == .tb || o.path == .ft)

/-- The effect of a gate operation's point on its group: `v` is the value that it sees there. -/
def Group.gateSeen (g : Group) (o : Pend) (v : DWord) : Group :=
  (match o.kind with
    | .grd _ d => g.wrS d v
    | .gtry _ d th =>
      g.wrPOn d (lanesOf (o.lanes.map LaneReq.lane) &&& ~~~g.exited) (if th ≤ v then allOnes else 0)
    | _ => g).opLanes o []

/-- A gate operation takes its point: in issue order for one group and gate, and only while the gate is active. At a gate
of another part, `far` is the value that its unit sends back; it also answers a GWAIT that is registered there. -/
def execGatePoint (r : GRef) (q : GateAt) (s : State) : Host.Outcome State Fault Refusal :=
  let op := q.op
  let far := q.far
  match s.group r with
  | none => .next s
  | some (t, g) => match g.findOp op with
    | none => match g.wait with
      | .gwait k th none =>
        if (s.gateHere k).isNone && s.onSkein && s.portUp && decide (th ≤ far) then
          .next (s.putGroup r { g with wait := .gwait k th (some far) })
        else .next s
      | _ => .next s
    | some o => match o.kind.gate with
      | none => .next s
      | some k =>
        let sig := match o.kind with | .gsig _ _ => true | _ => false
        if o.lanes.isEmpty || s.gateOlder g op k || (sig && !g.signalReady op) then .next s
        else
          let s1 := if sig then s.flushWide t.core else s
          match s.gateHere k with
          | none =>
            if s.onSkein && s.portUp then .next (s1.putGroup r (g.gateSeen o far)) else .next s
          | some n =>
            if (s.gate n).st ≠ 1 ∨ (s.gate n).held.any fun h => h.who == .group r op then .next s
            else match o.kind with
              | .gsig _ add => .next ((s1.signal n add).gateDone r op)
              | _ => .next (s1.putGroup r (g.gateSeen o (s.gate n).value))

/-- Each microsecond every valid entry of a rate-limited gate gains RATE tokens, capped at BURST (R283). -/
def Gate.refill (g : Gate) : Gate :=
  if !g.limen then g
  else
    let more := fun (n : BitVec 16) => BitVec.ofNat 16 (min g.burst.toNat (n.toNat + g.rate.toNat))
    let tok := (List.range 8).foldl
        (fun tok i => if aclV (tget 0 g.acl i) then tset 0 tok i (more (tget 0 tok i)) else tok) g.tok
    { g with tok := tok }

def State.refillGates (s : State) : State :=
  { s with gates := s.gates.foldl (fun gs e => tset Gate.reset gs e.1 e.2.refill) s.gates }

/-- An operation of a partition of another part on a gate of this one (R285 to R288): the code of the answer, 0 or the
detail of a fault, and the value seen; none while it waits for its grant. -/
def State.farGate (s : State) (dev part n right : Nat) (op : PeerOp) : Option (List DWord × State) :=
  match s.grantAt n 0 dev part right with
  | .fault d _ => some ([BitVec.ofNat 64 d], s)
  | .wait | .far _ => none
  | .ok _ s =>
    let g := s.gate n
    match op with
    | .gsig _ add =>
      some ([0], if g.st = 1 then s.signal n add else s.setGate n { g with held := s.heldAt n ++ [⟨.far dev part, add⟩] })
    | .gwait _ t =>
      if t ≤ g.value then some ([0, g.value], s)
      else some ([], s.setGate n { g with waiters := g.waiters ++ [(.far dev part, t)] })
    | _ => some ([0, g.value], s)

/-! ### Gates as system software sees them (R283, R288, R319) -/

/-- The code with which the gate unit answers an activation. -/
def gateCodes (st : Nat) (r : BitVec 512) : List Nat :=
  let e := fun i => BitVec.ofNat 32 (fld r (128 + 32 * i + 31) (128 + 32 * i))
  let pairs := (List.range 8).flatMap fun i => ((List.range i).map fun j => (i, j))
  let same := pairs.any fun p => aclV (e p.1) && aclV (e p.2) &&
    decide (fld (e p.1) 27 18 = fld (e p.2) 27 18 ∧ fld (e p.1) 4 0 = fld (e p.2) 4 0)
  err (fld r 95 80 != 0 || fld r 65 64 != 0 || (List.range 8).any fun i => fld (e i) 17 5 != 0) 1 ++
    err same 2 ++ err (fbit r 66 && fld r 127 112 == 0) 3 ++ err (decide (st ≠ 0)) 4

/-- What a write of dword `w` of a gate's record changes: VALUE, the limit, or two access entries. -/
def Gate.writeWord (g : Gate) (w : Nat) (v : DWord) : Gate :=
  if w = 0 then (if g.st = 2 then { g with value := v } else g)
  else if w = 1 then
    { g with burst := BitVec.ofNat 16 (fld v 63 48), rate := BitVec.ofNat 16 (fld v 47 32), mode := fbit v 3, limen := fbit v 2 }
  else if w < 6 then
    let e := fun (x : Nat) => BitVec.ofNat 32 x &&& 0xFFFC001F
    { g with acl := tset 0 (tset 0 g.acl (2 * (w - 2)) (e (fld v 31 0))) (2 * (w - 2) + 1) (e (fld v 63 32)) }
  else g

/-- The gate numbers of a gate unit (R2, R282). -/
def gateNum (n : Nat) : Bool := decide (n < Config.gates)

/-- Activate a gate from its record; every token bucket starts full. The answer is kept. -/
def State.activate (s : State) (n : Nat) (r : BitVec 512) : State :=
  match least (gateCodes (s.gate n).st r) with
  | some c => { s with answer := [BitVec.ofNat 64 c] }
  | none =>
    let burst := BitVec.ofNat 16 (fld r 127 112)
    let acl := (List.range 8).foldl
      (fun m i => tset 0 m i (BitVec.ofNat 32 (fld r (128 + 32 * i + 31) (128 + 32 * i)))) []
    let tok := (List.range 8).foldl (fun m i => tset 0 m i burst) []
    let g : Gate :=
      { st := 1, value := r.setWidth 64, acl := acl, tok := tok, burst := burst,
        rate := BitVec.ofNat 16 (fld r 111 96), mode := fbit r 67, limen := fbit r 66,
        home := BitVec.ofNat 10 s.devNum, held := [], waiters := [], fwd := none }
    { s.setGate n g with answer := [0] }

def execGateActivate (n : Nat) (r : BitVec 512) (s : State) : Host.Outcome State Fault Refusal :=
  if s.managed && gateNum n then .next (s.activate n r) else .next s

/-- Whether operations granted on a gate have still to take their points. -/
def State.gateBusy (s : State) (n : Nat) : Bool :=
  let k := gateKey s.devNum n
  s.teams.any fun e => match e.2 with
    | some t => t.groups.any fun g =>
        g.grant == some k || g.pend.any fun o => !o.lanes.isEmpty && o.kind.gate.map s.gateHome == some k
    | none => false

/-- Freeze an active gate (R288). DESIGN CHOICE (log 54): once the operations granted before have taken their points. -/
def execGateFreeze (n : Nat) (s : State) : Host.Outcome State Fault Refusal :=
  let g := s.gate n
  if g.st = 1 ∧ s.gateBusy n = false then .next (s.setGate n { g with st := 2 }) else .next s

/-- The held signals take their points in hold order. -/
def State.releaseHeld (s : State) (n : Nat) : List HeldSig → State
  | [] => s
  | h :: r => match h.who with
    | .group g op =>
      let s := match s.team g.team with | some t => s.flushWide t.core | none => s
      (((s.signal n h.addend).gateDone g op)).releaseHeld n r
    | .far _ _ => (s.signal n h.addend).releaseHeld n r
    | .asked _ => s.releaseHeld n r

/-- Whether every signal that gate `n` holds may take its point: those that it granted while frozen have issued (R288). -/
def State.heldReady (s : State) (n : Nat) : Bool :=
  (s.heldAt n).all fun h => match h.who with
    | .group r op => match s.group r with
      | some (_, gr) => gr.signalReady op
      | none => true
    | .asked _ => false
    | .far _ _ => true

/-- A frozen gate's record moves to gate `num` of device `dev`; a forwarding entry stays (R319). With this part's own
device and number the gate stays where it is and becomes active again, as one does that has come from another part. Of a
gate that leaves the part, held signals and waiters go with it: those of this part's groups wait for its new unit. -/
def execGateMigrate (n dev num : Nat) (s : State) : Host.Outcome State Fault Refusal :=
  let g := s.gate n
  let moved : Gate := { Gate.reset with st := 3, home := BitVec.ofNat 10 dev, fwd := some (dev, num) }
  if (dev ≠ s.devNum ∧ Config.devices ≤ dev) ∨ gateNum num = false then .next s
  else if !(g.st == 2 || (g.st == 3 && g.fwd.isNone && num == n)) then .next s
  else if dev ≠ s.devNum then
    if s.onSkein && s.portUp && g.st == 2 then .next (s.setGate n moved) else .next s
  else if !s.heldReady n || (num != n && (s.gate num).st != 0) then .next s
  else
    let s := s.noteStalls
    let live := { g with st := 1, held := [], home := BitVec.ofNat 10 dev, fwd := none }
    let s := if num = n then s.setGate n live else (s.setGate n moved).setGate num live
    .next ((s.answerWaiters num).releaseHeld num g.held)

/-- Whether a party of a gate that comes from another part is what it says: a group of this part has its signal, or its
wait, at that gate. -/
def State.gateGuest (s : State) (from_ : Nat) (w : GateParty) (v : DWord) : Bool :=
  match w with
  | .far dev part => dev != s.devNum && decide (dev < Config.devices ∧ part < 32)
  | .asked r => match s.group r with
    | some (_, g) => match g.wait with
      | .gwait k t none => t == v && s.gateHome k == from_
      | _ => false
    | none => false
  | .group r op => match s.group r with
    | some (_, g) => match g.findOp op with
      | some o => match o.kind with
        | .gsig k add => add == v && s.gateHome k == from_ && !o.lanes.isEmpty
        | _ => false
      | none => false
    | none => false

/-- A gate that another part has frozen moves here, under the lowest free number; it waits for its activation (R319). -/
def State.gateIn (s : State) (from_ : Nat) (g : Gate) : State :=
  match (List.range Config.gates).find? fun n => (s.gate n).st == 0 with
  | none => s
  | some n =>
    if from_ / 65536 = s.devNum ∨ Config.devices ≤ from_ / 65536 ∨ !(s.onSkein && s.portUp) ∨ s.gateHome from_ ≠ from_ ∨ 16 < g.held.length ∨
        !(g.held.all fun h => s.gateGuest from_ h.who h.addend && (match h.who with | .asked _ => false | _ => true)) ∨
        !(g.waiters.all fun w => s.gateGuest from_ w.1 w.2) then s
    else { s.setGate n { g with st := 3, home := BitVec.ofNat 10 s.devNum, fwd := none } with
      redirect := (from_, gateKey s.devNum n) :: s.redirect }

end Sys2Proof.Machine
end

