-- ==== Sys2Proof/Machine/Matrix.lean ====
section
/-! DEFINITION. The squarer array: alignment, the weight slots, the exact band identity, the four roundings and special
values (R214 to R224), the array's image (R240), and the group matrix instructions (R228, R237 to R241). -/

namespace Sys2Proof.Machine

/-! ### The array flags of NF (R122) -/

def fAIV : Word := 0x100
def fAOF : Word := 0x200
def fASAT : Word := 0x400
def fAAL : Word := 0x800

/-! ### Aligned groups (R216) -/

/-- e(x) of a finite non-zero value. -/
def topExp : FV → Option Int
  | .fin _ m e => if m = 0 then none else some (e + (Nat.log2 m : Int))
  | _ => none

/-- The exponent of an aligned group. -/
def groupExp (xs : List FV) : Int :=
  match xs.filterMap topExp with
  | [] => 0
  | e :: es => es.foldl max e

/-- The aligned integer of an element. -/
def alignTo (e : Int) : FV → Int
  | .fin n m q =>
    let sh := q + 12 - e
    let k := if 0 ≤ sh then m * 2 ^ sh.toNat else roundShift .rn false m (-sh).toNat
    if n then -(k : Int) else k
  | _ => 0

/-- A finite non-zero element whose aligned integer is 0 (R217). -/
def isTiny (e : Int) (x : FV) : Bool := (topExp x).isSome && alignTo e x == 0

/-- Element `k` of a row whose elements are `w` bits wide, the first lowest (R121). -/
def rowElem (w v k : Nat) : Nat := v / 2 ^ (w * k) % 2 ^ w

/-! ### Weight loads (R218, R231) -/

/-- The class code of an element (R240). -/
def FV.cls : FV → Nat
  | .fin _ _ _ => 0
  | .inf n => if n then 2 else 1
  | .nan _ => 3

/-- An element as a slot holds it: class and 15-bit integer. -/
def elWord (c : Nat) (n : Int) : BitVec 24 := BitVec.ofNat 24 (c * 2 ^ 22 + (n % (2 ^ 15 : Int)).toNat)
def elCls (w : BitVec 24) : Nat := fld w 23 22
def elInt (w : BitVec 24) : Int := (w.extractLsb' 0 15).toInt

/-- A `w`-bit two's-complement integer. -/
def signedOf (w v : Nat) : Int := if v < 2 ^ (w - 1) then v else (v : Int) - 2 ^ w

/-- The class of the element q * scale (R121). -/
def scaledCls (q : Int) : FV → Nat
  | .nan _ => 3
  | .inf n => if q = 0 then 3 else if decide (q < 0) != n then 2 else 1
  | .fin _ _ _ => 0

/-- What a weight load latches for one band of one column. -/
structure BandW where
  el    : List (BitVec 24)
  tiny  : List Nat
  desc  : DWord
  flags : Word

def sumSq (ns : List Int) : Nat := (ns.foldl (fun s n => s + n * n) 0).toNat

def latchBand (fmt : Fmt) (xs : List Nat) (scale : Nat) : BandW :=
  if fmt = .i4g ∨ fmt = .i3g then
    let sc := fdec .bf16 scale
    let qs := xs.map (signedOf (if fmt = .i4g then 4 else 3))
    { el := qs.map fun q => elWord (scaledCls q sc) q
      tiny := []
      desc := BitVec.ofNat 64 (scale * 2 ^ 32 + sumSq (qs.filter fun q => scaledCls q sc == 0))
      flags := if sc.isSig then fAIV else 0 }
  else
    let vs := xs.map (fdec fmt)
    let e := groupExp vs
    { el := vs.map fun v => elWord v.cls (alignTo e v)
      tiny := vs.map fun v => if isTiny e v then (if v.neg then 2 else 1) else 0
      desc := BitVec.ofNat 64 ((e % 65536).toNat * 2 ^ 32 + sumSq (vs.map (alignTo e)))
      flags := (if vs.any (isTiny e) then fAAL else 0) ||| (if vs.any FV.isSig then fAIV else 0) }

/-- Bits of a weight element, the pitch of its tile row, and the bytes of a weight tile. -/
def wBits : Fmt → Nat
  | .bf16 => 16 | .i4g => 4 | .i3g => 3 | _ => 8
def wPitch (f : Fmt) : Nat := 16 * wBits f
def wPacked (f : Fmt) : Bool := f == .i4g || f == .i3g
def wBytes (f : Fmt) : Nat := 256 * wPitch f + (if wPacked f then 2048 else 0)

/-- The four bands of column `j` of a weight tile. -/
def latchCol (fmt : Fmt) (bs : List Byte) (j : Nat) : List BandW :=
  let row := leNat ((bs.drop (j * wPitch fmt)).take (wPitch fmt))
  (List.range 4).map fun b =>
    latchBand fmt ((List.range 32).map fun k => rowElem (wBits fmt) row (32 * b + k))
      (if wPacked fmt then leNat ((bs.drop (256 * wPitch fmt + 8 * j + 2 * b)).take 2) else 0)

/-- Sparse data from a list of values by key, in the canonical form. -/
def sparse {α : Type} [DecidableEq α] (d : α) : Nat → List α → List (Nat × α)
  | _, [] => []
  | i, v :: vs => if v = d then sparse d (i + 1) vs else (i, v) :: sparse d (i + 1) vs

/-- A loaded slot and the flags of the load; `src` is the tile's scratchpad address and the allocation there. -/
def loadSlot (fmt : Fmt) (src : Nat × Nat) (bs : List Byte) : WSlot × Word :=
  let cols := (List.range 256).map (latchCol fmt bs)
  ({ wfmt := fmt.code.toNat
     el := sparse 0 0 (cols.flatMap fun c => c.flatMap BandW.el)
     tiny := sparse 0 0 (cols.flatMap fun c => c.flatMap fun b =>
       if b.tiny.isEmpty then List.replicate 32 0 else b.tiny)
     desc := sparse 0 0 ((List.range 4).flatMap fun b => cols.map fun c => (c.map BandW.desc).getD b 0)
     src := some src },
   cols.foldl (fun f c => c.foldl (fun f b => f ||| b.flags) f) 0)

/-! ### The band result (R220, R221, R223) -/

/-- Round n * 2^e at FP32's fraction width, the exponent unbounded above; a zero result is +0. -/
def rnU (n : Int) (e : Int) : FV :=
  if n = 0 then .fin false 0 (-149)
  else
    let m := n.natAbs
    let q := quantum .f32 m e
    let k := if q ≤ e then m * 2 ^ (e - q).toNat else roundShift .rn false m (q - e).toNat
    if k = 0 then .fin false 0 (-149) else .fin (decide (n < 0)) k q

/-- An activation band: its elements, aligned integers and exponent, and which elements are zeros read beyond the
allocation (R164). -/
structure BandA where
  xs   : List FV
  as   : List Int
  ea   : Int
  pads : List Bool

def mkBandA (xs : List FV) (pads : List Bool) : BandA :=
  { xs := xs, as := xs.map (alignTo (groupExp xs)), ea := groupExp xs, pads := pads }

/-- The flags of an activation band (R217, R223). -/
def BandA.flags (a : BandA) : Word :=
  (if a.xs.any (isTiny a.ea) then fAAL else 0) ||| (if a.xs.any FV.isSig then fAIV else 0)

def WSlot.wsc (w : WSlot) (b j : Nat) : Nat := fld (tget 0 w.desc (256 * b + j)) 47 32
def WSlot.colsq (w : WSlot) (b j : Nat) : Nat := fld (tget 0 w.desc (256 * b + j)) 31 0
def WSlot.isPacked (w : WSlot) : Bool := w.wfmt == 8 || w.wfmt == 9

/-- What stands in place of 2^(eb - 12) (R216, R221). -/
def WSlot.scale (w : WSlot) (b j : Nat) : FV :=
  if w.isPacked then fdec .bf16 (w.wsc b j) else .fin false 1 (signedOf 16 (w.wsc b j) - 12)

/-- The class of weight element (k, j), and its sign, none for a zero. -/
def WSlot.sort (w : WSlot) (j k : Nat) : Nat × Option Bool :=
  let e := tget 0 w.el (128 * j + k)
  let n := elInt e
  let sc := w.scale (k / 32) j
  let c := if w.isPacked && sc.cls != 0 then scaledCls n sc else elCls e
  (c, if c = 1 then some false else if c = 2 then some true
    else if n != 0 then (if w.isPacked then (if sc.isZero then none else some (decide (n < 0) != sc.neg)) else some (decide (n < 0)))
    else match tget 0 w.tiny (128 * j + k) with | 1 => some false | 2 => some true | _ => none)

/-- Whether weight element (k, j), or its scale, is a zero that its load read beyond the allocation (R164). -/
def WSlot.pad (w : WSlot) (j k : Nat) : Bool :=
  match w.src with
  | none => false
  | some (ad, alloc) =>
    let bits := fmtBits w.wfmt
    padElem alloc (ad + j * (16 * bits)) bits k ||
      (w.isPacked && padElem alloc (ad + 256 * (16 * bits) + 8 * j) 16 (k / 32))

/-- The special cases of a band, first row first; none where the integers decide. DEDUCED (log 78): an infinite element
against a zero read beyond the allocation makes the result NaN and sets no flag (R124, R224). -/
def bandSpecial (a : BandA) (w : WSlot) (b j : Nat) : Option (FV × Word) :=
  let x := fun k => a.xs.getD k (.fin false 0 0)
  let y := fun k => w.sort j (32 * b + k)
  let ks := List.range 32
  if ks.any fun k => (x k).isNaN || (y k).1 == 3 then some (.nan false, 0)
  else
    let infinite := ks.filter fun k => (x k).isInf || (y k).1 != 0
    let sign := fun k => match (y k).2 with
      | none => none
      | some sy => if (x k).isZero then none else some ((x k).neg != sy)
    let zeros := infinite.filter fun k => (sign k).isNone
    let has := fun n => infinite.any fun k => sign k == some n
    if !zeros.isEmpty || (has true && has false) then
      let takesPart := fun k => !(a.pads.getD k false || w.pad j (32 * b + k))
      some (.nan false, if (has true && has false) || zeros.any takesPart then fAIV else 0)
    else if has true then some (.inf true, 0)
    else if has false then some (.inf false, 0)
    else none

/-- Half of S - rowsq - COLSQ. -/
def half2 (n : Int) : Int := if n % 2 = 0 then n / 2 else Config.oddHalf n

/-- D of R220. A weight of 0 adds nothing to S - rowsq. -/
def bandD (a : BandA) (w : WSlot) (b j : Nat) : Int :=
  let ws := w.el.filter fun e => decide (128 * j + 32 * b ≤ e.1 ∧ e.1 < 128 * j + 32 * b + 32)
  let diff := ws.foldl
    (fun s e =>
      let x := a.as.getD (e.1 - (128 * j + 32 * b)) 0
      let n := if elCls e.2 = 0 then elInt e.2 else 0
      s + ((x + n) * (x + n) - x * x)) 0
  half2 (diff - w.colsq b j)

/-- The band result r[b]. -/
def bandResult (a : BandA) (w : WSlot) (b j : Nat) : FV × Word :=
  let plain := a.xs.all (fun x => x.cls == 0) && (w.scale b j).cls == 0 &&
    w.el.all fun e => !(decide (128 * j + 32 * b ≤ e.1 ∧ e.1 < 128 * j + 32 * b + 32) && elCls e.2 != 0)
  match if plain then none else bandSpecial a w b j with
  | some r => r
  | none =>
    match rnU (bandD a w b j) 0, w.scale b j with
    | .fin n m e, .fin n' m' e' =>
      (rnU (if n != n' then -((m * m' : Nat) : Int) else ((m * m' : Nat) : Int)) (e + e' + a.ea - 12), 0)
    | _, _ => (.nan false, 0)

/-- One FP32 addition at the accumulator (rounding 4), with the overflow test. -/
def accAdd (acc r : FV) : FV × Word :=
  match acc, r with
  | .nan _, _ | _, .nan _ => (.nan false, 0)
  | .inf n, .inf k => if n = k then (.inf n, 0) else (.nan false, fAIV)
  | .inf n, _ | _, .inf n => (.inf n, 0)
  | .fin n m e, .fin n' m' e' =>
    let e0 := if e ≤ e' then e else e'
    match rnU (scaled n m e e0 + scaled n' m' e' e0) e0 with
    | .fin s k q => if fMaxQ .f32 < q ∨ (q = fMaxQ .f32 ∧ fMaxK .f32 < k) then (.inf s, fAOF) else (.fin s k q, 0)
    | v => (v, 0)

/-- An accumulator element as the first addition's operand: -0 is read as +0. -/
def accIn (v : Word) : FV × Word :=
  match fdec .f32 v.toNat with
  | .nan s => (.nan false, if s then fAIV else 0)
  | .fin n m e => (.fin (n && m != 0) m e, 0)
  | x => (x, 0)

def accOut : FV → Word
  | .nan _ => BitVec.ofNat 32 (fNaN .f32)
  | .inf n => BitVec.ofNat 32 (fSign .f32 n + fInf .f32)
  | .fin n k q => BitVec.ofNat 32 (fBits .f32 n k q)

/-- A slot as a stream row sees it: WFMT 0 is weights of +0 (R219). -/
def WSlot.eff (w : WSlot) : WSlot := if w.wfmt = 0 then { w with el := [], desc := [], tiny := [], src := none } else w

/-- One element of the array's output: the four band results added in ascending band order (R221, R222). -/
def arrayElem (bands : List BandA) (w : WSlot) (j : Nat) (start : FV × Word) : Word × Word :=
  let r := (List.range 4).foldl
    (fun acc b => match bands[b]? with
      | none => acc
      | some a =>
        let r := bandResult a w b j
        let v := accAdd acc.1 r.1
        (v.1, acc.2 ||| r.2 ||| v.2)) start
  (accOut r.1, r.2)

/-- The four bands of an activation row in a format; `pad` tells which elements are zeros read beyond the allocation. -/
def rowBands (fmt : Fmt) (bs : List Byte) (pad : Nat → Bool) : List BandA :=
  let v := leNat bs
  (List.range 4).map fun b =>
    let ks := (List.range 32).map fun k => 32 * b + k
    mkBandA (ks.map fun k => fdec fmt (rowElem (fWidth fmt) v k)) (ks.map pad)

/-- One stream row: its 256 elements and the flags of the row. `acc` gives the elements it starts from. -/
def streamRow (fmt : Fmt) (bs : List Byte) (pad : Nat → Bool) (w : WSlot) (acc : Option (Nat → Word)) :
    List Word × Word :=
  let bands := rowBands fmt bs pad
  let out := (List.range 256).map fun j =>
    arrayElem bands w.eff j (match acc with | some f => accIn (f j) | none => (.fin false 0 (-149), 0))
  (out.map Prod.fst, (bands.foldl (fun f b => f ||| b.flags) 0) ||| out.foldl (fun f o => f ||| o.2) 0)

/-- Replace the values from key `lo` on. -/
def fillRun {α : Type} [DecidableEq α] (d : α) (m : List (Nat × α)) (lo : Nat) (vs : List α) : List (Nat × α) :=
  m.filter (fun e => decide (e.1 < lo)) ++ sparse d lo vs ++ m.filter (fun e => decide (lo + vs.length ≤ e.1))

/-! ### The array's image (R240) -/

def imageSize : Nat := 737536

/-- The header. A frozen array shows the STATE it had. -/
def Arr.header (a : Arr) : Nat :=
  let qs := (List.range 8).foldl (fun v i => v + (tget 0 a.q i).toNat * 2 ^ (128 + 32 * i)) 0
  let st := if a.st = 5 then a.frozen else a.st
  1 + a.w0.wfmt * 2 ^ 28 + a.w1.wfmt * 2 ^ 32 + st * 2 ^ 36 + (if a.ph then 2 ^ 39 else 0) + a.bn.toNat * 2 ^ 40 +
    a.lcnt.toNat * 2 ^ 44 + a.mxgrp * 2 ^ 51 + a.spc.toNat * 2 ^ 64 + a.loff.toNat * 2 ^ 96 + qs

def WSlot.pieces (w : WSlot) (base : Nat) : List (Nat × List Byte) :=
  w.el.map (fun e => (base + 3 * e.1, natBytes e.2.toNat 3)) ++
    w.desc.map (fun e => (base + 98304 + 8 * e.1, natBytes e.2.toNat 8))

/-- The parts of the image that are not zero, by offset. -/
def Arr.pieces (a : Arr) : List (Nat × List Byte) :=
  (0, natBytes a.header 256) :: a.m.map (fun e => (256 + 4 * e.1, natBytes e.2.toNat 4)) ++ a.w0.pieces 524544 ++
    a.w1.pieces 631040

/-- Core `core` writes the image into a dense table at byte position `p`, at part scope. -/
def State.writeImage (s : State) (core part slot : Nat) (t : Table) (p : Nat) (a : Arr) : State :=
  let v := some core
  let s := (s.zeroImage v part slot t (imageSize / 65536 + 2) p imageSize).clearImage v part slot t p imageSize
  a.pieces.foldl (fun s e => s.rowWrite v part slot t (p + e.1) e.2) s

/-- The bytes of an image range that are not zero, by offset from its start, page by page. -/
def State.imageCells (s : State) (core part slot : Nat) (t : Table) : Nat → Nat → Nat → Nat → List (Nat × Byte)
  | 0, _, _, _ => []
  | fuel + 1, off, n, at_ =>
    if n = 0 then []
    else
      let k := pagePiece (tHeap t + off) n
      (match s.imageKey (some core) part slot t off with
        | some key => (s.mem.filter fun c => decide (key ≤ c.1 ∧ c.1 < key + k)).map fun c => (c.1 - key + at_, c.2)
        | none => []) ++ s.imageCells core part slot t fuel (off + k) (n - k) (at_ + k)

/-- Gather bytes into values of `w` bytes by their index. -/
def gatherCells (w : Nat) (cs : List (Nat × Byte)) : List (Nat × Nat) :=
  cs.foldl (fun m c => tset 0 m (c.1 / w) (tget 0 m (c.1 / w) + c.2.toNat * 2 ^ (8 * (c.1 % w)))) []

def cellsIn (cs : List (Nat × Byte)) (lo n : Nat) : List (Nat × Byte) :=
  (cs.filter fun c => decide (lo ≤ c.1 ∧ c.1 < lo + n)).map fun c => (c.1 - lo, c.2)

def slotOfCells (wf base : Nat) (cs : List (Nat × Byte)) : WSlot :=
  { wfmt := wf
    el := (gatherCells 3 (cellsIn cs base 98304)).map fun e => (e.1, BitVec.ofNat 24 e.2)
    desc := (gatherCells 8 (cellsIn cs (base + 98304) 8192)).map fun e => (e.1, BitVec.ofNat 64 e.2)
    tiny := []
    src := none }

def wfOk (n : Nat) : Bool := n == 0 || decide (5 ≤ n ∧ n ≤ 9)

/-- An array loaded from an image, over what the image does not hold; none where R241 refuses the image. BN and PH count
only in STATE 2, with a TWB pending (R237, R242). -/
def Arr.ofCells (a : Arr) (cs : List (Nat × Byte)) : Option Arr :=
  let h : BitVec 2048 := BitVec.ofNat 2048 ((cellsIn cs 0 256).foldl (fun v c => v + c.2.toNat * 2 ^ (8 * c.1)) 0)
  let w0 := slotOfCells (fld h 31 28) 524544 cs
  let w1 := slotOfCells (fld h 35 32) 631040 cs
  let st := fld h 38 36
  let rsv := fld h 2047 384 != 0 || fld h 63 56 != 0 || fld h 27 16 != 0 ||
    (w0.el ++ w1.el).any (fun e => fld e.2 21 15 != 0) || (w0.desc ++ w1.desc).any fun e => fld e.2 63 48 != 0
  if fld h 15 0 != 1 || rsv || !wfOk w0.wfmt || !wfOk w1.wfmt || decide (6 ≤ st) then none
  else
    let live := st == 1 || st == 2 || st == 5
    some { a with
      st := if live then 5 else st
      frozen := if live then (if st = 5 then 1 else st) else 0
      spc := BitVec.ofNat 32 (fld h 95 64)
      loff := BitVec.ofNat 32 (fld h 127 96)
      q := sparse 0 0 ((List.range 8).map fun i => BitVec.ofNat 32 (fld h (128 + 32 * i + 31) (128 + 32 * i)))
      lcnt := BitVec.ofNat 7 (fld h 50 44)
      mxgrp := fld h 55 51
      bn := if st = 2 then BitVec.ofNat 4 (fld h 43 40) else 0
      ph := st == 2 && fbit h 39
      miss := false
      w0 := w0
      w1 := w1
      m := (gatherCells 4 (cellsIn cs 256 524288)).map fun e => (e.1, BitVec.ofNat 32 e.2) }

/-! ### MXSTART and MXSTAT (R228, R237) -/

/-- MXSTART waits while a stream runs, waits or is frozen; it finishes on MX at once. -/
def execMxstart (h : Hdr) (q : Option (BitVec 6)) (stream : Word) (s : State) :=
  onGroup (.mxstart h q stream) s fun s x =>
    if x.act = 0 then x.finish s
    else match x.t.arr with
      | none => s
      | some a =>
        if a.st = 0 ∨ a.st = 3 ∨ a.st = 4 then
          let qs := match q with
            | some n => sparse 0 0 ((List.range 8).map fun i => (x.g.rdS (n.toNat + i)).setWidth 32)
            | none => []
          let a := { a with st := 1, spc := stream, q := qs, lcnt := 0, loff := 0, mxgrp := x.r.grp, tsub := 0, bn := 0,
                            ph := false, miss := false, grp0 := x.r.grp, op0 := x.g.nextOp }
          let g := x.enqueue (x.op .mx .mx .team 0 0 0) []
          Iss.finish { x with g := g, t := { x.t with arr := some a } } s
        else s

/-- The status word. -/
def Arr.status (a : Arr) : DWord :=
  a.spc ++ (0 : BitVec 1) ++ a.lcnt ++ a.tsub ++ a.bn ++ BitVec.ofBool a.ph ++ BitVec.ofNat 4 a.w1.wfmt ++
    BitVec.ofNat 4 a.w0.wfmt ++ BitVec.ofNat 3 a.st

def execMxstat (d : BitVec 6) (s : State) :=
  onGroup (.mxstat d) s fun s x =>
    match x.t.arr with
    | none => s
    | some a => Iss.finish { x with g := x.g.wrS d.toNat a.status } s

/-! ### MXRD and MXWR (R238, R239) -/

/-- An accumulator access: the row and first column block of sA; the registers of MXWR are read at issue. -/
def Iss.accAccess (x : Iss) (s : State) (kind : PKind) (wr : Bool) (n1 : BitVec 3) (d : BitVec 10) (a : BitVec 6) : State :=
  let sa := x.g.rdS a.toNat
  let n := n1.toNat + 1
  let cb := fld sa 10 8
  let o := x.op kind .mx .team 0 0 (if wr then 0 else n)
  if 8 < cb + n then x.failOp s o (mkFault 0x15 0 sa 0)
  else
    let qs := (laneList x.act).map fun l =>
      let v := if wr then x.g.rdN d.toNat l n else 0
      { mkReq l with addr := fld sa 6 0, va := cb, reg := if wr then 0 else d.toNat, data := BitVec.ofNat 128 v,
                     dat2 := BitVec.ofNat 128 (v / 2 ^ 128), key := BitVec.ofNat 64 n }
    Iss.finish { x with g := x.enqueue o qs } s

def execMxrd (h : Hdr) (n1 : BitVec 3) (m : BitVec 2) (d : BitVec 10) (a : BitVec 6) (s : State) :=
  onGroup (.mxrd h n1 m d a) s fun s x => x.accAccess s (.mxrd m.toNat) false n1 d a
def execMxwr (h : Hdr) (n1 : BitVec 3) (m : BitVec 2) (d : BitVec 10) (a : BitVec 6) (s : State) :=
  onGroup (.mxwr h n1 m d a) s fun s x => x.accAccess s (.mxwr m.toNat) true n1 d a

/-- The key of accumulator element (i, j) of a tile. -/
def accKey (tile i j : Nat) : Nat := 32768 * tile + 256 * i + j

/-- What MXRD reads for a lane, and what MXWR writes. -/
def Arr.rdLane (a : Arr) (tile : Nat) (q : LaneReq) (n : Nat) : Nat :=
  (List.range n).foldl
    (fun v c => v + (tget 0 a.m (accKey tile q.addr ((q.va + c) * 32 + q.lane))).toNat * 2 ^ (32 * c)) 0
def Arr.wrLane (a : Arr) (tile : Nat) (q : LaneReq) : Arr :=
  let v := q.data.toNat + 2 ^ 128 * q.dat2.toNat
  let m := (List.range q.key.toNat).foldl
      (fun m c => tset 0 m (accKey tile q.addr ((q.va + c) * 32 + q.lane)) (BitVec.ofNat 32 (v / 2 ^ (32 * c)))) a.m
  { a with m := m }

/-! ### MXDRAIN and MXREST (R241) -/

/-- The array team of a core that `p` picks. -/
def State.arrOn (s : State) (core : Nat) (p : Team → Bool) : Option (Nat × Arr) :=
  s.teams.findSome? fun e => match e.2 with
    | some t => if t.core = core ∧ p t then t.arr.map fun a => (e.1, a) else none
    | none => none

/-- The team whose array is reached: the group's own, or that of another core of the cluster, where a team of the same
partition that has stopped counts while no other holds the array (R241, R306). -/
def State.arrTeam (s : State) (x : Iss) (core : Option (BitVec 3)) : Option (Nat × Arr) :=
  match core with
  | none => x.t.arr.map fun a => (x.r.team, a)
  | some c =>
    let k := x.t.core / 8 * 8 + c.toNat
    match s.arrOn k fun t => t.st != .stopped with
    | some a => some a
    | none => s.arrOn k fun t => t.part == x.t.part

/-- The first part of an image range that an access of a core cannot reach at once. -/
def State.imageStop (s : State) (core part slot : Nat) (t : Table) (off n acc : Nat) : Option Place :=
  match (s.partn part).windowOf slot with
  | some _ => match s.avail (some core) part slot t off n (acc == 1) with
    | .ok => none
    | .refused => some .noRight
    | _ => some .busy
  | none => (pageStarts (tHeap t) off n).findSome? fun o => match s.place core part slot t o acc with
    | .at _ _ _ => none
    | p => some p

/-- The part of a line that a posted write covers takes its bytes. -/
def patchPost (line : Nat) (v : BitVec 1024) (w : Post) : BitVec 1024 :=
  let a := max (128 * line) w.addr
  if spansMeet [(128 * line, 128)] [(w.addr, w.bytes.length)] then
    patchLine v (a - 128 * line) ((w.bytes.drop (a - w.addr)).take (128 * line + 128 - a))
  else v

/-- The L1 copies of a core in ranges of memory take what it has written there: the values that its point has, or in a
window the writes that it has just posted (R251). -/
def State.refreshL1 (s : State) (core : Nat) (spans : List (Nat × Nat)) (posts : List Post) : State :=
  (s.core core).l1.foldl
    (fun s e =>
      if !spansMeet [(128 * e.1, 128)] spans then s
      else if isWindow (128 * e.1) then s.setL1 core e.1 (e.2.map fun v => posts.foldl (patchPost e.1) v)
      else s.setL1 core e.1 (some (s.fillValue core e.1))) s

/-- The checks that MXDRAIN and MXREST share, then `k` on the table, the position and the array. The pages are used before
they are looked up, so that no translation found here is given up for another of the image. -/
def Iss.arrImage (x : Iss) (s : State) (core : Option (BitVec 3)) (a : BitVec 6) (wr : Bool)
    (k : State → Nat → Table → Nat → Nat → Arr → State) : State :=
  let o := x.op .mx .mx .part 0 0 0
  let sa := x.g.rdS a.toNat
  let p := (x.g.rdS (a.toNat + 1)).toNat
  let state := x.failOp s o (mkFault 0x16 0 sa 0)
  if x.act = 0 then Iss.finish { x with g := x.enqueue o [] } s
  else if core.isSome && x.g.trap.isNone then state
  else match s.handle x.t.part sa with
    | none => x.failOp s o (mkFault 0x0B 0 sa 0)
    | some (slot, t) =>
      let key := keyAddr (tKType t) (tLo t + (p / tWidth t : Nat))
      if tKind t != 0 then x.failOp s o (mkFault 0x0C 0 key (mkAux slot 0))
      else if !(if wr then tWrite t else tRead t) then x.failOp s o (mkFault 0x0D 0 key (mkAux slot 0))
      else if p % 256 != 0 || decide (tBytes t < p + imageSize) then x.failOp s o (mkFault 8 0 key (mkAux slot (p % tWidth t)))
      else match s.arrTeam x core with
        | none => state
        | some (tn, ar) =>
          if (core.isNone && (ar.st == 1 || ar.st == 2)) || (core.isSome && ar.st != 5) then state
          else
            let used := s.touchImage (some x.t.core) x.t.part slot t p imageSize
            match used.imageStop x.t.core x.t.part slot t p imageSize (if wr then 1 else 0) with
            | some (.away va) =>
              let f := missFault (if wr then 1 else 0) va slot
              Iss.finish ((laneList x.act).foldl (fun x l => x.replay l f) { x with g := x.enqueue o [] }) s
            | some (.error va) =>
              match x.g.wait with
              | .xlate _ => s
              | _ => (s.putGroup x.r { x.g with wait := .xlate va }).teamReport x.t 7 0 10 slot 0 (BitVec.ofNat 64 va) []
            | some .noRight => x.failOp s o (mkFault 0x0D 0 key (mkAux slot 0))
            | some _ => s
            | none => k used slot t p tn ar

/-- A handler's drain of a team of its partition that waits to be drained: the team has stopped, and the place of the
image is recorded (R306). -/
def State.noteDrain (s : State) (part tn slot p : Nat) : State :=
  match s.team tn with
  | none => s
  | some t =>
    if t.st = .draining ∧ t.part = part then s.setTeam tn (some { t with st := .stopped, imgAt := some (slot, p), image := none })
    else s

def execMxdrain (h : Hdr) (core : Option (BitVec 3)) (a : BitVec 6) (s : State) :=
  onGroup (.mxdrain h core a) s fun s x =>
    x.arrImage s core a true fun s slot t p tn ar =>
      let s0 := s.flushWide x.t.core
      let s1 := s0.writeImage x.t.core x.t.part slot t p ar
      let s := s1.refreshL1 x.t.core (s.spanOf (some x.t.core) x.t.part slot t p imageSize) (s1.posted.drop s0.posted.length)
      let s := if core.isSome then s.noteDrain x.t.part tn slot p else s
      Iss.finish { x with g := x.enqueue (x.op .mx .mx .part 0 0 0) [] } s

/-- Put an array into its team, which may be the issuing one. -/
def Iss.putArr (x : Iss) (s : State) (tn : Nat) (a : Arr) : State × Iss :=
  if tn = x.r.team then (s, { x with t := { x.t with arr := some a } })
  else match s.team tn with
    | some t => (s.setTeam tn (some { t with arr := some a }), x)
    | none => (s, x)

def execMxrest (h : Hdr) (core : Option (BitVec 3)) (a : BitVec 6) (s : State) :=
  onGroup (.mxrest h core a) s fun s x =>
    x.arrImage s core a false fun s slot t p tn ar =>
      let o := x.op .mx .mx .part 0 0 0
      if s.imagePoison (some x.t.core) x.t.part slot t p imageSize then
        let (s, x) := x.putArr s tn Arr.start
        x.failOp s o (mkFault 0x10 0 (keyAddr (tKType t) (tLo t + (p / tWidth t : Nat))) (mkAux slot 0))
      else match ar.ofCells (s.imageCells x.t.core x.t.part slot t (imageSize / 65536 + 2) p imageSize 0) with
        | none => x.failOp s o (mkFault 0x16 0 (x.g.rdS a.toNat) 0)
        | some ar =>
          let (s, x) := x.putArr s tn ar
          Iss.finish { x with g := x.enqueue o [] } s

end Sys2Proof.Machine
end

