-- ==== Sys2Proof/Machine/Tiles.lean ====
section
/-! DEFINITION. The matrix sequencer: the tile words (R229 to R236), its stops and their delivery (R226, R227, R303). -/

namespace Sys2Proof.Machine

/-! ### The frame of a tile word -/

/-- The array team that `State.seq` names. -/
def State.curSeq (s : State) : Option (Nat × Team × Arr) :=
  match s.seq with
  | none => none
  | some n => match s.team n with
    | none => none
    | some t => t.arr.map fun a => (n, t, a)

/-- Execute a tile word: the sequencer runs only in STATE 1, or in STATE 2 for its pending TWB (R225). -/
def onSeq (two : Bool) (s : State) (k : Nat → Team → Arr → State) : Host.Outcome State Fault Refusal :=
  match s.curSeq with
  | none => .fault .noAgent
  | some (n, t, a) => if a.st = 1 ∨ (two ∧ a.st = 2) then .next (k n t a) else .next s

/-- Array flags go to the NF of group MXGRP (R122). -/
def Team.arrFlags (t : Team) (grp : Nat) (f : Word) : Team :=
  match t.groups[grp]? with
  | none => t
  | some g => t.putGroup grp (g.orNF f)

/-- The word completes: its flags are set and SPC names the next word. -/
def State.wordDone (s : State) (n : Nat) (t : Team) (a : Arr) (f : Word) : State :=
  s.setTeam n (some { t.arrFlags a.mxgrp f with arr := some { a with st := 1, spc := a.spc + 8, bn := 0, ph := false } })

/-- Whether a group of a team has not ended, and the group to which MXGRP passes where its group has (R227). -/
def Team.live (t : Team) (k : Nat) : Bool := match t.groups[k]? with | some g => !g.ended | none => false
def Team.mxPass (t : Team) (k : Nat) : Option Nat := if t.live k then some k else t.firstLive

/-- The sequencer stops at the word (R227); the stop waits for its delivery. -/
def State.seqStop (s : State) (n : Nat) (t : Team) (a : Arr) (tsub cause detail : Nat) (insn : Word) : State :=
  let grp := (t.mxPass a.mxgrp).getD a.mxgrp
  s.setTeam n (some { t with arr := some { a with
    st := 4, tsub := BitVec.ofNat 8 tsub, bn := 0, ph := false, mxgrp := grp
    stops := a.stops ++ [{ cause := BitVec.ofNat 8 cause, detail := BitVec.ofNat 16 detail, insn := insn, spc := a.spc,
                           grp := grp }] } })

/-- A stop with an illegal-instruction subcode, or the barrier-state stop of TARB: INSN shows the word. -/
def State.seqIllegal (s : State) (n : Nat) (t : Team) (a : Arr) (sub : Nat) : State :=
  s.seqStop n t a sub 1 sub (a.word.setWidth 32)

/-! ### Words that change sequencer state or a whole tile (R230) -/

def execTnop (s : State) := onSeq false s fun n t a => s.wordDone n t a 0

def execTend (s : State) :=
  onSeq false s fun n t a => s.setTeam n (some { t with arr := some { a with st := 3, spc := a.spc + 8, bn := 0, ph := false } })

def Arr.rdQ (a : Arr) (q : BitVec 3) : Word := tget 0 a.q q.toNat
def Arr.wrQ (a : Arr) (q : BitVec 3) (v : Word) : Arr := { a with q := tset 0 a.q q.toNat v }
/-- The post-increment. -/
def Arr.bump (a : Arr) (q : BitVec 3) (pi : Bool) (k : Word) : Arr := if pi then a.wrQ q (a.rdQ q + k) else a

def execTsetq (q : BitVec 3) (k : Word) (s : State) := onSeq false s fun n t a => s.wordDone n t (a.wrQ q k) 0

def execTzero (m : BitVec 2) (s : State) :=
  onSeq false s fun n t a =>
    s.wordDone n t { a with m := a.m.filter fun e => e.1 / 32768 != m.toNat } 0

/-- R236: the address and the increment are multiples of 16. -/
def Arr.badAddr (a : Arr) (q : BitVec 3) (pi : Bool) (k : Word) : Bool :=
  (a.rdQ q).toNat % 16 != 0 || (pi && k.toNat % 16 != 0)

/-- Every scratchpad access that the MXSTART group issued before MXSTART has taken effect (R226). -/
def Team.readsReady (t : Team) (a : Arr) : Bool :=
  match t.groups[a.grp0]? with
  | none => true
  | some g => g.pend.all fun o => decide (a.op0 ≤ o.id) || o.lanes.isEmpty ||
      (match o.kind with | .lds | .sts | .atoms _ _ => false | _ => true)

/-- A word that reads or writes scratchpad at q[QA]. -/
def onScratch (q : BitVec 3) (pi : Bool) (k : Word) (reads : Bool) (s : State) (f : Nat → Team → Arr → Nat → State) :
    Host.Outcome State Fault Refusal :=
  onSeq false s fun n t a =>
    if a.badAddr q pi k then s.seqIllegal n t a 0x22
    else if reads && !t.readsReady a then s
    else f n t a (a.rdQ q).toNat

def execTlda (m : BitVec 2) (q : BitVec 3) (pi : Bool) (k : Word) (s : State) :=
  onScratch q pi k true s fun n t a ad =>
    let vs := if t.scratch.isEmpty then [] else elems 4 32768 (t.engRead ad 131072)
    let rest := a.m.filter fun e => e.1 / 32768 != m.toNat
    let new := if vs.isEmpty then rest else fillRun 0 rest (32768 * m.toNat) (vs.map (BitVec.ofNat 32))
    s.wordDone n t { a.bump q pi k with m := new } 0

/-! ### TLW, TMM and TSTO (R231 to R233) -/

def Arr.slot (a : Arr) (ws : BitVec 1) : WSlot := if ws = 0 then a.w0 else a.w1
def Arr.setSlot (a : Arr) (ws : BitVec 1) (w : WSlot) : Arr := if ws = 0 then { a with w0 := w } else { a with w1 := w }

/-- An empty scratchpad reads as zeros throughout, which latch no element and no descriptor. -/
def execTlw (ws : BitVec 1) (fmt : Fmt) (q : BitVec 3) (pi : Bool) (k : Word) (s : State) :=
  onScratch q pi k true s fun n t a ad =>
    let w := if t.scratch.isEmpty then ({ WSlot.empty with wfmt := fmt.code.toNat, src := some (ad, t.alloc) }, 0)
      else loadSlot fmt (ad, t.alloc) (t.engRead ad (wBytes fmt))
    s.wordDone n t ((a.setSlot ws w.1).bump q pi k) w.2

/-- Bytes of an activation row. -/
def actPitch (fmt : Fmt) : Nat := if fmt = .bf16 then 256 else 128

/-- The first `rows` rows of a stream into a tile. -/
def tmmRows (t : Team) (fmt : Fmt) (acc : Bool) (w : WSlot) (tile ad : Nat) :
    Nat → List (Nat × Word) → List (Nat × Word) × Word
  | 0, m => (m, 0)
  | i + 1, m =>
    let r := tmmRows t fmt acc w tile ad i m
    let base := ad + i * actPitch fmt
    let out := streamRow fmt (t.engRead base (actPitch fmt)) (padElem t.alloc base (fWidth fmt)) w
      (if acc then some fun j => tget 0 m (accKey tile i j) else none)
    (fillRun 0 r.1 (accKey tile i 0) out.1, r.2 ||| out.2)

def execTmm (m : BitVec 2) (ws : BitVec 1) (fmt : Fmt) (acc : Bool) (q : BitVec 3) (pi : Bool) (n : BitVec 7) (k : Word)
    (s : State) :=
  onScratch q pi k true s fun tn t a ad =>
    let r := tmmRows t fmt acc (a.slot ws) m.toNat ad (n.toNat + 1) a.m
    s.wordDone tn t { a.bump q pi k with m := r.1 } r.2

/-- The conversion of one element by TSTO. -/
def tstoConv (fmt : Fmt) (v : Word) : Nat × Word :=
  if fmt = .f32 then (v.toNat, 0)
  else if (fdec .f32 v.toNat).isNaN then (fNaN fmt, 0)
  else
    let r := fconv fmt .f32 .rn true v.toNat
    (r.1, if r.2 &&& fSAT != 0 then fASAT else 0)

/-- Rows of a tile written to scratchpad. -/
def tstoRows (fmt : Fmt) (m : List (Nat × Word)) (tile ad : Nat) : Nat → Team → Team × Word
  | 0, t => (t, 0)
  | i + 1, t =>
    let r := tstoRows fmt m tile ad i t
    let vs := (List.range 256).map fun j => tstoConv fmt (tget 0 m (accKey tile i j))
    let es := fWidth fmt / 8
    (r.1.engWrite (ad + i * (256 * es)) (vs.flatMap fun v => natBytes v.1 es), r.2 ||| vs.foldl (fun f v => f ||| v.2) 0)

/-- A tile of zeros leaves an empty scratchpad as it is. -/
def execTsto (m : BitVec 2) (fmt : Fmt) (q : BitVec 3) (pi : Bool) (k : Word) (s : State) :=
  onScratch q pi k false s fun n t a ad =>
    let tile := a.m.filter fun e => e.1 / 32768 == m.toNat
    let r := if tile.isEmpty && t.scratch.isEmpty then (t, 0) else tstoRows fmt tile m.toNat ad 128 t
    s.wordDone n r.1 (a.bump q pi k) r.2

/-! ### TARB, TWB and TLOOP (R234, R235) -/

def execTarb (b : BitVec 4) (s : State) :=
  onSeq false s fun n t a =>
    if (t.bar b.toNat).e = 0 then s.seqStop n t a 0x80 0x14 b.toNat (a.word.setWidth 32)
    else s.wordDone n (t.arrive b.toNat) a 0

def execTwb (b : BitVec 4) (phase : Bool) (s : State) :=
  onSeq true s fun n t a =>
    if (t.bar b.toNat).ph != phase then s.wordDone n t a 0
    else s.setTeam n (some { t with arr := some { a with st := 2, bn := b, ph := phase } })

def execTloop (c : BitVec 7) (k : Word) (s : State) :=
  onSeq false s fun n t a =>
    if a.lcnt != 0 && a.loff != a.spc then s.seqIllegal n t a 0x22
    else
      let a := if a.lcnt = 0 then { a with lcnt := c, loff := a.spc } else { a with lcnt := a.lcnt - 1 }
      s.setTeam n (some { t with arr := some { a with spc := if a.lcnt != 0 then a.spc + k else a.spc + 8 } })

/-! ### Words that do not run (R226, R227, R332) -/

def execUnassignedTileWord (sub : BitVec 8) (s : State) := onSeq false s fun n t a => s.seqIllegal n t a sub.toNat

/-- A tile word beyond the code table or poisoned stops the sequencer; one whose page is not present leaves it waiting
(R226). -/
def execTileWordFetchFault (e : FetchErr) (s : State) :=
  onSeq false s fun n t a =>
    match e with
    | .range => s.seqStop n t a 0x81 4 0 0
    | .poisoned => s.seqStop n t a 0x82 0x10 0 0
    | .translation => s.setTeam n (some { t with arr := some { a with miss := true } })

/-- What the sequencer's fetch finds. -/
inductive TFetched where
  | range
  | miss (va : Nat)
  | busy
  | poison
  | got (w : DWord)

/-- The fetch of a tile word uses its page. -/
def State.useTile (s : State) (t : Team) (spc : Nat) : State :=
  let slot := recCSlot t.record
  match s.table t.part slot with
  | none => s
  | some tb => if spc % 8 != 0 || decide (tBytes tb < spc + 8) then s else s.useFetch t.core t.part slot tb spc

def State.tfetch (s : State) (t : Team) (spc : Nat) : TFetched :=
  let s := s.useTile t spc
  let slot := recCSlot t.record
  match s.table t.part slot with
  | none => .range
  | some tb =>
    if spc % 8 != 0 || decide (tBytes tb < spc + 8) then .range
    else
      match (s.locate (some t.core) t.part slot tb spc).2 with
      | .busy _ => .busy
      | .miss => .miss (tHeap tb + spc)
      | .ok k _ _ _ => if s.readWaits t.part k then .busy else if s.poisoned k 8 then .poison else .got (BitVec.ofNat 64 (s.rdNat k 8))

/-- A tile-word fetch misses translation: the sequencer waits in STATE 1 and the miss is reported (R226). DEDUCED
(log 55): the record's RPL is 1, the cause being the replayable one (R293). -/
def execTileWordFetchMiss (n : Nat) (s : State) : Host.Outcome State Fault Refusal :=
  match s.team n with
  | none => .next s
  | some t => match t.arr with
    | none => .next s
    | some a =>
      if a.st ≠ 1 ∨ a.miss then .next s
      else match s.tfetch t a.spc.toNat with
        | .miss va =>
          let r : BitVec 256 := BitVec.ofNat 64 va ++ (0 : Word) ++ (0 : Word) ++ a.spc ++ a.spc ++ (0 : Word) ++
            (2 : BitVec 16) ++ (0 : BitVec 6) ++ (3 : BitVec 2) ++ (0x11 : BitVec 8)
          .next ((s.setTeam n (some { t with arr := some { a with miss := true } })).teamReport t 6 0 5
            (recCSlot t.record) 0 (BitVec.ofNat 64 va) [r])
        | _ => .next s

/-- The park of a stop on the lanes of a group (R303). -/
def SeqStop.park (p : SeqStop) (g : Group) (m : Lanes) : Park :=
  { rpl := false, async := true, pc := g.pc, next := g.pc, insn := p.insn, resolved := false, op := none
    faults := onLanes m { cause := p.cause, detail := p.detail, addr := p.spc.setWidth 64, aux := 0, slot := 0 } }

/-- The oldest stop is delivered to its group, or to the one to which MXGRP passed (R227). It waits while all lanes of
the group are parked, while an instruction has to issue again for those of its lanes that are not done (R295), or while the
group has stopped; with no group left it stays, and the team ends with its stream abandoned (R83). In trap mode it is a
double fault (R302). -/
def execStopDelivery (n : Nat) (s : State) : Host.Outcome State Fault Refusal :=
  match s.team n with
  | none => .next s
  | some t => match t.arr with
    | none => .next s
    | some a => match a.stops with
      | [] => .next s
      | p :: rest =>
        let grp := (t.mxPass a.mxgrp).getD a.mxgrp
        let s1 := s.setTeam n (some { t with arr := some { a with stops := rest, mxgrp := grp } })
        match t.mxPass p.grp with
        | none => .next s
        | some k => match s1.group ⟨n, k⟩ with
          | none => .next s1
          | some (t, g) =>
            if g.halted then .next s1
            else if g.whole.isSome || g.redo.isSome || g.faultLanes == 0 || g.stop == .stopped then .next s
            else
              let q := p.park g g.faultLanes
              .next (match g.trap with
                | some ts => s1.halt ⟨n, k⟩ t g [ts.park.record, q.record]
                | none => s1.parkNow ⟨n, k⟩ t (g.dropLanes g.faultLanes) q 0)

end Sys2Proof.Machine
end

