-- ==== Sys2Proof/Machine/Traps.lean ====
section
/-! DEFINITION. TRAP, BRK and TRET (R300, R301), and serving park slots as a step of its own (R296). -/

namespace Sys2Proof.Machine

/-- The deliberate parks: on the lanes that take part, with the code. -/
def Iss.trap (x : Iss) (s : State) (cause : Nat) (code : Word) : State :=
  x.fail s (mkFault cause (code.toNat % 65536) (code.setWidth 64) 0)

def execTrap (h : Hdr) (code : Word) (s : State) := onGroup (.trap h code) s fun s x => x.trap s 0x1A code
def execBrk (h : Hdr) (code : Word) (s : State) := onGroup (.brk h code) s fun s x => x.trap s 0x1B code

/-- TRET hands the pending lanes that take part back; the last of them ends trap mode. -/
def execTret (h : Hdr) (form : TretForm) (s : State) :=
  onGroup (.tret h form) s fun s x =>
    match x.g.trap with
    | none => x.failOn s x.g.faultLanes (mkFault 0x19 0 0 0)
    | some ts =>
      if x.act = 0 then x.finish s
      else
        let r := x.act
        let ts := { ts with pending := ts.pending &&& ~~~r }
        let g := match form with
          | .retry => { x.g with trap := some { ts with resume := ts.resume ++ [(r, x.g.trapPC)] }, em := x.g.em &&& ~~~r }
          | .skip =>
            { x.g with trap := some { ts with skipped := ts.skipped ++ [(r, x.g.trapPC + (ts.park.next - ts.park.pc))] }
                       em := x.g.em &&& ~~~r }
          | .term => { x.g with trap := some ts }.exitLanes r
        (Iss.finish { x with g := g } s).endTrap x.r

/-- A group serves its park slots (R296). -/
def execServeParkSlots (r : GRef) (s : State) : Host.Outcome State Fault Refusal := .next (s.serve r)

end Sys2Proof.Machine
end

