-- ==== Sys2Proof/Machine/Spooler.lean ====
section
/-! DEFINITION. Spools and their registers (R67 to R70, R325), records (R71 to R78), placing and starting teams (R79, R84
to R88), the end of teams and grids (R80, R83, R326 to R328), and reports (R329, R342). -/

namespace Sys2Proof.Machine

/-! ### Spool registers -/

def spCfgRW : DWord := 0x1FFFFBF
def cqRW : DWord := 0xFFF01

/-- A table that can hold a spool's ring or its completion records. -/
def State.ringOk (s : State) (part slot log2n : Nat) : Bool :=
  match s.table part slot with
  | some t => ringTable t log2n
  | none => false

/-- A partition's register window has the blocks of 16 spools (R67), and in recovery none (R344). -/
def State.spoolHere (s : State) (part n : Nat) : Bool := s.managed && decide (part < 32 ∧ n < 16)

/-- A write of SPCFG (R68): a change while enabled is ignored; an enable is checked, and checks the completion table
again (R325). -/
def State.writeSpcfg (s : State) (part n : Nat) (v : DWord) : State :=
  let p := s.partn part
  let sp := p.spool n
  let w := v &&& spCfgRW
  if spEN sp then
    if (w ^^^ sp.cfg) &&& ~~~(0x20 : DWord) != 0 then
      s.setPartn part (p.setSpool n { sp with stat := sp.stat ||| 4 })
    else s.setPartn part (p.setSpool n { sp with cfg := w })
  else if fbit v 5 then
    let nw := { sp with cfg := w }
    if !s.ringOk part (spSlot nw) (spLOG nw) || decide (spLOG nw < 4 ∨ 20 < spLOG nw) || spClass nw == 3 ||
        v &&& ~~~spCfgRW != 0 then
      s.setPartn part (p.setSpool n { sp with cfg := w &&& ~~~(0x20 : DWord), stat := sp.stat ||| 8 })
    else
      let short := match s.table part (fld sp.cq 19 8) with
        | some t => decide (tCap t < 2 ^ spLOG nw)
        | none => true
      let cq := if fbit sp.cq 0 && short then (sp.cq &&& ~~~(1 : DWord)) ||| 2 else sp.cq
      s.setPartn part (p.setSpool n { nw with cq := cq })
  else s.setPartn part (p.setSpool n { sp with cfg := w })

def execSpoolEnable (part spool : Nat) (v : DWord) (s : State) : Host.Outcome State Fault Refusal :=
  .next (if s.spoolHere part spool then s.writeSpcfg part spool v else s)

/-- Clearing EN: the spooler takes no more records. -/
def execSpoolDisable (part spool : Nat) (s : State) : Host.Outcome State Fault Refusal :=
  .next (if s.spoolHere part spool then s.writeSpcfg part spool (((s.partn part).spool spool).cfg &&& ~~~(0x20 : DWord)) else s)

/-- A write of SPTAIL (R69). -/
def execSptailWrite (part spool : Nat) (v : Word) (s : State) : Host.Outcome State Fault Refusal :=
  let p := s.partn part
  let sp := p.spool spool
  let sp :=
    if spDEV sp then { sp with stat := sp.stat ||| 2 }
    else if (v - sp.head).toNat ≤ 2 ^ spLOG sp then { sp with tail := v }
    else { sp with stat := sp.stat ||| 1 }
  .next (if s.spoolHere part spool then s.setPartn part (p.setSpool spool sp) else s)

/-- A write of CQCFG (R325). -/
def State.writeCqcfg (s : State) (part n : Nat) (v : DWord) : State :=
  let p := s.partn part
  let sp := p.spool n
  let cq :=
    if fbit v 0 && !fbit sp.cq 0 then
      if !s.ringOk part (fld v 19 8) (spLOG sp) || v &&& ~~~(cqRW ||| 2) != 0 then (v &&& cqRW &&& ~~~(1 : DWord)) ||| 2
      else v &&& cqRW
    else (v &&& cqRW) ||| (sp.cq &&& 2)
  s.setPartn part (p.setSpool n { sp with cq := cq })

def execCqcfgEnable (part spool : Nat) (v : DWord) (s : State) : Host.Outcome State Fault Refusal :=
  .next (if s.spoolHere part spool then s.writeCqcfg part spool v else s)

/-- A write of SUPACK: the reports consumed (R329). -/
def execSupackWrite (part : Nat) (v : Word) (s : State) : Host.Outcome State Fault Refusal :=
  let p := s.partn part
  let n := trapSUP p
  let sp := p.spool n
  let k := BitVec.ofNat 32 (min v.toNat (sp.tail - sp.head).toNat)
  .next (if s.spoolHere part n then s.setPartn part (p.setSpool n { sp with head := sp.head + k, done := sp.done + k }) else s)

/-! ### The resources of a core (R85) -/

def shRegs (sh : DWord) : Nat := shP sh * shRP sh * 1024 + (shG sh + 1 - shP sh) * shRC sh * 1024

/-- The remap entry of a logical core (R89); an unlisted core maps to itself (DESIGN CHOICE, log 5). -/
def State.remapEntry (s : State) (c : Nat) : Word :=
  tget (BitVec.ofNat 32 (2 ^ 31 + c / 64 * 256 + c / 8 % 8 * 16 + c % 8)) s.remap c

/-- Whether a logical core can take teams (R334). -/
def State.coreUsable (s : State) (c : Nat) : Bool := !(s.core c).noTeam && fbit (s.remapEntry c) 31

/-- The teams that hold resources of a core for a partition: its own, and others that have not stopped (R280, R306). -/
def State.coreTeams (s : State) (part c : Nat) : List Team :=
  s.teams.filterMap fun e => match e.2 with
    | some t => if t.core = c ∧ (t.part = part ∨ t.st ≠ .stopped) then some t else none
    | none => none

/-- What the teams of a core take of it. -/
structure Load where
  teams : Nat
  regs  : Nat
  scr   : Nat
  cq    : Nat
  mx    : Bool
  slots : List (Nat × Nat)        -- group slots: first and count

/-- The first of the lowest free consecutive group slots (R92). -/
def freeBase (l : List (Nat × Nat)) (n : Nat) : Option Nat :=
  (List.range (33 - n)).find? fun b => l.all fun t => decide (b + n ≤ t.1 ∨ t.1 + t.2 ≤ b)

/-- The load with one more team of a shape. -/
def Load.add (l : Load) (sh : DWord) (base : Nat) : Load :=
  { teams := l.teams + 1, regs := l.regs + shRegs sh, scr := l.scr + shSCR sh, cq := l.cq + shCQ sh, mx := l.mx || shMX sh,
    slots := l.slots ++ [(base, shG sh + 1)] }

def loadOf (ts : List Team) : Load :=
  ts.foldl (fun l t => l.add t.shape t.base) { teams := 0, regs := 0, scr := 0, cq := 0, mx := false, slots := [] }

/-- The group slots that a core with a load has free for a team, if it holds free all that the team needs (R85). -/
def Load.room (l : Load) (sh : DWord) : Option Nat :=
  if decide (l.teams < 8) && decide (l.regs + shRegs sh ≤ 327680) && decide (l.scr + shSCR sh ≤ 384) &&
      decide (l.cq + shCQ sh ≤ 64) && !(shMX sh && l.mx) then freeBase l.slots (shG sh + 1)
  else none

/-- How many teams of a shape a core with a load takes still. -/
def Load.fits (sh : DWord) : Nat → Load → Nat
  | 0, _ => 0
  | n + 1, l => match l.room sh with
    | some b => (l.add sh b).fits sh n + 1
    | none => 0

/-- The cores of a cluster, each with how many teams of a shape it takes still. -/
def State.caps (s : State) (part cl : Nat) (sh : DWord) : List (Nat × Nat) :=
  (List.range 8).map fun i =>
    let c := 8 * cl + i
    (c, if s.coreUsable c then (loadOf (s.coreTeams part c)).fits sh 8 else 0)

/-- Sort cores by falling room. -/
def capInsert (x : Nat × Nat) : List (Nat × Nat) → List (Nat × Nat)
  | [] => [x]
  | y :: r => if y.2 ≤ x.2 then x :: y :: r else y :: capInsert x r

/-- The cores of a cluster for a gang of `n` teams: those with the most room, the lowest first (DESIGN CHOICE, log 56). -/
def pickCores (n : Nat) (caps : List (Nat × Nat)) : Option (List Nat) :=
  let top := ((((caps.filter fun c => c.2 != 0).foldr capInsert []).take n).map Prod.fst)
  if top.length = n then some ((caps.map Prod.fst).filter fun c => top.contains c) else none

def Partition.clusterList (p : Partition) : List Nat := (List.range (pClusters p)).map fun i => pFirst p + i

/-- How many teams of a shape an empty core holds. -/
def emptyCap (sh : DWord) : Nat :=
  let d := fun (cap need : Nat) => if need = 0 then 8 else cap / need
  min (min (min 8 (32 / (shG sh + 1))) (min (d 327680 (shRegs sh)) (d 384 (shSCR sh))))
    (min (d 64 (shCQ sh)) (if shMX sh then 1 else 8))

/-! ### The checks of a record (R72 to R77) -/

/-- The row slot of a key of a table, if the key names one. -/
def Table.rowOf (t : Table) (k : Int) : Option Nat :=
  if tKind t = 0 then (if tLo t ≤ k ∧ k < tLo t + tCap t then some (k - tLo t).toNat else none) else t.find k

/-- Whether a slot names a bound dense table of width at least `w` that has the key. DESIGN CHOICE (log 57): of a key
type of 32 bits, bits [63:32] of FKEY or KEY do not count. -/
def State.denseRow (s : State) (part slot w key : Nat) : Bool :=
  match s.table part slot with
  | none => false
  | some t => tKind t == 0 && decide (w ≤ tWidth t) && (t.rowOf (keyOfNat (tKType t) key)).isSome

/-- Whether the partition is too small for a launch (code 0x27): a retired core counts until its remap entry is gone
(R334). -/
def State.tooBig (s : State) (part : Nat) (sh : DWord) (teams : Nat) : Bool :=
  let k := emptyCap sh
  let f := 2 ^ shFALL sh
  let fit := (s.partn part).clusterList.map fun cl =>
    let u := (((List.range 8).map fun i => 8 * cl + i).filter fun c => fbit (s.remapEntry c) 31).length
    if f ≤ u then u * k / f * f else 0
  fit.all (· == 0) || (shCORES sh && decide (fit.foldl (· + ·) 0 < teams))

def State.workCodes (s : State) (part cls : Nat) (r : BitVec 256) : List Nat :=
  let sh := recShape r
  let teams := recTeams r + 1
  err (fld r 154 152 != 0 || fld sh 63 46 != 0) 0x21 ++ err (cls != 0) 0x22 ++
    err (match s.table part (recCSlot r) with
      | some t => tKind t != 0 || recCode r % 4 != 0 || decide (tBytes t ≤ recCode r)
      | none => true) 0x23 ++
    err (decide (384 < shSCR sh ∨ 64 < shCQ sh ∨ shRC sh < 1 ∨ 80 < shRC sh ∨ 20 < shRP sh ∨ (shRP sh = 0 ∧ shP sh ≠ 0) ∨
      shG sh + 1 < shP sh ∨ shPREF sh < shFALL sh)) 0x24 ++
    err (decide (327680 < shRegs sh)) 0x25 ++ err (teams % 2 ^ shPREF sh != 0) 0x26 ++ err (s.tooBig part sh teams) 0x27 ++
    err (!s.denseRow part (fld r 191 180) 0 (fld r 255 192)) 0x28 ++
    err (fbit r 155 && !s.denseRow part (fld r 167 156) 64 (fld r 63 32)) 0x29

def recCmd (r : BitVec 256) : Nat := fld r 7 2

def State.commandCodes (s : State) (part cls : Nat) (r : BitVec 256) : List Nat :=
  let cmd := recCmd r
  let value := cmd == 1 || cmd == 2
  let target := match s.table part (fld r 127 116) with
    | none => true
    | some t => (t.rowOf (keyOfNat (tKType t) (fld r 191 128))).isNone || decide (tWidth t < fld r 115 100 + 8) ||
        fld r 115 100 % 8 != 0 || !(if cmd = 1 then tRead t else tWrite t)
  if cmd < 1 ∨ 4 < cmd then [0x20]
  else
    err (if value then fld r 99 98 != 0 || fld r 95 8 != 0 || fld r 97 96 == 3
      else fld r 255 192 != 0 || fld r 115 8 != 0) 0x21 ++
      err (!value && cls + 2 != cmd) 0x22 ++ err (value && target) 0x2A

/-- The failure code of a record, if it fails. -/
def State.recordCode (s : State) (part cls : Nat) (r : BitVec 256) : Option Nat :=
  match fld r 1 0 with
  | 0 => least (s.workCodes part cls r)
  | 1 => least (s.commandCodes part cls r)
  | _ => some 0x20

/-- The slot and key that a failed record's report names. -/
def failNames (r : BitVec 256) (code : Nat) : Nat × DWord :=
  match code with
  | 0x23 => (recCSlot r, 0)
  | 0x28 => (fld r 191 180, BitVec.ofNat 64 (fld r 255 192))
  | 0x29 => (fld r 167 156, BitVec.ofNat 64 (fld r 63 32))
  | 0x2A => (fld r 127 116, BitVec.ofNat 64 (fld r 191 128))
  | _ => (0, 0)

/-- Whether the hub can read and write a range of an image, else the state in which it waits. -/
def State.hubWait2 (s : State) (tie : ErrTie) (slot : Nat) (t : Table) (off n : Nat) : Option State :=
  match s.hubWait tie slot t off n false with
  | some s => some s
  | none => s.hubWait tie slot t off n true

/-! ### Taking records (R71, R77, R78, R84) -/

def Grid.isWork (g : Grid) : Bool := fld g.record 1 0 == 0
def Grid.teamsN (g : Grid) : Nat := recTeams g.record + 1

def newGrid (spool pos : Nat) (r : BitVec 256) : Grid :=
  { spool := spool, pos := pos, record := r, placed := 0, ended := 0, nbad := 0, nfail := 0, ndone := 0, code := 0,
    value := 0, op := none, retired := false, phase := 0, aborted := false, wd := 0, wdDone := false,
    stall := false }

/-- The spooler may take the next record of a spool. -/
def Partition.takes (p : Partition) (n : Nat) : Bool :=
  let sp := p.spool n
  pEN p && decide (n < 16) && spEN sp && sp.head != sp.tail && !(trapSUP p == n && spDEV sp)

/-- The record before the next one, if it has not completed. -/
def Partition.before (p : Partition) (n : Nat) : Option Grid := p.grid n ((p.spool n).head - 1).toNat

/-- Take the record `r` at the head: it is marked, counted, and started or failed. -/
def State.take (s : State) (part n : Nat) (t : Table) (r : BitVec 256) : State :=
  let sp := (s.partn part).spool n
  let code := s.recordCode part (spClass sp) r
  let s := s.rowWrite none part (spSlot sp) t (sp.head.toNat % 2 ^ spLOG sp * 32) [2]
  let g := newGrid n sp.head.toNat r
  let g := match code with
    | some c => { g with code := BitVec.ofNat 8 c, retired := true }
    | none => g
  let p := s.partn part
  let p := p.setSpool n { p.spool n with head := sp.head + 1 }
  let s := s.setPartn part { p with grids := p.grids ++ [g] }
  match code with
  | some c =>
    let w := failNames r c
    s.report part [reportHdr 2 0 c 0 sp.head.toNat n w.1 0 w.2]
  | none => s

/-- Read the record at the head of a spool, where its page is mapped, and take it if `ok`. DESIGN CHOICE (log 58): the
words of the record are read at one moment. -/
def State.takeIf (s : State) (part n : Nat) (ok : BitVec 256 → Bool) : State :=
  let sp := (s.partn part).spool n
  match s.table part (spSlot sp) with
  | none => s
  | some t =>
    let off := sp.head.toNat % 2 ^ spLOG sp * 32
    match s.hubWait2 { part := part, spool := n, pos := sp.head.toNat, slot := spSlot sp } (spSlot sp) t off 32 with
    | some s => s
    | none =>
      let s := s.touchImage none part (spSlot sp) t off 32
      let r := BitVec.ofNat 256 (leNat (s.imageRead none part (spSlot sp) t off 32))
      if ok r then s.take part n t r else s

def execTakeRecord (part spool : Nat) (s : State) : Host.Outcome State Fault Refusal :=
  let p := s.partn part
  if !p.takes spool || (p.before spool).isSome then .next s
  else .next (s.takeIf part spool fun _ => true)

/-- A launch has triggered: all its teams are placed, and every lane has triggered or ended. -/
def State.triggered (s : State) (part : Nat) (g : Grid) : Bool :=
  g.isWork && !g.retired && g.placed == g.teamsN &&
    (s.gridTeams part g.spool g.pos).all fun t => t.2.groups.all fun gr => gr.triggered == allOnes

def execEarlyDependentLaunch (part spool : Nat) (s : State) : Host.Outcome State Fault Refusal :=
  let p := s.partn part
  match p.before spool with
  | none => .next s
  | some g =>
    if !p.takes spool || !s.triggered part g then .next s
    else .next (s.takeIf part spool fun r => fld r 1 0 == 0 && shEDL (recShape r))

/-! ### Commands (R76, R201) -/

/-- The command that a spool runs. -/
def Partition.command (p : Partition) (spool cmd : Nat) : Option Grid :=
  p.grids.find? fun g => decide (g.spool = spool) && fld g.record 1 0 == 1 && recCmd g.record == cmd && !g.retired

/-- The tie of a report to a grid or command. -/
def Grid.tie (g : Grid) (part slot : Nat) : ErrTie := { part := part, spool := g.spool, pos := g.pos, slot := slot }

/-- Where the 64-bit target of a wait or signal lies. -/
def State.target (s : State) (part : Nat) (r : BitVec 256) : Option (Nat × Table × Nat) :=
  match s.table part (fld r 127 116) with
  | none => none
  | some t => (t.rowOf (keyOfNat (tKType t) (fld r 191 128))).map fun row =>
      (fld r 127 116, t, row * tWidth t + fld r 115 100)

/-- Run a wait or a signal on its target at part scope. DESIGN CHOICE (log 59): while the target's table is not bound, it
waits. -/
def State.onTarget (s : State) (part : Nat) (g : Grid) (wr : Bool) (f : State → Nat → Table → Nat → Nat → State) : State :=
  match s.target part g.record with
  | none => s
  | some (slot, t, off) =>
    match if wr then s.hubWait2 (g.tie part slot) slot t off 8 else s.hubWait (g.tie part slot) slot t off 8 false with
    | some s => s
    | none => match s.imageKey none part slot t off with
      | some k => f (s.touchImage none part slot t off 8) slot t off k
      | none => s

def execWaitOnValue (part spool : Nat) (s : State) : Host.Outcome State Fault Refusal :=
  match (s.partn part).command spool 1 with
  | none => .next s
  | some g =>
    .next (s.onTarget part g false fun s _ _ _ k =>
      let v := s.rdNat k 8
      let x := fld g.record 255 192
      let ok := match fld g.record 97 96 with
        | 0 => decide (x ≤ v)
        | 1 => v == x
        | _ => v != x
      if ok then s.putGrid part { g with value := BitVec.ofNat 64 v, retired := true } else s)

/-- A signal adds or writes (R76). DESIGN CHOICE (log 60): OPER 2, which is not reserved and has no meaning stated,
adds. -/
def execSignalValue (part spool : Nat) (s : State) : Host.Outcome State Fault Refusal :=
  match (s.partn part).command spool 2 with
  | none => .next s
  | some g =>
    if (s.partn part).grids.any fun e => decide (e.spool = spool ∧ e.pos ≠ g.pos) then .next s
    else
      .next (s.onTarget part g true fun s slot t off k =>
        let s := s.recall (lineOf k)
        let v := s.rdNat k 8
        let x := fld g.record 255 192
        let new := if fld g.record 97 96 = 0 then x else v + x
        (s.rowWrite none part slot t off (natBytes new 8)).putGrid part { g with value := BitVec.ofNat 64 v, retired := true })

/-- Keep a command's operation, or complete the command. -/
def State.cmdKeep (s : State) (part : Nat) (g : Grid) (op : EngOp) : State :=
  if op.begun && op.items.isEmpty then
    let s := s.putGrid part { g with
      op := none, retired := true, nfail := op.failed, ndone := op.ndone, code := BitVec.ofNat 8 op.code }
    let p := s.partn part
    s.setPartn part { p with reports := p.reports ++ op.reports g.pos g.spool op.mainSlot }
  else s.putGrid part { g with op := some op }

/-- A command waits for a translation: reported once, until a RESUME covers it (R315). -/
def State.cmdStall (s : State) (part : Nat) (g : Grid) (op : EngOp) (va slot : Nat) : State :=
  (s.putGrid part { g with op := some { op with stall := some va } }).report part
    [reportHdr 7 0 0 op.eng.code g.pos g.spool slot 0 (BitVec.ofNat 64 va)]

/-- Begin a command's operation once the engine has what it reads first. -/
def State.cmdBegin (s : State) (part : Nat) (g : Grid) (op : EngOp) (f : Reach (State × EngOp)) : State :=
  if op.stall.isSome then s
  else match f with
  | .ok (s, op) => s.cmdKeep part g op
  | .code c => s.cmdKeep part g (op.start [c] [] 0)
  | .miss va slot => s.cmdStall part g op va slot
  | .busy => s

/-- One item of a command. -/
def State.cmdItem (s : State) (part : Nat) (g : Grid) (op : EngOp) (i : Nat) (fail : Bool) (addr : DWord) (slot : Nat)
    (f : Reach State) (zero : State) : State :=
  if op.stall.isSome && !fail then s
  else match f with
  | .ok s => s.cmdKeep part g (op.did i none)
  | .code c => zero.cmdKeep part g (op.did i (some ⟨i, c, addr, slot⟩))
  | .miss va at_ =>
    if fail then zero.cmdKeep part g (op.did i (some ⟨i, 0x1D, addr, slot⟩)) else s.cmdStall part g op va at_
  | .busy => s

/-- The slot and key of a command's operand block (R76). -/
def Grid.blockSlot (g : Grid) : Nat := fld g.record 127 116
def Grid.blockKey (g : Grid) : Nat := fld g.record 191 128

/-- A command's operation before it begins. -/
def Grid.command (g : Grid) (eng : Engine) : EngOp :=
  let slot := BitVec.ofNat 64 g.blockSlot
  match eng with
  | .coll => mkEng .coll none [0, slot, BitVec.ofNat 64 g.blockKey]
  | e => mkEng e none [0, 0, slot]

/-- The operand block of a copy command, its layouts' records and their checks (R49, R195, R201). -/
def State.copyBegin (s : State) (part : Nat) (g : Grid) : Reach EngOp :=
  let op := g.command .copy
  let slot := BitVec.ofNat 64 g.blockSlot
  match if s.denseRow part g.blockSlot 64 g.blockKey then s.coBlock part slot (BitVec.ofNat 64 g.blockKey) else .code 0x1A with
  | .miss va slot => .miss va slot
  | .busy => .busy
  | .code _ => .ok (op.start [0x1A] [] 0)
  | .ok b =>
    let op := mkEng .copy none [0, 0, slot, BitVec.ofNat 64 (fld b 255 192), BitVec.ofNat 64 (fld b 447 384)]
    let rsv := err (fld b 511 448 != 0 || fld b 307 256 != 0 || fld b 115 0 != 0) 0x17
    match s.layoutAt none part (BitVec.ofNat 64 (fld b 127 116)) (fld b 191 128),
        s.layoutAt none part (BitVec.ofNat 64 (fld b 319 308)) (fld b 383 320) with
    | .miss va slot, _ => .miss va slot
    | .busy, _ => .busy
    | .code _, _ => .ok (op.start (0x1A :: rsv) [] 0)
    | _, .miss va slot => .miss va slot
    | _, .busy => .busy
    | _, .code _ => .ok (op.start (0x1A :: rsv) [] 0)
    | .ok sl, .ok dl =>
      .ok (op.start (s.layoutCodes part sl ++ s.layoutCodes part dl ++ rsv ++
        err (decide (lyFmt sl ≠ lyFmt dl ∨ lyRows sl ≠ lyRows dl ∨ lyCols sl ≠ lyCols dl)) 0x13) [sl, dl] (lyRows sl + 1))

/-- The pages of the operand block and of the layout records are used as they are read (R316). -/
def State.useCopy (s : State) (part : Nat) (g : Grid) : State :=
  let slot := BitVec.ofNat 64 g.blockSlot
  let key := BitVec.ofNat 64 g.blockKey
  match s.coBlock part slot key with
  | .ok b => ((s.useBlock part slot key).useLayout none part (BitVec.ofNat 64 (fld b 127 116)) (fld b 191 128)).useLayout none
      part (BitVec.ofNat 64 (fld b 319 308)) (fld b 383 320)
  | _ => s

/-- One tile row of a copy command: read as by .ld, written as by .st. A poisoned source
delivers zeros, once the destination's page can be written (R332). -/
def State.copyItem (s : State) (part : Nat) (g : Grid) (op : EngOp) (i : Nat) (fail : Bool) : State :=
  let sl := op.rec0
  let dl := op.recd.getD 1 0
  match s.held part (lySlot sl), s.held part (lySlot dl) with
  | some st, some dt =>
    let sk := keyOfNat (tKType st) (op.aN 3) + i * lyKStride sl
    let dk := keyOfNat (tKType dt) (op.aN 4) + i * lyKStride dl
    let zeros := List.replicate (lyPitch sl + lyScales sl) (0 : Byte)
    let touch := fun (s : State) (slot : Nat) (t : Table) (l : BitVec 512) (k : Int) => match lyRow t l k with
      | some row => s.touchRow none part slot t row
      | none => s
    let s := touch (touch s (lySlot sl) st sl sk) (lySlot dl) dt dl dk
    let put := fun (bs : List Byte) => match lyRow dt dl dk with
      | none => Reach.ok s
      | some row => s.writeRuns none false part (lySlot dl) dt row (lyRuns dl) bs
    let src := match lyRow st sl sk with
      | none => Reach.ok zeros
      | some row => s.readRuns none part (lySlot sl) st row (lyRuns sl)
    let done := match src, put zeros with
      | .code _, .miss va slot => .miss va slot
      | .code _, .busy => .busy
      | _, _ => src.bind put
    s.cmdItem part g op i fail (keyAddr (tKType st) sk) (lySlot sl) done
      (match put zeros with | .ok s => s | _ => s)
  | _, _ => s

def execCopyCommand (part spool item : Nat) (fail : Bool) (s : State) : Host.Outcome State Fault Refusal :=
  match (s.partn part).command spool 3 with
  | none => .next s
  | some g =>
    let op := g.op.getD (g.command .copy)
    if !op.begun then .next (s.cmdBegin part g op ((s.copyBegin part g).bind fun op => .ok (s.useCopy part g, op)))
    else if hasItem item op.items then .next (s.copyItem part g op item fail) else .next s

/-- A collective command: its rank joins, the ranks are compared, then element after element is written (R208). -/
def execCollectiveCommand (part spool item : Nat) (far : CoFar) (heads : List CoHead) (s : State) :
    Host.Outcome State Fault Refusal :=
  match (s.partn part).command spool 4 with
  | none => .next s
  | some g =>
    let op := g.op.getD (g.command .coll)
    match op.coll with
    | none => .next (s.cmdBegin part g op (s.coJoin part op (op.a 1) (op.a 2)))
    | some c =>
      let r := op.rec0
      if !op.begun then .next (s.cmdBegin part g op ((s.coOpen part op c heads).bind fun op => .ok (s, op)))
      else if hasItem item op.items then
        let off := coAt r c item
        match if itemsLeft op.items = 1 then s.coSend part r c else .ok s with
        | .ok s =>
          let s := s.useSources part r c item
          .next (s.cmdItem part g op item false (BitVec.ofNat 64 off) (coDst r)
            (s.coWrite none false part r off (s.coValue part r c item far)) (s.coPoison none part r off))
        | .miss va slot => .next (if op.stall.isSome then s else s.cmdStall part g op va slot)
        | _ => .next s
      else .next s

/-! ### Placing and starting teams (R79, R85 to R87) -/

/-- A group at team start (R79, R98). -/
def Group.start (r : BitVec 256) : Group :=
  { pc := BitVec.ofNat 32 (recCode r), em := allOnes, exited := 0, triggered := 0, v := [],
    s := tset 0 (tset 0 [] 0 (BitVec.ofNat 64 (fld r 191 180))) 1 (BitVec.ofNat 64 (fld r 255 192)),
    p := [], x := [], c := [], nf := 0, sf := 0, trapPC := 0, trapCause := 0, trapInfo := 0, trapAddr := 0, trap := none,
    parks := [], whole := none, redo := none, atHead := false, catchUp := none, slot := none, fast := [], pend := [],
    nextOp := 0, wait := .none, barg := none, grant := none, starve := 0, halted := false, stop := .running, insn := 0,
    icReq := [] }

/-- A team that starts on a core. -/
def mkTeam (part : Nat) (g : Grid) (gang size idx core base : Nat) : Team :=
  let sh := recShape g.record
  { part := part, spool := g.spool, pos := g.pos, record := g.record, teamId := g.placed + idx, gang := gang,
    gangSz := size, gangIdx := idx, core := core, base := base,
    groups := List.replicate (shG sh + 1) (Group.start g.record), token := none, scratch := [], bars := [], engs := [],
    nextEng := 0, arr := if shMX sh then some Arr.start else none, image := none, imgAt := none, st := .running,
    why := .none, coreErr := false, abandon := false, nfail := 0 }

/-- Start the teams of a gang on the cores given, in TEAMID order. Their fetch units hold nothing older than the start
(R170), and their scratchpad units no victim translations (R312). -/
def State.startGang (s : State) (part : Nat) (g : Grid) (cores : List Nat) : State :=
  let n := cores.length
  let s1 := (List.range n).foldl
    (fun s i =>
      let c := cores.getD i 0
      match (loadOf (s.coreTeams part c)).room (recShape g.record) with
      | none => s
      | some b =>
        let s := s.setCore c { s.core c with ft := [], spVict := [] }
        { s.setTeam s.nextTeam (some (mkTeam part g s.nextGang n i c b)) with nextTeam := s.nextTeam + 1 }) s
  let cl := cores.getD 0 0 / 8
  ({ s1 with nextGang := s1.nextGang + 1 }.setCluster cl { s1.cluster cl with idle := false }).putGrid part
    { g with placed := g.placed + n }

/-- The gang sizes that an attempt tries, the larger first (R87). -/
def gangSizes (sh : DWord) (left : Nat) : List Nat :=
  (if 2 ^ shPREF sh ≤ left then [2 ^ shPREF sh] else []) ++ if left = 0 then [] else [2 ^ shFALL sh]

/-- The gang of a grid that a cluster can take at this attempt: of the first size that some cluster of the partition can
take. -/
def State.nextGangAt (s : State) (part : Nat) (g : Grid) (cl : Nat) : Option (List Nat) :=
  let sh := recShape g.record
  match (gangSizes sh (g.teamsN - g.placed)).find? fun n =>
      (s.partn part).clusterList.any fun c => (pickCores n (s.caps part c sh)).isSome with
  | some n => pickCores n (s.caps part cl sh)
  | none => none

/-- The gangs of a co-resident grid, each in the cores with the most room; none where the grid does not fit. -/
def layGangs (sh : DWord) : Nat → Nat → List (List (Nat × Nat)) → Option (List (List Nat))
  | 0, left, _ => if left = 0 then some [] else none
  | fuel + 1, left, cls =>
    match (gangSizes sh left).findSome? fun n => cls.findSome? (pickCores n) with
    | none => if left = 0 then some [] else none
    | some cs =>
      (layGangs sh fuel (left - cs.length)
        (cls.map fun l => l.map fun c => if cs.contains c.1 then (c.1, c.2 - 1) else c)).map (cs :: ·)

def State.layout (s : State) (part : Nat) (g : Grid) : Option (List (List Nat)) :=
  let sh := recShape g.record
  layGangs sh (8 * Config.cores) (g.teamsN - g.placed) ((s.partn part).clusterList.map fun cl => s.caps part cl sh)

/-- A grid that may place teams. -/
def Grid.open (g : Grid) : Bool := g.isWork && !g.retired && !g.aborted && decide (g.placed < g.teamsN)

/-- The record at the head of a spool, where the hub can read it. -/
def State.headRecord (s : State) (part n : Nat) : Option (BitVec 256) :=
  let sp := (s.partn part).spool n
  match s.table part (spSlot sp) with
  | none => none
  | some t =>
    let off := sp.head.toNat % 2 ^ spLOG sp * 32
    if s.avail none part (spSlot sp) t off 32 false == .ok then
      some (BitVec.ofNat 256 (leNat (s.imageRead none part (spSlot sp) t off 32)))
    else none

/-- A launch that may begin and is not yet taken (R78, R84). -/
def State.pending (s : State) (part n : Nat) : Option Grid :=
  let p := s.partn part
  if !p.takes n then none
  else match s.headRecord part n with
  | none => none
  | some r =>
    let may := match p.before n with
      | none => true
      | some g => s.triggered part g && shEDL (recShape r)
    if may && fld r 1 0 == 0 && (s.recordCode part (spClass (p.spool n)) r).isNone then
      some (newGrid n (p.spool n).head.toNat r)
    else none

/-- Whether launch `h` goes before launch `g`: by PRIO, and among spools of equal PRIO in turn after the one that placed
last (R86; DESIGN CHOICE, log 56: in rising number, gang by gang). -/
def Partition.ahead (p : Partition) (h g : Grid) : Bool :=
  let prio := fun n => fld (p.spool n).cfg 2 0
  let turn := fun n => (n + 15 - tget 15 p.turns (prio n)) % 16
  decide (prio g.spool < prio h.spool ∨ (prio g.spool = prio h.spool ∧ turn h.spool < turn g.spool))

/-- Whether a launch that goes first can place its next gang on a cluster (R86). -/
def State.outranked (s : State) (part : Nat) (g : Grid) (cl : Nat) : Bool :=
  let p := s.partn part
  (p.grids.filter Grid.open ++ (List.range 16).filterMap (s.pending part)).any fun h => p.ahead h g &&
    (if shCORES (recShape h.record) then (s.layout part h).isSome else (s.nextGangAt part h cl).isSome)

/-- Start gangs of a grid, after which its spool has had its turn. -/
def State.placeGangs (s : State) (part : Nat) (g : Grid) (gangs : List (List Nat)) : State :=
  let s := gangs.foldl (fun s cs => match (s.partn part).grid g.spool g.pos with
    | some g => s.startGang part g cs
    | none => s) s
  let p := s.partn part
  s.setPartn part { p with turns := tset 15 p.turns (fld (p.spool g.spool).cfg 2 0) g.spool }

/-- Place the next gang of a grid on a cluster; a co-resident grid is placed all at once, wherever it fits. -/
def execPlaceGang (part spool pos cluster : Nat) (s : State) : Host.Outcome State Fault Refusal :=
  let p := s.partn part
  match p.grid spool pos with
  | none => .next s
  | some g =>
    let gangs := if shCORES (recShape g.record) then s.layout part g else (s.nextGangAt part g cluster).map ([·])
    if !pEN p || !p.inSlice || s.hub.power != .p0 || !g.open || !p.clusterList.contains cluster then .next s
    else match gangs with
      | some ls =>
        if ls.any fun cs => s.outranked part g (cs.getD 0 0 / 8) then .next s else .next (s.placeGangs part g ls)
      | none => .next s

/-! ### The end of a team (R80, R83) -/

/-- Subtract 1 from a join row's COUNT; at exactly 0 the continuation is released. DESIGN CHOICE (log 69): a slot that is
unbound then has no row, and nothing is subtracted or reported. -/
def State.joinDec (s : State) (part : Nat) (t : Team) : State :=
  let slot := fld t.record 167 156
  match s.table part slot with
  | none => s
  | some tb =>
    let row := (keyOfNat (tKType tb) (fld t.record 63 32) - tLo tb).toNat
    let off := row * tWidth tb
    match s.imageKey none part slot tb off with
    | none => s
    | some k =>
      let s := (s.touchImage none part slot tb off 64).recallRange k 64
      let v : DWord := BitVec.ofNat 64 (s.rdNat k 8) - 1
      let s := s.rowWrite none part slot tb off (natBytes v.toNat 8)
      let spool := fld (BitVec.ofNat 64 (leNat (s.imageRead none part slot tb (off + 8) 4))) 31 0
      let fault := fun (c : Nat) => s.report part
        [reportHdr 8 0 c 0 t.pos t.spool slot 0 (keyAddr (tKType tb) (keyOfNat (tKType tb) (fld t.record 63 32)))]
      if v.toInt < 0 then fault 1
      else if v ≠ 0 then s
      else if 15 < spool then fault 2
      else
        let p := s.partn part
        if !p.pushable spool then fault 3
        else
          let cont := BitVec.ofNat 256 (leNat (s.imageRead none part slot tb (off + 32) 32))
          s.setPartn part { p with conts := p.conts ++ [(spool, cont)] }

/-- Whether the hub can reach a team's join row, else the state in which it waits. -/
def State.joinWait (s : State) (t : Team) : Option State :=
  if !fbit t.record 155 then none
  else
    let slot := fld t.record 167 156
    match s.table t.part slot with
    | none => none
    | some tb =>
      s.hubWait2 (teamTie t) slot tb ((keyOfNat (tKType tb) (fld t.record 63 32) - tLo tb).toNat * tWidth tb) 64

/-- The completion code that a team's end carries: the highest that applies (R326, R333). -/
def Team.endCode (t : Team) : Nat :=
  match t.why with
  | .halted => if t.coreErr then 4 else 3
  | .coreError => 4
  | .aborted => 5
  | .none => if t.abandon then 2 else 0

/-- The higher of two completion codes. -/
def maxCode (a b : BitVec 8) : BitVec 8 := if a < b then b else a

/-- A grid whose last team has ended awaits its completion record. -/
def Grid.close (g : Grid) (resident : Bool) : Grid :=
  if g.isWork && !g.retired && !resident && (g.aborted || g.ended == g.teamsN) then
    { g with retired := true, code := if g.aborted && g.ended != g.teamsN then maxCode g.code 5 else g.code }
  else g

/-- A team ends: its writes have performed, its core frees its resources, its join counter falls, its grid counts it. -/
def State.endTeam (s : State) (n : Nat) (t : Team) : State :=
  let s := (s.flushWide t.core).setTeam n none
  let s := if fbit t.record 155 then s.joinDec t.part t else s
  match (s.partn t.part).grid t.spool t.pos with
  | none => s
  | some g =>
    let c := t.endCode
    let g := { g with ended := g.ended + 1, nfail := g.nfail + t.nfail, code := maxCode g.code (BitVec.ofNat 8 c),
                      ndone := g.ndone + (if c = 0 then 1 else 0), nbad := g.nbad + (if c = 0 then 0 else 1) }
    s.putGrid t.part (g.close !(s.gridTeams t.part t.spool t.pos).isEmpty)

/-- End a team once its join row is mapped. -/
def State.endTeamOr (s : State) (n : Nat) (t : Team) : State :=
  match s.joinWait t with
  | some s => s
  | none => s.endTeam n t

/-- Whether the stream of an array team lets it end, and whether it is abandoned (R83). -/
def Arr.over (a : Arr) : Bool × Bool :=
  if a.st = 2 then (true, true)
  else if a.st = 0 ∨ a.st = 3 then (true, false)
  else if a.st = 4 then (true, !a.stops.isEmpty)
  else (false, false)

/-- A team ends when every group has ended, every path counter is 0, its engine operations have finished and its stream
is not running. -/
def execTeamEnd (n : Nat) (s : State) : Host.Outcome State Fault Refusal :=
  match s.team n with
  | none => .next s
  | some t =>
    let o := match t.arr with | some a => a.over | none => (true, false)
    if t.groups.all (fun g => g.ended && g.parks.isEmpty && g.pend.isEmpty) && t.engs.isEmpty && o.1 then
      .next (s.endTeamOr n { t with abandon := t.abandon || o.2 })
    else .next s

/-- A released continuation is pushed once its spool has room (R80). DESIGN CHOICE (log 69): whether the spool is still
enabled and device-fed is not asked again. -/
def execContinuationPush (part index : Nat) (s : State) : Host.Outcome State Fault Refusal :=
  let p := s.partn part
  match p.conts[index]? with
  | none => .next s
  | some (spool, r) =>
    if (p.conts.take index).any fun c => c.1 == spool then .next s
    else match s.push (noTie part) spool [r] with
      | .full => .next s
      | .wait s => .next s
      | .done s => .next (s.setPartn part { s.partn part with conts := p.conts.eraseIdx index })

/-! ### Completion records (R326, R328) -/

/-- SPDONE counts finished positions in ring order. -/
def Spool.count (sp : Spool) : Nat → Spool
  | 0 => sp
  | n + 1 =>
    if sp.fin.contains sp.done.toNat then
      { sp with done := sp.done + 1, fin := sp.fin.filter fun x => x != sp.done.toNat }.count n
    else sp

def Grid.completion (g : Grid) (time : DWord) : BitVec 256 :=
  let code := if g.nfail = 0 ∨ !g.isWork then g.code else maxCode g.code 1
  let src := if fld g.record 1 0 = 1 then recCmd g.record else 0
  g.value ++ time ++ BitVec.ofNat 32 (min g.nfail (2 ^ 32 - 1)) ++ BitVec.ofNat 32 g.ndone ++ BitVec.ofNat 32 g.pos ++
    BitVec.ofNat 8 (min g.nbad 255) ++ code ++ (0 : BitVec 8) ++ BitVec.ofNat 6 src ++ (2 : BitVec 2)

/-- Whether a report names a grid or command. -/
def Report.names (r : Report) (spool pos : Nat) : Bool :=
  match r.recs with
  | h :: _ => fld h 63 32 == pos && fld h 67 64 == spool
  | [] => false

/-- The completion record of a retired position is written, after all its reports; SPDONE counts it. -/
def execCompletionRecord (part spool pos : Nat) (s : State) : Host.Outcome State Fault Refusal :=
  let p := s.partn part
  match p.grid spool pos with
  | none => .next s
  | some g =>
    if !g.retired || p.reports.any fun r => r.names spool pos then .next s
    else
      let sp := p.spool spool
      let slot := fld sp.cq 19 8
      let off := pos % 2 ^ spLOG sp * 32
      let finish := fun (s : State) =>
        let p := s.partn part
        let sp := p.spool spool
        let sp := { sp with fin := sp.fin ++ [pos] }
        s.setPartn part { p.setSpool spool (sp.count sp.fin.length) with
          grids := p.grids.filter fun x => !decide (x.spool = spool ∧ x.pos = pos) }
      match s.table part slot with
      | none => .next (finish s)
      | some t =>
        if !fbit sp.cq 0 then .next (finish s)
        else match s.hubWait (g.tie part slot) slot t off 32 true with
          | some s => .next s
          | none =>
            .next (finish ((s.touchImage none part slot t off 32).rowWrite none part slot t off
              (natBytes (g.completion p.timeval).toNat 32)))

/-! ### Pushing reports (R297, R329, R342) -/

/-- A header written to the error log (R342). DESIGN CHOICE (log 49): a record whose place lies beyond HBM is counted and
kept nowhere. -/
def State.logError (s : State) (h : BitVec 256) : State :=
  let b := s.hub.elbase
  let n := 2 ^ fld b 3 0
  if (s.hub.eltail - s.hub.elhead).toNat = n then { s with hub := { s.hub with perr := s.hub.perr ||| 8 } }
  else
    let key := mkKey 0 (fld b 51 12 * 4096 + s.hub.eltail.toNat % n * 32)
    let s := if s.inTier 0 key then (s.recall (lineOf key)).wr key (natBytes h.toNat 32) else s
    { s with hub := { s.hub with eltail := s.hub.eltail + 1 } }

/-- The oldest report of a partition is pushed into spool SUP, waiting for room, or goes to the error log. -/
def execPushReport (part : Nat) (s : State) : Host.Outcome State Fault Refusal :=
  let p := s.partn part
  match p.reports with
  | [] => .next s
  | r :: rest =>
    let stamp := fun (h : BitVec 256) => (p.timeval ++ h.setWidth 192 : BitVec 256)
    let recs := match r.recs with | h :: t => stamp h :: t | [] => []
    if p.pushable (trapSUP p) then
      match s.push (noTie part) (trapSUP p) recs with
      | .full => .next s
      | .wait s => .next s
      | .done s => .next (s.setPartn part { s.partn part with reports := rest })
    else
      let s := s.setPartn part { p with reports := rest, trapcfg := p.trapcfg ||| BitVec.ofNat 64 (2 ^ 40) }
      match recs with
      | h :: _ => .next (s.logError h)
      | [] => .next s

end Sys2Proof.Machine
end

