-- ==== Sys2Proof/Machine/Preempt.lean ====
section
/-! DEFINITION. Pre-emption (R304 to R308), ending teams and grids from outside (R302, R328), and the partitions' shares
of time and power (R279, R280, R290, R291, R347). -/

namespace Sys2Proof.Machine

/-! ### Stopping groups (R304, R305) -/

/-- Whether an operation only brings a register result; of the others a region restart drops the result alone (R304). -/
def PKind.isResult : PKind → Bool
  | .store | .sts | .mxwr _ | .gsig _ _ | .engine _ | .atoms _ _ | .atom _ _ | .tins | .tups | .tdel | .tdrop | .mx => false
  | _ => true

/-- Region restart (R105): the group stands at the region's head, with what it checkpointed, its slot kept and its fast
buffer discarded, so that the working set is what the main file holds. A BARG whose arrival counted stays counted. -/
def Group.restart (g : Group) (sl : Slot) : Group :=
  Group.settle { g with
    pc := sl.pc, em := sl.em &&& ~~~g.exited, s := sl.s ++ g.s.filter (fun e => decide (64 ≤ e.1)), p := sl.p, x := sl.x,
    c := sl.c, fast := (wsCells sl.ws).foldl (fun f k => tset 0 f k (tget 0 g.v k)) [], parks := [], catchUp := none,
    redo := none, atHead := false, wait := .none, grant := none, starve := 0, stop := .stopped,
    pend := g.pend.map fun o =>
      if o.kind.isResult then { o with lanes := [], faults := [], fin := true }
      else { o with faults := [], regs := 0, pred := none } }

/-- A group that was asked outside trap mode stops by region restart as soon as that applies (R304); an instruction under way
that completes before the group stops (`busy`) holds it back (R305). -/
def Group.restarts (g : Group) (busy : Bool) : Option Slot :=
  if g.stop == .asked false && g.wake.restartable && !busy then g.slot else none

/-- Ask one group to stop: at once by region restart where that applies. -/
def Group.ask (g : Group) (busy : Bool) : Group :=
  let g := match g.stop with
    | .running => { g with stop := .asked g.trap.isSome }
    | _ => g
  match g.restarts busy with
  | some sl => g.wake.restart sl
  | none => g

/-- Whether a group waits in an ICINV or stands in a SPAWN, which complete before it stops (R305). -/
def State.completes (s : State) (t : Team) (g : Group) : Bool :=
  !g.icReq.isEmpty || (g.canIssue && match s.fetch t g.pc.toNat with
    | .got _ (.ok i) => (match i with | .spawn _ _ _ _ => true | _ => false) && g.takingPart i != 0 && s.interlock t g i
    | _ => false)

/-- The hub asks every group of a team to stop. -/
def State.askGroups (s : State) (n : Nat) (t : Team) : State :=
  let gs := t.groups.map fun g => g.ask (s.completes t g)
  let stopped := (List.range gs.length).filter fun k =>
    (gs[k]?.map Group.stop) == some .stopped && (t.groups[k]?.map Group.stop) != some .stopped
  stopped.foldl (fun s k => s.leaveGates ⟨n, k⟩)
    (s.setTeam n (some { t with st := if t.st = .running then .stopping else t.st, groups := gs }))

def State.askTeam (s : State) (n : Nat) (t : Team) : State :=
  if t.st = .running ∨ t.st = .stopping then s.askGroups n t else s

/-- The teams that stop and resume with a team: all of a co-resident grid (R273). -/
def State.together (s : State) (n : Nat) (t : Team) : List (Nat × Team) :=
  if shCORES t.shape then s.gridTeams t.part t.spool t.pos else [(n, t)]

/-- System software asks a team to stop. -/
def execPreemptRequest (n : Nat) (s : State) : Host.Outcome State Fault Refusal :=
  match s.team n with
  | none => .next s
  | some t => .next ((s.together n t).foldl (fun s e => s.askTeam e.1 e.2) s)

/-- A full save: the group stops where it stands once its path counters are 0. A GWAIT is registered again on resume, and
a BARG whose arrival counted stays counted. Region restart, which comes first, stops the group where it applies (R304). -/
def execFullSave (r : GRef) (s : State) : Host.Outcome State Fault Refusal :=
  match s.group r with
  | none => .next s
  | some (t, g) =>
    if !g.asked || s.completes t g then .next s
    else match g.restarts false with
    | some sl => .next ((s.leaveGates r).putGroup r (g.wake.restart sl))
    | none =>
      if !g.pend.isEmpty then .next s
      else .next ((s.leaveGates r).putGroup r { g with stop := .stopped, starve := 0, wait := .none, grant := none })

/-! ### Stopping teams (R306) -/

/-- Whether nothing of a team moves any more, its stream aside: its groups have stopped, or halted with their counters 0,
and its engine operations have finished. -/
def Team.still (t : Team) : Bool :=
  t.groups.all (fun g => (g.ended || g.stop == .stopped || g.halted) && g.pend.isEmpty) && t.engs.isEmpty

/-- The sequencer freezes at a word boundary (R242). -/
def Arr.freeze (a : Arr) : Arr := if a.st = 5 then a else { a with st := 5, frozen := a.st }

/-- A team that is being ended from outside ends. -/
def State.endStopped (s : State) (n : Nat) (t : Team) : State := s.endTeamOr n t

/-- The team stops: an array team freezes its array and asks for its drain. A team that system software ends, and that
has stopped, ends; one with a halted group ends without a drain (R302). -/
def execTeamStop (n : Nat) (s : State) : Host.Outcome State Fault Refusal :=
  match s.team n with
  | none => .next s
  | some t =>
    if t.st = .stopped ∧ t.why ≠ EndWhy.none then .next (s.endStopped n t)
    else if t.st ≠ .stopping ∨ !t.still then .next s
    else
      let t : Team := { t with groups := t.groups.map (fun g : Group => { g with starve := 0 }) }
      if t.why = .halted ∨ t.why = .coreError then .next (s.endStopped n { t with arr := t.arr.map Arr.freeze })
      else match t.arr with
        | some a =>
          .next ((s.setTeam n (some { t with arr := some a.freeze, st := .draining })).teamReport t 5 0 10 0 0
            (BitVec.ofNat 64 t.core) [])
        | none => if t.why = EndWhy.none then .next (s.setTeam n (some { t with st := .stopped })) else .next (s.endStopped n t)

/-- What an image holds of an array (R240). -/
def Arr.imaged (a : Arr) : Arr :=
  { a with w0 := { a.w0 with tiny := [] }, w1 := { a.w1 with tiny := [] }, stops := [], miss := false }

/-- The hub drains a frozen array into the team's save area. -/
def execHubArrayDrain (n : Nat) (s : State) : Host.Outcome State Fault Refusal :=
  match s.team n with
  | none => .next s
  | some t =>
    if t.st = .draining then
      .next (s.setTeam n (some { t with st := .stopped, image := t.arr.map Arr.imaged, imgAt := none }))
    else .next s

/-! ### Resuming (R307, R308) -/

/-- The array leaves STATE 5 for the state it had. -/
def Arr.thaw (a : Arr) : Arr := if a.st = 5 then { a with st := a.frozen, frozen := 0 } else a

/-- What keeps the restore of an image that a handler drained: as MXREST does, it waits for a page that is being moved, and
for one that is not present, which the spooler reports (R308, R311, R315). -/
def State.restoreStop (s : State) (t : Team) : Option State :=
  match t.image, t.imgAt, t.arr with
  | none, some (slot, p), some _ => match s.table t.part slot with
    | none => none
    | some tb =>
      let lo := tHeap tb + p
      if s.waits.any fun e => decide (e.1 = t.part ∧ lo ≤ e.2 ∧ e.2 < lo + imageSize) then some s
      else match s.imageStop t.core t.part slot tb p imageSize 0 with
        | none => none
        | some (.away va) | some (.error va) => some (s.hubMiss { teamTie t with slot := slot } va)
        | some _ => some s
  | _, _, _ => none

/-- The pages of the image are used. -/
def State.restoreUse (s : State) (t : Team) : State :=
  match t.image, t.imgAt with
  | none, some (slot, p) => match s.table t.part slot with
    | some tb => s.touchImage (some t.core) t.part slot tb p imageSize
    | none => s
  | _, _ => s

/-- The restored array of a team, or the cause with which the restore fails. What an image does not hold stays with the
team: stops not delivered, TSUB (DEDUCED, log 61). -/
def State.restoreArr (s : State) (t : Team) (a : Arr) : Nat ⊕ Arr :=
  match t.image, t.imgAt with
  | some im, _ => .inr { im.thaw with stops := a.stops, tsub := a.tsub, grp0 := a.grp0, op0 := a.op0 }
  | none, none => .inr a.thaw
  | none, some (slot, p) => match s.table t.part slot with
    | none => .inl 0x16
    | some tb =>
      if s.imagePoison (some t.core) t.part slot tb p imageSize then .inl 0x10
      else match a.ofCells (s.imageCells t.core t.part slot tb (imageSize / 65536 + 2) p imageSize 0) with
        | some a => .inr a.thaw
        | none => .inl 0x16

def Group.resume (g : Group) : Group := { g with stop := .running }

/-- A stopped team continues on its core; a failed restore halts group MXGRP. -/
def State.resumeTeam (s : State) (n : Nat) (t : Team) : State :=
  let s := s.restoreUse t
  let t := { t with st := .running, groups := t.groups.map Group.resume }
  match t.arr with
  | none => s.setTeam n (some t)
  | some a => match s.restoreArr t a with
    | .inr a => s.setTeam n (some { t with arr := some a, image := none, imgAt := none })
    | .inl c =>
      let s := s.setTeam n (some { t with arr := some Arr.start, image := none, imgAt := none })
      match s.group ⟨n, a.mxgrp⟩ with
      | none => s
      | some (t, g) =>
        let p : Park := { rpl := false, async := false, pc := g.pc, next := g.pc, insn := 0, resolved := false, op := none
                          faults := onLanes g.faultLanes (mkFault c 0 0 0) }
        s.halt ⟨n, a.mxgrp⟩ t g [setFld p.record 7 0 c]

/-- A stopped team resumes on its logical core, in its partition's slice, once its image can be read; a co-resident grid as a
whole. -/
def execTeamResume (n : Nat) (s : State) : Host.Outcome State Fault Refusal :=
  match s.team n with
  | none => .next s
  | some t =>
    let p := s.partn t.part
    let ts := s.together n t
    if !pEN p || !p.inSlice || !ts.all fun e => e.2.st == .stopped && e.2.why == EndWhy.none && s.coreUsable e.2.core then .next s
    else match ts.findSome? fun e => s.restoreStop e.2 with
      | some s => .next s
      | none => .next (ts.foldl (fun s e => s.resumeTeam e.1 e.2) s)

/-! ### Ending teams and grids from outside (R302, R328) -/

/-- System software ends a team with a halted group: it is stopped, and then ends without draining its array. -/
def execEndHaltedTeam (n : Nat) (s : State) : Host.Outcome State Fault Refusal :=
  match s.team n with
  | none => .next s
  | some t =>
    if !t.groups.any (fun g => g.halted) then .next s
    else
      let why := if t.coreErr then EndWhy.coreError else .halted
      let t := { t with why := if t.why = EndWhy.none then why else t.why }
      if t.st = .running ∨ t.st = .stopping then
        if t.st = .stopping ∧ t.still then .next (s.endStopped n { t with arr := t.arr.map Arr.freeze })
        else .next (s.askGroups n t)
      else .next (s.endStopped n t)

/-- A command that is aborted keeps what its items came to, and its failures are reported (R326, R328). -/
def Grid.stopOp (g : Grid) : Grid × List Report :=
  match g.op with
  | some op =>
    ({ g with op := none, ndone := op.ndone, nfail := op.failed }, if op.begun then op.reports g.pos g.spool op.mainSlot else [])
  | none => (g, [])

/-- Abort a grid or a command: its teams are asked to stop, and end once they have; with none resident it is retired. -/
def State.abort (s : State) (part spool pos : Nat) : State :=
  match (s.partn part).grid spool pos with
  | none => s
  | some g =>
    if g.retired then s
    else
      let ts := s.gridTeams part spool pos
      let (g, reps) := { g with aborted := true }.stopOp
      let g := if ts.isEmpty then { g with retired := true, code := maxCode g.code 5 } else g
      let p := s.partn part
      let s := s.setPartn part { p with reports := p.reports ++ reps }
      ts.foldl
        (fun s e =>
          let t : Team := { e.2 with why := EndWhy.aborted }
          if t.st = .running ∨ t.st = .stopping then s.askGroups e.1 t else s.setTeam e.1 (some t))
        (s.putGrid part g)

def execGridAbort (part spool pos : Nat) (s : State) : Host.Outcome State Fault Refusal := .next (s.abort part spool pos)

/-- Fail what is left of a collective operation of an aborted communicator: rejected if nothing has begun. -/
def EngOp.abort (op : EngOp) : EngOp :=
  if op.total = itemsLeft op.items then { op with begun := true, rej := some 0x3B, items := [], total := 0, stall := none }
  else
    let at_ := fun i => match op.coll with
      | some c => BitVec.ofNat 64 (coAt op.rec0 c i)
      | none => 0
    let bad := op.items.foldl
      (fun bad r => (List.range r.2).foldl
        (fun bad i =>
          badInsert ⟨r.1 + i, 0x3B, at_ (r.1 + i), coDst op.rec0⟩ bad)
        bad) op.bad
    { op with items := [], bad := bad, stall := none }

/-- Whether an operation is a collective on a communicator that its rank has joined. -/
def EngOp.onComm (op : EngOp) (comm : Nat) : Bool :=
  op.eng == .coll && op.coll.isSome && coComm op.rec0 == comm

/-- System software aborts a communicator: its collectives fail with 0x3B (R306). -/
def execCommunicatorAbort (part comm : Nat) (s : State) : Host.Outcome State Fault Refusal :=
  let s := if s.aborted.contains (part, comm) then s else { s with aborted := s.aborted ++ [(part, comm)] }
  let s := s.teams.foldl
    (fun s e => match s.team e.1 with
      | none => s
      | some t =>
        if t.part ≠ part then s
        else match t.engs.find? fun op => op.onComm comm with
          | some op => s.engKeep e.1 op.abort
          | none => s) s
  .next ((s.partn part).grids.foldl
    (fun s g => match g.op with
      | some op => if op.onComm comm then s.cmdKeep part g op.abort else s
      | none => s) s)

/-! ### Slices (R279, R280, R290) -/

def pDebt (p : Partition) : Nat := fld p.thrdebt 31 0

/-- What a core and a cluster drop before another partition uses them. -/
def State.clearCore (s : State) (c : Nat) : State :=
  let s := s.flush c
  s.setCore c { s.core c with l1 := [], icache := [], ft := [], spVict := [], icVict := [] }
def State.clearCluster (s : State) (c : Nat) : State :=
  let s := ((List.range 8).map fun i => 8 * c + i).foldl State.clearCore s
  (s.cluster c).hot.foldl (fun s h => s.writeBack c h true) s

/-- A slice begins: the clusters are cleared, and the slice is lengthened by the partition's debt. -/
def State.sliceStart (s : State) (part : Nat) : State :=
  let s := (s.partn part).clusterList.foldl State.clearCluster s
  let p := s.partn part
  let base := pSlice p * 100
  let k := min (pDebt p) base
  s.setPartn part { p with inSlice := true, sliceUs := base + k, thrdebt := BitVec.ofNat 64 (pDebt p - k) }

def State.partTeams (s : State) (part : Nat) : List (Nat × Team) :=
  s.teams.filterMap fun e => match e.2 with
    | some t => if t.part = part then some (e.1, t) else none
    | none => none

/-- The next partition that shares the clusters, in ascending number. -/
def State.nextSlice (s : State) (part : Nat) : Nat :=
  let p := s.partn part
  let shares := fun n =>
    let q := s.partn n
    pEN q && pSlice q != 0 && pFirst q == pFirst p && pClusters q == pClusters p
  (((List.range 32).map fun i => (part + 1 + i) % 32).find? shares).getD part

/-- A slice expires: the teams are asked to stop; once all have stopped, the next partition's slice begins. -/
def execSliceEnd (part : Nat) (s : State) : Host.Outcome State Fault Refusal :=
  let p := s.partn part
  if !pEN p || pSlice p == 0 || !p.inSlice then .next s
  else
    let ts := s.partTeams part
    if ts.all fun e => e.2.st == .stopped then
      .next ((s.setPartn part { p with inSlice := false, sliceUs := 0 }).sliceStart (s.nextSlice part))
    else .next (ts.foldl (fun s e => s.askTeam e.1 e.2) s)

/-! ### PCFG (R279) -/

def State.setPerr (s : State) (bit : Nat) : State :=
  { s with hub := { s.hub with perr := s.hub.perr ||| BitVec.ofNat 32 (2 ^ bit) } }

def pcfgRW : DWord := 0xFFFFFFFF0003FFFF
/-- The fields that may change while the partition is enabled: HBMW, LINKW, SLICE. -/
def pcfgLive : DWord := 0x0000FFFF000003FC

def pcfgRange (v : DWord) : Nat × Nat := (fld v 17 13, 2 ^ fld v 12 10)

/-- Whether PCFG may not be enabled with a value. -/
def State.pcfgBad (s : State) (part : Nat) (v : DWord) : Bool :=
  let (f, n) := pcfgRange v
  f % n != 0 || (fbit v 1 && (fld v 12 10 != 5 || fld v 9 2 != 0)) || fld v 63 48 == 0 || fld v 31 18 != 0 ||
    (List.range 32).any fun q =>
      let p := s.partn q
      let (g, m) := pcfgRange p.pcfg
      q != part && pEN p && decide (f < g + m ∧ g < f + n) &&
        !(fld v 9 2 != 0 && pSlice p != 0 && f == g && n == m)

/-- A newly enabled partition holds its clusters, unless one that shares them has its slice. -/
def State.firstSlice (s : State) (part : Nat) : State :=
  let p := s.partn part
  if pSlice p = 0 then s.setPartn part { p with inSlice := true }
  else if (List.range 32).any fun q => q != part && pEN (s.partn q) && (s.partn q).inSlice &&
      pFirst (s.partn q) == pFirst p then s
  else s.sliceStart part

/-- Disabling: grids are aborted, spools take no more, teams stop and end; then EN clears, and a slice of the partition
passes on. Until then the hub goes on with it by itself. -/
def State.disable (s : State) (part : Nat) : State :=
  let s := (s.partn part).grids.foldl (fun s g => s.abort part g.spool g.pos) s
  let p := s.partn part
  let spools := p.spools.foldl
    (fun m e => tset Spool.reset m e.1 { e.2 with cfg := e.2.cfg &&& ~~~(0x20 : DWord) }) p.spools
  let s := s.setPartn part { p with spools := spools, ending := true }
  if (s.partTeams part).isEmpty then
    let p := s.partn part
    let s := s.setPartn part { p with pcfg := p.pcfg &&& ~~~(1 : DWord), inSlice := false, sliceUs := 0, ending := false }
    if p.inSlice && pSlice p != 0 && s.nextSlice part != part then s.sliceStart (s.nextSlice part) else s
  else s

/-- A write of PCFG. DESIGN CHOICE (log 62): in P2, with cores and L2 off, none is enabled. -/
def State.writePcfg (s : State) (part : Nat) (v : DWord) : State :=
  let p := s.partn part
  if !s.managed || decide (32 ≤ part) then s
  else if pEN p then
    if !fbit v 0 then s.disable part
    else if (v ^^^ p.pcfg) &&& pcfgRW &&& ~~~pcfgLive != 0 then s.setPerr 1
    else s.setPartn part { p with pcfg := v &&& pcfgRW }
  else if fbit v 0 then
    if s.hub.power != .p0 then s.setPartn part { p with pcfg := v &&& pcfgRW &&& ~~~(1 : DWord) }
    else if s.pcfgBad part v then (s.setPartn part { p with pcfg := v &&& pcfgRW &&& ~~~(1 : DWord) }).setPerr 0
    else (s.setPartn part { p with pcfg := v &&& pcfgRW }).firstSlice part
  else s.setPartn part { p with pcfg := v &&& pcfgRW }

def execPartitionEnable (part : Nat) (v : DWord) (s : State) : Host.Outcome State Fault Refusal :=
  .next (s.writePcfg part (v ||| 1))

/-- A write that clears EN, or the hub's next step of the disabling that such a write began. -/
def execPartitionDisable (part : Nat) (s : State) : Host.Outcome State Fault Refusal :=
  let p := s.partn part
  if pEN p then .next (s.writePcfg part (p.pcfg &&& ~~~(1 : DWord))) else .next s

/-! ### Throttling and the watchdog (R290, R291, R347) -/

/-- A fraction below 1. -/
def mkFrac (num den : Nat) : Option (Nat × Nat) := if num < den then some (num, den) else none

/-- A cluster over its limit issues in only a fraction of cycles. -/
def execThermalThrottle (cluster num den : Nat) (s : State) : Host.Outcome State Fault Refusal :=
  if Config.clusters ≤ cluster then .next s
  else .next (s.setCluster cluster { s.cluster cluster with frac := mkFrac num den })
def execThermalThrottleEnd (cluster : Nat) (s : State) : Host.Outcome State Fault Refusal :=
  .next (s.setCluster cluster { s.cluster cluster with frac := none })

def execPowerCapThrottle (num den : Nat) (s : State) : Host.Outcome State Fault Refusal :=
  .next { s with hub := { s.hub with capFrac := mkFrac num den } }
def execPowerCapThrottleEnd (s : State) : Host.Outcome State Fault Refusal :=
  .next { s with hub := { s.hub with capFrac := none } }

/-- Any write clears the debt. -/
def execThrdebtWrite (part : Nat) (v : DWord) (s : State) : Host.Outcome State Fault Refusal :=
  let _ := v
  if s.managed && decide (part < 32) then .next (s.setPartn part { s.partn part with thrdebt := 0, debtNum := 0 })
  else .next s

/-- The part of a microsecond that a cluster does not issue, in parts of 10^6: the lower of its own fraction and the
module's (DESIGN CHOICE, log 12). -/
def State.lost (s : State) (cl : Nat) : Nat :=
  let f := fun (x : Option (Nat × Nat)) => match x with
    | some (n, d) => 1000000 - n * 1000000 / d
    | none => 0
  max (f (s.cluster cl).frac) (f s.hub.capFrac)

/-- One microsecond's debt of a partition. -/
def State.accrue (s : State) (part : Nat) : State :=
  let p := s.partn part
  if !pEN p || !p.inSlice then s
  else
    let n := p.debtNum + (p.clusterList.foldl (fun n c => n + s.lost c) 0) / pClusters p
    s.setPartn part { p with debtNum := n % 1000000
                             thrdebt := BitVec.ofNat 64 (min (pDebt p + n / 1000000) (2 ^ 32 - 1)) }

/-- Whether all the resident teams of a partition have stopped. -/
def State.partStopped (s : State) (part : Nat) : Bool :=
  let ts := s.partTeams part
  !ts.isEmpty && ts.all fun t => t.2.st == .stopped

/-- Whether a microsecond counts for a grid's watchdog: no group of it is stalled at a gate, or was in that microsecond.
`turns` are the partitions of which a request waited for a turn
that another had (R289, R291). DEDUCED (log 72): a grid runs while one of its teams has not stopped. -/
def State.wdCounts (s : State) (turns : List Nat) (far : List GRef) (part : Nat) (g : Grid) : Bool :=
  let p := s.partn part
  let ts := s.gridTeams part g.spool g.pos
  g.isWork && !g.retired && !g.stall && decide (0 < g.placed) && pEN p && p.inSlice && !s.partStopped part &&
    (ts.isEmpty || ts.any fun t => t.2.st != .stopped) &&
    ts.all (fun t => s.lost (t.2.core / 8) == 0) && !turns.contains part &&
    !ts.any fun t => (List.range t.2.groups.length).any fun k => match t.2.groups[k]? with
      | some g => s.gateStall far ⟨t.1, k⟩ t.2 g
      | none => false

/-- One microsecond of the hub's clock: debts grow, watchdogs count what stood before them, and buckets are refilled
(R283). -/
def State.microsecond (s : State) (turns : List Nat) (far : List GRef) : State :=
  State.refillGates <| (List.range 32).foldl
    (fun s n =>
      let s := s.accrue n
      let p := s.partn n
      if p.grids.isEmpty then s
      else
        let grids := p.grids.map fun g =>
          { g with wd := if s.wdCounts turns far n g then g.wd + 1 else g.wd, stall := false }
        s.setPartn n { p with grids := grids }) s

/-- The reference clock advances; TIMEVAL counts while RUN = 1 (R320). -/
def State.tick (s : State) (ns : Nat) (turns : List Nat) (far : List GRef) : State :=
  let us := (s.refNs + ns) / 1000 - s.refNs / 1000
  let parts := s.parts.foldl
    (fun m e => if fbit e.2.timectl 0 then
        tset Partition.reset m e.1 { e.2 with timeval := e.2.timeval + BitVec.ofNat 64 ns } else m) s.parts
  (List.range us).foldl (fun s _ => s.microsecond turns far) { s with parts := parts, refNs := s.refNs + ns }

/-- The gate units refill their buckets each microsecond: the clock reaches the next one (R283). -/
def execGateTokenRefill (s : State) : Host.Outcome State Fault Refusal := .next (s.tick (1000 - s.refNs % 1000) [] [])

/-- A grid's count has reached LIMIT: one hang report. -/
def execHangWatchdogExpiry (part spool pos : Nat) (s : State) : Host.Outcome State Fault Refusal :=
  let p := s.partn part
  let lim := fld p.wdlim 31 0
  match p.grid spool pos with
  | none => .next s
  | some g =>
    if lim = 0 ∨ g.wd < lim ∨ g.wdDone ∨ g.retired then .next s
    else .next ((s.putGrid part { g with wdDone := true }).report part [reportHdr 4 0 0 10 pos spool 0 0 0])

/-! ### Moving a partition between parts (R318) -/

/-- A team saved on another part as it stands here: its parks replay when it resumes, since pending RESUMEs are not
carried. -/
def Team.comesIn (t : Team) (part gang : Nat) : Team :=
  let group := fun (g : Group) => { g with
    parks := g.parks.map fun p => { p with resolved := p.resolved || p.rpl }
    whole := g.whole.map fun w => { w with resolved := true } }
  { t with part := part, gang := gang + t.gang, groups := t.groups.map group, arr := t.arr.map fun a => { a with miss := false } }

/-- Whether a team has been saved: it has stopped, nothing of it moves, and it lies on a core of the partition. -/
def Team.saved (p : Partition) (t : Team) : Bool :=
  t.st == .stopped && t.why == .none && t.still && p.coreList.contains t.core

/-- Whether the teams of one core have the group slots and the other resources that they hold there (R2, R85). -/
def teamsFit (ts : List Team) : Bool :=
  let l := loadOf ts
  let apart := (List.range l.slots.length).all fun i => (List.range i).all fun j =>
    match l.slots[i]?, l.slots[j]? with
    | some a, some b => decide (a.1 + a.2 ≤ b.1 ∨ b.1 + b.2 ≤ a.1)
    | _, _ => true
  apart && l.slots.all (fun a => decide (a.1 + a.2 ≤ 32)) && (ts.all fun t => t.groups.length == shG t.shape + 1) &&
    decide (l.teams ≤ 8 ∧ l.regs ≤ 327680 ∧ l.scr ≤ 384 ∧ l.cq ≤ 64 ∧ (ts.filter fun t => shMX t.shape).length ≤ 1)

/-- Whether a report tells of a fault: such reports are not carried (R318, R329). -/
def Report.ofFault (r : Report) : Bool :=
  match r.recs with
  | h :: _ => fld h 7 2 == 6 || fld h 7 2 == 7
  | [] => false

/-- System software brings in a partition that another part has stopped: tables, gate slots, spools with what they run and
the reports of items that failed, TIMEVAL and saved teams (R318), and granules of its pages that are poisoned, which stay so
with their data (R330); the partition here is disabled and holds none. -/
def State.partIn (s : State) (part : Nat) (q : Partition) (ts : List Team) (bad : List Nat) : State :=
  let p := s.partn part
  if !s.managed || decide (32 ≤ part) || pEN p || !(s.partTeams part).isEmpty || !p.grids.isEmpty ||
      !(ts.all (Team.saved p)) || !(p.coreList.all fun c => teamsFit (ts.filter fun t => t.core == c)) then s
  else
    let s := s.setPartn part { p with
      tables := q.tables, gateSlots := q.gateSlots, spools := q.spools, grids := q.grids, conts := q.conts,
      reports := q.reports.filter fun r => !r.ofFault, timeval := q.timeval }
    let s := (bad.filter fun g => !isWindow (g * 64)).foldl (fun s g => s.addPoison (g * 64)) s
    let s := ts.foldl (fun s t =>
      { s.setTeam s.nextTeam (some (t.comesIn part s.nextGang)) with nextTeam := s.nextTeam + 1 }) s
    { s with nextGang := ts.foldl (fun n t => max n (s.nextGang + t.gang + 1)) s.nextGang }

/-- A stopped partition leaves for another part: its saved teams, what its spools run and its reports are no longer here;
addresses that wait for a RESUME are not carried, nor discards that are still due there (DESIGN CHOICE, log 80). -/
def State.partOut (s : State) (part : Nat) : State :=
  let ts := s.partTeams part
  if !s.managed || !(ts.all fun t => t.2.saved (s.partn part)) || (s.partn part).grids.any fun g => g.op.isSome then s
  else
    let s := ts.foldl (fun s t => s.setTeam t.1 none) s
    let p := s.partn part
    { s.setPartn part { p with spools := [], grids := [], conts := [], reports := [] } with
      waits := s.waits.filter fun w => w.1 != part
      drops := s.drops.filter fun d => d.asid != part }

end Sys2Proof.Machine
end

