-- ==== Sys2Proof/Machine/Events.lean ====
section
/-! DEFINITION. The points of lane accesses: loads, stores, scratchpad traffic, atomics and accumulator accesses take
effect (R157, R165 to R172, R238, R239, R247 to R252, R262 to R269, R339). -/

namespace Sys2Proof.Machine

/-- An unfinished operation of a group. -/
def State.opAt (s : State) (r : GRef) (id : Nat) : Option (Team × Group × Pend) :=
  match s.group r with
  | none => none
  | some (t, g) => (g.findOp id).map fun o => (t, g, o)

def Pend.of (o : Pend) (l : Nat) : List LaneReq := o.lanes.filter fun q => q.lane == l
def Pend.mask (o : Pend) : Lanes := lanesOf (o.lanes.map LaneReq.lane)

/-- The table slot that a request reaches. -/
def Pend.slotOf (o : Pend) (q : LaneReq) : Nat := if o.byRef then fld q.key 63 52 else o.slot

/-- Whether a kind of operation is a load, store or atomic of table memory, scratchpad traffic, or an access to a tile. -/
def PKind.isTable : PKind → Bool
  | .load | .store | .atom _ _ => true
  | _ => false
def PKind.isScratch : PKind → Bool
  | .lds | .sts | .atoms _ _ => true
  | _ => false
def PKind.tile : PKind → Option Nat
  | .mxrd m | .mxwr m => some m
  | _ => none

/-- Two byte ranges meet. -/
def overlap (a n b m : Nat) : Bool := decide (a < b + m ∧ b < a + n)

/-- Whether an older access must take effect first: one lane's accesses to the same bytes of a table (R171), and its
accesses to a tile, in program order; a group's scratchpad traffic in issue order (R165). -/
def Group.laneBlocked (g : Group) (o : Pend) (q : LaneReq) : Bool :=
  !q.zero && g.pend.any fun p => decide (p.id < o.id) &&
    (if o.kind.isScratch then p.kind.isScratch && p.lanes.any fun a => !a.zero
     else if o.kind.isTable then p.kind.isTable && p.lanes.any fun a => a.lane == q.lane && !a.zero &&
       p.slotOf a == o.slotOf q && overlap a.addr p.size q.addr o.size
     else o.kind.tile.isSome && p.kind.tile == o.kind.tile && p.lanes.any fun a => a.lane == q.lane)

/-- The identity of a lane's writes. -/
def laneId (r : GRef) (l : Nat) : Nat × Nat × Nat := (r.team, r.grp, l)

/-- What the generation check of an access by rowref finds at its point (R42, R169). -/
inductive RefAt where
  | ok | stale | unbound

def State.refAt (s : State) (part : Nat) (o : Pend) (q : LaneReq) : RefAt :=
  if !o.byRef then .ok
  else match s.table part (fld q.key 63 52) with
    | none => .unbound
    | some tb => if rowCurrent tb q.key then .ok else .stale

/-- A stale row is recorded, unless the instruction has .ck (R169, R181). -/
def State.stale (s : State) (part : Nat) (o : Pend) (q : LaneReq) (wr : Bool) : State :=
  if o.quiet then s else s.noteStale part q.key wr

/-- A lane of an operation finishes with its results. -/
def State.laneResult (s : State) (r : GRef) (id : Nat) (q : LaneReq) (v : Nat) (p : Bool) : State :=
  match s.opAt r id with
  | none => s
  | some (_, g, o) => s.putGroup r ((g.result o q v p).laneDone o q.lane)

def poisonFault (o : Pend) (q : LaneReq) : LaneFault := mkFault 0x10 0 q.key (mkAux (o.slotOf q) 0)
def rightsFault (o : Pend) (q : LaneReq) : LaneFault := mkFault 0x0D 0 q.key (mkAux (o.slotOf q) 0)
def unboundFault (q : LaneReq) : LaneFault := mkFault 0x0B 0 q.key 0
def pathFault (cause : Nat) (q : LaneReq) : LaneFault := mkFault 0x17 cause (BitVec.ofNat 64 q.addr) 0

/-- What the far side of a window holds at the access's moment: `ext`, if it answers. -/
def State.farSide (s : State) (q : LaneReq) (n : Nat) (ext : Option (BitVec 128)) : State :=
  match ext with
  | some v => if isWindow q.addr then s.wrNat q.addr n v.toNat else s
  | none => s

/-- The part of an access that has still to take effect: key and bytes (R160). -/
def LaneReq.rest (q : LaneReq) (size : Nat) : Nat × Nat :=
  match q.half with
  | none => (q.addr, size)
  | some hi => (q.addr + (if hi then 0 else 8), 8)

/-- What a load brings: with a half that has taken effect before, both. -/
def LaneReq.join (q : LaneReq) (v : Nat) : Nat :=
  match q.half with
  | none => v
  | some hi => if hi then v % 2 ^ 64 + 2 ^ 64 * (q.data.toNat % 2 ^ 64) else q.data.toNat % 2 ^ 64 + 2 ^ 64 * v

/-- The bytes that a store has still to write. -/
def LaneReq.restBytes (q : LaneReq) (size : Nat) : List Byte :=
  ((natBytes q.data.toNat size).drop ((q.rest size).1 - q.addr)).take (q.rest size).2

/-- Whether a load is served by its core's L1 copy, so that nothing is asked of a far side. -/
def State.l1Hit (s : State) (core : Nat) (o : Pend) (q : LaneReq) : Bool :=
  (o.scope == .grp || o.scope == .team) && (tget none (s.core core).l1 (lineOf q.addr)).isSome

/-! ### LOAD_COMPLETE -/

/-- What precedes a load that goes through a window: the team's writes of the line join the posted stream. -/
def State.beforeFar (s : State) (r : GRef) (t : Team) (o : Pend) (q : LaneReq) : State :=
  if isWindow q.addr && !s.l1Hit t.core o q then s.beforeLoad o.scope t.core (lineOf q.addr) (laneId r q.lane) else s

/-- A load of one lane from table memory. `ext` is what the host or the peer holds there; a peer that gives nothing has
refused (R339); a read does not pass the writes posted before it (R254). -/
def State.loadLane (s : State) (r : GRef) (t : Team) (g : Group) (o : Pend) (q : LaneReq) (ext : Option (BitVec 128)) :
    State :=
  match s.refAt t.part o q with
  | .unbound => s.failLane r g o q.lane (unboundFault q)
  | .stale => (s.stale t.part o q false).laneResult r o.id q 0 false
  | .ok =>
    let far := isWindow q.addr && !s.l1Hit t.core o q
    let s := s.beforeFar r t o q
    let fail := s.failLane r g o q.lane
    if far && s.streamBusy t.part q.addr then s
    else if far && isPeer q.addr && (ext.isNone || !s.onSkein) then fail (rightsFault o q)
    else if far && isPeer q.addr && !s.portUp then fail (pathFault 4 q)
    else if s.poisoned q.addr o.size then fail (poisonFault o q)
    else
      let x := (if far then s.farSide q o.size ext else s).loadAt o.scope t.core (laneId r q.lane) (q.rest o.size).1
        (q.rest o.size).2
      x.1.laneResult r o.id q (q.join (leNat x.2)) true

/-- A scratchpad read of one lane. -/
def State.ldsLane (s : State) (r : GRef) (t : Team) (o : Pend) (q : LaneReq) : State :=
  s.laneResult r o.id q (if q.zero then 0 else q.join (leNat (t.spRead (q.rest o.size).1 (q.rest o.size).2))) true

/-- A scratchpad atomic of one lane (R167). -/
def State.atomsLane (s : State) (r : GRef) (t : Team) (o : Pend) (op : AOp) (ty : ITy) (q : LaneReq) : State :=
  if q.zero then s.laneResult r o.id q 0 true
  else
    let old : DWord := BitVec.ofNat 64 (leNat (t.spRead q.addr o.size))
    let t := match atomicNew op ty old (q.data.setWidth 64) (q.dat2.setWidth 64) with
      | some new => t.spWrite q.addr (natBytes new.toNat o.size)
      | none => t
    (s.setTeam r.team (some t)).laneResult r o.id q old.toNat true

/-- The fetch unit's copy of a line, filled if there is none (R170); a full cache of 256 lines drops one (R153; DESIGN
CHOICE, log 39). -/
def State.ftFill (s : State) (core line : Nat) : State × BitVec 1024 :=
  match tget none (s.core core).ft line with
  | some v => (s, v)
  | none =>
    let v := s.lineBits line
    let ft := (s.core core).ft
    (s.setCore core { s.core core with ft := tset none (if 256 ≤ ft.length then ft.drop 1 else ft) line (some v) }, v)

/-- One element that a FETCH delivers, and the flags it raises. -/
def fetchElem (fmt : Fmt) (v : Nat) : Word × Word :=
  match fmt with
  | .bf16 | .e4m3 | .e5m2 => widen fmt v
  | _ => (BitVec.ofNat 32 v, 0)

/-- A lane's elements of a FETCH, all at once. DESIGN CHOICE (log 28): a lane that exited after the issue sets no flag. -/
def State.fetchLane (s : State) (r : GRef) (t : Team) (g : Group) (o : Pend) (fmt : Fmt) (qs : List LaneReq) (l : Nat)
    (ext : Option (BitVec 128)) : State :=
  let far := fun (q : LaneReq) =>
    !q.zero && isWindow q.addr && (tget none (s.core t.core).ft (lineOf q.addr)).isNone
  let bad := fun (q : LaneReq) =>
    if far q && isPeer q.addr && (ext.isNone || !s.onSkein) then some (rightsFault o q)
    else if far q && isPeer q.addr && !s.portUp then some (pathFault 4 q)
    else if !q.zero && s.poisoned q.addr o.size then some (poisonFault o q)
    else none
  match if qs.any fun q => far q && s.streamBusy t.part q.addr then some none else (qs.findSome? bad).map some with
  | some none => s
  | some (some f) => s.failLane r g o l f
  | none =>
    let s := match qs, ext with
      | q :: _, some _ => s.farSide q (o.size * qs.length) ext
      | _, _ => s
    let x := qs.foldl
      (fun (x : State × Group) q =>
        if q.zero then (x.1, x.2.result o q 0 true)
        else
          let f := x.1.ftFill t.core (lineOf q.addr)
          let e := fetchElem fmt (leNat (sliceLine f.2 (q.addr % 128) o.size))
          let flags := if g.exited.getLsbD l || (fmt != .bf16) then 0 else e.2
          (f.1, (x.2.result o q e.1.toNat true).orNF flags)) (s, g)
    x.1.putGroup r (x.2.laneDone o l)

/-- Whether the array of a team answers MXRD and MXWR. -/
def Team.mxReady (t : Team) : Bool :=
  match t.arr with
  | some a => a.st != 5
  | none => false

/-- An MXRD of one lane. -/
def State.mxrdLane (s : State) (r : GRef) (t : Team) (o : Pend) (m : Nat) (q : LaneReq) : State :=
  match t.arr with
  | some a => if a.st = 5 then s else s.laneResult r o.id q (a.rdLane m q o.regs) true
  | none => s

/-- One lane of an operation that reads. Scratchpad atomics apply in ascending lane order. -/
def State.completeLane (s : State) (r : GRef) (id l : Nat) (ext : Option (BitVec 128)) : State :=
  match s.opAt r id with
  | none => s
  | some (t, g, o) =>
    match o.of l with
    | [] => s
    | q :: qs =>
      if g.laneBlocked o q then s
      else match o.kind with
        | .load => s.loadLane r t g o q ext
        | .lds => s.ldsLane r t o q
        | .atoms op ty => if (o.lanes.head?.map LaneReq.lane) = some l then s.atomsLane r t o op ty q else s
        | .fetch fmt => s.fetchLane r t g o fmt (q :: qs) l ext
        | .mxrd m => s.mxrdLane r t o m q
        | _ => s

/-- The lanes of an operation that a step takes: an access to a tile takes effect in all its lanes at once, none of them
held back (R239). -/
def Group.stepLanes (g : Group) (o : Pend) (m : Lanes) : Lanes :=
  if o.kind.tile.isNone then m
  else if m &&& o.mask = 0 ∨ (o.lanes.any (g.laneBlocked o)) = true then 0
  else o.mask

/-- Lanes of a load take their values and write their registers (R157, R249). `ext` gives, by lane, what the host or the
peer behind a window holds. -/
def execLoadComplete (r : GRef) (op : Nat) (lanes : Lanes) (ext : List (BitVec 128)) (s : State) :
    Host.Outcome State Fault Refusal :=
  match s.opAt r op with
  | none => .next s
  | some (_, g, o) =>
    .next (((laneList (g.stepLanes o lanes)).foldl (fun s l => s.completeLane r op l ext[l]?) s).settleFaults r op)

/-! ### STORE_PERFORM -/

/-- A store of one lane to table memory. -/
def State.storeLane (s : State) (r : GRef) (t : Team) (g : Group) (o : Pend) (q : LaneReq) : State :=
  match s.refAt t.part o q with
  | .unbound => s.failLane r g o q.lane (unboundFault q)
  | .stale => (s.stale t.part o q true).laneResult r o.id q 0 false
  | .ok =>
    if !isWindow q.addr && s.poisoned q.addr o.size then s.failLane r g o q.lane (poisonFault o q)
    else
      (s.storeAt o.scope t.core t.part q.va q.leaf (laneId r q.lane) (q.rest o.size).1 (q.restBytes o.size)
        q.half.isSome).laneResult r o.id q 0 true

/-- A lane of a store waits for the lower lanes of its instruction that write the same bytes (R166). -/
def Pend.lowerFirst (o : Pend) (q : LaneReq) : Bool :=
  o.lanes.any fun a => decide (a.lane < q.lane) && overlap a.addr o.size q.addr o.size

def State.performLane (s : State) (r : GRef) (id l : Nat) : State :=
  match s.opAt r id with
  | none => s
  | some (t, g, o) =>
    match o.of l with
    | [] => s
    | q :: _ =>
      if g.laneBlocked o q then s
      else match o.kind with
        | .store => if o.lowerFirst q then s else s.storeLane r t g o q
        | .sts =>
          if o.lowerFirst q then s
          else (s.setTeam r.team (some (t.spWrite (q.rest o.size).1 (q.restBytes o.size)))).laneResult r id q 0 true
        | .mxwr m =>
          match t.arr with
          | some a =>
            if a.st = 5 then s
            else (s.setTeam r.team (some { t with arr := some (a.wrLane m q) })).laneResult r id q 0 true
          | none => s
        | _ => s

/-- The lanes of one store that write the same bytes reach the point at one moment (R166). -/
def Pend.together (o : Pend) (m : Lanes) : Lanes :=
  (List.range o.lanes.length).foldl
    (fun m _ => o.lanes.foldl
      (fun m q => if o.lanes.any fun a => m.getLsbD a.lane && overlap a.addr o.size q.addr o.size then m ||| lane1 q.lane
        else m) m) m

/-- Lanes of a store reach their point and have performed (R249). -/
def execStorePerform (r : GRef) (op : Nat) (lanes : Lanes) (s : State) : Host.Outcome State Fault Refusal :=
  match s.opAt r op with
  | none => .next s
  | some (_, g, o) =>
    let m := if o.kind.tile.isSome then g.stepLanes o lanes else o.together (lanes &&& o.mask)
    .next (((laneList m).foldl (fun s l => s.performLane r op l) s).settleFaults r op)

/-! ### The halves of a .b128 access (R160) -/

/-- Whether an access of a lane may take effect by halves: 16 bytes, none of which has taken effect. An access by rowref
is one action with its generation check (R169). -/
def Pend.splits (o : Pend) (q : LaneReq) : Bool := o.size == 16 && !o.byRef && !q.zero && q.half.isNone

/-- The bytes of one half of a store. -/
def LaneReq.halfBytes (q : LaneReq) (hi : Bool) : List Byte := ((natBytes q.data.toNat 16).drop (if hi then 8 else 0)).take 8

/-- Replace the requests of an operation. -/
def State.setReqs (s : State) (r : GRef) (o : Pend) (f : LaneReq → LaneReq) : State :=
  match s.group r with
  | some (_, g) => s.putGroup r (g.setOp { o with lanes := o.lanes.map f })
  | none => s

/-- One half of a load takes its value. -/
def State.halfLoad (s : State) (r : GRef) (t : Team) (o : Pend) (q : LaneReq) (hi : Bool) (ext : Option (BitVec 128)) :
    State :=
  let far := isWindow q.addr && !s.l1Hit t.core o q
  let s := s.beforeFar r t o q
  if far && (s.streamBusy t.part q.addr || (isPeer q.addr && (ext.isNone || !s.onSkein || !s.portUp))) then s
  else
    let x := (if far then s.farSide q 16 ext else s).loadAt o.scope t.core (laneId r q.lane)
      (q.addr + if hi then 8 else 0) 8
    x.1.setReqs r o fun a =>
      if a.lane = q.lane then { a with half := some hi, data := BitVec.ofNat 128 (leNat x.2) } else a

/-- One half of a lane's access takes effect, the other before the lane is done. Lanes of one store that write the same
bytes take the half together, the highest last (R166; DEDUCED, log 63). -/
def State.halfLane (s : State) (r : GRef) (id l : Nat) (hi : Bool) (ext : Option (BitVec 128)) : State :=
  match s.opAt r id with
  | none => s
  | some (t, g, o) =>
    match o.of l with
    | [] => s
    | q :: _ =>
      let a := q.addr + if hi then 8 else 0
      let same := o.lanes.filter fun p => p.addr == q.addr && !p.zero
      let stored := fun (s : State) => s.setReqs r o fun p => if p.addr = q.addr ∧ p.zero = false then { p with half := some hi } else p
      let wait := fun (qs : List LaneReq) => qs.any fun p => !o.splits p || g.laneBlocked o p
      match o.kind with
      | .load => if wait [q] || s.poisoned q.addr 16 then s else s.halfLoad r t o q hi ext
      | .lds =>
        if wait [q] then s
        else s.setReqs r o fun p =>
          if p.lane = l then { p with half := some hi, data := BitVec.ofNat 128 (leNat (t.spRead a 8)) } else p
      | .store =>
        if wait same || s.poisoned q.addr 16 || spansMeet [(q.addr, 16)] (s.heldSpans none) then s
        else stored (same.foldl (fun (s : State) p =>
          s.storeAt o.scope t.core t.part p.va p.leaf (laneId r p.lane) a (p.halfBytes hi) true) s)
      | .sts =>
        if wait same then s
        else stored (s.setTeam r.team (some (same.foldl (fun t p => t.spWrite a (p.halfBytes hi)) t)))
      | _ => s

/-! ### Steps of the team and cluster points (R250, R252) -/

/-- An outbound write moves home, after the older ones that write one of its bytes. -/
def execMoveHome (core index : Nat) (s : State) : Host.Outcome State Fault Refusal :=
  let c := s.core core
  match c.outb[index]? with
  | none => .next s
  | some w =>
    if (c.outb.take index).any fun a => overlap a.addr a.bytes.length w.addr w.bytes.length then .next s
    else .next ((s.setCore core { c with outb := c.outb.eraseIdx index }).landWrite core w)

def execL1Drop (core line : Nat) (s : State) : Host.Outcome State Fault Refusal := .next (s.setL1 core line none)

def execClusterWriteBack (cluster line : Nat) (drop : Bool) (s : State) : Host.Outcome State Fault Refusal :=
  match (s.cluster cluster).line line with
  | none => .next s
  | some h => .next (s.writeBack cluster h drop)

/-! ### Atomics on device memory (R262 to R267) -/

/-- Whether an atomic of a scope executes at the cluster point. -/
def clusterScope : Scope → Bool
  | .grp | .team | .clu => true
  | _ => false

/-- One lane of a table atomic at its executing unit. -/
def State.atomLane (s : State) (r : GRef) (t : Team) (g : Group) (o : Pend) (op : AOp) (ty : ITy) (q : LaneReq) : State :=
  match s.refAt t.part o q with
  | .unbound => s.failLane r g o q.lane (unboundFault q)
  | .stale => (s.stale t.part o q true).laneResult r o.id q 0 false
  | .ok =>
    if s.poisoned q.addr o.size then s.failLane r g o q.lane (poisonFault o q)
    else
      let b : DWord := q.data.setWidth 64
      let c : DWord := q.dat2.setWidth 64
      let x := if clusterScope o.scope then
          s.atomicAtCluster t.core t.part q.va q.leaf (laneId r q.lane) op ty (o.scope == Scope.clu) q.addr b c
        else s.atomicAtHome t.core t.part q.va q.leaf op ty q.addr b c
      x.1.laneResult r o.id q x.2.toNat true

/-- The next lane of an atomic that reaches device memory, in ascending lane order, unless it must wait. -/
def State.atomNext (s : State) (r : GRef) (id : Nat) (cluster : Bool) : State :=
  match s.opAt r id with
  | none => s
  | some (t, g, o) =>
    match o.kind with
    | .atom op ty =>
      match o.lanes.find? fun q => !isWindow q.addr with
      | none => s
      | some q =>
        if clusterScope o.scope != cluster || g.laneBlocked o q then s else s.atomLane r t g o op ty q
    | _ => s

/-- The home slice's atomic unit applies a lane of an atomic of scope part or wider. -/
def execHomeSliceAtomic (r : GRef) (op : Nat) (s : State) : Host.Outcome State Fault Refusal :=
  .next ((s.atomNext r op false).settleFaults r op)

/-- A request of a batch with its place: core, group slot, operation. -/
def State.batchKey (s : State) (q : GRef × Nat) : Option (Nat × Nat) :=
  match s.opAt q.1 q.2 with
  | some (t, _, o) => match o.kind with
    | .atom _ _ => if clusterScope o.scope then some (t.core, t.base + q.1.grp) else none
    | _ => none
  | none => none

/-- Insert a request behind those of a lower slot, or of its slot with an older operation. -/
def batchInsert (k : Nat × GRef × Nat) : List (Nat × GRef × Nat) → List (Nat × GRef × Nat)
  | [] => [k]
  | a :: r => if k.1 < a.1 ∨ (k.1 = a.1 ∧ k.2.2 < a.2.2) then k :: a :: r else a :: batchInsert k r

/-- The batch in the order of R264. -/
def State.batchOrder (s : State) (cluster : Nat) (reqs : List (GRef × Nat)) : List (GRef × Nat) :=
  (List.range 8).flatMap fun i =>
    let core := 8 * cluster + ((s.cluster cluster).rot.toNat + i) % 8
    ((reqs.filterMap fun q => match s.batchKey q with
        | some (c, slot) => if c = core then some (slot, q.1, q.2) else none
        | none => none).foldl (fun l k => batchInsert k l) []).map Prod.snd

/-- All lanes of one instruction. -/
def State.atomAll (s : State) (q : GRef × Nat) : State :=
  match s.opAt q.1 q.2 with
  | none => s
  | some (_, _, o) => (o.lanes.foldl (fun s _ => s.atomNext q.1 q.2 true) s).settleFaults q.1 q.2

/-- Whether the engine accepts a request of the batch: some lane of it may be applied. -/
def State.accepts (s : State) (q : GRef × Nat) : Bool :=
  match s.opAt q.1 q.2 with
  | some (_, g, o) => (o.lanes.find? fun q => !isWindow q.addr).any fun q => !g.laneBlocked o q
  | none => false

/-- One cycle's requests of the cluster atomic engine; the pointer moves if it accepts any. -/
def execClusterAtomicEngineBatch (cluster : Nat) (reqs : List (GRef × Nat)) (s : State) :
    Host.Outcome State Fault Refusal :=
  let qs := s.batchOrder cluster reqs
  if !qs.any s.accepts then .next s
  else
    let s := qs.foldl (fun s q => s.atomAll q) s
    let c := s.cluster cluster
    .next (s.setCluster cluster { c with rot := c.rot + 1 })

/-! ### Atomics through windows (R269, R339) -/

/-- Whether PCIe has an AtomicOp for the operation. -/
def pcieOp : AOp → Bool
  | .add | .exch | .cas => true
  | _ => false

/-- The window entry through which a request goes, if it is still there. -/
def State.windowFor (s : State) (part : Nat) (o : Pend) (q : LaneReq) : BitVec 256 :=
  ((s.partn part).windowOf (o.slotOf q)).getD 0

/-- A completion answers a lane of an atomic on a window: `ext` is what the far side held, and what
the atomic leaves there is what units find later (R339). What the core has taken in goes before the request (R251). -/
def State.windowAtomic (s : State) (r : GRef) (t : Team) (g : Group) (o : Pend) (op : AOp) (ty : ITy) (q : LaneReq)
    (c : Completion) (ext : DWord) : State :=
  let fail := s.failLane r g o q.lane
  match s.refAt t.part o q with
  | .unbound => fail (unboundFault q)
  | .stale => (s.stale t.part o q true).laneResult r o.id q 0 false
  | .ok =>
    if !pcieOp op then fail (pathFault 1 q)
    else if !fbit (s.windowFor t.part o q) 3 then fail (pathFault 2 q)
    else if isPeer q.addr && !s.onSkein then fail (rightsFault o q)
    else if isPeer q.addr && !s.portUp then fail (pathFault 4 q)
    else if (s.flushWide t.core).streamBusy t.part q.addr then s.flushWide t.core
    else match c with
      | .unsupported => fail (if isPeer q.addr then rightsFault o q else pathFault 3 q)
      | .abort => fail (pathFault 4 q)
      | .ok =>
        let s := s.flushWide t.core
        if s.poisoned q.addr o.size then s.failLane r g o q.lane (poisonFault o q)
        else
          let old : DWord := BitVec.ofNat 64 (ext.toNat % 2 ^ (8 * o.size))
          let new := (atomicNew op ty old (q.data.setWidth 64) (q.dat2.setWidth 64)).getD old
          let s := s.wrNat q.addr o.size new.toNat
          let s := s.patchL1 t.core q.addr (natBytes new.toNat o.size)
          s.laneResult r o.id q old.toNat true

/-- Find the lane of a window atomic that may complete now. -/
def State.onWindowAtomic (s : State) (r : GRef) (id l : Nat)
    (f : Team → Group → Pend → AOp → ITy → LaneReq → State) : State :=
  match s.opAt r id with
  | none => s
  | some (t, g, o) =>
    match o.kind, o.of l with
    | .atom op ty, q :: _ =>
      if !isWindow q.addr || g.laneBlocked o q || o.lowerFirst q then s else f t g o op ty q
    | _, _ => s

/-- A PCIe AtomicOp, or a peer's atomic, completes. -/
def execAtomicopCompletion (r : GRef) (op lane : Nat) (c : Completion) (ext : DWord) (s : State) :
    Host.Outcome State Fault Refusal :=
  .next ((s.onWindowAtomic r op lane fun t g o a ty q => s.windowAtomic r t g o a ty q c ext).settleFaults r op)

/-- A completion that does not arrive: the lane takes the atomic-path fault with cause 4, whether it waits for an
AtomicOp or, at a peer, for a load or a FETCH. -/
def execCompletionTimeout (r : GRef) (op lane : Nat) (s : State) : Host.Outcome State Fault Refusal :=
  match s.opAt r op with
  | none => .next s
  | some (_, g, o) =>
    match o.kind, o.of lane with
    | .load, q :: _ | .fetch _, q :: _ =>
      if isPeer q.addr && !g.laneBlocked o q then .next ((s.failLane r g o lane (pathFault 4 q)).settleFaults r op)
      else .next s
    | _, _ => .next ((s.onWindowAtomic r op lane fun t g o a ty q => s.windowAtomic r t g o a ty q .abort 0).settleFaults r op)

end Sys2Proof.Machine
end

