-- ==== Sys2Proof/Machine/System.lean ====
section
/-! DEFINITION. What system software and the outside world do through the hub: register writes (R5, R335), binding and
unbinding tables (R39 to R41, R281), the translation queue (R313 to R315), tiers (R316), time (R320), apertures, windows
and peers (R337 to R339), and Skein (R341). -/

namespace Sys2Proof.Machine

/-! ### Window entries (R338) -/

def Partition.windowAt (p : Partition) (i : Nat) : BitVec 256 := tget 0 p.windows i
def Partition.setWindow (p : Partition) (i : Nat) (e : BitVec 256) : Partition :=
  { p with windows := tset 0 p.windows i e }

/-- A window entry with its reserved fields zero. -/
def windowRW (e : BitVec 256) : BitVec 256 := setFld (setFld (setFld (setFld (setFld e 127 64 0) 48 36 0) 23 8 0) 5 5 0) 2 1 0

/-- Whether the hub refuses to enable an entry. -/
def State.windowBad (s : State) (part i : Nat) (e : BitVec 256) : Bool :=
  let p := s.partn part
  let slot := fld e 35 24
  let tgt := fld e 7 6
  let tableBad := match p.table slot with
    | none => true
    | some t => tKind t != 0 || tPaged t || decide (fld e 191 128 < tCap t * tWidth t)
  tableBad || tgt == 3 || (tgt == 0 && s.hub.cxl.1) || (tgt == 1 && s.hub.cxl.2) || e != windowRW e ||
    p.windows.any fun w => w.1 != i && fbit w.2 0 && fld w.2 35 24 == slot

/-- Whether an access issued through an entry has neither performed nor faulted. -/
def State.windowBusy (s : State) (part : Nat) (e : BitVec 256) : Bool :=
  let lo := windowKey e 0
  let n := fld e 191 128
  let inside := fun (k : Nat) => decide (lo ≤ k ∧ k < lo + n)
  (s.teams.any fun x => match x.2 with
    | some t => decide (t.part = part) && ((t.groups.any fun g => g.pend.any fun o =>
        (o.kind.isTable || o.kind.isFetch) && (o.lanes.any fun q => !q.zero && inside q.addr) ||
          o.kind == .tdrop && decide (o.slot = fld e 35 24) && !o.lanes.isEmpty) ||
        t.engs.any fun op => op.hold.any fun h => h.span.any fun r => inside r.1)
    | none => false) ||
    s.cores.any fun c => c.2.outb.any fun w => decide (w.part = part) && inside w.addr

/-- A write of an entry: while V = 1 only its clearing has an effect, which waits for the accesses already issued. -/
def State.writeWindow (s : State) (part i : Nat) (e : BitVec 256) : State :=
  let p := s.partn part
  let old := p.windowAt i
  if !s.managed || decide (32 ≤ part ∨ 16 ≤ i) then s
  else if fbit old 0 then
    if fbit e 0 || s.windowBusy part old then s else s.setPartn part (p.setWindow i (setFld old 0 0 0))
  else if fbit e 0 then
    if s.windowBad part i e then (s.setPartn part (p.setWindow i (setFld (windowRW e) 0 0 0))).setPerr 2
    else s.setPartn part (p.setWindow i e)
  else s.setPartn part (p.setWindow i (windowRW e))

def execWindowEnable (part index : Nat) (v : BitVec 256) (s : State) : Host.Outcome State Fault Refusal :=
  .next (s.writeWindow part index (setFld v 0 0 1))
def execWindowDisable (part index : Nat) (s : State) : Host.Outcome State Fault Refusal :=
  .next (s.writeWindow part index (setFld ((s.partn part).windowAt index) 0 0 0))

/-! ### Registers with no behaviour of their own (R5, R335) -/

/-- Bits written as 1 are cleared. -/
def w1c {w : Nat} (old v mask : BitVec w) : BitVec w := old &&& ~~~(v &&& mask)

/-- A write of a register of a partition, in its register window or its management block: in recovery neither is there
(R344). -/
def State.writePartReg (s : State) (part : Nat) (f : Partition → Partition) : State :=
  if s.managed && decide (part < 32) then s.setPartn part (f (s.partn part)) else s
/-- A write of a register of the hub's management block. -/
def State.writeHubReg (s : State) (f : Hub → Hub) : State := if s.managed then { s with hub := f s.hub } else s

/-- A write of a register. Reserved bits stay zero; read-only registers ignore it. -/
def State.writeReg (s : State) (r : RegName) (v : DWord) : State :=
  let w : Word := v.setWidth 32
  match r with
  | .spcfg part n => if s.spoolHere part n then s.writeSpcfg part n v else s
  | .cqcfg part n => if s.spoolHere part n then s.writeCqcfg part n v else s
  | .spstat part n =>
    if n < 16 then
      s.writePartReg part fun p => p.setSpool n { p.spool n with stat := w1c (p.spool n).stat w 0xF }
    else s
  | .stalestat part => s.writePartReg part fun p => { p with stalestat := w1c p.stalestat v 3 }
  | .trapcfg part => s.writePartReg part fun p =>
      { p with trapcfg := (v &&& 0xF1FFFFFFFF) ||| (p.trapcfg &&& ~~~v &&& 0x10000000000) }
  | .pcfg part => s.writePcfg part v
  | .wdlim part => s.writePartReg part fun p => { p with wdlim := v &&& 0xFFFFFFFF }
  | .ptroot part => s.writePartReg part fun p => { p with ptroot := v &&& 0xF00FFFFFFFFFFF00 }
  | .dlcfg part => s.writePartReg part fun p => { p with dlcfg := v &&& 0x000FFFFFFFFFF001 }
  | .timeval part => s.writePartReg part fun p => if fbit p.timectl 0 then p else { p with timeval := v }
  | .walloff part => s.writePartReg part fun p => { p with walloff := v }
  | .apbase part => s.writePartReg part fun p => { p with apbase := v &&& 0xFFFFFFF0000 }
  | .peeracl part i =>
    if i < 8 then s.writePartReg part fun p => { p with peeracl := tset 0 p.peeracl i (w &&& 0xFFFC001F) } else s
  | .window part i k =>
    if k < 4 then s.writeWindow part i (setFld ((s.partn part).windowAt i) (64 * k + 63) (64 * k) v.toNat) else s
  | .gateSlot part i =>
    if i < 4096 then s.writePartReg part fun p => { p with gateSlots := tset 0 p.gateSlots i (v &&& 0x800003FF0000FFFF) }
    else s
  | .gateRecord n k => if s.managed && gateNum n then s.noteStalls.setGate n ((s.gate n).writeWord k v) else s
  | .perr => s.writeHubReg fun h => { h with perr := w1c h.perr w 0x3F }
  | .pwrcap => s.writeHubReg fun h => { h with pwrcap := v &&& 0xFFF }
  | .elbase => s.writeHubReg fun h => { h with elbase := v &&& 0x000FFFFFFFFFF00F }
  | .elhead => s.writeHubReg fun h => { h with elhead := w }
  | .tqbase => s.writeHubReg fun h => { h with tqbase := v &&& 0x000FFFFFFFFFF00F }
  | .tqtail => s.writeHubReg fun h => { h with tqtail := w }
  | .tqstat => s.writeHubReg fun h => { h with tqstat := w1c h.tqstat w 0xFFFF0001 }
  | .tierwm t => if t < 4 then s.writeHubReg fun h => { h with tierwm := tset 0 h.tierwm t v } else s
  | .readOnly _ => s

def execRegisterWrite (r : RegName) (v : DWord) (s : State) : Host.Outcome State Fault Refusal := .next (s.writeReg r v)

/-- TIMECTL holds RUN alone (R320). -/
def execTimectlWrite (part : Nat) (v : DWord) (s : State) : Host.Outcome State Fault Refusal :=
  .next (s.writePartReg part fun p => { p with timectl := v &&& 1 })

/-- SKCFG: DEVNUM takes the value unless it lies in 640 to 1,022 (R341). -/
def execSkcfgWrite (v : DWord) (s : State) : Host.Outcome State Fault Refusal :=
  .next (s.writeHubReg fun h =>
    if 640 ≤ fld v 9 0 ∧ fld v 9 0 ≤ 1022 then h else { h with skcfg := setFld h.skcfg 9 0 (fld v 9 0) })

/-! ### Binding tables (R39, R40, R281) -/

/-- Whether LO is a key of the key type, held sign- or zero-extended, and LO + CAPACITY - 1 lies in its range. -/
def denseRange (kt lo cap : Nat) : Bool :=
  let k := keyOfNat kt lo
  let top : Int := if ktSigned kt then 2 ^ (ktBits kt - 1) - 1 else 2 ^ ktBits kt - 1
  decide ((k % (2 ^ 64 : Int)).toNat = lo ∧ k + cap - 1 ≤ top)

/-- Whether the row heap of an indexed table is bound in another partition (R281). -/
def State.sharedHeap (s : State) (part : Nat) (t : Table) : Bool :=
  match s.walk part (tHeap t) with
  | .ok k _ _ _ => s.parts.any fun p => p.1 != part && p.2.tables.any fun e => match e.2 with
    | some u => (match s.walk p.1 (tHeap u) with | .ok k' _ _ _ => k == k' | _ => false)
    | none => false
  | _ => false

/-- The codes with which the bobbin unit refuses a record. -/
def State.bindCodes (s : State) (part slot : Nat) (r : BitVec 1024) : List Nat :=
  let t : Table := { record := r, gens := [], keys := [], bad := false }
  let dense := tKind t == 0
  let indexed := tIndexed t
  let bobset := fld r 51 44
  err (decide (3 < tKind t)) 1 ++
    err (decide (4 < tKType t) || (tKType t == 4 && dense)) 2 ++
    err (tCap t == 0 || (indexed && decide (2 ^ 36 < tCap t)) ||
      (dense && decide (tKType t < 4) && !denseRange (tKType t) (fld r 191 128) (tCap t))) 3 ++
    err (bobset == 0 || !(bobset.testBit (tHome t))) 4 ++
    err (tHeap t % 65536 != 0 || tIndexVa t % 4096 != 0 || (indexed && tIndexVa t == 0) || (dense && tIndexVa t != 0)) 5 ++
    err (tPaged t && indexed) 6 ++
    err (fld r 1023 448 != 0 || fld r 447 416 != 0 || fld r 399 394 != 0 || fld r 391 390 != 0 || fld r 127 112 != 0 ||
      fld r 63 55 != 0 || fld r 31 28 != 0 || fld r 15 8 != 0) 7 ++
    err (fld r 43 32 != slot || (s.held part slot).isSome || (indexed && s.sharedHeap part t)) 8 ++
    err (tSeed t == 0) 9 ++
    err (indexed && fld r 191 128 != 0) 0xA

/-- A bind request: the answer is kept. ROWCOUNT is the home bobbin unit's; an index starts empty. -/
def execTableBind (part slot : Nat) (r : BitVec 1024) (s : State) : Host.Outcome State Fault Refusal :=
  if !s.managed || decide (32 ≤ part ∨ 4096 ≤ slot) then .next s
  else match least (s.bindCodes part slot r) with
    | some c => .next { s with answer := [BitVec.ofNat 64 c] }
    | none =>
      let t : Table := { record := r, gens := [], keys := [], bad := false }
      let t := t.setRowCount (if tKind t = 0 then tCap t else 0)
      let s := s.setTable part slot (some t)
      .next { s with answer := [0], aborted := s.aborted.filter fun a => a != (part, slot) }

/-- The slots that an engine operation with items left still uses: those of a GATH.ref are named by the elements that it
has read. -/
def EngOp.slots (op : EngOp) : List Nat :=
  if !op.begun || op.items.isEmpty then []
  else match op.eng with
    | .copy => op.recd.map lySlot
    | .gather => if op.kind = .ref then op.read.map fun e => fld e.2 63 52 else [op.mainSlot]
    | .near => [fld (op.a 1) 27 16, if nmSrc op.cmd then fld op.cmd 171 160 else fld (op.a 1) 27 16]
    | .coll => [coSrc op.rec0, coDst op.rec0, coComm op.rec0]
    | .join => []

/-- Whether a COLL that has begun its items reads a slot of a partition as the source of another rank. -/
def State.collReads (s : State) (part slot : Nat) (op : EngOp) : Bool :=
  op.begun && !op.items.isEmpty && match op.coll with
    | some c => c.ranks.contains (some part) && (match (s.joined c.comm part)[c.k]? with
      | some b => b.sent.isNone && coSrc b.block == slot
      | none => false)
    | none => false

/-- Whether an engine operation or command has begun its items on a slot and not completed them (R41). -/
def State.slotBusy (s : State) (part slot : Nat) : Bool :=
  let busy := fun (p : Nat) (op : EngOp) => (p == part && op.slots.contains slot) || s.collReads part slot op
  (s.teams.any fun e => match e.2 with
    | some t => t.engs.any (busy t.part)
    | none => false) ||
    s.parts.any fun p => p.2.grids.any fun g => g.op.any (busy p.1)

/-- Whether something names a slot so that it may not be unbound (R41). DESIGN CHOICE (log 79): a work record that launched no
grid (R77) still names its CSLOT, until its completion is recorded. -/
def Partition.slotNamed (p : Partition) (slot : Nat) : Bool :=
  (p.windowOf slot).isSome || (p.spools.any fun e => (spEN e.2 && spSlot e.2 == slot) ||
    (fbit e.2.cq 0 && fld e.2.cq 19 8 == slot)) || p.grids.any fun g => g.isWork && recCSlot g.record == slot

/-- An unbind request. At its point the slot no longer names the table; while engines have still to complete items that
they had begun on it the table is held, and the request is answered by the step that finds them complete. DESIGN CHOICE
(log 79): a further request while one is unanswered is one with it, and a bind of the slot finds it in use. -/
def execTableUnbind (part slot : Nat) (s : State) : Host.Outcome State Fault Refusal :=
  let p := s.partn part
  let busy := s.slotBusy part slot
  let gone : State := { s.setPartn part { p.setTable slot none with closing := p.closing.filter fun n => n != slot } with
                        answer := [0] }
  if !s.managed || decide (32 ≤ part ∨ 4096 ≤ slot) then .next s
  else if p.closing.contains slot then .next (if busy then s else gone)
  else if (p.table slot).isNone then .next { s with answer := [0xB] }
  else if p.slotNamed slot then .next { s with answer := [0xC] }
  else .next (if busy then s.setPartn part { p with closing := p.closing ++ [slot] } else gone)

/-! ### The translation queue (R313, R314) -/

/-- A range of virtual addresses of a partition, from `lo` to below `hi`. -/
structure Span where
  asid : Nat
  lo   : Nat
  hi   : Nat

def Span.has (r : Span) (va : Nat) : Bool := decide (r.lo ≤ va ∧ va < r.hi)
def Span.meets (r : Span) (va n : Nat) : Bool := decide (r.lo < va + n ∧ va < r.hi)

/-- The page sizes that HINT names. -/
def hintSize (hint size : Nat) : Bool :=
  hint == 0 || (hint == 1 && size == 2 ^ 26) || (hint == 2 && size == 2 ^ 21) || (hint == 3 && size == 2 ^ 16)

/-- Drop the L1 and fetch-unit copies of a physical range. -/
def State.dropCopies (s : State) (key n : Nat) : State :=
  let keep := fun (e : Nat × Option (BitVec 1024)) => !decide (key / 128 ≤ e.1 ∧ e.1 < (key + n) / 128)
  s.cores.foldl (fun s c =>
    let x := s.core c.1
    s.setCore c.1 { x with l1 := x.l1.filter keep, ft := x.ft.filter keep }) s

/-- Writes that used a translation of the range move home, and cluster points write back what holds such writes. -/
def State.drain (s : State) (r : Span) : State :=
  let mine := fun (part va : Nat) => decide (part = r.asid) && r.has va
  let s := s.cores.foldl (fun s c => s.moveWhere c.1 fun w => !isWindow w.addr && mine w.part w.va) s
  s.clusters.foldl
    (fun s c => ((s.cluster c.1).hot.filter fun h => mine h.part h.va).foldl (fun s h => s.writeBack c.1 h true) s) s

/-- Every cached translation of the device: of the cores, their victims, the clusters and the dies (R312). -/
def State.allTlb (s : State) : List Tlb :=
  (s.cores.flatMap fun c => c.2.tlb ++ c.2.spVict ++ c.2.icVict) ++ (s.clusters.flatMap fun c => c.2.tlb) ++
    s.tlb.flatMap Prod.snd

/-- Keep only the cached translations that `p` picks. -/
def State.keepTlb (s : State) (p : Tlb → Bool) : State :=
  let s := s.cores.foldl
    (fun s c => let x := s.core c.1
      s.setCore c.1 { x with tlb := x.tlb.filter p, spVict := x.spVict.filter p, icVict := x.icVict.filter p }) s
  let s := s.clusters.foldl
    (fun s c => s.setCluster c.1 { s.cluster c.1 with tlb := (s.cluster c.1).tlb.filter p }) s
  { s with tlb := s.tlb.foldl (fun m e => tset [] m e.1 ((tget [] m e.1).filter p)) s.tlb }

/-- Remove cached translations of a range and of the sizes that a hint names. -/
def State.shoot (s : State) (r : Span) (hint : Nat) : State :=
  let hit := fun (e : Tlb) => decide (e.asid = r.asid) && r.meets e.va e.size && hintSize hint e.size
  ((s.allTlb.filter hit).foldl (fun s e => s.dropCopies e.pa e.size) (s.drain r)).keepTlb fun e => !hit e

/-- Whether an access that used a translation of the range has not performed yet: of a lane, or of a bobbin unit that has
elements of a held row still to write. -/
def State.using (s : State) (r : Span) : Bool :=
  s.teams.any fun x => match x.2 with
    | some t => decide (t.part = r.asid) && ((t.groups.any fun g => g.pend.any fun o =>
        (o.kind.isTable || o.path == .ft) && o.lanes.any fun q => !q.zero && !isWindow q.addr && r.has q.va) ||
        t.engs.any fun op => op.hold.any fun h => h.todo.any fun e => !isWindow e.key && r.has e.va)
    | none => false

/-- The entry at TQDONE, if the queue is not empty. DESIGN CHOICE (log 49): beyond HBM there is none. -/
def State.tqEntry (s : State) : Option (BitVec 256) :=
  let h := s.hub
  let a := fld h.tqbase 51 12 * 4096 + h.tqdone.toNat % 2 ^ fld h.tqbase 3 0 * 32
  if !s.managed || h.tqdone == h.tqtail || !s.inTier 0 a then none
  else some (BitVec.ofNat 256 (s.rdNat (mkKey 0 a) 32))

def State.tqDone (s : State) : State := { s with hub := { s.hub with tqdone := s.hub.tqdone + 1 } }

/-- An entry fails: TQSTAT keeps the first failure, and TQDONE counts the entry. -/
def State.tqFail (s : State) : State :=
  let h := s.hub
  let pos := h.tqdone.toNat % 2 ^ fld h.tqbase 3 0
  let stat := if fbit h.tqstat 0 then h.tqstat else BitVec.ofNat 32 (pos * 65536 + 1)
  { s with hub := { h with tqstat := stat } }.tqDone

def tqOp (e : BitVec 256) : Nat := fld e 3 0
def tqAsid (e : BitVec 256) : Nat := fld e 12 8
def tqHint (e : BitVec 256) : Nat := fld e 5 4
def tqTier (e : BitVec 256) : Nat := fld e 39 36
def tqVa (e : BitVec 256) : Nat := fld e 255 192
def tqLen (e : BitVec 256) : Nat := fld e 191 128
/-- The range of an entry; LEN 0 is the whole space. -/
def tqSpan (e : BitVec 256) : Span :=
  if tqLen e = 0 then { asid := tqAsid e, lo := 0, hi := 2 ^ 44 }
  else { asid := tqAsid e, lo := tqVa e, hi := tqVa e + tqLen e }

/-- Whether an entry fails. DESIGN CHOICE (log 49): so does a MOVE to a tier that is not there. -/
def State.tqBad (s : State) (e : BitVec 256) : Bool :=
  let moveBad := !s.inTier (tqTier e) 0 || match s.walk (tqAsid e) (tqVa e) with
    | .ok _ _ size _ => tqLen e != size || tqVa e % size != 0
    | .busy _ => false
    | .miss => true
  tqOp e == 0 || decide (4 < tqOp e) || fld e 127 40 != 0 || fld e 35 13 != 0 || fld e 7 6 != 0 ||
    tqVa e % 65536 != 0 || tqLen e % 65536 != 0 || (tqOp e == 3 && (decide (3 < tqTier e) || moveBad))

/-- Whether the entry at TQDONE is a MOVE under way. -/
def State.tqMoving (s : State) : Bool := s.pmoves.any fun m => match m.2 with
  | some m => m.byTq
  | none => false

/-- Process the entry at TQDONE if it is the operation `op`, or one that fails. -/
def State.onTq (s : State) (op : Nat) (k : BitVec 256 → State) : State :=
  match s.tqEntry with
  | none => s
  | some e => if s.tqMoving then s else if s.tqBad e then s.tqFail else if tqOp e = op then k e else s

/-- An invalidation that completes once every access through a removed translation has performed. -/
def State.inval (s : State) (e : BitVec 256) (k : State → State) : State :=
  let s := s.shoot (tqSpan e) (tqHint e)
  if s.using (tqSpan e) then s else (k s).tqDone

def execInval (s : State) : Host.Outcome State Fault Refusal := .next (s.onTq 1 fun e => s.inval e id)

/-- A park slot whose translation system software has resolved. -/
def Park.resolve (p : Park) : Park := if p.rpl then { p with resolved := true } else p

/-- A group of the resumed partition: its replayable parks replay, and an access that waits for a page in the range walks
again. -/
def Group.resolve (g : Group) (r : Span) : Group :=
  let wait := match g.wait with
    | .xlate va => if r.has va then GWait.none else .xlate va
    | w => w
  { g with parks := g.parks.map Park.resolve, whole := g.whole.map (fun w => { w with resolved := true }), wait := wait }

def EngOp.resolve (op : EngOp) (r : Span) : EngOp :=
  match op.stall with
  | some va => if r.has va then { op with stall := none } else op
  | none => op

/-- Whether the tile-word fetch of a sequencer falls in the range. -/
def State.tileVa (s : State) (t : Team) (a : Arr) : Nat :=
  match s.table t.part (recCSlot t.record) with
  | some tb => tHeap tb + a.spc.toNat
  | none => 0

def State.resolveTeam (s : State) (t : Team) (r : Span) : Team :=
  { t with groups := t.groups.map (fun g => g.resolve r), engs := t.engs.map (fun op => op.resolve r),
           arr := t.arr.map (fun a => if r.has (s.tileVa t a) then { a with miss := false } else a) }

/-- RESUME: what waits for a translation of the partition goes on (R314, R315). -/
def State.resolve (s : State) (r : Span) : State :=
  let s := s.teams.foldl
    (fun s e => match s.team e.1 with
      | some t => if t.part = r.asid then s.setTeam e.1 (some (s.resolveTeam t r)) else s
      | none => s) s
  let p := s.partn r.asid
  let s := s.setPartn r.asid { p with grids := p.grids.map fun g => { g with op := g.op.map (fun op => op.resolve r) } }
  { s with waits := s.waits.filter fun w => !(decide (w.1 = r.asid) && r.has w.2) }

def execResume (s : State) : Host.Outcome State Fault Refusal :=
  .next (s.onTq 2 fun e => s.inval e fun s => s.resolve (tqSpan e))

/-- The pages of a paged dense table in a range read as zero (R190). -/
def State.discardTable (s : State) (part slot : Nat) (t : Table) (r : Span) : State :=
  let lo := max (tHeap t) r.lo
  let hi := min (tHeap t + (tCap t * tWidth t + 65535) / 65536 * 65536) r.hi
  if hi ≤ lo then s
  else
    (s.zeroImage none part slot t ((hi - lo) / 65536 + 2) (lo - tHeap t) (hi - lo)).clearImage none part slot t
      (lo - tHeap t) (hi - lo)

def State.discard (s : State) (r : Span) : State :=
  (s.partn r.asid).tables.foldl
    (fun s e => match e.2 with
      | some t => if tKind t = 0 ∧ tPaged t then s.discardTable r.asid e.1 t r else s
      | none => s) s

def execDiscard (s : State) : Host.Outcome State Fault Refusal :=
  .next (s.onTq 4 fun e => s.inval e fun s => s.discard (tqSpan e))

/-! ### Moving pages (R316) -/

def pteBusy : Nat := 16

/-- The ranges of memory that a page table takes, from a node on: its nodes, and the pages that it maps. -/
def State.rangesFrom (s : State) : List (Nat × Nat × Bool) → Nat → List (Nat × Nat)
  | [], _ => []
  | (lo, w, leafOk) :: rest, node =>
    (node, 8 * 2 ^ w) :: (s.entries node w).flatMap fun i => match s.pte lo leafOk (node + 8 * i) with
      | .absent => []
      | .node key => s.rangesFrom rest key
      | .leaf key _ _ => [(key, 2 ^ lo)]

/-- The ranges that page tables, rings and dirty logs take. -/
def State.taken (s : State) : List (Nat × Nat) :=
  (s.parts.flatMap fun p =>
    (match s.rootNode p.1 with | some node => s.rangesFrom walkLevels node | none => []) ++
      if fbit p.2.dlcfg 0 then [(mkKey 0 (fld p.2.dlcfg 51 12 * 4096), 2 ^ 25)] else []) ++
    [(mkKey 0 (fld s.hub.elbase 51 12 * 4096), 32 * 2 ^ fld s.hub.elbase 3 0),
      (mkKey 0 (fld s.hub.tqbase 51 12 * 4096), 32 * 2 ^ fld s.hub.tqbase 3 0)]

/-- Whether a page of `size` bytes may move to an address of a tier: aligned, within the tier, and where nothing else
lies. -/
def State.placeFree (s : State) (tier addr size : Nat) : Bool :=
  addr % size == 0 && decide (addr + size < 2 ^ 52) && s.inTier tier (addr + size - 1) &&
    !spansMeet [(mkKey tier addr, size)] s.taken

/-- The lowest such address, where the schedule names none (DESIGN CHOICE, log 39). -/
def State.freePlace (s : State) (tier size : Nat) : Option Nat :=
  let ends := 0 :: (s.taken.filter fun r => spaceOf r.1 == tier).map fun r =>
    (r.1 % 2 ^ 64 + r.2 + size - 1) / size * size
  least (ends.filter fun a => s.placeFree tier a size)

/-- The migration engine of the page's tier begins a move, if it has none under way and the new tier has room: BUSY is set
and the page's translations go. DESIGN CHOICE (log 39): without room it waits. -/
def State.beginMove (s : State) (part va tier : Nat) (byTq : Bool) : State :=
  match s.walk part va with
  | .ok key leaf size _ =>
    if (tget none s.pmoves (spaceOf key)).isSome || (s.freePlace tier size).isNone then s
    else
      let base := va / size * size
      let m : PageMove :=
        { pte := leaf, asid := part, va := base, size := size, src := key - va % size, tier := tier, byTq := byTq }
      let s := (s.wrNat leaf 1 (s.rdNat leaf 1 ||| pteBusy)).shoot { asid := part, lo := base, hi := base + size } 0
      { s with pmoves := tset none s.pmoves (spaceOf key) (some m) }
  | _ => s

def execMove (s : State) : Host.Outcome State Fault Refusal :=
  .next (s.onTq 3 fun e => s.beginMove (tqAsid e) (tqVa e) (tqTier e) true)

/-- Copy a page, with its poison (R330); copies that cores and cluster points had of the new place go. -/
def State.copyPage (s : State) (src too n : Nat) : State :=
  let s := ((s.recallRange src n).recallRange too n).dropCopies too n
  let cells := s.mem.filter fun c => decide (src ≤ c.1 ∧ c.1 < src + n)
  let bad := s.poison.filter fun g => decide (src ≤ g * 64 ∧ g * 64 < src + n)
  let s := (s.zeroRange too n).clearPoison too n
  let s := { s with mem := cells.foldl (fun m c => tset emptyByte m (too + (c.1 - src)) c.2) s.mem }
  bad.foldl (fun s g => s.addPoison (too + (g * 64 - src))) s

def tierFree (h : Hub) (t : Nat) : Nat := (tget 0 h.tierfree t).toNat
/-- A tier's free units change by `n`, within what TIERFREE can hold. -/
def addFree (h : Hub) (t : Nat) (n : Int) : Hub :=
  { h with tierfree := tset 0 h.tierfree t (BitVec.ofNat 32 (min (2 ^ 32 - 1) ((tierFree h t : Nat) + n).toNat)) }

/-- The hub counts a tier's free units anew: what pages are mapped is system software's doing, which the count follows
(DESIGN CHOICE, log 3). -/
def State.countFree (s : State) (tier units : Nat) : State :=
  if tier < 4 then { s with hub := { s.hub with tierfree := tset 0 s.hub.tierfree tier (BitVec.ofNat 32 units) } } else s

/-- The move that the engine of a tier has under way ends: the page is copied to a free physical address `dest` of its new
tier, once no access uses the old place, and the leaf names the new one. D is kept. -/
def execPageMove (to_ : TierPlace) (s : State) : Host.Outcome State Fault Refusal :=
  let tier := to_.tier
  let dest := to_.addr
  match tget none s.pmoves tier with
  | none => .next s
  | some m =>
    let r : Span := { asid := m.asid, lo := m.va, hi := m.va + m.size }
    if s.using r || spansMeet [(m.src, m.size)] (s.heldSpans none) || !s.placeFree m.tier dest m.size then .next s
    else
      let s := (s.drain r).copyPage m.src (mkKey m.tier dest) m.size
      let e : DWord := BitVec.ofNat 64 (s.rdNat m.pte 8)
      let e := setFld (setFld (setFld e 63 60 m.tier) 51 8 (dest / 256)) 4 4 0
      let u : Int := m.size / 65536
      let s := s.wrNat m.pte 8 e.toNat
      let s : State := { s with pmoves := tset none s.pmoves tier none, hub := addFree (addFree s.hub (spaceOf m.src) u) m.tier (-u) }
      .next (if m.byTq then s.tqDone else s)

def tierLow (h : Hub) (t : Nat) : Nat := fld (tget 0 h.tierwm t) 31 0
def tierHigh (h : Hub) (t : Nat) : Nat := fld (tget 0 h.tierwm t) 63 32

/-- Whether a page of `size` bytes holds bytes of a paged dense table of the partition. -/
def Partition.pagedAt (p : Partition) (va size : Nat) : Bool :=
  p.tables.any fun e => match e.2 with
    | some t => tKind t == 0 && tPaged t && decide (tHeap t < va + size ∧ va < tHeap t + tCap t * tWidth t)
    | none => false

/-- The pages that may be demoted from a tier: partition, virtual address and size. -/
def State.demotables (s : State) (tier : Nat) : List (Nat × Nat × Nat) :=
  s.parts.flatMap fun p => ((s.pages p.1).filter fun e => spaceOf e.2.1 == tier && p.2.pagedAt e.1 e.2.2).map fun e =>
    (p.1, e.1, e.2.2)

/-- How many units have been used since a page last was. -/
def State.idleFor (s : State) (e : Nat × Nat × Nat) : Nat :=
  (s.lru.takeWhile fun u => !(u.1 == e.1 && u.2 * 65536 / e.2.2 == e.2.1 / e.2.2)).length

/-- Whether a page may be demoted from a tier, and is the least recently accessed of those that may; one never accessed
comes before all that were (DESIGN CHOICE, log 39). -/
def State.oldest (s : State) (tier part va : Nat) : Bool :=
  let all := s.demotables tier
  match all.find? fun e => decide (e.1 = part ∧ e.2.1 ≤ va ∧ va < e.2.1 + e.2.2) with
  | some e => all.all fun x => decide (s.idleFor x ≤ s.idleFor e)
  | none => false

/-- A tier below LOW demotes pages of paged dense tables to the next tier until HIGH, the least recently accessed first;
host memory is only reported, each time that it falls below LOW. -/
def execTierDemotion (tier part va : Nat) (s : State) : Host.Outcome State Fault Refusal :=
  let h := s.hub
  let free := tierFree h tier
  let on := h.demoting.contains tier
  if 3 < tier then .next s
  else if tierLow h tier = 0 ∨ (tierLow h tier ≤ free ∧ (tier = 3 ∨ tierHigh h tier ≤ free)) then
    .next { s with hub := { h with demoting := h.demoting.filter fun t => t != tier } }
  else if !on && decide (tierLow h tier ≤ free) then .next s
  else
    let s1 : State := if on then s else { s with hub := { h with demoting := tier :: h.demoting } }
    if tier = 3 then .next (if on then s else s1.logError Config.hostTierRecord)
    else if s.inTier (tier + 1) 0 && s.oldest tier part va then
      .next (s1.beginMove part va (tier + 1) false)
    else .next s1

/-! ### The aperture and peers (R336, R337, R339) -/

/-- A partition's virtual address at an aperture offset. -/
def apertureVa (p : Partition) (off : Nat) : Nat := fld p.apbase 43 16 * 65536 + off

/-- What stops an access of `n` bytes: the first address that is not mapped, or not writable; a page being moved. -/
def State.apertureStop (s : State) (part va n : Nat) (wr : Bool) : Option Walk :=
  (List.range (n / 65536 + 2)).findSome? fun i =>
    let a := if i = 0 then va else va / 65536 * 65536 + i * 65536
    if va + n ≤ a then none
    else match s.walk part a with
      | .ok _ _ _ w => if wr && !w then some .miss else none
      | x => some x

/-- Split a range at its pages, and act on each part by its key, with the page's discards carried out. -/
def State.perPage (s : State) (part : Nat) (f : State → Nat → Nat → Nat → State) : Nat → Nat → Nat → State
  | 0, _, _ => s
  | fuel + 1, va, n =>
    if n = 0 then s
    else
      let k := pagePiece va n
      let s := (s.applyDrops part va).noteUse part va
      let s := match s.walk part va with
        | .ok key _ _ _ => f s va key k
        | _ => s
      s.perPage part f fuel (va + k) (n - k)

/-- The bytes of a mapped range at their home points. -/
def State.vaRead (s : State) (part va n : Nat) : List Byte :=
  (List.range n).map fun i => match s.walk part (va + i) with
    | .ok k _ _ _ => s.byte k
    | _ => 0

/-- Whether a mapped range meets poison. -/
def State.vaPoison (s : State) (part va n : Nat) : Bool :=
  (List.range n).any fun i => match s.walk part (va + i) with
    | .ok k _ _ _ => s.poisoned k 1
    | _ => false

/-- The pages of a range with their discards carried out. -/
def State.touchVa (s : State) (part va n : Nat) : State := s.perPage part (fun s _ _ _ => s) (n / 65536 + 2) va n

/-- A write of a mapped range at the home points. -/
def State.apertureWrite (s : State) (part va : Nat) (bs : List Byte) : State :=
  s.perPage part (fun s a key k => (s.setD (s.leafOf part a)).homeWrite part a key ((bs.drop (a - va)).take k))
    (bs.length / 65536 + 2) va bs.length

/-- The report of an inbound access that finds no page. -/
def State.apertureMiss (s : State) (part va : Nat) : State :=
  s.report part [reportHdr 7 0 0 10 0xFFFFFFFF 0 0 0 (BitVec.ofNat 64 va)]

/-- An inbound access to a range: it waits while a page is being moved; a missing page is reported, and `refused` says what
is answered; else `go` acts on the range. -/
def State.inbound (s : State) (part va n : Nat) (wr : Bool) (refused : State → State) (go : State → State) : State :=
  match s.apertureStop part va n wr with
  | some (.busy _) => s
  | some _ => refused (s.apertureMiss part va)
  | none => go (s.touchVa part va n)

/-- The answer to a request: 0 and the data; 1, Completer Abort or a refusal; 2, poisoned. -/
def State.answers (s : State) (a : List DWord) : State := { s with answer := a }

/-- An inbound atomic at the home L2 slice: the answer is 0 and the old value. -/
def State.inboundAtomic (s : State) (part va : Nat) (op : AOp) (ty : ITy) (b c : DWord) : State :=
  match s.walk part va with
  | .ok key _ _ _ =>
    let n := ty.width / 8
    let s := s.recall (lineOf key)
    let old : DWord := BitVec.ofNat 64 (s.rdNat key n)
    (match atomicNew op ty old b c with
      | some new => s.apertureWrite part va (natBytes new.toNat n)
      | none => s).answers [0, old]
  | _ => s

/-- Whether the aperture of a partition reaches a range. -/
def State.apertureHas (s : State) (part off n : Nat) : Bool := s.managed && decide (part < 32 ∧ off + n ≤ 2 ^ 36)

/-- A host read of BAR2. The answer is 0 and the bytes, or 1 for Completer Abort. DESIGN CHOICE (log 65): the host's
accesses take poisoned bytes as they stand. -/
def execInboundApertureRead (part off n : Nat) (s : State) : Host.Outcome State Fault Refusal :=
  let va := apertureVa (s.partn part) off
  .next (if s.apertureHas part off n then
      s.inbound part va n false (·.answers [1])
        fun s => s.answers (0 :: (s.vaRead part va n).map fun b => b.setWidth 64)
    else s)

/-- A host write of BAR2. -/
def execInboundApertureWrite (part off : Nat) (bytes : List Byte) (s : State) : Host.Outcome State Fault Refusal :=
  let va := apertureVa (s.partn part) off
  .next (if s.apertureHas part off bytes.length then
      s.inbound part va bytes.length true id fun s => s.apertureWrite part va bytes
    else s)

/-- An AtomicOp of the host on BAR2, which a link in mode 0 completes at 32 and 64 bits (R336). -/
def State.hostAtomic (s : State) (part off : Nat) (op : AOp) (ty : ITy) (b c : DWord) : State :=
  let va := apertureVa (s.partn part) off
  let n := ty.width / 8
  if s.apertureHas part off n && pcieOp op && va % n == 0 then
    s.inbound part va n true (·.answers [1]) fun s => s.inboundAtomic part va op ty b c
  else s

/-- Whether PEERACL admits a sender: READ loads, SIGNAL stores and atomics. -/
def Partition.admits (p : Partition) (dev part bit : Nat) : Bool :=
  (List.range 8).any fun i => aclFor (tget 0 p.peeracl i) dev part && fbit (tget 0 p.peeracl i) bit

/-- A peer's operation on a gate of this part, or on one that has moved within it; where the gate has gone to another part
the answer is 4 and the gate's name there (R319; DESIGN CHOICE, log 45). -/
def State.peerGate (s : State) (dev part n right : Nat) (op : PeerOp) : State :=
  if gateNum n then
    let k := s.gateHome (gateKey s.devNum n)
    if k / 65536 ≠ s.devNum then s.answers [4, BitVec.ofNat 64 k]
    else match s.farGate dev part (k % 65536) right op with
      | some (a, s) => s.answers a
      | none => s
  else s.answers [1]

/-- A peer's request to this part (R339), or its operation on a gate (R282). A load or atomic is answered with 0 and the
data, 1 where it is refused, 2 where it meets poison; of a store that meets poison nothing is written (R332). -/
def execPeerRequest (part srcDev srcPart off : Nat) (op : PeerOp) (s : State) : Host.Outcome State Fault Refusal :=
  let p := s.partn part
  let va := apertureVa p off
  let load := p.admits srcDev srcPart 30
  let store := p.admits srcDev srcPart 28
  let there := fun n => s.apertureHas part off n
  .next (if !(s.managed && s.onSkein) then s
    else match op with
      | .load n =>
        if !load || !there n then s.answers [1]
        else s.inbound part va n false (·.answers [1]) fun s =>
          if s.vaPoison part va n then s.answers [2] else s.answers (0 :: (s.vaRead part va n).map fun b => b.setWidth 64)
      | .store bs =>
        if !store || !there bs.length then s.logError (Config.refusedStoreRecord srcDev srcPart off)
        else s.inbound part va bs.length true id fun s =>
          if s.vaPoison part va bs.length then s else s.apertureWrite part va bs
      | .atomic a ty b c =>
        if !store || !pcieOp a || !there (ty.width / 8) then s.answers [1]
        else s.inbound part va (ty.width / 8) true (·.answers [1]) fun s =>
          if s.vaPoison part va (ty.width / 8) then s.answers [2] else s.inboundAtomic part va a ty b c
      | .gsig gate _ => s.peerGate srcDev srcPart gate 28 op
      | .gread gate => s.peerGate srcDev srcPart gate 30 op
      | .gwait gate _ => s.peerGate srcDev srcPart gate 29 op)

/-- A granule of a peer's memory is poisoned there (R332). -/
def State.farPoison (s : State) (key : Nat) : State := if isPeer key then s.addPoison key else s

/-! ### Skein ports (R341) -/

/-- A port that fails retry is taken down; its pairs move to the remaining ports. -/
def execSkeinPortDown (port : Nat) (s : State) : Host.Outcome State Fault Refusal :=
  if port < 20 then .next { s with hub := { s.hub with skcfg := setFld s.hub.skcfg (10 + port) (10 + port) 0 } } else .next s

/-- A retried flit is delivered once and in order: no state changes. -/
def execLinkLevelRetry (port : Nat) (s : State) : Host.Outcome State Fault Refusal :=
  let _ := port
  .next s

end Sys2Proof.Machine
end

