-- ==== Sys2Proof/Machine/Hub.lean ====
section
/-! DEFINITION. Resets and the boot sequence (R343, R344), attestation (R345), power (R346), and errors, self-tests and
retirement (R89, R330 to R334). -/

namespace Sys2Proof.Machine

/-! ### The boot sequence (R344) -/

def imgLen (img : List Byte) : Nat := leNat ((img.drop 4).take 4)
def imgVersion (img : List Byte) : Nat := leNat ((img.drop 8).take 8)
def imgBody (img : List Byte) : List Byte := (img.drop 192).take (imgLen img)
def imgBig (img : List Byte) (off : Nat) : Nat := beNat ((img.drop off).take 32)

/-- Whether the boot ROM accepts an image: its public key, its signature and its security version. -/
def imageOk (img : List Byte) : Bool :=
  decide (192 + imgLen img ≤ img.length) && sha256 ((img.drop 48).take 64) == Config.fuseKeyHash &&
    ecdsaVerify (imgBig img 48) (imgBig img 80) (imgBig img 128) (imgBig img 160) (sha256 (img.take 128 ++ imgBody img)) &&
    decide (Config.fuseMinVersion ≤ imgVersion img)

/-- Link modes as trained: with mode 1 asked of both links, link 0 trains in mode 0 and PERR bit 5 is set (R336). -/
def Hub.train (h : Hub) : Hub :=
  let h := { h with skcfg := setFld h.skcfg 29 10 Config.trainedPorts.toNat }
  if h.cxlAsk.1 && h.cxlAsk.2 then { h with cxl := (false, true), perr := h.perr ||| 32 } else { h with cxl := h.cxlAsk }

/-- The hub after the boot ROM has read the flash: firmware runs, or the hub is in recovery. -/
def Hub.boot_ (h : Hub) : Hub :=
  match h.flash with
  | none => h.train
  | some img =>
    if imageOk img then { h with fw := some (BitVec.ofNat 64 (imgVersion img), sha256 (imgBody img)) }.train
    else { h with boot := .recovery }

/-- A reset: all device state is cleared but memory that `keep` picks; the module's flash and configuration, and the
memory outside the device, stay. -/
def State.clear (s : State) (keep : Nat → Bool) : State :=
  let h : Hub := { Hub.reset with flash := s.hub.flash, cxlAsk := s.hub.cxlAsk }
  let outside := fun (k : Nat) => decide (3 ≤ spaceOf k)
  { State.reset with
    mem := s.mem.filter (fun c => outside c.1 || keep (spaceOf c.1))
    poison := s.poison.filter (fun g => outside (g * 64) || keep (spaceOf (g * 64)))
    hub := h.boot_
    sched := s.sched }

/-- Power-on or the management connector. -/
def execColdReset (s : State) : Host.Outcome State Fault Refusal := .next (s.clear fun _ => false)

/-- A write of 0x0000_5A01 to PWRSTATE, or a reset of the physical function, in recovery too: HBM and the LPDDR tier keep
their contents. -/
def execWarmReset (s : State) : Host.Outcome State Fault Refusal := .next (s.clear fun t => decide (t ≤ 1))

/-- A function-level reset of a partition's virtual function: its grids are aborted; once they are gone its spools are
disabled and its register window returns to its reset values. The step is taken again until then. -/
def execFunctionLevelReset (part : Nat) (s : State) : Host.Outcome State Fault Refusal :=
  let p := s.partn part
  if !s.managed || decide (32 ≤ part) then .next s
  else if p.grids.isEmpty then
    .next (s.setPartn part { p with spools := [], stalestat := 0, staleref := 0, trapcfg := 0 })
  else .next (p.grids.foldl (fun s g => s.abort part g.spool g.pos) s)

/-- In recovery a new image is written through the mailbox. -/
def execMailboxImageWrite (image : List Byte) (s : State) : Host.Outcome State Fault Refusal :=
  if s.managed then .next s else .next { s with hub := { s.hub with flash := some image } }

/-! ### Attestation (R345) -/

/-- The security version and the body digest of the firmware that runs. -/
def State.firmware (s : State) : DWord × BitVec 256 := s.hub.fw.getD (Config.factoryVersion, Config.factoryDigest)

/-- The first 192 bytes of a report: of a partition, or of the whole part. -/
def State.attest (s : State) (part : Option Nat) (nonce : List Byte) : List Byte :=
  let fw := s.firmware
  let remap := (List.range 256).flatMap fun c => natBytes (s.remapEntry c).toNat 4
  let own := match part with
    | none => []
    | some n =>
      let p := s.partn n
      natBytes p.pcfg.toNat 8 ++ (List.range 16).flatMap fun i => natBytes (p.windowAt i).toNat 32
  let time := match part with
    | none => 0
    | some n => (s.partn n).timeval.toNat
  natBytes 1 4 ++ natBytes (part.getD 0xFFFFFFFF) 4 ++ nonce ++ beBytes fw.2.toNat 32 ++
    beBytes (sha256 (Config.fuseSummary ++ remap ++ own)).toNat 32 ++ natBytes fw.1.toNat 8 ++ natBytes time 8 ++
    List.replicate 72 0

/-- Bytes as words of 8. -/
def toDWords : Nat → List Byte → List DWord
  | 0, _ => []
  | n + 1, bs => BitVec.ofNat 64 (leNat (bs.take 8)) :: toDWords n (bs.drop 8)

/-- A request through a virtual function names its partition; one through the mailbox covers the part, and is answered
with the key's certificate too. -/
def execAttestationRequest (part : Option Nat) (nonce : List Byte) (s : State) : Host.Outcome State Fault Refusal :=
  if !s.managed || nonce.length != 32 || decide (32 ≤ part.getD 0) then .next s
  else
    let body := s.attest part nonce
    let report := toDWords 32 (body ++ beBytes (Config.attestationSign body).toNat 64)
    .next { s with answer := report ++ (if part.isNone then Config.attestationCert s.firmware.2 else []) }

/-! ### Power (R346) -/

/-- What the cores hold is written back and dropped when they go off. -/
def State.coresOff (s : State) : State :=
  let s := s.cores.foldl (fun s c => s.clearCore c.1) s
  s.clusters.foldl (fun s c => (s.cluster c.1).hot.foldl (fun s h => s.writeBack c.1 h true) s) s

/-- A write of 0x0000_5A02 to PWRSTATE. -/
def execStandbyEntry (s : State) : Host.Outcome State Fault Refusal :=
  if !s.managed || s.hub.power == .p2 then .next s
  else if s.parts.any fun p => pEN p.2 then .next (s.setPerr 4)
  else
    let s := s.coresOff
    .next { s with hub := { s.hub with power := .p2 } }

/-- A write of another value to PWRSTATE in P2. -/
def execStandbyExit (s : State) : Host.Outcome State Fault Refusal :=
  if s.managed then .next { s with hub := { s.hub with power := .p0 } } else .next s

/-- A cluster with no resident team enters P1. -/
def execClusterIdle (cluster : Nat) (s : State) : Host.Outcome State Fault Refusal :=
  if Config.clusters ≤ cluster || s.teams.any fun e => match e.2 with
      | some t => t.core / 8 == cluster
      | none => false
  then .next s
  else .next (s.setCluster cluster { s.cluster cluster with idle := true })

/-! ### Errors (R330 to R334) -/

/-- The report of a hardware error (type 9) or of a retired unit (type 10). -/
def State.hwReport (s : State) (type code src : Nat) (tie : ErrTie) (addr : Nat) : State :=
  s.report tie.part [reportHdr type 0 code src tie.pos tie.spool tie.slot 0 (BitVec.ofNat 64 addr)]

/-- A unit's number in the reports: SRC and ADDR. -/
def unitSrc : Unit334 → Nat × Nat
  | .memRow a => (7, a)
  | .l2Line a => (8, a)
  | .core c => (6, c)
  | .bobbin n => (9, n)
  | .hub => (10, 0)
  | .link n => (10, n)

/-- Whether a unit cannot be retired. -/
def unitFixed : Unit334 → Bool
  | .bobbin _ | .hub | .link _ => true
  | _ => false

/-- Whether a unit is one that the part has (R2). -/
def unitHere : Unit334 → Bool
  | .core c => decide (c < Config.cores)
  | _ => true

/-- Whether an address lies in device memory, or in host memory reached as a tier (R2). -/
def State.inMemory (s : State) (key : Nat) : Bool := decide (spaceOf key < 4) && s.inTier (spaceOf key) (key % 2 ^ 64)

/-- A lasting fault is retired, or the part is degraded; a report of type 10 follows that of the fault. -/
def State.retire (s : State) (u : Unit334) (tie : ErrTie) : State :=
  let (src, addr) := unitSrc u
  let s := match u with
    | .core c =>
      { s.setCore c { s.core c with noTeam := true } with
        hub := { s.hub with dead := s.hub.dead ++ [fld (s.remapEntry c) 9 0] } }
    | _ => if unitFixed u then { s with hub := { s.hub with degraded := true } } else s
  s.hwReport 10 (if unitFixed u then 1 else 0) src (noTie tie.part) addr

/-- The report of an error and, for a lasting fault, the retirement. -/
def State.errorReport (s : State) (u : Unit334) (code : Nat) (tie : ErrTie) (addr : Nat) : State :=
  let s := s.hwReport 9 code (unitSrc u).1 tie addr
  if code = 2 then s.retire u tie else s

/-- Halt groups of a team after an error in core state: the team's end carries code 4 (R333). -/
def State.haltGroups (s : State) (n : Nat) (hit : Nat → Bool) : State :=
  match s.team n with
  | none => s
  | some t =>
    let groups := (List.range t.groups.length).filterMap fun i => (t.groups[i]?).map fun g =>
      if hit i && !g.ended then { g with halted := true } else g
    s.setTeam n (some { t with groups := groups, coreErr := true })

/-- An uncorrectable error: memory is poisoned, an index meets it on its paths, core state halts its groups; the type-9
report carries the self-test's result. -/
def execUncorrectableError (w : ErrWhere) (lasting : Bool) (tie : ErrTie) (s : State) : Host.Outcome State Fault Refusal :=
  let code := if lasting then 2 else 1
  match w with
  | .granule a =>
    if !s.inMemory a then .next s
    else .next ((s.addPoison a).errorReport (.memRow (a % 2 ^ 64)) code tie (a % 2 ^ 64))
  | .line a =>
    let base := a / 128 * 128
    if !s.inMemory a then .next s
    else .next (((s.addPoison base).addPoison (base + 64)).errorReport (.l2Line (a % 2 ^ 64)) code tie (base % 2 ^ 64))
  | .index part slot => match s.table part slot with
    | none => .next s
    | some t =>
      match tIndexed t, s.walk part (tIndexVa t) with
      | true, .ok key _ _ _ =>
        let a := key % 2 ^ 64
        .next ((s.setTable part slot (some { t with bad := true })).errorReport (.memRow a) code { tie with slot := slot } a)
      | _, _ => .next s
  | .group r => match s.group r with
    | none => .next s
    | some (t, _) => .next ((s.haltGroups r.team fun i => i == r.grp).errorReport (.core t.core) code (teamTie t) t.core)
  | .team n => match s.team n with
    | none => .next s
    | some t => .next ((s.haltGroups n fun _ => true).errorReport (.core t.core) code (teamTie t) t.core)

/-- A corrected error changes no value. -/
def execCorrectedError (w : ErrWhere) (s : State) : Host.Outcome State Fault Refusal :=
  let _ := w
  .next s

/-- The self-test after a corrected error: contents are saved, tested and restored, and the result is reported. -/
def execSelfTest (unit : Unit334) (lasting : Bool) (tie : ErrTie) (s : State) : Host.Outcome State Fault Refusal :=
  .next (if unitHere unit then s.errorReport unit (if lasting then 2 else 0) tie (unitSrc unit).2 else s)

/-- Whether a physical core is the spare of the physical cluster of a logical core: no logical core maps to it, and it has
not been retired. -/
def State.spare (s : State) (c n : Nat) : Bool :=
  decide (n ≤ 8) && ((List.range 8).all fun i => fld (s.remapEntry (c / 8 * 8 + i)) 3 0 != n) &&
    !s.hub.dead.contains (fld (setFld (s.remapEntry c) 3 0 n) 9 0)

/-- Firmware rewrites the entry of a retired logical core once no team is resident on it: to the spare core, or invalid. -/
def execRemapRewrite (core : Nat) (entry : Option Nat) (s : State) : Host.Outcome State Fault Refusal :=
  let resident := s.teams.any fun e => match e.2 with
    | some t => t.core == core
    | none => false
  if Config.cores ≤ core || !(s.core core).noTeam || resident then .next s
  else
    let old := s.remapEntry core
    let put := fun (e : Word) =>
      let s := s.clearCore core
      let s := s.setCore core { s.core core with noTeam := false, tlb := [] }
      { s with remap := tset (State.remapEntry { s with remap := [] } core) s.remap core e }
    match entry with
    | some n => if s.spare core n then .next (put (setFld old 3 0 n)) else .next s
    | none =>
      if (List.range 9).any fun n => s.spare core n then .next s
      else .next (put (setFld old 31 31 0))

end Sys2Proof.Machine
end

