-- ==== Sys2Proof/Machine/Bar.lean ====
section
/-! DEFINITION. The registers of BAR0 as the host reads and writes them (R5, R335): the partition register window of a
virtual function and the management block of the physical function. Function 0 is the physical one, function n + 1
belongs to partition n. -/

namespace Sys2Proof.Machine

/-- Two 32-bit registers, the first at the lower offset. -/
def pair32 (lo hi : Word) : DWord := hi ++ lo

/-- The 8 bytes at an offset of a partition's register window; SUPACK, which is write-only, and what is reserved read
zero. -/
def Partition.windowReg (p : Partition) (off : Nat) : DWord :=
  if off = 0x1800 then p.stalestat
  else if off = 0x1808 then p.staleref
  else if off = 0x1810 then p.trapcfg
  else if 0x2000 ≤ off ∧ off < 0x2200 then
    let sp := p.spool ((off - 0x2000) / 32)
    match off % 32 / 8 with
    | 0 => sp.cfg
    | 1 => pair32 sp.head sp.tail
    | 2 => pair32 sp.done sp.stat
    | _ => 0
  else if 0x2200 ≤ off ∧ off < 0x2300 ∧ off % 16 = 0 then (p.spool ((off - 0x2200) / 16)).cq
  else 0

/-- The 8 bytes at an offset of a partition's management registers. -/
def Partition.manageReg (p : Partition) (off : Nat) : DWord :=
  match off / 8 with
  | 0 => p.pcfg
  | 1 => p.thrdebt
  | 2 => p.wdlim
  | 3 => p.ptroot
  | 4 => p.dlcfg
  | 5 => p.timeval
  | 6 => p.timectl
  | 7 => p.walloff
  | 8 => p.apbase
  | n => if n < 13 then pair32 (tget 0 p.peeracl (2 * (n - 9))) (tget 0 p.peeracl (2 * (n - 9) + 1)) else 0

/-- PWRSTATE as it reads (R346). -/
def Power.code : Power → DWord
  | .p0 => 0
  | .p2 => 2

/-- The 8 bytes at an offset of the management block. DESIGN CHOICE (log 65): what the map does not name reads zero. -/
def State.manageReg (s : State) (off : Nat) : DWord :=
  let h := s.hub
  if off = 0x10 then pair32 h.perr 0
  else if off = 0x100 then h.power.code
  else if off = 0x108 then h.pwrcap
  else if off = 0x200 then h.elbase
  else if off = 0x208 then pair32 h.eltail h.elhead
  else if 0x100000 ≤ off ∧ off < 0x102000 then (s.partn ((off - 0x100000) / 256)).manageReg (off % 256)
  else if 0x104000 ≤ off ∧ off < 0x108000 then
    let e := (s.partn ((off - 0x104000) / 512)).windowAt (off % 512 / 32)
    BitVec.ofNat 64 (fld e (64 * (off % 32 / 8) + 63) (64 * (off % 32 / 8)))
  else if off = 0x180000 then h.tqbase
  else if off = 0x180008 then pair32 h.tqtail h.tqdone
  else if off = 0x180010 then pair32 h.tqstat 0
  else if 0x180100 ≤ off ∧ off < 0x180140 then
    let t := (off - 0x180100) / 16
    if off % 16 = 0 then tget 0 h.tierwm t else BitVec.ofNat 64 (tierFree h t)
  else if 0x200000 ≤ off ∧ off < 0x200400 then
    pair32 (s.remapEntry ((off - 0x200000) / 4)) (s.remapEntry ((off - 0x200000) / 4 + 1))
  else if off = 0x201000 then h.skcfg
  else 0

/-- The firmware and attestation mailbox, all that the management block exposes in recovery (R344). -/
def inMailbox (off : Nat) : Bool := decide (0x10000 ≤ off ∧ off < 0x11000)

/-- The 8 bytes at an offset of a function's BAR0. DESIGN CHOICE (log 65): the mailbox, whose contents the manual does
not lay out, reads zero; so does in recovery what is not exposed. -/
def State.barReg (s : State) (fn off : Nat) : DWord :=
  if !s.managed then 0
  else if fn = 0 then (if inMailbox off then 0 else s.manageReg off)
  else (s.partn (fn - 1)).windowReg off

/-- Whether a function's BAR0 has `n` bytes at an offset: aligned 4 or 8. -/
def barHas (fn off n : Nat) : Bool :=
  decide (fn ≤ 32) && (n == 4 || n == 8) && off % n == 0 && decide (off < (if fn = 0 then 2 ^ 24 else 2 ^ 16))

/-- A read of 4 or 8 bytes of a function's BAR0: the answer is what they hold. -/
def State.hostRead (s : State) (fn off n : Nat) : State :=
  if barHas fn off n then
    let v := (s.barReg fn (off / 8 * 8)).toNat / 2 ^ (8 * (off % 8))
    s.answers [BitVec.ofNat 64 (v % 2 ^ (8 * n))]
  else s

/-- A write at an offset of a partition's register window. -/
def windowWrite (part off : Nat) (v : DWord) (s : State) : Host.Outcome State Fault Refusal :=
  let w : Word := v.setWidth 32
  let n := (off - 0x2000) / 32
  if off = 0x1800 then execRegisterWrite (.stalestat part) v s
  else if off = 0x1810 then execRegisterWrite (.trapcfg part) v s
  else if off = 0x1818 then execSupackWrite part w s
  else if 0x2000 ≤ off ∧ off < 0x2200 then
    match off % 32 with
    | 0 => execRegisterWrite (.spcfg part n) v s
    | 0xC => execSptailWrite part n w s
    | 0x14 => execRegisterWrite (.spstat part n) v s
    | _ => .next s
  else if 0x2200 ≤ off ∧ off < 0x2300 ∧ off % 16 = 0 then execRegisterWrite (.cqcfg part ((off - 0x2200) / 16)) v s
  else .next s

/-- A write at an offset of a partition's management registers. -/
def partWrite (part off : Nat) (v : DWord) (s : State) : Host.Outcome State Fault Refusal :=
  match off with
  | 0x00 => execRegisterWrite (.pcfg part) v s
  | 0x08 => execThrdebtWrite part v s
  | 0x10 => execRegisterWrite (.wdlim part) v s
  | 0x18 => execRegisterWrite (.ptroot part) v s
  | 0x20 => execRegisterWrite (.dlcfg part) v s
  | 0x28 => execRegisterWrite (.timeval part) v s
  | 0x30 => execTimectlWrite part v s
  | 0x38 => execRegisterWrite (.walloff part) v s
  | 0x40 => execRegisterWrite (.apbase part) v s
  | _ =>
    if 0x48 ≤ off ∧ off < 0x68 ∧ off % 4 = 0 then execRegisterWrite (.peeracl part ((off - 0x48) / 4)) v s else .next s

/-- A write of PWRSTATE (R346). -/
def powerWrite (v : DWord) (s : State) : Host.Outcome State Fault Refusal :=
  if v = 0x5A01 then execWarmReset s else if v = 0x5A02 then execStandbyEntry s else execStandbyExit s

/-- A write at an offset of the management block. -/
def manageWrite (off : Nat) (v : DWord) (s : State) : Host.Outcome State Fault Refusal :=
  let reg := fun (r : RegName) => execRegisterWrite r v s
  if off = 0x10 then reg .perr
  else if off = 0x100 then powerWrite v s
  else if off = 0x108 then reg .pwrcap
  else if off = 0x200 then reg .elbase
  else if off = 0x20C then reg .elhead
  else if 0x100000 ≤ off ∧ off < 0x102000 then partWrite ((off - 0x100000) / 256) (off % 256) v s
  else if 0x104000 ≤ off ∧ off < 0x108000 ∧ off % 8 = 0 then
    reg (.window ((off - 0x104000) / 512) (off % 512 / 32) (off % 32 / 8))
  else if off = 0x180000 then reg .tqbase
  else if off = 0x180008 then reg .tqtail
  else if off = 0x180010 then reg .tqstat
  else if 0x180100 ≤ off ∧ off < 0x180140 ∧ off % 16 = 0 then reg (.tierwm ((off - 0x180100) / 16))
  else if off = 0x201000 then execSkcfgWrite v s
  else reg (.readOnly off)

/-- A write of the register at an offset of a function's BAR0, by its width; read-only and reserved ones ignore it, and in
recovery none is there. -/
def hostWrite (fn off : Nat) (v : DWord) (s : State) : Host.Outcome State Fault Refusal :=
  if !s.managed || decide (32 < fn) then .next s
  else if fn = 0 then manageWrite off v s
  else windowWrite (fn - 1) off v s

end Sys2Proof.Machine
end

