-- ==== Sys2Proof/Machine/Exchange.lean ====
section
/-! DEFINITION. Lane exchange (R148 to R152): only lanes that take part are read. -/

namespace Sys2Proof.Machine

/-- The segment widths of SHFL (R149). -/
def segWidth (seg : BitVec 3) : Nat := 32 / 2 ^ seg.toNat

/-- The source lane of SHFL for lane `l` (R149): its own where the source lies outside the segment or takes no part. -/
def shflLane (mode : ShMode) (w : Nat) (act : Lanes) (l n : Nat) : Nat :=
  let i := l % w
  let base := l - i
  let j : Int := match mode with
    | .idx => n
    | .up => (i : Int) - n
    | .down => (i : Int) + n
    | .xor => ((i ^^^ n : Nat) : Int)
  if 0 ≤ j ∧ j < w ∧ act.getLsbD (base + j.toNat) then base + j.toNat else l

def execShfl (h : Hdr) (mode : ShMode) (seg : BitVec 3) (d a : BitVec 10) (n : ShN) (s : State) :=
  onLanesOp (.shfl h mode seg d a n) s fun x =>
    x.g.wrLanes x.act (.reg d) 1 fun l =>
      let k := match n with
        | .imm w => w.toNat
        | .vec b => (x.g.rdV b.toNat l).toNat
      (x.g.rdV a.toNat (shflLane mode (segWidth seg) x.act l k)).toNat

/-- The lanes that take part and whose predicate, inverted or not, is true (R150). -/
def Iss.voteTrue (x : Iss) (inv : Bool) (a : BitVec 3) : Lanes :=
  x.act &&& (if inv then ~~~(x.g.rdP a.toNat) else x.g.rdP a.toNat)

def execVoteBallot (h : Hdr) (inv : Bool) (d : BitVec 10) (a : BitVec 3) (s : State) :=
  onLanesOp (.voteBallot h inv d a) s fun x => x.g.wrS d.toNat ((x.voteTrue inv a).setWidth 64)
def execVoteAny (h : Hdr) (inv : Bool) (d a : BitVec 3) (s : State) :=
  onLanesOp (.voteAny h inv d a) s fun x =>
    x.g.wrPOn d.toNat x.act (if x.voteTrue inv a = 0 then 0 else allOnes)
def execVoteAll (h : Hdr) (inv : Bool) (d a : BitVec 3) (s : State) :=
  onLanesOp (.voteAll h inv d a) s fun x =>
    x.g.wrPOn d.toNat x.act (if x.voteTrue inv a = x.act then allOnes else 0)
def execVoteUni (h : Hdr) (inv : Bool) (d a : BitVec 3) (s : State) :=
  onLanesOp (.voteUni h inv d a) s fun x =>
    x.g.wrPOn d.toNat x.act
      (if x.voteTrue inv a = x.act ∨ x.voteTrue inv a = 0 then allOnes else 0)

/-- One combination of REDG and SCANG (R151). -/
def combine (op : ROp) (ty : ITy) (a b : DWord) : DWord × Word :=
  let f := fun (r : Nat × Word) => (BitVec.ofNat 64 r.1, r.2)
  match op with
  | .add => iaddF ty false a b
  | .min => iminF ty a b
  | .max => imaxF ty a b
  | .and => (a &&& b, 0)
  | .or => (a ||| b, 0)
  | .xor => (a ^^^ b, 0)
  | .fadd => f (fadd .f32 .rn false (fdec .f32 a.toNat) (fdec .f32 b.toNat))
  | .fmin => f (fminmax .f32 false a.toNat b.toNat)
  | .fmax => f (fminmax .f32 true a.toNat b.toNat)

/-- The identity of an operation (R151). -/
def identity (op : ROp) (ty : ITy) : DWord :=
  match op with
  | .add | .or | .xor | .fadd => 0
  | .and => low ty.width (~~~0)
  | .min => tofInt ty (tgreatest ty)
  | .max => tofInt ty (tleast ty)
  | .fmin => BitVec.ofNat 64 (fInf .f32)
  | .fmax => BitVec.ofNat 64 (fSign .f32 true + fInf .f32)

/-- A value beside the flags it took; absent where no lane contributes. -/
abbrev Part := Option (DWord × Word)

def joinParts (op : ROp) (ty : ITy) : Part → Part → Part
  | none, b => b
  | a, none => a
  | some a, some b => let r := combine op ty a.1 b.1; some (r.1, a.2 ||| b.2 ||| r.2)

/-- One level of the fixed tree: adjacent pairs are combined. -/
def treeLevel (op : ROp) (ty : ITy) : List Part → List Part
  | a :: b :: r => joinParts op ty a b :: treeLevel op ty r
  | r => r

/-- The five levels over lane positions 0 to 31. -/
def treeReduce (op : ROp) (ty : ITy) : Nat → List Part → Part
  | 0, ps => ps.headD none
  | n + 1, ps => treeReduce op ty n (treeLevel op ty ps)

/-- The value of lane `l`, if it takes part. -/
def Iss.part (x : Iss) (ty : ITy) (a : BitVec 10) (l : Nat) : Part :=
  if x.act.getLsbD l then some (BitVec.ofNat 64 (x.g.rdN a.toNat l ty.regs), 0) else none

/-- The extension of a reduction in a scalar register (R151): sign for .s32, zero for .b32 and .f32. -/
def redResult (op : ROp) (ty : ITy) (v : DWord) : DWord :=
  match op with
  | .fadd | .fmin | .fmax => v
  | _ => scalarResult ty v

/-- DESIGN CHOICE (log 73): flags come from combinations only (R151): a signalling NaN of the one participating lane, which
no node combines, sets no IV. -/
def execRedg (h : Hdr) (op : ROp) (ty : ITy) (toV : Bool) (d a : BitVec 10) (s : State) :=
  onLanesOp (.redg h op ty toV d a) s fun x =>
    match treeReduce op ty 5 ((List.range 32).map (x.part ty a)) with
    | none => x.g
    | some (v, fl) =>
      (if toV then x.g.wrLanes x.act (.reg d) ty.regs fun _ => v.toNat
        else x.g.wrS d.toNat (redResult op ty v)).orNF fl

/-- One step of SCANG. The first value stands as the result of a lane, and a NaN among results is the canonical one, with
IV where it signals (R114); only REDG's nodes pass a value on unchanged (R151). -/
def scanJoin (op : ROp) (ty : ITy) (acc p : Part) : Part :=
  match acc, p with
  | none, some b =>
    if op.isF && (fdec .f32 b.1.toNat).isNaN then
      some (BitVec.ofNat 64 (fNaN .f32), b.2 ||| sigFlag [fdec .f32 b.1.toNat])
    else p
  | _, _ => joinParts op ty acc p

/-- The running combinations of a scan in ascending lane order: for each lane the value before it and with it. -/
def scanList (op : ROp) (ty : ITy) (f : Nat → Part) : List Nat → Part → List (Nat × Part × Part)
  | [], _ => []
  | l :: r, acc => let now := scanJoin op ty acc (f l); (l, acc, now) :: scanList op ty f r now

/-- DESIGN CHOICE (log 73): under .excl the value of the last participating lane enters no result, so a signalling NaN
there sets no IV (R114, R151). -/
def execScang (h : Hdr) (op : ROp) (ty : ITy) (excl : Bool) (d a : BitVec 10) (s : State) :=
  onLanesOp (.scang h op ty excl d a) s fun x =>
    let res := scanList op ty (x.part ty a) (laneList x.act) none
    let val := fun (p : Part) => match p with | some v => v.1.toNat | none => (identity op ty).toNat
    let g := res.foldl (fun g r => g.wrN d.toNat r.1 (val (if excl then r.2.1 else r.2.2)) ty.regs) x.g
    let used := if excl then (res.getLast?.map fun r => r.2.1).getD none else (res.getLast?.map fun r => r.2.2).getD none
    g.orNF (match used with | some v => v.2 | none => 0)

/-- Find the row that holds flattened position `f` (R152): lane and offset. -/
def rebalFind : List (Nat × Nat) → Nat → Option (Nat × Nat)
  | [], _ => none
  | (j, n) :: r, f => if f < n then some (j, f) else rebalFind r (f - n)

def execRebal (h : Hdr) (d : BitVec 10) (p : BitVec 3) (a b : BitVec 10) (s : State) :=
  onLanesOp (.rebal h d p a b) s fun x =>
    let rows := (laneList x.act).map fun j => (j, (x.g.rdV a.toNat j).toNat)
    let base := (x.g.rdS b.toNat).toNat % 2 ^ 32
    let find := fun l => rebalFind rows (base + ((laneList x.act).filter fun k => k < l).length)
    let g := x.g.wrLanes x.act (.reg d) 2 fun l => match find l with
      | some (j, o) => j + 2 ^ 32 * o
      | none => 0
    g.wrPOn p.toNat x.act (lanesWhere x.act fun l => (find l).isSome)

end Sys2Proof.Machine
end

