-- ==== Sys2Proof/Machine/Dispatch.lean ====
section
/-! DEFINITION. What each instruction does: one arm for each constructor, each a direct call of its meaning. -/

namespace Sys2Proof.Machine

def exec (i : Instr) (s : State) : Host.Outcome State Fault Refusal :=
  match i with
  | .nop h => Sys2Proof.Machine.execNop h s
  | .bra h c disp => Sys2Proof.Machine.execBra h c disp s
  | .brx h c a off => Sys2Proof.Machine.execBrx h c a off s
  | .call h c d disp => Sys2Proof.Machine.execCall h c d disp s
  | .ret h c a => Sys2Proof.Machine.execRet h c a s
  | .mif inv d a => Sys2Proof.Machine.execMif inv d a s
  | .melse a => Sys2Proof.Machine.execMelse a s
  | .mend a => Sys2Proof.Machine.execMend a s
  | .rgn len idem conv ws => Sys2Proof.Machine.execRgn len idem conv ws s
  | .exit h => Sys2Proof.Machine.execExit h s
  | .prioPassImm h t => Sys2Proof.Machine.execPrioPassImm h t s
  | .prioPassReg h a => Sys2Proof.Machine.execPrioPassReg h a s
  | .spawn h d a spool => Sys2Proof.Machine.execSpawn h d a spool s
  | .ltrig h => Sys2Proof.Machine.execLtrig h s
  | .icinv h sc a b => Sys2Proof.Machine.execIcinv h sc a b s
  | .icinvAcknowledge g core => Sys2Proof.Machine.execIcinvAcknowledge g core s
  | .iadd h o => Sys2Proof.Machine.execIadd h o s
  | .iaddc h w64 d a b po cie pi => Sys2Proof.Machine.execIaddc h w64 d a b po cie pi s
  | .isub h o => Sys2Proof.Machine.execIsub h o s
  | .imul h o => Sys2Proof.Machine.execImul h o s
  | .imulh h o => Sys2Proof.Machine.execImulh h o s
  | .imad h o c => Sys2Proof.Machine.execImad h o c s
  | .imin h o => Sys2Proof.Machine.execImin h o s
  | .imax h o => Sys2Proof.Machine.execImax h o s
  | .iabs h o => Sys2Proof.Machine.execIabs h o s
  | .and h o => Sys2Proof.Machine.execAnd h o s
  | .or h o => Sys2Proof.Machine.execOr h o s
  | .xor h o => Sys2Proof.Machine.execXor h o s
  | .not h o => Sys2Proof.Machine.execNot h o s
  | .shl h o => Sys2Proof.Machine.execShl h o s
  | .shr h o => Sys2Proof.Machine.execShr h o s
  | .sar h o => Sys2Proof.Machine.execSar h o s
  | .bfe h o => Sys2Proof.Machine.execBfe h o s
  | .bfi h o ctl => Sys2Proof.Machine.execBfi h o ctl s
  | .popc h o => Sys2Proof.Machine.execPopc h o s
  | .clz h o => Sys2Proof.Machine.execClz h o s
  | .brev h o => Sys2Proof.Machine.execBrev h o s
  | .iset h cmp ty d a b => Sys2Proof.Machine.execIset h cmp ty d a b s
  | .sel h ty d a b pc inv => Sys2Proof.Machine.execSel h ty d a b pc inv s
  | .mov h w64 f => Sys2Proof.Machine.execMov h w64 f s
  | .mtx h d a => Sys2Proof.Machine.execMtx h d a s
  | .mtxIdx h d a => Sys2Proof.Machine.execMtxIdx h d a s
  | .mtxAdd h d imm => Sys2Proof.Machine.execMtxAdd h d imm s
  | .mfsr h out d sr => Sys2Proof.Machine.execMfsr h out d sr s
  | .mtsr len sr a => Sys2Proof.Machine.execMtsr len sr a s
  | .fadd h o => Sys2Proof.Machine.execFadd h o s
  | .fsub h o => Sys2Proof.Machine.execFsub h o s
  | .fmul h o => Sys2Proof.Machine.execFmul h o s
  | .ffma h o c => Sys2Proof.Machine.execFfma h o c s
  | .fmin h d a b => Sys2Proof.Machine.execFmin h d a b s
  | .fmax h d a b => Sys2Proof.Machine.execFmax h d a b s
  | .fset h cmp d a b => Sys2Proof.Machine.execFset h cmp d a b s
  | .frcp h o => Sys2Proof.Machine.execFrcp h o s
  | .frsq h d a => Sys2Proof.Machine.execFrsq h d a s
  | .fsqrt h o => Sys2Proof.Machine.execFsqrt h o s
  | .fexp2 h d a => Sys2Proof.Machine.execFexp2 h d a s
  | .flog2 h d a => Sys2Proof.Machine.execFlog2 h d a s
  | .fsin h d a => Sys2Proof.Machine.execFsin h d a s
  | .fcos h d a => Sys2Proof.Machine.execFcos h d a s
  | .ftanh h d a => Sys2Proof.Machine.execFtanh h d a s
  | .fsigm h d a => Sys2Proof.Machine.execFsigm h d a s
  | .pfadd h o => Sys2Proof.Machine.execPfadd h o s
  | .pfmul h o => Sys2Proof.Machine.execPfmul h o s
  | .pffma h o c => Sys2Proof.Machine.execPffma h o c s
  | .cvt h dt st el mode sat d a => Sys2Proof.Machine.execCvt h dt st el mode sat d a s
  | .pack h hi fmt mode sat d a b => Sys2Proof.Machine.execPack h hi fmt mode sat d a b s
  | .shfl h mode seg d a n => Sys2Proof.Machine.execShfl h mode seg d a n s
  | .voteBallot h inv d a => Sys2Proof.Machine.execVoteBallot h inv d a s
  | .voteAny h inv d a => Sys2Proof.Machine.execVoteAny h inv d a s
  | .voteAll h inv d a => Sys2Proof.Machine.execVoteAll h inv d a s
  | .voteUni h inv d a => Sys2Proof.Machine.execVoteUni h inv d a s
  | .redg h op ty toV d a => Sys2Proof.Machine.execRedg h op ty toV d a s
  | .scang h op ty excl d a => Sys2Proof.Machine.execScang h op ty excl d a s
  | .rebal h d p a b => Sys2Proof.Machine.execRebal h d p a b s
  | .lds h o => Sys2Proof.Machine.execLds h o s
  | .sts h o => Sys2Proof.Machine.execSts h o s
  | .atoms h o a => Sys2Proof.Machine.execAtoms h o a s
  | .dld h o => Sys2Proof.Machine.execDld h o s
  | .dst h o => Sys2Proof.Machine.execDst h o s
  | .tld h o => Sys2Proof.Machine.execTld h o s
  | .tst h o => Sys2Proof.Machine.execTst h o s
  | .fetch h o => Sys2Proof.Machine.execFetch h o s
  | .wait len ld st cp mx => Sys2Proof.Machine.execWait len ld st cp mx s
  | .waitp path a => Sys2Proof.Machine.execWaitp path a s
  | .tlk h o => Sys2Proof.Machine.execTlk h o s
  | .tins h o => Sys2Proof.Machine.execTins h o s
  | .tups h o => Sys2Proof.Machine.execTups h o s
  | .tdel h o => Sys2Proof.Machine.execTdel h o s
  | .tseek h o => Sys2Proof.Machine.execTseek h o s
  | .tnext h w d p k cur => Sys2Proof.Machine.execTnext h w d p k cur s
  | .tkey h w d p ref => Sys2Proof.Machine.execTkey h w d p ref s
  | .tcnt h o => Sys2Proof.Machine.execTcnt h o s
  | .tdrop h o => Sys2Proof.Machine.execTdrop h o s
  | .tableOrderPoint g op pick bad => Sys2Proof.Machine.execTableOrderPoint g op pick bad s
  | .cpy h dir bar mc d a b => Sys2Proof.Machine.execCpy h dir bar mc d a b s
  | .gath h kind bar d a b off len => Sys2Proof.Machine.execGath h kind bar d a b off len s
  | .nmc h bar d a => Sys2Proof.Machine.execNmc h bar d a s
  | .coll h bar d a => Sys2Proof.Machine.execColl h bar d a s
  | .cpyqf h bar mask => Sys2Proof.Machine.execCpyqf h bar mask s
  | .copyEngineOperation team item fail => Sys2Proof.Machine.execCopyEngineOperation team item fail s
  | .gatherEngineOperation team item fail => Sys2Proof.Machine.execGatherEngineOperation team item fail s
  | .nearMemoryCommandApply team item => Sys2Proof.Machine.execNearMemoryCommandApply team item s
  | .collectiveOperation team item ext digests => Sys2Proof.Machine.execCollectiveOperation team item ext digests s
  | .mxstart h q stream => Sys2Proof.Machine.execMxstart h q stream s
  | .mxstat d => Sys2Proof.Machine.execMxstat d s
  | .mxrd h n1 m d a => Sys2Proof.Machine.execMxrd h n1 m d a s
  | .mxwr h n1 m d a => Sys2Proof.Machine.execMxwr h n1 m d a s
  | .mxdrain h core a => Sys2Proof.Machine.execMxdrain h core a s
  | .mxrest h core a => Sys2Proof.Machine.execMxrest h core a s
  | .barinit h b a count => Sys2Proof.Machine.execBarinit h b a count s
  | .bararr h b a => Sys2Proof.Machine.execBararr h b a s
  | .barwait h b a phase => Sys2Proof.Machine.execBarwait h b a phase s
  | .bartest h d a b phase => Sys2Proof.Machine.execBartest h d a b phase s
  | .tatom h o ref => Sys2Proof.Machine.execTatom h o ref s
  | .datom h o tab key => Sys2Proof.Machine.execDatom h o tab key s
  | .barg h a => Sys2Proof.Machine.execBarg h a s
  | .gsig h a v => Sys2Proof.Machine.execGsig h a v s
  | .gwait h d a v => Sys2Proof.Machine.execGwait h d a v s
  | .grd h d a => Sys2Proof.Machine.execGrd h d a s
  | .gtry h d a v => Sys2Proof.Machine.execGtry h d a v s
  | .gateGrant g => Sys2Proof.Machine.execGateGrant g s
  | .gatePoint g op => Sys2Proof.Machine.execGatePoint g op s
  | .gateTokenRefill => Sys2Proof.Machine.execGateTokenRefill s
  | .trap h code => Sys2Proof.Machine.execTrap h code s
  | .brk h code => Sys2Proof.Machine.execBrk h code s
  | .tret h form => Sys2Proof.Machine.execTret h form s
  | .tnop => Sys2Proof.Machine.execTnop s
  | .tend => Sys2Proof.Machine.execTend s
  | .tsetq q k => Sys2Proof.Machine.execTsetq q k s
  | .tlw ws fmt q pi k => Sys2Proof.Machine.execTlw ws fmt q pi k s
  | .tmm m ws fmt acc q pi n k => Sys2Proof.Machine.execTmm m ws fmt acc q pi n k s
  | .tzero m => Sys2Proof.Machine.execTzero m s
  | .tlda m q pi k => Sys2Proof.Machine.execTlda m q pi k s
  | .tsto m fmt q pi k => Sys2Proof.Machine.execTsto m fmt q pi k s
  | .tarb b => Sys2Proof.Machine.execTarb b s
  | .twb b phase => Sys2Proof.Machine.execTwb b phase s
  | .tloop n k => Sys2Proof.Machine.execTloop n k s
  | .tileWordFetchMiss team => Sys2Proof.Machine.execTileWordFetchMiss team s
  | .stopDelivery team => Sys2Proof.Machine.execStopDelivery team s
  | .serveParkSlots g => Sys2Proof.Machine.execServeParkSlots g s
  | .loadComplete g op lanes ext => Sys2Proof.Machine.execLoadComplete g op lanes ext s
  | .storePerform g op lanes => Sys2Proof.Machine.execStorePerform g op lanes s
  | .moveHome core index => Sys2Proof.Machine.execMoveHome core index s
  | .l1Drop core line => Sys2Proof.Machine.execL1Drop core line s
  | .clusterWriteBack cluster line drop => Sys2Proof.Machine.execClusterWriteBack cluster line drop s
  | .clusterAtomicEngineBatch cluster reqs => Sys2Proof.Machine.execClusterAtomicEngineBatch cluster reqs s
  | .homeSliceAtomic g op => Sys2Proof.Machine.execHomeSliceAtomic g op s
  | .atomicopCompletion g op lane c ext => Sys2Proof.Machine.execAtomicopCompletion g op lane c ext s
  | .takeRecord part spool => Sys2Proof.Machine.execTakeRecord part spool s
  | .waitOnValue part spool => Sys2Proof.Machine.execWaitOnValue part spool s
  | .signalValue part spool => Sys2Proof.Machine.execSignalValue part spool s
  | .copyCommand part spool item fail => Sys2Proof.Machine.execCopyCommand part spool item fail s
  | .collectiveCommand part spool item ext digests => Sys2Proof.Machine.execCollectiveCommand part spool item ext digests s
  | .earlyDependentLaunch part spool => Sys2Proof.Machine.execEarlyDependentLaunch part spool s
  | .placeGang part spool pos cluster => Sys2Proof.Machine.execPlaceGang part spool pos cluster s
  | .teamEnd team => Sys2Proof.Machine.execTeamEnd team s
  | .continuationPush part index => Sys2Proof.Machine.execContinuationPush part index s
  | .completionRecord part spool pos => Sys2Proof.Machine.execCompletionRecord part spool pos s
  | .pushReport part => Sys2Proof.Machine.execPushReport part s
  | .spoolEnable part spool v => Sys2Proof.Machine.execSpoolEnable part spool v s
  | .spoolDisable part spool => Sys2Proof.Machine.execSpoolDisable part spool s
  | .sptailWrite part spool v => Sys2Proof.Machine.execSptailWrite part spool v s
  | .cqcfgEnable part spool v => Sys2Proof.Machine.execCqcfgEnable part spool v s
  | .supackWrite part v => Sys2Proof.Machine.execSupackWrite part v s
  | .registerWrite r v => Sys2Proof.Machine.execRegisterWrite r v s
  | .tableBind part slot rec => Sys2Proof.Machine.execTableBind part slot rec s
  | .tableUnbind part slot => Sys2Proof.Machine.execTableUnbind part slot s
  | .gateActivate gate rec => Sys2Proof.Machine.execGateActivate gate rec s
  | .gateFreeze gate => Sys2Proof.Machine.execGateFreeze gate s
  | .gateMigrate gate dev num => Sys2Proof.Machine.execGateMigrate gate dev num s
  | .partitionEnable part v => Sys2Proof.Machine.execPartitionEnable part v s
  | .partitionDisable part => Sys2Proof.Machine.execPartitionDisable part s
  | .sliceEnd part => Sys2Proof.Machine.execSliceEnd part s
  | .preemptRequest team => Sys2Proof.Machine.execPreemptRequest team s
  | .fullSave g => Sys2Proof.Machine.execFullSave g s
  | .teamStop team => Sys2Proof.Machine.execTeamStop team s
  | .hubArrayDrain team => Sys2Proof.Machine.execHubArrayDrain team s
  | .teamResume team => Sys2Proof.Machine.execTeamResume team s
  | .endHaltedTeam team => Sys2Proof.Machine.execEndHaltedTeam team s
  | .gridAbort part spool pos => Sys2Proof.Machine.execGridAbort part spool pos s
  | .communicatorAbort part comm => Sys2Proof.Machine.execCommunicatorAbort part comm s
  | .thermalThrottle cluster num den => Sys2Proof.Machine.execThermalThrottle cluster num den s
  | .thrdebtWrite part v => Sys2Proof.Machine.execThrdebtWrite part v s
  | .powerCapThrottle num den => Sys2Proof.Machine.execPowerCapThrottle num den s
  | .hangWatchdogExpiry part spool pos => Sys2Proof.Machine.execHangWatchdogExpiry part spool pos s
  | .inval => Sys2Proof.Machine.execInval s
  | .resume => Sys2Proof.Machine.execResume s
  | .move => Sys2Proof.Machine.execMove s
  | .discard => Sys2Proof.Machine.execDiscard s
  | .tierDemotion tier part va => Sys2Proof.Machine.execTierDemotion tier part va s
  | .pageMove dest => Sys2Proof.Machine.execPageMove dest s
  | .timectlWrite part v => Sys2Proof.Machine.execTimectlWrite part v s
  | .windowEnable part index v => Sys2Proof.Machine.execWindowEnable part index v s
  | .windowDisable part index => Sys2Proof.Machine.execWindowDisable part index s
  | .inboundApertureRead part off n => Sys2Proof.Machine.execInboundApertureRead part off n s
  | .inboundApertureWrite part off bytes => Sys2Proof.Machine.execInboundApertureWrite part off bytes s
  | .peerRequest part srcDev srcPart off op => Sys2Proof.Machine.execPeerRequest part srcDev srcPart off op s
  | .skeinPortDown port => Sys2Proof.Machine.execSkeinPortDown port s
  | .skcfgWrite v => Sys2Proof.Machine.execSkcfgWrite v s
  | .coldReset => Sys2Proof.Machine.execColdReset s
  | .warmReset => Sys2Proof.Machine.execWarmReset s
  | .functionLevelReset part => Sys2Proof.Machine.execFunctionLevelReset part s
  | .mailboxImageWrite image => Sys2Proof.Machine.execMailboxImageWrite image s
  | .attestationRequest part nonce => Sys2Proof.Machine.execAttestationRequest part nonce s
  | .standbyEntry => Sys2Proof.Machine.execStandbyEntry s
  | .standbyExit => Sys2Proof.Machine.execStandbyExit s
  | .clusterIdle cluster => Sys2Proof.Machine.execClusterIdle cluster s
  | .uncorrectableError w lasting tie => Sys2Proof.Machine.execUncorrectableError w lasting tie s
  | .correctedError w => Sys2Proof.Machine.execCorrectedError w s
  | .selfTest unit lasting tie => Sys2Proof.Machine.execSelfTest unit lasting tie s
  | .remapRewrite core entry => Sys2Proof.Machine.execRemapRewrite core entry s
  | .unassignedEncoding sub len => Sys2Proof.Machine.execUnassignedEncoding sub len s
  | .codeFetchFault e => Sys2Proof.Machine.execCodeFetchFault e s
  | .unassignedTileWord sub => Sys2Proof.Machine.execUnassignedTileWord sub s
  | .tileWordFetchFault e => Sys2Proof.Machine.execTileWordFetchFault e s
  | .linkLevelRetry port => Sys2Proof.Machine.execLinkLevelRetry port s
  | .completionTimeout g op lane => Sys2Proof.Machine.execCompletionTimeout g op lane s
  | .thermalThrottleEnd cluster => Sys2Proof.Machine.execThermalThrottleEnd cluster s
  | .powerCapThrottleEnd => Sys2Proof.Machine.execPowerCapThrottleEnd s

end Sys2Proof.Machine
end

