-- ==== Sys2Proof/Machine/Agents.lean ====
section
/-! DEFINITION. The agents of the machine: how a group fetches and issues (R90 to R95), how the sequencer runs (R226),
caches and the clock (R90, R312, R320), and which agent moves where the schedule names none. -/

namespace Sys2Proof.Machine

/-! ### A group's turn -/

/-- The state in which a group executes: its fetch has used its page, it is the one that issues, and its records show the
base word. -/
def State.asCur (s : State) (r : GRef) (t : Team) (g : Group) (w0 : Word) : State :=
  { ((s.useCode t g.pc.toNat).putGroup r { g with insn := w0 }) with cur := some r }

/-- What an encoding that is no instruction comes to: the lowest subcode, of the encoding's own and of those that need
the group's state (R65). -/
def State.badSub (s : State) (t : Team) (g : Group) (sub : Nat) (loose : Option Instr) : Nat :=
  let dyn := match loose with
    | some i => s.dynSubs t g i
    | none => []
  match least dyn with
  | some n => min n sub
  | none => sub

/-- MXRD and MXWR are held while the array is frozen (R239). -/
def Team.arrayFree (t : Team) (i : Instr) : Bool :=
  match i, t.arr with
  | .mxrd _ _ _ _ _, some a | .mxwr _ _ _ _ _, some a => a.st != 5
  | _, _ => true

/-- The memory requests of one lane of an instruction, as log 68 counts them. -/
def Instr.memNeed : Instr → Nat
  | .dld _ _ | .dst _ _ | .tld _ _ | .tst _ _ | .tatom _ _ _ | .datom _ _ _ _ => 1
  | .fetch _ o => o.n1.toNat + 1
  | i => if Instr.path i = some .tb then 1 else 0

/-- The requests of an operation that have still to perform. -/
def Pend.memLeft (o : Pend) : Nat := if o.kind.isTable || o.kind.isFetch || o.path == .tb then o.lanes.length else 0

/-- A core's outstanding memory requests. -/
def State.outstanding (s : State) (core : Nat) : Nat :=
  s.teams.foldl
    (fun n e => match e.2 with
      | some t => if t.core = core then t.groups.foldl (fun n g => g.pend.foldl (fun n o => n + o.memLeft) n) n else n
      | none => n) 0

/-- Whether a core can take an instruction's requests: it has at most 2,048 outstanding (R2). DESIGN CHOICE (log 68): each
lane's access on the table, FETCH and TB paths counts, each element of a FETCH for itself, and an instruction that would
pass the limit waits before it issues. -/
def State.requestRoom (s : State) (t : Team) (g : Group) (i : Instr) : Bool :=
  Instr.memNeed i == 0 || decide (s.outstanding t.core + popcount (g.takingPart i) * Instr.memNeed i ≤ 2048)

/-- Whether a fetched instruction may issue: registers, path counter, requests and array allow it (R2, R92, R127,
R156). -/
def State.mayIssue (s : State) (t : Team) (g : Group) (i : Instr) : Bool :=
  s.interlock t g i && g.pathFree i && s.requestRoom t g i && t.arrayFree i

/-- What a group does next, and the state in which it does it: it serves its parks, or issues what it fetches. None
where it must wait (R92, R296). -/
def State.pick (s : State) (r : GRef) : Option (Instr × State) :=
  match s.group r with
  | none => none
  | some (t, g) =>
    if (g.restarts (s.completes t g)).isSome then some (.fullSave r, s)
    else if g.serves then some (.serveParkSlots r, s)
    else if !g.canIssue || g.awaits then none
    else
      let g := g.wake
      match s.fetch t g.pc.toNat with
      | .range w0 => some (.codeFetchFault .range, s.asCur r t g (w0.getD 0))
      | .miss _ => some (.codeFetchFault .translation, s.asCur r t g 0)
      | .busy => none
      | .poison _ _ w0 => some (.codeFetchFault .poisoned, s.asCur r t g (w0.getD 0))
      | .got _ .short => none
      | .got w0 (.bad sub len loose) =>
        some (.unassignedEncoding (BitVec.ofNat 8 (s.badSub t g sub loose)) len, s.asCur r t g w0)
      | .got w0 (.ok i) => if s.mayIssue t g i then some (i, s.asCur r t g w0) else none

/-! ### Issue policy (R92 to R95) -/

/-- The engine class of an opcode: CTL, INT, FPA, SFN, XCH, MEM, TBL, ENG and SYS as 0 to 8 (R93). -/
def opClass (op : Nat) : Option Nat :=
  if 0x01 ≤ op ∧ op ≤ 0x0F then some 0
  else if 0x10 ≤ op ∧ op ≤ 0x2F then some 1
  else if (0x30 ≤ op ∧ op ≤ 0x36) ∨ (0x40 ≤ op ∧ op ≤ 0x44) then some 2
  else if 0x37 ≤ op ∧ op ≤ 0x3F then some 3
  else if 0x50 ≤ op ∧ op ≤ 0x57 then some 4
  else if 0x58 ≤ op ∧ op ≤ 0x61 then some 5
  else if 0x68 ≤ op ∧ op ≤ 0x6F then some 6
  else if 0x70 ≤ op ∧ op ≤ 0x7D then some 7
  else if 0x7E ≤ op ∧ op ≤ 0x7F then some 8
  else none

/-- Whether an instruction issues in a state: an issue clears the group's count of the cycles in which it was passed over
(R95), which a wait leaves as it is; nothing issues where the group stops at a head (R304). -/
def State.issuesIn (s : State) (r : GRef) (i : Instr) : Bool :=
  match s.group r with
  | none => false
  | some (_, g) => match exec i (s.putGroup r { g with starve := 1 }) with
    | .next s' => (match s'.group r with
      | some (_, g') => g'.starve == 0 && g'.stop != .stopped
      | none => true)
    | _ => true

/-- A group's next turn: what it executes, what that comes to, and whether it issues an instruction by it. A group that
serves its parks, stops, meets a fault of its code fetch or waits issues none. -/
structure Going where
  i      : Instr
  out    : Host.Outcome State Fault Refusal
  issues : Bool

def State.going (s : State) (r : GRef) : Option Going :=
  match s.pick r with
  | none => none
  | some (i, s1) =>
    let issues := match i with
      | .serveParkSlots _ | .codeFetchFault _ | .fullSave _ => false
      | i => s1.issuesIn r i
    some { i := i, out := exec i s1, issues := issues }

/-- A ready group with what decides whether it issues. -/
structure Ready where
  r      : GRef
  out    : Host.Outcome State Fault Refusal
  cls    : Option Nat
  forced : Bool
  token  : Bool
  idle   : Nat

/-- An idle counter of a quadrant. -/
def Core.idleAt (c : Core) (quad cls : Nat) : BitVec 8 := tget 0 c.idle (9 * quad + cls)

/-- The class of the instruction at which a group stands. -/
def State.classAt (s : State) (t : Team) (g : Group) : Option Nat :=
  match s.fetch t g.wake.pc.toNat with
  | .got w0 _ => opClass (fld w0 8 2)
  | _ => none

/-- A group as one of a quadrant's ready groups, if it is ready. -/
def State.ready (s : State) (r : GRef) : Option Ready :=
  match s.group r, s.going r with
  | some (t, g), some m =>
    if m.issues then
      let cls := s.classAt t g
      some { r := r, out := m.out, cls := cls, forced := decide (64 ≤ g.starve), token := t.token == some r.grp,
             idle := match cls with
               | some k => ((s.core t.core).idleAt ((t.base + r.grp) % 4) k).toNat
               | none => 0 }
    else none
  | _, _ => none

/-- The ready groups of a quadrant, oldest first. -/
def State.readyGroups (s : State) (core quad : Nat) : List Ready :=
  s.teams.flatMap fun e => match e.2 with
    | none => []
    | some t =>
      if t.core ≠ core then []
      else (List.range t.groups.length).filterMap fun n =>
        if (t.base + n) % 4 ≠ quad then none else s.ready ⟨e.1, n⟩

/-- The first group of a list with the largest idle counter. -/
def mostIdle : List Ready → Option Ready
  | [] => none
  | a :: l => match mostIdle l with
    | none => some a
    | some b => if a.idle < b.idle then some b else some a

/-- The choice among ready groups (R94). -/
def choose (l : List Ready) : Option Ready :=
  match l.find? Ready.forced with
  | some a => some a
  | none => match l.find? Ready.token with
    | some a => some a
    | none => mostIdle l

/-- One cycle of a quadrant's idle counters, in which it issued an instruction of a class, or none. -/
def Core.cycle (c : Core) (quad : Nat) (issued : Option Nat) : Core :=
  let idle := (List.range 9).foldl
    (fun m k => tset 0 m (9 * quad + k)
      (if issued = some k then 0 else if c.idleAt quad k = 255 then 255 else c.idleAt quad k + 1)) c.idle
  { c with idle := idle }

/-- A ready group is passed over (R95). -/
def State.passOver (s : State) (r : GRef) : State :=
  match s.group r with
  | some (_, g) => s.putGroup r { g with starve := g.starve + 1 }
  | none => s

/-- The counters after a cycle in which a quadrant with ready groups `l` has issued an instruction of group `a`. -/
def State.account (s : State) (core quad : Nat) (l : List Ready) (a : Ready) : State :=
  let s := (l.filter fun b => b.r != a.r).foldl (fun s b => s.passOver b.r) s
  s.setCore core ((s.core core).cycle quad a.cls)

/-- One cycle of a quadrant: it issues at most one instruction, of the group that the policy chooses. -/
def State.policy (s : State) (core quad : Nat) : Host.Outcome State Fault Refusal :=
  let l := s.readyGroups core quad
  match choose l with
  | none => .next (s.setCore core ((s.core core).cycle quad none))
  | some a => match a.out with
    | .next s => .next (s.account core quad l a)
    | o => o

/-- A group's turn: it serves its parks, faults at its fetch or waits; or its quadrant has its cycle, if it is this group
that the policy chooses. -/
def State.issue (s : State) (r : GRef) : Host.Outcome State Fault Refusal :=
  match s.group r, s.going r with
  | some (t, _), some m =>
    if !m.issues then m.out
    else
      let quad := (t.base + r.grp) % 4
      match choose (s.readyGroups t.core quad) with
      | some a => if a.r = r then s.policy t.core quad else .next s
      | none => .next s
  | _, _ => .next s

/-! ### The sequencer (R226) -/

/-- What the sequencer of a team does next: the TWB that is pending, as BN and PH hold it (R242), or the word it fetches. -/
def State.tilePick (s : State) (n : Nat) : Option (Instr × State) :=
  match s.team n with
  | none => none
  | some t => match t.arr with
    | none => none
    | some a =>
      let used := { s.useTile t a.spc.toNat with seq := some n }
      let run := fun (w : DWord) =>
        let s := used.setTeam n (some { t with arr := some { a with word := w } })
        match decodeTile w with
        | .ok i => (i, s)
        | .bad sub => (.unassignedTileWord (BitVec.ofNat 8 sub), s)
      if a.st = 2 then some (.twb a.bn a.ph, { s with seq := some n })
      else if a.st ≠ 1 ∨ a.miss then none
      else match s.tfetch t a.spc.toNat with
        | .range => some (.tileWordFetchFault .range, { s with seq := some n })
        | .poison => some (.tileWordFetchFault .poisoned, used)
        | .miss _ => some (.tileWordFetchMiss n, s)
        | .busy => none
        | .got w => some (run w)

def State.tile (s : State) (n : Nat) : Host.Outcome State Fault Refusal :=
  match s.tilePick n with
  | some (i, s) => exec i s
  | none => .next s

/-! ### Caches and the clock -/

/-- A core fills a block of a code table of a partition that it serves, at part scope; the victim translations in its
instruction-cache lines are dropped first (R312). -/
def State.icFill (s : State) (core part slot block : Nat) : State :=
  let p := s.partn part
  match p.table slot with
  | none => s
  | some t =>
    if !pEN p || !p.coreList.contains core || decide (tBytes t ≤ 128 * block) then s
    else match s.locate (some core) part slot t (128 * block) with
      | (_, .ok k _ _ _) =>
        let s := s.useFetch core part slot t (128 * block)
        if s.poisoned k 128 || s.readWaits part k then s
        else
          let c := s.core core
          let v := bytesToBits (s.rd k 128)
          s.setCore core { c with icache := tset none c.icache (icKey part slot block) (some v), icVict := [] }
      | _ => s

/-- The level's translations with one entry gone: of a core (0), a cluster (1) or a die (2). -/
def State.tlbEvict (s : State) (level at_ index : Nat) : State :=
  match level with
  | 0 => s.setCore at_ { s.core at_ with tlb := (s.core at_).tlb.eraseIdx index }
  | 1 => s.setCluster at_ { s.cluster at_ with tlb := (s.cluster at_).tlb.eraseIdx index }
  | _ => { s with tlb := tset [] s.tlb at_ ((tget [] s.tlb at_).eraseIdx index) }

/-- A core's translation moves to an idle instruction-cache line, or to an idle scratchpad unit, if it has one (R312). -/
def State.tlbSpill (s : State) (core index : Nat) (ic : Bool) : State :=
  let c := s.core core
  let used := s.teams.foldl
    (fun n e => match e.2 with
      | some t => if t.core = core then n + shSCR t.shape else n
      | none => n) 0
  match c.tlb[index]? with
  | none => s
  | some e =>
    let c' := { c with tlb := c.tlb.eraseIdx index }
    if ic then s.setCore core { c' with icVict := c.icVict ++ [e] }
    else if used < 384 then s.setCore core { c' with spVict := c.spVict ++ [e] }
    else s

/-- The host, or a peer, writes memory of its own. -/
def State.farWrite (s : State) (key : Nat) (bs : List Byte) : State :=
  if isWindow key then (s.wr key bs).clearPoison key bs.length else s

/-- A peer's partition, by its space, refuses what units of this device read there, or answers them again (R339). -/
def State.farDeny (s : State) (space : Nat) (on : Bool) : State :=
  { s with denied := if on && decide (32 ≤ space) then ninsert space s.denied else s.denied.filter fun n => n != space }

/-! ### Choosing -/

/-- The steps of the opcode table that no group and no sequencer executes. -/
def isEvent : Instr → Bool
  | .icinvAcknowledge _ _ | .tableOrderPoint _ _ _ _ | .copyEngineOperation _ _ _ | .gatherEngineOperation _ _ _
  | .nearMemoryCommandApply _ _ | .collectiveOperation _ _ _ _ | .gateGrant _ | .gatePoint _ _ | .gateTokenRefill
  | .tileWordFetchMiss _ | .stopDelivery _ | .serveParkSlots _ | .loadComplete _ _ _ _ | .storePerform _ _ _
  | .moveHome _ _ | .l1Drop _ _ | .clusterWriteBack _ _ _ | .clusterAtomicEngineBatch _ _ | .homeSliceAtomic _ _
  | .atomicopCompletion _ _ _ _ _ | .takeRecord _ _ | .waitOnValue _ _ | .signalValue _ _ | .copyCommand _ _ _ _
  | .collectiveCommand _ _ _ _ _ | .earlyDependentLaunch _ _ | .placeGang _ _ _ _ | .teamEnd _ | .continuationPush _ _
  | .completionRecord _ _ _ | .pushReport _ | .spoolEnable _ _ _ | .spoolDisable _ _ | .sptailWrite _ _ _
  | .cqcfgEnable _ _ _ | .supackWrite _ _ | .registerWrite _ _ | .tableBind _ _ _ | .tableUnbind _ _ | .gateActivate _ _
  | .gateFreeze _ | .gateMigrate _ _ _ | .partitionEnable _ _ | .partitionDisable _ | .sliceEnd _ | .preemptRequest _
  | .fullSave _ | .teamStop _ | .hubArrayDrain _ | .teamResume _ | .endHaltedTeam _ | .gridAbort _ _ _
  | .communicatorAbort _ _ | .thermalThrottle _ _ _ | .thrdebtWrite _ _ | .powerCapThrottle _ _
  | .hangWatchdogExpiry _ _ _ | .inval | .resume | .move | .discard | .tierDemotion _ _ _ | .pageMove _
  | .timectlWrite _ _ | .windowEnable _ _ _ | .windowDisable _ _ | .inboundApertureRead _ _ _
  | .inboundApertureWrite _ _ _ | .peerRequest _ _ _ _ _ | .skeinPortDown _ | .skcfgWrite _ | .coldReset | .warmReset
  | .functionLevelReset _ | .mailboxImageWrite _ | .attestationRequest _ _ | .standbyEntry | .standbyExit
  | .clusterIdle _ | .uncorrectableError _ _ _ | .correctedError _ | .selfTest _ _ _ | .remapRewrite _ _
  | .linkLevelRetry _ | .completionTimeout _ _ _ | .thermalThrottleEnd _ | .powerCapThrottleEnd => true
  | _ => false

/-- One choice of what moves next. -/
def State.act (s : State) (c : Sched) : Host.Outcome State Fault Refusal :=
  match c with
  | .issue r => s.issue r
  | .policy core quad => s.policy core quad
  | .tile n => s.tile n
  | .event i => if isEvent i then exec i s else .next s
  | .icFill core part slot block => .next (s.icFill core part slot block)
  | .icEvict core key =>
    let c := s.core core
    .next (s.setCore core { c with icache := tset none c.icache key none })
  | .ftEvict core line =>
    let c := s.core core
    .next (s.setCore core { c with ft := tset none c.ft line none })
  | .tlbEvict level at_ index => .next (s.tlbEvict level at_ index)
  | .tlbSpill core index ic => .next (s.tlbSpill core index ic)
  | .l1Fill core line => .next (s.anyFill core line)
  | .drain part stream => .next (s.drainPost part stream)
  | .farWrite key bs => .next (s.farWrite key bs)
  | .tierFree tier units => .next (s.countFree tier units)
  | .hostRead fn off n => .next (s.hostRead fn off n)
  | .hostWrite fn off v => hostWrite fn off v s
  | .hostAtomic part off op ty b c => .next (s.hostAtomic part off op ty b c)
  | .cxlConfig a b => .next { s with hub := { s.hub with cxlAsk := (a, b) } }
  | .farPoison key => .next (s.farPoison key)
  | .farDeny space on => .next (s.farDeny space on)
  | .partIn part p ts bad => .next (s.partIn part p ts bad)
  | .partOut part => .next (s.partOut part)
  | .gateIn from_ g => .next (s.gateIn from_ g)
  | .half r op lane hi ext => .next (s.halfLane r op lane hi ext)
  | .tick ns turns far => .next (s.tick ns turns far)

/-- The team whose near-memory engine a choice runs. -/
def Sched.nearTeam : Sched → Option Nat
  | .event (.nearMemoryCommandApply n _) => some n
  | _ => none

/-- Whether a step leaves alone the rows that bobbin units hold: their bytes, and their lines, which no cluster point takes
(R322). Only the near-memory engine of team `but` changes a row of its own. -/
def State.keepsHeld (s s' : State) (but : Option Nat) : Bool :=
  let old := s.heldSpans but
  (s'.heldSpans but).all fun p => !old.contains p || (s'.rd p.1 p.2 == s.rd p.1 p.2 &&
    !s'.clusters.any fun c => c.2.hot.any fun h => spansMeet [(128 * h.line, 128)] [p])

/-- The state with every byte of the held rows changed: what writes such a byte with the value that it has shows here. -/
def State.flipHeld (s : State) (but : Option Nat) : State :=
  (s.heldSpans but).foldl (fun (s : State) p => s.wr p.1 ((s.rd p.1 p.2).map fun b => ~~~b)) s

/-- Whether a choice that comes to `s'` writes no byte of a row that a bobbin unit holds. -/
def State.spares (s s' : State) (c : Sched) : Bool :=
  (s.heldSpans c.nearTeam).isEmpty || (s.keepsHeld s' c.nearTeam &&
    match (s.flipHeld c.nearTeam).act c with
    | .next t => (s.flipHeld c.nearTeam).keepsHeld t c.nearTeam
    | _ => true)

/-- A choice that a held row keeps back has no effect. -/
def State.actHeld (s : State) (c : Sched) : Host.Outcome State Fault Refusal :=
  match s.act c with
  | .next s' => .next (if s.spares s' c then s' else s)
  | o => o

/-! ### What moves where the schedule names nothing (R110, R255) -/

/-- The lanes of an operation that the device completes on its own: those that ask no peer. -/
def Pend.ownLanes (o : Pend) : Lanes :=
  o.mask &&& ~~~lanesOf ((o.lanes.filter fun q => !q.zero && isPeer q.addr).map LaneReq.lane)

/-- The requests of an operation that a peer has to answer: where the schedule names no answer they time out (R269, R339;
DESIGN CHOICE, log 31). -/
def Pend.timeouts (r : GRef) (o : Pend) : List Sched :=
  (o.lanes.filter fun q => !q.zero && isPeer q.addr).map fun q => .event (.completionTimeout r o.id q.lane)

/-- The step that an unfinished operation of a group waits for, where the device makes it on its own. -/
def State.opStep (s : State) (t : Team) (r : GRef) (o : Pend) : List Sched :=
  (if o.faults.isEmpty then [] else [.event (.loadComplete r o.id 0 [])]) ++
  if o.lanes.isEmpty then []
  else match o.kind with
    | .load | .fetch _ => .event (.loadComplete r o.id o.ownLanes []) :: o.timeouts r
    | .lds | .atoms _ _ | .mxrd _ => [.event (.loadComplete r o.id allOnes [])]
    | .store | .sts | .mxwr _ => [.event (.storePerform r o.id allOnes)]
    | .atom _ _ =>
      .event (if clusterScope o.scope then .clusterAtomicEngineBatch (t.core / 8) [(r, o.id)] else .homeSliceAtomic r o.id) ::
        ((o.lanes.filter fun q => isHost q.addr).map fun q =>
          .event (.atomicopCompletion r o.id q.lane .ok (BitVec.ofNat 64 (s.rdNat q.addr o.size)))) ++ o.timeouts r
    | .gsig k _ | .grd k _ | .gtry k _ _ => if (s.gateHere k).isSome then [.event (.gatePoint r ⟨o.id, 0⟩)] else []
    | .engine _ | .mx => []
    | _ => [.event (.tableOrderPoint r o.id 0 false)]

/-- A tree that combines the ranks from `lo` on one after the other. -/
def chain (lo : Nat) : Nat → RTree
  | 0 => .leaf lo
  | n + 1 => .node (chain lo n) (.leaf (lo + n + 1))

/-- What reaches a collective of ranks of this device alone. -/
def EngOp.alone (op : EngOp) : CoFar :=
  { elems := [], tree := match op.coll with | some c => chain c.lo (c.ranks.length - 1) | none => .leaf 0 }

/-- The next item of an operation. -/
def EngOp.nextItem (op : EngOp) : Nat := match op.items with | (k, _) :: _ => k | [] => 0

/-- What the near-memory engine can do with the command at place `k` of its queue: write the next element of each row that it
holds, and take up the next row. -/
def nearSteps (n k : Nat) (op : EngOp) : List Sched :=
  (op.hold.filterMap fun h => h.todo.head?.map fun e => Sched.event (.nearMemoryCommandApply n ⟨k, h.item, some e.num⟩)) ++
    if op.hold.isEmpty then [.event (.nearMemoryCommandApply n ⟨k, op.nextItem, none⟩)] else []

/-- The next item of an engine operation. -/
def engStep (n : Nat) (op : EngOp) : List Sched :=
  match op.eng with
  | .copy => [.event (.copyEngineOperation n op.nextItem false)]
  | .gather => [.event (.gatherEngineOperation n op.nextItem false)]
  | .coll => [.event (.collectiveOperation n op.nextItem op.alone [])]
  | .near | .join => []

/-- What the engines of a team can do. -/
def Team.engSteps (t : Team) (n : Nat) : List Sched :=
  t.engs.flatMap (engStep n) ++
    (List.range t.nearQueue.length).flatMap fun k => match t.nearQueue[k]? with
      | some op => nearSteps n k op
      | none => []

/-- What a team can do: its operations, its groups' turns, its stream and engines, its stop and its end. -/
def State.teamSteps (s : State) (n : Nat) (t : Team) : List Sched :=
  ((List.range t.groups.length).flatMap fun k => match t.groups[k]? with
    | none => []
    | some g => g.pend.flatMap (s.opStep t ⟨n, k⟩) ++ g.icReq.map (fun q => Sched.event (.icinvAcknowledge ⟨n, k⟩ q.1)) ++
        [.issue ⟨n, k⟩] ++ if g.asked then [.event (.fullSave ⟨n, k⟩)] else []) ++
    (if t.arr.isSome then [.tile n, .event (.stopDelivery n)] else []) ++ t.engSteps n ++
    (if t.st = .stopping ∨ (t.st = .stopped ∧ t.why ≠ EndWhy.none) then [.event (.teamStop n)] else []) ++
    (if t.st = .draining then [.event (.hubArrayDrain n)] else []) ++ [.event (.teamEnd n)]

/-- What the spooler and the hub can do for a partition. -/
def Partition.steps (p : Partition) (n : Nat) : List Sched :=
  let command := fun (g : Grid) =>
    let op := g.op.getD (g.command (if recCmd g.record = 4 then .coll else .copy))
    if g.isWork || g.retired then []
    else match recCmd g.record with
      | 1 => [Sched.event (.waitOnValue n g.spool)]
      | 2 => [.event (.signalValue n g.spool)]
      | 3 => [.event (.copyCommand n g.spool op.nextItem false)]
      | _ => [.event (.collectiveCommand n g.spool op.nextItem op.alone [])]
  (p.spools.flatMap fun e => [.event (.takeRecord n e.1), .event (.earlyDependentLaunch n e.1)]) ++
    (p.grids.flatMap fun g => p.clusterList.map (fun c => Sched.event (.placeGang n g.spool g.pos c)) ++ command g ++
      [.event (.completionRecord n g.spool g.pos)]) ++
    (List.range p.conts.length).map (fun i => .event (.continuationPush n i)) ++
    p.closing.map (fun slot => .event (.tableUnbind n slot)) ++ (if p.ending then [.event (.partitionDisable n)] else []) ++
    [.event (.pushReport n)]

/-- What the caches of a core do of themselves: outbound writes move home, and L1 copies are dropped. -/
def Core.steps (c : Core) (n : Nat) : List Sched :=
  (if c.outb.isEmpty then [] else [.event (.moveHome n 0)]) ++ c.l1.map fun e => .event (.l1Drop n e.1)

/-- The moves that engines have under way end at the lowest free place of their tier. -/
def State.moveSteps (s : State) : List Sched :=
  s.pmoves.filterMap fun e => match e.2 with
    | some m => (s.freePlace m.tier m.size).map fun a => .event (.pageMove { tier := e.1, addr := a })
    | none => none

/-- The steps that the device may take on its own, in a fixed order. -/
def State.candidates (s : State) : List Sched :=
  (s.teams.flatMap fun e => match e.2 with
    | some t => s.teamSteps e.1 t ++ (List.range 4).map fun q => .policy t.core q
    | none => []) ++
    (s.cores.flatMap fun c => c.2.steps c.1) ++
    (s.clusters.flatMap fun c => (c.2.hot.filter fun h => !h.own.isEmpty).map fun h =>
      .event (.clusterWriteBack c.1 h.line false)) ++
    s.posted.map (fun w => .drain w.part (streamOf w.addr)) ++
    (s.parts.flatMap fun e => e.2.steps e.1) ++
    s.moveSteps ++ [.event .inval, .event .resume, .event .move, .event .discard]

end Sys2Proof.Machine
end

