-- ==== Sys2Proof/Machine/Step.lean ====
section
/-! DEFINITION. One step of the machine: what the schedule names next; with none named, a round begins in which everything
that the device can do on its own has its turn. And an instruction placed where the next step fetches it. -/

namespace Sys2Proof.Machine

def step (s : State) : Host.Outcome State Fault Refusal :=
  match s.sched with
  | c :: rest => State.actHeld { s with sched := rest } c
  | [] => match s.candidates with
    | c :: rest => State.actHeld { s with sched := rest } c
    | [] => .next s

/-! ### Placing an instruction

DESIGN CHOICE (log 16): the device selects its program itself (system software enables a partition, binds a code table,
feeds a spool, and the spooler places a team). `withFetchWord` stands for that load. -/

/-- The code table of the loaded program: dense, UINT32, 64 rows of 16 bytes at virtual address 0. -/
def loadTable : Table :=
  { record := BitVec.ofNat 1024
      0x10001000000000000000000000000000000000000000000000040000000000000000000000000000000400000100100000010,
    gens := [], keys := [],
    bad := false }

/-- The work record of the loaded program: one co-resident team of one group with the array, 640 registers and 16 KiB of
scratchpad; its code table is slot 1, its code starts at offset 0. -/
def loadRecord : BitVec 256 :=
  BitVec.ofNat 256 0x1000000000000002800085000000000000000000000

def loadGrid : Grid := { newGrid 0 0 loadRecord with placed := 1 }

/-- The partition of the loaded program: enabled, whole, with its code table and grid, and a page table at 0x10000. -/
def loadPart : Partition :=
  { Partition.reset with
    pcfg := BitVec.ofNat 64 (2 ^ 48 + 5 * 2 ^ 10 + 3), ptroot := 0x10000, inSlice := true, tables := [(1, some loadTable)],
    grids := [loadGrid] }

/-- The program's team, resident, its group the one that issues; with `mx` its stream runs instead. -/
def State.load (s : State) (mx : Bool) : State :=
  let t := mkTeam 0 loadGrid s.nextGang 1 0 0 0
  let t := if mx then { t with arr := some { Arr.start with st := 1 } } else t
  let n := s.nextTeam
  let s := ((s.setPartn 0 loadPart).wrNat 0x10000 8 0x20001).wrNat 0x20000 8 0x4000007
  { s.setTeam n (some t) with nextTeam := n + 1, nextGang := s.nextGang + 1, cur := some ⟨n, 0⟩,
                              seq := if mx then some n else s.seq,
                              sched := [if mx then .tile n else .issue ⟨n, 0⟩] }

/-- Where the loaded program's code lies. -/
def loadCode : Nat := 0x4000000

/-- `s` with an instruction, whose bits are `w`, where the next step fetches it: a tile word where `nbits` is 64, else a
group instruction of 20 bytes, zero above the given bits. -/
def State.withFetchWord (s : State) (nbits w : Nat) : State :=
  if nbits = 64 then (s.load true).wr loadCode (natBytes w 8) else (s.load false).wr loadCode (natBytes w 20)

end Sys2Proof.Machine
end

