-- ==== Sys2Proof/Safety.lean ====
section
/-! DEFINITION. What claims are stated in: an instruction that issues without a trap, what its completion leaves alone,
the canonical form of the device's memory, and runs that never stop. -/

namespace Sys2Proof.Machine

/-- Group `r` executes instruction `i`, and none of the illegal-instruction subcodes that depend on the group's state
applies (R65). -/
structure Turn (s : State) (r : GRef) (t : Team) (g : Group) (i : Instr) : Prop where
  cur  : s.cur = some r
  grp  : s.group r = some (t, g)
  subs : s.dynSubs t g i = []

/-- Instruction `i` is the one that group `r` issues, and it issues without a trap: besides, no operand of a lane that
takes part lies beyond the register budget (R88) or out of an index register's bounds (R109). -/
structure Issues (s : State) (r : GRef) (t : Team) (g : Group) (i : Instr) : Prop extends Turn s r t g i where
  regs : ∀ l, l < 32 → (g.takingPart i).getLsbD l = true →
    g.regFault (t.budget r.grp) l (i.uses ++ s.keyUses t g i) = none

/-- Only one team of the device differs. -/
def OnlyTeam (s s' : State) (n : Nat) : Prop := s' = s.setTeam n (s'.team n)

/-- Of a team only group `k` differs, and, once that group has ended, who holds the token, which group the sequencer serves,
and whether its stream is abandoned (R83, R96, R227). -/
structure OnlyGroup (t t' : Team) (k : Nat) : Prop where
  others : ∀ j, j ≠ k → t'.groups[j]? = t.groups[j]?
  rest   : t' = { t with groups := t'.groups, token := t'.token, arr := t'.arr, abandon := t'.abandon }
  live   : (∀ g, t'.groups[k]? = some g → g.ended = false) →
    t'.token = t.token ∧ t'.arr = t.arr ∧ t'.abandon = t.abandon

/-- What no lane instruction touches in its group: the lanes that have exited, cursors, SF, trap mode and its registers,
parks and what waits. -/
structure Still (g g' : Group) : Prop where
  exited    : g'.exited = g.exited
  triggered : g'.triggered = g.triggered
  cursors   : g'.c = g.c
  sf        : g'.sf = g.sf
  trapRegs  : g'.trapPC = g.trapPC ∧ g'.trapCause = g.trapCause ∧ g'.trapInfo = g.trapInfo ∧ g'.trapAddr = g.trapAddr
  trap      : g'.trap = g.trap
  parks     : g'.parks = g.parks ∧ g'.whole = g.whole ∧ g'.atHead = g.atHead ∧ g'.catchUp = g.catchUp
  run       : g'.halted = g.halted ∧ g'.stop = g.stop
  waits     : g'.barg = g.barg ∧ g'.icReq = g.icReq

/-- The registers and flags that an instruction leaves alone: all but those of the classes set to true. The path queues
gain only the operations `q`. -/
structure Keeps (g g' : Group) (v s p x nf : Bool) (q : List Pend := []) : Prop where
  vecs  : v = false → ∀ n l, l < 32 → g'.rdV n l = g.rdV n l
  scals : s = false → g'.s = g.s
  preds : p = false → g'.p = g.p
  idxs  : x = false → g'.x = g.x
  flags : nf = false → g'.nf = g.nf
  em    : g'.em = g.em
  queue : g'.pend = g.pend ++ q
  still : Still g g'

/-- Instruction `i` of group `r` completes: it executes to a next state in which the group stands at `pc`, nothing
outside the group differs, and `P` holds of the group. -/
def Completes (s : State) (r : GRef) (t : Team) (i : Instr) (pc : Word) (P : Group → Prop) : Prop :=
  ∃ s' t' g', exec i s = .next s' ∧ s'.group r = some (t', g') ∧ OnlyTeam s s' r.team ∧ OnlyGroup t t' r.grp ∧
    g'.pc = pc ∧ P g'

/-- Instruction `i` of group `r` completes from `s0`, which is `s` with the instruction's effects outside its team. -/
def CompletesFrom (s s0 : State) (r : GRef) (t : Team) (i : Instr) (pc : Word) (P : Group → Prop) : Prop :=
  ∃ t' g', exec i s = .next (s0.setTeam r.team (some t')) ∧ t'.groups[r.grp]? = some g' ∧ OnlyGroup t t' r.grp ∧
    g'.pc = pc ∧ P g'

/-- Each lane that takes part holds `f l` in the `k` registers from `d` on, and every other vector register keeps its
value. -/
structure LaneResult (g g' : Group) (i : Instr) (d : VOp) (k : Nat) (f : Nat → Nat) : Prop where
  value : ∀ l, l < 32 → (g.takingPart i).getLsbD l = true → g'.rdN (g.reg d l) l k = f l
  other : ∀ n l, l < 32 → ((g.takingPart i).getLsbD l = true → n < g.reg d l ∨ g.reg d l + k ≤ n) →
    g'.rdV n l = g.rdV n l

/-- Scalar register `n` holds `v`, and every other keeps its value. -/
structure ScalarResult (g g' : Group) (n : Nat) (v : DWord) : Prop where
  value : g'.rdS n = v
  other : ∀ m, m ≠ n → g'.rdS m = g.rdS m

/-- Predicate `n` holds `f l` in each lane that takes part and keeps its other lanes, and every other predicate keeps its
value. -/
structure PredResult (g g' : Group) (i : Instr) (n : Nat) (f : Nat → Bool) : Prop where
  value : ∀ l, l < 32 → (g'.rdP n).getLsbD l = if (g.takingPart i).getLsbD l then f l else (g.rdP n).getLsbD l
  other : ∀ m, m ≠ n → g'.rdP m = g.rdP m

/-- The address after an instruction. -/
def Group.after (g : Group) (i : Instr) : Word := g.pc + BitVec.ofNat 32 i.len.bytes

/-- The canonical form of the device's memory. -/
def State.memWf (s : State) : Prop := Memory.wf s.mem

/-- `n` steps of the device, none of which stops. -/
inductive Runs : Nat → State → State → Prop
  | here (s : State) : Runs 0 s s
  | step {n : Nat} {s s' s'' : State} (h : step s = .next s') (r : Runs n s' s'') : Runs (n + 1) s s''

/-! ### Integer arithmetic as the manual says it (R111, R131 to R137), on exact integers and single bits -/

/-- An operand as an integer of its type. -/
def value : ITy → DWord → Int
  | .s32, v => (v.setWidth 32).toInt
  | .b32, v => (v.setWidth 32).toNat
  | .s64, v => v.toInt
  | .b64, v => v.toNat

/-- The least and the greatest integer of a type. -/
def leastOf : ITy → Int
  | .s32 => -0x80000000
  | .s64 => -0x8000000000000000
  | .b32 | .b64 => 0
def greatestOf : ITy → Int
  | .s32 => 0x7FFFFFFF
  | .b32 => 0xFFFFFFFF
  | .s64 => 0x7FFFFFFFFFFFFFFF
  | .b64 => 0xFFFFFFFFFFFFFFFF

/-- The bit pattern of an exact integer modulo the type's width. -/
def pattern (ty : ITy) (z : Int) : Nat := (z % 2 ^ ty.width).toNat

/-- What the binary integer instructions write of an exact result, and the flag SAT (bit 2) where it was clamped. -/
def written (ty : ITy) (sat : Bool) (z : Int) : Nat × Word :=
  let c := max (leastOf ty) (min z (greatestOf ty))
  if sat then (pattern ty c, if c = z then 0 else 4) else (pattern ty z, 0)

/-- The number whose bit `i`, for `i` below `w`, is `f i`. -/
def numOf (f : Nat → Bool) : Nat → Nat
  | 0 => 0
  | w + 1 => numOf f w + if f w then 2 ^ w else 0

/-- BFE: the field, and its extension (R135). -/
def fieldBit (ty : ITy) (a : DWord) (i : Nat) : Bool :=
  if i < ty.width then a.getLsbD i else ty.signed && a.getLsbD (ty.width - 1)
def extracted (ty : ITy) (a ctl : DWord) : Nat :=
  let pos := ctl.toNat % 256
  let len := min (ctl.toNat / 256 % 256) ty.width
  numOf (fun i => if len = 0 then false else if i < len then fieldBit ty a (pos + i)
    else ty.signed && fieldBit ty a (pos + len - 1)) ty.width

/-- BFI: bits pos + len - 1 to pos come from b, shifted, the others from a (R135). -/
def inserted (ty : ITy) (a b ctl : DWord) : Nat :=
  let pos := ctl.toNat % 256
  let len := ctl.toNat / 256 % 256
  numOf (fun i => if pos ≤ i ∧ i < pos + len then b.getLsbD (i - pos) else a.getLsbD i) ty.width

/-- The number of bits below `w` that are set. -/
def setBits (a : DWord) (w : Nat) : Nat := ((List.range w).filter fun i => a.getLsbD i).length
/-- Leading zero bits of a value of `w` bits. -/
def leadingZeros (a : DWord) (w : Nat) : Nat := if a = 0 then w else w - 1 - Nat.log2 a.toNat

/-- The scalar register that a result of a type leaves (R129). -/
def scalarOf : ITy → Nat → DWord
  | .s32, n => (BitVec.ofNat 32 n).signExtend 64
  | .b32, n => BitVec.ofNat 64 (n % 2 ^ 32)
  | _, n => BitVec.ofNat 64 n

/-- Integer instruction `i` with destination `d` writes, in each lane that takes part, the pattern `f l`, and in scalar
form, where one lane takes part, register `d` once; NF gains the flags of those results (R124, R128, R129, R131). -/
def IntegerResult (i : Instr) (ty : ITy) (sf : Bool) (d : VOp) (f : Group → Nat → Nat × Word) : Prop :=
  ∀ (s : State) (r : GRef) (t : Team) (g : Group), Issues s r t g i →
    (sf = false → Completes s r t i (g.after i) fun g' =>
      LaneResult g g' i d ty.regs (fun l => (f g l).1) ∧ Keeps g g' true false false false true ∧
        g'.nf = g.nf ||| flagsOver (g.takingPart i) fun l => (f g l).2) ∧
    (∀ n, sf = true → d = .reg n → g.takingPart i ≠ 0 → Completes s r t i (g.after i) fun g' =>
      ScalarResult g g' n.toNat (scalarOf ty (f g 0).1) ∧ Keeps g g' false true false false true ∧
        g'.nf = g.nf ||| (f g 0).2) ∧
    (sf = true → g.takingPart i = 0 → Completes s r t i (g.after i) fun g' => Keeps g g' false false false false false)

/-- A two-source integer instruction. -/
def TwoSource (mk : Hdr → Alu → Instr) (f : ITy → Bool → DWord → DWord → Nat × Word) : Prop :=
  ∀ h o, IntegerResult (mk h o) o.ty o.sf o.d fun g l => f o.ty o.sat (g.rdOp o.ty o.sf o.a l) (g.rdB o.ty o.sf o.b l)

/-- A three-source integer instruction. -/
def ThreeSource (mk : Hdr → Alu → VOp → Instr) (f : ITy → Bool → DWord → DWord → DWord → Nat × Word) : Prop :=
  ∀ h o c, IntegerResult (mk h o c) o.ty o.sf o.d fun g l =>
    f o.ty o.sat (g.rdOp o.ty o.sf o.a l) (g.rdB o.ty o.sf o.b l) (g.rdOp o.ty o.sf c l)

/-- A one-source integer instruction. -/
def OneSource (mk : Hdr → Alu1 → Instr) (f : ITy → Bool → DWord → Nat × Word) : Prop :=
  ∀ h o, IntegerResult (mk h o) o.ty o.sf o.d fun g l => f o.ty o.sat (g.rdOp o.ty o.sf o.a l)

/-- Instruction `i` writes the pattern `f l` to the `k` registers from `d` on of each lane that takes part, and nothing
else. -/
def VectorResult (i : Instr) (d : VOp) (k : Nat) (f : Group → Nat → Nat) : Prop :=
  ∀ (s : State) (r : GRef) (t : Team) (g : Group), Issues s r t g i → Completes s r t i (g.after i) fun g' =>
    LaneResult g g' i d k (f g) ∧ Keeps g g' true false false false false

/-- Instruction `i`, where one lane takes part, writes scalar register `n` once, and nothing else; where none does, it
writes nothing. -/
def OnceResult (i : Instr) (n : Nat) (v : Group → DWord) : Prop :=
  ∀ (s : State) (r : GRef) (t : Team) (g : Group), Issues s r t g i →
    (g.takingPart i ≠ 0 → Completes s r t i (g.after i) fun g' =>
      ScalarResult g g' n (v g) ∧ Keeps g g' false true false false false) ∧
    (g.takingPart i = 0 → Completes s r t i (g.after i) fun g' => Keeps g g' false false false false false)

/-- Instruction `i` writes predicate `n` with `f l` in each lane that takes part, and nothing else. -/
def FlagResult (i : Instr) (n : Nat) (f : Group → Nat → Bool) : Prop :=
  ∀ (s : State) (r : GRef) (t : Team) (g : Group), Issues s r t g i → Completes s r t i (g.after i) fun g' =>
    PredResult g g' i n (f g) ∧ Keeps g g' false false true false false

/-- Instruction `i` writes index register `n` with `f l` in each lane that takes part, and nothing else. -/
def IndexResult (i : Instr) (n : Nat) (f : Group → Nat → Nat) : Prop :=
  ∀ (s : State) (r : GRef) (t : Team) (g : Group), Issues s r t g i → Completes s r t i (g.after i) fun g' =>
    (∀ l, l < 32 → (g.takingPart i).getLsbD l = true → (g'.rdX n l).toNat = f g l) ∧
    (∀ m l, l < 32 → (m = n → (g.takingPart i).getLsbD l = false) → g'.rdX m l = g.rdX m l) ∧
    Keeps g g' false false false true false

/-- A park of faults that instruction `i` meets when it issues (R292, R294). -/
def parkWith (g : Group) (i : Instr) (rpl : Bool) (fs : List (Nat × LaneFault)) (op : Option Nat) : Park :=
  { rpl := rpl, async := false, pc := g.pc, next := g.after i, insn := g.insn, faults := fs, resolved := false, op := op }

/-- The park of the faults `f` that instruction `i` meets on the lanes of `m`. -/
def parkOf (g : Group) (i : Instr) (m : Lanes) (f : Nat → LaneFault) : Park :=
  parkWith g i false ((laneList m).map fun l => (l, f l)) none

/-- Instruction `i` traps on the lanes of `m` with the faults `f`: outside trap mode, with a slot free, they park, the
group goes on to the next instruction with its other lanes, and nothing else differs from `g0` (R294, R295). -/
def TrapsOn (s : State) (r : GRef) (t : Team) (g : Group) (i : Instr) (m : Lanes) (f : Nat → LaneFault)
    (g0 : Group := g) : Prop :=
  g.trap = none → g.parks.length < 4 → m ≠ 0 → ∃ op, Completes s r t i (g.after i) fun g' =>
    Keeps { g0 with parks := g.parks ++ [{ parkOf g i m f with op := op }] } { g' with em := g.em }
      false false false false false ∧ g'.em = g.em &&& ~~~m

/-- The same, from `s0`, which is `s` with the instruction's effects outside its team. -/
def TrapsFrom (s s0 : State) (r : GRef) (t : Team) (g : Group) (i : Instr) (m : Lanes) (f : Nat → LaneFault)
    (g0 : Group := g) : Prop :=
  g.trap = none → g.parks.length < 4 → m ≠ 0 → ∃ op, CompletesFrom s s0 r t i (g.after i) fun g' =>
    Keeps { g0 with parks := g.parks ++ [{ parkOf g i m f with op := op }] } { g' with em := g.em }
      false false false false false ∧ g'.em = g.em &&& ~~~m

/-! ### Floating point as the manual says it (R112 to R120), on exact numbers -/

/-- The number that a finite value stands for. -/
def FV.num : FV → Option Rat
  | .fin n m e => some ((if n then -1 else 1) * (m : Rat) * (2 : Rat) ^ e)
  | _ => none

/-- The bit pattern `b` is the number `x` rounded to a finite value of format `f` (R116). -/
def Rounds (f : Fmt) (mode : RMode) (x : Rat) (b : Nat) : Prop :=
  ∃ y, (fdec f b).num = some y ∧ ∀ c z, (fdec f c).num = some z →
    match mode with
    | .rn => (x - y).abs ≤ (x - z).abs ∧ ((x - y).abs = (x - z).abs → z = y ∨ b % 2 = 0)
    | .rz => 0 ≤ y * x ∧ y.abs ≤ x.abs ∧ (0 ≤ z * x → z.abs ≤ x.abs → z.abs ≤ y.abs)
    | .rm => y ≤ x ∧ (z ≤ x → z ≤ y)
    | .rp => x ≤ y ∧ (x ≤ z → y ≤ z)

/-- The number `y` is `x` rounded to nearest, ties to even, at FP32's fraction width, the exponent bounded below at 2^-149
and unbounded above (R116, R221). -/
def RoundsUnbounded (x y : Rat) : Prop :=
  ∃ q k : Int, -149 ≤ q ∧ y = k * (2 : Rat) ^ q ∧ (q = -149 ∨ (2 : Rat) ^ (q + 23) ≤ x.abs) ∧ x.abs < (2 : Rat) ^ (q + 24) ∧
    (x - y).abs ≤ (2 : Rat) ^ (q - 1) ∧ ((x - y).abs = (2 : Rat) ^ (q - 1) → k % 2 = 0)

/-- The largest finite value of a format and the step below it (R112). -/
def maxNum (f : Fmt) : Rat := (fMaxK f : Rat) * (2 : Rat) ^ fMaxQ f
def maxStep (f : Fmt) : Rat := (2 : Rat) ^ fMaxQ f

/-- A magnitude `x` of sign `neg` overflows: rounded with no bound on the exponent it exceeds the largest finite value
(R117). A tie above an odd largest value is rounded away. -/
def overflows (f : Fmt) (mode : RMode) (neg : Bool) (x : Rat) : Bool :=
  match mode with
  | .rn => if f = .e4m3 then decide (maxNum f + maxStep f / 2 < x) else decide (maxNum f + maxStep f / 2 ≤ x)
  | .rz => decide (maxNum f + maxStep f ≤ x)
  | .rm => if neg then decide (maxNum f < x) else decide (maxNum f + maxStep f ≤ x)
  | .rp => if neg then decide (maxNum f + maxStep f ≤ x) else decide (maxNum f < x)

/-- A result `r` of exact value `x`, not 0: rounded once, or what an overflow gives (R116, R117). -/
def RoundedOnce (f : Fmt) (mode : RMode) (sat : Bool) (x : Rat) (r : Nat × Word) : Prop :=
  let neg := decide (x < 0)
  if overflows f mode neg x.abs then
    if sat then r = (fSign f neg + fMax f, 4)
    else if mode = .rz ∨ (mode = .rm ∧ neg = false) ∨ (mode = .rp ∧ neg = true) then r = (fSign f neg + fMax f, 2)
    else r = (if f = .e4m3 then fNaN f else fSign f neg + fInf f, 2)
  else r.2 = 0 ∧ Rounds f mode x r.1 ∧ (r.1 / 2 ^ (fWidth f - 1) = if neg then 1 else 0)

/-- The number `x` rounded to an integer (R119). -/
def RoundsToInt (mode : RMode) (x : Rat) (n : Int) : Prop :=
  match mode with
  | .rn => ∀ k : Int, (x - n).abs ≤ (x - k).abs ∧ ((x - n).abs = (x - k).abs → k = n ∨ n % 2 = 0)
  | .rz => 0 ≤ (n : Rat) * x ∧ (n : Rat).abs ≤ x.abs ∧ x.abs < (n : Rat).abs + 1
  | .rm => (n : Rat) ≤ x ∧ x < n + 1
  | .rp => (n : Rat) - 1 < x ∧ x ≤ n

/-- Instruction `i` writes the low `32 * k` bits of `f l` to the `k` registers from `d` on of each lane that takes part,
sets the flags of those lanes in NF, and changes nothing else. -/
def FlaggedResult (i : Instr) (d : VOp) (k : Nat) (f : Group → Nat → Nat × Word) : Prop :=
  ∀ (s : State) (r : GRef) (t : Team) (g : Group), Issues s r t g i → Completes s r t i (g.after i) fun g' =>
    LaneResult g g' i d k (fun l => (f g l).1 % 2 ^ (32 * k)) ∧ Keeps g g' true false false false true ∧
      g'.nf = g.nf ||| flagsOver (g.takingPart i) fun l => (f g l).2

/-- The FP32 value of a vector operand, and of source B, in lane `l`; element `e` of a BF16 pair (R113). -/
def Group.f32 (g : Group) (a : VOp) (l : Nat) : FV := fdec .f32 (g.rdV (g.reg a l) l).toNat
def Group.f32B (g : Group) (b : SrcB) (l : Nat) : FV := fdec .f32 ((g.rdB .b32 false b l).toNat % 2 ^ 32)
def Group.bf16 (g : Group) (a : VOp) (l e : Nat) : FV :=
  fdec .bf16 ((g.rdV (g.reg a l) l).toNat / 2 ^ (16 * e) % 2 ^ 16)
def Group.bf16B (g : Group) (b : SrcB) (l e : Nat) : FV :=
  fdec .bf16 ((g.rdB .b32 false b l).toNat % 2 ^ 32 / 2 ^ (16 * e) % 2 ^ 16)

/-- Two BF16 results side by side, their flags together. -/
def bothHalves (r : Nat → Nat × Word) : Nat × Word := ((r 1).1 * 2 ^ 16 + (r 0).1, (r 0).2 ||| (r 1).2)

/-- A unary FP32 instruction. -/
def UnaryFloat (mk : VOp → VOp → Instr) (f : Nat → Nat × Word) : Prop :=
  ∀ d a, FlaggedResult (mk d a) d 1 fun g l => f (g.rdV (g.reg a l) l).toNat

/-! ### Lane exchange and control as the manual says them -/

/-- The result of a node of the fixed tree over lane positions (R151): level 0 is a lane. -/
def treeNode (op : ROp) (ty : ITy) (leaf : Nat → Part) : Nat → Nat → Part
  | 0, k => leaf k
  | n + 1, k => joinParts op ty (treeNode op ty leaf n (2 * k)) (treeNode op ty leaf n (2 * k + 1))

/-- The combination of the lanes below `l`, in ascending order (R151), a NaN among them canonical (R114). -/
def lanesBelow (op : ROp) (ty : ITy) (leaf : Nat → Part) : Nat → Part
  | 0 => none
  | l + 1 => scanJoin op ty (lanesBelow op ty leaf l) (leaf l)

/-- The value that lane `l` contributes to a reduction: absent where it takes no part. -/
def Group.leaf (g : Group) (i : Instr) (ty : ITy) (a : BitVec 10) (l : Nat) : Part :=
  if (g.takingPart i).getLsbD l then some (BitVec.ofNat 64 (g.rdN a.toNat l ty.regs), 0) else none

/-- REBAL's row lengths, and the sum of those of the lanes below `j` (R152). -/
def Group.rowLen (g : Group) (i : Instr) (a : BitVec 10) (j : Nat) : Nat :=
  if (g.takingPart i).getLsbD j then (g.rdV a.toNat j).toNat else 0
def Group.rowStart (g : Group) (i : Instr) (a : BitVec 10) : Nat → Nat
  | 0 => 0
  | j + 1 => g.rowStart i a j + g.rowLen i a j

/-- The path queues once the lanes of `m` have exited: an operation of lane accesses whose lanes left have all exited has
finished (R157); what an exited lane still has to perform stays (R83). -/
def Group.exitedOps (g : Group) (m : Lanes) : Group :=
  { g with pend := settleOps [] (g.pend.map fun o =>
      { o with fin := o.fin || (o.kind.perLane && o.lanes.all fun q => (g.exited ||| m).getLsbD q.lane) }) }

/-- Whether a branch is taken (R101). -/
def Group.takes (g : Group) (i : Instr) (c : Cond) : Bool :=
  match c with
  | .any => g.takingPart i != 0
  | .all => g.takingPart i == g.em
  | .none => g.takingPart i == 0

/-- Instruction `i` only moves the program counter, to `pc`. -/
def OnlyMoves (i : Instr) (pc : Group → Word) : Prop :=
  ∀ (s : State) (r : GRef) (t : Team) (g : Group), Issues s r t g i →
    Completes s r t i (pc g) fun g' => Keeps g g' false false false false false

/-- The registers of a working set (R102). -/
def inSet (ws : WSet) (n : Nat) : Bool :=
  match ws with
  | .none => false
  | .some vb n1 _ => decide (vb.toNat ≤ n ∧ n ≤ vb.toNat + n1.toNat)
/-- Whether a register of a working set is marked live (R103). -/
def liveIn (ws : WSet) (n : Nat) : Bool :=
  match ws with
  | .none => false
  | .some vb _ live => live.getLsbD (n - vb.toNat)
/-- A working set lies within a budget (R88, R103). -/
def fitsIn (ws : WSet) (budget : Nat) : Bool :=
  match ws with
  | .none => true
  | .some vb n1 _ => decide (vb.toNat + n1.toNat + 1 ≤ budget)

/-- A region may open here: no convergence is asked for, or no lane is parked or awaited elsewhere, no stop is asked, and
EM with the exited lanes is the launch mask (R106, R296, R304). -/
def Group.mayOpen (g : Group) (conv : Bool) : Prop :=
  conv = false ∨ (g.em ||| g.exited = 0xFFFFFFFF ∧
    (g.trap = none → g.parks = [] ∧ g.catchUp = none ∧ ∀ b, g.stop ≠ .asked b))

/-! ### Accesses and their points -/

/-- An operation that instruction `i` of a group puts into a path queue (R156). -/
def opOf (g : Group) (i : Instr) (kind : PKind) (path : Path) (sc : Scope) (slot size regs : Nat) (lanes : List LaneReq) :
    Pend :=
  { id := g.nextOp, kind := kind, path := path, scope := sc, pc := g.pc, next := g.after i, insn := g.insn, slot := slot,
    size := size, regs := regs, pred := none, byRef := false, quiet := false, lanes := lanes, faults := [], fin := false }

/-- Instruction `i` joins its path queue with operation `o`, from `s0`, and changes nothing else in its group but SF. -/
def JoinsQueue (s s0 : State) (r : GRef) (t : Team) (g : Group) (i : Instr) (o : Pend) (sf : DWord) : Prop :=
  CompletesFrom s s0 r t i (g.after i) fun g' =>
    g'.sf = sf ∧ Keeps g.settle { g' with sf := g.sf } false false false false false [o]

/-- Instruction `i` joins its path queue from `s0` with operation `o`, finished where it has no lane to serve; the lanes
of `nf` park with their faults, and those of `rf` in a replayable park, of which the supervisor is told; with a slot free
for each park the group goes on to the next instruction with its other lanes (R156, R171, R294, R295, R311). -/
def IssuesWith (s s0 : State) (r : GRef) (t : Team) (g : Group) (i : Instr) (o : Pend) (nf rf : List (Nat × LaneFault))
    (sf : DWord) : Prop :=
  (nf = [] ∧ rf = []) ∨ (g.trap = none ∧ g.halted = false ∧
    g.parks.length + (if nf = [] then 0 else 1) + (if rf = [] then 0 else 1) ≤ 4) →
  ∃ op, (o.lanes ≠ [] → op = some g.nextOp) ∧
    let again := parkWith g i true rf op
    let told := if rf = [] then s0 else s0.teamReport t 6 0 6 again.lead.slot 0 again.lead.addr [again.record]
    CompletesFrom s told r t i (g.after i) fun g' =>
      g'.sf = sf ∧ g'.em = g.em &&& ~~~lanesOf ((nf ++ rf).map Prod.fst) ∧
      g'.pend = settleOps [] (g.pend ++ [{ o with fin := o.lanes.isEmpty }]) ∧
      g'.parks = g.parks ++ (if nf = [] then [] else [parkWith g i false nf op]) ++ (if rf = [] then [] else [again]) ∧
      Keeps g { g' with sf := g.sf, em := g.em, pend := g.pend, parks := g.parks } false false false false false

/-- SF after the out-of-range accesses of the given addresses, in order (R162, R163). -/
def sfAfter (sf : DWord) : List Nat → DWord
  | [] => sf
  | a :: r => sfAfter (if sf.getLsbD 0 then sf ||| 2 else (sf.setWidth 32).setWidth 64 ||| 1 ||| (BitVec.ofNat 64 a <<< 32)) r

/-- The scratchpad accesses of the lanes that take part: one out of range completes with zeros, or is dropped (R162). -/
def spRequests (g : Group) (t : Team) (i : Instr) (size : Nat) (keep : Bool) (addr : Nat → Nat) (f : Nat → LaneReq) :
    List LaneReq :=
  (laneList (g.takingPart i)).filterMap fun l =>
    if addr l % size ≠ 0 then none
    else if addr l + size ≤ shSCR t.shape * 1024 then some { f l with addr := addr l }
    else if keep then some { f l with zero := true } else none

/-- The aligned addresses out of range. -/
def spBeyond (g : Group) (t : Team) (i : Instr) (size : Nat) (addr : Nat → Nat) : List Nat :=
  ((laneList (g.takingPart i)).map addr).filter fun a => decide (a % size = 0 ∧ shSCR t.shape * 1024 < a + size)

/-- The lanes with a misaligned address, which trap (R161). -/
def spFaults (g : Group) (i : Instr) (size : Nat) (addr : Nat → Nat) : List (Nat × LaneFault) :=
  ((laneList (g.takingPart i)).filter fun l => decide (addr l % size ≠ 0)).map fun l =>
    (l, mkFault 7 0 (BitVec.ofNat 64 (addr l)) 0)

/-- A scratchpad instruction: its aligned accesses join the queue, the lanes with a misaligned address trap. -/
def ScratchpadIssue (i : Instr) (kind : PKind) (path : Path) (size regs : Nat) (keep : Bool)
    (addr : Group → Nat → Nat) (f : Group → Nat → LaneReq) : Prop :=
  ∀ (s : State) (r : GRef) (t : Team) (g : Group), Issues s r t g i → g.takingPart i ≠ 0 →
    IssuesWith s s r t g i (opOf g i kind path .team 0 size regs (spRequests g t i size keep (addr g) (f g)))
      (spFaults g i size (addr g)) [] (sfAfter g.sf (spBeyond g t i size (addr g)))

/-- The scope of an access in a partition: a guest's dev and sys become part, and SF.CLAMP says so (R155, R248). -/
def scopeIn (p : Partition) (sc : Scope) : Scope := if pWhole p = false ∧ (sc = .dev ∨ sc = .sys) then .part else sc
def sfIn (p : Partition) (sc : Scope) (sf : DWord) : DWord :=
  if pWhole p = false ∧ (sc = .dev ∨ sc = .sys) then sf ||| 4 else sf

/-- What an access's checks and its place come to in one lane: it goes with its requests, it faults, it meets the
replayable translation fault, or the group waits (R311, R315, R338). -/
inductive Fate where
  | goes (qs : List LaneReq)
  | faults (f : LaneFault)
  | misses (f : LaneFault)
  | waits

/-- The fate of one access of a lane, by its place; one out of range touches nothing (R170). `acc` says for what: 0 load,
1 store, 2 fetch, 3 atomic. -/
def fateAt (s : State) (t : Team) (acc : Nat) (w : Want) : Fate :=
  if w.2.2.2.zero then .goes [w.2.2.2]
  else match s.place t.core t.part w.1 w.2.1 w.2.2.1 acc with
    | .at key va leaf => .goes [{ w.2.2.2 with addr := key, va := va, leaf := leaf }]
    | .away va => .misses (missFault acc va w.1)
    | .noRight => .faults (mkFault 0x0D 0 w.2.2.2.key (mkAux w.1 0))
    | .error _ | .busy => .waits

/-- The fate of a lane: the first of its accesses that does not go decides. -/
def fateAll (s : State) (t : Team) (acc : Nat) : List Want → Fate
  | [] => .goes []
  | w :: ws =>
    match fateAt s t acc w, fateAll s t acc ws with
    | .goes a, .goes b => .goes (a ++ b)
    | .goes _, x => x
    | x, _ => x

/-- The fate of a lane whose checks answer `c`. -/
def fateOf (s : State) (t : Team) (acc : Nat) : LaneFault ⊕ List Want → Fate
  | .inl f => .faults f
  | .inr ws => fateAll s t acc ws

/-- The requests, the faults and the translation faults of the lanes that take part, in ascending order. -/
def goingOf (ls : List Nat) (fate : Nat → Fate) : List LaneReq :=
  ls.flatMap fun l => match fate l with | .goes qs => qs | _ => []
def faultsOf (ls : List Nat) (fate : Nat → Fate) : List (Nat × LaneFault) :=
  ls.filterMap fun l => match fate l with | .faults f => some (l, f) | _ => none
def missesOf (ls : List Nat) (fate : Nat → Fate) : List (Nat × LaneFault) :=
  ls.filterMap fun l => match fate l with | .misses f => some (l, f) | _ => none

/-- An access of table memory whose checks are `chk`: where no lane must wait, the requests of the lanes that go join the
queue, those that a check faults trap, and those whose page is away park to issue again. -/
def AccessIssues (s : State) (r : GRef) (t : Team) (g : Group) (i : Instr) (path : Path) (acc : Nat) (sc : Scope)
    (o : List LaneReq → Pend) (chk : Nat → LaneFault ⊕ List Want) : Prop :=
  Issues s r t g i → g.takingPart i ≠ 0 → (∀ va, g.wait ≠ .xlate va) →
    let ls := laneList (g.takingPart i)
    let fate := fun l => fateOf s t acc (chk l)
    (∀ l, l ∈ ls → fate l ≠ .waits) →
      IssuesWith s (s.touch t.core t.part (goingOf ls fate)) r t g i
        { o (goingOf ls fate) with path := path, scope := scopeIn (s.partn t.part) sc }
        (faultsOf ls fate) (missesOf ls fate) (sfIn (s.partn t.part) sc g.sf)

/-- The same for an instruction that reaches table `tb` in slot `slot` through the handle in scalar register `tab`. -/
def AccessIssueAt (i : Instr) (tab : BitVec 10) (slot : Nat) (tb : Table) (path : Path) (acc : Nat) (sc : Scope)
    (o : Group → List LaneReq → Pend) (chk : Group → Nat → LaneFault ⊕ List Want) : Prop :=
  ∀ (s : State) (r : GRef) (t : Team) (g : Group), s.handle t.part (g.rdS tab.toNat) = some (slot, tb) →
    AccessIssues s r t g i path acc sc (o g) (chk g)

/-- The same for an instruction whose lanes name their tables by rowref. -/
def AccessIssue (i : Instr) (path : Path) (acc : Nat) (sc : Scope) (o : Group → List LaneReq → Pend)
    (chk : State → Team → Group → Nat → LaneFault ⊕ List Want) : Prop :=
  ∀ (s : State) (r : GRef) (t : Team) (g : Group), AccessIssues s r t g i path acc sc (o g) (chk s t g)

/-- The checks of a dense access in one lane (R168): the table's kind, the right, the alignment, the key's range and the
row's width; then the row's place in the image. -/
def denseLane (g : Group) (tb : Table) (slot : Nat) (right : Bool) (key : KeyOp) (off size l : Nat) (f : LaneReq → LaneReq) :
    LaneFault ⊕ List Want :=
  let k := g.rdKey (tKType tb) key l
  let a := keyAddr (tKType tb) k
  if tKind tb ≠ 0 then .inl (mkFault 0x0C 0 a (mkAux slot 0))
  else if right = false then .inl (mkFault 0x0D 0 a (mkAux slot 0))
  else if off % size ≠ 0 then .inl (mkFault 7 0 (BitVec.ofNat 64 off) 0)
  else if ¬ (tLo tb ≤ k ∧ k < tLo tb + tCap tb) ∨ tWidth tb < off + size then .inl (mkFault 8 0 a (mkAux slot off))
  else .inr [(slot, tb, (k - tLo tb).toNat * tWidth tb + off, f { mkReq l with key := a })]

/-- The checks of an access by rowref in one lane (R42 steps 1 and 2, R169). -/
def rowLane (s : State) (t : Team) (g : Group) (wr : Bool) (ref : BitVec 10) (off size l : Nat) (f : LaneReq → LaneReq) :
    LaneFault ⊕ List Want :=
  let rr : DWord := BitVec.ofNat 64 (g.rdN ref.toNat l 2)
  let slot := rr.toNat / 2 ^ 52
  let row := rr.toNat / 2 ^ 16 % 2 ^ 36
  match s.table t.part slot with
  | none => .inl (mkFault 0x0B 0 rr 0)
  | some tb =>
    if tCap tb ≤ row then .inl (mkFault 0x0A 0 rr 0)
    else if (if wr then tWrite tb else tRead tb) = false then .inl (mkFault 0x0D 0 rr (mkAux slot 0))
    else if off % size ≠ 0 then .inl (mkFault 7 0 (BitVec.ofNat 64 off) 0)
    else if tWidth tb < off + size then .inl (mkFault 9 0 rr (BitVec.ofNat 32 off))
    else .inr [(slot, tb, row * tWidth tb + off, f { mkReq l with key := rr })]

/-- Lane `q` of the unfinished operation `o` of a group may take its point now (R165, R171, R249). -/
structure AtPoint (s : State) (r : GRef) (t : Team) (g : Group) (o : Pend) (q : LaneReq) : Prop where
  op    : s.opAt r o.id = some (t, g, o)
  lane  : q.lane < 32
  next  : ∃ qs, o.lanes.filter (fun a => a.lane == q.lane) = q :: qs
  free  : g.laneBlocked o q = false
  clean : o.faults = []

/-- `s` with lane `q` of operation `o` done: its registers hold `v`, its predicate `p`. -/
def delivered (s : State) (r : GRef) (g : Group) (o : Pend) (q : LaneReq) (v : Nat) (p : Bool) : State :=
  s.putGroup r ((g.result o q v p).laneDone o q.lane)

/-- Where the part of an access lies that has still to take effect, and its bytes; what a load brings, with a half that has
been read before (R160). -/
def LaneReq.left (q : LaneReq) : Nat := q.addr + if q.half = some false then 8 else 0
def LaneReq.leftBytes (q : LaneReq) (size : Nat) : Nat := if q.half = none then size else 8
def LaneReq.whole (q : LaneReq) (v : Nat) : Nat :=
  match q.half with
  | none => v
  | some false => q.data.toNat % 2 ^ 64 + 2 ^ 64 * v
  | some true => v % 2 ^ 64 + 2 ^ 64 * (q.data.toNat % 2 ^ 64)

/-- No older access of the lane's core or cluster stands in the way of reading the line at home: nothing of it is
outbound, and no cluster point holds it. -/
def State.quietLine (s : State) (core line : Nat) : Prop :=
  (∀ w, w ∈ (s.core core).outb → lineOf w.addr ≠ line) ∧ (s.cluster (core / 8)).line line = none

/-- Lane `q` is the only one of its operation that writes its bytes (R166). -/
def Pend.alone (o : Pend) (q : LaneReq) : Prop :=
  o.lanes.filter (fun a => a.lane == q.lane) = [q] ∧
    ∀ a, a ∈ o.lanes → a.lane ≠ q.lane → ¬ (a.addr < q.addr + o.size ∧ q.addr < a.addr + o.size)

/-- No cluster point holds a line of the range, and the core has nothing outbound. -/
def State.nothingHeld (s : State) (core key n : Nat) : Prop :=
  (s.core core).outb = [] ∧ ∀ l, key / 128 ≤ l → l ≤ (key + n - 1) / 128 → s.holder l = none

/-! ### Keyed tables and engines -/

/-- A table instruction at issue: the requests of the lanes that the checks `chk` let go join the TB queue, the others
trap (R175). -/
def TableIssues (i : Instr) (o : State → Team → Group → List LaneReq → Pend)
    (chk : State → Team → Group → Nat → LaneFault ⊕ LaneReq) : Prop :=
  ∀ (s : State) (r : GRef) (t : Team) (g : Group), Issues s r t g i → g.takingPart i ≠ 0 →
    let ls := laneList (g.takingPart i)
    let fate := fun l => match chk s t g l with | .inl f => Fate.faults f | .inr q => .goes [q]
    IssuesWith s s r t g i (o s t g (goingOf ls fate)) (faultsOf ls fate) [] g.sf

/-- The table slot that a handle in scalar register `n` names, if it is bound (R38). -/
def slotIn (s : State) (t : Team) (g : Group) (n : BitVec 10) : Nat := ((s.handle t.part (g.rdS n.toNat)).map Prod.fst).getD 0

/-- The checks of a table instruction in one lane, by handle: a bound table, of a kind that admits the operation, with the
right that it asks for (R175). -/
def tableLane (s : State) (t : Team) (g : Group) (tab : BitVec 10) (admits right : Table → Bool) (key : KeyOp) (l : Nat)
    (f : Nat → Table → LaneReq → LaneReq) : LaneFault ⊕ LaneReq :=
  match s.handle t.part (g.rdS tab.toNat) with
  | none => .inl (mkFault 0x0B 0 (g.rdS tab.toNat) 0)
  | some (slot, tb) =>
    let k := g.rdKey (tKType tb) key l
    let a := keyAddr (tKType tb) k
    if admits tb = false then .inl (mkFault 0x0C 0 a (mkAux slot 0))
    else if right tb = false then .inl (mkFault 0x0D 0 a (mkAux slot 0))
    else .inr (f slot tb { mkReq l with addr := slot, lo := k, key := a })

/-- The head lane `q` of the unfinished table operation `o` may take its point (R174). -/
structure AtTablePoint (s : State) (r : GRef) (t : Team) (g : Group) (o : Pend) (q : LaneReq) : Prop where
  grp   : s.group r = some (t, g)
  op    : g.findOp o.id = some o
  path  : o.path = .tb
  head  : o.lanes.head? = some q
  free  : q.zero = true ∨ ∀ p, p ∈ g.pend → p.id < o.id → p.path = .tb → ∀ a, a ∈ p.lanes → a.zero = false → a.addr ≠ q.addr
  clean : o.faults = []

/-! ### Engines, barriers and gates -/

/-- Instruction `i` hands operation `op` to its engine: it joins the team's engine queue and the group's path queue, and
changes nothing else (R156, R193). -/
def HandsOver (s : State) (r : GRef) (t : Team) (g : Group) (i : Instr) (path : Path) (op : EngOp) : Prop :=
  let engs := t.engs ++ [{ op with id := t.nextEng, grp := r.grp }]
  ∃ t' g', exec i s = .next (s.setTeam r.team (some { t' with engs := engs, nextEng := t.nextEng + 1 })) ∧
    t'.groups[r.grp]? = some g' ∧ OnlyGroup t t' r.grp ∧ g'.pc = g.after i ∧
    Keeps g g' false false false false false [opOf g i (.engine t.nextEng) path .part 0 0 0 [mkReq 0]]

/-- An engine instruction at issue (R92, R193, R197, R213): without a lane it does nothing; while the queue is full it
waits; a bad handle, a team without queue entries and an inactive barrier trap, in the order of their causes; else the
operation is handed over. -/
def EngineIssue (i : Instr) (path : Path) (bar : Option (BitVec 4)) (shared : Bool) (handle : Group → Option DWord)
    (room : Team → Prop) (op : Group → EngOp) : Prop :=
  ∀ (s : State) (r : GRef) (t : Team) (g : Group), Issues s r t g i →
    (g.takingPart i = 0 →
      Completes s r t i (g.after i) fun g' => Keeps g g' false false false false false) ∧
    let noQueue := shared = true ∧ shCQ t.shape = 0
    (g.takingPart i ≠ 0 → ¬ room t → ¬ noQueue → exec i s = .next s) ∧
    (g.takingPart i ≠ 0 → room t ∨ noQueue →
      (∀ h, handle g = some h → s.handle t.part h = none →
        TrapsOn s r t g i (g.takingPart i) fun _ => mkFault 0x0B 0 h 0) ∧
      ((∀ h, handle g = some h → s.handle t.part h ≠ none) →
        (noQueue → TrapsOn s r t g i (g.takingPart i) fun _ => mkFault 0x12 0 0 0) ∧
        (¬ noQueue →
          (∀ b, bar = some b → (t.bar b.toNat).e = 0 →
            TrapsOn s r t g i (g.takingPart i) fun _ => mkFault 0x14 b.toNat 0 0) ∧
          ((∀ b, bar = some b → (t.bar b.toNat).e ≠ 0) → readyJoin [] t.engs = none →
            HandsOver s r t g i path (op g)))))

/-- How many operations of some engines a team has under way. -/
def Team.underWay (t : Team) (p : EngOp → Bool) : Nat := (t.engs.filter p).length

/-- The engine of a team works on operation `op`, which has begun and waits for nothing, and item `i` of it is left. -/
structure AtItem (s : State) (n : Nat) (t : Team) (e : Engine) (op : EngOp) (i : Nat) : Prop where
  team  : s.team n = some t
  head  : t.engHead e = some op
  begun : op.begun = true
  goes  : op.stall = none
  left  : hasItem i op.items = true

/-- The near-memory engine of a team may take up row `i` of `op`, the `k`th command of its queue: it has begun and waits for
nothing, and no earlier command of the queue stands before the row (R196). -/
structure AtRow (s : State) (n : Nat) (t : Team) (k : Nat) (op : EngOp) (i : Nat) : Prop where
  team  : s.team n = some t
  queue : t.nearQueue[k]? = some op
  done  : t.scratchDone op = true
  begun : op.begun = true
  goes  : op.stall = none
  left  : hasItem i op.items = true
  new   : ∀ h, h ∈ op.hold → h.item ≠ i
  first : ∀ b, b ∈ t.nearQueue.take k → s.nmcAfter t.part op i b = false

/-- The engine of a team comes to operation `op`, which waits for nothing. -/
structure AtHead (s : State) (n : Nat) (t : Team) (e : Engine) (op : EngOp) : Prop where
  team : s.team n = some t
  head : t.engHead e = some op
  new  : op.begun = false
  goes : op.stall = none

/-- An operation with its items laid out, and one rejected with a code (R195). -/
def EngOp.laidOut (op : EngOp) (n : Nat) (recd : List (BitVec 512)) : EngOp :=
  { op with begun := true, total := n, items := [(0, n)], recd := recd }
def EngOp.rejected (op : EngOp) (c : Nat) (recd : List (BitVec 512)) : EngOp :=
  { op with begun := true, rej := some c, total := 0, items := [], recd := recd }

/-- A barrier instruction (R212): a membership mask that differs from the lanes that take part traps; with no lane nothing
happens; else it acts. -/
def BarrierIssue (i : Instr) (b : BitVec 4) (a : BitVec 6) (acts : State → GRef → Team → Group → Prop) : Prop :=
  ∀ (s : State) (r : GRef) (t : Team) (g : Group), Issues s r t g i →
    let m : Word := (g.rdS a.toNat).setWidth 32
    (m ≠ g.takingPart i →
      TrapsOn s r t g i (g.takingPart i ||| (m &&& g.run)) fun _ => mkFault 0x13 b.toNat (m.setWidth 64) 0) ∧
    (m = g.takingPart i → m = 0 → Completes s r t i (g.after i) fun g' => Keeps g g' false false false false false) ∧
    (m = g.takingPart i → m ≠ 0 → acts s r t g)

/-- Instruction `i` completes and leaves barrier `b` of its team as `x`; nothing else changes. -/
def SetsBarrier (s : State) (r : GRef) (t : Team) (g : Group) (i : Instr) (b : Nat) (x : Barrier) : Prop :=
  ∃ t' g', exec i s = .next (s.setTeam r.team (some { t' with bars := (t.setBar b x).bars })) ∧
    t'.groups[r.grp]? = some g' ∧ OnlyGroup t t' r.grp ∧ g'.pc = g.after i ∧
    Keeps g g' false false false false false

/-- An access that an arrival at a barrier waits for: a store of scope team or wider, or scratchpad traffic, that has not
performed (R212). -/
def Pend.holdsArrival (o : Pend) : Prop :=
  o.lanes ≠ [] ∧ ((o.kind = .store ∧ o.scope ≠ .grp) ∨ o.kind = .lds ∨ o.kind = .sts ∨ ∃ op ty, o.kind = .atoms op ty)

/-- A gate instruction at issue (R285): without a lane it does nothing; it asks for the right `right` on the gate of the
handle in scalar register `a`, traps where that is refused, waits where there is no answer, and acts where it is granted;
`s0` is the state after the grant. -/
def GateIssue (i : Instr) (a : BitVec 6) (right : Nat) (acts : State → State → GRef → Team → Group → Nat → Prop) : Prop :=
  ∀ (s : State) (r : GRef) (t : Team) (g : Group), Issues s r t g i → (∀ n th v, g.wait ≠ .gwait n th v) →
    let h := g.rdS a.toNat
    (g.takingPart i = 0 → Completes s r t i (g.after i) fun g' => Keeps g g' false false false false false) ∧
    (g.takingPart i ≠ 0 → g.grant = none →
      (∀ d slot, s.grant t.part h right = .fault d slot →
        TrapsOn s r t g i (g.takingPart i) fun _ => mkFault 0x18 d h (mkAux slot 0)) ∧
      (s.grant t.part h right = .wait → exec i s = .next (s.stallGrid t)) ∧
      ((∃ slot, s.grant t.part h right = .far slot) → exec i s = .next s) ∧
      (∀ n s0, s.grant t.part h right = .ok n s0 → acts s s0 r t g n)) ∧
    (∀ n, g.takingPart i ≠ 0 → g.grant = some n → acts s s r t g n)

/-! ### The array and its sequencer -/

/-- Instruction `i` completes from `s0` and its path count falls again in its turn (R156): its operation has finished. -/
def FinishesOnPath (s s0 : State) (r : GRef) (t : Team) (g : Group) (i : Instr) (path : Path) (kind : PKind) (sc : Scope) :
    Prop :=
  CompletesFrom s s0 r t i (g.after i) fun g' =>
    g'.pend = settleOps [] (g.pend ++ [{ opOf g i kind path sc 0 0 0 [] with fin := true }]) ∧
    Keeps g { g' with pend := g.pend } false false false false false

/-- The requests of an accumulator access of the lanes that take part: the row, the first column block, the number of
blocks, and the registers' values where it writes (R238). -/
def accRequests (g : Group) (i : Instr) (sa : DWord) (n reg : Nat) (val : Nat → Nat) : List LaneReq :=
  (laneList (g.takingPart i)).map fun l =>
    { mkReq l with addr := sa.toNat % 128, va := sa.toNat / 256 % 8, reg := reg, data := BitVec.ofNat 128 (val l)
                   dat2 := BitVec.ofNat 128 (val l / 2 ^ 128), key := BitVec.ofNat 64 n }

/-- The array that MXDRAIN and MXREST reach from a team, with the number of its team: the team's own, or that of another
core of the cluster, where a team of the same partition that has stopped counts while no other holds it (R241, R306). -/
def State.arrayFor (s : State) (r : GRef) (t : Team) (core : Option (BitVec 3)) : Option (Nat × Arr) :=
  match core with
  | none => t.arr.map fun a => (r.team, a)
  | some c =>
    let k := t.core / 8 * 8 + c.toNat
    match s.arrOn k fun u => u.st != .stopped with
    | some a => some a
    | none => s.arrOn k fun u => u.part == t.part

/-- The table fault of an image access, in the order of the checks: the kind, the right, the position (R241). -/
def imageFault (slot : Nat) (tb : Table) (right : Bool) (p : Nat) : Option LaneFault :=
  let key := keyAddr (tKType tb) (tLo tb + (p / tWidth tb : Nat))
  if tKind tb ≠ 0 then some (mkFault 0x0C 0 key (mkAux slot 0))
  else if right = false then some (mkFault 0x0D 0 key (mkAux slot 0))
  else if p % 256 ≠ 0 ∨ tBytes tb < p + 737536 then some (mkFault 8 0 key (mkAux slot (p % tWidth tb)))
  else none

/-- MXDRAIN or MXREST at issue (R241): the form for another core belongs to trap mode; a bad handle, table or position, or an
array in the wrong state, traps, in trap mode halting the group; an image that is away or that may not be reached replays or
traps; a page on its way is waited for, and so is one that an unpaged table lacks, once the hub is told (R315); else it acts
on the array of team `tn`. -/
def ImageIssue (i : Instr) (core : Option (BitVec 3)) (a : BitVec 6) (wr : Bool)
    (acts : State → GRef → Team → Group → Nat → Table → Nat → Nat → Arr → Prop) : Prop :=
  ∀ (s : State) (r : GRef) (t : Team) (g : Group), Issues s r t g i → g.takingPart i ≠ 0 →
    let sa := g.rdS a.toNat
    let p := (g.rdS (a.toNat + 1)).toNat
    let acc := if wr then 1 else 0
    let stops := fun f => g.count .mx = 0 → TrapsOn s r t g i (g.takingPart i) (fun _ => f) g.settle ∧
      (g.trap ≠ none → g.ended = false → ∃ s' t' g', exec i s = .next s' ∧ s'.group r = some (t', g') ∧ g'.halted = true)
    let bad := mkFault 0x16 0 sa 0
    (core ≠ none → g.trap = none → stops bad) ∧
    (core = none ∨ g.trap ≠ none → s.handle t.part sa = none → stops (mkFault 0x0B 0 sa 0)) ∧
    (∀ slot tb, core = none ∨ g.trap ≠ none → s.handle t.part sa = some (slot, tb) →
      (∀ f, imageFault slot tb (if wr then tWrite tb else tRead tb) p = some f → stops f) ∧
      (imageFault slot tb (if wr then tWrite tb else tRead tb) p = none →
        (s.arrayFor r t core = none → stops bad) ∧
        (∀ tn ar, s.arrayFor r t core = some (tn, ar) →
          let fits := if core = none then ar.st ≠ 1 ∧ ar.st ≠ 2 else ar.st = 5
          let stop := (s.touchImage (some t.core) t.part slot tb p 737536).imageStop t.core t.part slot tb p 737536 acc
          (¬ fits → stops bad) ∧
          (fits →
            (∀ va, stop = some (.away va) → IssuesWith s s r t g i (opOf g i .mx .mx .part 0 0 0 []) []
              ((laneList (g.takingPart i)).map fun l => (l, missFault acc va slot)) g.sf) ∧
            (stop = some .noRight →
              stops (mkFault 0x0D 0 (keyAddr (tKType tb) (tLo tb + (p / tWidth tb : Nat))) (mkAux slot 0))) ∧
            (∀ va, stop = some (.error va) →
              (∀ w, g.wait = .xlate w → exec i s = .next s) ∧
              ((∀ w, g.wait ≠ .xlate w) → exec i s = .next
                ((s.setTeam r.team (some (t.putGroup r.grp { g with wait := .xlate va }))).teamReport t 7 0 10 slot 0
                  (BitVec.ofNat 64 va) []))) ∧
            (stop = some .busy → exec i s = .next s) ∧
            (stop = none → acts s r t g slot tb p tn ar)))))

/-- The exponent of an aligned group (R216): that of its largest finite element that is not zero, 0 where there is none. -/
def GroupExponent (xs : List FV) (e : Int) : Prop :=
  (∀ x v, x ∈ xs → x.num = some v → v.abs < (2 : Rat) ^ (e + 1)) ∧
    ((∃ x v, x ∈ xs ∧ x.num = some v ∧ (2 : Rat) ^ e ≤ v.abs) ∨ (e = 0 ∧ ∀ x v, x ∈ xs → x.num = some v → v = 0))

/-- An element whose aligned integer is lost (R217). -/
def lost (e : Int) (x : FV) : Prop := (∃ v, x.num = some v ∧ v ≠ 0) ∧ alignTo e x = 0

/-- Element `k` of row `j` of a weight tile, the first lowest (R47, R121, R231). -/
def tileElem (fmt : Fmt) (bs : List Byte) (j k : Nat) : Nat :=
  leNat ((bs.drop (j * wPitch fmt)).take (wPitch fmt)) / 2 ^ (wBits fmt * k) % 2 ^ wBits fmt

/-- What a weight load latches from the bytes of a tile (R216 to R218, R223, R231): a group of .bf16, .e4m3 or .e5m2 as
aligned integers with their classes, the exponent and the sum of their squares; of .i4g or .i3g the integers as they are,
with the classes that the scale gives them; and the flags that it sets. -/
structure LoadedSlot (fmt : Fmt) (bs : List Byte) (w : WSlot) (f : Word) : Prop where
  code   : w.wfmt = (match fmt with | .bf16 => 5 | .e4m3 => 6 | .e5m2 => 7 | .i4g => 8 | _ => 9)
  floats : fmt ≠ .i4g → fmt ≠ .i3g → ∀ j b, j < 256 → b < 4 →
    let x := fun k => fdec fmt (tileElem fmt bs j (32 * b + k))
    let desc := tget 0 w.desc (256 * b + j)
    ∃ e, GroupExponent ((List.range 32).map x) e ∧ (desc.extractLsb' 32 16).toInt = e ∧ fld desc 63 48 = 0 ∧
      (fld desc 31 0 : Int) = ((List.range 32).map fun k => alignTo e (x k) * alignTo e (x k)).sum ∧
      ∀ k, k < 32 →
        let el := tget 0 w.el (128 * j + 32 * b + k)
        elInt el = alignTo e (x k) ∧ fld el 21 15 = 0 ∧
        elCls el = (match x k with | .fin _ _ _ => 0 | .inf n => if n then 2 else 1 | .nan _ => 3) ∧
        (lost e (x k) → tget 0 w.tiny (128 * j + 32 * b + k) = if (x k).neg then 2 else 1) ∧
        (¬ lost e (x k) → tget 0 w.tiny (128 * j + 32 * b + k) = 0)
  packed : fmt = .i4g ∨ fmt = .i3g → ∀ j b, j < 256 → b < 4 →
    let q := fun k => (BitVec.ofNat (wBits fmt) (tileElem fmt bs j (32 * b + k))).toInt
    let raw := leNat ((bs.drop (256 * wPitch fmt + 8 * j + 2 * b)).take 2)
    let desc := tget 0 w.desc (256 * b + j)
    fld desc 47 32 = raw ∧ fld desc 63 48 = 0 ∧
      ((∃ v, (fdec .bf16 raw).num = some v) → (fld desc 31 0 : Int) = ((List.range 32).map fun k => q k * q k).sum) ∧
      ((fdec .bf16 raw).num = none → fld desc 31 0 = 0) ∧
      ∀ k, k < 32 →
        let el := tget 0 w.el (128 * j + 32 * b + k)
        elInt el = q k ∧ fld el 21 15 = 0 ∧ tget 0 w.tiny (128 * j + 32 * b + k) = 0 ∧
        elCls el = (match fdec .bf16 raw with
          | .fin _ _ _ => 0
          | .inf n => if q k = 0 then 3 else if decide (q k < 0) = n then 1 else 2
          | .nan _ => 3)
  flags  : ∀ bit, f.getLsbD bit = true ↔ (bit = 11 ∧ ∃ k, k < 32768 ∧ tget 0 w.tiny k ≠ 0) ∨ (bit = 8 ∧ ∃ j k, j < 256 ∧ k < 128 ∧
    if fmt = .i4g ∨ fmt = .i3g then
      (fdec .bf16 (leNat ((bs.drop (256 * wPitch fmt + 8 * j + 2 * (k / 32))).take 2))).isSig = true
    else (fdec fmt (tileElem fmt bs j k)).isSig = true)

/-- The `n` bytes from `o` on, the lowest address first. -/
def imageNum (byte : Nat → Byte) (o n : Nat) : Nat := leNat ((List.range n).map fun i => byte (o + i))

/-- The bytes of an image are those of an array (R240), its STATE field, and with it PH and BN, being given. -/
structure ImageOf (byte : Nat → Byte) (st : Nat) (ph : Bool) (bn : Nat) (a : Arr) : Prop where
  header : let h : BitVec 2048 := BitVec.ofNat 2048 (imageNum byte 0 256)
    fld h 15 0 = 1 ∧ fld h 27 16 = 0 ∧ fld h 31 28 = a.w0.wfmt ∧ fld h 35 32 = a.w1.wfmt ∧ fld h 38 36 = st ∧
    h.getLsbD 39 = ph ∧ fld h 43 40 = bn ∧ fld h 50 44 = a.lcnt.toNat ∧ fld h 55 51 = a.mxgrp ∧ fld h 63 56 = 0 ∧
    fld h 95 64 = a.spc.toNat ∧ fld h 127 96 = a.loff.toNat ∧ fld h 2047 384 = 0 ∧
    ∀ i, i < 8 → fld h (159 + 32 * i) (128 + 32 * i) = (tget 0 a.q i).toNat
  tiles  : ∀ m i j, m < 4 → i < 128 → j < 256 →
    imageNum byte (256 + 131072 * m + 1024 * i + 4 * j) 4 = (tget 0 a.m (accKey m i j)).toNat
  slots  : ∀ w base, (w = a.w0 ∧ base = 524544) ∨ (w = a.w1 ∧ base = 631040) →
    (∀ j k, j < 256 → k < 128 →
      imageNum byte (base + 3 * (128 * j + k)) 3 = (tget 0 w.el (128 * j + k)).toNat) ∧
    ∀ b j, b < 4 → j < 256 →
      imageNum byte (base + 98304 + 8 * (256 * b + j)) 8 = (tget 0 w.desc (256 * b + j)).toNat

/-- The keys of an array's elements are those of its places, and its fields fit theirs in the image (R240). -/
structure Arr.fits (a : Arr) : Prop where
  tiles : twf 0 a.m = true ∧ ∀ e, e ∈ a.m → e.1 < 131072
  slots : ∀ w, w = a.w0 ∨ w = a.w1 → w.wfmt < 16 ∧ twf 0 w.el = true ∧ twf 0 w.desc = true ∧
    (∀ e, e ∈ w.el → e.1 < 32768) ∧ ∀ e, e ∈ w.desc → e.1 < 1024
  state : a.st < 8 ∧ a.frozen < 8 ∧ a.mxgrp < 32

/-- The sequencer of team `n` is to execute a tile word in STATE 1 (R225). -/
structure SeqTurn (s : State) (n : Nat) (t : Team) (a : Arr) : Prop where
  cur  : s.seq = some n
  team : s.team n = some t
  arr  : t.arr = some a
  runs : a.st = 1

/-- Tile word `i` completes: its team is `t1`, its array `a1` with SPC at the next word and nothing pending, and the
flags `f` have gone to the group MXGRP. -/
def WordCompletes (s : State) (n : Nat) (a : Arr) (i : Instr) (t1 : Team) (a1 : Arr) (f : Word) : Prop :=
  exec i s = .next (s.setTeam n (some { t1.arrFlags a.mxgrp f with
    arr := some { a1 with st := 1, spc := a.spc + 8, bn := 0, ph := false } }))

/-- Group `k` of a team has not ended. -/
def Team.lives (t : Team) (k : Nat) : Prop := ∃ g, t.groups[k]? = some g ∧ g.ended = false

/-- MXGRP, naming group `n`, is or passes to group `k`: the group itself, or once it has ended the lowest-numbered one that
has not (R227). -/
def Team.passesTo (t : Team) (n k : Nat) : Prop :=
  t.lives k ∧ (t.lives n → k = n) ∧ (¬ t.lives n → ∀ j, j < k → ¬ t.lives j)

/-- The sequencer stops at the word: STATE 4, SPC as it is, TSUB the cause, and the fault waits for its delivery to the group
that MXGRP names or passes to (R227). -/
def SeqStops (s : State) (n : Nat) (t : Team) (a : Arr) (i : Instr) (tsub cause detail : Nat) (insn : Word) : Prop :=
  ∃ grp, (∀ k, t.passesTo a.mxgrp k → grp = k) ∧
    let stop : SeqStop :=
      { cause := BitVec.ofNat 8 cause, detail := BitVec.ofNat 16 detail, insn := insn, spc := a.spc, grp := grp }
    exec i s = .next (s.setTeam n (some { t with
      arr := some { a with st := 4, tsub := BitVec.ofNat 8 tsub, bn := 0, ph := false, mxgrp := grp,
                           stops := a.stops ++ [stop] } }))

/-- A word that reads or writes scratchpad at q[QA] (R226, R236): an address or an increment that is no multiple of 16
stops; a read waits for the scratchpad accesses before MXSTART; else it acts at its address, with q[QA] incremented. -/
def ScratchWord (i : Instr) (q : BitVec 3) (inc : Bool) (k : Word) (reads : Bool)
    (acts : State → Nat → Team → Arr → Arr → Nat → Prop) : Prop :=
  ∀ (s : State) n t a, SeqTurn s n t a →
    let v := tget 0 a.q q.toNat
    let a1 := if inc then { a with q := tset 0 a.q q.toNat (v + k) } else a
    let fits := v.toNat % 16 = 0 ∧ (inc = true → k.toNat % 16 = 0)
    (¬ fits → SeqStops s n t a i 0x22 1 0x22 (a.word.setWidth 32)) ∧
    (fits → reads = true → t.readsReady a = false → exec i s = .next s) ∧
    (fits → (reads = true → t.readsReady a = true) → acts s n t a a1 v.toNat)

/-! ### The hub -/

/-- Nothing is outbound on any core, and no cluster point holds a line. -/
def State.allHome (s : State) : Prop :=
  (∀ e, e ∈ s.cores → e.2.outb = []) ∧ ∀ e, e ∈ s.clusters → e.2.hot = []

end Sys2Proof.Machine
end

