-- ==== Sys2Proof/Certificates/Slice0/Obligations.lean ====
section
/-! DEFINITION. The statements about the model, each a proposition named after what it says. Their proofs stand elsewhere. -/

open Sys2Proof Sys2Proof.Machine

/-- R131, R132, R134 with R129: integer arithmetic on exact integers, clamped with .sat and else modulo 2^w. -/
def Obligations.IntegerArithmetic : Prop :=
  TwoSource .iadd (fun ty sat a b => written ty sat (value ty a + value ty b)) ∧
  TwoSource .isub (fun ty sat a b => written ty sat (value ty a - value ty b)) ∧
  TwoSource .imul (fun ty sat a b => written ty sat (value ty a * value ty b)) ∧
  TwoSource .imulh (fun ty _ a b => (pattern ty (value ty a * value ty b / 2 ^ ty.width), 0)) ∧
  TwoSource .imin (fun ty _ a b => (pattern ty (min (value ty a) (value ty b)), 0)) ∧
  TwoSource .imax (fun ty _ a b => (pattern ty (max (value ty a) (value ty b)), 0)) ∧
  ThreeSource .imad (fun ty sat a b c => written ty sat (value ty a * value ty b + value ty c)) ∧
  OneSource .iabs (fun ty sat a => written ty sat ((value ty a).natAbs : Int))

/-- R131, R134, R135 with R129: bitwise operations, shifts as multiplications and divisions by 2^n, bit fields. -/
def Obligations.IntegerBits : Prop :=
  TwoSource .and (fun ty _ a b => (numOf (fun i => a.getLsbD i && b.getLsbD i) ty.width, 0)) ∧
  TwoSource .or (fun ty _ a b => (numOf (fun i => a.getLsbD i || b.getLsbD i) ty.width, 0)) ∧
  TwoSource .xor (fun ty _ a b => (numOf (fun i => a.getLsbD i != b.getLsbD i) ty.width, 0)) ∧
  OneSource .not (fun ty _ a => (numOf (fun i => !a.getLsbD i) ty.width, 0)) ∧
  TwoSource .shl (fun ty _ a b => (a.toNat * 2 ^ (b.toNat % 2 ^ 32) % 2 ^ ty.width, 0)) ∧
  TwoSource .shr (fun _ _ a b => (a.toNat / 2 ^ (b.toNat % 2 ^ 32), 0)) ∧
  TwoSource .sar (fun ty _ a b =>
    (pattern ty (value (if ty.width = 32 then .s32 else .s64) a / 2 ^ (b.toNat % 2 ^ 32)), 0)) ∧
  TwoSource .bfe (fun ty _ a b => (extracted ty a b, 0)) ∧
  ThreeSource (fun h o c => .bfi h o (.c c)) (fun ty _ a b c => (inserted ty a b c, 0)) ∧
  (∀ w, TwoSource (fun h o => .bfi h o (.imm w)) fun ty _ a b => (inserted ty a b (w.setWidth 64), 0)) ∧
  OneSource .popc (fun ty _ a => (setBits a ty.width, 0)) ∧
  OneSource .clz (fun ty _ a => (leadingZeros a ty.width, 0)) ∧
  OneSource .brev (fun ty _ a => (numOf (fun i => a.getLsbD (ty.width - 1 - i)) ty.width, 0))

/-- R133, R136, R137: addition with carry, comparison and selection, lane by lane, all sources read first. -/
def Obligations.CarryCompareSelect : Prop :=
  (∀ h w64 d a b po cie pi (s : State) (r : GRef) (t : Team) (g : Group),
    let i : Instr := .iaddc h w64 d a b po cie pi
    let ty : ITy := if w64 then .b64 else .b32
    let sum := fun l => (g.rdOp ty false a l).toNat + (g.rdB ty false b l).toNat +
      if cie && (g.rdP pi.toNat).getLsbD l then 1 else 0
    po ≠ 7 → Issues s r t g i → Completes s r t i (g.after i) fun g' =>
      LaneResult g g' i d ty.regs (fun l => sum l % 2 ^ ty.width) ∧
      PredResult g g' i po.toNat (fun l => decide (2 ^ ty.width ≤ sum l)) ∧ Keeps g g' true false true false false) ∧
  (∀ h cmp ty d a b, d ≠ 7 → FlagResult (.iset h cmp ty d a b) d.toNat fun g l =>
    let x := value ty (g.rdOp ty false a l)
    let y := value ty (g.rdB ty false b l)
    match cmp with
    | .eq => decide (x = y) | .ne => decide (x ≠ y) | .lt => decide (x < y) | .le => decide (x ≤ y)
    | .gt => decide (x > y) | .ge => decide (x ≥ y) | .num => true | .nan => false) ∧
  (∀ h ty d a b pc inv, VectorResult (.sel h ty d a b pc inv) d ty.regs fun g l =>
    if (g.rdP pc.toNat).getLsbD l != inv then (g.rdOp ty false a l).toNat else (g.rdB ty false b l).toNat)

/-- R107, R138, R139: moves into vector and scalar registers, from the lowest lane, and into index registers. -/
def Obligations.Moves : Prop :=
  (∀ h w64 d a, VectorResult (.mov h w64 (.vv d a)) (.reg d) (if w64 then 2 else 1) fun g l =>
    g.rdN a.toNat l (if w64 then 2 else 1)) ∧
  (∀ h w64 d a, VectorResult (.mov h w64 (.vs d a)) (.reg d) (if w64 then 2 else 1) fun g _ =>
    (g.rdS a.toNat).toNat % (if w64 then 2 ^ 64 else 2 ^ 32)) ∧
  (∀ h d raw, VectorResult (.mov h false (.vi d raw)) (.reg d) 1 fun _ _ => raw.toNat % 2 ^ 32) ∧
  (∀ h d raw, VectorResult (.mov h true (.vi d raw)) (.reg d) 2 fun _ _ =>
    (if h.len = .lit ∨ h.len = .extLit then raw else (raw.setWidth 32).signExtend 64).toNat) ∧
  (∀ h w64 d a, OnceResult (.mov h w64 (.ss d a)) d.toNat fun g =>
    if w64 then g.rdS a.toNat else ((g.rdS a.toNat).setWidth 32).setWidth 64) ∧
  (∀ h d raw, OnceResult (.mov h false (.si d raw)) d.toNat fun _ => raw) ∧
  (∀ h d raw, OnceResult (.mov h true (.si d raw)) d.toNat fun _ =>
    if h.len = .lit ∨ h.len = .extLit then raw else (raw.setWidth 32).signExtend 64) ∧
  (∀ h w64 d a (s : State) (r : GRef) (t : Team) (g : Group) l,
    let i : Instr := .mov h w64 (.first d a)
    Issues s r t g i → l < 32 → (g.takingPart i).getLsbD l = true → (∀ j, j < l → (g.takingPart i).getLsbD j = false) →
    Completes s r t i (g.after i) fun g' =>
      ScalarResult g g' d.toNat (BitVec.ofNat 64 (g.rdN a.toNat l (if w64 then 2 else 1))) ∧
        Keeps g g' false true false false false) ∧
  (∀ h d a, IndexResult (.mtx h d a) d.toNat fun g l => (g.rdV (g.reg a l) l).toNat % 2 ^ 30) ∧
  (∀ h d a, IndexResult (.mtxIdx h d a) d.toNat fun g l =>
    ((g.rdX d.toNat l).toNat / 1024 * 1024 + (g.rdV (g.reg a l) l).toNat % 1024) % 2 ^ 30) ∧
  (∀ h d imm, IndexResult (.mtxAdd h d imm) d.toNat fun g l =>
    ((g.rdX d.toNat l).toNat / 1024 * 1024 + ((((g.rdX d.toNat l).toNat % 1024 : Nat) + imm.toInt) % 1024).toNat) % 2 ^ 30)

/-- R79, R98, R122, R140, R141, R163: what MFSR reads of each special register, what MTSR writes, its run mask, its
write-1-to-clear bits, and the fault of a reserved bit. -/
def Obligations.SpecialRegisters : Prop :=
  (∀ h d sr (s : State) (r : GRef) (t : Team) (g : Group), Issues s r t g (.mfsr h .v d sr) →
    Completes s r t (.mfsr h .v d sr) (g.after (.mfsr h .v d sr)) fun g' =>
      LaneResult g g' (.mfsr h .v d sr) (.reg d) 1 (fun l => (s.readSr t r.grp g sr.toNat l).toNat % 2 ^ 32) ∧
        Keeps g g' true false false false false) ∧
  (∀ h d sr (s : State) (r : GRef) (t : Team) (g : Group), Issues s r t g (.mfsr h .pair d sr) →
    Completes s r t (.mfsr h .pair d sr) (g.after (.mfsr h .pair d sr)) fun g' =>
      LaneResult g g' (.mfsr h .pair d sr) (.reg d) 2 (fun l => (s.readSr t r.grp g sr.toNat l).toNat) ∧
        Keeps g g' true false false false false) ∧
  (∀ h d sr (s : State) (r : GRef) (t : Team) (g : Group), Issues s r t g (.mfsr h .s d sr) →
    Completes s r t (.mfsr h .s d sr) (g.after (.mfsr h .s d sr)) fun g' =>
      ScalarResult g g' d.toNat (s.readSr t r.grp g sr.toNat 0) ∧ Keeps g g' false true false false false) ∧
  (∀ (s : State) (t : Team) (k : Nat) (g : Group) (l : Nat),
    s.readSr t k g 0 l = g.em.setWidth 64 ∧ s.readSr t k g 1 l = BitVec.ofNat 64 l ∧
    s.readSr t k g 2 l = BitVec.ofNat 64 k ∧ s.readSr t k g 3 l = BitVec.ofNat 64 t.teamId ∧
    s.readSr t k g 4 l = (t.record.extractLsb' 128 24).setWidth 64 + 1 ∧
    s.readSr t k g 7 l = (if k < ((t.record.extractLsb' 69 6).toNat) then 0 else 1) ∧
    s.readSr t k g 5 l = BitVec.ofNat 64 t.gangSz ∧ s.readSr t k g 6 l = BitVec.ofNat 64 t.gangIdx ∧
    s.readSr t k g 8 l = BitVec.ofNat 64 t.part ∧ s.readSr t k g 9 l = (s.partn t.part).timeval ∧
    s.readSr t k g 10 l = BitVec.ofNat 64 s.refNs + (s.partn t.part).walloff ∧
    s.readSr t k g 11 l = g.nf.setWidth 64 ∧ s.readSr t k g 12 l = g.sf ∧
    s.readSr t k g 13 l = g.trapPC.setWidth 64 ∧ s.readSr t k g 14 l = g.trapCause.setWidth 64 ∧
    s.readSr t k g 15 l = g.trapInfo.setWidth 64 ∧ s.readSr t k g 16 l = g.trapAddr) ∧
  (∀ len sr a (s : State) (r : GRef) (t : Team) (g : Group), Issues s r t g (.mtsr len sr a) →
    let i : Instr := .mtsr len sr a
    let v := g.rdS a.toNat
    let w : Word := v.setWidth 32
    (sr.toNat = 0 → Completes s r t i (g.after i) fun g' =>
      g'.em = w &&& g.run ∧ Keeps g { g' with em := g.em } false false false false false) ∧
    (sr.toNat = 11 → w &&& 0xFFFFE0E0 = 0 → Completes s r t i (g.after i) fun g' =>
      g'.nf = g.nf &&& ~~~w ∧ Keeps g g' false false false false true) ∧
    (sr.toNat = 11 → w &&& 0xFFFFE0E0 ≠ 0 → TrapsOn s r t g i g.run fun _ => mkFault 6 11 v 0) ∧
    (sr.toNat = 12 → v &&& 0xFFFFFFF8 = 0 → Completes s r t i (g.after i) fun g' =>
      g'.sf = g.sf &&& ~~~(v &&& 7) ∧ Keeps g { g' with sf := g.sf } false false false false false) ∧
    (sr.toNat = 12 → v &&& 0xFFFFFFF8 ≠ 0 → TrapsOn s r t g i g.run fun _ => mkFault 6 12 v 0) ∧
    (sr.toNat = 13 → Completes s r t i (g.after i) fun g' =>
      g'.trapPC = w ∧ Keeps g { g' with trapPC := g.trapPC } false false false false false) ∧
    (sr.toNat = 14 → Completes s r t i (g.after i) fun g' =>
      g'.trapCause = w ∧ Keeps g { g' with trapCause := g.trapCause } false false false false false) ∧
    (sr.toNat = 15 → Completes s r t i (g.after i) fun g' =>
      g'.trapInfo = w ∧ Keeps g { g' with trapInfo := g.trapInfo } false false false false false) ∧
    (sr.toNat = 16 → Completes s r t i (g.after i) fun g' =>
      g'.trapAddr = v ∧ Keeps g { g' with trapAddr := g.trapAddr } false false false false false))

/-- R112, R116, R117: the result of an exact number, not 0, is that number rounded once by the mode, and an overflow gives
what the mode and .sat say; the exact sums, products and fused sums of finite values are such numbers (R143); R119 rounds
to integers; R114, R143: zeros, infinities, NaNs and invalid operations of the sums and products. -/
def Obligations.FloatResults : Prop :=
  (∀ f mode sat neg m e, f = .f32 ∨ f = .bf16 ∨ f = .e4m3 ∨ f = .e5m2 → 0 < m → ∀ x,
    (FV.fin neg m e).num = some x → Machine.RoundedOnce f mode sat x (fround f mode sat neg m e)) ∧
  (∀ f mode sat a b x y, f = .f32 ∨ f = .bf16 → a.num = some x → b.num = some y → x + y ≠ 0 →
    Machine.RoundedOnce f mode sat (x + y) (fadd f mode sat a b)) ∧
  (∀ f mode sat a b x y, f = .f32 ∨ f = .bf16 → a.num = some x → b.num = some y → x * y ≠ 0 →
    Machine.RoundedOnce f mode sat (x * y) (fmul f mode sat a b)) ∧
  (∀ f mode sat a b c x y z, f = .f32 ∨ f = .bf16 → a.num = some x → b.num = some y → c.num = some z →
    x * y + z ≠ 0 → Machine.RoundedOnce f mode sat (x * y + z) (ffma f mode sat a b c)) ∧
  (∀ mode n m e x, (FV.fin n m e).num = some x → RoundsToInt mode x (fToInt mode n m e)) ∧
  (∀ f mode sat (a b : FV), a.isNaN = true ∨ b.isNaN = true →
    fadd f mode sat a b = (fNaN f, if a.isSig || b.isSig then 1 else 0) ∧
    fmul f mode sat a b = (fNaN f, if a.isSig || b.isSig then 1 else 0)) ∧
  (∀ f mode sat n k m e, fadd f mode sat (.inf n) (.inf k) = (if n = k then (fSign f n + fInf f, 0) else (fNaN f, 1)) ∧
    fadd f mode sat (.inf n) (.fin k m e) = (fSign f n + fInf f, 0) ∧
    fadd f mode sat (.fin k m e) (.inf n) = (fSign f n + fInf f, 0) ∧
    fmul f mode sat (.inf n) (.inf k) = (fSign f (n != k) + fInf f, 0) ∧
    fmul f mode sat (.inf n) (.fin k m e) = (if m = 0 then (fNaN f, 1) else (fSign f (n != k) + fInf f, 0)) ∧
    fmul f mode sat (.fin k m e) (.inf n) = (if m = 0 then (fNaN f, 1) else (fSign f (n != k) + fInf f, 0))) ∧
  (∀ f mode sat n m e k m' e', m = 0 ∨ m' = 0 → fmul f mode sat (.fin n m e) (.fin k m' e') = (fSign f (n != k), 0)) ∧
  (∀ f mode sat n m e k m' e' x, (FV.fin n m e).num = some x → (FV.fin k m' e').num = some (-x) →
    fadd f mode sat (.fin n m e) (.fin k m' e') =
      (fSign f (if m = 0 ∧ n = k then n else decide (mode = .rm)), 0)) ∧
  (∀ f mode sat n k e (c : FV), ffma f mode sat (.fin n 0 e) (.inf k) c = (fNaN f, 1) ∧
    ffma f mode sat (.inf k) (.fin n 0 e) c = (fNaN f, 1)) ∧
  (∀ f mode sat (a b c : FV), a.isNaN = true ∨ b.isNaN = true ∨ c.isNaN = true → ¬ (a.isZero = true ∧ b.isInf = true) →
    ¬ (a.isInf = true ∧ b.isZero = true) →
    ffma f mode sat a b c = (fNaN f, if a.isSig || b.isSig || c.isSig then 1 else 0)) ∧
  (∀ f mode sat (a b : FV), a.isInf = true ∨ b.isInf = true → a.isNaN = false → b.isNaN = false → a.isZero = false →
    b.isZero = false →
    let sign := a.neg != b.neg
    (∀ n m e, ffma f mode sat a b (.fin n m e) = (fSign f sign + fInf f, 0)) ∧
    ffma f mode sat a b (.inf sign) = (fSign f sign + fInf f, 0) ∧ ffma f mode sat a b (.inf (!sign)) = (fNaN f, 1)) ∧
  (∀ f mode sat n m e k m' e' j, ffma f mode sat (.fin n m e) (.fin k m' e') (.inf j) = (fSign f j + fInf f, 0)) ∧
  (∀ f mode sat n m e k m' e' j m'' e'' x y, (FV.fin n m e).num = some x → (FV.fin k m' e').num = some y →
    (FV.fin j m'' e'').num = some (-(x * y)) → ffma f mode sat (.fin n m e) (.fin k m' e') (.fin j m'' e'') =
      (fSign f (if m * m' = 0 ∧ (n != k) = j then j else decide (mode = .rm)), 0))

/-- R142, R143, R145: sums, products and fused sums, of FP32 and of both BF16 elements, lane by lane. -/
def Obligations.FloatArithmetic : Prop :=
  (∀ h o, FlaggedResult (.fadd h o) o.d 1 fun g l => fadd .f32 o.mode o.sat (g.f32 o.a l) (g.f32B o.b l)) ∧
  (∀ h o, FlaggedResult (.fsub h o) o.d 1 fun g l => fadd .f32 o.mode o.sat (g.f32 o.a l) (g.f32B o.b l).flip) ∧
  (∀ h o, FlaggedResult (.fmul h o) o.d 1 fun g l => fmul .f32 o.mode o.sat (g.f32 o.a l) (g.f32B o.b l)) ∧
  (∀ h o c, FlaggedResult (.ffma h o c) o.d 1 fun g l =>
    ffma .f32 o.mode o.sat (g.f32 o.a l) (g.f32B o.b l) (g.f32 c l)) ∧
  (∀ h o, FlaggedResult (.pfadd h o) o.d 1 fun g l =>
    bothHalves fun e => fadd .bf16 o.mode o.sat (g.bf16 o.a l e) (g.bf16B o.b l e)) ∧
  (∀ h o, FlaggedResult (.pfmul h o) o.d 1 fun g l =>
    bothHalves fun e => fmul .bf16 o.mode o.sat (g.bf16 o.a l e) (g.bf16B o.b l e)) ∧
  (∀ h o c, FlaggedResult (.pffma h o c) o.d 1 fun g l =>
    bothHalves fun e => ffma .bf16 o.mode o.sat (g.bf16 o.a l e) (g.bf16B o.b l e) (g.bf16 c l e))

/-- R136, R143: minimum, maximum and comparison. An infinity lies beyond every number; a NaN gives way to the other operand,
two give the canonical NaN, and one in either place fails every order; -0 lies below +0 for FMIN and FMAX and equals it
for FSET. -/
def Obligations.FloatOrder : Prop :=
  (∀ h d a b, FlaggedResult (.fmin h d a b) d 1 fun g l =>
    fminmax .f32 false (g.rdV (g.reg a l) l).toNat ((g.rdB .b32 false b l).toNat % 2 ^ 32)) ∧
  (∀ h d a b, FlaggedResult (.fmax h d a b) d 1 fun g l =>
    fminmax .f32 true (g.rdV (g.reg a l) l).toNat ((g.rdB .b32 false b l).toNat % 2 ^ 32)) ∧
  (∀ h cmp d a b (s : State) (r : GRef) (t : Team) (g : Group), d ≠ 7 → Issues s r t g (.fset h cmp d a b) →
    let res := fun l => fcompare cmp (g.rdV (g.reg a l) l).toNat ((g.rdB .b32 false b l).toNat % 2 ^ 32)
    Completes s r t (.fset h cmp d a b) (g.after (.fset h cmp d a b)) fun g' =>
      PredResult g g' (.fset h cmp d a b) d.toNat (fun l => (res l).1) ∧ Keeps g g' false false true false true ∧
        g'.nf = g.nf ||| flagsOver (g.takingPart (.fset h cmp d a b)) fun l => (res l).2) ∧
  (∀ a b x y, (fdec .f32 a).num = some x → (fdec .f32 b).num = some y →
    fcompare .eq a b = (decide (x = y), 0) ∧ fcompare .ne a b = (decide (x ≠ y), 0) ∧
    fcompare .lt a b = (decide (x < y), 0) ∧ fcompare .le a b = (decide (x ≤ y), 0) ∧
    fcompare .gt a b = (decide (y < x), 0) ∧ fcompare .ge a b = (decide (y ≤ x), 0) ∧
    fcompare .num a b = (true, 0) ∧ fcompare .nan a b = (false, 0) ∧
    (x < y → fminmax .f32 false a b = (a, 0) ∧ fminmax .f32 true a b = (b, 0)) ∧
    (y < x → fminmax .f32 false a b = (b, 0) ∧ fminmax .f32 true a b = (a, 0))) ∧
  (fminmax .f32 false 0 0x80000000 = (0x80000000, 0) ∧ fminmax .f32 false 0x80000000 0 = (0x80000000, 0) ∧
    fminmax .f32 true 0 0x80000000 = (0, 0) ∧ fminmax .f32 true 0x80000000 0 = (0, 0)) ∧
  (∀ a b, (fdec .f32 a).isNaN = true → (fdec .f32 b).isNaN = false →
    let sig := (if (fdec .f32 a).isSig then 1 else 0 : Word)
    fminmax .f32 false a b = (b, sig) ∧ fminmax .f32 true a b = (b, sig) ∧ fminmax .f32 false b a = (b, sig) ∧
    fminmax .f32 true b a = (b, sig)) ∧
  (∀ a b, (fdec .f32 a).isNaN = true ∨ (fdec .f32 b).isNaN = true →
    let sig := (if (fdec .f32 a).isSig || (fdec .f32 b).isSig then 1 else 0 : Word)
    fcompare .eq a b = (false, sig) ∧ fcompare .ne a b = (true, sig) ∧ fcompare .nan a b = (true, sig) ∧
    fcompare .num a b = (false, sig) ∧ fcompare .lt a b = (false, 1) ∧ fcompare .le a b = (false, 1) ∧
    fcompare .gt a b = (false, 1) ∧ fcompare .ge a b = (false, 1) ∧
    ((fdec .f32 a).isNaN = true → (fdec .f32 b).isNaN = true →
      fminmax .f32 false a b = (0x7FC00000, sig) ∧ fminmax .f32 true a b = (0x7FC00000, sig))) ∧
  (∀ a b n, fdec .f32 a = .inf n → (fdec .f32 b).isNaN = false →
    fcompare .num a b = (true, 0) ∧ fcompare .nan a b = (false, 0) ∧ fcompare .num b a = (true, 0) ∧
    (fdec .f32 b = .inf n → fcompare .eq a b = (true, 0) ∧ fcompare .ne a b = (false, 0) ∧ fcompare .lt a b = (false, 0) ∧
      fcompare .le a b = (true, 0) ∧ fcompare .gt a b = (false, 0) ∧ fcompare .ge a b = (true, 0) ∧
      fminmax .f32 false a b = (a, 0) ∧ fminmax .f32 true a b = (a, 0)) ∧
    (fdec .f32 b ≠ .inf n → fcompare .eq a b = (false, 0) ∧ fcompare .ne a b = (true, 0) ∧ fcompare .lt a b = (n, 0) ∧
      fcompare .le a b = (n, 0) ∧ fcompare .gt a b = (!n, 0) ∧ fcompare .ge a b = (!n, 0) ∧
      fcompare .eq b a = (false, 0) ∧ fcompare .ne b a = (true, 0) ∧ fcompare .lt b a = (!n, 0) ∧
      fcompare .le b a = (!n, 0) ∧ fcompare .gt b a = (n, 0) ∧ fcompare .ge b a = (n, 0) ∧
      fminmax .f32 false a b = (if n then a else b, 0) ∧ fminmax .f32 false b a = (if n then a else b, 0) ∧
      fminmax .f32 true a b = (if n then b else a, 0) ∧ fminmax .f32 true b a = (if n then b else a, 0)))

/-- R144: the special functions complete in every lane that takes part, and what they give on zeros, infinities and NaNs;
FRCP and FSQRT are correctly rounded, and the powers of two of FEXP2 and FLOG2 are exact. -/
def Obligations.SpecialFunctions : Prop :=
  (∀ h o, FlaggedResult (.frcp h o) o.d 1 fun g l => frcp o.mode (g.rdV (g.reg o.a l) l).toNat) ∧
  (∀ h o, FlaggedResult (.fsqrt h o) o.d 1 fun g l => fsqrt o.mode (g.rdV (g.reg o.a l) l).toNat) ∧
  (∀ h, UnaryFloat (.frsq h) frsq) ∧ (∀ h, UnaryFloat (.fexp2 h) fexp2) ∧ (∀ h, UnaryFloat (.flog2 h) flog2) ∧
  (∀ h, UnaryFloat (.fsin h) (fsincos false)) ∧ (∀ h, UnaryFloat (.fcos h) (fsincos true)) ∧
  (∀ h, UnaryFloat (.ftanh h) ftanh) ∧ (∀ h, UnaryFloat (.fsigm h) fsigm) ∧
  (∀ mode x a, (fdec .f32 a).num = some x → x ≠ 0 → Machine.RoundedOnce .f32 mode false (1 / x) (frcp mode a)) ∧
  (∀ mode a, (fdec .f32 a).isNaN = true → ∀ r ∈ [frcp mode a, fsqrt mode a, frsq a, fexp2 a, flog2 a, fsincos false a,
    fsincos true a, ftanh a, fsigm a], r = (0x7FC00000, if (fdec .f32 a).isSig then 1 else 0)) ∧
  (∀ mode, frcp mode 0 = (0x7F800000, 16) ∧ frcp mode 0x80000000 = (0xFF800000, 16) ∧ frcp mode 0x7F800000 = (0, 0) ∧
    frcp mode 0xFF800000 = (0x80000000, 0) ∧ fsqrt mode 0x80000000 = (0x80000000, 0) ∧
    fsqrt mode 0x7F800000 = (0x7F800000, 0) ∧ fsqrt mode 0xFF800000 = (0x7FC00000, 1)) ∧
  (frsq 0 = (0x7F800000, 16) ∧ frsq 0x80000000 = (0xFF800000, 16) ∧ frsq 0x7F800000 = (0, 0) ∧
    fexp2 0xFF800000 = (0, 0) ∧ fexp2 0x7F800000 = (0x7F800000, 0) ∧ flog2 0 = (0xFF800000, 16) ∧
    flog2 0x80000000 = (0xFF800000, 16) ∧ flog2 0x7F800000 = (0x7F800000, 0) ∧ fsincos false 0 = (0, 0) ∧
    fsincos false 0x80000000 = (0x80000000, 0) ∧ fsincos true 0 = (0x3F800000, 0) ∧
    fsincos false 0x7F800000 = (0x7FC00000, 0) ∧ fsincos true 0xFF800000 = (0x7FC00000, 0) ∧ ftanh 0 = (0, 0) ∧
    ftanh 0x80000000 = (0x80000000, 0) ∧ ftanh 0x7F800000 = (0x3F800000, 0) ∧ ftanh 0xFF800000 = (0xBF800000, 0) ∧
    fsigm 0 = (0x3F000000, 0) ∧ fsigm 0x80000000 = (0x3F000000, 0) ∧ fsigm 0x7F800000 = (0x3F800000, 0) ∧
    fsigm 0xFF800000 = (0, 0)) ∧
  (∀ a x, (fdec .f32 a).num = some x → x < 0 →
    (∀ mode, fsqrt mode a = (0x7FC00000, 1)) ∧ frsq a = (0x7FC00000, 1) ∧ flog2 a = (0x7FC00000, 1)) ∧
  (∀ a x, (fdec .f32 a).num = some x → (128 ≤ x → fexp2 a = (0x7F800000, 2)) ∧ (x < -150 → fexp2 a = (0, 0))) ∧
  (∀ mode a x, (fdec .f32 a).num = some x → 0 < x → (fsqrt mode a).2 = 0 ∧
    ∃ y, (fdec .f32 (fsqrt mode a).1).num = some y ∧ 0 ≤ y ∧ ∀ b z, (fdec .f32 b).num = some z → 0 ≤ z →
      match mode with
      | .rn => (y < z → 4 * x ≤ (y + z) * (y + z)) ∧ (z < y → (y + z) * (y + z) ≤ 4 * x)
      | .rz | .rm => y * y ≤ x ∧ (z * z ≤ x → z ≤ y)
      | .rp => x ≤ y * y ∧ (x ≤ z * z → y ≤ z)) ∧
  (∀ a (n : Int), (fdec .f32 a).num = some (n : Rat) → -149 ≤ n → n ≤ 127 →
    (fexp2 a).2 = 0 ∧ (fdec .f32 (fexp2 a).1).num = some ((2 : Rat) ^ n)) ∧
  (∀ a (n : Int), (fdec .f32 a).num = some ((2 : Rat) ^ n) →
    (flog2 a).2 = 0 ∧ (fdec .f32 (flog2 a).1).num = some (n : Rat))

/-- R118 to R120, R146, R147: conversions and packing. -/
def Obligations.Conversions : Prop :=
  (∀ h dt st el mode sat d a, FlaggedResult (.cvt h dt st el mode sat d a) d dt.regs fun g l =>
    let v := g.rdN (g.reg a l) l st.regs
    let src := match st with
      | .bf16 => v / 2 ^ (16 * el.toNat) % 2 ^ 16
      | .e4m3 | .e5m2 => v / 2 ^ (8 * el.toNat) % 2 ^ 8
      | _ => v
    let r := convert dt st mode sat (BitVec.ofNat 64 src)
    (r.1.toNat, r.2)) ∧
  (∀ h hi fmt mode sat d a b, FlaggedResult (.pack h hi fmt mode sat d a b) d 1 fun g l =>
    let ra := fconv fmt .f32 mode sat (g.rdV (g.reg a l) l).toNat
    let rb := fconv fmt .f32 mode sat (g.rdV (g.reg b l) l).toNat
    let old := (g.rdV (g.reg d l) l).toNat
    (if fmt = .bf16 then rb.1 * 2 ^ 16 + ra.1
      else if hi then (rb.1 * 2 ^ 8 + ra.1) * 2 ^ 16 + old % 2 ^ 16
      else old / 2 ^ 16 * 2 ^ 16 + rb.1 * 2 ^ 8 + ra.1, ra.2 ||| rb.2)) ∧
  (∀ dt st mode sat b, (dt = .f32 ∨ dt = .bf16 ∨ dt = .e4m3 ∨ dt = .e5m2) →
    (∀ x, (fdec st b).num = some x → x ≠ 0 → Machine.RoundedOnce dt mode sat x (fconv dt st mode sat b)) ∧
    (∀ g, fdec st b = .nan g → fconv dt st mode sat b = (fNaN dt, if g then 1 else 0)) ∧
    (∀ n e, fdec st b = .fin n 0 e → fconv dt st mode sat b = (fSign dt n, 0)) ∧
    (∀ n, fdec st b = .inf n → fconv dt st mode sat b = if sat then (fSign dt n + fMax dt, 4)
      else if dt = .e4m3 then (fNaN dt, 2) else (fSign dt n + fInf dt, 0))) ∧
  (∀ dt st mode sat (v : DWord), st.isInt = false → dt.isInt = false →
    convert dt st mode sat v = (BitVec.ofNat 64 (fconv dt st mode sat v.toNat).1, (fconv dt st mode sat v.toNat).2)) ∧
  (∀ dt st mode sat (v : DWord), st.isInt = true → dt.isInt = false → convert dt st mode sat v =
    (BitVec.ofNat 64 (iconvF dt (fmtInt st) mode sat v).1, (iconvF dt (fmtInt st) mode sat v).2)) ∧
  (∀ dt ty mode sat (v : DWord), value ty v = 0 → iconvF dt ty mode sat v = (0, 0)) ∧
  (∀ dt st mode sat (v : DWord), st.isInt = false → dt.isInt = true →
    convert dt st mode sat v = fconvInt (fmtInt dt) st mode v.toNat) ∧
  (∀ ty st mode b, (∀ x, (fdec st b).num = some x → ∃ n, RoundsToInt mode x n ∧
      fconvInt ty st mode b = (BitVec.ofNat 64 (written ty true n).1, (written ty true n).2)) ∧
    (∀ g, fdec st b = .nan g → fconvInt ty st mode b = (0, 1)) ∧
    (fdec st b = .inf false → fconvInt ty st mode b = (BitVec.ofNat 64 (pattern ty (greatestOf ty)), 4)) ∧
    (fdec st b = .inf true → fconvInt ty st mode b = (BitVec.ofNat 64 (pattern ty (leastOf ty)), 4))) ∧
  (∀ dt ty mode sat (v : DWord), (dt = .f32 ∨ dt = .bf16 ∨ dt = .e4m3 ∨ dt = .e5m2) → value ty v ≠ 0 →
    Machine.RoundedOnce dt mode sat (value ty v : Rat) (iconvF dt ty mode sat v)) ∧
  (∀ dt st sat (v : DWord), dt.isInt = true → st.isInt = true → ∀ mode,
    convert dt st mode sat v =
      let r := written (fmtInt dt) (sat && decide ((fmtInt dt).width ≤ (fmtInt st).width)) (value (fmtInt st) v)
      (BitVec.ofNat 64 r.1, r.2))

/-- R146, R147: CVT and PACK complete wherever they issue without a trap, whatever the operands: the group goes on to the
next instruction, and only their destinations and NF may differ. -/
def Obligations.ConversionsComplete : Prop :=
  (∀ h dt st el mode sat d a (s : State) (r : GRef) (t : Team) (g : Group),
    Issues s r t g (.cvt h dt st el mode sat d a) →
    Completes s r t (.cvt h dt st el mode sat d a) (g.after (.cvt h dt st el mode sat d a)) fun g' =>
      Keeps g g' true false false false true ∧
      ∀ n l, l < 32 → ((g.takingPart (.cvt h dt st el mode sat d a)).getLsbD l = true →
        n < g.reg d l ∨ g.reg d l + dt.regs ≤ n) → g'.rdV n l = g.rdV n l) ∧
  (∀ h hi fmt mode sat d a b (s : State) (r : GRef) (t : Team) (g : Group),
    Issues s r t g (.pack h hi fmt mode sat d a b) →
    Completes s r t (.pack h hi fmt mode sat d a b) (g.after (.pack h hi fmt mode sat d a b)) fun g' =>
      Keeps g g' true false false false true ∧
      ∀ n l, l < 32 → ((g.takingPart (.pack h hi fmt mode sat d a b)).getLsbD l = true → n ≠ g.reg d l) →
        g'.rdV n l = g.rdV n l)

/-- R149, R150: shuffles within segments, and votes over the lanes that take part. -/
def Obligations.ShuffleAndVote : Prop :=
  (∀ h mode seg d a n, seg.toNat ≤ 4 → VectorResult (.shfl h mode seg d a n) (.reg d) 1 fun g l =>
    let w := 32 / 2 ^ seg.toNat
    let k : Nat := match n with | .imm m => m.toNat | .vec b => (g.rdV b.toNat l).toNat
    let j : Int := match mode with
      | .idx => k
      | .up => (l % w : Nat) - (k : Int)
      | .down => (l % w : Nat) + (k : Int)
      | .xor => ((l % w ^^^ k : Nat) : Int)
    let from_ := l - l % w + j.toNat
    (g.rdV a.toNat (if 0 ≤ j ∧ j < w ∧ (g.takingPart (.shfl h mode seg d a n)).getLsbD from_ then from_ else l)).toNat) ∧
  (∀ h inv d a (s : State) (r : GRef) (t : Team) (g : Group), Issues s r t g (.voteBallot h inv d a) →
    Completes s r t (.voteBallot h inv d a) (g.after (.voteBallot h inv d a)) fun g' =>
      ScalarResult g g' d.toNat
        ((g.takingPart (.voteBallot h inv d a) &&& (if inv then ~~~g.rdP a.toNat else g.rdP a.toNat)).setWidth 64) ∧
        Keeps g g' false true false false false) ∧
  (∀ h inv d a, d ≠ 7 → FlagResult (.voteAny h inv d a) d.toNat fun g _ =>
    (List.range 32).any fun j => (g.takingPart (.voteAny h inv d a)).getLsbD j && ((g.rdP a.toNat).getLsbD j != inv)) ∧
  (∀ h inv d a, d ≠ 7 → FlagResult (.voteAll h inv d a) d.toNat fun g _ =>
    (List.range 32).all fun j => !(g.takingPart (.voteAll h inv d a)).getLsbD j || ((g.rdP a.toNat).getLsbD j != inv)) ∧
  (∀ h inv d a, d ≠ 7 → FlagResult (.voteUni h inv d a) d.toNat fun g l =>
    (List.range 32).all fun j => !(g.takingPart (.voteUni h inv d a)).getLsbD j ||
      ((g.rdP a.toNat).getLsbD j == (g.rdP a.toNat).getLsbD l))

/-- R151, R152: the reduction in its fixed tree, the scan in lane order, and the flattened rows of REBAL. That a
signalling NaN which no combination reads sets no IV is the model's choice (log 73). -/
def Obligations.ReduceScanRebalance : Prop :=
  (∀ h op ty d a (s : State) (r : GRef) (t : Team) (g : Group) v fl, Issues s r t g (.redg h op ty true d a) →
    treeNode op ty (g.leaf (.redg h op ty true d a) ty a) 5 0 = some (v, fl) →
    Completes s r t (.redg h op ty true d a) (g.after (.redg h op ty true d a)) fun g' =>
      LaneResult g g' (.redg h op ty true d a) (.reg d) ty.regs (fun _ => v.toNat % 2 ^ (32 * ty.regs)) ∧
        Keeps g g' true false false false true ∧ g'.nf = g.nf ||| fl) ∧
  (∀ h op ty d a (s : State) (r : GRef) (t : Team) (g : Group) v fl, Issues s r t g (.redg h op ty false d a) →
    treeNode op ty (g.leaf (.redg h op ty false d a) ty a) 5 0 = some (v, fl) →
    Completes s r t (.redg h op ty false d a) (g.after (.redg h op ty false d a)) fun g' =>
      ScalarResult g g' d.toNat (if op = .fadd ∨ op = .fmin ∨ op = .fmax then v else scalarResult ty v) ∧
        Keeps g g' false true false false true ∧ g'.nf = g.nf ||| fl) ∧
  (∀ h op ty toV d a (s : State) (r : GRef) (t : Team) (g : Group), Issues s r t g (.redg h op ty toV d a) →
    g.takingPart (.redg h op ty toV d a) = 0 →
    Completes s r t (.redg h op ty toV d a) (g.after (.redg h op ty toV d a)) fun g' =>
      Keeps g g' false false false false false) ∧
  (∀ h op ty excl d a, FlaggedResult (.scang h op ty excl d a) (.reg d) ty.regs fun g l =>
    match lanesBelow op ty (g.leaf (.scang h op ty excl d a) ty a) (if excl then l else l + 1) with
    | some v => (v.1.toNat, v.2)
    | none => ((match op with
      | .add | .or | .xor | .fadd => 0
      | .and => 2 ^ ty.width - 1
      | .min => pattern ty (greatestOf ty)
      | .max => pattern ty (leastOf ty)
      | .fmin => 0x7F800000
      | .fmax => 0xFF800000), 0)) ∧
  (∀ ty a b, combine .add ty a b = (BitVec.ofNat 64 (pattern ty (value ty a + value ty b)), 0) ∧
    combine .min ty a b = (if value ty a ≤ value ty b then a else b, 0) ∧
    combine .max ty a b = (if value ty a ≤ value ty b then b else a, 0) ∧
    combine .and ty a b = (a &&& b, 0) ∧ combine .or ty a b = (a ||| b, 0) ∧ combine .xor ty a b = (a ^^^ b, 0)) ∧
  (∀ h d p a b (s : State) (r : GRef) (t : Team) (g : Group), p ≠ 7 → Issues s r t g (.rebal h d p a b) →
    let i : Instr := .rebal h d p a b
    let row := fun l =>
      let f := (g.rdS b.toNat).toNat % 2 ^ 32 + ((List.range l).filter fun j => (g.takingPart i).getLsbD j).length
      ((List.range 32).find? fun j => decide (g.rowStart i a j ≤ f ∧ f < g.rowStart i a j + g.rowLen i a j)).map
        fun j => (j, f - g.rowStart i a j)
    Completes s r t i (g.after i) fun g' =>
      LaneResult g g' i (.reg d) 2 (fun l => match row l with | some (j, o) => j + 2 ^ 32 * o | none => 0) ∧
      PredResult g g' i p.toNat (fun l => (row l).isSome) ∧ Keeps g g' true false true false false)

/-- R97: NOP has no effect beyond advancing the program counter by 4, whatever its guard; the words that encode it, the
subcodes of those that do not, and its class, CTL (code 0 of the engine classes). -/
def Obligations.NopOnlyAdvances : Prop :=
  (∀ (h : Hdr) (s : State) (r : GRef) (t : Team) (g : Group), h.len = .base → Issues s r t g (.nop h) →
    Completes s r t (.nop h) (g.pc + 4) fun g' => Keeps g g' false false false false false) ∧
  (∀ (w : Word) rest, w.setWidth 9 = (4 : BitVec 9) →
    let i : Instr := .nop { len := .base, p := w.extractLsb' 27 3, neg := false }
    (w.extractLsb' 30 2 = 0 → w.extractLsb' 9 18 = 0 → decode (wordBytes w ++ rest) = .ok i) ∧
    (w.extractLsb' 30 2 = 0 → w.extractLsb' 9 18 ≠ 0 → decode (wordBytes w ++ rest) = .bad 0x0A .base (some i)) ∧
    (w.extractLsb' 30 2 ≠ 0 → decode (wordBytes w ++ rest) = .bad 4 .base none)) ∧
  (∀ (w : Word) rest, w.extractLsb' 2 7 = (1 : BitVec 7) → w.setWidth 2 ≠ (0 : BitVec 2) → 16 ≤ rest.length →
    ∃ len, decode (wordBytes w ++ rest) = .bad 3 len none) ∧
  opClass 1 = some 0

/-- R100, R101: the branches: where they go, and that they change nothing but the program counter and
CALL's link register. -/
def Obligations.Branches : Prop :=
  (∀ h c disp, OnlyMoves (.bra h c disp) fun g =>
    if g.takes (.bra h c disp) c then g.pc + disp else g.after (.bra h c disp)) ∧
  (∀ h c a off, OnlyMoves (.brx h c a off) fun g =>
    if g.takes (.brx h c a off) c then (g.rdS a.toNat).setWidth 32 + off else g.after (.brx h c a off)) ∧
  (∀ h c a, OnlyMoves (.ret h c a) fun g =>
    if g.takes (.ret h c a) c then (g.rdS a.toNat).setWidth 32 else g.after (.ret h c a)) ∧
  (∀ h c d disp (s : State) (r : GRef) (t : Team) (g : Group), Issues s r t g (.call h c d disp) →
    let i : Instr := .call h c d disp
    (g.takes i c = true → Completes s r t i (g.pc + disp) fun g' =>
      ScalarResult g g' d.toNat ((g.after i).setWidth 64) ∧ Keeps g g' false true false false false) ∧
    (g.takes i c = false → Completes s r t i (g.after i) fun g' => Keeps g g' false false false false false))

/-- R98, R99: masked sections. Each writes EM within the run mask; MIF saves the masks. -/
def Obligations.MaskedSections : Prop :=
  (∀ inv d a (s : State) (r : GRef) (t : Team) (g : Group), Issues s r t g (.mif inv d a) →
    let i : Instr := .mif inv d a
    let c := if inv then ~~~g.rdP a.toNat else g.rdP a.toNat
    Completes s r t i (g.after i) fun g' =>
      ScalarResult g g' d.toNat ((g.em &&& ~~~c &&& g.run) ++ g.em) ∧ g'.em = g.em &&& c &&& g.run ∧
        Keeps g { g' with em := g.em } false true false false false) ∧
  (∀ a (s : State) (r : GRef) (t : Team) (g : Group), Issues s r t g (.melse a) →
    Completes s r t (.melse a) (g.after (.melse a)) fun g' =>
      g'.em = (g.rdS a.toNat).extractLsb' 32 32 &&& g.run ∧
        Keeps g { g' with em := g.em } false false false false false) ∧
  (∀ a (s : State) (r : GRef) (t : Team) (g : Group), Issues s r t g (.mend a) →
    Completes s r t (.mend a) (g.after (.mend a)) fun g' =>
      g'.em = (g.rdS a.toNat).setWidth 32 &&& g.run ∧
        Keeps g { g' with em := g.em } false false false false false)

/-- R88, R102 to R106, R296, R304: RGN opens a region whose registers read as before, or zero where not live; it fills
the checkpoint slot; a working set beyond the budget, a mask that has not converged and a head other than the one
where the group's lanes wait trap; a head waits for parked lanes; asked to stop, the group stops at a head with its
fast buffer written back. An instruction whose effect may not be repeated, and a write of a vector register outside
the working set, clear the restartable bit. That RGN.conv opens in trap mode with lanes parked is the model's choice
(log 25). -/
def Obligations.Regions : Prop :=
  (∀ len idem conv ws (s : State) (r : GRef) (t : Team) (g : Group), Turn s r t g (.rgn len idem conv ws) →
    fitsIn ws (t.budget r.grp) = true → g.mayOpen conv →
    let i : Instr := .rgn len idem conv ws
    Completes s r t i (g.after i) fun g' =>
      (∀ n l, l < 32 → g'.rdV n l = if inSet ws n && !liveIn ws n then 0 else g.rdV n l) ∧
      g'.slot = some { pc := g.pc, em := g.em, s := g.s.filter fun e => e.1 < 64, p := g.p, x := g.x, c := g.c,
                       ws := ws, rs := idem } ∧
      g'.em = g.em ∧ g'.s = g.s ∧ g'.p = g.p ∧ g'.x = g.x ∧ g'.nf = g.nf ∧
      Still g g') ∧
  (∀ len idem conv ws (s : State) (r : GRef) (t : Team) (g : Group), Turn s r t g (.rgn len idem conv ws) →
    ∀ vb n1 live, ws = .some vb n1 live → fitsIn ws (t.budget r.grp) = false →
    TrapsOn s r t g (.rgn len idem conv ws) g.run fun _ => mkFault 2 (max vb.toNat (t.budget r.grp)) 0 0) ∧
  (∀ len idem ws (s : State) (r : GRef) (t : Team) (g : Group), Turn s r t g (.rgn len idem true ws) →
    fitsIn ws (t.budget r.grp) = true → g.parks = [] → g.catchUp = none → (∀ b, g.stop ≠ .asked b) →
    g.em ||| g.exited ≠ 0xFFFFFFFF →
    TrapsOn s r t g (.rgn len idem true ws) (if g.em = 0 then g.run else g.em)
      fun _ => mkFault 5 0 ((g.em ||| g.exited).setWidth 64) 0) ∧
  (∀ len idem ws (s : State) (r : GRef) (t : Team) (g : Group), Turn s r t g (.rgn len idem true ws) →
    fitsIn ws (t.budget r.grp) = true → g.parks ≠ [] → g.catchUp = none → g.trap = none →
    exec (.rgn len idem true ws) s = .next (s.putGroup r { g with atHead := true })) ∧
  (∀ len idem ws (s : State) (r : GRef) (t : Team) (g : Group) c h, Turn s r t g (.rgn len idem true ws) →
    fitsIn ws (t.budget r.grp) = true → g.trap = none → g.catchUp = some c → c.head = some h → h ≠ g.pc →
    TrapsOn s r t g (.rgn len idem true ws) (if g.em = 0 then g.run else g.em)
      fun _ => mkFault 5 0 ((g.em ||| g.exited).setWidth 64) 0) ∧
  (∀ len idem ws (s : State) (r : GRef) (t : Team) (g : Group) b, Turn s r t g (.rgn len idem true ws) →
    fitsIn ws (t.budget r.grp) = true → g.trap = none → g.parks = [] → g.stop = .asked b →
    (∀ c, g.catchUp = some c → c.resume = [] ∧ (c.head = none ∨ c.head = some g.pc)) →
    let i : Instr := .rgn len idem true ws
    let again := b = false ∧ g.halted = false ∧ g.ended = false ∧ g.whole = none ∧ ∃ sl, g.slot = some sl ∧ sl.rs = true
    (g.pend ≠ [] ∨ again → exec i s = .next s) ∧
    (g.pend = [] → ¬ again → ∃ g', exec i s = .next (s.putGroup r g') ∧ g'.stop = .stopped ∧ g'.pc = g.pc ∧ g'.em = g.em ∧
      g'.s = g.s ∧ g'.p = g.p ∧ g'.x = g.x ∧ g'.slot = g.slot ∧
      ∀ n l, n < 640 → l < 32 → tget 0 g'.v (32 * n + l) = g.rdV n l ∧ g'.rdV n l = g.rdV n l)) ∧
  (∀ (x : Iss) pc sl, x.g.slot = some sl →
    let once : Prop := match x.i with
      | .atoms _ _ _ | .tatom _ _ _ | .datom _ _ _ _ | .tins _ _ | .tups _ _ | .tdel _ _ | .tdrop _ _
      | .cpy _ _ _ _ _ _ _ | .gath _ _ _ _ _ _ _ _ | .nmc _ _ _ _ | .coll _ _ _ _ | .cpyqf _ _ _ | .mxstart _ _ _
      | .barinit _ _ _ _ | .bararr _ _ _ | .barg _ _ | .gsig _ _ _ | .spawn _ _ _ _ | .ltrig _ => True
      | _ => False
    let outside : Prop := ∃ u l k, u ∈ x.i.uses ∧ u.cls = .v ∧ u.dst = true ∧ l < 32 ∧ x.act.getLsbD l = true ∧ k < u.cnt ∧
      inSet sl.ws (x.g.reg u.op l + k) = false ∧ x.g.reg u.op l + k < 640
    (once ∨ outside → (x.issued pc).slot = some { sl with rs := false }) ∧
    (¬ (once ∨ outside) → (x.issued pc).slot = some sl)) ∧
  (∀ h (s : State) (r : GRef) (t : Team) (g : Group), Issues s r t g (.ltrig h) →
    Completes s r t (.ltrig h) (g.after (.ltrig h)) fun g' => g'.slot = g.slot.map fun sl => { sl with rs := false })

/-- R82, R83, R96, R157: EXIT ends the active lanes, which count as triggered, and finishes the operations that have only
exited lanes left; LTRIG triggers them; PRIO.PASS changes the token
and nothing else, and releases it for a number beyond the team. -/
def Obligations.EndingLanesAndToken : Prop :=
  (∀ h (s : State) (r : GRef) (t : Team) (g : Group), Issues s r t g (.exit h) → g.trap = none →
    let m := g.takingPart (.exit h)
    Completes s r t (.exit h) (g.after (.exit h)) fun g' =>
      g'.exited = g.exited ||| m ∧ g'.triggered = g.triggered ||| m ∧ g'.em = g.em &&& ~~~m ∧
        Keeps (g.exitedOps m) { g' with exited := g.exited, triggered := g.triggered, em := g.em } false false false false false) ∧
  (∀ h (s : State) (r : GRef) (t : Team) (g : Group) ts, Issues s r t g (.exit h) → g.trap = some ts →
    let m := g.takingPart (.exit h)
    ts.pending &&& ~~~m ≠ 0 → Completes s r t (.exit h) (g.after (.exit h)) fun g' =>
      g'.exited = g.exited ||| m ∧ g'.trap = some { ts with pending := ts.pending &&& ~~~m } ∧ g'.em = g.em &&& ~~~m ∧
        Keeps (g.exitedOps m) { g' with exited := g.exited, triggered := g.triggered, em := g.em, trap := g.trap }
          false false false false false) ∧
  (∀ (t : Team) (n : Nat) (g : Group), t.groups[n]? = some g → g.exited = 0xFFFFFFFF →
    (t.afterEnd n).token ≠ some n ∧ (t.token ≠ some n → (t.afterEnd n).token = t.token)) ∧
  (∀ h (s : State) (r : GRef) (t : Team) (g : Group), Issues s r t g (.ltrig h) →
    Completes s r t (.ltrig h) (g.after (.ltrig h)) fun g' =>
      g'.triggered = g.triggered ||| g.takingPart (.ltrig h) ∧
        Keeps g { g' with triggered := g.triggered } false false false false false) ∧
  (∀ h n (s : State) (r : GRef) (t : Team) (g : Group), Issues s r t g (.prioPassImm h n) → g.ended = false →
    let i : Instr := .prioPassImm h n
    let tok := if g.takingPart i = 0 then t.token else if n.toNat ≤ shG t.shape then some n.toNat else none
    ∃ g', exec i s = .next (s.setTeam r.team (some { t.putGroup r.grp g' with token := tok })) ∧
      g'.pc = g.after i ∧ Keeps g g' false false false false false) ∧
  (∀ h a (s : State) (r : GRef) (t : Team) (g : Group), Issues s r t g (.prioPassReg h a) → g.ended = false →
    let i : Instr := .prioPassReg h a
    let n := (g.rdS a.toNat).toNat % 64
    let tok := if g.takingPart i = 0 then t.token else if n ≤ shG t.shape then some n else none
    ∃ g', exec i s = .next (s.setTeam r.team (some { t.putGroup r.grp g' with token := tok })) ∧
      g'.pc = g.after i ∧ Keeps g g' false false false false false)

/-- R67, R81, R257: SPAWN waits for the group's stores, and what its core has taken in (by log 67 all that stands there)
performs; then the record is pushed, or sD says why not. A push into a spool with room writes the records at the ring's tail
and moves the tail on, once the ring's page can be written. -/
def Obligations.SpawnPushes : Prop :=
  (∀ h d a sp (s : State) (r : GRef) (t : Team) (g : Group), Issues s r t g (.spawn h d a sp) →
    let i : Instr := .spawn h d a sp
    let home := s.flushWide t.core
    let p := home.partn t.part
    let after := fun (s0 : State) (v : DWord) => CompletesFrom s s0 r t i (g.after i) fun g' =>
      ScalarResult g g' d.toNat v ∧ Keeps g g' false true false false false
    (g.takingPart i = 0 → Completes s r t i (g.after i) fun g' => Keeps g g' false false false false false) ∧
    (g.takingPart i ≠ 0 → (∃ o, o ∈ g.pend ∧ o.path = .st) → exec i s = .next s) ∧
    (g.takingPart i ≠ 0 → (∀ o, o ∈ g.pend → o.path ≠ .st) →
      (¬ (sp.toNat < 16 ∧ spEN (p.spool sp.toNat) = true ∧ spDEV (p.spool sp.toNat) = true) → after home 2) ∧
      (p.pushable sp.toNat = true →
        2 ^ spLOG (p.spool sp.toNat) < ((p.spool sp.toNat).tail - (p.spool sp.toNat).head).toNat + 1 → after home 1) ∧
      (∀ s1, p.pushable sp.toNat = true → home.push (teamTie t) sp.toNat
          [g.rdS (a.toNat + 3) ++ g.rdS (a.toNat + 2) ++ g.rdS (a.toNat + 1) ++ g.rdS a.toNat] = .done s1 → after s1 0) ∧
      (∀ s1, p.pushable sp.toNat = true → home.push (teamTie t) sp.toNat
          [g.rdS (a.toNat + 3) ++ g.rdS (a.toNat + 2) ++ g.rdS (a.toNat + 1) ++ g.rdS a.toNat] = .wait s1 →
        exec i s = .next s1))) ∧
  (∀ (s : State) tie spool (rec : BitVec 256) s1, s.push tie spool [rec] = .done s1 →
    let part := tie.part
    let sp := (s.partn part).spool spool
    let s0 := s.ringWrite part (spSlot sp) (spLOG sp) sp.tail.toNat rec
    s1 = s0.setPartn part ((s0.partn part).setSpool spool { sp with tail := sp.tail + 1 })) ∧
  (∀ (s : State) tie spool (rec : BitVec 256),
    let sp := (s.partn tie.part).spool spool
    (2 ^ spLOG sp < (sp.tail - sp.head).toNat + 1 → s.push tie spool [rec] = .full) ∧
    ((sp.tail - sp.head).toNat < 2 ^ spLOG sp → ∀ tb, s.table tie.part (spSlot sp) = some tb →
      s.hubWait tie (spSlot sp) tb (sp.tail.toNat % 2 ^ spLOG sp * 32) 32 true = none →
      ∃ s1, s.push tie spool [rec] = .done s1))

/-- R91: ICINV drops the range's blocks from the issuing core's instruction cache and asks every other core of the scope;
the group is not ready until each has acknowledged, having dropped them. -/
def Obligations.InstructionCacheInvalidate : Prop :=
  (∀ h sc a b (s : State) (r : GRef) (t : Team) (g : Group), Issues s r t g (.icinv h sc a b) →
    let i : Instr := .icinv h sc a b
    let first := (g.rdS a.toNat).toNat % 2 ^ 32
    let count := (g.rdS b.toNat).toNat % 2 ^ 32
    let s0 := s.dropBlocks t.core t.part (recCSlot t.record) first count
    (g.takingPart i = 0 → Completes s r t i (g.after i) fun g' => Keeps g g' false false false false false) ∧
    (g.takingPart i ≠ 0 → ∀ whole, pWhole (s.partn t.part) = whole →
      let cores := match sc with
        | .grp | .team => [t.core]
        | .clu => (List.range 8).map fun k => t.core / 8 * 8 + k
        | .part => (s.partn t.part).coreList
        | _ => if whole then List.range 256 else (s.partn t.part).coreList
      let sf := if (sc = .dev ∨ sc = .sys) ∧ whole = false then g.sf ||| 4 else g.sf
      CompletesFrom s s0 r t i (g.after i) fun g' =>
        g'.sf = sf ∧ g'.icReq = g.icReq ++ (cores.filter fun k => k != t.core).map (fun k => (k, first, count)) ∧
        Keeps g { g' with sf := g.sf, icReq := g.icReq } false false false false false)) ∧
  (∀ (g : Group), g.icReq ≠ [] → g.canIssue = false) ∧
  (∀ (s : State) (r : GRef) (t : Team) (g : Group) ask asks core first count, s.group r = some (t, g) →
    g.icReq = ask ++ (core, first, count) :: asks → (∀ q, q ∈ ask → q.1 ≠ core) →
    exec (.icinvAcknowledge r core) s =
      .next ((s.dropBlocks core t.part (recCSlot t.record) first count).putGroup r { g with icReq := ask ++ asks })) ∧
  (∀ (s : State) core part slot first count b, b < 2 ^ 32 →
    tget none ((s.dropBlocks core part slot first count).core core).icache (icKey part slot b) =
      if count = 0 ∨ (first < b * 128 + 128 ∧ b * 128 < first + count) then none
        else tget none (s.core core).icache (icKey part slot b))

/-- R161 to R167: LDS, STS and ATOMS at issue: each lane's address and data join the queue, an access out of range is
recorded in SF and completes with zeros or is dropped, a misaligned lane traps; the lanes of one issue meet their fates
side by side. -/
def Obligations.ScratchpadIssue : Prop :=
  (∀ h o, Machine.ScratchpadIssue (.lds h o) .lds .ld o.size.bytes o.size.regs true
    (fun g l => (g.spBase o.base l + o.disp.toNat) % 2 ^ 32) fun g l => { mkReq l with reg := g.reg o.data l }) ∧
  (∀ h o, Machine.ScratchpadIssue (.sts h o) .sts .st o.size.bytes 0 false
    (fun g l => (g.spBase o.base l + o.disp.toNat) % 2 ^ 32) fun g l =>
      { mkReq l with data := BitVec.ofNat 128 (g.rdN (g.reg o.data l) l o.size.regs) }) ∧
  (∀ h o a, Machine.ScratchpadIssue (.atoms h o a) (.atoms o.op o.ty) .ld (o.ty.width / 8) o.ty.regs true
    (fun g l => ((g.rdV a.toNat l).toNat + o.off.toNat) % 2 ^ 32) fun g l =>
      { mkReq l with reg := o.d.toNat, data := BitVec.ofNat 128 (g.rdN o.b.toNat l o.ty.regs)
                     dat2 := BitVec.ofNat 128 (g.rdN o.c.toNat l o.ty.regs) })

/-- R38, R44, R155, R168, R267: DLD, DST and DATOM at issue: the row's bytes, key by key, join the queue at the place
that translation gives; a missing handle, another table kind, a missing right, a misaligned offset and a key or offset
out of range trap. R42, R169, R266: TLD, TST and TATOM at issue: the row that each lane's rowref names joins the
queue, its generation to be checked at the point; an unbound slot, a row slot beyond the table, a missing right, a
misaligned offset and an offset out of the row trap. R171, R294, R311: lanes that fault, lanes whose page is away,
which park to issue again, and lanes that go stand side by side in one issue. That SF.CLAMP stays as it was where no
lane takes part is the model's choice (log 74). -/
def Obligations.TableAccessIssue : Prop :=
  (∀ h o slot tb, AccessIssueAt (.dld h o) o.tab slot tb .ld 0 o.scope
    (fun g reqs => opOf g (.dld h o) .load .ld .team slot o.size.bytes o.size.regs reqs)
    fun g l => denseLane g tb slot (tRead tb) o.key o.off.toNat o.size.bytes l fun q => { q with reg := g.reg o.data l }) ∧
  (∀ h o slot tb, AccessIssueAt (.dst h o) o.tab slot tb .st 1 o.scope
    (fun g reqs => opOf g (.dst h o) .store .st .team slot o.size.bytes 0 reqs)
    fun g l => denseLane g tb slot (tWrite tb) o.key o.off.toNat o.size.bytes l fun q =>
      { q with reg := g.reg o.data l, data := BitVec.ofNat 128 (g.rdN (g.reg o.data l) l o.size.regs) }) ∧
  (∀ h o tab key slot tb, AccessIssueAt (.datom h o tab key) tab slot tb .ld 3 o.scope
    (fun g reqs => opOf g (.datom h o tab key) (.atom o.op o.ty) .ld .team slot (o.ty.width / 8) o.ty.regs reqs)
    fun g l =>
      let k := g.rdKey (tKType tb) (.vec key) l
      if tKind tb = 0 ∧ ¬ (tLo tb ≤ k ∧ k < tLo tb + tCap tb) then
        .inl (mkFault 8 0 (keyAddr (tKType tb) k) (mkAux slot o.off.toNat))
      else denseLane g tb slot (tWrite tb) (.vec key) o.off.toNat (o.ty.width / 8) l fun q =>
        { q with reg := o.d.toNat, data := BitVec.ofNat 128 (g.rdN o.b.toNat l o.ty.regs)
                 dat2 := BitVec.ofNat 128 (g.rdN (o.b.toNat + o.ty.regs) l o.ty.regs) }) ∧
  (∀ i tab kind path sc, (∃ h o, i = .dld h o ∧ o.tab = tab ∧ kind = .load ∧ path = .ld ∧ sc = .team) ∨
      (∃ h o, i = .dst h o ∧ o.tab = tab ∧ kind = .store ∧ path = .st ∧ sc = .team) ∨
      (∃ h o key, i = .datom h o tab key ∧ kind = .atom o.op o.ty ∧ path = .ld ∧ sc = .team) ∨
      (∃ h o, i = .fetch h o ∧ o.tab = tab ∧ kind = .fetch o.fmt ∧ path = .ft ∧ sc = .part) →
    ∀ (s : State) (r : GRef) (t : Team) (g : Group), Issues s r t g i → g.takingPart i ≠ 0 →
      s.handle t.part (g.rdS tab.toNat) = none → IssuesWith s s r t g i (opOf g i kind path sc 0 4 0 [])
        ((laneList (g.takingPart i)).map fun l => (l, mkFault 0x0B 0 (g.rdS tab.toNat) 0)) [] g.sf) ∧
  (∀ i, (∃ h o, i = .dld h o) ∨ (∃ h o, i = .dst h o) ∨ (∃ h o a b, i = .datom h o a b) ∨ (∃ h o, i = .fetch h o) ∨
      (∃ h o, i = .tld h o) ∨ (∃ h o, i = .tst h o) ∨ (∃ h o a, i = .tatom h o a) →
    ∀ (s : State) (r : GRef) (t : Team) (g : Group), Issues s r t g i → g.takingPart i = 0 → (∀ va, g.wait ≠ .xlate va) →
      Completes s r t i (g.after i) fun g' => Keeps g g' false false false false false) ∧
  (∀ h o, AccessIssue (.tld h o) .ld 0 o.scope
    (fun g reqs => { opOf g (.tld h o) .load .ld .team 0 o.size.bytes o.size.regs reqs with
                         byRef := true, pred := o.ck.map BitVec.toNat, quiet := o.ck.isSome })
    fun s t g l => rowLane s t g false o.ref o.off.toNat o.size.bytes l fun q => { q with reg := g.reg o.data l }) ∧
  (∀ h o, AccessIssue (.tst h o) .st 1 o.scope
    (fun g reqs => { opOf g (.tst h o) .store .st .team 0 o.size.bytes 0 reqs with byRef := true })
    fun s t g l => rowLane s t g true o.ref o.off.toNat o.size.bytes l fun q =>
      { q with reg := g.reg o.data l, data := BitVec.ofNat 128 (g.rdN (g.reg o.data l) l o.size.regs) }) ∧
  (∀ h o ref, AccessIssue (.tatom h o ref) .ld 3 o.scope
    (fun g reqs =>
      { opOf g (.tatom h o ref) (.atom o.op o.ty) .ld .team 0 (o.ty.width / 8) o.ty.regs reqs with byRef := true })
    fun s t g l => rowLane s t g true ref o.off.toNat (o.ty.width / 8) l fun q =>
      { q with reg := o.d.toNat, data := BitVec.ofNat 128 (g.rdN o.b.toNat l o.ty.regs)
               dat2 := BitVec.ofNat 128 (g.rdN o.c.toNat l o.ty.regs) })

/-- R158, R159, R170: FETCH at issue, element by element, those out of range reading zero, another table kind and a missing
right trapping; WAIT and WAITP go on once the counts are low enough, and wait otherwise. -/
def Obligations.FetchAndWait : Prop :=
  (∀ h (o : Sys2Proof.Fetch) slot tb,
    let size := match o.fmt with | .bf16 => 2 | .e4m3 | .e5m2 => 1 | _ => 4
    AccessIssueAt (.fetch h o) o.tab slot tb .ft 2 .part
      (fun g reqs => opOf g (.fetch h o) (.fetch o.fmt) .ft .part slot size 1 reqs) fun g l =>
      let key := match o.key with
        | .vec (.reg n) => g.rdKey (tKType tb) (.vec n) l
        | .vec (.idx x off) => keyOfNat (tKType tb) (g.rdV (g.reg (.idx x off) l) l).toNat
        | .sca n => g.rdKey (tKType tb) (.sca n) l
      let elem := match o.c with | .vec v => (g.rdV (g.reg v l) l).toNat | .imm w => w.toNat
      let inRow := fun j => decide (tLo tb ≤ key ∧ key < tLo tb + tCap tb ∧ (elem + j + 1) * size ≤ tWidth tb)
      if tKind tb ≠ 0 ∨ (ktBits (tKType tb) ≠ 32 ∧ ∃ x off, o.key = .vec (.idx x off)) then
        .inl (mkFault 0x0C 0 (keyAddr (tKType tb) key) (mkAux slot 0))
      else if tRead tb = false then .inl (mkFault 0x0D 0 (keyAddr (tKType tb) key) (mkAux slot 0))
      else .inr ((List.range (o.n1.toNat + 1)).map fun j =>
        (slot, tb, (key - tLo tb).toNat * tWidth tb + (elem + j) * size,
          { mkReq l with key := keyAddr (tKType tb) key, reg := g.reg o.d l + j, zero := !inRow j }))) ∧
  (∀ len ld st cp mx (s : State) (r : GRef) (t : Team) (g : Group), Issues s r t g (.wait len ld st cp mx) →
    let i : Instr := .wait len ld st cp mx
    let met := fun (p : Path) (th : BitVec 6) => th = 63 ∨ g.count p ≤ th.toNat
    (met .ld ld ∧ met .st st ∧ met .cp cp ∧ met .mx mx →
      Completes s r t i (g.after i) fun g' => Keeps g g' false false false false false) ∧
    (¬ (met .ld ld ∧ met .st st ∧ met .cp cp ∧ met .mx mx) → exec i s = .next s)) ∧
  (∀ path a (s : State) (r : GRef) (t : Team) (g : Group), Issues s r t g (.waitp path a) →
    let p : Path := [Path.ld, .st, .tb, .ft, .cp, .mx, .nm, .gt].getD path.toNat .ld
    (g.count p ≤ (g.rdS a.toNat).toNat →
      Completes s r t (.waitp path a) (g.after (.waitp path a)) fun g' => Keeps g g' false false false false false) ∧
    ((g.rdS a.toNat).toNat < g.count p → exec (.waitp path a) s = .next s))

/-- R42, R157, R160, R165, R167 to R169, R172, R181, R254, R339: LOAD_COMPLETE: a lane's registers take the scratchpad's
bytes, the old value of a scratchpad atomic, or the bytes that its scope's point holds, joined with a half read before; a
stale row reads zero, and an unbound slot or poison fails the lane. A read through a window, before which the team's own
writes of the line join the stream, passes no earlier write of its stream, takes what the far side answers, and fails where
a peer refuses or cannot be reached. That a device without a number fails with cause 0x0D and a port that is down with 0x17
detail 4 are the model's choices (log 31), as are a slot unbound at the point (log 21) and the stale row before poison
(log 26). -/
def Obligations.LoadsComplete : Prop :=
  ∀ (s : State) (r : GRef) (t : Team) (g : Group) (o : Pend) (q : LaneReq), AtPoint s r t g o q →
    let complete : Instr := .loadComplete r o.id (BitVec.ofNat 32 (2 ^ q.lane)) []
    let at_ := q.left
    let n := q.leftBytes o.size
    let current := o.byRef = true →
      ∃ tb, s.table t.part (q.key.toNat / 2 ^ 52) = some tb ∧ rowCurrent tb q.key = true
    let far := isWindow q.addr = true ∧ s.l1Hit t.core o q = false
    let reads := fun (s0 : State) =>
      let x := s0.loadAt o.scope t.core (r.team, r.grp, q.lane) at_ n
      delivered x.1 r g o q (q.whole (leNat x.2)) true
    let fails := fun f => State.settleFaults (s.failLane r g o q.lane f) r o.id
    let s1 := s.beforeLoad o.scope t.core (q.addr / 128) (r.team, r.grp, q.lane)
    let refused := fun f => State.settleFaults (s1.failLane r g o q.lane f) r o.id
    (o.kind = .lds → exec complete s =
      .next (delivered s r g o q (if q.zero then 0 else q.whole (leNat (t.spRead at_ n))) true)) ∧
    (∀ op ty, o.kind = .atoms op ty → o.lanes.head?.map LaneReq.lane = some q.lane → q.zero = false → o.size = ty.width / 8 →
      let old : DWord := BitVec.ofNat 64 (leNat (t.spRead q.addr o.size))
      let new := (atomicNew op ty old (q.data.setWidth 64) (q.dat2.setWidth 64)).getD old
      ∃ t', exec complete s = .next (delivered (s.setTeam r.team (some t')) r g o q old.toNat true) ∧
        t' = { t with scratch := t'.scratch } ∧
        ∀ a, tget 0 t'.scratch a = if q.addr ≤ a ∧ a < q.addr + o.size then
          (natBytes new.toNat o.size).getD (a - q.addr) 0 else tget 0 t.scratch a) ∧
    (o.kind = .load → o.byRef = true → ∀ tb, s.table t.part (q.key.toNat / 2 ^ 52) = some tb → rowCurrent tb q.key = false →
      exec complete s =
        .next (delivered (if o.quiet then s else s.noteStale t.part q.key false) r g o q 0 false)) ∧
    (o.kind = .load → o.byRef = true → s.table t.part (q.key.toNat / 2 ^ 52) = none →
      exec complete s = .next ((s.failLane r g o q.lane (mkFault 0x0B 0 q.key 0)).settleFaults r o.id)) ∧
    (o.kind = .load → current → ¬ far →
      (s.poisoned q.addr o.size = true →
        exec complete s = .next (fails (mkFault 0x10 0 q.key (mkAux (o.slotOf q) 0)))) ∧
      (s.poisoned q.addr o.size = false → exec complete s = .next (reads s))) ∧
    (o.kind = .load → current → far → ∀ ext v, ext[q.lane]? = some v →
      let step := exec (.loadComplete r o.id (BitVec.ofNat 32 (2 ^ q.lane)) ext) s
      (s1.streamBusy t.part q.addr = true → step = .next s1) ∧
      (s1.streamBusy t.part q.addr = false →
        (isPeer q.addr = true → s.onSkein = false → step = .next (refused (mkFault 0x0D 0 q.key (mkAux (o.slotOf q) 0)))) ∧
        (isPeer q.addr = true → s.onSkein = true → s.portUp = false →
          step = .next (refused (mkFault 0x17 4 (BitVec.ofNat 64 q.addr) 0))) ∧
        (isPeer q.addr = true → s.onSkein = true → exec complete s =
          .next (refused (mkFault 0x0D 0 q.key (mkAux (o.slotOf q) 0)))) ∧
        ((isPeer q.addr = true → s.onSkein = true ∧ s.portUp = true) →
          (s1.poisoned q.addr o.size = true → step = .next (refused (mkFault 0x10 0 q.key (mkAux (o.slotOf q) 0)))) ∧
          (s1.poisoned q.addr o.size = false → step = .next (reads (s1.wrNat q.addr o.size v.toNat))))))

/-- R83, R127, R157, R170: what a completed lane leaves in its group: its own registers or predicate and nothing else, and
neither where the lane has exited. A FETCH completes a lane: each element is that of the fetch unit's copy of its line,
widened, and elements out of range are zero. -/
def Obligations.LoadsAndFetchesDeliver : Prop :=
  (∀ (g : Group) (o : Pend) (q : LaneReq) v p, q.lane < 32 →
     let g' := (g.result o q v p).laneDone o q.lane
     (g.exited.getLsbD q.lane = true → (∀ n l, g'.rdV n l = g.rdV n l) ∧ g'.p = g.p) ∧
     (g.exited.getLsbD q.lane = false → g'.rdN q.reg q.lane o.regs = v % 2 ^ (32 * o.regs) ∧
       (∀ n, o.pred = some n → n ≠ 7 → (g'.rdP n).getLsbD q.lane = p)) ∧
     (∀ n l, l < 32 → l ≠ q.lane ∨ n < q.reg ∨ q.reg + o.regs ≤ n → g'.rdV n l = g.rdV n l) ∧
     (∀ n l, l < 32 → l ≠ q.lane ∨ o.pred ≠ some n → (g'.rdP n).getLsbD l = (g.rdP n).getLsbD l) ∧
     g'.s = g.s ∧ g'.x = g.x ∧ g'.c = g.c ∧ g'.pc = g.pc ∧ g'.em = g.em ∧ g'.nf = g.nf ∧ g'.sf = g.sf ∧
     g'.parks = g.parks ∧ g'.exited = g.exited ∧
     g'.pend = settleOps [] (g.pend.map fun a => if a.id = o.id then
       let left := o.lanes.filter fun a => a.lane != q.lane
       { o with lanes := left
                fin := if o.kind.perLane then left.all fun a => g.exited.getLsbD a.lane else left.isEmpty } else a)) ∧
  ((∀ (s : State) (r : GRef) (t : Team) (g : Group) (o : Pend) (q : LaneReq) fmt v, AtPoint s r t g o q →
     o.kind = .fetch fmt → o.lanes.filter (fun a => a.lane == q.lane) = [q] → q.zero = false →
     s.poisoned q.addr o.size = false → tget none (s.core t.core).ft (lineOf q.addr) = some v →
     let e := leNat (sliceLine v (q.addr % 128) o.size)
     let res : Nat × Word := match fmt with
       | .bf16 | .e4m3 | .e5m2 => fconv .f32 fmt .rn false e
       | _ => (e, 0)
     exec (.loadComplete r o.id (BitVec.ofNat 32 (2 ^ q.lane)) []) s =
       .next (s.putGroup r ((((g.result o q (res.1 % 2 ^ 32) true)).orNF
         (if g.exited.getLsbD q.lane then 0 else res.2)).laneDone o q.lane))) ∧
   (∀ (s : State) (r : GRef) (t : Team) (g : Group) (o : Pend) (q : LaneReq) fmt, AtPoint s r t g o q →
     o.kind = .fetch fmt → o.lanes.filter (fun a => a.lane == q.lane) = [q] → q.zero = true →
     exec (.loadComplete r o.id (BitVec.ofNat 32 (2 ^ q.lane)) []) s = .next (delivered s r g o q 0 true)))

/-- R42, R160, R166, R168, R169, R249, R294, R332: STORE_PERFORM: a lane's bytes reach the scratchpad, or the point of its
scope; a stale row is recorded and nothing is written; poison and an unbound slot fail the lane. Of the lanes of an STS
that write one byte, the highest-numbered prevails. A lane whose access meets poison parks when the point answers: nothing
is read or written, the lane leaves EM, and the record names the instruction and its next. A slot unbound at the point
(log 21), the stale row before poison (log 26) and the lanes that park together (log 18) are the model's choices. -/
def Obligations.StoresPerform : Prop :=
  ((∀ (s : State) (r : GRef) (t : Team) (g : Group) (o : Pend) (q : LaneReq), AtPoint s r t g o q → o.alone q →
     let perform : Instr := .storePerform r o.id (BitVec.ofNat 32 (2 ^ q.lane))
     let current := o.byRef = true →
       ∃ tb, s.table t.part (q.key.toNat / 2 ^ 52) = some tb ∧ rowCurrent tb q.key = true
     let bs := match q.half with
       | none => natBytes q.data.toNat o.size
       | some true => (natBytes q.data.toNat o.size).take 8
       | some false => ((natBytes q.data.toNat o.size).drop 8).take 8
     (o.kind = .sts → ∃ t', exec perform s = .next (delivered (s.setTeam r.team (some t')) r g o q 0 true) ∧
       t' = { t with scratch := t'.scratch } ∧
       ∀ a, tget 0 t'.scratch a = if q.left ≤ a ∧ a < q.left + bs.length then bs.getD (a - q.left) 0
         else tget 0 t.scratch a) ∧
     (o.kind = .store → current → isWindow q.addr = true ∨ s.poisoned q.addr o.size = false → exec perform s =
       .next (delivered (s.storeAt o.scope t.core t.part q.va q.leaf (r.team, r.grp, q.lane) q.left bs q.half.isSome)
         r g o q 0 true)) ∧
     (o.kind = .store → current → isWindow q.addr = false → s.poisoned q.addr o.size = true → exec perform s = .next
       ((s.failLane r g o q.lane (mkFault 0x10 0 q.key (mkAux (o.slotOf q) 0))).settleFaults r o.id)) ∧
     (o.kind = .store → o.byRef = true → ∀ tb, s.table t.part (q.key.toNat / 2 ^ 52) = some tb →
       rowCurrent tb q.key = false → exec perform s =
         .next (delivered (if o.quiet then s else s.noteStale t.part q.key true) r g o q 0 false)) ∧
     (o.kind = .store → o.byRef = true → s.table t.part (q.key.toNat / 2 ^ 52) = none → exec perform s =
       .next ((s.failLane r g o q.lane (mkFault 0x0B 0 q.key 0)).settleFaults r o.id))) ∧
   (∀ (s : State) (r : GRef) (t : Team) (g : Group) (o : Pend), s.opAt r o.id = some (t, g, o) → o.kind = .sts →
     o.faults = [] → 0 < o.size →
     (∀ q, q ∈ o.lanes → q.lane < 32 ∧ q.zero = false ∧ q.half = none ∧ g.laneBlocked o q = false) →
     o.lanes.Pairwise (fun a b => a.lane < b.lane) →
     ∃ s' t', exec (.storePerform r o.id 0xFFFFFFFF) s = .next s' ∧ s'.team r.team = some t' ∧
       ∀ a, tget 0 t'.scratch a =
         match o.lanes.reverse.find? fun q => decide (q.addr ≤ a ∧ a < q.addr + o.size) with
         | some q => (natBytes q.data.toNat o.size).getD (a - q.addr) 0
         | none => tget 0 t.scratch a)) ∧
  (∀ (s : State) (r : GRef) (t : Team) (g : Group) (o : Pend) (q : LaneReq), AtPoint s r t g o q →
     (o.kind = .load ∨ o.kind = .store) → o.lanes = [q] → o.byRef = false → isWindow q.addr = false →
     s.poisoned q.addr o.size = true →
     g.trap = none → g.halted = false → g.whole = none → g.redo = none → g.parks.length < 4 → (∀ p, p ∈ g.parks → p.op ≠ some o.id) →
     (g.exited ||| parkLanes g.parks).getLsbD q.lane = false →
     let i : Instr := if o.kind = .load then .loadComplete r o.id (BitVec.ofNat 32 (2 ^ q.lane)) []
       else .storePerform r o.id (BitVec.ofNat 32 (2 ^ q.lane))
     let fs := [(q.lane, mkFault 0x10 0 q.key (mkAux o.slot 0))]
     let park : Park := { rpl := false, async := false, pc := o.pc, next := o.next, insn := o.insn, faults := fs,
                          resolved := false, op := none }
     ∃ g', exec i s = .next (s.putGroup r g') ∧ g'.pc = g.pc ∧ g'.em = g.em &&& ~~~BitVec.ofNat 32 (2 ^ q.lane) ∧
       g'.parks = g.parks ++ [park] ∧
       g'.v = g.v ∧ g'.fast = g.fast ∧ g'.s = g.s ∧ g'.p = g.p ∧ g'.x = g.x ∧ g'.nf = g.nf ∧ g'.exited = g.exited)

/-- R160, R247, R250 to R252, R256: where loads and stores of each scope find and leave their bytes: a team access in the
core's copy and its outbound writes, a clu access in the cluster point that holds the line, a part access at home; and
that memory elsewhere is left alone. A load of scope clu or wider may be one that acquires: its team's loads of scope part
find from then on what the lines of its cluster point hold (R256); that it is each such load is the model's reading (log 67). -/
def Obligations.ScopePoints : Prop :=
  (∀ (s : State) core who key n v, tget none (s.core core).l1 (key / 128) = some v → ∀ sc, sc = .grp ∨ sc = .team →
    s.loadAt sc core who key n = (s, sliceLine v (key % 128) n)) ∧
  (∀ (s : State) core who key n, tget none (s.core core).l1 (key / 128) = none → (s.core core).outb = [] →
    (s.cluster (core / 8)).line (key / 128) = none → ∀ sc, sc = .grp ∨ sc = .team →
    (s.loadAt sc core who key n).2 = sliceLine (s.lineBits (key / 128)) (key % 128) n) ∧
  (∀ (s : State) core who key n, s.quietLine core (key / 128) → ∀ sc, sc = .clu ∨ sc = .part ∨ sc = .dev ∨ sc = .sys →
    s.loadAt sc core who key n = (s.mayAcquire core who.1, s.rd key n)) ∧
  (∀ (s : State) core who key n h, (∀ w, w ∈ (s.core core).outb → lineOf w.addr ≠ key / 128) →
    (s.cluster (core / 8)).line (key / 128) = some h →
    s.loadAt .clu core who key n = (s.mayAcquire core who.1, sliceLine h.data (key % 128) n)) ∧
  (∀ (s : State) core team, ∃ s', s.mayAcquire core team = s' ∧ s' = { s with clusters := s'.clusters } ∧
    ∀ c l, match (s.cluster c).line l with
      | none => (s'.cluster c).line l = none
      | some h => ∃ got, (s'.cluster c).line l = some { h with got := got } ∧
          (h.own ≠ [] → c = core / 8 → team ∈ got) ∧ ∀ x, x ∈ h.got → x ∈ got) ∧
  (∀ (s : State) core who key n h, (∀ w, w ∈ (s.core core).outb → lineOf w.addr ≠ key / 128) →
    (s.cluster (core / 8)).line (key / 128) = some h → h.own ≠ [] → who.1 ∈ h.got ∨ (∃ w, w ∈ h.own ∧ w.1 = who.1) →
    key % 128 + n ≤ 128 → ∀ sc, sc = .part ∨ sc = .dev ∨ sc = .sys →
    (s.loadAt sc core who key n).2 = sliceLine h.data (key % 128) n) ∧
  (∀ (s : State) core part va leaf who key bs half sc, sc = .grp ∨ sc = .team →
    let s' := s.storeAt sc core part va leaf who key bs half
    let write := fun (at_ : Nat) (b : List Byte) =>
      ({ addr := at_, bytes := b, who := who, part := part, va := va, half := half || bs.length == 16 } : OutW)
    (s'.core core).outb = (s.core core).outb ++
      (if bs.length = 16 then [write key (bs.take 8), write (key + 8) (bs.drop 8)] else [write key bs]) ∧
    tget none (s'.core core).l1 (key / 128) =
      (tget none (s.core core).l1 (key / 128)).map (fun v => patchLine v (key % 128) bs) ∧
    s'.mem = (s.setD leaf).mem ∧ s'.clusters = s.clusters) ∧
  (∀ (s : State) core part va leaf who key bs half sc, sc = .part ∨ sc = .dev ∨ sc = .sys → bs ≠ [] →
    (∀ k, k < bs.length → isWindow (key + k) = false) →
    s.nothingHeld core key bs.length → (∀ h, h ∈ (s.cluster (core / 8)).hot → h.own = []) →
    ((s.partn part).dlcfg).getLsbD 0 = false →
    let s' := s.storeAt sc core part va leaf who key bs half
    s'.rd key bs.length = bs ∧
    ∀ a, a < key ∨ key + bs.length ≤ a → leaf ≠ some a → s'.byte a = s.byte a) ∧
  (∀ (s : State) core part va leaf who key bs half h, bs ≠ [] → key % 128 + bs.length ≤ 128 → (s.core core).outb = [] →
    (s.cluster (core / 8)).line (key / 128) = some h →
    let s' := s.storeAt .clu core part va leaf who key bs half
    s'.mem = (s.setD leaf).mem ∧ ((s'.cluster (core / 8)).line (key / 128)).map HotLine.data = some (patchLine h.data (key % 128) bs))

/-- R249 to R252: an outbound write moves home after the older ones of its bytes, an L1 copy is dropped, a cluster point
writes a line back. -/
def Obligations.OrderingSteps : Prop :=
  (∀ (s : State) core index w, (s.core core).outb[index]? = some w →
    (∀ j a, j < index → (s.core core).outb[j]? = some a →
      ¬ (a.addr < w.addr + w.bytes.length ∧ w.addr < a.addr + a.bytes.length)) →
    let c := s.core core
    let s0 := s.setCore core { c with outb := c.outb.eraseIdx index }
    exec (.moveHome core index) s = .next (s0.landWrite core w) ∧
    ((s.cluster (core / 8)).line (lineOf w.addr) = none → isWindow w.addr = false → w.bytes ≠ [] →
      (∀ l, w.addr / 128 ≤ l → l ≤ (w.addr + w.bytes.length - 1) / 128 → s.holder l = none) →
      (s0.landWrite core w).rd w.addr w.bytes.length = w.bytes)) ∧
  (∀ (s : State) core index w j a, (s.core core).outb[index]? = some w → j < index → (s.core core).outb[j]? = some a →
    a.addr < w.addr + w.bytes.length → w.addr < a.addr + a.bytes.length → exec (.moveHome core index) s = .next s) ∧
  (∀ (s : State) core line, ∃ s', exec (.l1Drop core line) s = .next s' ∧ s' = { s with cores := s'.cores } ∧
    tget none (s'.core core).l1 line = none ∧ (s'.core core).outb = (s.core core).outb ∧
    (∀ l, l ≠ line → tget none (s'.core core).l1 l = tget none (s.core core).l1 l) ∧
    (∀ c, c ≠ core → s'.core c = s.core c)) ∧
  (∀ (s : State) cluster line h drop, (s.cluster cluster).line line = some h →
    ∃ s', exec (.clusterWriteBack cluster line drop) s = .next s' ∧
      (h.own ≠ [] → s'.rd (128 * h.line) 128 = natBytes h.data.toNat 128) ∧
      (h.own = [] → s'.mem = s.mem) ∧
      (drop = true → (s'.cluster cluster).line line = none) ∧
      (drop = false → ((s'.cluster cluster).line line).map HotLine.data = some h.data) ∧
      (∀ l, l ≠ line → (s'.cluster cluster).line l = (s.cluster cluster).line l))

/-- R262 to R269: one lane of an atomic at its unit: its register takes the old value, the bytes the new one: at the home
slice, in the line of the cluster engine (whose batch moves the rotation pointer on), and, through a window, what the
far side answers; what PCIe has no operation for, a window without atomics and an answer that does not come fail it. -/
def Obligations.AtomicPoints : Prop :=
  (∀ old b c, (∀ ty, atomicNew .add ty old b c = some (BitVec.ofNat 64 (pattern ty (value ty old + value ty b))) ∧
      atomicNew .min ty old b c = some (if value ty old ≤ value ty b then old else b) ∧
      atomicNew .max ty old b c = some (if value ty old ≤ value ty b then b else old) ∧
      atomicNew .and ty old b c = some (old &&& b) ∧ atomicNew .or ty old b c = some (old ||| b) ∧
      atomicNew .xor ty old b c = some (old ^^^ b) ∧ atomicNew .exch ty old b c = some b ∧
      atomicNew .cas ty old b c = (if old = b then some c else none) ∧
      atomicNew .fadd ty old b c =
        some (BitVec.ofNat 64 (fadd .f32 .rn false (fdec .f32 old.toNat) (fdec .f32 b.toNat)).1))) ∧
  (∀ (s : State) (r : GRef) (t : Team) (g : Group) (o : Pend) (q : LaneReq) op ty, s.opAt r o.id = some (t, g, o) →
    o.kind = .atom op ty → o.faults = [] → o.lanes.find? (fun a => !isWindow a.addr) = some q →
    g.laneBlocked o q = false → s.poisoned q.addr o.size = false →
    (o.byRef = true → ∃ tb, s.table t.part (q.key.toNat / 2 ^ 52) = some tb ∧ rowCurrent tb q.key = true) →
    o.scope = .part ∨ o.scope = .dev ∨ o.scope = .sys →
    let x := s.atomicAtHome t.core t.part q.va q.leaf op ty q.addr (q.data.setWidth 64) (q.dat2.setWidth 64)
    exec (.homeSliceAtomic r o.id) s = .next (delivered x.1 r g o q x.2.toNat true)) ∧
  (∀ (s : State) core part va leaf op ty key b c, isWindow key = false → s.nothingHeld core key (ty.width / 8) →
    (∀ h, h ∈ (s.cluster (core / 8)).hot → h.own = []) → key / 128 = (key + ty.width / 8 - 1) / 128 →
    let x := s.atomicAtHome core part va leaf op ty key b c
    x.2 = BitVec.ofNat 64 (s.rdNat key (ty.width / 8)) ∧
    (∀ new, atomicNew op ty x.2 b c = some new → x.1.rd key (ty.width / 8) = natBytes new.toNat (ty.width / 8)) ∧
    (atomicNew op ty x.2 b c = none → x.1.mem = s.mem)) ∧
  (∀ (s : State) (r : GRef) (t : Team) (g : Group) (o : Pend) (q : LaneReq) op ty cl, s.opAt r o.id = some (t, g, o) →
    o.kind = .atom op ty → o.faults = [] → o.lanes = [q] → isWindow q.addr = false →
    g.laneBlocked o q = false → s.poisoned q.addr o.size = false → o.byRef = false →
    o.scope = .grp ∨ o.scope = .team ∨ o.scope = .clu → t.core / 8 = cl →
    let x := s.atomicAtCluster t.core t.part q.va q.leaf (r.team, r.grp, q.lane) op ty (o.scope == .clu) q.addr
      (q.data.setWidth 64) (q.dat2.setWidth 64)
    let s1 := delivered x.1 r g o q x.2.toNat true
    exec (.clusterAtomicEngineBatch cl [(r, o.id)]) s =
      .next (s1.setCluster cl { s1.cluster cl with rot := (s1.cluster cl).rot + 1 })) ∧
  (∀ (s : State) core part va leaf who op ty wide key b c h, (s.core core).outb = [] →
    (s.cluster (core / 8)).line (key / 128) = some h →
    let x := s.atomicAtCluster core part va leaf who op ty wide key b c
    let old : DWord := BitVec.ofNat 64 (leNat (sliceLine h.data (key % 128) (ty.width / 8)))
    x.2 = old ∧ ((x.1.cluster (core / 8)).line (key / 128)).map HotLine.data = some (match atomicNew op ty old b c with
      | some new => patchLine h.data (key % 128) (natBytes new.toNat (ty.width / 8))
      | none => h.data)) ∧
  (∀ (s : State) (r : GRef) (t : Team) (g : Group) (o : Pend) (q : LaneReq) op ty, AtPoint s r t g o q → o.alone q →
    o.kind = .atom op ty → o.byRef = false → isHost q.addr = true → isPeer q.addr = false →
    let fails := fun n => State.settleFaults (s.failLane r g o q.lane (mkFault 0x17 n (BitVec.ofNat 64 q.addr) 0)) r o.id
    let fetches := op = .add ∨ op = .exch ∨ op = .cas
    let open_ := (((s.partn t.part).windowOf o.slot).getD 0).getLsbD 3
    (¬ fetches → ∀ a ext, exec (.atomicopCompletion r o.id q.lane a ext) s = .next (fails 1)) ∧
    (fetches → open_ = false → ∀ a ext, exec (.atomicopCompletion r o.id q.lane a ext) s = .next (fails 2)) ∧
    let s1 := s.flushWide t.core
    (fetches → open_ = true → s1.streamBusy t.part q.addr = true → ∀ a ext,
      exec (.atomicopCompletion r o.id q.lane a ext) s = .next s1) ∧
    (fetches → open_ = true → s1.streamBusy t.part q.addr = false → ∀ ext,
      let old : DWord := BitVec.ofNat 64 (ext.toNat % 2 ^ (8 * o.size))
      let new := (atomicNew op ty old (q.data.setWidth 64) (q.dat2.setWidth 64)).getD old
      exec (.atomicopCompletion r o.id q.lane .unsupported ext) s = .next (fails 3) ∧
      exec (.atomicopCompletion r o.id q.lane .abort ext) s = .next (fails 4) ∧
      exec (.completionTimeout r o.id q.lane) s = .next (fails 4) ∧
      (s1.poisoned q.addr o.size = true → exec (.atomicopCompletion r o.id q.lane .ok ext) s = .next
        (State.settleFaults (s1.failLane r g o q.lane (mkFault 0x10 0 q.key (mkAux (o.slotOf q) 0))) r o.id)) ∧
      (s1.poisoned q.addr o.size = false → exec (.atomicopCompletion r o.id q.lane .ok ext) s =
        .next (delivered ((s1.wrNat q.addr o.size new.toNat).patchL1 t.core q.addr (natBytes new.toNat o.size)) r g o q
          old.toNat true))))

/-- R175 to R180, R184, R185, R188, R189: the table instructions at issue: each lane's key, range, rowref or cursor
joins the TB queue; an unbound handle, a kind that does not admit the operation and a missing right trap; TSEEK opens
its cursors and has finished. That a TKEY lane which fails both checks takes the table-kind fault is the model's
choice (log 70). -/
def Obligations.TableIssue : Prop :=
  let indexed := fun (tb : Table) => decide (1 ≤ tKind tb ∧ tKind tb ≤ 3)
  let ordered := fun (tb : Table) => tKind tb == 1 || tKind tb == 3
  let point := fun (i : Instr) (o : TPoint) (kind : PKind) (regs : Nat) (s : State) (t : Team) (g : Group) reqs =>
    ({ opOf g i kind .tb .part (slotIn s t g o.tab) 0 regs reqs with pred := some o.p.toNat } : Pend)
  (∀ h o, TableIssues (.tlk h o) (point (.tlk h o) o .tlk 2) fun s t g l =>
    tableLane s t g o.tab (fun _ => true) tRead o.key l fun _ _ q => { q with reg := o.d.toNat }) ∧
  (∀ h o, TableIssues (.tins h o) (point (.tins h o) o .tins 2) fun s t g l =>
    tableLane s t g o.tab indexed tInsert o.key l fun _ _ q => { q with reg := o.d.toNat }) ∧
  (∀ h o, TableIssues (.tups h o) (point (.tups h o) o .tups 2) fun s t g l =>
    tableLane s t g o.tab indexed tInsert o.key l fun _ _ q => { q with reg := o.d.toNat }) ∧
  (∀ h o, TableIssues (.tdel h o) (point (.tdel h o) o .tdel 0) fun s t g l =>
    tableLane s t g o.tab indexed tDelete o.key l fun _ _ q => { q with reg := o.d.toNat }) ∧
  (∀ h o, TableIssues (.tcnt h o) (fun s t g => opOf g (.tcnt h o) .tcnt .tb .part (slotIn s t g o.tab) 0 2) fun s t g l =>
    tableLane s t g o.tab ordered tRead o.lo l fun _ tb q =>
      { q with reg := o.d.toNat, hi := g.rdKey (tKType tb) o.hi l }) ∧
  (∀ h o, TableIssues (.tdrop h o) (fun s t g => opOf g (.tdrop h o) .tdrop .tb .part (slotIn s t g o.tab) 0 0)
    fun s t g l => tableLane s t g o.tab (fun tb => tKind tb == 0)
      (fun tb => tDelete tb && !(s.partn t.part).readOnly (slotIn s t g o.tab)) o.lo l fun _ tb q =>
      { q with reg := o.d.toNat, lo := max q.lo (tLo tb)
               hi := min (g.rdKey (tKType tb) o.hi l) (tLo tb + tCap tb - 1)
               va := (max q.lo (tLo tb) - tLo tb).toNat }) ∧
  (∀ h w d p ref, TableIssues (.tkey h w d p ref)
    (fun _ _ g reqs => { opOf g (.tkey h w d p ref) .tkey .tb .part 0 0 w.regs reqs with pred := some p.toNat })
    fun s t g l =>
      let rr : DWord := BitVec.ofNat 64 (g.rdN ref.toNat l 2)
      match s.table t.part (rr.toNat / 2 ^ 52) with
      | none => .inl (mkFault 0x0B 0 rr 0)
      | some tb =>
        if tCap tb ≤ rr.toNat / 2 ^ 16 % 2 ^ 36 then .inl (mkFault 0x0A 0 rr 0)
        else if 32 * w.regs ≠ ktBits (tKType tb) then .inl (mkFault 0x0C 0 rr (mkAux (rr.toNat / 2 ^ 52) 0))
        else if tRead tb = false then .inl (mkFault 0x0D 0 rr (mkAux (rr.toNat / 2 ^ 52) 0))
        else .inr { mkReq l with addr := rr.toNat / 2 ^ 52, reg := d.toNat, key := rr }) ∧
  (∀ h w d p k cur, TableIssues (.tnext h w d p k cur)
    (fun _ _ g reqs =>
      { opOf g (.tnext h w d p k cur) (.tnext w k.toNat cur.toNat) .tb .part 0 0 2 reqs with pred := some p.toNat })
    fun s t g l =>
      let c := g.rdC cur.toNat l
      let q := { mkReq l with addr := c.slot, reg := d.toNat }
      if c.state = 0 ∨ c.state = 3 then .inr { q with zero := true }
      else match s.table t.part c.slot with
        | none => .inl (mkFault 0x0B 0 (BitVec.ofNat 64 c.slot) 0)
        | some tb =>
          let key := keyAddr c.ktype (if c.state = 1 then c.lo else c.last)
          if tRead tb = false then .inl (mkFault 0x0D 0 key (mkAux c.slot 0))
          else if ¬ (32 * w.regs = ktBits c.ktype ∧ 32 * w.regs = ktBits (tKType tb) ∧ ordered tb = true) then .inl (mkFault 0x0C 0 key (mkAux c.slot 0))
          else .inr { q with key := key }) ∧
  (∀ h o (s : State) (r : GRef) (t : Team) (g : Group), Issues s r t g (.tseek h o) → g.takingPart (.tseek h o) ≠ 0 →
    let i : Instr := .tseek h o
    let stops := fun (f : Nat → LaneFault) => IssuesWith s s r t g i (opOf g i .tlk .tb .part 0 0 0 [])
      ((laneList (g.takingPart i)).map fun l => (l, f l)) [] g.sf
    (s.handle t.part (g.rdS o.tab.toNat) = none → stops fun _ => mkFault 0x0B 0 (g.rdS o.tab.toNat) 0) ∧
    (∀ slot tb, s.handle t.part (g.rdS o.tab.toNat) = some (slot, tb) →
      let at_ := fun l => keyAddr (tKType tb) (g.rdKey (tKType tb) o.lo l)
      (ordered tb = false → stops fun l => mkFault 0x0C 0 (at_ l) (mkAux slot 0)) ∧
      (ordered tb = true → tRead tb = false → stops fun l => mkFault 0x0D 0 (at_ l) (mkAux slot 0)))) ∧
  (∀ h o (s : State) (r : GRef) (t : Team) (g : Group) slot tb, Issues s r t g (.tseek h o) →
    g.takingPart (.tseek h o) ≠ 0 → s.handle t.part (g.rdS o.tab.toNat) = some (slot, tb) →
    ordered tb = true → tRead tb = true →
    let i : Instr := .tseek h o
    Completes s r t i (g.after i) fun g' => Keeps g { g' with c := g.c, pend := g.pend } false false false false false ∧
      g'.pend = settleOps [] (g.pend ++ [{ opOf g i .tlk .tb .part 0 0 0 [] with fin := true }]) ∧
      (∀ l, l < 32 → (g.takingPart i).getLsbD l = true → g'.rdC o.d.toNat l =
        { slot := slot, ktype := tKType tb, state := 1, lo := g.rdKey (tKType tb) o.lo l
          hi := g.rdKey (tKType tb) o.hi l, last := 0 }) ∧
      (∀ n l, l < 32 → n ≠ o.d.toNat ∨ (g.takingPart i).getLsbD l = false → g'.rdC n l = g.rdC n l))

/-- R43, R173, R178, R179: the index: a key inserted is found with its row, a key removed is not, the others are as
before, ROWCOUNT counts them, a removal advances the slot's generation, and the keys stay in rising order. -/
def Obligations.TableIndex : Prop :=
  (∀ (tb : Table) k row, tb.find k = none → tRowCount tb + 1 < 2 ^ 64 →
    (∀ j, (tb.insert k row).find j = if j = k then some row else tb.find j) ∧
    tRowCount (tb.insert k row) = tRowCount tb + 1 ∧ (tb.insert k row).gens = tb.gens ∧
    tKind (tb.insert k row) = tKind tb ∧ tCap (tb.insert k row) = tCap tb ∧ tWidth (tb.insert k row) = tWidth tb ∧
    (tb.keys.Pairwise (fun a b => a.1 < b.1) → (tb.insert k row).keys.Pairwise (fun a b => a.1 < b.1))) ∧
  (∀ (tb : Table) k row, tb.find k = some row →
    (∀ j, (tb.remove k row).find j = if j = k then none else tb.find j) ∧
    tRowCount (tb.remove k row) = tRowCount tb - 1 ∧
    tGen (tb.remove k row) row = (if tGen tb row = 0xFFFF then 1 else tGen tb row + 1) ∧
    (∀ n, n ≠ row → tGen (tb.remove k row) n = tGen tb n) ∧
    (tb.keys.Pairwise (fun a b => a.1 < b.1) → (tb.remove k row).keys.Pairwise (fun a b => a.1 < b.1))) ∧
  (∀ (tb : Table) pick, tb.keys.length < tCap tb →
    tb.freeSlot pick < tCap tb ∧ ∀ e, e ∈ tb.keys → e.2 ≠ tb.freeSlot pick)

/-- R173, R177 to R181, R185, R188, R189, R258, R315, R333: a point of the table order: it waits while a page that it needs
cannot be reached; one that counts as a store of scope part (every TINS and TDEL, a TUPS that inserts, each row of a TDROP)
follows all that its core has taken in; then what the lane at the head of each kind of operation finds, writes and changes.
That the index is the page at INDEXVA, which a point waits for and marks, is the model's choice (log 64), and so are what
moves home before the point (log 67), that an insert or a discard ends older outbound writes of the row (log 17) and that a
TCNT's leaves come in ascending order (log 70). -/
def Obligations.TableOrderPoints : Prop :=
  ∀ (s : State) (r : GRef) (t : Team) (g : Group) (o : Pend) (q : LaneReq) tb pick, AtTablePoint s r t g o q →
    s.table t.part q.addr = some tb →
    let point : Instr := .tableOrderPoint r o.id pick false
    (∀ s0, s.tbWait t o q pick = some s0 → exec point s = .next s0) ∧
    (s.tbWait t o q pick = none →
    let row := tb.freeSlot pick
    let n := tWidth tb
    let after := s.flushWide t.core
    let marked := if 1 ≤ tKind tb ∧ tKind tb ≤ 3 then
      after.markWrite t.part (tIndexVa tb) (after.leafOf t.part (tIndexVa tb)) else after
    let s1 := ((marked.zeroImage none t.part q.addr tb (n / 65536 + 2) (row * n) n).clearImage none t.part q.addr tb
      (row * n) n).setTable t.part q.addr (some (tb.insert q.lo row))
    (o.kind = .tlk → tKind tb = 0 → exec point s = .next (
      if tLo tb ≤ q.lo ∧ q.lo < tLo tb + tCap tb ∧ q.lo - tLo tb < 2 ^ 36 then
        delivered s r g o q (mkRowref q.addr (q.lo - tLo tb).toNat (tSeed tb)).toNat true
      else delivered s r g o q 0 false)) ∧
    (o.kind = .tlk → tKind tb ≠ 0 → exec point s = .next (match tb.find q.lo with
      | some k => delivered s r g o q (mkRowref q.addr k (tGen tb k)).toNat true
      | none => delivered s r g o q 0 false)) ∧
    (∀ k, tb.find q.lo = some k →
      (o.kind = .tins → exec point s = .next (delivered after r g o q 0 false)) ∧
      (o.kind = .tups → exec point s = .next (delivered s r g o q (mkRowref q.addr k (tGen tb k)).toNat false)) ∧
      (o.kind = .tdel → exec point s =
        .next (delivered (marked.setTable t.part q.addr (some (tb.remove q.lo k))) r g o q 0 true))) ∧
    (tb.find q.lo = none →
      (o.kind = .tdel → exec point s = .next (delivered after r g o q 0 false)) ∧
      (o.kind = .tins ∨ o.kind = .tups → tRowCount tb < tCap tb →
        exec point s = .next (delivered s1 r g o q (mkRowref q.addr row (tGen tb row)).toNat true)) ∧
      (o.kind = .tins ∨ o.kind = .tups → tRowCount tb = tCap tb → exec point s =
        .next (((if o.kind = .tins then after else s).failLane r g o q.lane
          (mkFault 0x0E 0 q.key (mkAux q.addr 0))).settleFaults r o.id))) ∧
    (o.kind = .tkey → exec point s = .next (match tb.keyOf q.key with
      | some k => delivered s r g o q (keyToNat (tKType tb) k) true
      | none => delivered s r g o q 0 false)) ∧
    (o.kind = .tcnt → pick = 0 → exec point s = .next (delivered s r g o q (q.data + BitVec.ofNat 128
      (((tb.keys.map Prod.fst).filter fun k => decide (q.lo ≤ k ∧ k ≤ q.hi)).length)).toNat false)) ∧
    (o.kind = .tdrop → q.hi < q.lo → exec point s = .next (delivered s r g o q 0 false)) ∧
    (o.kind = .tdrop → tLo tb ≤ q.lo → q.lo ≤ q.hi → (q.hi - q.lo).toNat ≤ pick →
      let k := (q.lo - tLo tb).toNat
      let last := (q.hi - tLo tb).toNat
      let granule := max (q.va * n) (k * n / 64 * 64)
      exec point s = .next (delivered ((after.zeroImage none t.part q.addr tb
        ((last + 1 - k) * n / 65536 + 2) (k * n) ((last + 1 - k) * n)).clearImage none t.part q.addr tb granule
        ((last + 1) * n - granule)) r g o q 0 false)) ∧
    (∀ w kd cur, o.kind = .tnext w kd cur → q.zero = false → g.exited.getLsbD q.lane = false →
      let c := g.rdC cur q.lane
      let least := (tb.keys.find? fun e => decide ((if c.state = 1 then c.lo ≤ e.1 else c.last < e.1) ∧ e.1 ≤ c.hi))
      exec point s = .next (s.putGroup r (match least with
        | some (k, row) => (((g.result o q (mkRowref q.addr row (tGen tb row)).toNat true).wrN kd q.lane
            (keyToNat c.ktype k) w.regs).wrC cur q.lane { c with last := k, state := 2 }).laneDone o q.lane
        | none => (((g.result o q 0 false).wrN kd q.lane 0 w.regs).wrC cur q.lane { c with state := 3 }).laneDone o
            q.lane))) ∧
    (tb.bad = true → tKind tb = 1 ∨ tKind tb = 2 ∨ tKind tb = 3 → q.zero = false → o.kind = .tlk →
      exec (.tableOrderPoint r o.id pick true) s =
        .next ((s.failLane r g o q.lane (mkFault 0x0F 0 q.key (mkAux q.addr 0))).settleFaults r o.id)))

/-- R193, R197, R202, R205, R207, R209, R213: CPY, GATH, NMC, COLL and CPYQF at issue. -/
def Obligations.EngineIssueRules : Prop :=
  let copies := fun (t : Team) => t.underWay fun o => o.eng = .copy || o.eng = .gather
  (∀ h dir bar mc d a b, EngineIssue (.cpy h dir bar mc d a b) .cp bar true (fun g => some (g.rdS a.toNat))
    (fun t => copies t < shCQ t.shape) fun g =>
      { mkEng .copy bar [g.rdS d.toNat, g.rdS (d.toNat + 1), g.rdS a.toNat, g.rdS (a.toNat + 1), g.rdS b.toNat] with
        dir := dir, mc := mc }) ∧
  (∀ h kind bar d a b off len (s : State) (r : GRef) (t : Team) (g : Group),
    let i : Instr := .gath h kind bar d a b off len
    Issues s r t g i → g.redo = none → g.takingPart i ≠ 0 →
      (shCQ t.shape ≤ copies t → shCQ t.shape ≠ 0 → exec i s = .next s) ∧
      (copies t < shCQ t.shape ∨ shCQ t.shape = 0 → 65536 < (g.rdS (b.toNat + 1)).toNat →
        TrapsOn s r t g i g.faultLanes fun _ => mkFault 1 0x0A 0 0) ∧
      (copies t < shCQ t.shape ∨ shCQ t.shape = 0 → (g.rdS (b.toNat + 1)).toNat ≤ 65536 →
        (kind ≠ .ref → s.handle t.part (g.rdS a.toNat) = none →
          TrapsOn s r t g i (g.takingPart i) fun _ => mkFault 0x0B 0 (g.rdS a.toNat) 0) ∧
        ((kind ≠ .ref → s.handle t.part (g.rdS a.toNat) ≠ none) →
          (shCQ t.shape = 0 → TrapsOn s r t g i (g.takingPart i) fun _ => mkFault 0x12 0 0 0) ∧
          (shCQ t.shape ≠ 0 → ∀ n, bar = some n → (t.bar n.toNat).e = 0 →
            TrapsOn s r t g i (g.takingPart i) fun _ => mkFault 0x14 n.toNat 0 0)))) ∧
  (∀ h kind bar d a b off len (s : State) (r : GRef) (t : Team) (g : Group),
    let i : Instr := .gath h kind bar d a b off len
    Issues s r t g i → g.takingPart i ≠ 0 → (g.rdS (b.toNat + 1)).toNat ≤ 65536 → copies t < shCQ t.shape →
      (kind ≠ .ref → s.handle t.part (g.rdS a.toNat) ≠ none) → (∀ n, bar = some n → (t.bar n.toNat).e ≠ 0) →
      readyJoin [] t.engs = none → HandsOver s r t g i .cp
        { mkEng .gather bar [g.rdS d.toNat, g.rdS (d.toNat + 1), g.rdS a.toNat, g.rdS b.toNat, g.rdS (b.toNat + 1)] with
          kind := kind, off := off.toNat * 4, len := (len.toNat + 1) * 4 }) ∧
  (∀ h bar d a, EngineIssue (.nmc h bar d a) .nm bar false (fun _ => none)
    (fun t => t.underWay (fun o => o.eng = .near) < 16) fun g =>
      mkEng .near bar [g.rdS d.toNat, g.rdS a.toNat, g.rdS (a.toNat + 1), g.rdS (a.toNat + 2), g.rdS (a.toNat + 3)]) ∧
  (∀ h bar d a, EngineIssue (.coll h bar d a) .cp bar false (fun g => some (g.rdS a.toNat))
    (fun t => t.underWay (fun o => o.eng = .coll) < 8) fun g =>
      mkEng .coll bar [g.rdS d.toNat, g.rdS a.toNat, g.rdS (a.toNat + 1)]) ∧
  (∀ h bar mask (s : State) (r : GRef) (t : Team) (g : Group),
    let i : Instr := .cpyqf h bar mask
    Issues s r t g i → g.takingPart i ≠ 0 → readyJoin [] t.engs = none → (∀ b, bar = some b → (t.bar b.toNat).e ≠ 0) →
      (t.engs.any (EngOp.inMask mask) = true → HandsOver s r t g i .cp { mkEng .join bar [] with mask := mask }) ∧
      (t.engs.any (EngOp.inMask mask) = false → (∀ e, e ∈ t.engs → e.id ≠ t.nextEng) →
        (∀ p, p ∈ g.pend → p.id < g.nextOp ∧ p.kind ≠ .engine t.nextEng) →
        let o := opOf g i (.engine t.nextEng) .cp .part 0 0 0 []
        let bars := match bar with
          | some b => (t.setBar b.toNat (t.bar b.toNat).arrive).bars
          | none => t.bars
        ∃ t' g', exec i s = .next (s.setTeam r.team (some { t' with nextEng := t.nextEng + 1, bars := bars })) ∧
          t'.groups[r.grp]? = some g' ∧ OnlyGroup t t' r.grp ∧ g'.pc = g.after i ∧
          g'.pend = settleOps [] (g.pend ++ [{ o with fin := true }]) ∧
          Keeps g { g' with pend := g.pend } false false false false false))

/-- R49, R194, R195, R200 to R204, R209, R210, R311, R315: the copy and gather engines: an operation is laid out in items or
rejected whole; a tile row or list element outside its table delivers zeros, another the row's bytes; poison fails the item
with zeros; a page that is not present makes the engine wait, or fails the item with code 0x1D; a list element is read once.
A layout record in a table that is not dense (0x1A) and the table of a GATH.ref unbound or without COPY (log 30), and the
time at which an engine waits or gives an item up (log 23), are the model's choices.
An engine operation ends with its status record, its arrival at the barrier, and its path; its failures are counted and
reported. -/
def Obligations.EngineOperations : Prop :=
  ((∀ (s : State) v part h pos,
     (s.handle part h = none → s.layoutAt v part h pos = .code 0x1A) ∧
     (∀ slot tb, s.handle part h = some (slot, tb) →
       let there := tKind tb = 0 ∧ pos % 64 = 0 ∧ pos + 64 ≤ tBytes tb ∧ tRead tb = true
       (¬ there → s.layoutAt v part h pos = .code 0x1A ∧ s.useLayout v part h pos = s) ∧
       (there → s.useLayout v part h pos =
         if s.avail v part slot tb pos 64 false = .ok then s.touchImage v part slot tb pos 64 else s) ∧
       (there → s.avail v part slot tb pos 64 false = .ok → s.layoutAt v part h pos =
         .ok (BitVec.ofNat 512 (leNat ((s.touchImage v part slot tb pos 64).imageRead v part slot tb pos 64)))) ∧
       (there → ∀ va, s.avail v part slot tb pos 64 false = .miss va → s.layoutAt v part h pos = .miss va slot) ∧
       (there → s.avail v part slot tb pos 64 false = .busy → s.layoutAt v part h pos = .busy))) ∧
   (∀ (s : State) part (ly : BitVec 512) c,
     let bits := [32, 32, 64, 64, 32, 16, 8, 8, 4, 3].getD (fld ly 3 0) 0
     let cols := fld ly 23 16 + 1
     let scaled := fld ly 3 0 = 8 ∨ fld ly 3 0 = 9
     let cs := fld ly 127 96
     let width := ((s.table part (fld ly 35 24)).map tWidth).getD (2 ^ 64)
     let row := if scaled then fld ly 55 40 + cols * bits / 8 + 2 * (cols / 32)
       else (fld ly 55 40 * 8 + ((cols - 1) * cs + 1) * bits + 7) / 8
     c ∈ s.layoutCodes part ly ↔ (c = 0x10 ∧ 9 < fld ly 3 0) ∨
       (c = 0x11 ∧ (3 < fld ly 7 4 ∨ (1 ≤ fld ly 7 4 ∧ cols * bits % (8 * (16 * 2 ^ fld ly 7 4)) ≠ 0))) ∨
       (c = 0x12 ∧ ∀ tb, s.table part (fld ly 35 24) = some tb → tKind tb ≠ 0) ∨
       (c = 0x13 ∧ (width < row ∨ (scaled ∧ (cs ≠ 1 ∨ cols % 32 ≠ 0)) ∨ cs = 0 ∨ 4096 < cs ∨ fld ly 95 64 = 0)) ∨
       (c = 0x14 ∧ ∃ tb, s.table part (fld ly 35 24) = some tb ∧ lyHi (tKType tb) ly < lyLo (tKType tb) ly) ∨
       (c = 0x15 ∧ ∃ tb, s.table part (fld ly 35 24) = some tb ∧ tCopy tb = false) ∨
       (c = 0x17 ∧ (fld ly 511 256 ≠ 0 ∨ fld ly 63 56 ≠ 0 ∨ fld ly 39 36 ≠ 0))) ∧
   (∀ (s : State) n t op item fail m ly, AtHead s n t .copy op → op.mc = some m →
     let s0 := s.useLayout (some t.core) t.part (op.a 2) (op.a 3).toNat
     s0.layoutAt (some t.core) t.part (op.a 2) (op.a 3).toNat = .ok ly →
     let named := (List.range 8).filter fun k => m.getLsbD k && decide (k < t.gangSz)
     let wrong := m = 0 ∨ (∃ k, k < 8 ∧ m.getLsbD k = true ∧ t.gangSz ≤ k) ∨ op.dir ≠ .ld
     let step := exec (.copyEngineOperation n item fail) s
     (∀ c, least (s0.layoutCodes t.part ly) = some c → step = .next (s0.engFinish n (op.rejected c [ly]))) ∧
     (wrong → s0.layoutCodes t.part ly = [] → step = .next (s0.engFinish n (op.rejected 0x18 [ly]))) ∧
     (¬ wrong → s0.layoutCodes t.part ly = [] →
       step = .next (s0.putEng n (op.laidOut ((lyRows ly + 1) * named.length) [ly])))) ∧
   (∀ (s : State) n t op j i fail m tb, op.mc = some m → op.dir = .ld → i ≤ lyRows op.rec0 →
     AtItem s n t .copy op (j * (lyRows op.rec0 + 1) + i) → s.held t.part (lySlot op.rec0) = some tb →
     let ly := op.rec0
     let item := j * (lyRows ly + 1) + i
     let who := ((List.range 8).filter fun k => m.getLsbD k && decide (k < t.gangSz)).getD j 0
     let key := keyOfNat (tKType tb) (op.a 4).toNat + i * lyKStride ly
     let row := (key - tLo tb).toNat
     let s0 := s.touchRow (some t.core) t.part (lySlot ly) tb row
     let step := exec (.copyEngineOperation n item fail) s
     let bytes := (lyRuns ly).flatMap fun run =>
       s0.imageRead (some t.core) t.part (lySlot ly) tb (row * tWidth tb + run.1) run.2
     lyLo (tKType tb) ly ≤ key → key < lyHi (tKType tb) ly → tLo tb ≤ key → key < tLo tb + tCap tb →
     s0.runsAvail (some t.core) t.part (lySlot ly) tb row (lyRuns ly) false = .ok →
     (∀ run, run ∈ lyRuns ly →
       s0.imagePoison (some t.core) t.part (lySlot ly) tb (row * tWidth tb + run.1) run.2 = false) →
     (∀ k tm, s.gangMember t.gang who = some (k, tm) → step = .next
       ((s0.setTeam k (some (tm.putTileRow ly ((op.a 0).toNat % 2 ^ 32) i bytes))).engKeep n (op.did item none))) ∧
     (s.gangMember t.gang who = none → step = .next (s0.engKeep n (op.did item none)))) ∧
   (∀ (s : State) t op m tb j i, op.mc = some m → op.rej = none → s.held t.part (lySlot op.rec0) = some tb →
     i ≤ lyRows op.rec0 →
     let named := (List.range 8).filter fun k => m.getLsbD k && decide (k < t.gangSz)
     j < named.length →
     (s.gangMember t.gang (named.getD j 0) = none ∨ ∃ k tm b, s.gangMember t.gang (named.getD j 0) = some (k, tm) ∧
       op.bar = some b ∧ (tm.bar b).e = 0) →
     ⟨j * (lyRows op.rec0 + 1) + i, 0x19,
       keyAddr (tKType tb) (keyOfNat (tKType tb) (op.a 4).toNat + i * lyKStride op.rec0), lySlot op.rec0⟩ ∈
         (s.dropTargets t op).bad) ∧
   (∀ (s : State) n t op item fail, AtHead s n t .copy op → op.mc = none →
     let v := some t.core
     let step := exec (.copyEngineOperation n item fail) s
     let s0 := s.useLayout v t.part (op.a 2) (op.a 3).toNat
     let found := s0.layoutAt v t.part (op.a 2) (op.a 3).toNat
     (∀ c, found = .code c → step = .next (s0.engFinish n (op.rejected c []))) ∧
     (∀ va slot, found = .miss va slot → step = .next (s0.engStall n op va slot)) ∧
     (found = .busy → step = .next s0) ∧
     (∀ ly, found = .ok ly → ∀ c, least (s0.layoutCodes t.part ly) = some c →
       step = .next (s0.engFinish n (op.rejected c [ly]))) ∧
     (∀ ly, found = .ok ly → s0.layoutCodes t.part ly = [] →
       step = .next (s0.putEng n (op.laidOut (lyRows ly + 1) [ly])))) ∧
   (∀ (s : State) n t op i fail tb, AtItem s n t .copy op i → op.mc = none → i ≤ lyRows op.rec0 →
     s.held t.part (lySlot op.rec0) = some tb →
     let ly := op.rec0
     let v := some t.core
     let slot := lySlot ly
     let base := (op.a 0).toNat % 2 ^ 32
     let key := keyOfNat (tKType tb) (op.a 4).toNat + i * lyKStride ly
     let inside := lyLo (tKType tb) ly ≤ key ∧ key < lyHi (tKType tb) ly ∧ tLo tb ≤ key ∧ key < tLo tb + tCap tb
     let row := (key - tLo tb).toNat
     let s0 := s.touchRow v t.part slot tb row
     let zeros := List.replicate (lyPitch ly + lyScales ly) (0 : Byte)
     let put := fun (s : State) bs => s.setTeam n (some (t.putTileRow ly base i bs))
     let step := exec (.copyEngineOperation n i fail) s
     let reach := s0.runsAvail v t.part slot tb row (lyRuns ly) false
     let clean := ∀ run, run ∈ lyRuns ly → s0.imagePoison v t.part slot tb (row * tWidth tb + run.1) run.2 = false
     let bytes := (lyRuns ly).flatMap fun run => s0.imageRead v t.part slot tb (row * tWidth tb + run.1) run.2
     let bad := fun c => op.did i (some { item := i, code := c, addr := keyAddr (tKType tb) key, slot := slot })
     (¬ inside → op.dir = .ld → step = .next ((put s zeros).engKeep n (op.did i none))) ∧
     (¬ inside → op.dir ≠ .ld → step = .next (s.engKeep n (op.did i none))) ∧
     (inside → reach = .ok → clean → op.dir = .ld → step = .next ((put s0 bytes).engKeep n (op.did i none))) ∧
     (inside → reach = .ok → clean → op.dir = .pf → step = .next (s0.engKeep n (op.did i none))) ∧
     (inside → op.dir = .st → ∀ s1,
       s0.writeRuns v op.bar.isSome t.part slot tb row (lyRuns ly) (t.tileRow ly base i) = .ok s1 →
       step = .next (s1.engKeep n (op.did i none))) ∧
     (inside → reach = .ok → ¬ clean → op.dir = .ld → step = .next ((put s0 zeros).engKeep n (bad 0x1C))) ∧
     (∀ va, inside → reach = .miss va → op.dir = .ld → fail = true →
       step = .next ((put s0 zeros).engKeep n (bad 0x1D))) ∧
     (∀ va, inside → reach = .miss va → op.dir = .pf → fail = true → step = .next (s0.engKeep n (op.did i none))) ∧
     (∀ va, inside → reach = .miss va → op.dir = .ld ∨ op.dir = .pf → fail = false →
       step = .next (s0.engStall n op va slot))) ∧
   (∀ (s : State) n t op item fail, AtHead s n t .gather op →
     let start := op.laidOut (op.a 4).toNat []
     let elem := if op.kind = .k32 then 32 else 64
     (op.kind ≠ .ref → s.handle t.part (op.a 2) = none → exec (.gatherEngineOperation n item fail) s =
       .next (s.engFinish n (op.rejected 0x1B []))) ∧
     (∀ slot tb, op.kind ≠ .ref → s.handle t.part (op.a 2) = some (slot, tb) → tKind tb = 0 → tCopy tb = true →
       op.off + op.len ≤ tWidth tb → ktBits (tKType tb) = elem → (op.a 4).toNat ≠ 0 →
       exec (.gatherEngineOperation n item fail) s = .next (s.putEng n start)) ∧
     (op.kind = .ref → (op.a 4).toNat ≠ 0 → exec (.gatherEngineOperation n item fail) s = .next (s.putEng n start))) ∧
   (∀ (s : State) n t op i fail, AtItem s n t .gather op i → (op.read.find? fun e => e.1 == i) = none →
     let es := if op.kind = .k32 then 4 else 8
     let elem : DWord := BitVec.ofNat 64 (leNat (t.engRead ((op.a 3).toNat % 2 ^ 32 + i * es) es))
     let zeros := s.setTeam n (some (t.engWrite ((op.a 0).toNat % 2 ^ 32 + i * op.len) (List.replicate op.len 0)))
     let unbound := op.kind = .ref ∧ s.table t.part (elem.toNat / 2 ^ 52) = none
     let bad : BadItem := { item := i, code := 0x1B, addr := elem, slot := elem.toNat / 2 ^ 52 }
     (¬ unbound → exec (.gatherEngineOperation n i fail) s =
       .next (s.putEng n { op with read := op.read ++ [(i, elem)] })) ∧
     (unbound → exec (.gatherEngineOperation n i fail) s = .next (zeros.engKeep n (op.did i (some bad))))) ∧
   (∀ (s : State) n t op i fail elem tb, AtItem s n t .gather op i → op.kind ≠ .ref →
     (op.read.find? fun e => e.1 == i) = some (i, elem) → s.held t.part ((op.a 2).toNat % 4096) = some tb →
     let v := some t.core
     let slot := (op.a 2).toNat % 4096
     let key := keyOfNat (tKType tb) elem.toNat
     let row := (key - tLo tb).toNat
     let at_ := row * tWidth tb + op.off
     let s0 := s.touchRow v t.part slot tb row
     let put := fun (s : State) bs => s.setTeam n (some (t.engWrite ((op.a 0).toNat % 2 ^ 32 + i * op.len) bs))
     let step := exec (.gatherEngineOperation n i fail) s
     (¬ (tLo tb ≤ key ∧ key < tLo tb + tCap tb) →
       step = .next ((put s (List.replicate op.len 0)).engKeep n (op.did i none))) ∧
     (tLo tb ≤ key ∧ key < tLo tb + tCap tb → s0.runsAvail v t.part slot tb row [(op.off, op.len)] false = .ok →
       s0.imagePoison v t.part slot tb at_ op.len = false →
       step = .next ((put s0 (s0.imageRead v t.part slot tb at_ op.len)).engKeep n (op.did i none)))) ∧
   (∀ (s : State) n t op i fail rr tb, AtItem s n t .gather op i → op.kind = .ref →
     (op.read.find? fun e => e.1 == i) = some (i, rr) → s.held t.part (rr.toNat / 2 ^ 52) = some tb →
     let v := some t.core
     let slot := rr.toNat / 2 ^ 52
     let row := rr.toNat / 2 ^ 16 % 2 ^ 36
     let at_ := row * tWidth tb + op.off
     let s0 := s.touchRow v t.part slot tb row
     let put := fun (s : State) bs => s.setTeam n (some (t.engWrite ((op.a 0).toNat % 2 ^ 32 + i * op.len) bs))
     let step := exec (.gatherEngineOperation n i fail) s
     let bad := fun c => (put s (List.replicate op.len 0)).engKeep n (op.did i (some ⟨i, c, rr, slot⟩))
     let fits := tCopy tb = true ∧ op.off + op.len ≤ tWidth tb
     let names := row < tCap tb ∧ tRead tb = true ∧ rowCurrent tb rr = true
     (¬ fits → step = .next (bad 0x1B)) ∧ (fits → ¬ names → step = .next (bad 0x1E)) ∧
     (fits → names → s0.runsAvail v t.part slot tb row [(op.off, op.len)] false = .ok →
       s0.imagePoison v t.part slot tb at_ op.len = false →
       step = .next ((put s0 (s0.imageRead v t.part slot tb at_ op.len)).engKeep n (op.did i none)))) ∧
   (∀ n i (bs : List Byte), n ≤ 3 → bs.length % (16 * 2 ^ n) = 0 → swizzle n i (swizzle n i bs) = bs ∧
     ∀ c, c < bs.length / 16 → 1 ≤ n →
       ((swizzle n i bs).drop (16 * c)).take 16 = (bs.drop (16 * (c ^^^ (i % 2 ^ n)))).take 16)) ∧
  ((∀ (s : State) n t op m, s.team n = some t → op.mc = some m → op.rej = none →
     readyJoin [] (t.engs.filter fun e => e.id != op.id) = none →
     ∃ t', (s.engFinish n op).team n = some t' ∧ t'.engs = t.engs.filter (fun e => e.id != op.id) ∧
       t'.nfail = t.nfail + (s.dropTargets t op).bad.length) ∧
   (∀ (s : State) n t op, s.team n = some t → op.mc = none → readyJoin [] (t.engs.filter fun e => e.id != op.id) = none →
     ∃ t', (s.engFinish n op).team n = some t' ∧
       t'.engs = t.engs.filter (fun e => e.id != op.id) ∧
       t'.nfail = t.nfail + (if op.rej.isSome then 1 else op.bad.length) ∧
       t'.scratch = (match op.statusOff with
         | some o => (t.engWrite o op.statusBytes).scratch
         | none => t.scratch) ∧
       (∀ b, t'.bar b = if op.bar = some b then (t.bar b).arrive else t.bar b) ∧
       ((s.engFinish n op).partn t.part).reports =
         (s.partn t.part).reports ++ op.reports t.pos t.spool op.mainSlot) ∧
   (∀ (op : EngOp), op.bad.length < 2 ^ 32 → (∀ b, b ∈ op.bad → b.item < 2 ^ 32) →
     op.total - itemsLeft op.items - op.bad.length < 2 ^ 32 → op.code < 256 →
     let st := op.status.toNat
     st % 2 ^ 8 = op.code ∧ st / 2 ^ 8 % 2 ^ 8 = op.eng.code ∧ st / 2 ^ 16 % 2 ^ 16 = 0 ∧
     st / 2 ^ 32 % 2 ^ 32 = op.total - itemsLeft op.items - op.bad.length ∧
     st / 2 ^ 64 % 2 ^ 32 = ((op.bad.map BadItem.item).head?).getD 0 ∧ st / 2 ^ 96 = op.bad.length) ∧
   (∀ b : Barrier, b.arrive = if b.e = 0 then b
     else if b.a + 1 = b.e then { e := b.e, a := 0, ph := !b.ph } else { b with a := b.a + 1 }) ∧
   (∀ (s : State) n (op : EngOp), op.begun = true → op.eng ≠ .near →
     s.engKeep n op = if op.items = [] then s.engFinish n op else s.putEng n op))

/-- R195, R196, R205, R206, R213, R315, R322: the near-memory engine: each element of a row is filled, scaled, or combined
with its source by fused multiply-adds, each rounded once in FP32, from the values that the row held when a unit took it up;
CHECKSUM adds up the elements and writes nothing; poison leaves the row. A unit holds a row whole while it writes the new
elements one by one; rows of one command, and of commands that do not touch each other's rows, may be under way at a time,
and the commands of a queue finish in order. The issuing core drops its copy of what a unit writes only where the command is
to arrive at a barrier. That a row waits for an earlier command by whole rows is the model's choice (log 76). -/
def Obligations.NearMemoryCommands : Prop :=
  (∀ (s : State) n t k op row elem, s.team n = some t → t.nearQueue[k]? = some op → t.scratchDone op = true →
     let step := exec (.nearMemoryCommandApply n ⟨k, row, elem⟩) s
     let c := op.cmd
     let cmd := fld c 7 0
     let es := if fld c 11 8 = 5 then 2 else 4
     let takes := cmd = 3 ∨ cmd = 4
     let wrong := cmd = 0 ∨ 5 < cmd ∨ (fld c 11 8 ≠ 4 ∧ fld c 11 8 ≠ 5) ∨ fld c 175 172 ≠ 0 ∨ fld c 31 28 ≠ 0 ∨
       fld c 15 12 ≠ 0 ∨ (¬ takes ∧ (fld c 171 160 ≠ 0 ∨ fld c 191 176 ≠ 0)) ∨ fld c 143 128 % es ≠ 0 ∨
       (takes ∧ fld c 191 176 % es ≠ 0)
     let serves := fun (slot off : Nat) (right : Table → Bool) => ∃ tb, s.table t.part slot = some tb ∧ tKind tb = 0 ∧
       right tb = true ∧ tLo tb ≤ keyOfNat (tKType tb) (fld c 127 64) ∧
       keyOfNat (tKType tb) (fld c 127 64) + fld c 63 32 < tLo tb + tCap tb ∧ off + (fld c 159 144 + 1) * es ≤ tWidth tb
     let served := serves (fld c 27 16) (fld c 143 128) tNear ∧ (takes → serves (fld c 171 160) (fld c 191 176) tRead)
     (op.begun = false → op.stall = none →
       (wrong → step = .next (s.engKeep n (op.rejected 0x30 []))) ∧
       (¬ wrong → ¬ served → step = .next (s.engKeep n (op.rejected 0x31 []))) ∧
       (¬ wrong → served → step = .next (s.putEng n (op.laidOut (fld c 63 32 + 1) [])))) ∧
     (op.begun = true → op.items = [] → step = .next (s.engKeep n op)) ∧
     (op.begun = true → op.items ≠ [] → elem = none → (∃ b, b ∈ t.nearQueue.take k ∧ s.nmcAfter t.part op row b = true) →
       step = .next s)) ∧
  (∀ (s : State) n t (op : EngOp), s.team n = some t → op.begun = true → op.eng = .near → s.engKeep n op =
     if op.items = [] ∧ (t.engs.find? fun e => e.eng == .near).map EngOp.id = some op.id then s.engFinish n op
     else s.putEng n op) ∧
  (∀ (s : State) part op i b, s.nmcAfter part op i b = false ↔ b.begun = true ∧ ∀ r, r ∈ b.items →
     ∃ xr xw yr yw, s.nmcMem part op i 1 = some (xr, xw) ∧ s.nmcMem part b r.1 r.2 = some (yr, yw) ∧
       spansMeet xr yw = false ∧ spansMeet xw yr = false) ∧
  (∀ (s : State) n t k op i tb, AtRow s n t k op i →
     let c := op.cmd
     let slot := fld c 27 16
     let cmd := fld c 7 0
     let es := if fld c 11 8 = 5 then 2 else 4
     let count := fld c 159 144 + 1
     let len := count * es
     let bf := fld c 11 8 == 5
     let key := keyOfNat (tKType tb) (fld c 127 64) + i
     let start := (key - tLo tb).toNat * tWidth tb
     let off := start + fld c 143 128
     let step := exec (.nearMemoryCommandApply n ⟨k, i, none⟩) s
     let bad : BadItem := { item := i, code := 0x32, addr := keyAddr (tKType tb) key, slot := slot }
     let span := fun (s0 : State) => s0.spanOf none t.part slot tb start (tWidth tb)
     let free := fun (s0 : State) (all : List (Nat × Nat)) =>
       spansMeet all (s0.heldSpans none) = false ∧ s0.halfStored all = false ∧ s0.tornOut all = false
     let holds := fun (s0 s1 : State) (target source : List Byte) =>
       let elem := fun (bs : List Byte) j => leNat ((bs.drop (j * es)).take es)
       let new := fun j => nmOut bf (nmApply cmd (fld c 223 192) (fld c 255 224) (nmIn bf (elem target j))
         (nmIn bf (elem source j)))
       let todo := (List.range count).filterMap fun j => s1.heldElem t.part slot tb off es j (natBytes (new j) es)
       let held : RowHold := { item := i, span := span s0, todo := todo.map Prod.fst }
       (todo.foldl (fun (s : State) e => s.setD e.2) s1).putEng n { op with hold := op.hold ++ [held] }
     let given := fun (s0 : State) => (span s0).foldl (fun (s : State) p => s.recallRange p.1 p.2) s0
     s.held t.part slot = some tb →
     (cmd = 1 ∨ cmd = 2 ∨ cmd = 5 →
       let s0 := s.touchImage none t.part slot tb off len
       (cmd ≠ 1 → s0.avail none t.part slot tb off len false = .ok) →
       (cmd ≠ 5 → s0.avail none t.part slot tb off len true = .ok) →
       (¬ free s0 (span s0) → step = .next (s0.putEng n op)) ∧
       (free s0 (span s0) →
         (s0.imagePoison none t.part slot tb off len = true → step = .next (s0.engKeep n (op.did i (some bad)))) ∧
         (s0.imagePoison none t.part slot tb off len = false → cmd = 5 →
           let more := (elems es count (s0.imageRead none t.part slot tb off len)).foldl (· + ·) 0
           step = .next (s0.engKeep n ({ op with sum := op.sum + BitVec.ofNat 64 more }.did i none))) ∧
         (s0.imagePoison none t.part slot tb off len = false → cmd ≠ 5 →
           let s1 := given s0
           step = .next (holds s0 s1 (s1.imageRead none t.part slot tb off len) (List.replicate len 0))))) ∧
     (cmd = 3 ∨ cmd = 4 → ∀ st, s.held t.part (fld c 171 160) = some st →
       let sslot := fld c 171 160
       let soff := (keyOfNat (tKType st) (fld c 127 64) + i - tLo st).toNat * tWidth st + fld c 191 176
       let s0 := (s.touchImage none t.part slot tb off len).touchImage none t.part sslot st soff len
       let all := span s0 ++ s0.spanOf none t.part sslot st soff len
       s0.avail none t.part slot tb off len false = .ok → s0.avail none t.part slot tb off len true = .ok →
       s0.avail none t.part sslot st soff len false = .ok →
       (¬ free s0 all → step = .next (s0.putEng n op)) ∧
       (free s0 all →
         (s0.imagePoison none t.part slot tb off len = true ∨ s0.imagePoison none t.part sslot st soff len = true →
           step = .next (s0.engKeep n (op.did i (some bad)))) ∧
         (s0.imagePoison none t.part slot tb off len = false → s0.imagePoison none t.part sslot st soff len = false →
           let s1 := given s0
           step = .next (holds s0 s1 (s1.imageRead none t.part slot tb off len)
             (s1.imageRead none t.part sslot st soff len)))))) ∧
  (∀ (s : State) part slot tb off es j bs va k leaf size w,
     s.locate none part slot tb (off + j * es) = (va, .ok k leaf size w) → s.heldElem part slot tb off es j bs =
       some ({ num := j, key := k, va := va, bytes := bs }, if isWindow k then none else some leaf)) ∧
  (∀ (s : State) n t k op row h j e, s.team n = some t → t.nearQueue[k]? = some op → t.scratchDone op = true →
     op.begun = true → op.items ≠ [] → (op.hold.find? fun h => h.item == row) = some h →
     (h.todo.find? fun e => e.num == j) = some e →
     let s0 := s.homeWrite t.part e.va e.key e.bytes
     let s1 := if op.bar.isSome then s0.dropLines t.core e.key e.bytes.length else s0
     let todo := h.todo.filter fun e => e.num != j
     let rest := op.hold.filter fun h => h.item != row
     let step := exec (.nearMemoryCommandApply n ⟨k, row, some j⟩) s
     (todo = [] → step = .next (s1.engKeep n ({ op with hold := rest }.did row none))) ∧
     (todo ≠ [] → step = .next (s1.putEng n { op with hold := rest ++ [{ h with todo := todo }] }))) ∧
  (∀ (s : State) core key n, ∃ s', s.dropLines core key n = s' ∧ s' = { s with cores := s'.cores } ∧
     (s'.core core).outb = (s.core core).outb ∧
     ∀ l, tget none (s'.core core).l1 l =
       if 128 * l < key + n ∧ key < 128 * l + 128 then none else tget none (s.core core).l1 l) ∧
  (∀ v, nmIn false v = v ∧ nmOut false v = v ∧
     (v < 2 ^ 16 → (fdec .bf16 v).isNaN = false → nmIn true v = v * 2 ^ 16) ∧
     ((fdec .bf16 v).isNaN = true → nmIn true v = 0x7FC00000) ∧ ((fdec .f32 v).isNaN = true → nmOut true v = 0x7FC0) ∧
     (∀ x, (fdec .f32 v).num = some x → x ≠ 0 →
       ∃ fl, Machine.RoundedOnce .bf16 .rn false x (nmOut true v, fl))) ∧
  (∀ a b t x, (nmApply 1 a b t x = if (fdec .f32 a).isNaN then 0x7FC00000 else a) ∧
     nmApply 2 a b t x = (fmul .f32 .rn false (fdec .f32 a) (fdec .f32 t)).1 ∧
     nmApply 3 a b t x = (ffma .f32 .rn false (fdec .f32 a) (fdec .f32 x) (fdec .f32 t)).1 ∧
     (a < 2 ^ 32 →
       let u := (ffma .f32 .rn false (fdec .f32 b) (fdec .f32 t) (fdec .f32 x)).1
       let minusA := if a < 2 ^ 31 then a + 2 ^ 31 else a - 2 ^ 31
       nmApply 4 a b t x = (ffma .f32 .rn false (fdec .f32 minusA) (fdec .f32 u) (fdec .f32 t)).1))

/-- R195, R207, R208, R332, R340: the collective engine: the rank joins its communicator, an operand block or a communicator
that does not pass its checks rejects the operation, as do ranks whose digests or blocks differ; its items are the
destination's elements; each is the reduction of the ranks' elements along a tree, or with all-gather one rank's. That the
elements of a rank whose COLL was rejected after it joined are read as they stand, and which COLL counts as its k-th, are
the model's choices (log 71), and so are the tables with LO below 0 (log 53). -/
def Obligations.Collectives : Prop :=
  (∀ (s : State) n t op item far heads, s.team n = some t → t.engHead .coll = some op → op.coll = none → op.stall = none →
     op.begun = false →
     let step := exec (.collectiveOperation n item far heads) s
     let block := s.coBlock t.part (op.a 1) (op.a 2)
     (∀ c, block = .code c → step = .next (s.engFinish n (op.rejected c []))) ∧
     (∀ va slot, block = .miss va slot → step = .next (s.engStall n op va slot)) ∧
     (block = .busy → step = .next s) ∧
     (∀ blk, block = .ok blk →
       let s0 := (s.useBlock t.part (op.a 1) (op.a 2)).useComm t.part (coComm blk)
       (∀ va slot, s0.coRank t.part (coComm blk) = .miss va slot → step = .next (s.engStall n op va slot)) ∧
       (s0.coRank t.part (coComm blk) = .busy → step = .next s) ∧
       (∀ c e, s0.coRank t.part (coComm blk) = .code c → least (s0.coCodes t.part blk none) = some e →
         step = .next (s0.engFinish n (op.rejected e [blk]))) ∧
       (∀ at_, s0.coRank t.part (coComm blk) = .ok at_ →
         let s1 := s0.joinColl at_.comm t.part blk
         let op1 := { op with recd := [blk], coll := some at_ }
         (∀ e, least (s1.coCodes t.part blk (some at_)) = some e → step = .next (s1.engFinish n (op1.rejected e [blk]))) ∧
         (s1.coCodes t.part blk (some at_) = [] → step = .next (s1.putEng n op1))))) ∧
  (∀ (s : State) part h key,
     (s.handle part h = none → s.coBlock part h key = .code 0x39) ∧
     (∀ slot tb, s.handle part h = some (slot, tb) →
       let k := keyOfNat (tKType tb) key.toNat
       let at_ := (k - tLo tb).toNat * tWidth tb
       let there := tKind tb = 0 ∧ 64 ≤ tWidth tb ∧ tLo tb ≤ k ∧ k < tLo tb + tCap tb
       (¬ there → s.coBlock part h key = .code 0x39) ∧
       (there → s.avail none part slot tb at_ 64 false = .ok → s.coBlock part h key =
         .ok (BitVec.ofNat 512 (leNat ((s.touchImage none part slot tb at_ 64).imageRead none part slot tb at_ 64)))))) ∧
  (∀ (s : State) part comm,
     (s.table part comm = none → s.coRank part comm = .code 0x39) ∧
     (∀ tb, s.table part comm = some tb →
       let there := tKind tb = 0 ∧ tWidth tb = 16 ∧ 0 ≤ tLo tb
       let bs := (s.touchImage none part comm tb 0 (tCap tb * 16)).imageRead none part comm tb 0 (tCap tb * 16)
       let row := fun q => BitVec.ofNat 64 (leNat ((bs.drop (q * 16)).take 8))
       let here := fun q => (row q).getLsbD 63 && fld (row q) 41 32 == s.devNum
       let mine := (List.range (tCap tb)).filter fun q => here q && fld (row q) 4 0 == part
       (¬ there → s.coRank part comm = .code 0x39) ∧
       (there → s.avail none part comm tb 0 (tCap tb * 16) false = .ok →
         (mine.length ≠ 1 → s.coRank part comm = .code 0x39) ∧
         (∀ q, mine = [q] → s.coRank part comm = .ok
           { comm := sha256 bs, k := (s.joined (sha256 bs) part).length, lo := (tLo tb).toNat, rank := (tLo tb).toNat + q,
             ranks := (List.range (tCap tb)).map fun q => if here q then some (fld (row q) 4 0) else none })))) ∧
  (∀ (s : State) part blk comm c,
     let es := if fld blk 11 8 = 5 then 2 else 4
     let count := fld blk 255 192
     let kind := fld blk 3 0
     let holds := fun (slot pos n : Nat) =>
       ∃ tb, s.table part slot = some tb ∧ tKind tb = 0 ∧ tCopy tb = true ∧ pos + n * es ≤ tBytes tb
     let bad := kind = 0 ∨ 3 < kind ∨ 2 < fld blk 7 4 ∨ (kind = 3 ∧ fld blk 7 4 ≠ 0) ∨ (fld blk 11 8 ≠ 0 ∧ fld blk 11 8 ≠ 1 ∧
       fld blk 11 8 ≠ 4 ∧ fld blk 11 8 ≠ 5) ∨ count = 0 ∨ 2 ^ 40 < count ∨ fld blk 511 256 ≠ 0 ∨ fld blk 27 12 ≠ 0
     c ∈ s.coCodes part blk comm ↔ (c = 0x38 ∧ bad) ∨ (c = 0x39 ∧ ∀ at_, comm = some at_ →
       let all := (at_.lo + at_.ranks.length) * count
       ¬ (holds (fld blk 39 28) (fld blk 127 64) (if kind = 2 then all else count) ∧
         holds (fld blk 51 40) (fld blk 191 128) (if kind = 3 then all else count)))) ∧
  (∀ (s : State) n t op item far heads at_, AtHead s n t .coll op → op.coll = some at_ →
     let blk := op.rec0
     let others := (List.range at_.ranks.length).filter fun q => at_.lo + q != at_.rank
     let step := exec (.collectiveOperation n item far heads) s
     let own := s.coCodes t.part blk (some at_)
     let aborted := s.aborted.contains (t.part, coComm blk)
     (∀ e, least own = some e → step = .next (s.engFinish n (op.rejected e [blk]))) ∧
     (own = [] → aborted = true → (∀ q, q ∈ others → s.coPeer blk at_ heads q ≠ some false) →
       step = .next (s.engFinish n (op.rejected 0x3B [blk]))) ∧
     (own = [] → aborted = false →
       ((∃ q, q ∈ others ∧ s.coPeer blk at_ heads q = none) → step = .next s) ∧
       ((∀ q, q ∈ others → s.coPeer blk at_ heads q ≠ none) → (∃ q, q ∈ others ∧
           s.coPeer blk at_ heads q = some false) → step = .next (s.engFinish n (op.rejected 0x3A [blk]))) ∧
       ((∀ q, q ∈ others → s.coPeer blk at_ heads q = some true) → coItems blk at_.ranks.length ≠ 0 →
         step = .next (s.putEng n (op.laidOut (coItems blk at_.ranks.length) [blk]))))) ∧
  (∀ (s : State) n t op i far heads at_ dt, AtItem s n t .coll op i → op.coll = some at_ → s.held t.part (coDst op.rec0) = some dt →
     (∀ p, some p ∈ at_.ranks → p = t.part) ∨ itemsLeft op.items ≠ 1 →
     let blk := op.rec0
     let v := some t.core
     let es := if coFmt blk = 5 then 2 else 4
     let doff := coDPos blk + (if coKind blk = 3 then at_.lo * coCount blk + i else i) * es
     let step := exec (.collectiveOperation n i far heads) s
     let s0 := s.useSources t.part blk at_ i
     let s1 := s0.touchImage v t.part (coDst blk) dt doff es
     let write := fun x =>
       (s1.unitWrite v op.bar.isSome t.part (coDst blk) dt doff (natBytes x es)).engKeep n (op.did i none)
     s0.avail v t.part (coDst blk) dt doff es true = .ok → s1.imagePoison v t.part (coDst blk) dt doff es = false →
     (coKind blk = 3 → ∀ x, s0.coElem t.part blk at_ far (at_.lo + i / coCount blk) (i % coCount blk) = .ok x →
       step = .next (write x)) ∧
     (coKind blk = 1 ∨ coKind blk = 2 → treeCovers far.tree at_.lo at_.ranks.length = true → ∀ x : Nat → Nat,
       (∀ q, q < at_.ranks.length → s0.coElem t.part blk at_ far (at_.lo + q)
         (if coKind blk = 2 then at_.rank * coCount blk + i else i) = .ok (x (at_.lo + q))) →
       step = .next (write (coReduce (coFmt blk) (coRed blk) far.tree x)))) ∧
  (∀ (s : State) part blk (at_ : CollAt) far j st, s.held part (coSrc blk) = some st →
     let es := if coFmt blk = 5 then 2 else 4
     let soff := coSPos blk + j * es
     let s1 := s.touchImage none part (coSrc blk) st soff es
     s.avail none part (coSrc blk) st soff es false = .ok →
     s.coElem part blk at_ far at_.rank j = if s1.imagePoison none part (coSrc blk) st soff es then .code 0x3C
       else .ok (leNat (s1.imageRead none part (coSrc blk) st soff es))) ∧
  (∀ (s : State) part blk (at_ : CollAt) far q j p x, at_.lo ≤ q → q ≠ at_.rank → at_.ranks[q - at_.lo]? = some (some p) →
     (s.joined at_.comm p)[at_.k]? = some x →
     (∀ l, x.sent = some l → s.coElem part blk at_ far q j = match (l[j]?).getD none with
       | some w => .ok w
       | none => .code 0x3C) ∧
     (x.sent = none → (∀ va slot, s.coRead p x.block j ≠ .miss va slot) →
       s.coElem part blk at_ far q j = s.coRead p x.block j)) ∧
  (∀ (s : State) part blk (at_ : CollAt) far q j w, at_.lo ≤ q → q ≠ at_.rank → at_.ranks[q - at_.lo]? = some none →
     s.onSkein = true → s.portUp = true → far.elems.find? (fun e => e.1 == q) = some (q, w) →
     s.coElem part blk at_ far q j = match w with
       | none => .code 0x3C
       | some w => .ok (w.toNat % 2 ^ (8 * if coFmt blk = 5 then 2 else 4))) ∧
  (∀ red a b (v : Nat → Nat) p q, v p = a → v q = b → a < 2 ^ 32 → b < 2 ^ 32 →
     let tree := RTree.node (.leaf p) (.leaf q)
     (red = 0 → coReduce 0 red tree v = (a + b) % 2 ^ 32 ∧ coReduce 1 red tree v = (a + b) % 2 ^ 32) ∧
     (red = 1 → coReduce 1 red tree v = min a b) ∧ (red = 2 → coReduce 1 red tree v = max a b)) ∧
  (∀ fmt red (v : Nat → Nat) a b, treeCombine fmt red v (.node a b) =
     coCombine fmt red (treeCombine fmt red v a) (treeCombine fmt red v b))

/-- R210 to R212, R271, R272: BARINIT, BARARR, BARWAIT and BARTEST. BARG arrives once the group's accesses have performed
and its core has nothing outbound, its region may not restart any more (R105), waits for the phase, and goes on; the phase is
full once every group of the grid has arrived in it or ended, and at its end the partition's cluster points have written
back and the grid's cores have dropped their L1 copies. -/
def Obligations.Barriers : Prop :=
  ((∀ h b a count, BarrierIssue (.barinit h b a count) b a fun s r t g =>
     SetsBarrier s r t g (.barinit h b a count) b.toNat { e := count.toNat, a := 0, ph := (t.bar b.toNat).ph }) ∧
   (∀ h b a, BarrierIssue (.bararr h b a) b a fun s r t g =>
     let i : Instr := .bararr h b a
     let x := t.bar b.toNat
     (x.e = 0 → TrapsOn s r t g i (g.takingPart i) fun _ => mkFault 0x14 b.toNat (g.rdS a.toNat &&& 0xFFFFFFFF) 0) ∧
     (x.e ≠ 0 → (∃ o, o ∈ g.pend ∧ o.holdsArrival) → exec i s = .next s) ∧
     (x.e ≠ 0 → (∀ o, o ∈ g.pend → ¬ o.holdsArrival) → SetsBarrier s r t g i b.toNat
       (if x.a + 1 = x.e then { e := x.e, a := 0, ph := !x.ph } else { x with a := x.a + 1 }))) ∧
   (∀ h b a phase, BarrierIssue (.barwait h b a phase) b a fun s r t g =>
     let i : Instr := .barwait h b a phase
     ((t.bar b.toNat).ph = phase → exec i s = .next s) ∧
     ((t.bar b.toNat).ph ≠ phase → Completes s r t i (g.after i) fun g' => Keeps g g' false false false false false)) ∧
   (∀ h d a b phase, d ≠ 7 → BarrierIssue (.bartest h d a b phase) b a fun s r t g =>
     let i : Instr := .bartest h d a b phase
     Completes s r t i (g.after i) fun g' => Keeps g g' false false true false false ∧
       PredResult g g' i d.toNat fun _ => (t.bar b.toNat).ph != phase)) ∧
  ((∀ h a (s : State) (r : GRef) (t : Team) (g : Group) gr, Issues s r t g (.barg h a) →
     (s.partn t.part).grid t.spool t.pos = some gr →
     let i : Instr := .barg h a
     let m : Word := (g.rdS a.toNat).setWidth 32
     let quiet := g.count .ld = 0 ∧ g.count .st = 0 ∧ g.count .tb = 0 ∧ (s.core t.core).outb = []
     let came := s.putGroup r
       { g with slot := g.slot.map fun sl => { sl with rs := false }, barg := some gr.phase }
     let passes := fun s0 => CompletesFrom s s0 r t i (g.after i) fun g' =>
       Keeps { g with barg := none } g' false false false false false
     (g.barg = none →
       (m ≠ g.takingPart i →
         TrapsOn s r t g i (g.takingPart i ||| (m &&& g.run)) fun _ => mkFault 0x13 0 (m.setWidth 64) 0) ∧
       (m = g.takingPart i → ¬ quiet → exec i s = .next s) ∧
       (m = g.takingPart i → quiet → came.gridFull t.part gr = false → exec i s = .next came) ∧
       (m = g.takingPart i → quiet → came.gridFull t.part gr = true → passes (came.gridPhase t.part gr))) ∧
     (∀ ph, g.barg = some ph → (gr.phase ≠ ph → passes s) ∧
       (gr.phase = ph → s.gridFull t.part gr = false → exec i s = .next s) ∧
       (gr.phase = ph → s.gridFull t.part gr = true → passes (s.gridPhase t.part gr)))) ∧
   (∀ (s : State) part gr, (s.partn part).grid gr.spool gr.pos ≠ none →
     let s' := s.gridPhase part gr
     (s'.partn part).grid gr.spool gr.pos = some { gr with phase := gr.phase + 1 } ∧
     (∀ c, pFirst (s.partn part) ≤ c → c < pFirst (s.partn part) + pClusters (s.partn part) →
       ∀ h, h ∈ (s'.cluster c).hot → h.own = []) ∧
     (∀ n t, (n, t) ∈ s.gridTeams part gr.spool gr.pos → (s'.core t.core).l1 = []) ∧
     s'.teams = s.teams ∧ s'.gates = s.gates))

/-- R284 to R288: GSIG, GWAIT, GRD and GTRY at issue, the grant that the gate unit answers beforehand, and what a
grant asks for, in the order of its faults. That the schedule brings the answer of a gate on another part is the model's
choice (log 45). -/
def Obligations.GateInstructionsAndGrants : Prop :=
  ((∀ h a v, GateIssue (.gsig h a v) a 28 fun s s0 r t g k =>
     let i : Instr := .gsig h a v
     let add := g.rdGateArg v
     let held := fun n => holdSig (s0.gate n).held r { who := .group r g.nextOp, addend := add }
     let s1 := match s0.gateHere k with
       | some n => if (s0.gate n).st = 1 then s0 else s0.setGate n { s0.gate n with held := held n }
       | none => s0
     CompletesFrom s s1 r t i (g.after i) fun g' => Keeps g g' false false false false false
       [opOf g i (.gsig k add) .gt .part 0 0 0 [mkReq 0]]) ∧
   (∀ h d a, GateIssue (.grd h d a) a 30 fun s s0 r t g k =>
     let i : Instr := .grd h d a
     CompletesFrom s s0 r t i (g.after i) fun g' => Keeps g g' false false false false false
       [opOf g i (.grd k d.toNat) .gt .part 0 0 0 [mkReq 0]]) ∧
   (∀ h d a v, GateIssue (.gtry h d a v) a 30 fun s s0 r t g k =>
     let i : Instr := .gtry h d a v
     CompletesFrom s s0 r t i (g.after i) fun g' => Keeps g g' false false false false false
       [opOf g i (.gtry k d.toNat (g.rdGateArg v)) .gt .part 0 0 0 ((laneList (g.takingPart i)).map mkReq)]) ∧
   (∀ h d a v, GateIssue (.gwait h d a v) a 29 fun s s0 r t g k =>
     let i : Instr := .gwait h d a v
     let th := g.rdGateArg v
     let waits := fun (s1 : State) =>
       exec i s = .next (s1.putGroup r { g with wait := .gwait k th none, grant := none })
     (s0.gateOlder g g.nextOp k = true → exec i s = .next s) ∧
     (s0.gateOlder g g.nextOp k = false →
       (∀ n, s0.gateHere k = some n → (s0.gate n).st = 1 → th.toNat ≤ (s0.gate n).value.toNat →
         CompletesFrom s s0 r t i (g.after i) fun g' =>
           ScalarResult g g' d.toNat (s0.gate n).value ∧ Keeps g g' false true false false false) ∧
       (∀ n, s0.gateHere k = some n → ¬ ((s0.gate n).st = 1 ∧ th.toNat ≤ (s0.gate n).value.toNat) →
         waits (s0.setGate n { s0.gate n with waiters := (s0.gate n).waiters ++ [(.asked r, th)] })) ∧
       (s0.gateHere k = none → waits s0))) ∧
   (∀ h d a v (s : State) (r : GRef) (t : Team) (g : Group) k th, Issues s r t g (.gwait h d a v) →
     let i : Instr := .gwait h d a v
     (g.wait = .gwait k th none → exec i s = .next s) ∧
     (∀ x, g.wait = .gwait k th (some x) → Completes s r t i (g.after i) fun g' =>
       ScalarResult g g' d.toNat x ∧ Keeps g g' false true false false false)) ∧
   (∀ (s : State) (r : GRef) (t : Team) (g : Group) w0 i (a : BitVec 6) right far, s.group r = some (t, g) →
     g.canIssue = true → g.grant = none → (∀ k x v, g.wait ≠ .gwait k x v) → s.fetch t g.pc.toNat = .got w0 (.ok i) →
     Instr.gateAsk i = some (a, right) → s.interlock t g i = true → g.pathFree i = true → g.takingPart i ≠ 0 →
     let h := g.rdS a.toNat
     let e := tget 0 (s.partn t.part).gateSlots (h.toNat % 4096)
     (∀ k s0, s.grant t.part h right = .ok k s0 →
       let s1 := s0.putGroup r { g with grant := some k }
       let gt := s1.gate (k % 65536)
       exec (.gateGrant ⟨r, far⟩) s = .next (if right = 28 ∧ gt.st ≠ 1 then
         s1.setGate (k % 65536) { gt with held := s1.heldAt (k % 65536) ++ [{ who := .asked r, addend := 0 }] } else s1)) ∧
     (s.grant t.part h right = .wait → exec (.gateGrant ⟨r, far⟩) s = .next (s.stallGrid t)) ∧
     (∀ slot, s.grant t.part h right = .far slot → s.onSkein = true → s.portUp = true → exec (.gateGrant ⟨r, some 0⟩) s =
       .next (s.putGroup r { g with grant := some (s.gateHome (gateKey (fld e 41 32) (fld e 15 0))) })))) ∧
  ((∀ (s : State) (t : Team) gr, (s.partn t.part).grid t.spool t.pos = some gr →
     s.stallGrid t = s.putGrid t.part { gr with stall := true }) ∧
   (∀ (s : State) k, k / 65536 = s.devNum → (s.gate (k % 65536)).fwd = none → s.gateHere k = some (k % 65536)) ∧
   (∀ (s : State) part (h : DWord) right n entry i, right = 28 ∨ right = 29 ∨ right = 30 →
     let slot := h.toNat % 4096
     let e := tget 0 (s.partn part).gateSlots slot
     let gt := s.gate n
     let granted := fun s0 => s.grant part h right = .ok (gateKey s.devNum n) s0
     let waits := s.grant part h right = .wait
     let tok := tget 0 gt.tok i
     (4096 ≤ h.toNat ∨ e.getLsbD 63 = false → s.grant part h right = .fault 1 slot) ∧
     (h.toNat < 4096 → e.getLsbD 63 = true → s.gateHere (gateKey (fld e 41 32) (fld e 15 0)) = none →
       s.grant part h right = .far slot) ∧
     (h.toNat < 4096 → e.getLsbD 63 = true → s.gateHere (gateKey (fld e 41 32) (fld e 15 0)) = some n →
       (gt.st = 0 → s.grant part h right = .fault 1 slot) ∧
       (gt.st ≠ 0 → gateEntry gt s.devNum part = none → s.grant part h right = .fault 2 slot) ∧
       (gt.st ≠ 0 → gateEntry gt s.devNum part = some (i, entry) →
         (entry.getLsbD right = false → s.grant part h right = .fault 2 slot) ∧
         (entry.getLsbD right = true →
           (gt.st ≠ 1 → right ≠ 28 ∨ 16 ≤ (s.heldAt n).length → waits) ∧
           (gt.st = 1 ∨ (right = 28 ∧ (s.heldAt n).length < 16) →
             (gt.limen = false → granted s) ∧
             (gt.limen = true → tok = 0 → gt.mode = true → s.grant part h right = .fault 3 slot) ∧
             (gt.limen = true → tok = 0 → gt.mode = false → waits) ∧
             (gt.limen = true → tok ≠ 0 → granted (s.setGate n { gt with tok := tset 0 gt.tok i (tok - 1) }))))))))

/-- R283, R286 to R288, R319: points of a gate's order: a signal adds to the value and answers the waiters whose threshold it
reaches, of another part too; GRD and GTRY read it, here or at another part; buckets fill as the clock comes to a
microsecond; activation checks the record; a frozen gate moves on, active again only once every signal that it granted while
frozen has issued. That a gate freezes only once the operations granted on it have taken their points (log 54), what moves
home before a signal (log 67), what another part's gate answers, and how a gate moves, within this part too (log 45), are the
model's choices. -/
def Obligations.GatePoints : Prop :=
  (∀ (s : State) (r : GRef) (t : Team) (g : Group) (o : Pend) k far, s.group r = some (t, g) → g.findOp o.id = some o →
    o.lanes ≠ [] → o.kind.gate = some k →
    (∀ p j, p ∈ g.pend → p.id < o.id → p.lanes ≠ [] → p.kind.gate = some j → s.gateHome j ≠ s.gateHome k) →
    let point := exec (.gatePoint r ⟨o.id, far⟩) s
    let sees := fun (s : State) (v : DWord) =>
      (∀ d, o.kind = .grd k d → point = .next (s.putGroup r ((g.wrS d v).opLanes o []))) ∧
      (∀ d th, o.kind = .gtry k d th → point = .next (s.putGroup r
        ((g.wrPOn d (lanesOf (o.lanes.map LaneReq.lane) &&& ~~~g.exited)
          (if th.toNat ≤ v.toNat then allOnes else 0)).opLanes o [])))
    (∀ add, o.kind = .gsig k add → g.signalReady o.id = false → point = .next s) ∧
    (∀ n, s.gateHere k = some n →
      let gt := s.gate n
      (gt.st ≠ 1 ∨ (∃ h, h ∈ gt.held ∧ h.who = .group r o.id) → point = .next s) ∧
      (gt.st = 1 → (∀ h, h ∈ gt.held → h.who ≠ .group r o.id) → sees s gt.value ∧
        ∀ add, o.kind = .gsig k add → g.signalReady o.id = true →
          point = .next ((((s.flushWide t.core).setGate n { gt with value := gt.value + add }).answerWaiters n).gateDone r o.id))) ∧
    (s.gateHere k = none →
      (s.onSkein = false ∨ s.portUp = false → point = .next s) ∧
      (s.onSkein = true → s.portUp = true → sees s far ∧
        ∀ add, o.kind = .gsig k add → g.signalReady o.id = true →
          point = .next ((s.flushWide t.core).putGroup r (g.opLanes o []))))) ∧
  (∀ (s : State) n q th, (.asked q, th) ∈ (s.gate n).waiters →
    (∀ p x, (.asked p, x) ∈ (s.gate n).waiters → ∃ t g k, s.group p = some (t, g) ∧ g.wait = .gwait k x none ∧
      s.gateHere k = some n) →
    let s' := s.answerWaiters n
    let v := (s.gate n).value
    (s'.gate n).value = v ∧
    (th.toNat ≤ v.toNat → (.asked q, th) ∉ (s'.gate n).waiters ∧
      ∃ t g k, s'.group q = some (t, g) ∧ g.wait = .gwait k th (some v)) ∧
    (v.toNat < th.toNat → (.asked q, th) ∈ (s'.gate n).waiters ∧
      (s'.group q).map Prod.snd = (s.group q).map Prod.snd)) ∧
  (∀ (s : State) (r : GRef) (t : Team) (g : Group) op k th far, s.group r = some (t, g) → g.findOp op = none →
    g.wait = .gwait k th none → s.gateHere k = none →
    let point := exec (.gatePoint r ⟨op, far⟩) s
    (s.onSkein = true → s.portUp = true → th.toNat ≤ far.toNat →
      point = .next (s.putGroup r { g with wait := .gwait k th (some far) })) ∧
    (s.onSkein = false ∨ s.portUp = false ∨ far.toNat < th.toNat → point = .next s)) ∧
  (∀ (s : State), twf Gate.reset s.gates = true → ∃ s', exec .gateTokenRefill s = .next s' ∧
    s'.refNs = 1000 * (s.refNs / 1000 + 1) ∧ s'.teams = s.teams ∧ s'.mem = s.mem ∧ ∀ n,
      let g := s.gate n
      let g' := s'.gate n
      g' = { g with tok := g'.tok } ∧ (g.limen = false → g' = g) ∧
      ∀ i, i < 8 → g.limen = true → (tget 0 g'.tok i).toNat =
        if (tget 0 g.acl i).getLsbD 31 then min g.burst.toNat ((tget 0 g.tok i).toNat + g.rate.toNat)
        else (tget 0 g.tok i).toNat) ∧
  (∀ (s : State) n (rec : BitVec 512), s.managed = true → n < 65536 →
    (∀ c, least (gateCodes (s.gate n).st rec) = some c →
      exec (.gateActivate n rec) s = .next { s with answer := [BitVec.ofNat 64 c] }) ∧
    (gateCodes (s.gate n).st rec = [] → ∃ g, exec (.gateActivate n rec) s = .next { s.setGate n g with answer := [0] } ∧
      g.st = 1 ∧ g.value = rec.setWidth 64 ∧ g.burst.toNat = fld rec 127 112 ∧ g.rate.toNat = fld rec 111 96 ∧
      g.mode = rec.getLsbD 67 ∧ g.limen = rec.getLsbD 66 ∧ g.held = [] ∧ g.waiters = [] ∧ g.fwd = none ∧
      ∀ i, i < 8 → tget 0 g.tok i = g.burst ∧ tget 0 g.acl i = rec.extractLsb' (128 + 32 * i) 32)) ∧
  (∀ (s : State) n (rec : BitVec 512), s.managed = false ∨ 65536 ≤ n → exec (.gateActivate n rec) s = .next s) ∧
  (∀ (s : State) n, (s.gate n).st = 1 →
    (s.gateBusy n = true → exec (.gateFreeze n) s = .next s) ∧
    (s.gateBusy n = false → exec (.gateFreeze n) s = .next (s.setGate n { s.gate n with st := 2 }))) ∧
  (∀ (s : State) n dev num, (s.gate n).st = 2 → (s.gate n).held = [] → (s.gate n).waiters = [] →
    let g := s.gate n
    let live : Gate := { g with st := 1, home := BitVec.ofNat 10 dev, fwd := none }
    let gone : Gate := { Gate.reset with st := 3, home := BitVec.ofNat 10 dev, fwd := some (dev, num) }
    (65536 ≤ num ∨ (dev ≠ s.devNum ∧ 640 ≤ dev) → exec (.gateMigrate n dev num) s = .next s) ∧
    (dev ≠ s.devNum → dev < 640 → num < 65536 → s.onSkein = true → s.portUp = true →
      exec (.gateMigrate n dev num) s = .next (s.setGate n gone)) ∧
    (dev ≠ s.devNum → s.onSkein = false ∨ s.portUp = false → exec (.gateMigrate n dev num) s = .next s) ∧
    let s0 := s.noteStalls
    (dev = s.devNum → num = n → num < 65536 → exec (.gateMigrate n dev num) s = .next (s0.setGate n live)) ∧
    (dev = s.devNum → num ≠ n → num < 65536 → (s.gate num).st = 0 →
      exec (.gateMigrate n dev num) s = .next ((s0.setGate n gone).setGate num live)) ∧
    (dev = s.devNum → num ≠ n → 65536 ≤ num ∨ (s.gate num).st ≠ 0 → exec (.gateMigrate n dev num) s = .next s)) ∧
  (∀ (s : State) n num h r, h ∈ s.heldAt n → h.who = .asked r → exec (.gateMigrate n s.devNum num) s = .next s) ∧
  (∀ (s : State), ∃ s', s.noteStalls = s' ∧ s' = { s with parts := s'.parts })

/-- R225, R228, R237 to R241: MXSTART, MXSTAT, MXRD, MXWR, MXDRAIN and MXREST. MXRD and MXWR take effect in all their lanes
at one moment (R239). The image has its header, its tiles and its slots in their places, and MXREST loads what stands there,
unless it refuses it (R240, R241); in a team without the array each is an illegal instruction of subcode 0x04 (R225). -/
def Obligations.MatrixInstructions : Prop :=
  (∀ h q stream (s : State) (r : GRef) (t : Team) (g : Group) a, Issues s r t g (.mxstart h q stream) → t.arr = some a →
    let i : Instr := .mxstart h q stream
    let qs : Nat → Word := fun k => match q with
      | some n => if k < 8 then (g.rdS (n.toNat + k)).setWidth 32 else 0
      | none => 0
    (g.takingPart i = 0 → Completes s r t i (g.after i) fun g' => Keeps g g' false false false false false) ∧
    (g.takingPart i ≠ 0 → a.st = 1 ∨ a.st = 2 ∨ a.st = 5 → exec i s = .next s) ∧
    (g.takingPart i ≠ 0 → a.st = 0 ∨ a.st = 3 ∨ a.st = 4 → g.ended = false → ∃ g' a',
      exec i s = .next (s.setTeam r.team (some { t.putGroup r.grp g' with arr := some a' })) ∧ g'.pc = g.after i ∧
      g'.pend = settleOps [] (g.pend ++ [{ opOf g i .mx .mx .team 0 0 0 [] with fin := true }]) ∧
      Keeps g { g' with pend := g.pend } false false false false false ∧
      a' = { a with st := 1, spc := stream, q := a'.q, lcnt := 0, loff := 0, mxgrp := r.grp, tsub := 0, bn := 0,
                    ph := false, miss := false, grp0 := r.grp, op0 := g.nextOp } ∧
      ∀ k, tget 0 a'.q k = qs k)) ∧
  (∀ d (s : State) (r : GRef) (t : Team) (g : Group) a, Issues s r t g (.mxstat d) → t.arr = some a →
    let i : Instr := .mxstat d
    ∃ v : DWord, Completes s r t i (g.after i) (fun g' =>
        ScalarResult g g' d.toNat v ∧ Keeps g g' false true false false false) ∧
      (a.st < 8 → a.w0.wfmt < 16 → a.w1.wfmt < 16 → fld v 63 32 = a.spc.toNat ∧ fld v 31 31 = 0 ∧
        fld v 30 24 = a.lcnt.toNat ∧ fld v 23 16 = a.tsub.toNat ∧ fld v 15 12 = a.bn.toNat ∧ v.getLsbD 11 = a.ph ∧
        fld v 10 7 = a.w1.wfmt ∧ fld v 6 3 = a.w0.wfmt ∧ fld v 2 0 = a.st)) ∧
  (∀ h n1 m d a (s : State) (r : GRef) (t : Team) (g : Group), Issues s r t g (.mxrd h n1 m d a) →
    let i : Instr := .mxrd h n1 m d a
    let sa := g.rdS a.toNat
    let n := n1.toNat + 1
    g.takingPart i ≠ 0 →
    (sa.toNat / 256 % 8 + n ≤ 8 → JoinsQueue s s r t g i (opOf g i (.mxrd m.toNat) .mx .team 0 0 n
      (accRequests g i sa n d.toNat fun _ => 0)) g.sf) ∧
    (8 < sa.toNat / 256 % 8 + n → g.count .mx = 0 →
      TrapsOn s r t g i (g.takingPart i) (fun _ => mkFault 0x15 0 sa 0) g.settle)) ∧
  (∀ h n1 m d a (s : State) (r : GRef) (t : Team) (g : Group), Issues s r t g (.mxwr h n1 m d a) →
    let i : Instr := .mxwr h n1 m d a
    let sa := g.rdS a.toNat
    let n := n1.toNat + 1
    g.takingPart i ≠ 0 →
    (sa.toNat / 256 % 8 + n ≤ 8 → JoinsQueue s s r t g i (opOf g i (.mxwr m.toNat) .mx .team 0 0 0
      (accRequests g i sa n 0 fun l => g.rdN d.toNat l n)) g.sf) ∧
    (8 < sa.toNat / 256 % 8 + n → g.count .mx = 0 →
      TrapsOn s r t g i (g.takingPart i) (fun _ => mkFault 0x15 0 sa 0) g.settle)) ∧
  (∀ (s : State) (r : GRef) (t : Team) (g : Group) (o : Pend) a m (lanes : Lanes), s.opAt r o.id = some (t, g, o) →
    t.arr = some a → o.faults = [] → o.lanes.Pairwise (fun p q => p.lane < q.lane) → (∀ q, q ∈ o.lanes → q.lane < 32) →
    (∃ q, q ∈ o.lanes ∧ lanes.getLsbD q.lane = true) →
    let elem := fun (a : Arr) (q : LaneReq) c => tget 0 a.m (accKey m q.addr ((q.va + c) * 32 + q.lane))
    let load := exec (.loadComplete r o.id lanes []) s
    let store := exec (.storePerform r o.id lanes) s
    let finished := settleOps [] (g.pend.map fun p => if p.id = o.id then { o with lanes := [], fin := true } else p)
    ((∃ q, q ∈ o.lanes ∧ g.laneBlocked o q = true) → (o.kind = .mxrd m → load = .next s) ∧
      (o.kind = .mxwr m → store = .next s)) ∧
    (a.st = 5 → (o.kind = .mxrd m → load = .next s) ∧ (o.kind = .mxwr m → store = .next s)) ∧
    (a.st ≠ 5 → (∀ q, q ∈ o.lanes → g.laneBlocked o q = false) →
      (o.kind = .mxrd m → ∃ g', load = .next (s.putGroup r g') ∧ g'.pend = finished ∧
        (∀ q c, q ∈ o.lanes → g.exited.getLsbD q.lane = false → c < o.regs → g'.rdV (q.reg + c) q.lane = elem a q c) ∧
        (∀ n l, l < 32 → (∀ q, q ∈ o.lanes → q.lane = l → n < q.reg ∨ q.reg + o.regs ≤ n) → g'.rdV n l = g.rdV n l)) ∧
      (o.kind = .mxwr m → ∃ g' a', store = .next ((s.setTeam r.team (some { t with arr := some a' })).putGroup r g') ∧
        g'.pend = finished ∧ a' = { a with m := a'.m } ∧
        (∀ q c, q ∈ o.lanes → c < q.key.toNat →
          elem a' q c = BitVec.ofNat 32 ((q.data.toNat + 2 ^ 128 * q.dat2.toNat) / 2 ^ (32 * c))) ∧
        ∀ k, (∀ q c, q ∈ o.lanes → c < q.key.toNat → k ≠ accKey m q.addr ((q.va + c) * 32 + q.lane)) →
          tget 0 a'.m k = tget 0 a.m k))) ∧
  (∀ h core a, ImageIssue (.mxdrain h core a) core a true fun s r t g slot tb p tn ar =>
    let i : Instr := .mxdrain h core a
    let s0 := s.touchImage (some t.core) t.part slot tb p 737536
    let s1 := s0.flushWide t.core
    let s2 := s1.writeImage t.core t.part slot tb p ar
    let s3 := s2.refreshL1 t.core (s0.spanOf (some t.core) t.part slot tb p 737536) (s2.posted.drop s1.posted.length)
    FinishesOnPath s (if core = none then s3 else s3.noteDrain t.part tn slot p) r t g i .mx .mx .part) ∧
  (∀ (s : State) part tn slot p t, s.team tn = some t → s.noteDrain part tn slot p =
    if t.st = .draining ∧ t.part = part then
      s.setTeam tn (some { t with st := .stopped, imgAt := some (slot, p), image := none })
    else s) ∧
  (∀ h core a, ImageIssue (.mxrest h core a) core a false fun s r t g slot tb p tn ar =>
    let i : Instr := .mxrest h core a
    let s0 := s.touchImage (some t.core) t.part slot tb p 737536
    let cells := s0.imageCells t.core t.part slot tb 13 p 737536 0
    let key := keyAddr (tKType tb) (tLo tb + (p / tWidth tb : Nat))
    let poison := s0.imagePoison (some t.core) t.part slot tb p 737536
    let own := fun (a : Arr) => if tn = r.team then { t with arr := some a } else t
    let whole := fun (a : Arr) => if tn = r.team then s0 else
      match s0.team tn with
      | some u => s0.setTeam tn (some { u with arr := some a })
      | none => s0
    (poison = true → g.count .mx = 0 → TrapsFrom s (whole Arr.start) r (own Arr.start) g i (g.takingPart i)
      (fun _ => mkFault 0x10 0 key (mkAux slot 0)) g.settle) ∧
    (poison = false → ar.ofCells cells = none → g.count .mx = 0 →
      TrapsFrom s s0 r t g i (g.takingPart i) (fun _ => mkFault 0x16 0 (g.rdS a.toNat) 0) g.settle) ∧
    (poison = false → ∀ ar', ar.ofCells cells = some ar' →
      FinishesOnPath s (whole ar') r (own ar') g i .mx .mx .part)) ∧
  (∀ i (s : State) (r : GRef) (t : Team) (g : Group), s.cur = some r → s.group r = some (t, g) → shMX t.shape = false →
    g.trap = none → g.redo = none → g.parks.length < 4 → g.faultLanes ≠ 0 →
    (match i with
      | .mxstart _ _ _ | .mxstat _ | .mxrd _ _ _ _ _ | .mxwr _ _ _ _ _ | .mxdrain _ _ _ | .mxrest _ _ _ => True
      | _ => False) →
    exec i s = .next (s.putGroup r { g with
      pc := g.after i, em := g.em &&& ~~~g.faultLanes, starve := 0
      parks := g.parks ++ [parkOf g i g.faultLanes fun _ => mkFault 1 4 0 0] })) ∧
  (∀ (a : Arr), a.fits → ImageOf
    (fun o => match a.pieces.find? fun e => decide (e.1 ≤ o ∧ o < e.1 + e.2.length) with
      | some e => e.2.getD (o - e.1) 0
      | none => 0) (if a.st = 5 then a.frozen else a.st) a.ph a.bn.toNat a) ∧
  (∀ (s : State) core part slot tb p (a : Arr), s.writeImage core part slot tb p a =
    a.pieces.foldl (fun s e => s.rowWrite (some core) part slot tb (p + e.1) e.2)
      ((s.zeroImage (some core) part slot tb 13 p 737536).clearImage (some core) part slot tb p 737536)) ∧
  (∀ (s : State) core part slot tb p o b,
    (∀ x y, x ≤ y → (tHeap tb + x) / 65536 = (tHeap tb + y) / 65536 →
      s.imageKey (some core) part slot tb y = (s.imageKey (some core) part slot tb x).map fun k => k + (y - x)) →
    ((o, b) ∈ s.imageCells core part slot tb 13 p 737536 0 ↔
      o < 737536 ∧ ∃ k, s.imageKey (some core) part slot tb (p + o) = some k ∧ (k, b) ∈ s.mem)) ∧
  (∀ (a : Arr) (cs : List (Nat × Byte)), cs.Pairwise (fun x y => x.1 < y.1) →
    let byte := fun o => tget 0 cs o
    let h : BitVec 2048 := BitVec.ofNat 2048 (imageNum byte 0 256)
    let st := fld h 38 36
    let format := fun n => n = 0 ∨ (5 ≤ n ∧ n ≤ 9)
    let bad := fld h 15 0 ≠ 1 ∨ fld h 27 16 ≠ 0 ∨ fld h 63 56 ≠ 0 ∨ fld h 2047 384 ≠ 0 ∨ ¬ format (fld h 31 28) ∨
      ¬ format (fld h 35 32) ∨ 6 ≤ st ∨ ∃ base, (base = 524544 ∨ base = 631040) ∧
        ((∃ k, k < 32768 ∧ imageNum byte (base + 3 * k) 3 / 2 ^ 15 % 2 ^ 7 ≠ 0) ∨
          ∃ d, d < 1024 ∧ imageNum byte (base + 98304 + 8 * d) 8 / 2 ^ 48 ≠ 0)
    (bad → a.ofCells cs = none) ∧
    (¬ bad → ∃ a', a.ofCells cs = some a' ∧ ImageOf byte st (h.getLsbD 39) (fld h 43 40) a' ∧
      a'.st = (if st = 1 ∨ st = 2 ∨ st = 5 then 5 else st) ∧
      (st = 1 ∨ st = 5 → a'.frozen = 1) ∧
      (st = 2 → a'.frozen = 2 ∧ a'.ph = h.getLsbD 39 ∧ a'.bn.toNat = fld h 43 40))) ∧
  (∀ w : BitVec 24, elCls w = w.toNat / 2 ^ 22 ∧ elInt w = (w.extractLsb' 0 15).toInt)

/-- R122, R225 to R236, R303: the tile words, and the fates of words that do not run. A weight load latches the elements,
the descriptors and the sums of squares of R218; TSTO converts with one rounding, saturating (R233); the flags of a stream
row are those of its elements and of its results (R217, R223). -/
def Obligations.TileWords : Prop :=
  (∀ (s : State) n t a, SeqTurn s n t a →
    WordCompletes s n a .tnop t a 0 ∧
    exec .tend s = .next (s.setTeam n (some { t with
      arr := some { a with st := 3, spc := a.spc + 8, bn := 0, ph := false } })) ∧
    (∀ q k, WordCompletes s n a (.tsetq q k) t { a with q := tset 0 a.q q.toNat k } 0) ∧
    (∀ m, ∃ m', WordCompletes s n a (.tzero m) t { a with m := m' } 0 ∧
      ∀ k, tget 0 m' k = if k / 32768 = m.toNat then 0 else tget 0 a.m k) ∧
    (∀ b, (t.bar b.toNat).e = 0 → SeqStops s n t a (.tarb b) 0x80 0x14 b.toNat (a.word.setWidth 32)) ∧
    (∀ b, (t.bar b.toNat).e ≠ 0 → WordCompletes s n a (.tarb b) (t.setBar b.toNat (t.bar b.toNat).arrive) a 0) ∧
    (∀ b ph, (t.bar b.toNat).ph ≠ ph → WordCompletes s n a (.twb b ph) t a 0) ∧
    (∀ b ph, (t.bar b.toNat).ph = ph →
      exec (.twb b ph) s = .next (s.setTeam n (some { t with arr := some { a with st := 2, bn := b, ph := ph } }))) ∧
    (∀ c k,
      (a.lcnt ≠ 0 → a.loff ≠ a.spc → SeqStops s n t a (.tloop c k) 0x22 1 0x22 (a.word.setWidth 32)) ∧
      (a.lcnt = 0 ∨ a.loff = a.spc →
        let left := if a.lcnt = 0 then c else a.lcnt - 1
        let owner := if a.lcnt = 0 then a.spc else a.loff
        let pc := if left = 0 then a.spc + 8 else a.spc + k
        exec (.tloop c k) s =
          .next (s.setTeam n (some { t with arr := some { a with lcnt := left, loff := owner, spc := pc } })))) ∧
    (∀ sub, SeqStops s n t a (.unassignedTileWord sub) sub.toNat 1 sub.toNat (a.word.setWidth 32)) ∧
    SeqStops s n t a (.tileWordFetchFault .range) 0x81 4 0 0 ∧
    SeqStops s n t a (.tileWordFetchFault .poisoned) 0x82 0x10 0 0) ∧
  (∀ (s : State) n t a b ph, s.seq = some n → s.team n = some t → t.arr = some a → a.st = 2 →
    ((t.bar b.toNat).ph ≠ ph → WordCompletes s n a (.twb b ph) t a 0)) ∧
  (∀ m q inc k, ScratchWord (.tlda m q inc k) q inc k true fun s n t a a1 ad =>
    ∃ m', WordCompletes s n a (.tlda m q inc k) t { a1 with m := m' } 0 ∧
      (∀ x y, x < 128 → y < 256 → tget 0 m' (accKey m.toNat x y) =
        BitVec.ofNat 32 (leNat (t.engRead (ad + 1024 * x + 4 * y) 4))) ∧
      ∀ e, e / 32768 ≠ m.toNat → tget 0 m' e = tget 0 a.m e) ∧
  (∀ m fmt q inc k, fmt = .f32 ∨ fmt = .bf16 ∨ fmt = .e4m3 ∨ fmt = .e5m2 →
    ScratchWord (.tsto m fmt q inc k) q inc k false fun s n t a a1 ad =>
      let es := fWidth fmt / 8
      let conv := fun x y => tstoConv fmt (tget 0 a.m (accKey m.toNat x y))
      ∃ sp f, WordCompletes s n a (.tsto m fmt q inc k) { t with scratch := sp } a1 f ∧
        (ad + 32768 * es ≤ t.alloc → ∀ x y, x < 128 → y < 256 →
          ({ t with scratch := sp } : Team).engRead (ad + (256 * x + y) * es) es = natBytes (conv x y).1 es) ∧
        (∀ bit, f.getLsbD bit = true ↔ ∃ x y, x < 128 ∧ y < 256 ∧ (conv x y).2.getLsbD bit = true)) ∧
  (∀ ws fmt q inc k, fmt = .bf16 ∨ fmt = .e4m3 ∨ fmt = .e5m2 ∨ fmt = .i4g ∨ fmt = .i3g →
    ScratchWord (.tlw ws fmt q inc k) q inc k true fun s n t a a1 ad =>
      ∃ w f, WordCompletes s n a (.tlw ws fmt q inc k) t (if ws = 0 then { a1 with w0 := w } else { a1 with w1 := w }) f ∧
        LoadedSlot fmt (t.engRead ad (wBytes fmt)) w f ∧ w.src = some (ad, t.alloc)) ∧
  (∀ fmt, (wBits fmt = match fmt with | .bf16 => 16 | .i4g => 4 | .i3g => 3 | _ => 8) ∧ wPitch fmt = 16 * wBits fmt) ∧
  (wBytes .bf16 = 65536 ∧ wBytes .e4m3 = 32768 ∧ wBytes .e5m2 = 32768 ∧ wBytes .i4g = 18432 ∧ wBytes .i3g = 14336) ∧
  (∀ v, tstoConv .f32 v = (v.toNat, 0)) ∧
  (∀ fmt v, fmt = .bf16 ∨ fmt = .e4m3 ∨ fmt = .e5m2 →
    ((fdec .f32 v.toNat).isNaN = true → tstoConv fmt v = (fNaN fmt, 0)) ∧
    (∀ neg, fdec .f32 v.toNat = .inf neg → tstoConv fmt v = (fSign fmt neg + fMax fmt, 0x400)) ∧
    (∀ neg e, fdec .f32 v.toNat = .fin neg 0 e → tstoConv fmt v = (fSign fmt neg, 0)) ∧
    (∀ x, (fdec .f32 v.toNat).num = some x → x ≠ 0 → ∃ r, Machine.RoundedOnce fmt .rn true x r ∧
      tstoConv fmt v = (r.1, if r.2 = 4 then 0x400 else 0))) ∧
  (∀ m ws fmt acc q inc rows k, fmt = .bf16 ∨ fmt = .e4m3 ∨ fmt = .e5m2 →
    ScratchWord (.tmm m ws fmt acc q inc rows k) q inc k true fun s n t a a1 ad =>
      let w := if ws = 0 then a.w0 else a.w1
      let pitch := if fmt = .bf16 then 256 else 128
      let bands := fun x => rowBands fmt (t.engRead (ad + pitch * x) pitch) (padElem t.alloc (ad + pitch * x) (fWidth fmt))
      let elem := fun x y => arrayElem (bands x) w.eff y
        (if acc then accIn (tget 0 a.m (accKey m.toNat x y)) else (.fin false 0 (-149), 0))
      ∃ m' f, WordCompletes s n a (.tmm m ws fmt acc q inc rows k) t { a1 with m := m' } f ∧
        (∀ x y, x ≤ rows.toNat → y < 256 → tget 0 m' (accKey m.toNat x y) = (elem x y).1) ∧
        (∀ e, e / 32768 ≠ m.toNat ∨ rows.toNat < e % 32768 / 256 → tget 0 m' e = tget 0 a.m e) ∧
        ∀ bit, f.getLsbD bit = true ↔ ∃ x, x ≤ rows.toNat ∧ ((∃ y, y < 256 ∧ (elem x y).2.getLsbD bit = true) ∨
          ∃ b v, b ∈ bands x ∧ v ∈ b.xs ∧ ((bit = 8 ∧ v.isSig = true) ∨ (bit = 11 ∧ lost b.ea v))))

/-- R216, R219 to R224: the array's arithmetic: alignment to the group's exponent by rounding to nearest even, the band
identity (the halved square sums are exactly the sum of products), the band result with its conversion and its scaling, the
bands with infinite elements and NaN, and the additions in ascending band order, each the exact sum rounded once, an overflow
being tested on the accumulator. That an infinite element against a zero read beyond the allocation makes the band's result
NaN without a flag is the model's reading (log 78). -/
def Obligations.ArrayArithmetic : Prop :=
  (∀ e n m q x, (FV.fin n m q).num = some x →
    let y := x * (2 : Rat) ^ (12 - e)
    let k := alignTo e (.fin n m q)
    (y - k).abs ≤ 1 / 2 ∧ ((y - k).abs = 1 / 2 → k % 2 = 0)) ∧
  (∀ e, alignTo e (.inf false) = 0 ∧ alignTo e (.inf true) = 0 ∧ alignTo e (.nan false) = 0 ∧ alignTo e (.nan true) = 0) ∧
  (∀ (a : BandA) (w : WSlot) b j, a.as.length = 32 → twf 0 w.el = true →
    let el := fun k => tget 0 w.el (128 * j + 32 * b + k)
    (∀ k, k < 32 → elCls (el k) = 0) →
    (w.colsq b j : Int) = ((List.range 32).map fun k => elInt (el k) * elInt (el k)).sum →
    bandD a w b j = ((List.range 32).map fun k => a.as.getD k 0 * elInt (el k)).sum) ∧
  (∀ (w : WSlot) b j,
    let desc := tget 0 w.desc (256 * b + j)
    w.scale b j = if w.wfmt = 8 ∨ w.wfmt = 9 then fdec .bf16 (fld desc 47 32)
      else .fin false 1 ((desc.extractLsb' 32 16).toInt - 12)) ∧
  (∀ (a : BandA) (w : WSlot) b j scale, (∀ x, x ∈ a.xs → x.cls = 0) → (∀ e, e ∈ w.el → elCls e.2 = 0) →
    (w.scale b j).num = some scale → ∃ d r, RoundsUnbounded (bandD a w b j) d ∧
      RoundsUnbounded (d * ((2 : Rat) ^ (a.ea - 12) * scale)) r ∧ (bandResult a w b j).1.num = some r ∧
      (bandResult a w b j).2 = 0 ∧ (r = 0 → (bandResult a w b j).1 = .fin false 0 (-149))) ∧
  (∀ (a : BandA) (w : WSlot) b j, a.xs.length = 32 →
    let x := fun k => a.xs.getD k (.nan false)
    let y := fun k => w.sort j (32 * b + k)
    let infinite := fun k => k < 32 ∧ ((x k).isInf = true ∨ (y k).1 ≠ 0)
    let nan := ∃ k, k < 32 ∧ ((x k).isNaN = true ∨ (y k).1 = 3)
    let byZero := fun k => infinite k ∧ ((x k).isZero = true ∨ (y k).2 = none)
    let padded := fun k => a.pads.getD k false = true ∨ w.pad j (32 * b + k) = true
    let signed := fun (neg : Bool) => ∃ k sy, infinite k ∧ (x k).isZero = false ∧ (y k).2 = some sy ∧ ((x k).neg != sy) = neg
    (nan → bandResult a w b j = (.nan false, 0)) ∧
    (¬ nan → (∃ k, byZero k ∧ ¬ padded k) ∨ (signed true ∧ signed false) → bandResult a w b j = (.nan false, 0x100)) ∧
    (¬ nan → (∃ k, byZero k) → (∀ k, byZero k → padded k) → ¬ (signed true ∧ signed false) →
      bandResult a w b j = (.nan false, 0)) ∧
    (¬ nan → (∀ k, ¬ byZero k) →
      (signed true → ¬ signed false → bandResult a w b j = (.inf true, 0)) ∧
      (signed false → ¬ signed true → bandResult a w b j = (.inf false, 0)))) ∧
  (∀ x0 x1 x2 x3 (w : WSlot) j start,
    let step := fun (acc : FV × Word) a b =>
      let r := bandResult a w b j
      ((accAdd acc.1 r.1).1, acc.2 ||| r.2 ||| (accAdd acc.1 r.1).2)
    let total := step (step (step (step start x0 0) x1 1) x2 2) x3 3
    arrayElem [x0, x1, x2, x3] w j start = (accOut total.1, total.2)) ∧
  (∀ fmt bs pad b, b < 4 → (rowBands fmt bs pad).length = 4 ∧ ∃ a, (rowBands fmt bs pad)[b]? = some a ∧
    a.xs = ((List.range 32).map fun k =>
      fdec fmt (leNat bs / 2 ^ (fWidth fmt * (32 * b + k)) % 2 ^ fWidth fmt)) ∧
    a.as = a.xs.map (alignTo a.ea) ∧ GroupExponent a.xs a.ea ∧ a.pads = (List.range 32).map fun k => pad (32 * b + k)) ∧
  (∀ (t : Team) base bits k, padElem t.alloc base bits k = true ↔
    t.engAddr (base + bits * k / 8) = none ∧ t.engAddr (base + (bits * k + bits - 1) / 8) = none) ∧
  (∀ (w : WSlot), (w.wfmt ≠ 0 → w.eff = w) ∧ (w.wfmt = 0 → ∀ j k b, w.eff.sort j k = (0, none) ∧ w.eff.pad j k = false ∧
    tget 0 w.eff.el (128 * j + k) = 0 ∧ tget 0 w.eff.desc (256 * b + j) = 0)) ∧
  (∀ (acc r : FV) x y, acc.num = some x → r.num = some y → ∃ v, RoundsUnbounded (x + y) v ∧
    (maxNum .f32 < v.abs → accAdd acc r = (.inf (decide (v < 0)), 0x200)) ∧
    (v.abs ≤ maxNum .f32 → (accAdd acc r).1.num = some v ∧ (accAdd acc r).2 = 0 ∧
      (fdec .f32 (accOut (accAdd acc r).1).toNat).num = some v ∧ (v = 0 → accOut (accAdd acc r).1 = 0))) ∧
  (∀ (x : FV) s n k m e, accAdd (.nan s) x = (.nan false, 0) ∧ accAdd x (.nan s) = (.nan false, 0) ∧
    accAdd (.inf n) (.inf k) = (if n = k then (.inf n, 0) else (.nan false, 0x100)) ∧
    accAdd (.inf n) (.fin k m e) = (.inf n, 0) ∧ accAdd (.fin k m e) (.inf n) = (.inf n, 0) ∧
    accOut (.nan s) = 0x7FC00000 ∧ accOut (.inf false) = 0x7F800000 ∧ accOut (.inf true) = 0xFF800000) ∧
  (∀ v : Word, (∀ s, fdec .f32 v.toNat = .nan s → accIn v = (.nan false, if s then 0x100 else 0)) ∧
    (∀ n, fdec .f32 v.toNat = .inf n → accIn v = (.inf n, 0)) ∧
    (∀ x, (fdec .f32 v.toNat).num = some x → (accIn v).1.num = some x ∧ (accIn v).2 = 0 ∧ (x = 0 → (accIn v).1.neg = false)))

/-- R58, R66, R226, R227, R295, R300, R302, R303, R311, R332: TRAP and BRK park the lanes that take part, in trap mode they
halt the group; an encoding that is no instruction and a code fetch that faults park the lanes of EM. A tile-word fetch
that misses translation waits and is reported; a stop of the sequencer is delivered to a group as an asynchronous park. An
instruction that issues again keeps to its noted lanes and goes on behind it (R295). The NEXT and INSN of a record with no
word, the RPL bit of a tile word's miss, and the group and the time of a stop's delivery are the model's choices (logs 9,
55, 33). -/
def Obligations.DeliberateTrapsAndStops : Prop :=
  (let deliberate := fun (i : Instr) (cause : Nat) (code : Word) => ∀ (s : State) (r : GRef) (t : Team) (g : Group),
     Issues s r t g i →
     let f := mkFault cause (code.toNat % 65536) (code.setWidth 64) 0
     (g.takingPart i = 0 → Completes s r t i (g.after i) fun g' => Keeps g g' false false false false false) ∧
     (g.takingPart i ≠ 0 → TrapsOn s r t g i (g.takingPart i) fun _ => f) ∧
     (∀ ts, g.takingPart i ≠ 0 → g.trap = some ts → g.ended = false → ∃ g', exec i s =
       .next ((s.putGroup r g').teamReport t 3 0 6 0 0 0 [ts.park.record, (parkOf g i (g.takingPart i) fun _ => f).record]) ∧
       g'.halted = true ∧ g'.parks = g.parks)
   let parks := fun (s : State) (r : GRef) (t : Team) (g : Group) (i : Instr) (next insn : Word) (starve : Nat)
       (f : LaneFault) =>
     s.cur = some r → s.group r = some (t, g) → g.trap = none → g.parks.length < 4 →
     let (lanes, pc) := match g.redo with
       | some d => (g.faultLanes &&& d.noted &&& ~~~g.owed, if d.next = g.pc then next else d.next)
       | none => (g.faultLanes, next)
     let park : Park := { rpl := false, async := false, pc := g.pc, next := next, insn := insn,
                          faults := (laneList lanes).map fun l => (l, f), resolved := false, op := none }
     lanes ≠ 0 → exec i s = .next (s.putGroup r { g with
       pc := pc, em := g.em &&& ~~~lanes, parks := g.parks ++ [park], starve := starve, redo := none })
   let behind := fun (g : Group) => match g.redo with | some d => d.next | none => g.pc
   (∀ h code, deliberate (.trap h code) 0x1A code) ∧ (∀ h code, deliberate (.brk h code) 0x1B code) ∧
   (∀ sub len (s : State) (r : GRef) (t : Team) (g : Group),
     parks s r t g (.unassignedEncoding sub len) (g.pc + BitVec.ofNat 32 len.bytes) g.insn 0 (mkFault 1 sub.toNat 0 0)) ∧
   (∀ (s : State) (r : GRef) (t : Team) (g : Group) w0, s.fetch t g.pc.toNat = .range (some w0) →
     parks s r t g (.codeFetchFault .range) (g.pc + BitVec.ofNat 32 (lenOf w0).bytes) w0 g.starve (mkFault 4 0 (g.pc.setWidth 64) 0)) ∧
   (∀ (s : State) (r : GRef) (t : Team) (g : Group), s.fetch t g.pc.toNat = .range none →
     parks s r t g (.codeFetchFault .range) (behind g) 0 g.starve (mkFault 4 0 (g.pc.setWidth 64) 0)) ∧
   (∀ (s : State) (r : GRef) (t : Team) (g : Group) key slot, s.fetch t g.pc.toNat = .poison key slot none →
     parks s r t g (.codeFetchFault .poisoned) (behind g) 0 g.starve (mkFault 0x10 0 key (mkAux slot 0))) ∧
   (∀ (s : State) (r : GRef) (t : Team) (g : Group) key slot w0, s.fetch t g.pc.toNat = .poison key slot (some w0) →
     parks s r t g (.codeFetchFault .poisoned) (g.pc + BitVec.ofNat 32 (lenOf w0).bytes) w0 g.starve
       (mkFault 0x10 0 key (mkAux slot 0))) ∧
   (∀ (s : State) (r : GRef) (t : Team) (g : Group) va, s.fetch t g.pc.toNat = .miss va → s.cur = some r →
     s.group r = some (t, g) →
     let slot := recCSlot t.record
     let (lanes, pc) := match g.redo with
       | some d => (g.faultLanes &&& d.noted &&& ~~~g.owed, d.next)
       | none => (g.faultLanes, g.pc)
     let park : Park := { rpl := true, async := false, pc := g.pc, next := pc, insn := 0,
                          faults := (laneList lanes).map fun l => (l, missFault 2 va slot), resolved := false, op := none }
     (s.codePaged t = true → g.trap = none → g.halted = false → g.parks.length < 4 → lanes ≠ 0 →
       exec (.codeFetchFault .translation) s =
         .next ((s.teamReport t 6 0 6 slot 0 (BitVec.ofNat 64 va) [park.record]).putGroup r
           { g with pc := pc, em := g.em &&& ~~~lanes, parks := g.parks ++ [park], redo := none })) ∧
     (s.codePaged t = false →
       exec (.codeFetchFault .translation) s =
         .next ((s.putGroup r { g with wait := .xlate va }).teamReport t 7 0 10 slot 0 (BitVec.ofNat 64 va) [])))) ∧
  ((∀ (s : State) n t a, SeqTurn s n t a → exec (.tileWordFetchFault .translation) s =
     .next (s.setTeam n (some { t with arr := some { a with miss := true } }))) ∧
   (∀ (s : State) n t a va, s.team n = some t → t.arr = some a → a.st = 1 → a.miss = false →
     s.tfetch t a.spc.toNat = .miss va → ∃ rec : BitVec 256, exec (.tileWordFetchMiss n) s =
       .next ((s.setTeam n (some { t with arr := some { a with miss := true } })).teamReport t 6 0 5
         (recCSlot t.record) 0 (BitVec.ofNat 64 va) [rec]) ∧
       fld rec 7 0 = 0x11 ∧ rec.getLsbD 8 = true ∧ rec.getLsbD 9 = true ∧ fld rec 31 16 = 2 ∧ fld rec 63 32 = 0 ∧
       fld rec 95 64 = a.spc.toNat ∧ fld rec 127 96 = a.spc.toNat ∧ fld rec 159 128 = 0 ∧ fld rec 255 192 = va % 2 ^ 64) ∧
   (∀ (s : State) n t a p rest grp k g, s.team n = some t → t.arr = some a → a.stops = p :: rest →
     t.passesTo a.mxgrp grp → t.passesTo p.grp k → t.groups[k]? = some g → g.halted = false → g.whole = none →
     g.redo = none → g.trap = none → g.stop ≠ .stopped → g.faultLanes ≠ 0 → g.parks.length < 4 →
     let m := g.faultLanes
     let fault : LaneFault := { cause := p.cause, detail := p.detail, addr := p.spc.setWidth 64, aux := 0, slot := 0 }
     let park : Park := { rpl := false, async := true, pc := g.pc, next := g.pc, insn := p.insn,
                          faults := (laneList m).map fun l => (l, fault), resolved := false, op := none }
     ∃ g', exec (.stopDelivery n) s = .next (s.setTeam n (some { t.putGroup k g' with
         arr := some { a with stops := rest, mxgrp := grp } })) ∧
       g'.parks = g.parks ++ [park] ∧ g'.em = g.em &&& ~~~m ∧ g'.pc = g.pc ∧ g'.v = g.v ∧ g'.s = g.s ∧ g'.p = g.p ∧
       g'.x = g.x ∧ g'.nf = g.nf ∧ g'.sf = g.sf ∧ g'.pend = g.pend) ∧
   (∀ (s : State) n t a p rest k g, s.team n = some t → t.arr = some a → a.stops = p :: rest → t.passesTo p.grp k →
     t.groups[k]? = some g → g.halted = false →
     g.whole ≠ none ∨ g.redo ≠ none ∨ g.faultLanes = 0 ∨ g.stop = .stopped → exec (.stopDelivery n) s = .next s) ∧
   (∀ (s : State) n t a, s.team n = some t → t.arr = some a → a.stops = [] → exec (.stopDelivery n) s = .next s))

/-- R292, R294 to R299: the fault record of a park: the lowest cause, the detail of the lowest-numbered lane that has it, the
lanes, PC, NEXT and the instruction word. Serving the park slots: a non-replayable park enters the trap handler, the
exception's entry: the frame is kept, the trap registers and the lanes' own banks hold the record, and the program counter is
HOFF; with no handler the group halts; a replayable park runs again once it is resolved. The lanes of a catch-up run that
arrive where the others wait join them. With no slot free a non-replayable park enters the handler at once, the others
waiting at NEXT, where no park is served, and a replayable one parks the whole group. That a park waits while lanes of its
issue are under way is the model's choice (log 18). -/
def Obligations.TakingAnException : Prop :=
  (∀ (p : Park) before l f after, p.faults = before ++ (l, f) :: after →
     (∀ x, x ∈ before → f.cause.toNat < x.2.cause.toNat) → (∀ x, x ∈ after → f.cause.toNat ≤ x.2.cause.toNat) →
     fld p.record 7 0 = f.cause.toNat ∧ p.record.getLsbD 8 = p.rpl ∧ p.record.getLsbD 9 = p.async ∧
     fld p.record 15 10 = 0 ∧ fld p.record 31 16 = f.detail.toNat ∧ fld p.record 63 32 = p.insn.toNat ∧
     fld p.record 95 64 = p.next.toNat ∧ fld p.record 127 96 = p.pc.toNat ∧
     (∀ n, n < 32 → (p.record.getLsbD (128 + n) = true ↔ ∃ x, x ∈ p.faults ∧ x.1 = n)) ∧
     fld p.record 191 160 = f.aux.toNat ∧ fld p.record 255 192 = f.addr.toNat) ∧
  (∀ (s : State) (r : GRef) (t : Team) (g : Group) p rest, s.group r = some (t, g) → g.serves = true → g.atHead = false →
     g.arrived = false → g.catchUp = none → g.parks = p :: rest →
     let serve := exec (.serveParkSlots r) s
     let lanes := parkLanes [p]
     let left := s.leaveGates r
     let cfg := (s.partn t.part).trapcfg
     (p.rpl = false → (∀ o, o ∈ g.pend → p.op ≠ some o.id) → cfg.getLsbD 32 = true → (∀ x, x ∈ p.faults → x.1 < 32) →
       (p.faults.map Prod.fst).Nodup → ∃ g', serve = .next (left.putGroup r g') ∧
         g'.pc = cfg.setWidth 32 ∧ g'.em = lanes ∧ g'.parks = rest ∧
         g'.trap = some { em := g.em, p := g.p, pending := lanes, park := p, resume := [], skipped := [] } ∧
         g'.trapPC = p.pc ∧ g'.trapCause.toNat = fld p.record 15 0 ∧ g'.trapInfo.toNat = fld p.record 31 16 ∧
         g'.trapAddr.toNat = fld p.record 255 192 ∧ (g'.rdS 1016).toNat = fld p.record 63 0 ∧
         (g'.rdS 1017).toNat = fld p.record 127 64 ∧ (g'.rdS 1018).toNat = fld p.record 191 128 ∧
         (g'.rdS 1019).toNat = fld p.record 255 192 ∧ (∀ m, m < 1016 ∨ 1019 < m → g'.rdS m = g.rdS m) ∧
         (∀ l f, (l, f) ∈ p.faults → (g'.rdV 1008 l).toNat = fld f.addr 31 0 ∧ (g'.rdV 1009 l).toNat = fld f.addr 63 32 ∧
           fld (g'.rdV 1010 l) 7 0 = f.cause.toNat ∧ fld (g'.rdV 1010 l) 31 16 = f.detail.toNat) ∧
         (∀ n l, l < 32 → n < 1008 ∨ 1010 < n ∨ lanes.getLsbD l = false → g'.rdV n l = g.rdV n l) ∧
         g'.p = g.p ∧ g'.x = g.x ∧ g'.c = g.c ∧ g'.nf = g.nf ∧ g'.sf = g.sf ∧ g'.exited = g.exited ∧ g'.pend = g.pend) ∧
     (p.rpl = false → (∀ o, o ∈ g.pend → p.op ≠ some o.id) → cfg.getLsbD 32 = false → ∃ g',
       serve = .next ((left.putGroup r g').teamReport t 3 0 6 0 0 0 [p.record]) ∧ g'.halted = true) ∧
     (p.rpl = false → p.open g = true → serve = .next s) ∧
     (p.rpl = true → p.resolved = false → serve = .next s) ∧
     (p.rpl = true → p.resolved = true → ∃ g', serve = .next (left.putGroup r g') ∧ g'.em = lanes ∧ g'.pc = p.pc ∧
       g'.parks = rest ∧ g'.trap = none ∧ g'.v = g.v ∧ g'.s = g.s ∧ g'.p = g.p)) ∧
  (∀ (s : State) (r : GRef) (t : Team) (g : Group) c, s.group r = some (t, g) → g.serves = true → g.arrived = true →
     g.catchUp = some c →
     let serve := exec (.serveParkSlots r) s
     let home := (s.leaveGates r).putGroup r
     let one := { g with grant := none, wait := .none, atHead := false }
     let all := { c with waitEM := c.waitEM ||| g.em, held := c.held ||| g.run }
     (∀ q rest, c.resume = q :: rest →
       serve = .next (home { one with em := q.em, pc := q.pc, catchUp := some { all with resume := rest } })) ∧
     (c.resume = [] → g.parks = [] ∨ c.point = true → serve = .next (home { one with em := all.waitEM, catchUp := none })) ∧
     (∀ p rest, c.resume = [] → c.point = false → g.parks = p :: rest → p.rpl = true → p.resolved = true →
       serve = .next (home { one with em := parkLanes [p], pc := p.pc, parks := rest, catchUp := some all }))) ∧
  (∀ (s : State) (r : GRef), twf Gate.reset s.gates = true →
     let s' := s.leaveGates r
     s' = { s with gates := s'.gates } ∧ ∀ n, s'.gate n = { s.gate n with
       waiters := (s.gate n).waiters.filter fun w => w.1 != .asked r
       held := (s.gate n).held.filter fun h => h.who != .asked r }) ∧
  (∀ h code (s : State) (r : GRef) (t : Team) (g : Group), Issues s r t g (.trap h code) → g.trap = none →
     g.halted = false → g.ended = false → g.catchUp = none → 4 ≤ g.parks.length →
     let i : Instr := .trap h code
     let lanes := g.takingPart i
     let cfg := (s.partn t.part).trapcfg
     let park := parkOf g i lanes fun _ => mkFault 0x1A (code.toNat % 65536) (code.setWidth 64) 0
     let wait : CatchUp := { head := some (g.after i), point := true, waitEM := g.em &&& ~~~lanes
                             held := g.run &&& ~~~lanes, resume := [] }
     lanes ≠ 0 → (cfg.getLsbD 32 = true → ∃ g', exec i s = .next ((s.leaveGates r).putGroup r g') ∧
       g'.pc = cfg.setWidth 32 ∧ g'.em = lanes ∧ g'.parks = g.parks ∧ g'.catchUp = some wait ∧
       g'.trap = some { em := g.em &&& ~~~lanes, p := g.p, pending := lanes, park := park, resume := [], skipped := [] } ∧
       g'.trapPC = g.pc ∧ g'.trapCause.toNat = fld park.record 15 0) ∧
     (cfg.getLsbD 32 = false → ∃ g', exec i s = .next (((s.leaveGates r).putGroup r g').teamReport t 3 0 6 0 0 0
       [park.record]) ∧ g'.halted = true ∧ g'.parks = g.parks)) ∧
  (∀ (s : State) (r : GRef) (t : Team) (g : Group) pc next insn op rf, s.group r = some (t, g) → g.trap = none →
     g.halted = false → 4 ≤ g.parks.length → rf ≠ [] →
     let park : Park := { rpl := true, async := false, pc := pc, next := next, insn := insn, faults := rf,
                          resolved := false, op := op }
     s.takeFaults r t g pc next insn op [] rf =
       (s.teamReport t 6 0 6 park.lead.slot 0 park.lead.addr [park.record]).putGroup r
         { g with pc := pc, whole := some { em := g.em, noted := parkLanes [park], park := park, resolved := false } })

/-- R83, R296, R301: TRET traps outside trap mode; within it, it hands its lanes back to resume at TRAPPC, behind the
instruction, or to end; with the last of them the predicates are the frame's again, trap mode ends, and the lanes run, before
the others of a catch-up run that has not ended. Retried lanes run before skipped ones; the order within each kind, and of one
catch-up run within another, is the model's choice (log 25). -/
def Obligations.TrapReturn : Prop :=
  ∀ h form (s : State) (r : GRef) (t : Team) (g : Group),
    let i : Instr := .tret h form
    Issues s r t g i →
    let lanes := g.takingPart i
    (g.trap = none → TrapsOn s r t g i g.faultLanes fun _ => mkFault 0x19 0 0 0) ∧
    (∀ ts, g.trap = some ts → lanes = 0 → Completes s r t i (g.after i) fun g' =>
      Keeps g g' false false false false false) ∧
    (∀ ts, g.trap = some ts → lanes ≠ 0 → ts.pending &&& ~~~lanes ≠ 0 → g.ended = false →
      (form = .term → g.exited ||| lanes ≠ 0xFFFFFFFF) → Completes s r t i (g.after i) fun g' =>
        g'.em = g.em &&& ~~~lanes ∧ g'.v = g.v ∧ g'.s = g.s ∧ g'.p = g.p ∧ g'.parks = g.parks ∧
        g'.exited = (if form = .term then g.exited ||| lanes else g.exited) ∧
        g'.trap = some (match form with
          | .retry => { ts with pending := ts.pending &&& ~~~lanes, resume := ts.resume ++ [(lanes, g.trapPC)] }
          | .skip => { ts with pending := ts.pending &&& ~~~lanes
                               skipped := ts.skipped ++ [(lanes, g.trapPC + (ts.park.next - ts.park.pc))] }
          | .term => { ts with pending := ts.pending &&& ~~~lanes })) ∧
    (∀ ts, g.trap = some ts → lanes ≠ 0 → ts.pending &&& ~~~lanes = 0 → g.ended = false → g.halted = false →
      g.whole = none → g.stop ≠ .stopped → g.atHead = false →
      let turns := fun (c : CatchUp) => c.resume.foldl (fun m q => m ||| q.run) c.held
      let c : CatchUp := g.catchUp.getD { head := none, point := false, waitEM := 0, held := 0, resume := [] }
      let back := (ts.resume ++ if form = .retry then [(lanes, g.trapPC)] else []) ++
        (ts.skipped ++ if form = .skip then [(lanes, g.trapPC + (ts.park.next - ts.park.pc))] else [])
      let exited := if form = .term then g.exited ||| lanes else g.exited
      let waiting := back.foldl (fun m q => m ||| q.1) 0
      exited ≠ 0xFFFFFFFF → ~~~(exited ||| parkLanes g.parks ||| waiting ||| turns c) = 0 → ∀ m a rest, back = (m, a) :: rest →
      ∃ g', exec i s = .next ((s.leaveGates r).putGroup r g') ∧ g'.trap = none ∧ g'.p = ts.p ∧ g'.em = m ∧ g'.pc = a ∧
        g'.catchUp = some { c with resume := (rest.map fun q => ⟨q.1, q.1, q.2⟩) ++ c.resume } ∧
        g'.v = g.v ∧ g'.s = g.s ∧ g'.x = g.x ∧ g'.parks = g.parks ∧ g'.exited = exited)

/-- R5, R67, R68, R70, R279, R297, R313, R320, R325, R329, R335, R341: writes of a spool's registers: enabling is
checked, a change while enabled is ignored, SPTAIL takes what fits, the completion table is checked, and SUPACK
consumes reports. Another register's write takes the writable bits, clears bits written as 1, or is ignored; TIMECTL
and SKCFG likewise. The host reads and writes registers at their offsets of a function's BAR0; a write-only one reads
zero. That in recovery registers read zero and ignore writes is the model's choice (log 65). -/
def Obligations.RegisterWrites : Prop :=
  (∀ (s : State) part n (v : DWord), part < 32 → n < 16 → s.hub.boot = .running →
     let p := s.partn part
     let sp := p.spool n
     let put := fun (x : Spool) => Host.Outcome.next (s.setPartn part (p.setSpool n x) : State)
     let ring := fun slot log => ∃ t, s.table part slot = some t ∧ ringTable t log = true
     let fits := ring (fld v 19 8) (fld v 24 20) ∧ 4 ≤ fld v 24 20 ∧ fld v 24 20 ≤ 20 ∧ fld v 4 3 ≠ 3 ∧
       fld v 63 25 = 0 ∧ v.getLsbD 6 = false
     let rest := v &&& 0x1FFFF9F
     (sp.cfg.getLsbD 5 = false → v.getLsbD 5 = true → ¬ fits →
       exec (.spoolEnable part n v) s = put { sp with cfg := rest, stat := sp.stat ||| 8 }) ∧
     (sp.cfg.getLsbD 5 = false → v.getLsbD 5 = true → fits → sp.cq.getLsbD 0 = false →
       exec (.spoolEnable part n v) s = put { sp with cfg := v }) ∧
     (sp.cfg.getLsbD 5 = false → v.getLsbD 5 = true → fits → sp.cq.getLsbD 0 = true →
       (∀ t, s.table part (fld sp.cq 19 8) = some t → tCap t < 2 ^ fld v 24 20) →
       exec (.spoolEnable part n v) s = put { sp with cfg := v, cq := (sp.cq &&& ~~~(1 : DWord)) ||| 2 }) ∧
     (sp.cfg.getLsbD 5 = true → rest ≠ sp.cfg &&& 0x1FFFF9F → sp.cfg &&& ~~~(0x1FFFFBF : DWord) = 0 →
       exec (.spoolEnable part n v) s = put { sp with stat := sp.stat ||| 4 }) ∧
     (sp.cfg.getLsbD 5 = true → sp.cfg &&& ~~~(0x1FFFFBF : DWord) = 0 →
       exec (.spoolDisable part n) s = put { sp with cfg := sp.cfg &&& ~~~(0x20 : DWord) }) ∧
     (∀ w : Word,
       (sp.cfg.getLsbD 7 = true → exec (.sptailWrite part n w) s = put { sp with stat := sp.stat ||| 2 }) ∧
       (sp.cfg.getLsbD 7 = false → (w - sp.head).toNat ≤ 2 ^ fld sp.cfg 24 20 →
         exec (.sptailWrite part n w) s = put { sp with tail := w }) ∧
       (sp.cfg.getLsbD 7 = false → 2 ^ fld sp.cfg 24 20 < (w - sp.head).toNat →
         exec (.sptailWrite part n w) s = put { sp with stat := sp.stat ||| 1 })) ∧
     (sp.cq.getLsbD 0 = false → v.getLsbD 0 = true → fld v 63 20 = 0 → fld v 7 1 = 0 →
       (ring (fld v 19 8) (fld sp.cfg 24 20) → exec (.cqcfgEnable part n v) s = put { sp with cq := v }) ∧
       (¬ ring (fld v 19 8) (fld sp.cfg 24 20) →
         exec (.cqcfgEnable part n v) s = put { sp with cq := (v &&& ~~~(1 : DWord)) ||| 2 })) ∧
     (∀ w : Word, trapSUP p = n → w.toNat ≤ (sp.tail - sp.head).toNat →
       exec (.supackWrite part w) s = put { sp with head := sp.head + w, done := sp.done + w }) ∧
     (∀ w : Word, trapSUP p = n → (sp.tail - sp.head).toNat < w.toNat →
       exec (.supackWrite part w) s = put { sp with head := sp.tail, done := sp.done + (sp.tail - sp.head) })) ∧
  (∀ (s : State) part n (v : DWord) (w : Word), 32 ≤ part ∨ 16 ≤ n ∨ s.hub.boot = .recovery →
    exec (.spoolEnable part n v) s = .next s ∧ exec (.spoolDisable part n) s = .next s ∧
    exec (.sptailWrite part n w) s = .next s ∧ exec (.cqcfgEnable part n v) s = .next s) ∧
  (∀ (s : State) part (v : DWord), part < 32 → s.hub.boot = .running →
     let p := s.partn part
     let put := fun (x : Partition) => Host.Outcome.next (s.setPartn part x : State)
     let hub := fun (h : Hub) => Host.Outcome.next ({ s with hub := h } : State)
     let w : Word := v.setWidth 32
     let wr := fun r => exec (.registerWrite r v) s
     wr (.stalestat part) = put { p with stalestat := p.stalestat &&& ~~~(v &&& 3) } ∧
     wr (.trapcfg part) = put { p with trapcfg := (v &&& 0xF1FFFFFFFF) ||| (if v.getLsbD 40 then 0
       else p.trapcfg &&& 0x10000000000) } ∧
     wr (.wdlim part) = put { p with wdlim := w.setWidth 64 } ∧
     wr (.ptroot part) = put { p with ptroot := v &&& 0xF00FFFFFFFFFFF00 } ∧
     wr (.dlcfg part) = put { p with dlcfg := v &&& 0xFFFFFFFFFF001 } ∧
     (p.timectl.getLsbD 0 = true → wr (.timeval part) = .next (s.setPartn part p)) ∧
     (p.timectl.getLsbD 0 = false → wr (.timeval part) = put { p with timeval := v }) ∧
     wr (.walloff part) = put { p with walloff := v } ∧
     wr (.apbase part) = put { p with apbase := v &&& 0xFFFFFFF0000 } ∧
     (∀ i, i < 8 → wr (.peeracl part i) = put { p with peeracl := tset 0 p.peeracl i (w &&& 0xFFFC001F) }) ∧
     (∀ i, i < 4096 → wr (.gateSlot part i) =
       put { p with gateSlots := tset 0 p.gateSlots i (v &&& 0x800003FF0000FFFF) }) ∧
     (∀ n, n < 65536 →
       let g := s.gate n
       let gate := fun (x : Gate) => Host.Outcome.next (s.noteStalls.setGate n x : State)
       (g.st = 2 → wr (.gateRecord n 0) = gate { g with value := v }) ∧
       (g.st ≠ 2 → wr (.gateRecord n 0) = gate g) ∧
       wr (.gateRecord n 1) = gate { g with burst := v.extractLsb' 48 16, rate := v.extractLsb' 32 16,
                                            mode := v.getLsbD 3, limen := v.getLsbD 2 } ∧
       (∀ k, k < 4 → ∃ acl, wr (.gateRecord n (2 + k)) = gate { g with acl := acl } ∧
         tget 0 acl (2 * k) = v.setWidth 32 &&& 0xFFFC001F ∧ tget 0 acl (2 * k + 1) = v.extractLsb' 32 32 &&& 0xFFFC001F ∧
         ∀ i, i ≠ 2 * k → i ≠ 2 * k + 1 → tget 0 acl i = tget 0 g.acl i)) ∧
     (∀ n k, 65536 ≤ n → wr (.gateRecord n k) = .next s) ∧
     wr .perr = hub { s.hub with perr := s.hub.perr &&& ~~~(w &&& 0x3F) } ∧
     wr .pwrcap = hub { s.hub with pwrcap := v &&& 0xFFF } ∧
     wr .elbase = hub { s.hub with elbase := v &&& 0xFFFFFFFFFF00F } ∧ wr .elhead = hub { s.hub with elhead := w } ∧
     wr .tqbase = hub { s.hub with tqbase := v &&& 0xFFFFFFFFFF00F } ∧ wr .tqtail = hub { s.hub with tqtail := w } ∧
     wr .tqstat = hub { s.hub with tqstat := s.hub.tqstat &&& ~~~(w &&& 0xFFFF0001) } ∧
     (∀ t, t < 4 → wr (.tierwm t) = hub { s.hub with tierwm := tset 0 s.hub.tierwm t v }) ∧
     (∀ o, wr (.readOnly o) = .next s) ∧
     exec (.timectlWrite part v) s = put { p with timectl := v &&& 1 } ∧
     (fld v 9 0 < 640 ∨ 1022 < fld v 9 0 → ∃ c, exec (.skcfgWrite v) s = hub { s.hub with skcfg := c } ∧
       fld c 9 0 = fld v 9 0 ∧ fld c 63 10 = fld s.hub.skcfg 63 10) ∧
     (640 ≤ fld v 9 0 → fld v 9 0 ≤ 1022 → exec (.skcfgWrite v) s = .next s) ∧
     exec (.thrdebtWrite part v) s = put { p with thrdebt := 0, debtNum := 0 }) ∧
  (∀ (s : State) part k (v : DWord), part < 32 → k < 16 → s.hub.boot = .running →
     let p := s.partn part
     let sp := p.spool k
     let at_ := 0x2000 + 32 * k
     let reads := fun fn off n (a : DWord) => s.hostRead fn off n = { s with answer := [a] }
     reads (part + 1) 0x1800 8 p.stalestat ∧ reads (part + 1) 0x1808 8 p.staleref ∧ reads (part + 1) 0x1810 8 p.trapcfg ∧
     reads (part + 1) 0x1818 4 0 ∧ reads (part + 1) at_ 8 sp.cfg ∧ reads (part + 1) (at_ + 8) 4 (sp.head.setWidth 64) ∧
     reads (part + 1) (at_ + 12) 4 (sp.tail.setWidth 64) ∧ reads (part + 1) (at_ + 16) 4 (sp.done.setWidth 64) ∧
     reads (part + 1) (at_ + 20) 4 (sp.stat.setWidth 64) ∧ reads (part + 1) (0x2200 + 16 * k) 8 sp.cq ∧
     reads 0 0x10 4 (s.hub.perr.setWidth 64) ∧ reads 0 0x100 8 (if s.hub.power = .p0 then 0 else 2) ∧
     reads 0 (0x100000 + 256 * part) 8 p.pcfg ∧ reads 0 (0x100000 + 256 * part + 0x28) 8 p.timeval ∧
     reads 0 0x201000 8 s.hub.skcfg ∧
     hostWrite (part + 1) 0x1818 v s = exec (.supackWrite part (v.setWidth 32)) s ∧
     hostWrite (part + 1) (at_ + 12) v s = exec (.sptailWrite part k (v.setWidth 32)) s ∧
     hostWrite (part + 1) at_ v s = exec (.registerWrite (.spcfg part k) v) s ∧
     hostWrite 0 (0x100000 + 256 * part) v s = exec (.registerWrite (.pcfg part) v) s ∧
     hostWrite 0 0x201000 v s = exec (.skcfgWrite v) s ∧
     hostWrite 0 0x100 0x5A01 s = exec .warmReset s ∧ hostWrite 0 0x100 0x5A02 s = exec .standbyEntry s) ∧
  (∀ (s : State) fn off v, s.hub.boot = .recovery → hostWrite fn off v s = .next s ∧
     (barHas fn off 8 = true → s.hostRead fn off 8 = { s with answer := [0] }))

/-- R71, R72, R77, R78, R84: the spooler takes the record at a spool's head once the one before it has completed, or, of
a launch that has triggered, the next launch that allows it: the ring slot is marked, SPHEAD counts it, and it starts, or
fails with the lowest code that applies and a report. That the record is read at one moment (log 58), that it waits for its
page (log 23), and that an early launch looks at the record before it alone (log 35), are the model's choices. -/
def Obligations.TakingRecords : Prop :=
  (∀ (s : State) part n t, (s.partn part).takes n = true → s.table part (spSlot ((s.partn part).spool n)) = some t →
    let p := s.partn part
    let sp := p.spool n
    let pos := sp.head.toNat
    let off := pos % 2 ^ spLOG sp * 32
    let tie : ErrTie := { part := part, spool := n, pos := pos, slot := spSlot sp }
    let s0 := s.touchImage none part (spSlot sp) t off 32
    let entry := BitVec.ofNat 256 (leNat (s0.imageRead none part (spSlot sp) t off 32))
    let s1 := s0.rowWrite none part (spSlot sp) t off [2]
    let counted := fun (g : Grid) =>
      let p1 := s1.partn part
      let p2 := p1.setSpool n { p1.spool n with head := sp.head + 1 }
      (s1.setPartn part { p2 with grids := p2.grids ++ [g] } : State)
    let failed := fun (c : Nat) => { newGrid n pos entry with code := BitVec.ofNat 8 c, retired := true }
    let read := s.hubWait2 tie (spSlot sp) t off 32 = none
    (∀ s2, p.before n = none → s.hubWait2 tie (spSlot sp) t off 32 = some s2 →
      exec (.takeRecord part n) s = .next s2) ∧
    (p.before n = none → read → s0.recordCode part (spClass sp) entry = none →
      exec (.takeRecord part n) s = .next (counted (newGrid n pos entry))) ∧
    (∀ c, p.before n = none → read → s0.recordCode part (spClass sp) entry = some c → ∃ h,
      exec (.takeRecord part n) s = .next ((counted (failed c)).report part [h]) ∧
      fld h 1 0 = 3 ∧ fld h 7 2 = 2 ∧ fld h 15 8 = 0 ∧ fld h 23 16 = c % 256 ∧ fld h 31 24 = 0 ∧
      fld h 63 32 = pos ∧ fld h 67 64 = n % 16) ∧
    (∀ g, p.before n = some g → exec (.takeRecord part n) s = .next s) ∧
    (∀ g, p.before n = some g → s.triggered part g = true → read → fld entry 1 0 = 0 → entry.getLsbD 108 = true →
      s0.recordCode part (spClass sp) entry = none →
      exec (.earlyDependentLaunch part n) s = .next (counted (newGrid n pos entry))) ∧
    (∀ g, p.before n = some g → s.triggered part g = true → read → fld entry 1 0 ≠ 0 ∨ entry.getLsbD 108 = false →
      exec (.earlyDependentLaunch part n) s = .next s0) ∧
    (∀ g, p.before n = some g → s.triggered part g = false → exec (.earlyDependentLaunch part n) s = .next s)) ∧
  (∀ (s : State) part n, (s.partn part).takes n = false →
    exec (.takeRecord part n) s = .next s ∧ exec (.earlyDependentLaunch part n) s = .next s) ∧
  (∀ (s : State) part cls (r : BitVec 256), (fld r 1 0 = 2 ∨ fld r 1 0 = 3 ∨ (fld r 1 0 = 1 ∧ (fld r 7 2 = 0 ∨
    5 ≤ fld r 7 2))) → s.recordCode part cls r = some 0x20)

/-- R76, R194, R195, R200, R201, R207, R315: the commands of a spool: a wait completes when its target satisfies the
condition, a signal writes or adds once every earlier record has completed, a copy and a collective run item by item. That a
signal of OPER 2 adds (log 60), that an operand block in a table that is not dense fails with 0x1A (log 34), and when a
command waits (log 23), are the model's choices. -/
def Obligations.SpoolCommands : Prop :=
  (∀ (s : State) part n g slot t off, (s.partn part).command n 1 = some g → s.target part g.record = some (slot, t, off) →
    let tie : ErrTie := { part := part, spool := g.spool, pos := g.pos, slot := slot }
    (∀ s1, s.hubWait tie slot t off 8 false = some s1 → exec (.waitOnValue part n) s = .next s1) ∧
    (∀ key, s.hubWait tie slot t off 8 false = none → s.imageKey none part slot t off = some key →
      let s0 := s.touchImage none part slot t off 8
      let v := s0.rdNat key 8
      let x := fld g.record 255 192
      let oper := fld g.record 97 96
      let met := (oper = 0 ∧ x ≤ v) ∨ (oper = 1 ∧ v = x) ∨ (2 ≤ oper ∧ v ≠ x)
      (met → exec (.waitOnValue part n) s =
        .next (s0.putGrid part { g with value := BitVec.ofNat 64 v, retired := true })) ∧
      (¬ met → exec (.waitOnValue part n) s = .next s0))) ∧
  (∀ (s : State) part n g slot t off, (s.partn part).command n 2 = some g → s.target part g.record = some (slot, t, off) →
    let tie : ErrTie := { part := part, spool := g.spool, pos := g.pos, slot := slot }
    let alone := ∀ e, e ∈ (s.partn part).grids → e.spool = n → e.pos = g.pos
    (¬ alone → exec (.signalValue part n) s = .next s) ∧
    (∀ s1, alone → s.hubWait2 tie slot t off 8 = some s1 → exec (.signalValue part n) s = .next s1) ∧
    (∀ key, alone → s.hubWait2 tie slot t off 8 = none → s.imageKey none part slot t off = some key →
      s.holder (key / 128) = none →
      let s0 := s.touchImage none part slot t off 8
      let v := s0.rdNat key 8
      let x := fld g.record 255 192
      exec (.signalValue part n) s = .next ((s0.rowWrite none part slot t off
        (natBytes (if fld g.record 97 96 = 0 then x else v + x) 8)).putGrid part
          { g with value := BitVec.ofNat 64 v, retired := true }))) ∧
  (∀ (s : State) part n g item fail, (s.partn part).command n 3 = some g → g.op = none →
    let slot := fld g.record 127 116
    let step := exec (.copyCommand part n item fail) s
    let block := s.coBlock part (BitVec.ofNat 64 slot) (BitVec.ofNat 64 (fld g.record 191 128))
    let op0 := mkEng .copy none [0, 0, BitVec.ofNat 64 slot]
    let used := s.useCopy part g
    (used = match block with
      | .ok blk => ((s.useBlock part (BitVec.ofNat 64 slot) (BitVec.ofNat 64 (fld g.record 191 128))).useLayout none part
          (BitVec.ofNat 64 (fld blk 127 116)) (fld blk 191 128)).useLayout none part
          (BitVec.ofNat 64 (fld blk 319 308)) (fld blk 383 320)
      | _ => s) ∧
    (s.denseRow part slot 64 (fld g.record 191 128) = false → step = .next (used.cmdKeep part g (op0.rejected 0x1A []))) ∧
    (s.denseRow part slot 64 (fld g.record 191 128) = true →
      (∀ va at_, block = .miss va at_ → step = .next (s.cmdStall part g op0 va at_)) ∧
      (block = .busy → step = .next s) ∧
      (∀ blk sl dl, block = .ok blk → fld blk 511 448 = 0 → fld blk 307 256 = 0 → fld blk 115 0 = 0 →
        s.layoutAt none part (BitVec.ofNat 64 (fld blk 127 116)) (fld blk 191 128) = .ok sl →
        s.layoutAt none part (BitVec.ofNat 64 (fld blk 319 308)) (fld blk 383 320) = .ok dl →
        s.layoutCodes part sl = [] → s.layoutCodes part dl = [] →
        let op := mkEng .copy none
          [0, 0, BitVec.ofNat 64 slot, BitVec.ofNat 64 (fld blk 255 192), BitVec.ofNat 64 (fld blk 447 384)]
        let agree := lyFmt sl = lyFmt dl ∧ lyRows sl = lyRows dl ∧ lyCols sl = lyCols dl
        (agree → step = .next (used.putGrid part { g with op := some (op.laidOut (lyRows sl + 1) [sl, dl]) })) ∧
        (¬ agree → step = .next (used.cmdKeep part g (op.rejected 0x13 [sl, dl])))))) ∧
  (∀ (s : State) part n g op i fail sl dl st dt, (s.partn part).command n 3 = some g → g.op = some op →
    op.begun = true → op.recd = [sl, dl] → op.stall = none → hasItem i op.items = true →
    s.held part (lySlot sl) = some st → s.held part (lySlot dl) = some dt →
    let step := exec (.copyCommand part n i fail) s
    let sk := keyOfNat (tKType st) (op.a 3).toNat + i * lyKStride sl
    let dk := keyOfNat (tKType dt) (op.a 4).toNat + i * lyKStride dl
    let zeros := List.replicate (lyPitch sl + lyScales sl) 0
    let bad := fun c => op.did i (some { item := i, code := c, addr := keyAddr (tKType st) sk, slot := lySlot sl })
    (∀ srow drow, lyRow st sl sk = some srow → lyRow dt dl dk = some drow →
      let s0 := (s.touchRow none part (lySlot sl) st srow).touchRow none part (lySlot dl) dt drow
      let read := s0.readRuns none part (lySlot sl) st srow (lyRuns sl)
      (∀ bs s1, read = .ok bs → s0.writeRuns none false part (lySlot dl) dt drow (lyRuns dl) bs = .ok s1 →
        step = .next (s1.cmdKeep part g (op.did i none))) ∧
      (∀ c s1, read = .code c → s0.writeRuns none false part (lySlot dl) dt drow (lyRuns dl) zeros = .ok s1 →
        step = .next (s1.cmdKeep part g (bad c))) ∧
      (∀ c va at_, read = .code c → fail = false →
        s0.writeRuns none false part (lySlot dl) dt drow (lyRuns dl) zeros = .miss va at_ →
        step = .next (s0.cmdStall part g op va at_)) ∧
      (∀ va at_, read = .miss va at_ → at_ = lySlot sl ∧ (fail = false → step = .next (s0.cmdStall part g op va at_))) ∧
      (read = .busy → step = .next s0)) ∧
    (∀ drow, lyRow st sl sk = none → lyRow dt dl dk = some drow →
      let s0 := s.touchRow none part (lySlot dl) dt drow
      ∀ s1, s0.writeRuns none false part (lySlot dl) dt drow (lyRuns dl) zeros = .ok s1 →
        step = .next (s1.cmdKeep part g (op.did i none))) ∧
    (∀ srow, lyRow st sl sk = some srow → lyRow dt dl dk = none →
      let s0 := s.touchRow none part (lySlot sl) st srow
      ∀ bs, s0.readRuns none part (lySlot sl) st srow (lyRuns sl) = .ok bs →
        step = .next (s0.cmdKeep part g (op.did i none)))) ∧
  (∀ (s : State) part n g item far heads, (s.partn part).command n 4 = some g → g.op = none →
    let slot := BitVec.ofNat 64 (fld g.record 127 116)
    let key := BitVec.ofNat 64 (fld g.record 191 128)
    let op := mkEng .coll none [0, slot, key]
    let step := exec (.collectiveCommand part n item far heads) s
    (∀ c, s.coBlock part slot key = .code c → step = .next (s.cmdKeep part g (op.rejected c []))) ∧
    (∀ va at_, s.coBlock part slot key = .miss va at_ → step = .next (s.cmdStall part g op va at_)) ∧
    (∀ blk, s.coBlock part slot key = .ok blk →
      let s0 := (s.useBlock part slot key).useComm part (coComm blk)
      ∀ at_, s0.coRank part (coComm blk) = .ok at_ →
      let s1 := s0.joinColl at_.comm part blk
      let op1 := { op with recd := [blk], coll := some at_ }
      (∀ e, least (s0.coCodes part blk (some at_)) = some e → step = .next (s1.cmdKeep part g (op1.rejected e [blk]))) ∧
      (s0.coCodes part blk (some at_) = [] → step = .next (s1.putGrid part { g with op := some op1 })))) ∧
  (∀ (s : State) part n g op item far heads at_, (s.partn part).command n 4 = some g → g.op = some op → op.coll = some at_ →
    op.begun = false → op.stall = none → s.aborted.contains (part, coComm op.rec0) = false →
    s.coCodes part op.rec0 (some at_) = [] →
    let blk := op.rec0
    let others := (List.range at_.ranks.length).filter fun q => at_.lo + q != at_.rank
    let step := exec (.collectiveCommand part n item far heads) s
    ((∃ q, q ∈ others ∧ s.coPeer blk at_ heads q = none) → step = .next s) ∧
    ((∀ q, q ∈ others → s.coPeer blk at_ heads q = some true) → coItems blk at_.ranks.length ≠ 0 →
      step = .next (s.putGrid part { g with op := some (op.laidOut (coItems blk at_.ranks.length) [blk]) }))) ∧
  (∀ (s : State) part n g op i far heads at_, (s.partn part).command n 4 = some g → g.op = some op → op.coll = some at_ →
    op.begun = true → hasItem i op.items = true → op.stall = none →
    (∀ p, some p ∈ at_.ranks → p = part) ∨ itemsLeft op.items ≠ 1 → ∀ v s1,
    (s.useSources part op.rec0 at_ i).coValue part op.rec0 at_ i far = .ok v →
    (s.useSources part op.rec0 at_ i).coWrite none false part op.rec0 (coAt op.rec0 at_ i) (.ok v) = .ok s1 →
    exec (.collectiveCommand part n i far heads) s = .next (s1.cmdKeep part g (op.did i none))) ∧
  (∀ (s : State) part g op, op.begun = true → op.items = [] → op.bad = [] → op.rej = none →
    s.cmdKeep part g op = (let s1 := s.putGrid part { g with op := none, retired := true, nfail := 0, ndone := op.total, code := 0 }
      s1.setPartn part (s1.partn part)))

/-- R79, R80, R83, R85 to R87, R92: a gang is placed on the cores that a cluster can give and its teams start in the
state of R79, once no launch that goes first can place its own; a team ends once nothing of it is left, and its join
counter falls; a team that leaves its stream abandoned carries code 2; a released continuation is pushed. Which cores a gang
gets rests on log 56, that every outbound write of the core moves home at the end on log 35, and that the end waits for the join
row's page on log 23; that an unbound join slot has nothing to count and that a continuation's spool is not asked again are the
model's choices (log 69). -/
def Obligations.TeamsStartAndEnd : Prop :=
  (∀ (s : State) part n pos cl g, (s.partn part).grid n pos = some g → pEN (s.partn part) = true →
    (s.partn part).inSlice = true → s.hub.power = .p0 → g.open = true → cl ∈ (s.partn part).clusterList →
    let step := exec (.placeGang part n pos cl) s
    let turn := fun (s1 : State) => s1.setPartn part { s1.partn part with
      turns := tset 15 (s1.partn part).turns (fld ((s1.partn part).spool n).cfg 2 0) n }
    (∀ cs, shCORES (recShape g.record) = false → s.nextGangAt part g cl = some cs →
      s.outranked part g (cs.getD 0 0 / 8) = false → step = .next (turn (s.startGang part g cs))) ∧
    (∀ cs, shCORES (recShape g.record) = false → s.nextGangAt part g cl = some cs →
      s.outranked part g (cs.getD 0 0 / 8) = true → step = .next s) ∧
    (shCORES (recShape g.record) = false → s.nextGangAt part g cl = none → step = .next s) ∧
    (shCORES (recShape g.record) = true → s.layout part g = none → step = .next s) ∧
    (∀ ls, shCORES (recShape g.record) = true → s.layout part g = some ls →
      (∀ cs, cs ∈ ls → s.outranked part g (cs.getD 0 0 / 8) = false) → step = .next (s.placeGangs part g ls))) ∧
  (∀ (s : State) part g core base, (loadOf (s.coreTeams part core)).room (recShape g.record) = some base →
    let s' := s.startGang part g [core]
    let r := g.record
    ∃ t, s'.team s.nextTeam = some t ∧ s'.nextTeam = s.nextTeam + 1 ∧ s'.nextGang = s.nextGang + 1 ∧
      (∀ k, k ≠ s.nextTeam → s'.team k = s.team k) ∧ (s'.core core).ft = [] ∧ (s'.core core).spVict = [] ∧
      t.part = part ∧ t.core = core ∧ t.base = base ∧ t.record = r ∧ t.teamId = g.placed ∧ t.gangSz = 1 ∧ t.gangIdx = 0 ∧
      t.groups.length = shG (recShape r) + 1 ∧ t.token = none ∧ t.engs = [] ∧
      (∀ a, tget 0 t.scratch a = 0) ∧ (∀ b, t.bar b = { e := 0, a := 0, ph := false }) ∧
      (t.arr = if shMX (recShape r) then some Arr.start else none) ∧
      ∀ gr, gr ∈ t.groups → gr.pc.toNat = fld r 31 0 ∧ gr.em = 0xFFFFFFFF ∧ gr.exited = 0 ∧ gr.triggered = 0 ∧
        (∀ k l, gr.rdV k l = 0) ∧ (∀ k, gr.rdS k = if k = 0 then BitVec.ofNat 64 (fld r 191 180)
          else if k = 1 then BitVec.ofNat 64 (fld r 255 192) else 0) ∧
        (∀ k, k ≠ 7 → gr.rdP k = 0) ∧ (∀ k l, gr.rdX k l = 0) ∧ (∀ k l, (gr.rdC k l).state = 0) ∧
        gr.nf = 0 ∧ gr.sf = 0 ∧ gr.trap = none ∧ gr.parks = [] ∧ gr.pend = [] ∧ gr.slot = none) ∧
  (∀ (s : State) n t, s.team n = some t →
    (∀ g, g ∈ t.groups → g.ended = true ∧ g.parks = [] ∧ g.pend = []) → t.engs = [] →
    s.joinWait t = none → t.why = .none → ∀ g, (s.partn t.part).grid t.spool t.pos = some g → g.isWork = true →
    g.retired = false → g.aborted = false →
    (∀ k t', k ≠ n → (k, some t') ∈ s.teams → t'.part ≠ t.part ∨ t'.spool ≠ t.spool ∨ t'.pos ≠ t.pos) →
    let counted : Grid := { g with
      ended := g.ended + 1, nfail := g.nfail + t.nfail, retired := decide (g.ended = recTeams g.record) }
    let left := (s.flushWide t.core).setTeam n none
    let joined := if t.record.getLsbD 155 then left.joinDec t.part t else left
    let abandoned := t.abandon = true ∨ ∃ a, t.arr = some a ∧ (a.st = 2 ∨ (a.st = 4 ∧ a.stops ≠ []))
    (∀ a, t.arr = some a → a.st = 0 ∨ a.st = 2 ∨ a.st = 3 ∨ a.st = 4) →
    (¬ abandoned → exec (.teamEnd n) s = .next (joined.putGrid t.part { counted with ndone := g.ndone + 1 })) ∧
    (abandoned → exec (.teamEnd n) s = .next (joined.putGrid t.part { counted with
      nbad := g.nbad + 1, code := if g.code.toNat < 2 then 2 else g.code }))) ∧
  (∀ (s : State) n t s1, s.team n = some t → (∀ g, g ∈ t.groups → g.ended = true ∧ g.parks = [] ∧ g.pend = []) →
    t.engs = [] → t.arr = none → s.joinWait t = some s1 → exec (.teamEnd n) s = .next s1) ∧
  (∀ (s : State) part (t : Team) tb key,
    let slot := fld t.record 167 156
    let row := (keyOfNat (tKType tb) (fld t.record 63 32) - tLo tb).toNat
    let off := row * tWidth tb
    s.table part slot = some tb → s.imageKey none part slot tb off = some key →
    let s0 := (s.touchImage none part slot tb off 64).recallRange key 64
    let v : DWord := BitVec.ofNat 64 (s0.rdNat key 8) - 1
    let s1 := s0.rowWrite none part slot tb off (natBytes v.toNat 8)
    let p1 := s1.partn part
    let spool := leNat (s1.imageRead none part slot tb (off + 8) 4)
    let cont := BitVec.ofNat 256 (leNat (s1.imageRead none part slot tb (off + 32) 32))
    let takes := spool < 16 ∧ (p1.spool spool).cfg.getLsbD 5 = true ∧ (p1.spool spool).cfg.getLsbD 7 = true
    let fault := fun c => ∃ h, s.joinDec part t = s1.report part [h] ∧ fld h 7 2 = 8 ∧ fld h 23 16 = c ∧
      fld h 79 68 = slot % 4096
    (v.toInt < 0 → fault 1) ∧ (0 < v.toInt → s.joinDec part t = s1) ∧
    (v = 0 → 16 ≤ spool → fault 2) ∧ (v = 0 → spool < 16 → ¬ takes → fault 3) ∧
    (v = 0 → takes → s.joinDec part t = s1.setPartn part { p1 with conts := p1.conts ++ [(spool, cont)] })) ∧
  (∀ (s : State) part (t : Team), s.table part (fld t.record 167 156) = none → s.joinDec part t = s) ∧
  (∀ (s : State) n t, s.team n = some t →
    (∃ g, g ∈ t.groups ∧ (g.ended = false ∨ g.parks ≠ [] ∨ g.pend ≠ [])) ∨ t.engs ≠ [] ∨ (∃ a, t.arr = some a ∧ a.st = 1) →
    exec (.teamEnd n) s = .next s) ∧
  (∀ (s : State) part i sp rec, (s.partn part).conts[i]? = some (sp, rec) →
    (∀ j c, j < i → (s.partn part).conts[j]? = some c → c.1 ≠ sp) →
    let push := s.push { part := part, spool := 0, pos := 0xFFFFFFFF, slot := 0 } sp [rec]
    (push = .full → exec (.continuationPush part i) s = .next s) ∧
    (∀ s1, push = .wait s1 → exec (.continuationPush part i) s = .next s1) ∧
    (∀ s1, push = .done s1 → exec (.continuationPush part i) s =
      .next (s1.setPartn part { s1.partn part with conts := (s.partn part).conts.eraseIdx i })))

/-- R69, R297, R325, R326, R328, R329, R342: a retired position's completion record is written once its reports have
gone, and SPDONE counts the positions in ring order; a report is stamped with TIMEVAL and pushed, waits for room, or
goes to the error log. That a record of the error log beyond HBM is counted and kept nowhere is the model's choice
(log 49). -/
def Obligations.CompletionsAndReports : Prop :=
  (∀ (s : State) part n pos g, (s.partn part).grid n pos = some g →
    (∃ r, r ∈ (s.partn part).reports ∧ r.names n pos = true) ∨ g.retired = false →
    exec (.completionRecord part n pos) s = .next s) ∧
  (∀ (s : State) part n pos g t, (s.partn part).grid n pos = some g → g.retired = true →
    (∀ r, r ∈ (s.partn part).reports → r.names n pos = false) →
    let sp := (s.partn part).spool n
    let slot := fld sp.cq 19 8
    let off := pos % 2 ^ spLOG sp * 32
    let entry := g.completion (s.partn part).timeval
    let finish := fun (s1 : State) =>
      let p1 := s1.partn part
      let sp1 := { p1.spool n with fin := (p1.spool n).fin ++ [pos] }
      (s1.setPartn part { p1.setSpool n (sp1.count sp1.fin.length) with
        grids := p1.grids.filter fun x => !decide (x.spool = n ∧ x.pos = pos) } : State)
    let tie : ErrTie := { part := part, spool := g.spool, pos := g.pos, slot := slot }
    (sp.cq.getLsbD 0 = false → exec (.completionRecord part n pos) s = .next (finish s)) ∧
    (∀ s1, sp.cq.getLsbD 0 = true → s.table part slot = some t → s.hubWait tie slot t off 32 true = some s1 →
      exec (.completionRecord part n pos) s = .next s1) ∧
    (sp.cq.getLsbD 0 = true → s.table part slot = some t → s.hubWait tie slot t off 32 true = none →
      exec (.completionRecord part n pos) s =
        .next (finish ((s.touchImage none part slot t off 32).rowWrite none part slot t off (natBytes entry.toNat 32)))) ∧
    (fld entry 1 0 = 2 ∧ fld entry 63 32 = pos % 2 ^ 32 ∧ fld entry 31 24 = min g.nbad 255 ∧ fld entry 95 64 = g.ndone % 2 ^ 32 ∧
      fld entry 127 96 = min g.nfail (2 ^ 32 - 1) ∧ fld entry 191 128 = (s.partn part).timeval.toNat ∧
      fld entry 255 192 = g.value.toNat ∧
      fld entry 7 2 = (if fld g.record 1 0 = 1 then fld g.record 7 2 else 0) ∧
      fld entry 23 16 = if g.nfail = 0 ∨ fld g.record 1 0 ≠ 0 then g.code.toNat else max g.code.toNat 1)) ∧
  (∀ (sp : Spool), (∀ k, k ∈ sp.fin → k ≠ sp.done.toNat) → sp.count sp.fin.length = sp) ∧
  (∀ (sp : Spool) k, sp.fin = [sp.done.toNat] → 1 ≤ k → sp.count k = { sp with done := sp.done + 1, fin := [] }) ∧
  (∀ (s : State) part h recs rest, (s.partn part).reports = { recs := h :: recs } :: rest →
    let p := s.partn part
    let stamped : BitVec 256 := p.timeval ++ h.setWidth 192
    let sup := fld p.trapcfg 39 36
    let fed := (p.spool sup).cfg.getLsbD 5 = true ∧ (p.spool sup).cfg.getLsbD 7 = true
    let push := s.push { part := part, spool := 0, pos := 0xFFFFFFFF, slot := 0 } sup (stamped :: recs)
    (fed → push = .full → exec (.pushReport part) s = .next s) ∧
    (∀ s1, fed → push = .wait s1 → exec (.pushReport part) s = .next s1) ∧
    (∀ s1, fed → push = .done s1 →
      exec (.pushReport part) s = .next (s1.setPartn part { s1.partn part with reports := rest })) ∧
    (¬ fed → exec (.pushReport part) s = .next ((s.setPartn part { p with
      reports := rest, trapcfg := p.trapcfg ||| 0x10000000000 }).logError stamped))) ∧
  (∀ (s : State) (h : BitVec 256),
    let n := 2 ^ fld s.hub.elbase 3 0
    let at_ := fld s.hub.elbase 51 12 * 4096 + s.hub.eltail.toNat % n * 32
    s.holder (lineOf at_) = none →
    ((s.hub.eltail - s.hub.elhead).toNat = n →
      s.logError h = { s with hub := { s.hub with perr := s.hub.perr ||| 8 } }) ∧
    ((s.hub.eltail - s.hub.elhead).toNat ≠ n →
      s.logError h = { (if at_ < 2 ^ 39 then s.wr at_ (natBytes h.toNat 32) else s) with
        hub := { s.hub with eltail := s.hub.eltail + 1 } }))

/-- R39 to R41, R279, R280: binding and unbinding a table answer with the lowest code that applies; a partition is
enabled only as R279 allows; disabling aborts its grids, closes its spools and, with no team left, frees its clusters. That an
indexed table is bound with no keys and ROWCOUNT 0, and a dense one with CAPACITY (log 37), that a partition is not enabled in
P2 (log 62), and that a further request for a slot whose unbind is unanswered is one with it (log 79), are the model's choices. -/
def Obligations.TablesAndPartitions : Prop :=
  (∀ (s : State) part slot (rec : BitVec 1024), part < 32 → slot < 4096 → s.hub.boot = .running →
    let t : Table := { record := rec, gens := [], keys := [], bad := false }
    let ordered := fld rec 3 0 = 1 ∨ fld rec 3 0 = 2 ∨ fld rec 3 0 = 3
    let answers := fun (c : DWord) => exec (.tableBind part slot rec) s = .next { s with answer := [c] }
    (∀ c, least (s.bindCodes part slot rec) = some c → answers (BitVec.ofNat 64 c)) ∧
    (s.bindCodes part slot rec = [] → ∃ t', exec (.tableBind part slot rec) s = .next { s.setTable part slot (some t') with
        answer := [0], aborted := s.aborted.filter fun a => a != (part, slot) } ∧
      t'.keys = [] ∧ t'.gens = [] ∧ tKind t' = tKind t ∧ tKType t' = tKType t ∧ tWidth t' = tWidth t ∧ tCap t' = tCap t ∧
      tHeap t' = tHeap t ∧ tSeed t' = tSeed t ∧ tLo t' = tLo t ∧
      tRowCount t' = if tKind t = 0 then tCap t else 0) ∧
    (3 < fld rec 3 0 → answers 1) ∧
    (fld rec 3 0 ≤ 3 → 4 < fld rec 7 4 ∨ (fld rec 7 4 = 4 ∧ fld rec 3 0 = 0) → answers 2) ∧
    (fld rec 3 0 ≤ 3 → fld rec 7 4 ≤ 3 → fld rec 111 64 = 0 → answers 3) ∧
    (ordered → fld rec 7 4 ≤ 4 → 0 < fld rec 111 64 → fld rec 111 64 ≤ 2 ^ 36 → fld rec 51 44 = 0 → answers 4) ∧
    (ordered → fld rec 7 4 ≤ 4 → 0 < fld rec 111 64 → fld rec 111 64 ≤ 2 ^ 36 →
      (fld rec 51 44).testBit (fld rec 54 52) = true → fld rec 383 320 = 0 → answers 5)) ∧
  (∀ (s : State) part slot, part < 32 → slot < 4096 → s.hub.boot = .running →
    let p := s.partn part
    let busy := s.slotBusy part slot = true
    let unbind := exec (.tableUnbind part slot) s
    let closing := p.closing.contains slot = true
    let gone := Host.Outcome.next ({ s.setPartn part { p.setTable slot none with
      closing := p.closing.filter fun n => n != slot } with answer := [0] } : State)
    (closing → s.table part slot = none) ∧
    (closing → busy → unbind = .next s) ∧ (closing → ¬ busy → unbind = gone) ∧
    (¬ closing → s.table part slot = none → unbind = .next { s with answer := [0x0B] }) ∧
    (∀ t, s.table part slot = some t → p.slotNamed slot = true → unbind = .next { s with answer := [0x0C] }) ∧
    (∀ t, s.table part slot = some t → p.slotNamed slot = false → busy →
      unbind = .next (s.setPartn part { p with closing := p.closing ++ [slot] })) ∧
    (∀ t, s.table part slot = some t → p.slotNamed slot = false → ¬ busy → unbind = gone)) ∧
  (∀ (s : State) part (v : DWord), part < 32 → s.hub.boot = .running →
    let p := s.partn part
    let on := v ||| 1
    let w := on &&& 0xFFFFFFFF0003FFFF
    let off := w &&& ~~~(1 : DWord)
    let n := 2 ^ fld v 12 10
    let refused := fun bit (s0 : State) => ({ s0 with hub := { s0.hub with perr := s0.hub.perr ||| bit } } : State)
    let sole := ∀ q, q < 32 → q ≠ part → pEN (s.partn q) = true →
      fld v 17 13 + n ≤ pFirst (s.partn q) ∨ pFirst (s.partn q) + pClusters (s.partn q) ≤ fld v 17 13
    let step := exec (.partitionEnable part v) s
    (pEN p = false → s.hub.power = .p0 → fld v 17 13 % n ≠ 0 ∨ fld v 63 48 = 0 ∨ fld v 31 18 ≠ 0 ∨
      (v.getLsbD 1 = true ∧ (fld v 12 10 ≠ 5 ∨ fld v 9 2 ≠ 0)) →
      step = .next (refused 1 (s.setPartn part { p with pcfg := off }))) ∧
    (pEN p = false → s.hub.power = .p2 → step = .next (s.setPartn part { p with pcfg := off })) ∧
    (pEN p = false → s.hub.power = .p0 → fld v 17 13 % n = 0 → fld v 63 48 ≠ 0 → fld v 31 18 = 0 → v.getLsbD 1 = false → fld v 9 2 = 0 →
      sole → step = .next (s.setPartn part { p with pcfg := w, inSlice := true })) ∧
    (pEN p = true → (on ^^^ p.pcfg) &&& 0xFFFF00000003FC03 ≠ 0 → step = .next (refused 2 s)) ∧
    (pEN p = true → (on ^^^ p.pcfg) &&& 0xFFFF00000003FC03 = 0 →
      step = .next (s.setPartn part { p with pcfg := w }))) ∧
  (∀ (s : State) part, part < 32 → s.hub.boot = .running →
    let p := s.partn part
    (pEN p = false → exec (.partitionDisable part) s = .next s) ∧
    (pEN p = true → p.grids = [] → (∀ n t, (n, some t) ∈ s.teams → t.part ≠ part) → ∃ s',
      exec (.partitionDisable part) s = .next (if p.inSlice = true ∧ pSlice p ≠ 0 ∧ s'.nextSlice part ≠ part
        then s'.sliceStart (s'.nextSlice part) else s') ∧ s' = { s with parts := s'.parts } ∧
      (s'.partn part).pcfg = p.pcfg &&& ~~~(1 : DWord) ∧ (s'.partn part).tables = p.tables ∧
      (s'.partn part).ptroot = p.ptroot ∧ (s'.partn part).gateSlots = p.gateSlots ∧
      (twf Spool.reset p.spools = true → ∀ n, ((s'.partn part).spool n).cfg = (p.spool n).cfg &&& ~~~(0x20 : DWord)) ∧
      ∀ q, q ≠ part → s'.partn q = s.partn q) ∧
    (pEN p = true → p.grids = [] → ∀ n t, (n, some t) ∈ s.teams → t.part = part → ∃ s',
      exec (.partitionDisable part) s = .next s' ∧ (s'.partn part).pcfg = p.pcfg ∧ (s'.partn part).ending = true))

/-- R195, R242, R279, R290, R291, R302, R304 to R308, R328, R347: a slice's end and system software ask teams to stop;
a group stops by region restart or by a full save; the team stops, an array team after its drain, and resumes; halted
teams end. Aborting a grid and a communicator, the watchdog's one report, and the throttles. The larger loss of two
throttles (log 12), a full save and a hub drain at any time (log 36), what an image does not hold (log 61) and code 5
of a grid that is aborted (log 35) are the model's choices. So is that the watchdog counts while one team of the grid
has not stopped (log 72). -/
def Obligations.StoppingAndAborting : Prop :=
  ((∀ (s : State) n t, s.team n = some t → shCORES t.shape = false → t.st = .running ∨ t.st = .stopping →
     s.gates = [] → exec (.preemptRequest n) s = .next (s.setTeam n (some { t with
       st := .stopping, groups := t.groups.map fun g => g.ask (s.completes t g) }))) ∧
   (∀ (g : Group) busy, g.stop = .running ∨ g.stop = .asked false →
     let a := g.ask busy
     (∀ sl, busy = false → g.slot = some sl → sl.rs = true → g.trap = none → (∀ w, g.whole = some w → w.resolved = true) →
       g.halted = false → g.ended = false →
       a.whole = none ∧ a.redo = none ∧ a.catchUp = none ∧ a.stop = .stopped ∧ a.pc = sl.pc ∧ a.em = sl.em &&& ~~~g.exited ∧ a.p = sl.p ∧ a.x = sl.x ∧
       a.c = sl.c ∧ a.slot = some sl ∧ a.parks = [] ∧ a.v = g.v ∧ a.nf = g.nf ∧ a.exited = g.exited ∧
       (∀ n l, l < 32 → a.rdV n l = tget 0 g.v (32 * n + l)) ∧ (∀ n, n < 64 → a.rdS n = tget 0 sl.s n) ∧
       ((∀ e, e ∈ sl.s → e.1 < 64) → ∀ n, 64 ≤ n → a.rdS n = g.rdS n) ∧
       (∀ o, o ∈ a.pend → o.faults = [] ∧ ((o.lanes = [] ∧ o.fin = true) ∨ (o.regs = 0 ∧ o.pred = none))) ∧
       a.barg = g.barg ∧ a.wait = .none ∧ a.grant = none) ∧
     (busy = true ∨ g.slot = none ∨ g.trap ≠ none ∨ (∃ sl, g.slot = some sl ∧ sl.rs = false) ∨
       (∃ w, g.whole = some w ∧ w.resolved = false) →
       a = { g with stop := if g.stop = .running then .asked g.trap.isSome else g.stop })) ∧
   (∀ (s : State) (r : GRef) (t : Team) (g : Group), s.group r = some (t, g) → s.gates = [] →
     let first := g.stop = .asked false ∧ g.wake.restartable = true
     let save := exec (.fullSave r) s
     (g.asked = true → s.completes t g = false →
       (first → save = .next (s.putGroup r (g.ask false))) ∧
       (¬ first → g.pend = [] →
         save = .next (s.putGroup r { g with stop := .stopped, starve := 0, wait := .none, grant := none })) ∧
       (¬ first → g.pend ≠ [] → save = .next s)) ∧
     (g.asked = false ∨ s.completes t g = true → save = .next s)) ∧
   (∀ (s : State) n t, s.team n = some t → t.st = .stopping → t.why = .none →
     let still := (∀ g, g ∈ t.groups → (g.ended = true ∨ g.stop = .stopped ∨ g.halted = true) ∧ g.pend = []) ∧ t.engs = []
     let groups := t.groups.map fun (g : Group) => { g with starve := 0 }
     (¬ still → exec (.teamStop n) s = .next s) ∧
     (still → t.arr = none → exec (.teamStop n) s =
       .next (s.setTeam n (some { t with st := .stopped, groups := groups }))) ∧
     (∀ a, still → t.arr = some a → a.st ≠ 5 → exec (.teamStop n) s = .next ((s.setTeam n (some { t with
       st := .draining, groups := groups, arr := some { a with st := 5, frozen := a.st } })).teamReport t 5 0 10 0 0
         (BitVec.ofNat 64 t.core) []))) ∧
   (∀ (s : State) n t, s.team n = some t →
     (t.st = .draining → exec (.hubArrayDrain n) s =
       .next (s.setTeam n (some { t with st := .stopped, imgAt := none, image := t.arr.map fun a => { a with
         w0 := { a.w0 with tiny := [] }, w1 := { a.w1 with tiny := [] }, stops := [], miss := false } }))) ∧
     (t.st ≠ .draining → exec (.hubArrayDrain n) s = .next s)) ∧
   (∀ (s : State) n t, s.team n = some t → shCORES t.shape = false → pEN (s.partn t.part) = true →
     (s.partn t.part).inSlice = true → t.st = .stopped → t.why = .none → s.coreUsable t.core = true →
     let groups := t.groups.map fun (g : Group) => { g with stop := .running }
     (t.arr = none → t.imgAt = none → exec (.teamResume n) s = .next (s.setTeam n (some { t with st := .running, groups := groups }))) ∧
     (∀ a b, t.arr = some a → t.image = some b → b.st = 5 → exec (.teamResume n) s = .next (s.setTeam n (some { t with
       st := .running, groups := groups, image := none, imgAt := none, arr := some { b with
         st := b.frozen, frozen := 0, stops := a.stops, tsub := a.tsub, grp0 := a.grp0, op0 := a.op0 } }))) ∧
     (∀ a slot p tb b, t.arr = some a → t.image = none → t.imgAt = some (slot, p) → s.table t.part slot = some tb →
       (∀ w, w ∈ s.waits → ¬ (w.1 = t.part ∧ tHeap tb + p ≤ w.2 ∧ w.2 < tHeap tb + p + 737536)) →
       s.imageStop t.core t.part slot tb p 737536 0 = none →
       let s1 := s.touchImage (some t.core) t.part slot tb p 737536
       s1.imagePoison (some t.core) t.part slot tb p 737536 = false →
       a.ofCells (s1.imageCells t.core t.part slot tb 13 p 737536 0) = some b → b.st = 5 →
       let live : Arr := { b with st := b.frozen, frozen := 0 }
       exec (.teamResume n) s = .next (s1.setTeam n (some { t with
         st := .running, groups := groups, image := none, imgAt := none, arr := some live })))) ∧
   (∀ (s : State) n t, s.team n = some t → t.st = .running →
     ((∀ g, g ∈ t.groups → g.halted = false) → exec (.endHaltedTeam n) s = .next s) ∧
     ((∃ g, g ∈ t.groups ∧ g.halted = true) → t.why = .none → s.gates = [] →
       exec (.endHaltedTeam n) s = .next (s.setTeam n (some { t with
         st := .stopping, groups := t.groups.map fun g => g.ask (s.completes t g)
         why := if t.coreErr then .coreError else .halted })))) ∧
   (∀ (s : State) part, pEN (s.partn part) = true → pSlice (s.partn part) ≠ 0 → (s.partn part).inSlice = true →
     let p := s.partn part
     ((∀ n t, (n, some t) ∈ s.teams → t.part = part → t.st = .stopped) → exec (.sliceEnd part) s =
       .next ((s.setPartn part { p with inSlice := false, sliceUs := 0 }).sliceStart (s.nextSlice part))) ∧
     (∀ n t, s.teams = [(n, some t)] → t.part = part → t.st = .running → s.gates = [] → exec (.sliceEnd part) s =
       .next (s.setTeam n (some { t with st := .stopping, groups := t.groups.map fun g => g.ask (s.completes t g) })))) ∧
   (∀ (s : State) part, let s' := s.sliceStart part
     let base := fld (s.partn part).pcfg 9 2 * 100
     let debt := fld (s.partn part).thrdebt 31 0
     (s'.partn part).inSlice = true ∧ (s'.partn part).sliceUs = base + min debt base ∧
     fld (s'.partn part).thrdebt 31 0 = debt - min debt base ∧
     ∀ c, pFirst (s.partn part) ≤ c → c < pFirst (s.partn part) + pClusters (s.partn part) → (s'.cluster c).hot = [] ∧
       ∀ k, k < 8 → (s'.core (8 * c + k)).l1 = [] ∧ (s'.core (8 * c + k)).icache = [] ∧ (s'.core (8 * c + k)).ft = [] ∧
         (s'.core (8 * c + k)).spVict = [] ∧ (s'.core (8 * c + k)).icVict = [])) ∧
  ((∀ (s : State) part n pos g, (s.partn part).grid n pos = some g →
     (g.retired = true → exec (.gridAbort part n pos) s = .next s) ∧
     let code : BitVec 8 := if g.code.toNat < 5 then 5 else g.code
     (g.retired = false → g.op = none → s.gridTeams part n pos = [] → exec (.gridAbort part n pos) s =
       .next ((s.setPartn part (s.partn part)).putGrid part { g with aborted := true, retired := true, code := code })) ∧
     (∀ op, g.retired = false → g.op = some op → s.gridTeams part n pos = [] → exec (.gridAbort part n pos) s =
       (let reps := if op.begun = true then op.reports pos n op.mainSlot else []
        let nfail := if op.rej = none then op.bad.length else 1
        .next ((s.setPartn part { s.partn part with reports := (s.partn part).reports ++ reps }).putGrid part { g with
          aborted := true, op := none, ndone := op.total - itemsLeft op.items - op.bad.length, nfail := nfail
          retired := true, code := code }))) ∧
     (∀ k t, g.retired = false → g.op = none → s.gridTeams part n pos = [(k, t)] → t.st = .running → s.gates = [] →
       let s1 := (s.setPartn part (s.partn part)).putGrid part { g with aborted := true }
       exec (.gridAbort part n pos) s = .next (s1.setTeam k (some { t with
         why := .aborted, st := .stopping, groups := t.groups.map fun g => g.ask (s1.completes t g) })))) ∧
   (∀ (s : State) part comm, ¬ s.aborted.contains (part, comm) = true →
     (∀ n t op, s.team n = some t → op ∈ t.engs → op.onComm comm = false) →
     (∀ g op, g ∈ (s.partn part).grids → g.op = some op → op.onComm comm = false) →
     exec (.communicatorAbort part comm) s = .next { s with aborted := s.aborted ++ [(part, comm)] }) ∧
   (∀ (s : State) part comm n t op, s.aborted = [] → s.teams = [(n, some t)] → t.part = part → t.engs = [op] →
     op.eng = .coll → op.coll ≠ none → coComm op.rec0 = comm → op.total = itemsLeft op.items → (s.partn part).grids = [] →
     exec (.communicatorAbort part comm) s = .next (State.engFinish { s with aborted := [(part, comm)] } n
       { op with begun := true, rej := some 0x3B, items := [], total := 0, stall := none })) ∧
   (∀ (s : State) part n pos g, (s.partn part).grid n pos = some g →
     let lim := fld (s.partn part).wdlim 31 0
     (lim ≠ 0 → lim ≤ g.wd → g.wdDone = false → g.retired = false → ∃ h, exec (.hangWatchdogExpiry part n pos) s =
       .next ((s.putGrid part { g with wdDone := true }).report part [h]) ∧ fld h 1 0 = 3 ∧ fld h 7 2 = 4 ∧
       fld h 31 24 = 10 ∧ fld h 63 32 = pos % 2 ^ 32 ∧ fld h 67 64 = n % 16) ∧
     (lim = 0 ∨ g.wd < lim ∨ g.wdDone = true ∨ g.retired = true → exec (.hangWatchdogExpiry part n pos) s = .next s)) ∧
   (∀ (s : State) c num den,
     (c < 32 → num < den → exec (.thermalThrottle c num den) s =
       .next (s.setCluster c { s.cluster c with frac := some (num, den) })) ∧
     exec (.thermalThrottleEnd c) s = .next (s.setCluster c { s.cluster c with frac := none }) ∧
     (num < den → exec (.powerCapThrottle num den) s = .next { s with hub := { s.hub with capFrac := some (num, den) } }) ∧
     exec .powerCapThrottleEnd s = .next { s with hub := { s.hub with capFrac := none } }) ∧
   (∀ (s : State) part c, pEN (s.partn part) = true → (s.partn part).inSlice = true →
     pFirst (s.partn part) = c → pClusters (s.partn part) = 1 →
     let loss := fun (x : Option (Nat × Nat)) => match x with | some (num, den) => 1000000 - num * 1000000 / den | none => 0
     let own := loss (s.cluster c).frac
     let all := loss s.hub.capFrac
     let owed := (s.partn part).debtNum + if own ≤ all then all else own
     let p' := (s.accrue part).partn part
     p'.debtNum = owed % 1000000 ∧
       fld p'.thrdebt 31 0 = min (fld (s.partn part).thrdebt 31 0 + owed / 1000000) (2 ^ 32 - 1)))

/-- R190, R312 to R316: the translation queue: a bad entry fails and is counted; INVAL removes the cached translations
of its range; RESUME also lets what waits go on; DISCARD also makes the range read as zero; MOVE marks the leaf busy, and
the move's end copies the page with its poison, names its new place and keeps D; a tier below LOW demotes the least
recently used page of a paged table. The order of pages never used, and that a move waits without room, are the model's
choices (log 39), and so are a MOVE to a tier above 3 (log 38) and the ends of the tiers (log 49). -/
def Obligations.TranslationAndTiers : Prop :=
  (∀ (s : State), s.hub.boot ≠ .running ∨ s.hub.tqdone = s.hub.tqtail → exec .inval s = .next s ∧ exec .resume s = .next s ∧
    exec .move s = .next s ∧ exec .discard s = .next s) ∧
  (∀ (s : State), s.tqMoving = true → exec .inval s = .next s ∧ exec .resume s = .next s ∧ exec .move s = .next s ∧
    exec .discard s = .next s) ∧
  (∀ (s : State) (e : BitVec 256), s.hub.boot = .running → s.hub.tqdone ≠ s.hub.tqtail → s.tqMoving = false →
    let pos := s.hub.tqdone.toNat % 2 ^ fld s.hub.tqbase 3 0
    let at_ := fld s.hub.tqbase 51 12 * 4096 + pos * 32
    (2 ^ 39 ≤ at_ → exec .inval s = .next s ∧ exec .resume s = .next s ∧ exec .move s = .next s ∧
      exec .discard s = .next s) ∧
    (at_ < 2 ^ 39 → e = BitVec.ofNat 256 (s.rdNat (mkKey 0 at_) 32) →
    let op := fld e 3 0
    let va := fld e 255 192
    let len := fld e 191 128
    let asid := fld e 12 8
    let unfit := op = 0 ∨ 4 < op ∨ fld e 127 40 ≠ 0 ∨ fld e 35 13 ≠ 0 ∨ fld e 7 6 ≠ 0 ∨ va % 65536 ≠ 0 ∨
      len % 65536 ≠ 0
    let badMove := op = 3 ∧ (3 < fld e 39 36 ∨ s.inTier (fld e 39 36) 0 = false ∨ s.walk asid va = .miss ∨
      ∃ key leaf size w, s.walk asid va = .ok key leaf size w ∧ (len ≠ size ∨ va % size ≠ 0))
    let lo := if len = 0 then 0 else va
    let hi := if len = 0 then 2 ^ 44 else va + len
    let removed := fun (x : Tlb) => x.asid = asid ∧ lo < x.va + x.size ∧ x.va < hi ∧ (fld e 5 4 = 0 ∨
      (fld e 5 4 = 1 ∧ x.size = 2 ^ 26) ∨ (fld e 5 4 = 2 ∧ x.size = 2 ^ 21) ∨ (fld e 5 4 = 3 ∧ x.size = 2 ^ 16))
    let inUse := ∃ n t g o q, (n, some t) ∈ s.teams ∧ t.part = asid ∧ g ∈ t.groups ∧ o ∈ g.pend ∧ q ∈ o.lanes ∧
      (o.kind.isTable = true ∨ o.path = .ft) ∧ q.zero = false ∧ isWindow q.addr = false ∧ lo ≤ q.va ∧ q.va < hi
    let held := ∃ n t o w q, (n, some t) ∈ s.teams ∧ t.part = asid ∧ o ∈ t.engs ∧ w ∈ o.hold ∧ q ∈ w.todo ∧
      isWindow q.key = false ∧ lo ≤ q.va ∧ q.va < hi
    let awaits := inUse ∨ held
    let counted := { s.hub with tqdone := s.hub.tqdone + 1 }
    let cachedIn := fun (u : State) c => [(u.core c).tlb, (u.core c).spVict, (u.core c).icVict, (u.cluster c).tlb,
      tget [] u.tlb c]
    let shot := fun (s' : State) => ∀ c, cachedIn s' c = (cachedIn s c).map fun l => l.filter fun x => !decide (removed x)
    (unfit ∨ badMove → ∀ i, i = .inval ∨ i = .resume ∨ i = .move ∨ i = .discard → exec i s = .next { s with
      hub := { counted with
        tqstat := if s.hub.tqstat.getLsbD 0 then s.hub.tqstat else BitVec.ofNat 32 (pos * 65536 + 1) } }) ∧
    (¬ unfit → ¬ badMove → s.allHome →
      (op = 1 → ∃ s', exec .inval s = .next s' ∧ s'.mem = s.mem ∧ s'.poison = s.poison ∧ s'.teams = s.teams ∧
        s'.parts = s.parts ∧ shot s' ∧
        (awaits → s'.hub = s.hub) ∧ (¬ awaits → s'.hub = counted)) ∧
      (op = 2 → ¬ awaits → ∃ s', exec .resume s = .next s' ∧ s'.mem = s.mem ∧ s'.hub = counted ∧ shot s' ∧
        (∀ w, w ∈ s'.waits ↔ w ∈ s.waits ∧ ¬ (w.1 = asid ∧ lo ≤ w.2 ∧ w.2 < hi)) ∧
        (∀ n t, s.team n = some t → t.part ≠ asid → s'.team n = some t) ∧
        ∀ n t, s.team n = some t → t.part = asid → ∃ t', s'.team n = some t' ∧
          t' = { t with groups := t'.groups, engs := t'.engs, arr := t'.arr } ∧
          t'.groups = t.groups.map (fun g => { g with
            parks := g.parks.map fun p => { p with resolved := p.resolved || p.rpl }
            whole := g.whole.map fun w => { w with resolved := true }
            wait := match g.wait with | .xlate a => if lo ≤ a ∧ a < hi then .none else .xlate a | w => w }) ∧
          t'.engs = t.engs.map (fun o => { o with
            stall := match o.stall with | some a => if lo ≤ a ∧ a < hi then none else some a | none => none }) ∧
          ∀ a tb, t.arr = some a → s.table asid (recCSlot t.record) = some tb → lo ≤ tHeap tb + a.spc.toNat →
            tHeap tb + a.spc.toNat < hi → t'.arr = some { a with miss := false }) ∧
      (∀ key leaf size w, op = 3 → s.walk asid va = .ok key leaf size w → tget none s.pmoves (spaceOf key) = none →
        s.freePlace (fld e 39 36) size ≠ none → ∃ s', exec .move s = .next s' ∧ s'.hub = s.hub ∧ tget none s'.pmoves (spaceOf key) =
          some { pte := leaf, asid := asid, va := va, size := size, src := key, tier := fld e 39 36, byTq := true } ∧
        s'.byte leaf = s.byte leaf ||| 16 ∧ (∀ a, a ≠ leaf → s'.byte a = s.byte a) ∧
        ∀ c l x, l ∈ cachedIn s' c → x ∈ l → ¬ (x.asid = asid ∧ va < x.va + x.size ∧ x.va < va + size)) ∧
      (∀ key leaf size w, op = 3 → s.walk asid va = .ok key leaf size w → tget none s.pmoves (spaceOf key) ≠ none ∨
        s.freePlace (fld e 39 36) size = none → exec .move s = .next s) ∧
      (∀ leaf, op = 3 → s.walk asid va = .busy leaf → exec .move s = .next s) ∧
      (∀ slot t key leaf size w, op = 4 → ¬ awaits → fld e 5 4 = 0 → len = 65536 →
        (s.partn asid).tables = [(slot, some t)] → (s.partn asid).windowOf slot = none → tKind t = 0 → tPaged t = true →
        tHeap t = va → tCap t * tWidth t = 65536 → s.walk asid va = .ok key leaf size w →
        ∃ s', exec .discard s = .next s' ∧ s'.hub = counted ∧ (∀ a, key ≤ a → a < key + 65536 → s'.byte a = 0))))) ∧
  (∀ (s : State) tier addr size,
    (s.placeFree tier addr size = true ↔ addr % size = 0 ∧ addr + size < 2 ^ 52 ∧ s.inTier tier (addr + size - 1) = true ∧
      spansMeet [(mkKey tier addr, size)] s.taken = false) ∧
    (s.freePlace tier size = some addr → s.placeFree tier addr size = true)) ∧
  (∀ (s : State) tier dest, tget none s.pmoves tier = none → exec (.pageMove ⟨tier, dest⟩) s = .next s) ∧
  (∀ (s : State) (m : PageMove) tier dest, tget none s.pmoves tier = some m →
    s.placeFree m.tier dest m.size = false ∨ spansMeet [(m.src, m.size)] (s.heldSpans none) = true ∨
      s.using { asid := m.asid, lo := m.va, hi := m.va + m.size } = true → exec (.pageMove ⟨tier, dest⟩) s = .next s) ∧
  (∀ (s : State) (m : PageMove) tier dest, tget none s.pmoves tier = some m → 65536 ≤ m.size →
    s.placeFree m.tier dest m.size = true → m.tier < 4 → s.teams = [] → s.memWf → s.allHome → (m.pte + 8 ≤ mkKey m.tier dest ∨ mkKey m.tier dest + m.size ≤ m.pte) →
    ∃ s', exec (.pageMove ⟨tier, dest⟩) s = .next s' ∧ tget none s'.pmoves tier = none ∧
      (∀ i, i < m.size → s'.byte (mkKey m.tier dest + i) = s.byte (m.src + i)) ∧
      (m.src % 64 = 0 → m.size % 64 = 0 → ∀ i, i < m.size →
        s'.poisoned (mkKey m.tier dest + i) 1 = s.poisoned (m.src + i) 1) ∧
      (let e : DWord := BitVec.ofNat 64 (s.rdNat m.pte 8)
       let e' : DWord := BitVec.ofNat 64 (s'.rdNat m.pte 8)
       fld e' 63 60 = m.tier ∧ fld e' 51 8 = dest / 256 ∧ e'.getLsbD 4 = false ∧ fld e' 59 52 = fld e 59 52 ∧
         fld e' 7 5 = fld e 7 5 ∧ fld e' 3 0 = fld e 3 0) ∧
      s'.hub.tqdone = s.hub.tqdone + (if m.byTq then 1 else 0)) ∧
  (∀ (s : State) tier part va,
    let free := (tget 0 s.hub.tierfree tier).toNat
    let low := fld (tget 0 s.hub.tierwm tier) 31 0
    let high := fld (tget 0 s.hub.tierwm tier) 63 32
    let on := s.hub.demoting.contains tier
    let ended := Host.Outcome.next ({ s with
      hub := { s.hub with demoting := s.hub.demoting.filter fun t => t != tier } } : State)
    (3 < tier → exec (.tierDemotion tier part va) s = .next s) ∧
    (tier ≤ 3 → low = 0 → exec (.tierDemotion tier part va) s = ended) ∧
    (tier < 3 → low ≠ 0 → on = false → low ≤ free → free < high → exec (.tierDemotion tier part va) s = .next s) ∧
    (tier ≤ 3 → low ≠ 0 → low ≤ free → tier = 3 ∨ high ≤ free → exec (.tierDemotion tier part va) s = ended) ∧
    (low ≠ 0 → free < low → on = true → tier = 3 → exec (.tierDemotion tier part va) s = .next s) ∧
    (low ≠ 0 → free < low → on = false → tier = 3 → exec (.tierDemotion tier part va) s = .next
      (State.logError { s with hub := { s.hub with demoting := 3 :: s.hub.demoting } } Config.hostTierRecord)) ∧
    (∀ key leaf size w, tier < 3 → low ≠ 0 → free < low ∨ (on = true ∧ free < high) → tget none s.pmoves tier = none →
      s.inTier (tier + 1) 0 = true → s.walk part va = .ok key leaf size w → spaceOf key = tier →
      s.oldest tier part va = true → s.freePlace (tier + 1) size ≠ none → ∃ s' m,
      exec (.tierDemotion tier part va) s = .next s' ∧ tget none s'.pmoves tier = some m ∧ m.tier = tier + 1 ∧
      m.va = va / size * size ∧ m.asid = part ∧ m.size = size ∧ m.byTq = false ∧ s'.hub.demoting.contains tier = true) ∧
    (tier < 3 → low ≠ 0 → free < low → on = true → s.inTier (tier + 1) 0 = false ∨
      s.oldest tier part va = false → exec (.tierDemotion tier part va) s = .next s) ∧
    (∀ e, e ∈ s.demotables tier ↔ ∃ p g, p ∈ s.parts ∧ g ∈ s.pages p.1 ∧ spaceOf g.2.1 = tier ∧
      p.2.pagedAt g.1 g.2.2 = true ∧ e = (p.1, g.1, g.2.2)) ∧
    (∀ (p : Partition) page size, p.pagedAt page size = true ↔ ∃ n t, (n, some t) ∈ p.tables ∧ tKind t = 0 ∧
      tPaged t = true ∧ tHeap t < page + size ∧ page < tHeap t + tCap t * tWidth t) ∧
    (∀ e, e ∈ s.demotables tier → e.1 = part → e.2.1 ≤ va → va < e.2.1 + e.2.2 → s.lru = [] →
      s.oldest tier part va = true) ∧
    (∀ other, s.demotables tier = [(part, va, 65536), (part, other, 65536)] → va % 65536 = 0 → other % 65536 = 0 →
      va ≠ other → (s.lru = [(part, va / 65536)] ∨ s.lru = [(part, va / 65536), (part, other / 65536)]) →
      s.oldest tier part va = false ∧ s.oldest tier part other = true))

/-- R337 to R339, R341, R342: the hub checks a window entry when it is enabled; the host reads and writes a partition's
memory through its aperture; PEERACL admits a peer's requests, to a gate that has moved on too; a Skein port goes down; a
retried flit changes nothing. The values that answer a peer's request, and what poison it meets gives, are the model's choices
(logs 31, 22; of gates log 45), and so is an AtomicOp of the host (log 13). -/
def Obligations.WindowsAndPeers : Prop :=
  (∀ (s : State) part i (v : BitVec 256), part < 32 → i < 16 → s.hub.boot = .running →
    let p := s.partn part
    let e : BitVec 256 := v ||| 1
    let slot := fld v 35 24
    let tgt := fld v 7 6
    let step := exec (.windowEnable part i v) s
    let reserved := fld v 127 64 ≠ 0 ∨ fld v 48 36 ≠ 0 ∨ fld v 23 8 ≠ 0 ∨ v.getLsbD 5 = true ∨ fld v 2 1 ≠ 0
    let named := ∃ k w, k ≠ i ∧ (k, w) ∈ p.windows ∧ w.getLsbD 0 = true ∧ fld w 35 24 = slot
    let linked := (tgt = 0 ∧ s.hub.cxl.1 = true) ∨ (tgt = 1 ∧ s.hub.cxl.2 = true)
    let off := ∀ t, p.table slot = some t → tKind t ≠ 0 ∨ tPaged t = true ∨ fld v 191 128 < tCap t * tWidth t
    ((p.windowAt i).getLsbD 0 = true → step = .next s) ∧
    ((p.windowAt i).getLsbD 0 = false →
      (reserved ∨ named ∨ linked ∨ off ∨ tgt = 3 → ∃ w, step = .next { s.setPartn part (p.setWindow i w) with
          hub := { s.hub with perr := s.hub.perr ||| 4 } } ∧ w.getLsbD 0 = false ∧ fld w 255 128 = fld v 255 128 ∧
        fld w 63 49 = fld v 63 49 ∧ fld w 35 24 = slot ∧ fld w 7 6 = tgt ∧ fld w 4 3 = fld v 4 3) ∧
      (¬ (reserved ∨ named ∨ linked ∨ off ∨ tgt = 3) → step = .next (s.setPartn part (p.setWindow i e))))) ∧
  (∀ (s : State) part i, part < 32 → i < 16 → s.hub.boot = .running → ((s.partn part).windowAt i).getLsbD 0 = true →
    let p := s.partn part
    (s.windowBusy part (p.windowAt i) = true → exec (.windowDisable part i) s = .next s) ∧
    (s.windowBusy part (p.windowAt i) = false → exec (.windowDisable part i) s =
      .next (s.setPartn part (p.setWindow i (p.windowAt i &&& ~~~(1 : BitVec 256)))))) ∧
  (∀ (s : State) part off n, part < 32 → off + n ≤ 2 ^ 36 → 0 < n → s.hub.boot = .running → s.drops = [] →
    let va := fld (s.partn part).apbase 43 16 * 65536 + off
    let read := exec (.inboundApertureRead part off n) s
    va % 65536 + n ≤ 65536 →
    (∀ key leaf size w, s.walk part va = .ok key leaf size w → ∃ s', read = .next s' ∧
      s' = { s with lru := s'.lru, answer := 0 :: (List.range n).map fun i => (s.byte (key + i)).setWidth 64 }) ∧
    (s.walk part va = .miss → ∃ h, read = .next { s.report part [h] with answer := [1] } ∧ fld h 7 2 = 7 ∧
      fld h 31 24 = 10 ∧ fld h 191 128 = va) ∧
    (∀ leaf, s.walk part va = .busy leaf → read = .next s)) ∧
  (∀ (s : State) part off bytes, part < 32 → off + bytes.length ≤ 2 ^ 36 → bytes ≠ [] → s.hub.boot = .running →
    s.drops = [] → s.allHome →
    let va := fld (s.partn part).apbase 43 16 * 65536 + off
    let write := exec (.inboundApertureWrite part off bytes) s
    let refused := ∃ h, write = .next (s.report part [h]) ∧ fld h 7 2 = 7 ∧ fld h 31 24 = 10 ∧ fld h 191 128 = va
    va % 65536 + bytes.length ≤ 65536 →
    (∀ key leaf size, s.walk part va = .ok key leaf size true → ∃ s', write = .next s' ∧
      (∀ i, i < bytes.length → s'.byte (key + i) = bytes.getD i 0) ∧ s'.teams = s.teams ∧ s'.parts = s.parts ∧
      s'.hub = s.hub) ∧
    (∀ key leaf size, s.walk part va = .ok key leaf size false → refused) ∧
    (s.walk part va = .miss → refused) ∧
    (∀ leaf, s.walk part va = .busy leaf → write = .next s)) ∧
  (∀ (s : State) part dev sp off n bs a ty b c, part < 32 → s.hub.boot = .running →
    let p := s.partn part
    let va := fld p.apbase 43 16 * 65536 + off
    let entry := fun (bit : Nat) => ∃ i, i < 8 ∧ let e := tget 0 p.peeracl i
      e.getLsbD 31 = true ∧ fld e 27 18 = dev ∧ fld e 4 0 = sp ∧ e.getLsbD bit = true
    let ask := fun op => exec (.peerRequest part dev sp off op) s
    (fld s.hub.skcfg 9 0 = 0x3FF → ask (.load n) = .next s ∧ ask (.store bs) = .next s ∧ ask (.atomic a ty b c) = .next s) ∧
    (fld s.hub.skcfg 9 0 ≠ 0x3FF →
      (¬ entry 30 → ask (.load n) = .next { s with answer := [1] }) ∧
      (entry 30 → off + n ≤ 2 ^ 36 → s.drops = [] → s.vaPoison part va n = false →
        ask (.load n) = exec (.inboundApertureRead part off n) s) ∧
      (∀ key leaf size w, entry 30 → off + n ≤ 2 ^ 36 → 0 < n → va % 65536 + n ≤ 65536 → s.drops = [] →
        s.walk part va = .ok key leaf size w → s.poisoned key 1 = true →
        ∃ s', ask (.load n) = .next s' ∧ s'.answer = [2] ∧ s'.mem = s.mem) ∧
      (¬ entry 28 → ask (.store bs) = .next (s.logError (Config.refusedStoreRecord dev sp off))) ∧
      (entry 28 → off + bs.length ≤ 2 ^ 36 → s.drops = [] → s.vaPoison part va bs.length = false →
        ask (.store bs) = exec (.inboundApertureWrite part off bs) s) ∧
      (¬ entry 28 ∨ (a ≠ .add ∧ a ≠ .exch ∧ a ≠ .cas) → ask (.atomic a ty b c) = .next { s with answer := [1] }) ∧
      (∀ key leaf size, entry 28 → a = .exch → s.drops = [] → s.allHome →
        let k := ty.width / 8
        off + k ≤ 2 ^ 36 → va % k = 0 → s.vaPoison part va k = false → s.walk part va = .ok key leaf size true → ∃ s', ask (.atomic a ty b c) = .next s' ∧
          s'.answer = [0, BitVec.ofNat 64 (s.rdNat key k)] ∧ s'.rdNat key k = b.toNat % 2 ^ ty.width))) ∧
  (∀ (s : State) dev sp part off n i rights, s.hub.boot = .running → fld s.hub.skcfg 9 0 ≠ 0x3FF → n < 65536 →
    let g := s.gate n
    let ask := fun op => exec (.peerRequest part dev sp off op) s
    (∀ d m, g.fwd = some (d, m) → d ≠ s.devNum → m < 65536 → s.redirect = [] →
      ask (.gread n) = .next { s with answer := [4, BitVec.ofNat 64 (d * 65536 + m)] }) ∧
    (g.fwd = none →
    (g.st = 0 → ask (.gread n) = .next { s with answer := [1] } ∧ ∀ add, ask (.gsig n add) = .next { s with answer := [1] }) ∧
    (g.st ≠ 0 → gateEntry g dev sp = none → ask (.gread n) = .next { s with answer := [2] }) ∧
    (g.st = 1 → gateEntry g dev sp = some (i, rights) → g.limen = false →
      (rights.getLsbD 30 = true → ask (.gread n) = .next { s with answer := [0, g.value] }) ∧
      (rights.getLsbD 28 = true → ∀ add, ask (.gsig n add) = .next { s.signal n add with answer := [0] }) ∧
      (rights.getLsbD 29 = true → ∀ th,
        (th ≤ g.value → ask (.gwait n th) = .next { s with answer := [0, g.value] }) ∧
        (¬ th ≤ g.value → ask (.gwait n th) = .next { s.setGate n { g with
          waiters := g.waiters ++ [(.far dev sp, th)] } with answer := [] }))))) ∧
  (∀ (s : State) part off (b : DWord), part < 32 → s.hub.boot = .running → s.drops = [] → s.allHome →
    let va := fld (s.partn part).apbase 43 16 * 65536 + off
    (∀ key leaf size, va % 8 = 0 → off + 8 ≤ 2 ^ 36 → s.walk part va = .ok key leaf size true → ∃ s',
      s.hostAtomic part off .exch .b64 b 0 = s' ∧ s'.answer = [0, BitVec.ofNat 64 (s.rdNat key 8)] ∧
      s'.rdNat key 8 = b.toNat) ∧
    (∀ ty c, s.hostAtomic part off .xor ty b c = s)) ∧
  (∀ (s : State) port, port < 20 → ∃ c, exec (.skeinPortDown port) s = .next { s with hub := { s.hub with skcfg := c } } ∧
    ∀ i, i < 64 → c.getLsbD i = (s.hub.skcfg.getLsbD i && decide (i ≠ 10 + port))) ∧
  (∀ (s : State) port, 20 ≤ port → exec (.skeinPortDown port) s = .next s) ∧
  (∀ (s : State) port, exec (.linkLevelRetry port) s = .next s)

/-- R89, R330 to R334, R343 to R346: what the resets keep; firmware through the mailbox; attestation; power states; and
what errors, self-tests and retirement do. What the flash of the boot ROM accepts rests on log 15, what a reset keeps of
the module, poison and recovery, and a function-level reset taken again until its grids are gone, on log 41, the codes of the
errors' reports on log 40, and the retirement of cores on log 6. -/
def Obligations.ResetsPowerAndErrors : Prop :=
  (∀ (s : State),
    let after := fun (out : Host.Outcome State Fault Refusal) (keep : Nat → Prop) => ∃ s', out = .next s' ∧
      s' = { State.reset with mem := s'.mem, poison := s'.poison, hub := s'.hub, sched := s.sched } ∧
      s'.hub = { Hub.reset with flash := s.hub.flash, cxlAsk := s.hub.cxlAsk, cxl := s'.hub.cxl, perr := s'.hub.perr,
                                skcfg := s'.hub.skcfg, fw := s'.hub.fw, boot := s'.hub.boot } ∧
      fld s'.hub.skcfg 9 0 = 0x3FF ∧ (s'.hub.boot = .recovery ↔ ∃ img, s.hub.flash = some img ∧ imageOk img = false) ∧
      (s'.hub.boot = .running → s'.hub.cxl = (s.hub.cxlAsk.1 && !s.hub.cxlAsk.2, s.hub.cxlAsk.2) ∧
        s'.hub.perr = if s.hub.cxlAsk.1 && s.hub.cxlAsk.2 then 32 else 0) ∧
      ∀ a, (3 ≤ spaceOf a ∨ keep (spaceOf a) → s'.byte a = s.byte a ∧ s'.poisoned a 1 = s.poisoned a 1) ∧
        (spaceOf a < 3 → ¬ keep (spaceOf a) → s'.byte a = 0 ∧ s'.poisoned a 1 = false)
    after (exec .coldReset s) (fun _ => False) ∧
    after (exec .warmReset s) (fun t => t = 0 ∨ t = 1)) ∧
  (∀ (img : List Byte), (img.length < 192 ∨ imgVersion img < Config.fuseMinVersion → imageOk img = false)) ∧
  (∀ (s : State) part, part < 32 → s.hub.boot = .running →
    let p := s.partn part
    (p.grids = [] → exec (.functionLevelReset part) s = .next (s.setPartn part
      { p with spools := [], stalestat := 0, staleref := 0, trapcfg := 0 })) ∧
    (∀ g, p.grids = [g] → exec (.functionLevelReset part) s = exec (.gridAbort part g.spool g.pos) s)) ∧
  (∀ (s : State) img,
    (s.hub.boot = .recovery → exec (.mailboxImageWrite img) s = .next { s with hub := { s.hub with flash := some img } }) ∧
    (s.hub.boot = .running → exec (.mailboxImageWrite img) s = .next s)) ∧
  (∀ (s : State) (part : Option Nat) nonce, s.hub.boot = .running →
    (nonce.length ≠ 32 ∨ 32 ≤ part.getD 0 → exec (.attestationRequest part nonce) s = .next s) ∧
    (nonce.length = 32 → part.getD 0 < 32 → ∃ report,
      exec (.attestationRequest part nonce) s = .next { s with
        answer := report ++ if part = none then
          Config.attestationCert (s.hub.fw.getD (Config.factoryVersion, Config.factoryDigest)).2 else [] } ∧
      report.length = 32 ∧
      (report.getD 0 0).toNat = 1 + 2 ^ 32 * part.getD 0xFFFFFFFF ∧
      (∀ i, i < 32 → (report.getD (1 + i / 8) 0).toNat / 256 ^ (i % 8) % 256 = (nonce.getD i 0).toNat) ∧
      report.getD 13 0 = (s.hub.fw.getD (Config.factoryVersion, Config.factoryDigest)).1 ∧
      report.getD 14 0 = (match part with | none => 0 | some n => (s.partn n).timeval) ∧
      ∀ i, 15 ≤ i → i < 24 → report.getD i 0 = 0)) ∧
  (∀ (s : State), s.hub.boot = .running →
    (s.hub.power = .p2 → exec .standbyEntry s = .next s) ∧
    (s.hub.power = .p0 → (∃ e, e ∈ s.parts ∧ e.2.pcfg.getLsbD 0 = true) →
      exec .standbyEntry s = .next { s with hub := { s.hub with perr := s.hub.perr ||| 16 } }) ∧
    (s.hub.power = .p0 → (∀ e, e ∈ s.parts → e.2.pcfg.getLsbD 0 = false) → ∃ s', exec .standbyEntry s = .next s' ∧
      s'.hub = { s.hub with power := .p2 } ∧ s'.parts = s.parts ∧ (∀ c, (s'.cluster c).hot = []) ∧
      (∀ c, (s'.core c).l1 = [] ∧ (s'.core c).icache = [] ∧ (s'.core c).ft = [] ∧ (s'.core c).outb = []) ∧
      (s.allHome → s'.mem = s.mem)) ∧
    exec .standbyExit s = .next { s with hub := { s.hub with power := .p0 } }) ∧
  (∀ (s : State) c,
    (c < 32 → (∀ n t, (n, some t) ∈ s.teams → t.core / 8 ≠ c) →
      exec (.clusterIdle c) s = .next (s.setCluster c { s.cluster c with idle := true })) ∧
    (32 ≤ c ∨ (∃ n t, (n, some t) ∈ s.teams ∧ t.core / 8 = c) → exec (.clusterIdle c) s = .next s)) ∧
  (∀ (s : State) a (tie : ErrTie), a < 2 ^ 64 →
    let s1 := { s with poison := ninsert (a / 64) s.poison }
    let err := fun (code : Nat) (h : BitVec 256) => fld h 1 0 = 3 ∧ fld h 7 2 = 9 ∧ fld h 23 16 = code ∧ fld h 31 24 = 7 ∧
      fld h 63 32 = tie.pos % 2 ^ 32 ∧ fld h 67 64 = tie.spool % 16 ∧ fld h 79 68 = tie.slot % 4096 ∧ fld h 191 128 = a
    (2 ^ 39 ≤ a → ∀ lasting, exec (.uncorrectableError (.granule a) lasting tie) s = .next s) ∧
    (a < 2 ^ 39 → ∃ h, exec (.uncorrectableError (.granule a) false tie) s = .next (s1.report tie.part [h]) ∧ err 1 h) ∧
    (a < 2 ^ 39 → ∃ h k, exec (.uncorrectableError (.granule a) true tie) s =
        .next ((s1.report tie.part [h]).report tie.part [k]) ∧ err 2 h ∧
      fld k 7 2 = 10 ∧ fld k 23 16 = 0 ∧ fld k 31 24 = 7 ∧ fld k 191 128 = a) ∧
    exec (.correctedError (.granule a)) s = .next s ∧
    (∃ h, exec (.selfTest (.memRow a) false tie) s = .next (s.report tie.part [h]) ∧ err 0 h)) ∧
  (∀ (s : State) (r : GRef) (t : Team) (g : Group) (tie : ErrTie), s.group r = some (t, g) → g.ended = false → ∃ h,
    exec (.uncorrectableError (.group r) false tie) s = .next ((s.setTeam r.team (some
      { t with groups := t.groups.set r.grp { g with halted := true }, coreErr := true })).report t.part [h]) ∧
    fld h 7 2 = 9 ∧ fld h 23 16 = 1 ∧ fld h 31 24 = 6 ∧ fld h 63 32 = t.pos % 2 ^ 32) ∧
  (∀ (s : State) (tie : ErrTie), ∃ h k,
    exec (.selfTest .hub true tie) s = .next { (s.report tie.part [h]).report tie.part [k] with
      hub := { s.hub with degraded := true } } ∧ fld h 7 2 = 9 ∧ fld h 23 16 = 2 ∧ fld k 7 2 = 10 ∧ fld k 23 16 = 1) ∧
  (∀ (s : State) c (tie : ErrTie),
    (256 ≤ c → ∀ lasting, exec (.selfTest (.core c) lasting tie) s = .next s) ∧
    (c < 256 → ∃ s', exec (.selfTest (.core c) true tie) s = .next s' ∧ (s'.core c).noTeam = true ∧
      s'.teams = s.teams ∧ s'.mem = s.mem)) ∧
  (∀ (s : State) c, c < 256 →
    let resident := ∃ n t, (n, some t) ∈ s.teams ∧ t.core = c
    let used := fun (n : Nat) => (∃ i, i < 8 ∧ fld (s.remapEntry (c / 8 * 8 + i)) 3 0 = n) ∨
      (fld (s.remapEntry c) 9 4 * 16 + n) ∈ s.hub.dead
    let step := fun e => exec (.remapRewrite c e) s
    ((s.core c).noTeam = false ∨ resident → ∀ e, step e = .next s) ∧
    ((s.core c).noTeam = true → ¬ resident →
      (∀ n, n ≤ 8 → ¬ used n → ∃ s', step (some n) = .next s' ∧ (s'.core c).noTeam = false ∧
        fld (s'.remapEntry c) 3 0 = n ∧ fld (s'.remapEntry c) 31 4 = fld (s.remapEntry c) 31 4) ∧
      (∀ n, 8 < n ∨ used n → step (some n) = .next s) ∧
      ((∀ n, n ≤ 8 → used n) → ∃ s', step none = .next s' ∧ (s'.core c).noTeam = false ∧
        fld (s'.remapEntry c) 31 31 = 0 ∧ fld (s'.remapEntry c) 30 0 = fld (s.remapEntry c) 30 0) ∧
      ((∃ n, n ≤ 8 ∧ ¬ used n) → step none = .next s)))

/-- R50 to R65: words of the manual's own examples, one or more of each family, decode to the instructions they stand for;
a word that is no instruction does not decode. -/
def Obligations.WordsDecode : Prop :=
  let h : Len → Hdr := fun l => { len := l, p := 7, neg := false }
  let r : BitVec 10 → VOp := .reg
  decodeTableWord 32 0x38A20640 =
    some (.iadd (h .base) { ty := .s32, sat := false, sf := false, d := r 3, a := r 4, b := .vec (r 5) }) ∧
  decodeTableWord 96 0x00000001_0C000000_F8030C42 =
    some (.iadd (h .ext) { ty := .b64, sat := true, sf := false, d := r 6, a := r 6, b := .imm 1 }) ∧
  decodeTableWord 96 0x00000000_0000D000_398594CE =
    some (.ffma (h .ext) { mode := .rn, sat := false, d := r 10, a := r 11, b := .vec (r 12) } (r 13)) ∧
  decodeTableWord 96 0x00000000_18000000_3A81850E =
    some (.cvt (h .ext) .e4m3 .f32 0 .rn true (r 2) (r 3)) ∧
  decodeTableWord 32 0x38081410 = some (.call (h .base) .any 10 64) ∧
  decodeTableWord 32 0x38000028 = some (.exit (h .base)) ∧
  decodeTableWord 96 0x00000000_00002000_38819152 = some (.rebal (h .ext) 8 2 3 4) ∧
  decodeTableWord 96 0x00000008_04801000_38021576 =
    some (.tld (h .ext) { size := .b32, scope := .team, data := r 10, ref := 4, off := 8, ck := some 1 }) ∧
  decodeTableWord 96 0x00000000_00001000_386109A2 = some (.tlk (h .ext) { d := 4, p := 1, tab := 2, key := .vec 3 }) ∧
  decodeTableWord 32 0x380C29C8 = some (.nmc (h .base) none 20 24) ∧
  decodeTableWord 32 0x39E4A1D8 = some (.mxrd (h .base) 7 1 16 9) ∧
  decodeTableWord 32 0xB80381E0 = some (.barwait (h .base) 0 7 false) ∧
  decodeTableWord 32 0x78A20DF0 = some (.gwait (h .base) 6 4 (.sca 5)) ∧
  decodeTableWord 32 0x08A001F8 = some (.trap { len := .base, p := 1, neg := false } 5) ∧
  decodeTableWord 64 0x0000000100200009 = some (.twb 1 true) ∧
  decodeTableWord 32 0 = none ∧ decodeTableWord 64 0 = none

/-- R50 to R65: every well-formed group instruction and every well-formed tile word is read back from the words that the
encoder gives it, whatever bytes follow. -/
def Obligations.EncodingsRoundTrip : Prop :=
  (∀ (i : Instr) (rest : List Byte), i.wf = true → decode (wordsBytes (encode i) ++ rest) = .ok i) ∧
  (∀ (i : Instr), i.tileWf = true → decodeTile (encodeTile i) = .ok i)

/-- R50, R58, R62, R65, R90, R92, R94, R226, R322: a group's turn executes the instruction that the bytes at its
program counter decode to, in the state in which that group issues, its fetch has used its page and its records show
the base word, once its quadrant's policy chooses it, and the quadrant's counters move; what makes the group wait or
serve is executed as it is; an encoding that is no instruction takes its trap; the sequencer executes the tile word at
SPC; any other step is executed as it is; and no step changes the bytes of a row that a bobbin unit holds. What counts
as a core's outstanding request, for which an instruction waits, is the model's choice (log 68). -/
def Obligations.StepRunsTheDecodedInstruction : Prop :=
  (∀ (s : State) rest (r : GRef) (t : Team) (g : Group) tb key leaf size wr, s.sched = .issue r :: rest →
    s.group r = some (t, g) → g.canIssue = true → g.whole = none → g.awaits = false →
    s.table t.part (recCSlot t.record) = some tb →
    let s0 : State := { s with sched := rest }
    g.restarts (s0.completes t g) = none →
    let used := s0.useCode t g.pc.toNat
    s.codeHeld t g.pc.toNat = false →
    (used.locate (some t.core) t.part (recCSlot t.record) tb g.pc.toNat).2 = .ok key leaf size wr →
    used.readWaits t.part key = false → s.heldSpans none = [] →
    let w0 : Word := BitVec.ofNat 32 (used.rdNat key 4)
    let n := (lenOf w0).bytes
    let issuing : State := { used.putGroup r { g with insn := w0 } with cur := some r }
    let ready := s0.readyGroups t.core ((t.base + r.grp) % 4)
    let runs := fun (i : Instr) => ∃ issues, s0.going r = some { i := i, out := exec i issuing, issues := issues } ∧
      (issues = false → step s = exec i issuing) ∧
      (∀ a s1, issues = true → choose ready = some a → a.r = r → exec i issuing = .next s1 →
        step s = .next (s1.account t.core ((t.base + r.grp) % 4) ready a)) ∧
      (∀ a, issues = true → choose ready = some a → a.r ≠ r → step s = .next s0)
    g.pc.toNat % 4 = 0 → g.pc.toNat % 128 + n ≤ 128 → g.pc.toNat + n ≤ tCap tb * tWidth tb →
    used.poisoned key 4 = false → used.poisoned key n = false →
    (∀ i, decode (used.rd key n) = .ok i → s0.mayIssue t g i = true → runs i) ∧
    (∀ i, decode (used.rd key n) = .ok i → s0.mayIssue t g i = false → step s = .next s0) ∧
    (∀ sub len, decode (used.rd key n) = .bad sub len none → runs (.unassignedEncoding (BitVec.ofNat 8 sub) len))) ∧
  (∀ (s : State) rest (r : GRef) (t : Team) (g : Group), s.sched = .issue r :: rest → s.group r = some (t, g) →
    s.heldSpans none = [] →
    let s0 : State := { s with sched := rest }
    let restart := g.restarts (s0.completes t g)
    (restart ≠ none → step s = exec (.fullSave r) s0) ∧
    (restart = none → g.serves = true → step s = exec (.serveParkSlots r) s0) ∧
    (restart = none → g.serves = false → g.canIssue = false ∨ g.awaits = true → step s = .next s0)) ∧
  (∀ (s : State) rest n (t : Team) (a : Arr) tb key leaf size wr, s.sched = .tile n :: rest → s.team n = some t →
    t.arr = some a → a.st = 1 → a.miss = false → s.table t.part (recCSlot t.record) = some tb →
    a.spc.toNat % 8 = 0 → a.spc.toNat + 8 ≤ tCap tb * tWidth tb → s.heldSpans none = [] →
    let s0 : State := { s with sched := rest }
    let used := s0.useFetch t.core t.part (recCSlot t.record) tb a.spc.toNat
    (used.locate (some t.core) t.part (recCSlot t.record) tb a.spc.toNat).2 = .ok key leaf size wr →
    used.readWaits t.part key = false → used.poisoned key 8 = false →
    let w : DWord := BitVec.ofNat 64 (used.rdNat key 8)
    let running : State := { used.setTeam n (some { t with arr := some { a with word := w } }) with seq := some n }
    (∀ i, decodeTile w = .ok i → step s = exec i running) ∧
    (∀ sub, decodeTile w = .bad sub → step s = exec (.unassignedTileWord (BitVec.ofNat 8 sub)) running)) ∧
  (∀ (s : State) rest i, s.sched = .event i :: rest → isEvent i = true → s.heldSpans none = [] →
    step s = exec i { s with sched := rest }) ∧
  (∀ (s s' : State) rest c p, s.sched = c :: rest → step s = .next s' → p ∈ s.heldSpans c.nearTeam →
    p ∈ s'.heldSpans c.nearTeam → s'.rd p.1 p.2 = s.rd p.1 p.2)

/-- Memory keeps its one canonical form: whatever step a device takes from a state whose memory has it, the next state's
memory has it. -/
def Obligations.MemoryStaysCanonical : Prop := ∀ (s s' : State), s.memWf → step s = .next s' → s'.memWf

/-- R5, R79, R181, R279, R290, R291, R297, R309, R317, R320, R337, R341, R343: what a reset leaves. Memory that reads as
zero is a value of the model's (log 4), and so are EL*, TQ* and TIERFREE (log 3). -/
def Obligations.ResetLeaves : Prop :=
  let s := State.reset
  s.memWf ∧ (∀ a, s.byte a = 0) ∧ (∀ a n, s.poisoned a n = false) ∧ (∀ n, s.team n = none) ∧
  (∀ p, let x := s.partn p
    x.pcfg = 0 ∧ x.thrdebt = 0 ∧ x.wdlim = 0 ∧ x.ptroot = 0 ∧ x.dlcfg = 0 ∧ x.timeval = 0 ∧ x.timectl = 0 ∧ x.walloff = 0 ∧
      x.apbase = 0 ∧ x.stalestat = 0 ∧ x.staleref = 0 ∧ x.trapcfg = 0 ∧ pEN x = false ∧ x.grids = [] ∧ x.reports = [] ∧
      (∀ i, x.windowAt i = 0) ∧ (∀ n, x.spool n = Spool.reset) ∧ ∀ n, s.table p n = none) ∧
  (∀ n, (s.gate n).st = 0) ∧ (∀ c, (s.cluster c).rot = 0 ∧ (s.cluster c).hot = []) ∧
  (∀ c, (s.core c).l1 = [] ∧ (s.core c).outb = [] ∧ (s.core c).icache = [] ∧ (s.core c).ft = []) ∧
  s.hub.elbase = 0 ∧ s.hub.elhead = 0 ∧ s.hub.eltail = 0 ∧ s.hub.tqbase = 0 ∧ s.hub.tqtail = 0 ∧ s.hub.tqdone = 0 ∧
  s.hub.tqstat = 0 ∧ (∀ t, tget 0 s.hub.tierfree t = 0) ∧ s.hub.perr = 0 ∧ s.hub.pwrcap = 0 ∧ fld s.hub.skcfg 9 0 = 0x3FF ∧ s.hub.power = .p0 ∧ s.hub.tierwm = [] ∧
  s.tlb = [] ∧ s.posted = [] ∧ s.pmoves = [] ∧ s.cur = none ∧ s.seq = none ∧
  ∃ s', step s = .next s' ∧ s' = { s with sched := s'.sched }
end

