-- ==== Sys2Proof/Laws/Tab.lean ====
section
/-! SUPPORT. Laws of sparse data: read after write, and the canonical form is kept. -/

namespace Sys2Proof.Machine

variable {α : Type}

theorem tget_tput_self (d : α) (m : List (Nat × α)) (i : Nat) (v : α) : tget d (tput m i v) i = v := by
  induction m with
  | nil => simp [tput, tget]
  | cons c r ih =>
    obtain ⟨k, w⟩ := c
    simp only [tput]
    split
    · simp [tget]
    · split
      · simp [tget]
      · simp_all [tget]

theorem tget_tput_ne (d : α) (m : List (Nat × α)) {i j : Nat} (v : α) (h : j ≠ i) :
    tget d (tput m i v) j = tget d m j := by
  induction m with
  | nil => simp [tput, tget, h]
  | cons c r ih =>
    obtain ⟨k, w⟩ := c
    simp only [tput]
    split
    · simp [tget, h]
    · split
      · subst_vars; simp [tget, h]
      · simp [tget, ih]

theorem tget_filter_self (d : α) (m : List (Nat × α)) (i : Nat) : tget d (m.filter fun c => c.1 != i) i = d := by
  induction m with
  | nil => rfl
  | cons c r ih =>
    obtain ⟨k, w⟩ := c
    by_cases h : k = i
    · subst h; simpa using ih
    · have h' : i ≠ k := fun e => h e.symm
      simp [h, h', tget, ih]

theorem tget_filter (d : α) (p : Nat → Bool) (m : List (Nat × α)) {j : Nat} (h : p j = true) :
    tget d (m.filter fun c => p c.1) j = tget d m j := by
  induction m with
  | nil => rfl
  | cons c r ih =>
    obtain ⟨k, w⟩ := c
    by_cases hk : p k = true
    · simp [hk, tget, ih]
    · have : j ≠ k := fun e => hk (e ▸ h)
      simp [hk, tget, ih, this]

/-- Keys that a filter drops read as unlisted. -/
theorem tget_filter_out (d : α) (p : Nat → Bool) (m : List (Nat × α)) {j : Nat} (h : p j = false) :
    tget d (m.filter fun c => p c.1) j = d := by
  induction m with
  | nil => rfl
  | cons c r ih =>
    obtain ⟨k, w⟩ := c
    by_cases hk : p k = true
    · have : j ≠ k := fun e => by simp [e, hk] at h
      simp [hk, tget, ih, this]
    · simp [hk, ih]

variable [DecidableEq α]

/-- Read after write at one key. -/
@[simp] theorem tget_tset_self (d : α) (m : List (Nat × α)) (i : Nat) (v : α) : tget d (tset d m i v) i = v := by
  unfold tset
  split
  · subst_vars; exact tget_filter_self ..
  · exact tget_tput_self ..

/-- A write leaves every other key alone. -/
theorem tget_tset_ne (d : α) (m : List (Nat × α)) {i j : Nat} (v : α) (h : j ≠ i) :
    tget d (tset d m i v) j = tget d m j := by
  unfold tset
  split
  · exact tget_filter d (fun k => k != i) m (by simpa using h)
  · exact tget_tput_ne d m v h

theorem tget_tset (d : α) (m : List (Nat × α)) (i j : Nat) (v : α) :
    tget d (tset d m i v) j = if j = i then v else tget d m j := by
  split
  · subst_vars; simp
  · exact tget_tset_ne d m v ‹_›

/-! ### The canonical form -/

omit [DecidableEq α] in
theorem tabove_filter {b : Nat} (p : Nat × α → Bool) {m : List (Nat × α)} (h : tabove b m = true) :
    tabove b (m.filter p) = true := by
  induction m with
  | nil => rfl
  | cons c r ih =>
    obtain ⟨k, w⟩ := c
    simp only [tabove, Bool.and_eq_true] at h
    by_cases hp : p (k, w) = true <;> simp [hp, tabove, h.1, ih h.2]

theorem twf_filter (d : α) (p : Nat × α → Bool) {m : List (Nat × α)} (h : twf d m = true) :
    twf d (m.filter p) = true := by
  induction m with
  | nil => rfl
  | cons c r ih =>
    obtain ⟨k, w⟩ := c
    simp only [twf, Bool.and_eq_true] at h
    by_cases hp : p (k, w) = true
    · simp [hp, twf, h.1.2, ih h.2, tabove_filter p h.1.1]
    · simp [hp, ih h.2]

omit [DecidableEq α] in
theorem tabove_mono {b c : Nat} (hbc : b ≤ c) {m : List (Nat × α)} (h : tabove c m = true) : tabove b m = true := by
  induction m with
  | nil => rfl
  | cons x r ih =>
    obtain ⟨k, w⟩ := x
    simp only [tabove, Bool.and_eq_true, decide_eq_true_eq] at h ⊢
    exact ⟨by omega, ih h.2⟩

omit [DecidableEq α] in
theorem tabove_tput {b : Nat} {m : List (Nat × α)} (h : tabove b m = true) {i : Nat} (hi : b < i) (v : α) :
    tabove b (tput m i v) = true := by
  induction m with
  | nil => simp [tput, tabove, hi]
  | cons x r ih =>
    obtain ⟨k, w⟩ := x
    have h' := h
    simp only [tabove, Bool.and_eq_true, decide_eq_true_eq] at h'
    simp only [tput]
    split
    · simp [tabove, hi, h'.1, h'.2]
    · split
      · simp [tabove, hi, h'.2]
      · simp [tabove, h'.1, ih h'.2]

theorem twf_tput (d : α) {m : List (Nat × α)} (h : twf d m = true) (i : Nat) {v : α} (hv : v ≠ d) :
    twf d (tput m i v) = true := by
  induction m with
  | nil => simp [tput, twf, tabove, hv]
  | cons x r ih =>
    obtain ⟨k, w⟩ := x
    have h' := h
    simp only [twf, Bool.and_eq_true, decide_eq_true_eq] at h'
    simp only [tput]
    split
    · rename_i hik
      simp [twf, tabove, hik, hv, h'.1.1, h'.1.2, h'.2, tabove_mono (Nat.le_of_lt hik) h'.1.1]
    · split
      · subst_vars; simp [twf, hv, h'.1.1, h'.2]
      · simp [twf, h'.1.2, ih h'.2, tabove_tput h'.1.1 (by omega : k < i) v]

/-- A write keeps the canonical form. -/
theorem twf_tset (d : α) {m : List (Nat × α)} (h : twf d m = true) (i : Nat) (v : α) : twf d (tset d m i v) = true := by
  unfold tset
  split
  · exact twf_filter d _ h
  · exact twf_tput d h i ‹_›

theorem twf_tsets (d : α) (vs : List α) : ∀ {m : List (Nat × α)} (_ : twf d m = true) (i : Nat),
    twf d (tsets d m i vs) = true := by
  induction vs with
  | nil => intro m h _; exact h
  | cons v vs ih => intro m h i; exact ih (twf_tset d h i v) (i + 1)

/-- A write of several values leaves every key outside it alone. -/
theorem tget_tsets_out (d : α) (vs : List α) : ∀ (m : List (Nat × α)) (i j : Nat) (_ : j < i ∨ i + vs.length ≤ j),
    tget d (tsets d m i vs) j = tget d m j := by
  induction vs with
  | nil => intros; rfl
  | cons v vs ih =>
    intro m i j h
    simp only [List.length_cons] at h
    rw [tsets, ih _ _ _ (by omega), tget_tset_ne _ _ _ (by omega)]

/-- Read after a write of several values. -/
theorem tget_tsets_in (d : α) (vs : List α) : ∀ (m : List (Nat × α)) (i n : Nat) (h : n < vs.length),
    tget d (tsets d m i vs) (i + n) = vs[n] := by
  induction vs with
  | nil => intro _ _ n h; simp at h
  | cons v vs ih =>
    intro m i n h
    cases n with
    | zero => rw [tsets, tget_tsets_out _ _ _ _ _ (by omega)]; simp
    | succ n =>
      have := ih (tset d m i v) (i + 1) n (by simpa using h)
      rw [tsets, show i + (n + 1) = i + 1 + n by omega, this]; simp

omit [DecidableEq α] in
theorem length_tgets (d : α) (m : List (Nat × α)) (n : Nat) : ∀ i, (tgets d m i n).length = n := by
  induction n with
  | zero => intro; rfl
  | succ n ih => intro i; simp [tgets, ih]

/-- Reading back what was written. -/
theorem tgets_tsets (d : α) (vs : List α) : ∀ (m : List (Nat × α)) (i : Nat),
    tgets d (tsets d m i vs) i vs.length = vs := by
  induction vs with
  | nil => intros; rfl
  | cons v vs ih =>
    intro m i
    rw [List.length_cons, tgets, tsets, ih, tget_tsets_out _ _ _ _ _ (by omega)]; simp

end Sys2Proof.Machine
end

