-- ==== Sys2Proof/Laws/State.lean ====
section
/-! SUPPORT. What every update of the state, of a team, of a group and of a partition leaves in each field; and read after
write for the parts of the state. -/

namespace Sys2Proof.Machine

/-! ### Fields of the state under its updates -/

@[simp] theorem State.setTeam_mem (s : State) (n : Nat) (x : Option Team) : (s.setTeam n x).mem = s.mem := rfl
@[simp] theorem State.setTeam_poison (s : State) (n : Nat) (x : Option Team) : (s.setTeam n x).poison = s.poison := rfl
@[simp] theorem State.setTeam_parts (s : State) (n : Nat) (x : Option Team) : (s.setTeam n x).parts = s.parts := rfl
@[simp] theorem State.setTeam_cores (s : State) (n : Nat) (x : Option Team) : (s.setTeam n x).cores = s.cores := rfl
@[simp] theorem State.setTeam_clusters (s : State) (n : Nat) (x : Option Team) : (s.setTeam n x).clusters = s.clusters := rfl
@[simp] theorem State.setTeam_nextTeam (s : State) (n : Nat) (x : Option Team) : (s.setTeam n x).nextTeam = s.nextTeam := rfl
@[simp] theorem State.setTeam_nextGang (s : State) (n : Nat) (x : Option Team) : (s.setTeam n x).nextGang = s.nextGang := rfl
@[simp] theorem State.setTeam_gates (s : State) (n : Nat) (x : Option Team) : (s.setTeam n x).gates = s.gates := rfl
@[simp] theorem State.setTeam_hub (s : State) (n : Nat) (x : Option Team) : (s.setTeam n x).hub = s.hub := rfl
@[simp] theorem State.setTeam_remap (s : State) (n : Nat) (x : Option Team) : (s.setTeam n x).remap = s.remap := rfl
@[simp] theorem State.setTeam_tlb (s : State) (n : Nat) (x : Option Team) : (s.setTeam n x).tlb = s.tlb := rfl
@[simp] theorem State.setTeam_redirect (s : State) (n : Nat) (x : Option Team) : (s.setTeam n x).redirect = s.redirect := rfl
@[simp] theorem State.setTeam_posted (s : State) (n : Nat) (x : Option Team) : (s.setTeam n x).posted = s.posted := rfl
@[simp] theorem State.setTeam_pmoves (s : State) (n : Nat) (x : Option Team) : (s.setTeam n x).pmoves = s.pmoves := rfl
@[simp] theorem State.setTeam_lru (s : State) (n : Nat) (x : Option Team) : (s.setTeam n x).lru = s.lru := rfl
@[simp] theorem State.setTeam_colls (s : State) (n : Nat) (x : Option Team) : (s.setTeam n x).colls = s.colls := rfl
@[simp] theorem State.setTeam_drops (s : State) (n : Nat) (x : Option Team) : (s.setTeam n x).drops = s.drops := rfl
@[simp] theorem State.setTeam_waits (s : State) (n : Nat) (x : Option Team) : (s.setTeam n x).waits = s.waits := rfl
@[simp] theorem State.setTeam_refNs (s : State) (n : Nat) (x : Option Team) : (s.setTeam n x).refNs = s.refNs := rfl
@[simp] theorem State.setTeam_aborted (s : State) (n : Nat) (x : Option Team) : (s.setTeam n x).aborted = s.aborted := rfl
@[simp] theorem State.setTeam_answer (s : State) (n : Nat) (x : Option Team) : (s.setTeam n x).answer = s.answer := rfl
@[simp] theorem State.setTeam_sched (s : State) (n : Nat) (x : Option Team) : (s.setTeam n x).sched = s.sched := rfl
@[simp] theorem State.setTeam_cur (s : State) (n : Nat) (x : Option Team) : (s.setTeam n x).cur = s.cur := rfl
@[simp] theorem State.setTeam_seq (s : State) (n : Nat) (x : Option Team) : (s.setTeam n x).seq = s.seq := rfl
@[simp] theorem State.setTeam_denied (s : State) (n : Nat) (x : Option Team) : (s.setTeam n x).denied = s.denied := rfl

@[simp] theorem State.setPartn_mem (s : State) (n : Nat) (x : Partition) : (s.setPartn n x).mem = s.mem := rfl
@[simp] theorem State.setPartn_poison (s : State) (n : Nat) (x : Partition) : (s.setPartn n x).poison = s.poison := rfl
@[simp] theorem State.setPartn_cores (s : State) (n : Nat) (x : Partition) : (s.setPartn n x).cores = s.cores := rfl
@[simp] theorem State.setPartn_clusters (s : State) (n : Nat) (x : Partition) : (s.setPartn n x).clusters = s.clusters := rfl
@[simp] theorem State.setPartn_teams (s : State) (n : Nat) (x : Partition) : (s.setPartn n x).teams = s.teams := rfl
@[simp] theorem State.setPartn_nextTeam (s : State) (n : Nat) (x : Partition) : (s.setPartn n x).nextTeam = s.nextTeam := rfl
@[simp] theorem State.setPartn_nextGang (s : State) (n : Nat) (x : Partition) : (s.setPartn n x).nextGang = s.nextGang := rfl
@[simp] theorem State.setPartn_gates (s : State) (n : Nat) (x : Partition) : (s.setPartn n x).gates = s.gates := rfl
@[simp] theorem State.setPartn_hub (s : State) (n : Nat) (x : Partition) : (s.setPartn n x).hub = s.hub := rfl
@[simp] theorem State.setPartn_remap (s : State) (n : Nat) (x : Partition) : (s.setPartn n x).remap = s.remap := rfl
@[simp] theorem State.setPartn_tlb (s : State) (n : Nat) (x : Partition) : (s.setPartn n x).tlb = s.tlb := rfl
@[simp] theorem State.setPartn_redirect (s : State) (n : Nat) (x : Partition) : (s.setPartn n x).redirect = s.redirect := rfl
@[simp] theorem State.setPartn_posted (s : State) (n : Nat) (x : Partition) : (s.setPartn n x).posted = s.posted := rfl
@[simp] theorem State.setPartn_pmoves (s : State) (n : Nat) (x : Partition) : (s.setPartn n x).pmoves = s.pmoves := rfl
@[simp] theorem State.setPartn_lru (s : State) (n : Nat) (x : Partition) : (s.setPartn n x).lru = s.lru := rfl
@[simp] theorem State.setPartn_colls (s : State) (n : Nat) (x : Partition) : (s.setPartn n x).colls = s.colls := rfl
@[simp] theorem State.setPartn_drops (s : State) (n : Nat) (x : Partition) : (s.setPartn n x).drops = s.drops := rfl
@[simp] theorem State.setPartn_waits (s : State) (n : Nat) (x : Partition) : (s.setPartn n x).waits = s.waits := rfl
@[simp] theorem State.setPartn_refNs (s : State) (n : Nat) (x : Partition) : (s.setPartn n x).refNs = s.refNs := rfl
@[simp] theorem State.setPartn_aborted (s : State) (n : Nat) (x : Partition) : (s.setPartn n x).aborted = s.aborted := rfl
@[simp] theorem State.setPartn_answer (s : State) (n : Nat) (x : Partition) : (s.setPartn n x).answer = s.answer := rfl
@[simp] theorem State.setPartn_sched (s : State) (n : Nat) (x : Partition) : (s.setPartn n x).sched = s.sched := rfl
@[simp] theorem State.setPartn_cur (s : State) (n : Nat) (x : Partition) : (s.setPartn n x).cur = s.cur := rfl
@[simp] theorem State.setPartn_seq (s : State) (n : Nat) (x : Partition) : (s.setPartn n x).seq = s.seq := rfl
@[simp] theorem State.setPartn_denied (s : State) (n : Nat) (x : Partition) : (s.setPartn n x).denied = s.denied := rfl

@[simp] theorem State.setCore_mem (s : State) (n : Nat) (x : Core) : (s.setCore n x).mem = s.mem := rfl
@[simp] theorem State.setCore_poison (s : State) (n : Nat) (x : Core) : (s.setCore n x).poison = s.poison := rfl
@[simp] theorem State.setCore_parts (s : State) (n : Nat) (x : Core) : (s.setCore n x).parts = s.parts := rfl
@[simp] theorem State.setCore_clusters (s : State) (n : Nat) (x : Core) : (s.setCore n x).clusters = s.clusters := rfl
@[simp] theorem State.setCore_teams (s : State) (n : Nat) (x : Core) : (s.setCore n x).teams = s.teams := rfl
@[simp] theorem State.setCore_nextTeam (s : State) (n : Nat) (x : Core) : (s.setCore n x).nextTeam = s.nextTeam := rfl
@[simp] theorem State.setCore_nextGang (s : State) (n : Nat) (x : Core) : (s.setCore n x).nextGang = s.nextGang := rfl
@[simp] theorem State.setCore_gates (s : State) (n : Nat) (x : Core) : (s.setCore n x).gates = s.gates := rfl
@[simp] theorem State.setCore_hub (s : State) (n : Nat) (x : Core) : (s.setCore n x).hub = s.hub := rfl
@[simp] theorem State.setCore_remap (s : State) (n : Nat) (x : Core) : (s.setCore n x).remap = s.remap := rfl
@[simp] theorem State.setCore_tlb (s : State) (n : Nat) (x : Core) : (s.setCore n x).tlb = s.tlb := rfl
@[simp] theorem State.setCore_redirect (s : State) (n : Nat) (x : Core) : (s.setCore n x).redirect = s.redirect := rfl
@[simp] theorem State.setCore_posted (s : State) (n : Nat) (x : Core) : (s.setCore n x).posted = s.posted := rfl
@[simp] theorem State.setCore_pmoves (s : State) (n : Nat) (x : Core) : (s.setCore n x).pmoves = s.pmoves := rfl
@[simp] theorem State.setCore_lru (s : State) (n : Nat) (x : Core) : (s.setCore n x).lru = s.lru := rfl
@[simp] theorem State.setCore_colls (s : State) (n : Nat) (x : Core) : (s.setCore n x).colls = s.colls := rfl
@[simp] theorem State.setCore_drops (s : State) (n : Nat) (x : Core) : (s.setCore n x).drops = s.drops := rfl
@[simp] theorem State.setCore_waits (s : State) (n : Nat) (x : Core) : (s.setCore n x).waits = s.waits := rfl
@[simp] theorem State.setCore_refNs (s : State) (n : Nat) (x : Core) : (s.setCore n x).refNs = s.refNs := rfl
@[simp] theorem State.setCore_aborted (s : State) (n : Nat) (x : Core) : (s.setCore n x).aborted = s.aborted := rfl
@[simp] theorem State.setCore_answer (s : State) (n : Nat) (x : Core) : (s.setCore n x).answer = s.answer := rfl
@[simp] theorem State.setCore_sched (s : State) (n : Nat) (x : Core) : (s.setCore n x).sched = s.sched := rfl
@[simp] theorem State.setCore_cur (s : State) (n : Nat) (x : Core) : (s.setCore n x).cur = s.cur := rfl
@[simp] theorem State.setCore_seq (s : State) (n : Nat) (x : Core) : (s.setCore n x).seq = s.seq := rfl
@[simp] theorem State.setCore_denied (s : State) (n : Nat) (x : Core) : (s.setCore n x).denied = s.denied := rfl

@[simp] theorem State.setCluster_mem (s : State) (n : Nat) (x : Cluster) : (s.setCluster n x).mem = s.mem := rfl
@[simp] theorem State.setCluster_poison (s : State) (n : Nat) (x : Cluster) : (s.setCluster n x).poison = s.poison := rfl
@[simp] theorem State.setCluster_parts (s : State) (n : Nat) (x : Cluster) : (s.setCluster n x).parts = s.parts := rfl
@[simp] theorem State.setCluster_cores (s : State) (n : Nat) (x : Cluster) : (s.setCluster n x).cores = s.cores := rfl
@[simp] theorem State.setCluster_teams (s : State) (n : Nat) (x : Cluster) : (s.setCluster n x).teams = s.teams := rfl
@[simp] theorem State.setCluster_nextTeam (s : State) (n : Nat) (x : Cluster) : (s.setCluster n x).nextTeam = s.nextTeam := rfl
@[simp] theorem State.setCluster_nextGang (s : State) (n : Nat) (x : Cluster) : (s.setCluster n x).nextGang = s.nextGang := rfl
@[simp] theorem State.setCluster_gates (s : State) (n : Nat) (x : Cluster) : (s.setCluster n x).gates = s.gates := rfl
@[simp] theorem State.setCluster_hub (s : State) (n : Nat) (x : Cluster) : (s.setCluster n x).hub = s.hub := rfl
@[simp] theorem State.setCluster_remap (s : State) (n : Nat) (x : Cluster) : (s.setCluster n x).remap = s.remap := rfl
@[simp] theorem State.setCluster_tlb (s : State) (n : Nat) (x : Cluster) : (s.setCluster n x).tlb = s.tlb := rfl
@[simp] theorem State.setCluster_redirect (s : State) (n : Nat) (x : Cluster) : (s.setCluster n x).redirect = s.redirect := rfl
@[simp] theorem State.setCluster_posted (s : State) (n : Nat) (x : Cluster) : (s.setCluster n x).posted = s.posted := rfl
@[simp] theorem State.setCluster_pmoves (s : State) (n : Nat) (x : Cluster) : (s.setCluster n x).pmoves = s.pmoves := rfl
@[simp] theorem State.setCluster_lru (s : State) (n : Nat) (x : Cluster) : (s.setCluster n x).lru = s.lru := rfl
@[simp] theorem State.setCluster_colls (s : State) (n : Nat) (x : Cluster) : (s.setCluster n x).colls = s.colls := rfl
@[simp] theorem State.setCluster_drops (s : State) (n : Nat) (x : Cluster) : (s.setCluster n x).drops = s.drops := rfl
@[simp] theorem State.setCluster_waits (s : State) (n : Nat) (x : Cluster) : (s.setCluster n x).waits = s.waits := rfl
@[simp] theorem State.setCluster_refNs (s : State) (n : Nat) (x : Cluster) : (s.setCluster n x).refNs = s.refNs := rfl
@[simp] theorem State.setCluster_aborted (s : State) (n : Nat) (x : Cluster) : (s.setCluster n x).aborted = s.aborted := rfl
@[simp] theorem State.setCluster_answer (s : State) (n : Nat) (x : Cluster) : (s.setCluster n x).answer = s.answer := rfl
@[simp] theorem State.setCluster_sched (s : State) (n : Nat) (x : Cluster) : (s.setCluster n x).sched = s.sched := rfl
@[simp] theorem State.setCluster_cur (s : State) (n : Nat) (x : Cluster) : (s.setCluster n x).cur = s.cur := rfl
@[simp] theorem State.setCluster_seq (s : State) (n : Nat) (x : Cluster) : (s.setCluster n x).seq = s.seq := rfl
@[simp] theorem State.setCluster_denied (s : State) (n : Nat) (x : Cluster) : (s.setCluster n x).denied = s.denied := rfl

@[simp] theorem State.setGate_mem (s : State) (n : Nat) (x : Gate) : (s.setGate n x).mem = s.mem := rfl
@[simp] theorem State.setGate_poison (s : State) (n : Nat) (x : Gate) : (s.setGate n x).poison = s.poison := rfl
@[simp] theorem State.setGate_parts (s : State) (n : Nat) (x : Gate) : (s.setGate n x).parts = s.parts := rfl
@[simp] theorem State.setGate_cores (s : State) (n : Nat) (x : Gate) : (s.setGate n x).cores = s.cores := rfl
@[simp] theorem State.setGate_clusters (s : State) (n : Nat) (x : Gate) : (s.setGate n x).clusters = s.clusters := rfl
@[simp] theorem State.setGate_teams (s : State) (n : Nat) (x : Gate) : (s.setGate n x).teams = s.teams := rfl
@[simp] theorem State.setGate_nextTeam (s : State) (n : Nat) (x : Gate) : (s.setGate n x).nextTeam = s.nextTeam := rfl
@[simp] theorem State.setGate_nextGang (s : State) (n : Nat) (x : Gate) : (s.setGate n x).nextGang = s.nextGang := rfl
@[simp] theorem State.setGate_hub (s : State) (n : Nat) (x : Gate) : (s.setGate n x).hub = s.hub := rfl
@[simp] theorem State.setGate_remap (s : State) (n : Nat) (x : Gate) : (s.setGate n x).remap = s.remap := rfl
@[simp] theorem State.setGate_tlb (s : State) (n : Nat) (x : Gate) : (s.setGate n x).tlb = s.tlb := rfl
@[simp] theorem State.setGate_redirect (s : State) (n : Nat) (x : Gate) : (s.setGate n x).redirect = s.redirect := rfl
@[simp] theorem State.setGate_posted (s : State) (n : Nat) (x : Gate) : (s.setGate n x).posted = s.posted := rfl
@[simp] theorem State.setGate_pmoves (s : State) (n : Nat) (x : Gate) : (s.setGate n x).pmoves = s.pmoves := rfl
@[simp] theorem State.setGate_lru (s : State) (n : Nat) (x : Gate) : (s.setGate n x).lru = s.lru := rfl
@[simp] theorem State.setGate_colls (s : State) (n : Nat) (x : Gate) : (s.setGate n x).colls = s.colls := rfl
@[simp] theorem State.setGate_drops (s : State) (n : Nat) (x : Gate) : (s.setGate n x).drops = s.drops := rfl
@[simp] theorem State.setGate_waits (s : State) (n : Nat) (x : Gate) : (s.setGate n x).waits = s.waits := rfl
@[simp] theorem State.setGate_refNs (s : State) (n : Nat) (x : Gate) : (s.setGate n x).refNs = s.refNs := rfl
@[simp] theorem State.setGate_aborted (s : State) (n : Nat) (x : Gate) : (s.setGate n x).aborted = s.aborted := rfl
@[simp] theorem State.setGate_answer (s : State) (n : Nat) (x : Gate) : (s.setGate n x).answer = s.answer := rfl
@[simp] theorem State.setGate_sched (s : State) (n : Nat) (x : Gate) : (s.setGate n x).sched = s.sched := rfl
@[simp] theorem State.setGate_cur (s : State) (n : Nat) (x : Gate) : (s.setGate n x).cur = s.cur := rfl
@[simp] theorem State.setGate_seq (s : State) (n : Nat) (x : Gate) : (s.setGate n x).seq = s.seq := rfl
@[simp] theorem State.setGate_denied (s : State) (n : Nat) (x : Gate) : (s.setGate n x).denied = s.denied := rfl

@[simp] theorem State.setTable_mem (s : State) (n m : Nat) (x : Option Table) : (s.setTable n m x).mem = s.mem := rfl
@[simp] theorem State.setTable_poison (s : State) (n m : Nat) (x : Option Table) : (s.setTable n m x).poison = s.poison := rfl
@[simp] theorem State.setTable_cores (s : State) (n m : Nat) (x : Option Table) : (s.setTable n m x).cores = s.cores := rfl
@[simp] theorem State.setTable_clusters (s : State) (n m : Nat) (x : Option Table) : (s.setTable n m x).clusters = s.clusters := rfl
@[simp] theorem State.setTable_teams (s : State) (n m : Nat) (x : Option Table) : (s.setTable n m x).teams = s.teams := rfl
@[simp] theorem State.setTable_nextTeam (s : State) (n m : Nat) (x : Option Table) : (s.setTable n m x).nextTeam = s.nextTeam := rfl
@[simp] theorem State.setTable_nextGang (s : State) (n m : Nat) (x : Option Table) : (s.setTable n m x).nextGang = s.nextGang := rfl
@[simp] theorem State.setTable_gates (s : State) (n m : Nat) (x : Option Table) : (s.setTable n m x).gates = s.gates := rfl
@[simp] theorem State.setTable_hub (s : State) (n m : Nat) (x : Option Table) : (s.setTable n m x).hub = s.hub := rfl
@[simp] theorem State.setTable_remap (s : State) (n m : Nat) (x : Option Table) : (s.setTable n m x).remap = s.remap := rfl
@[simp] theorem State.setTable_tlb (s : State) (n m : Nat) (x : Option Table) : (s.setTable n m x).tlb = s.tlb := rfl
@[simp] theorem State.setTable_redirect (s : State) (n m : Nat) (x : Option Table) : (s.setTable n m x).redirect = s.redirect := rfl
@[simp] theorem State.setTable_posted (s : State) (n m : Nat) (x : Option Table) : (s.setTable n m x).posted = s.posted := rfl
@[simp] theorem State.setTable_pmoves (s : State) (n m : Nat) (x : Option Table) : (s.setTable n m x).pmoves = s.pmoves := rfl
@[simp] theorem State.setTable_lru (s : State) (n m : Nat) (x : Option Table) : (s.setTable n m x).lru = s.lru := rfl
@[simp] theorem State.setTable_colls (s : State) (n m : Nat) (x : Option Table) : (s.setTable n m x).colls = s.colls := rfl
@[simp] theorem State.setTable_drops (s : State) (n m : Nat) (x : Option Table) : (s.setTable n m x).drops = s.drops := rfl
@[simp] theorem State.setTable_waits (s : State) (n m : Nat) (x : Option Table) : (s.setTable n m x).waits = s.waits := rfl
@[simp] theorem State.setTable_refNs (s : State) (n m : Nat) (x : Option Table) : (s.setTable n m x).refNs = s.refNs := rfl
@[simp] theorem State.setTable_aborted (s : State) (n m : Nat) (x : Option Table) : (s.setTable n m x).aborted = s.aborted := rfl
@[simp] theorem State.setTable_answer (s : State) (n m : Nat) (x : Option Table) : (s.setTable n m x).answer = s.answer := rfl
@[simp] theorem State.setTable_sched (s : State) (n m : Nat) (x : Option Table) : (s.setTable n m x).sched = s.sched := rfl
@[simp] theorem State.setTable_cur (s : State) (n m : Nat) (x : Option Table) : (s.setTable n m x).cur = s.cur := rfl
@[simp] theorem State.setTable_seq (s : State) (n m : Nat) (x : Option Table) : (s.setTable n m x).seq = s.seq := rfl
@[simp] theorem State.setTable_denied (s : State) (n m : Nat) (x : Option Table) : (s.setTable n m x).denied = s.denied := rfl

@[simp] theorem State.wr_poison (s : State) (n : Nat) (x : List Byte) : (s.wr n x).poison = s.poison := rfl
@[simp] theorem State.wr_parts (s : State) (n : Nat) (x : List Byte) : (s.wr n x).parts = s.parts := rfl
@[simp] theorem State.wr_cores (s : State) (n : Nat) (x : List Byte) : (s.wr n x).cores = s.cores := rfl
@[simp] theorem State.wr_clusters (s : State) (n : Nat) (x : List Byte) : (s.wr n x).clusters = s.clusters := rfl
@[simp] theorem State.wr_teams (s : State) (n : Nat) (x : List Byte) : (s.wr n x).teams = s.teams := rfl
@[simp] theorem State.wr_nextTeam (s : State) (n : Nat) (x : List Byte) : (s.wr n x).nextTeam = s.nextTeam := rfl
@[simp] theorem State.wr_nextGang (s : State) (n : Nat) (x : List Byte) : (s.wr n x).nextGang = s.nextGang := rfl
@[simp] theorem State.wr_gates (s : State) (n : Nat) (x : List Byte) : (s.wr n x).gates = s.gates := rfl
@[simp] theorem State.wr_hub (s : State) (n : Nat) (x : List Byte) : (s.wr n x).hub = s.hub := rfl
@[simp] theorem State.wr_remap (s : State) (n : Nat) (x : List Byte) : (s.wr n x).remap = s.remap := rfl
@[simp] theorem State.wr_tlb (s : State) (n : Nat) (x : List Byte) : (s.wr n x).tlb = s.tlb := rfl
@[simp] theorem State.wr_redirect (s : State) (n : Nat) (x : List Byte) : (s.wr n x).redirect = s.redirect := rfl
@[simp] theorem State.wr_posted (s : State) (n : Nat) (x : List Byte) : (s.wr n x).posted = s.posted := rfl
@[simp] theorem State.wr_pmoves (s : State) (n : Nat) (x : List Byte) : (s.wr n x).pmoves = s.pmoves := rfl
@[simp] theorem State.wr_lru (s : State) (n : Nat) (x : List Byte) : (s.wr n x).lru = s.lru := rfl
@[simp] theorem State.wr_colls (s : State) (n : Nat) (x : List Byte) : (s.wr n x).colls = s.colls := rfl
@[simp] theorem State.wr_drops (s : State) (n : Nat) (x : List Byte) : (s.wr n x).drops = s.drops := rfl
@[simp] theorem State.wr_waits (s : State) (n : Nat) (x : List Byte) : (s.wr n x).waits = s.waits := rfl
@[simp] theorem State.wr_refNs (s : State) (n : Nat) (x : List Byte) : (s.wr n x).refNs = s.refNs := rfl
@[simp] theorem State.wr_aborted (s : State) (n : Nat) (x : List Byte) : (s.wr n x).aborted = s.aborted := rfl
@[simp] theorem State.wr_answer (s : State) (n : Nat) (x : List Byte) : (s.wr n x).answer = s.answer := rfl
@[simp] theorem State.wr_sched (s : State) (n : Nat) (x : List Byte) : (s.wr n x).sched = s.sched := rfl
@[simp] theorem State.wr_cur (s : State) (n : Nat) (x : List Byte) : (s.wr n x).cur = s.cur := rfl
@[simp] theorem State.wr_seq (s : State) (n : Nat) (x : List Byte) : (s.wr n x).seq = s.seq := rfl
@[simp] theorem State.wr_denied (s : State) (n : Nat) (x : List Byte) : (s.wr n x).denied = s.denied := rfl

@[simp] theorem State.zeroRange_poison (s : State) (n m : Nat) : (s.zeroRange n m).poison = s.poison := rfl
@[simp] theorem State.zeroRange_parts (s : State) (n m : Nat) : (s.zeroRange n m).parts = s.parts := rfl
@[simp] theorem State.zeroRange_cores (s : State) (n m : Nat) : (s.zeroRange n m).cores = s.cores := rfl
@[simp] theorem State.zeroRange_clusters (s : State) (n m : Nat) : (s.zeroRange n m).clusters = s.clusters := rfl
@[simp] theorem State.zeroRange_teams (s : State) (n m : Nat) : (s.zeroRange n m).teams = s.teams := rfl
@[simp] theorem State.zeroRange_nextTeam (s : State) (n m : Nat) : (s.zeroRange n m).nextTeam = s.nextTeam := rfl
@[simp] theorem State.zeroRange_nextGang (s : State) (n m : Nat) : (s.zeroRange n m).nextGang = s.nextGang := rfl
@[simp] theorem State.zeroRange_gates (s : State) (n m : Nat) : (s.zeroRange n m).gates = s.gates := rfl
@[simp] theorem State.zeroRange_hub (s : State) (n m : Nat) : (s.zeroRange n m).hub = s.hub := rfl
@[simp] theorem State.zeroRange_remap (s : State) (n m : Nat) : (s.zeroRange n m).remap = s.remap := rfl
@[simp] theorem State.zeroRange_tlb (s : State) (n m : Nat) : (s.zeroRange n m).tlb = s.tlb := rfl
@[simp] theorem State.zeroRange_redirect (s : State) (n m : Nat) : (s.zeroRange n m).redirect = s.redirect := rfl
@[simp] theorem State.zeroRange_posted (s : State) (n m : Nat) : (s.zeroRange n m).posted = s.posted := rfl
@[simp] theorem State.zeroRange_pmoves (s : State) (n m : Nat) : (s.zeroRange n m).pmoves = s.pmoves := rfl
@[simp] theorem State.zeroRange_lru (s : State) (n m : Nat) : (s.zeroRange n m).lru = s.lru := rfl
@[simp] theorem State.zeroRange_colls (s : State) (n m : Nat) : (s.zeroRange n m).colls = s.colls := rfl
@[simp] theorem State.zeroRange_drops (s : State) (n m : Nat) : (s.zeroRange n m).drops = s.drops := rfl
@[simp] theorem State.zeroRange_waits (s : State) (n m : Nat) : (s.zeroRange n m).waits = s.waits := rfl
@[simp] theorem State.zeroRange_refNs (s : State) (n m : Nat) : (s.zeroRange n m).refNs = s.refNs := rfl
@[simp] theorem State.zeroRange_aborted (s : State) (n m : Nat) : (s.zeroRange n m).aborted = s.aborted := rfl
@[simp] theorem State.zeroRange_answer (s : State) (n m : Nat) : (s.zeroRange n m).answer = s.answer := rfl
@[simp] theorem State.zeroRange_sched (s : State) (n m : Nat) : (s.zeroRange n m).sched = s.sched := rfl
@[simp] theorem State.zeroRange_cur (s : State) (n m : Nat) : (s.zeroRange n m).cur = s.cur := rfl
@[simp] theorem State.zeroRange_seq (s : State) (n m : Nat) : (s.zeroRange n m).seq = s.seq := rfl
@[simp] theorem State.zeroRange_denied (s : State) (n m : Nat) : (s.zeroRange n m).denied = s.denied := rfl

@[simp] theorem State.report_mem (s : State) (n : Nat) (x : List (BitVec 256)) : (s.report n x).mem = s.mem := rfl
@[simp] theorem State.report_poison (s : State) (n : Nat) (x : List (BitVec 256)) : (s.report n x).poison = s.poison := rfl
@[simp] theorem State.report_cores (s : State) (n : Nat) (x : List (BitVec 256)) : (s.report n x).cores = s.cores := rfl
@[simp] theorem State.report_clusters (s : State) (n : Nat) (x : List (BitVec 256)) : (s.report n x).clusters = s.clusters := rfl
@[simp] theorem State.report_teams (s : State) (n : Nat) (x : List (BitVec 256)) : (s.report n x).teams = s.teams := rfl
@[simp] theorem State.report_nextTeam (s : State) (n : Nat) (x : List (BitVec 256)) : (s.report n x).nextTeam = s.nextTeam := rfl
@[simp] theorem State.report_nextGang (s : State) (n : Nat) (x : List (BitVec 256)) : (s.report n x).nextGang = s.nextGang := rfl
@[simp] theorem State.report_gates (s : State) (n : Nat) (x : List (BitVec 256)) : (s.report n x).gates = s.gates := rfl
@[simp] theorem State.report_hub (s : State) (n : Nat) (x : List (BitVec 256)) : (s.report n x).hub = s.hub := rfl
@[simp] theorem State.report_remap (s : State) (n : Nat) (x : List (BitVec 256)) : (s.report n x).remap = s.remap := rfl
@[simp] theorem State.report_tlb (s : State) (n : Nat) (x : List (BitVec 256)) : (s.report n x).tlb = s.tlb := rfl
@[simp] theorem State.report_redirect (s : State) (n : Nat) (x : List (BitVec 256)) : (s.report n x).redirect = s.redirect := rfl
@[simp] theorem State.report_posted (s : State) (n : Nat) (x : List (BitVec 256)) : (s.report n x).posted = s.posted := rfl
@[simp] theorem State.report_pmoves (s : State) (n : Nat) (x : List (BitVec 256)) : (s.report n x).pmoves = s.pmoves := rfl
@[simp] theorem State.report_lru (s : State) (n : Nat) (x : List (BitVec 256)) : (s.report n x).lru = s.lru := rfl
@[simp] theorem State.report_colls (s : State) (n : Nat) (x : List (BitVec 256)) : (s.report n x).colls = s.colls := rfl
@[simp] theorem State.report_drops (s : State) (n : Nat) (x : List (BitVec 256)) : (s.report n x).drops = s.drops := rfl
@[simp] theorem State.report_waits (s : State) (n : Nat) (x : List (BitVec 256)) : (s.report n x).waits = s.waits := rfl
@[simp] theorem State.report_refNs (s : State) (n : Nat) (x : List (BitVec 256)) : (s.report n x).refNs = s.refNs := rfl
@[simp] theorem State.report_aborted (s : State) (n : Nat) (x : List (BitVec 256)) : (s.report n x).aborted = s.aborted := rfl
@[simp] theorem State.report_answer (s : State) (n : Nat) (x : List (BitVec 256)) : (s.report n x).answer = s.answer := rfl
@[simp] theorem State.report_sched (s : State) (n : Nat) (x : List (BitVec 256)) : (s.report n x).sched = s.sched := rfl
@[simp] theorem State.report_cur (s : State) (n : Nat) (x : List (BitVec 256)) : (s.report n x).cur = s.cur := rfl
@[simp] theorem State.report_seq (s : State) (n : Nat) (x : List (BitVec 256)) : (s.report n x).seq = s.seq := rfl
@[simp] theorem State.report_denied (s : State) (n : Nat) (x : List (BitVec 256)) : (s.report n x).denied = s.denied := rfl

theorem State.setTeam_teams (s : State) (n : Nat) (x : Option Team) : (s.setTeam n x).teams = tset none s.teams n x := rfl
theorem State.setPartn_parts (s : State) (n : Nat) (x : Partition) :
    (s.setPartn n x).parts = tset Partition.reset s.parts n x := rfl
theorem State.wr_mem (s : State) (n : Nat) (x : List Byte) : (s.wr n x).mem = tsets emptyByte s.mem n x := rfl

/-! ### Fields of a group under its register updates -/

@[simp] theorem Group.wrS_pc (g : Group) (n : Nat) (y : DWord) : (g.wrS n y).pc = g.pc := rfl
@[simp] theorem Group.wrS_em (g : Group) (n : Nat) (y : DWord) : (g.wrS n y).em = g.em := rfl
@[simp] theorem Group.wrS_exited (g : Group) (n : Nat) (y : DWord) : (g.wrS n y).exited = g.exited := rfl
@[simp] theorem Group.wrS_triggered (g : Group) (n : Nat) (y : DWord) : (g.wrS n y).triggered = g.triggered := rfl
@[simp] theorem Group.wrS_v (g : Group) (n : Nat) (y : DWord) : (g.wrS n y).v = g.v := rfl
@[simp] theorem Group.wrS_p (g : Group) (n : Nat) (y : DWord) : (g.wrS n y).p = g.p := rfl
@[simp] theorem Group.wrS_x (g : Group) (n : Nat) (y : DWord) : (g.wrS n y).x = g.x := rfl
@[simp] theorem Group.wrS_c (g : Group) (n : Nat) (y : DWord) : (g.wrS n y).c = g.c := rfl
@[simp] theorem Group.wrS_nf (g : Group) (n : Nat) (y : DWord) : (g.wrS n y).nf = g.nf := rfl
@[simp] theorem Group.wrS_sf (g : Group) (n : Nat) (y : DWord) : (g.wrS n y).sf = g.sf := rfl
@[simp] theorem Group.wrS_trapPC (g : Group) (n : Nat) (y : DWord) : (g.wrS n y).trapPC = g.trapPC := rfl
@[simp] theorem Group.wrS_trapCause (g : Group) (n : Nat) (y : DWord) : (g.wrS n y).trapCause = g.trapCause := rfl
@[simp] theorem Group.wrS_trapInfo (g : Group) (n : Nat) (y : DWord) : (g.wrS n y).trapInfo = g.trapInfo := rfl
@[simp] theorem Group.wrS_trapAddr (g : Group) (n : Nat) (y : DWord) : (g.wrS n y).trapAddr = g.trapAddr := rfl
@[simp] theorem Group.wrS_trap (g : Group) (n : Nat) (y : DWord) : (g.wrS n y).trap = g.trap := rfl
@[simp] theorem Group.wrS_parks (g : Group) (n : Nat) (y : DWord) : (g.wrS n y).parks = g.parks := rfl
@[simp] theorem Group.wrS_whole (g : Group) (n : Nat) (y : DWord) : (g.wrS n y).whole = g.whole := rfl
@[simp] theorem Group.wrS_redo (g : Group) (n : Nat) (y : DWord) : (g.wrS n y).redo = g.redo := rfl
@[simp] theorem Group.wrS_atHead (g : Group) (n : Nat) (y : DWord) : (g.wrS n y).atHead = g.atHead := rfl
@[simp] theorem Group.wrS_catchUp (g : Group) (n : Nat) (y : DWord) : (g.wrS n y).catchUp = g.catchUp := rfl
@[simp] theorem Group.wrS_slot (g : Group) (n : Nat) (y : DWord) : (g.wrS n y).slot = g.slot := rfl
@[simp] theorem Group.wrS_fast (g : Group) (n : Nat) (y : DWord) : (g.wrS n y).fast = g.fast := rfl
@[simp] theorem Group.wrS_pend (g : Group) (n : Nat) (y : DWord) : (g.wrS n y).pend = g.pend := rfl
@[simp] theorem Group.wrS_nextOp (g : Group) (n : Nat) (y : DWord) : (g.wrS n y).nextOp = g.nextOp := rfl
@[simp] theorem Group.wrS_wait (g : Group) (n : Nat) (y : DWord) : (g.wrS n y).wait = g.wait := rfl
@[simp] theorem Group.wrS_icReq (g : Group) (n : Nat) (y : DWord) : (g.wrS n y).icReq = g.icReq := rfl
@[simp] theorem Group.wrS_grant (g : Group) (n : Nat) (y : DWord) : (g.wrS n y).grant = g.grant := rfl
@[simp] theorem Group.wrS_barg (g : Group) (n : Nat) (y : DWord) : (g.wrS n y).barg = g.barg := rfl
@[simp] theorem Group.wrS_starve (g : Group) (n : Nat) (y : DWord) : (g.wrS n y).starve = g.starve := rfl
@[simp] theorem Group.wrS_halted (g : Group) (n : Nat) (y : DWord) : (g.wrS n y).halted = g.halted := rfl
@[simp] theorem Group.wrS_stop (g : Group) (n : Nat) (y : DWord) : (g.wrS n y).stop = g.stop := rfl
@[simp] theorem Group.wrS_insn (g : Group) (n : Nat) (y : DWord) : (g.wrS n y).insn = g.insn := rfl

@[simp] theorem Group.wrX_pc (g : Group) (n l : Nat) (y : Word) : (g.wrX n l y).pc = g.pc := rfl
@[simp] theorem Group.wrX_em (g : Group) (n l : Nat) (y : Word) : (g.wrX n l y).em = g.em := rfl
@[simp] theorem Group.wrX_exited (g : Group) (n l : Nat) (y : Word) : (g.wrX n l y).exited = g.exited := rfl
@[simp] theorem Group.wrX_triggered (g : Group) (n l : Nat) (y : Word) : (g.wrX n l y).triggered = g.triggered := rfl
@[simp] theorem Group.wrX_v (g : Group) (n l : Nat) (y : Word) : (g.wrX n l y).v = g.v := rfl
@[simp] theorem Group.wrX_s (g : Group) (n l : Nat) (y : Word) : (g.wrX n l y).s = g.s := rfl
@[simp] theorem Group.wrX_p (g : Group) (n l : Nat) (y : Word) : (g.wrX n l y).p = g.p := rfl
@[simp] theorem Group.wrX_c (g : Group) (n l : Nat) (y : Word) : (g.wrX n l y).c = g.c := rfl
@[simp] theorem Group.wrX_nf (g : Group) (n l : Nat) (y : Word) : (g.wrX n l y).nf = g.nf := rfl
@[simp] theorem Group.wrX_sf (g : Group) (n l : Nat) (y : Word) : (g.wrX n l y).sf = g.sf := rfl
@[simp] theorem Group.wrX_trapPC (g : Group) (n l : Nat) (y : Word) : (g.wrX n l y).trapPC = g.trapPC := rfl
@[simp] theorem Group.wrX_trapCause (g : Group) (n l : Nat) (y : Word) : (g.wrX n l y).trapCause = g.trapCause := rfl
@[simp] theorem Group.wrX_trapInfo (g : Group) (n l : Nat) (y : Word) : (g.wrX n l y).trapInfo = g.trapInfo := rfl
@[simp] theorem Group.wrX_trapAddr (g : Group) (n l : Nat) (y : Word) : (g.wrX n l y).trapAddr = g.trapAddr := rfl
@[simp] theorem Group.wrX_trap (g : Group) (n l : Nat) (y : Word) : (g.wrX n l y).trap = g.trap := rfl
@[simp] theorem Group.wrX_parks (g : Group) (n l : Nat) (y : Word) : (g.wrX n l y).parks = g.parks := rfl
@[simp] theorem Group.wrX_whole (g : Group) (n l : Nat) (y : Word) : (g.wrX n l y).whole = g.whole := rfl
@[simp] theorem Group.wrX_redo (g : Group) (n l : Nat) (y : Word) : (g.wrX n l y).redo = g.redo := rfl
@[simp] theorem Group.wrX_atHead (g : Group) (n l : Nat) (y : Word) : (g.wrX n l y).atHead = g.atHead := rfl
@[simp] theorem Group.wrX_catchUp (g : Group) (n l : Nat) (y : Word) : (g.wrX n l y).catchUp = g.catchUp := rfl
@[simp] theorem Group.wrX_slot (g : Group) (n l : Nat) (y : Word) : (g.wrX n l y).slot = g.slot := rfl
@[simp] theorem Group.wrX_fast (g : Group) (n l : Nat) (y : Word) : (g.wrX n l y).fast = g.fast := rfl
@[simp] theorem Group.wrX_pend (g : Group) (n l : Nat) (y : Word) : (g.wrX n l y).pend = g.pend := rfl
@[simp] theorem Group.wrX_nextOp (g : Group) (n l : Nat) (y : Word) : (g.wrX n l y).nextOp = g.nextOp := rfl
@[simp] theorem Group.wrX_wait (g : Group) (n l : Nat) (y : Word) : (g.wrX n l y).wait = g.wait := rfl
@[simp] theorem Group.wrX_icReq (g : Group) (n l : Nat) (y : Word) : (g.wrX n l y).icReq = g.icReq := rfl
@[simp] theorem Group.wrX_grant (g : Group) (n l : Nat) (y : Word) : (g.wrX n l y).grant = g.grant := rfl
@[simp] theorem Group.wrX_barg (g : Group) (n l : Nat) (y : Word) : (g.wrX n l y).barg = g.barg := rfl
@[simp] theorem Group.wrX_starve (g : Group) (n l : Nat) (y : Word) : (g.wrX n l y).starve = g.starve := rfl
@[simp] theorem Group.wrX_halted (g : Group) (n l : Nat) (y : Word) : (g.wrX n l y).halted = g.halted := rfl
@[simp] theorem Group.wrX_stop (g : Group) (n l : Nat) (y : Word) : (g.wrX n l y).stop = g.stop := rfl
@[simp] theorem Group.wrX_insn (g : Group) (n l : Nat) (y : Word) : (g.wrX n l y).insn = g.insn := rfl

@[simp] theorem Group.wrC_pc (g : Group) (n l : Nat) (y : Cursor) : (g.wrC n l y).pc = g.pc := rfl
@[simp] theorem Group.wrC_em (g : Group) (n l : Nat) (y : Cursor) : (g.wrC n l y).em = g.em := rfl
@[simp] theorem Group.wrC_exited (g : Group) (n l : Nat) (y : Cursor) : (g.wrC n l y).exited = g.exited := rfl
@[simp] theorem Group.wrC_triggered (g : Group) (n l : Nat) (y : Cursor) : (g.wrC n l y).triggered = g.triggered := rfl
@[simp] theorem Group.wrC_v (g : Group) (n l : Nat) (y : Cursor) : (g.wrC n l y).v = g.v := rfl
@[simp] theorem Group.wrC_s (g : Group) (n l : Nat) (y : Cursor) : (g.wrC n l y).s = g.s := rfl
@[simp] theorem Group.wrC_p (g : Group) (n l : Nat) (y : Cursor) : (g.wrC n l y).p = g.p := rfl
@[simp] theorem Group.wrC_x (g : Group) (n l : Nat) (y : Cursor) : (g.wrC n l y).x = g.x := rfl
@[simp] theorem Group.wrC_nf (g : Group) (n l : Nat) (y : Cursor) : (g.wrC n l y).nf = g.nf := rfl
@[simp] theorem Group.wrC_sf (g : Group) (n l : Nat) (y : Cursor) : (g.wrC n l y).sf = g.sf := rfl
@[simp] theorem Group.wrC_trapPC (g : Group) (n l : Nat) (y : Cursor) : (g.wrC n l y).trapPC = g.trapPC := rfl
@[simp] theorem Group.wrC_trapCause (g : Group) (n l : Nat) (y : Cursor) : (g.wrC n l y).trapCause = g.trapCause := rfl
@[simp] theorem Group.wrC_trapInfo (g : Group) (n l : Nat) (y : Cursor) : (g.wrC n l y).trapInfo = g.trapInfo := rfl
@[simp] theorem Group.wrC_trapAddr (g : Group) (n l : Nat) (y : Cursor) : (g.wrC n l y).trapAddr = g.trapAddr := rfl
@[simp] theorem Group.wrC_trap (g : Group) (n l : Nat) (y : Cursor) : (g.wrC n l y).trap = g.trap := rfl
@[simp] theorem Group.wrC_parks (g : Group) (n l : Nat) (y : Cursor) : (g.wrC n l y).parks = g.parks := rfl
@[simp] theorem Group.wrC_whole (g : Group) (n l : Nat) (y : Cursor) : (g.wrC n l y).whole = g.whole := rfl
@[simp] theorem Group.wrC_redo (g : Group) (n l : Nat) (y : Cursor) : (g.wrC n l y).redo = g.redo := rfl
@[simp] theorem Group.wrC_atHead (g : Group) (n l : Nat) (y : Cursor) : (g.wrC n l y).atHead = g.atHead := rfl
@[simp] theorem Group.wrC_catchUp (g : Group) (n l : Nat) (y : Cursor) : (g.wrC n l y).catchUp = g.catchUp := rfl
@[simp] theorem Group.wrC_slot (g : Group) (n l : Nat) (y : Cursor) : (g.wrC n l y).slot = g.slot := rfl
@[simp] theorem Group.wrC_fast (g : Group) (n l : Nat) (y : Cursor) : (g.wrC n l y).fast = g.fast := rfl
@[simp] theorem Group.wrC_pend (g : Group) (n l : Nat) (y : Cursor) : (g.wrC n l y).pend = g.pend := rfl
@[simp] theorem Group.wrC_nextOp (g : Group) (n l : Nat) (y : Cursor) : (g.wrC n l y).nextOp = g.nextOp := rfl
@[simp] theorem Group.wrC_wait (g : Group) (n l : Nat) (y : Cursor) : (g.wrC n l y).wait = g.wait := rfl
@[simp] theorem Group.wrC_icReq (g : Group) (n l : Nat) (y : Cursor) : (g.wrC n l y).icReq = g.icReq := rfl
@[simp] theorem Group.wrC_grant (g : Group) (n l : Nat) (y : Cursor) : (g.wrC n l y).grant = g.grant := rfl
@[simp] theorem Group.wrC_barg (g : Group) (n l : Nat) (y : Cursor) : (g.wrC n l y).barg = g.barg := rfl
@[simp] theorem Group.wrC_starve (g : Group) (n l : Nat) (y : Cursor) : (g.wrC n l y).starve = g.starve := rfl
@[simp] theorem Group.wrC_halted (g : Group) (n l : Nat) (y : Cursor) : (g.wrC n l y).halted = g.halted := rfl
@[simp] theorem Group.wrC_stop (g : Group) (n l : Nat) (y : Cursor) : (g.wrC n l y).stop = g.stop := rfl
@[simp] theorem Group.wrC_insn (g : Group) (n l : Nat) (y : Cursor) : (g.wrC n l y).insn = g.insn := rfl

@[simp] theorem Group.orNF_pc (g : Group) (y : Word) : (g.orNF y).pc = g.pc := rfl
@[simp] theorem Group.orNF_em (g : Group) (y : Word) : (g.orNF y).em = g.em := rfl
@[simp] theorem Group.orNF_exited (g : Group) (y : Word) : (g.orNF y).exited = g.exited := rfl
@[simp] theorem Group.orNF_triggered (g : Group) (y : Word) : (g.orNF y).triggered = g.triggered := rfl
@[simp] theorem Group.orNF_v (g : Group) (y : Word) : (g.orNF y).v = g.v := rfl
@[simp] theorem Group.orNF_s (g : Group) (y : Word) : (g.orNF y).s = g.s := rfl
@[simp] theorem Group.orNF_p (g : Group) (y : Word) : (g.orNF y).p = g.p := rfl
@[simp] theorem Group.orNF_x (g : Group) (y : Word) : (g.orNF y).x = g.x := rfl
@[simp] theorem Group.orNF_c (g : Group) (y : Word) : (g.orNF y).c = g.c := rfl
@[simp] theorem Group.orNF_sf (g : Group) (y : Word) : (g.orNF y).sf = g.sf := rfl
@[simp] theorem Group.orNF_trapPC (g : Group) (y : Word) : (g.orNF y).trapPC = g.trapPC := rfl
@[simp] theorem Group.orNF_trapCause (g : Group) (y : Word) : (g.orNF y).trapCause = g.trapCause := rfl
@[simp] theorem Group.orNF_trapInfo (g : Group) (y : Word) : (g.orNF y).trapInfo = g.trapInfo := rfl
@[simp] theorem Group.orNF_trapAddr (g : Group) (y : Word) : (g.orNF y).trapAddr = g.trapAddr := rfl
@[simp] theorem Group.orNF_trap (g : Group) (y : Word) : (g.orNF y).trap = g.trap := rfl
@[simp] theorem Group.orNF_parks (g : Group) (y : Word) : (g.orNF y).parks = g.parks := rfl
@[simp] theorem Group.orNF_whole (g : Group) (y : Word) : (g.orNF y).whole = g.whole := rfl
@[simp] theorem Group.orNF_redo (g : Group) (y : Word) : (g.orNF y).redo = g.redo := rfl
@[simp] theorem Group.orNF_atHead (g : Group) (y : Word) : (g.orNF y).atHead = g.atHead := rfl
@[simp] theorem Group.orNF_catchUp (g : Group) (y : Word) : (g.orNF y).catchUp = g.catchUp := rfl
@[simp] theorem Group.orNF_slot (g : Group) (y : Word) : (g.orNF y).slot = g.slot := rfl
@[simp] theorem Group.orNF_fast (g : Group) (y : Word) : (g.orNF y).fast = g.fast := rfl
@[simp] theorem Group.orNF_pend (g : Group) (y : Word) : (g.orNF y).pend = g.pend := rfl
@[simp] theorem Group.orNF_nextOp (g : Group) (y : Word) : (g.orNF y).nextOp = g.nextOp := rfl
@[simp] theorem Group.orNF_wait (g : Group) (y : Word) : (g.orNF y).wait = g.wait := rfl
@[simp] theorem Group.orNF_icReq (g : Group) (y : Word) : (g.orNF y).icReq = g.icReq := rfl
@[simp] theorem Group.orNF_grant (g : Group) (y : Word) : (g.orNF y).grant = g.grant := rfl
@[simp] theorem Group.orNF_barg (g : Group) (y : Word) : (g.orNF y).barg = g.barg := rfl
@[simp] theorem Group.orNF_starve (g : Group) (y : Word) : (g.orNF y).starve = g.starve := rfl
@[simp] theorem Group.orNF_halted (g : Group) (y : Word) : (g.orNF y).halted = g.halted := rfl
@[simp] theorem Group.orNF_stop (g : Group) (y : Word) : (g.orNF y).stop = g.stop := rfl
@[simp] theorem Group.orNF_insn (g : Group) (y : Word) : (g.orNF y).insn = g.insn := rfl

@[simp] theorem Group.wrV_pc (g : Group) (n l : Nat) (y : Word) : (g.wrV n l y).pc = g.pc := by
  unfold Group.wrV; split <;> rfl
@[simp] theorem Group.wrV_em (g : Group) (n l : Nat) (y : Word) : (g.wrV n l y).em = g.em := by
  unfold Group.wrV; split <;> rfl
@[simp] theorem Group.wrV_exited (g : Group) (n l : Nat) (y : Word) : (g.wrV n l y).exited = g.exited := by
  unfold Group.wrV; split <;> rfl
@[simp] theorem Group.wrV_triggered (g : Group) (n l : Nat) (y : Word) : (g.wrV n l y).triggered = g.triggered := by
  unfold Group.wrV; split <;> rfl
@[simp] theorem Group.wrV_s (g : Group) (n l : Nat) (y : Word) : (g.wrV n l y).s = g.s := by
  unfold Group.wrV; split <;> rfl
@[simp] theorem Group.wrV_p (g : Group) (n l : Nat) (y : Word) : (g.wrV n l y).p = g.p := by
  unfold Group.wrV; split <;> rfl
@[simp] theorem Group.wrV_x (g : Group) (n l : Nat) (y : Word) : (g.wrV n l y).x = g.x := by
  unfold Group.wrV; split <;> rfl
@[simp] theorem Group.wrV_c (g : Group) (n l : Nat) (y : Word) : (g.wrV n l y).c = g.c := by
  unfold Group.wrV; split <;> rfl
@[simp] theorem Group.wrV_nf (g : Group) (n l : Nat) (y : Word) : (g.wrV n l y).nf = g.nf := by
  unfold Group.wrV; split <;> rfl
@[simp] theorem Group.wrV_sf (g : Group) (n l : Nat) (y : Word) : (g.wrV n l y).sf = g.sf := by
  unfold Group.wrV; split <;> rfl
@[simp] theorem Group.wrV_trapPC (g : Group) (n l : Nat) (y : Word) : (g.wrV n l y).trapPC = g.trapPC := by
  unfold Group.wrV; split <;> rfl
@[simp] theorem Group.wrV_trapCause (g : Group) (n l : Nat) (y : Word) : (g.wrV n l y).trapCause = g.trapCause := by
  unfold Group.wrV; split <;> rfl
@[simp] theorem Group.wrV_trapInfo (g : Group) (n l : Nat) (y : Word) : (g.wrV n l y).trapInfo = g.trapInfo := by
  unfold Group.wrV; split <;> rfl
@[simp] theorem Group.wrV_trapAddr (g : Group) (n l : Nat) (y : Word) : (g.wrV n l y).trapAddr = g.trapAddr := by
  unfold Group.wrV; split <;> rfl
@[simp] theorem Group.wrV_trap (g : Group) (n l : Nat) (y : Word) : (g.wrV n l y).trap = g.trap := by
  unfold Group.wrV; split <;> rfl
@[simp] theorem Group.wrV_parks (g : Group) (n l : Nat) (y : Word) : (g.wrV n l y).parks = g.parks := by
  unfold Group.wrV; split <;> rfl
@[simp] theorem Group.wrV_whole (g : Group) (n l : Nat) (y : Word) : (g.wrV n l y).whole = g.whole := by
  unfold Group.wrV; split <;> rfl
@[simp] theorem Group.wrV_redo (g : Group) (n l : Nat) (y : Word) : (g.wrV n l y).redo = g.redo := by
  unfold Group.wrV; split <;> rfl
@[simp] theorem Group.wrV_atHead (g : Group) (n l : Nat) (y : Word) : (g.wrV n l y).atHead = g.atHead := by
  unfold Group.wrV; split <;> rfl
@[simp] theorem Group.wrV_catchUp (g : Group) (n l : Nat) (y : Word) : (g.wrV n l y).catchUp = g.catchUp := by
  unfold Group.wrV; split <;> rfl
@[simp] theorem Group.wrV_slot (g : Group) (n l : Nat) (y : Word) : (g.wrV n l y).slot = g.slot := by
  unfold Group.wrV; split <;> rfl
@[simp] theorem Group.wrV_pend (g : Group) (n l : Nat) (y : Word) : (g.wrV n l y).pend = g.pend := by
  unfold Group.wrV; split <;> rfl
@[simp] theorem Group.wrV_nextOp (g : Group) (n l : Nat) (y : Word) : (g.wrV n l y).nextOp = g.nextOp := by
  unfold Group.wrV; split <;> rfl
@[simp] theorem Group.wrV_wait (g : Group) (n l : Nat) (y : Word) : (g.wrV n l y).wait = g.wait := by
  unfold Group.wrV; split <;> rfl
@[simp] theorem Group.wrV_icReq (g : Group) (n l : Nat) (y : Word) : (g.wrV n l y).icReq = g.icReq := by
  unfold Group.wrV; split <;> rfl
@[simp] theorem Group.wrV_grant (g : Group) (n l : Nat) (y : Word) : (g.wrV n l y).grant = g.grant := by
  unfold Group.wrV; split <;> rfl
@[simp] theorem Group.wrV_barg (g : Group) (n l : Nat) (y : Word) : (g.wrV n l y).barg = g.barg := by
  unfold Group.wrV; split <;> rfl
@[simp] theorem Group.wrV_starve (g : Group) (n l : Nat) (y : Word) : (g.wrV n l y).starve = g.starve := by
  unfold Group.wrV; split <;> rfl
@[simp] theorem Group.wrV_halted (g : Group) (n l : Nat) (y : Word) : (g.wrV n l y).halted = g.halted := by
  unfold Group.wrV; split <;> rfl
@[simp] theorem Group.wrV_stop (g : Group) (n l : Nat) (y : Word) : (g.wrV n l y).stop = g.stop := by
  unfold Group.wrV; split <;> rfl
@[simp] theorem Group.wrV_insn (g : Group) (n l : Nat) (y : Word) : (g.wrV n l y).insn = g.insn := by
  unfold Group.wrV; split <;> rfl

@[simp] theorem Group.wrP_pc (g : Group) (n : Nat) (y : Lanes) : (g.wrP n y).pc = g.pc := by
  unfold Group.wrP; split <;> rfl
@[simp] theorem Group.wrP_em (g : Group) (n : Nat) (y : Lanes) : (g.wrP n y).em = g.em := by
  unfold Group.wrP; split <;> rfl
@[simp] theorem Group.wrP_exited (g : Group) (n : Nat) (y : Lanes) : (g.wrP n y).exited = g.exited := by
  unfold Group.wrP; split <;> rfl
@[simp] theorem Group.wrP_triggered (g : Group) (n : Nat) (y : Lanes) : (g.wrP n y).triggered = g.triggered := by
  unfold Group.wrP; split <;> rfl
@[simp] theorem Group.wrP_v (g : Group) (n : Nat) (y : Lanes) : (g.wrP n y).v = g.v := by
  unfold Group.wrP; split <;> rfl
@[simp] theorem Group.wrP_s (g : Group) (n : Nat) (y : Lanes) : (g.wrP n y).s = g.s := by
  unfold Group.wrP; split <;> rfl
@[simp] theorem Group.wrP_x (g : Group) (n : Nat) (y : Lanes) : (g.wrP n y).x = g.x := by
  unfold Group.wrP; split <;> rfl
@[simp] theorem Group.wrP_c (g : Group) (n : Nat) (y : Lanes) : (g.wrP n y).c = g.c := by
  unfold Group.wrP; split <;> rfl
@[simp] theorem Group.wrP_nf (g : Group) (n : Nat) (y : Lanes) : (g.wrP n y).nf = g.nf := by
  unfold Group.wrP; split <;> rfl
@[simp] theorem Group.wrP_sf (g : Group) (n : Nat) (y : Lanes) : (g.wrP n y).sf = g.sf := by
  unfold Group.wrP; split <;> rfl
@[simp] theorem Group.wrP_trapPC (g : Group) (n : Nat) (y : Lanes) : (g.wrP n y).trapPC = g.trapPC := by
  unfold Group.wrP; split <;> rfl
@[simp] theorem Group.wrP_trapCause (g : Group) (n : Nat) (y : Lanes) : (g.wrP n y).trapCause = g.trapCause := by
  unfold Group.wrP; split <;> rfl
@[simp] theorem Group.wrP_trapInfo (g : Group) (n : Nat) (y : Lanes) : (g.wrP n y).trapInfo = g.trapInfo := by
  unfold Group.wrP; split <;> rfl
@[simp] theorem Group.wrP_trapAddr (g : Group) (n : Nat) (y : Lanes) : (g.wrP n y).trapAddr = g.trapAddr := by
  unfold Group.wrP; split <;> rfl
@[simp] theorem Group.wrP_trap (g : Group) (n : Nat) (y : Lanes) : (g.wrP n y).trap = g.trap := by
  unfold Group.wrP; split <;> rfl
@[simp] theorem Group.wrP_parks (g : Group) (n : Nat) (y : Lanes) : (g.wrP n y).parks = g.parks := by
  unfold Group.wrP; split <;> rfl
@[simp] theorem Group.wrP_whole (g : Group) (n : Nat) (y : Lanes) : (g.wrP n y).whole = g.whole := by
  unfold Group.wrP; split <;> rfl
@[simp] theorem Group.wrP_redo (g : Group) (n : Nat) (y : Lanes) : (g.wrP n y).redo = g.redo := by
  unfold Group.wrP; split <;> rfl
@[simp] theorem Group.wrP_atHead (g : Group) (n : Nat) (y : Lanes) : (g.wrP n y).atHead = g.atHead := by
  unfold Group.wrP; split <;> rfl
@[simp] theorem Group.wrP_catchUp (g : Group) (n : Nat) (y : Lanes) : (g.wrP n y).catchUp = g.catchUp := by
  unfold Group.wrP; split <;> rfl
@[simp] theorem Group.wrP_slot (g : Group) (n : Nat) (y : Lanes) : (g.wrP n y).slot = g.slot := by
  unfold Group.wrP; split <;> rfl
@[simp] theorem Group.wrP_fast (g : Group) (n : Nat) (y : Lanes) : (g.wrP n y).fast = g.fast := by
  unfold Group.wrP; split <;> rfl
@[simp] theorem Group.wrP_pend (g : Group) (n : Nat) (y : Lanes) : (g.wrP n y).pend = g.pend := by
  unfold Group.wrP; split <;> rfl
@[simp] theorem Group.wrP_nextOp (g : Group) (n : Nat) (y : Lanes) : (g.wrP n y).nextOp = g.nextOp := by
  unfold Group.wrP; split <;> rfl
@[simp] theorem Group.wrP_wait (g : Group) (n : Nat) (y : Lanes) : (g.wrP n y).wait = g.wait := by
  unfold Group.wrP; split <;> rfl
@[simp] theorem Group.wrP_icReq (g : Group) (n : Nat) (y : Lanes) : (g.wrP n y).icReq = g.icReq := by
  unfold Group.wrP; split <;> rfl
@[simp] theorem Group.wrP_grant (g : Group) (n : Nat) (y : Lanes) : (g.wrP n y).grant = g.grant := by
  unfold Group.wrP; split <;> rfl
@[simp] theorem Group.wrP_barg (g : Group) (n : Nat) (y : Lanes) : (g.wrP n y).barg = g.barg := by
  unfold Group.wrP; split <;> rfl
@[simp] theorem Group.wrP_starve (g : Group) (n : Nat) (y : Lanes) : (g.wrP n y).starve = g.starve := by
  unfold Group.wrP; split <;> rfl
@[simp] theorem Group.wrP_halted (g : Group) (n : Nat) (y : Lanes) : (g.wrP n y).halted = g.halted := by
  unfold Group.wrP; split <;> rfl
@[simp] theorem Group.wrP_stop (g : Group) (n : Nat) (y : Lanes) : (g.wrP n y).stop = g.stop := by
  unfold Group.wrP; split <;> rfl
@[simp] theorem Group.wrP_insn (g : Group) (n : Nat) (y : Lanes) : (g.wrP n y).insn = g.insn := by
  unfold Group.wrP; split <;> rfl

@[simp] theorem Group.wrPOn_pc (g : Group) (n : Nat) (m y : Lanes) : (g.wrPOn n m y).pc = g.pc := by simp [Group.wrPOn]
@[simp] theorem Group.wrPOn_em (g : Group) (n : Nat) (m y : Lanes) : (g.wrPOn n m y).em = g.em := by simp [Group.wrPOn]
@[simp] theorem Group.wrPOn_exited (g : Group) (n : Nat) (m y : Lanes) : (g.wrPOn n m y).exited = g.exited := by simp [Group.wrPOn]
@[simp] theorem Group.wrPOn_triggered (g : Group) (n : Nat) (m y : Lanes) : (g.wrPOn n m y).triggered = g.triggered := by simp [Group.wrPOn]
@[simp] theorem Group.wrPOn_v (g : Group) (n : Nat) (m y : Lanes) : (g.wrPOn n m y).v = g.v := by simp [Group.wrPOn]
@[simp] theorem Group.wrPOn_s (g : Group) (n : Nat) (m y : Lanes) : (g.wrPOn n m y).s = g.s := by simp [Group.wrPOn]
@[simp] theorem Group.wrPOn_x (g : Group) (n : Nat) (m y : Lanes) : (g.wrPOn n m y).x = g.x := by simp [Group.wrPOn]
@[simp] theorem Group.wrPOn_c (g : Group) (n : Nat) (m y : Lanes) : (g.wrPOn n m y).c = g.c := by simp [Group.wrPOn]
@[simp] theorem Group.wrPOn_nf (g : Group) (n : Nat) (m y : Lanes) : (g.wrPOn n m y).nf = g.nf := by simp [Group.wrPOn]
@[simp] theorem Group.wrPOn_sf (g : Group) (n : Nat) (m y : Lanes) : (g.wrPOn n m y).sf = g.sf := by simp [Group.wrPOn]
@[simp] theorem Group.wrPOn_trapPC (g : Group) (n : Nat) (m y : Lanes) : (g.wrPOn n m y).trapPC = g.trapPC := by simp [Group.wrPOn]
@[simp] theorem Group.wrPOn_trapCause (g : Group) (n : Nat) (m y : Lanes) : (g.wrPOn n m y).trapCause = g.trapCause := by simp [Group.wrPOn]
@[simp] theorem Group.wrPOn_trapInfo (g : Group) (n : Nat) (m y : Lanes) : (g.wrPOn n m y).trapInfo = g.trapInfo := by simp [Group.wrPOn]
@[simp] theorem Group.wrPOn_trapAddr (g : Group) (n : Nat) (m y : Lanes) : (g.wrPOn n m y).trapAddr = g.trapAddr := by simp [Group.wrPOn]
@[simp] theorem Group.wrPOn_trap (g : Group) (n : Nat) (m y : Lanes) : (g.wrPOn n m y).trap = g.trap := by simp [Group.wrPOn]
@[simp] theorem Group.wrPOn_parks (g : Group) (n : Nat) (m y : Lanes) : (g.wrPOn n m y).parks = g.parks := by simp [Group.wrPOn]
@[simp] theorem Group.wrPOn_whole (g : Group) (n : Nat) (m y : Lanes) : (g.wrPOn n m y).whole = g.whole := by simp [Group.wrPOn]
@[simp] theorem Group.wrPOn_redo (g : Group) (n : Nat) (m y : Lanes) : (g.wrPOn n m y).redo = g.redo := by simp [Group.wrPOn]
@[simp] theorem Group.wrPOn_atHead (g : Group) (n : Nat) (m y : Lanes) : (g.wrPOn n m y).atHead = g.atHead := by simp [Group.wrPOn]
@[simp] theorem Group.wrPOn_catchUp (g : Group) (n : Nat) (m y : Lanes) : (g.wrPOn n m y).catchUp = g.catchUp := by simp [Group.wrPOn]
@[simp] theorem Group.wrPOn_slot (g : Group) (n : Nat) (m y : Lanes) : (g.wrPOn n m y).slot = g.slot := by simp [Group.wrPOn]
@[simp] theorem Group.wrPOn_fast (g : Group) (n : Nat) (m y : Lanes) : (g.wrPOn n m y).fast = g.fast := by simp [Group.wrPOn]
@[simp] theorem Group.wrPOn_pend (g : Group) (n : Nat) (m y : Lanes) : (g.wrPOn n m y).pend = g.pend := by simp [Group.wrPOn]
@[simp] theorem Group.wrPOn_nextOp (g : Group) (n : Nat) (m y : Lanes) : (g.wrPOn n m y).nextOp = g.nextOp := by simp [Group.wrPOn]
@[simp] theorem Group.wrPOn_wait (g : Group) (n : Nat) (m y : Lanes) : (g.wrPOn n m y).wait = g.wait := by simp [Group.wrPOn]
@[simp] theorem Group.wrPOn_icReq (g : Group) (n : Nat) (m y : Lanes) : (g.wrPOn n m y).icReq = g.icReq := by simp [Group.wrPOn]
@[simp] theorem Group.wrPOn_grant (g : Group) (n : Nat) (m y : Lanes) : (g.wrPOn n m y).grant = g.grant := by simp [Group.wrPOn]
@[simp] theorem Group.wrPOn_barg (g : Group) (n : Nat) (m y : Lanes) : (g.wrPOn n m y).barg = g.barg := by simp [Group.wrPOn]
@[simp] theorem Group.wrPOn_starve (g : Group) (n : Nat) (m y : Lanes) : (g.wrPOn n m y).starve = g.starve := by simp [Group.wrPOn]
@[simp] theorem Group.wrPOn_halted (g : Group) (n : Nat) (m y : Lanes) : (g.wrPOn n m y).halted = g.halted := by simp [Group.wrPOn]
@[simp] theorem Group.wrPOn_stop (g : Group) (n : Nat) (m y : Lanes) : (g.wrPOn n m y).stop = g.stop := by simp [Group.wrPOn]
@[simp] theorem Group.wrPOn_insn (g : Group) (n : Nat) (m y : Lanes) : (g.wrPOn n m y).insn = g.insn := by simp [Group.wrPOn]

/-! ### Fields of a team when a group is put back, and of a partition under its updates -/

@[simp] theorem Team.putGroup_part (t : Team) (n : Nat) (g : Group) : (t.putGroup n g).part = t.part := rfl
@[simp] theorem Team.putGroup_spool (t : Team) (n : Nat) (g : Group) : (t.putGroup n g).spool = t.spool := rfl
@[simp] theorem Team.putGroup_pos (t : Team) (n : Nat) (g : Group) : (t.putGroup n g).pos = t.pos := rfl
@[simp] theorem Team.putGroup_record (t : Team) (n : Nat) (g : Group) : (t.putGroup n g).record = t.record := rfl
@[simp] theorem Team.putGroup_teamId (t : Team) (n : Nat) (g : Group) : (t.putGroup n g).teamId = t.teamId := rfl
@[simp] theorem Team.putGroup_gang (t : Team) (n : Nat) (g : Group) : (t.putGroup n g).gang = t.gang := rfl
@[simp] theorem Team.putGroup_gangSz (t : Team) (n : Nat) (g : Group) : (t.putGroup n g).gangSz = t.gangSz := rfl
@[simp] theorem Team.putGroup_gangIdx (t : Team) (n : Nat) (g : Group) : (t.putGroup n g).gangIdx = t.gangIdx := rfl
@[simp] theorem Team.putGroup_core (t : Team) (n : Nat) (g : Group) : (t.putGroup n g).core = t.core := rfl
@[simp] theorem Team.putGroup_base (t : Team) (n : Nat) (g : Group) : (t.putGroup n g).base = t.base := rfl
@[simp] theorem Team.putGroup_token (t : Team) (n : Nat) (g : Group) : (t.putGroup n g).token = t.token := rfl
@[simp] theorem Team.putGroup_scratch (t : Team) (n : Nat) (g : Group) : (t.putGroup n g).scratch = t.scratch := rfl
@[simp] theorem Team.putGroup_bars (t : Team) (n : Nat) (g : Group) : (t.putGroup n g).bars = t.bars := rfl
@[simp] theorem Team.putGroup_engs (t : Team) (n : Nat) (g : Group) : (t.putGroup n g).engs = t.engs := rfl
@[simp] theorem Team.putGroup_nextEng (t : Team) (n : Nat) (g : Group) : (t.putGroup n g).nextEng = t.nextEng := rfl
@[simp] theorem Team.putGroup_arr (t : Team) (n : Nat) (g : Group) : (t.putGroup n g).arr = t.arr := rfl
@[simp] theorem Team.putGroup_image (t : Team) (n : Nat) (g : Group) : (t.putGroup n g).image = t.image := rfl
@[simp] theorem Team.putGroup_imgAt (t : Team) (n : Nat) (g : Group) : (t.putGroup n g).imgAt = t.imgAt := rfl
@[simp] theorem Team.putGroup_st (t : Team) (n : Nat) (g : Group) : (t.putGroup n g).st = t.st := rfl
@[simp] theorem Team.putGroup_why (t : Team) (n : Nat) (g : Group) : (t.putGroup n g).why = t.why := rfl
@[simp] theorem Team.putGroup_coreErr (t : Team) (n : Nat) (g : Group) : (t.putGroup n g).coreErr = t.coreErr := rfl
@[simp] theorem Team.putGroup_abandon (t : Team) (n : Nat) (g : Group) : (t.putGroup n g).abandon = t.abandon := rfl
@[simp] theorem Team.putGroup_nfail (t : Team) (n : Nat) (g : Group) : (t.putGroup n g).nfail = t.nfail := rfl

@[simp] theorem Partition.setSpool_pcfg (p : Partition) (n : Nat) (y : Spool) : (p.setSpool n y).pcfg = p.pcfg := rfl
@[simp] theorem Partition.setSpool_thrdebt (p : Partition) (n : Nat) (y : Spool) : (p.setSpool n y).thrdebt = p.thrdebt := rfl
@[simp] theorem Partition.setSpool_wdlim (p : Partition) (n : Nat) (y : Spool) : (p.setSpool n y).wdlim = p.wdlim := rfl
@[simp] theorem Partition.setSpool_ptroot (p : Partition) (n : Nat) (y : Spool) : (p.setSpool n y).ptroot = p.ptroot := rfl
@[simp] theorem Partition.setSpool_dlcfg (p : Partition) (n : Nat) (y : Spool) : (p.setSpool n y).dlcfg = p.dlcfg := rfl
@[simp] theorem Partition.setSpool_timeval (p : Partition) (n : Nat) (y : Spool) : (p.setSpool n y).timeval = p.timeval := rfl
@[simp] theorem Partition.setSpool_timectl (p : Partition) (n : Nat) (y : Spool) : (p.setSpool n y).timectl = p.timectl := rfl
@[simp] theorem Partition.setSpool_walloff (p : Partition) (n : Nat) (y : Spool) : (p.setSpool n y).walloff = p.walloff := rfl
@[simp] theorem Partition.setSpool_apbase (p : Partition) (n : Nat) (y : Spool) : (p.setSpool n y).apbase = p.apbase := rfl
@[simp] theorem Partition.setSpool_peeracl (p : Partition) (n : Nat) (y : Spool) : (p.setSpool n y).peeracl = p.peeracl := rfl
@[simp] theorem Partition.setSpool_windows (p : Partition) (n : Nat) (y : Spool) : (p.setSpool n y).windows = p.windows := rfl
@[simp] theorem Partition.setSpool_stalestat (p : Partition) (n : Nat) (y : Spool) : (p.setSpool n y).stalestat = p.stalestat := rfl
@[simp] theorem Partition.setSpool_staleref (p : Partition) (n : Nat) (y : Spool) : (p.setSpool n y).staleref = p.staleref := rfl
@[simp] theorem Partition.setSpool_trapcfg (p : Partition) (n : Nat) (y : Spool) : (p.setSpool n y).trapcfg = p.trapcfg := rfl
@[simp] theorem Partition.setSpool_tables (p : Partition) (n : Nat) (y : Spool) : (p.setSpool n y).tables = p.tables := rfl
@[simp] theorem Partition.setSpool_gateSlots (p : Partition) (n : Nat) (y : Spool) : (p.setSpool n y).gateSlots = p.gateSlots := rfl
@[simp] theorem Partition.setSpool_grids (p : Partition) (n : Nat) (y : Spool) : (p.setSpool n y).grids = p.grids := rfl
@[simp] theorem Partition.setSpool_conts (p : Partition) (n : Nat) (y : Spool) : (p.setSpool n y).conts = p.conts := rfl
@[simp] theorem Partition.setSpool_reports (p : Partition) (n : Nat) (y : Spool) : (p.setSpool n y).reports = p.reports := rfl
@[simp] theorem Partition.setSpool_inSlice (p : Partition) (n : Nat) (y : Spool) : (p.setSpool n y).inSlice = p.inSlice := rfl
@[simp] theorem Partition.setSpool_sliceUs (p : Partition) (n : Nat) (y : Spool) : (p.setSpool n y).sliceUs = p.sliceUs := rfl
@[simp] theorem Partition.setSpool_ending (p : Partition) (n : Nat) (y : Spool) : (p.setSpool n y).ending = p.ending := rfl
@[simp] theorem Partition.setSpool_debtNum (p : Partition) (n : Nat) (y : Spool) : (p.setSpool n y).debtNum = p.debtNum := rfl
@[simp] theorem Partition.setSpool_closing (p : Partition) (n : Nat) (y : Spool) : (p.setSpool n y).closing = p.closing := rfl
@[simp] theorem Partition.setSpool_turns (p : Partition) (n : Nat) (y : Spool) : (p.setSpool n y).turns = p.turns := rfl

@[simp] theorem Partition.setTable_pcfg (p : Partition) (n : Nat) (y : Option Table) : (p.setTable n y).pcfg = p.pcfg := rfl
@[simp] theorem Partition.setTable_thrdebt (p : Partition) (n : Nat) (y : Option Table) : (p.setTable n y).thrdebt = p.thrdebt := rfl
@[simp] theorem Partition.setTable_wdlim (p : Partition) (n : Nat) (y : Option Table) : (p.setTable n y).wdlim = p.wdlim := rfl
@[simp] theorem Partition.setTable_ptroot (p : Partition) (n : Nat) (y : Option Table) : (p.setTable n y).ptroot = p.ptroot := rfl
@[simp] theorem Partition.setTable_dlcfg (p : Partition) (n : Nat) (y : Option Table) : (p.setTable n y).dlcfg = p.dlcfg := rfl
@[simp] theorem Partition.setTable_timeval (p : Partition) (n : Nat) (y : Option Table) : (p.setTable n y).timeval = p.timeval := rfl
@[simp] theorem Partition.setTable_timectl (p : Partition) (n : Nat) (y : Option Table) : (p.setTable n y).timectl = p.timectl := rfl
@[simp] theorem Partition.setTable_walloff (p : Partition) (n : Nat) (y : Option Table) : (p.setTable n y).walloff = p.walloff := rfl
@[simp] theorem Partition.setTable_apbase (p : Partition) (n : Nat) (y : Option Table) : (p.setTable n y).apbase = p.apbase := rfl
@[simp] theorem Partition.setTable_peeracl (p : Partition) (n : Nat) (y : Option Table) : (p.setTable n y).peeracl = p.peeracl := rfl
@[simp] theorem Partition.setTable_windows (p : Partition) (n : Nat) (y : Option Table) : (p.setTable n y).windows = p.windows := rfl
@[simp] theorem Partition.setTable_stalestat (p : Partition) (n : Nat) (y : Option Table) : (p.setTable n y).stalestat = p.stalestat := rfl
@[simp] theorem Partition.setTable_staleref (p : Partition) (n : Nat) (y : Option Table) : (p.setTable n y).staleref = p.staleref := rfl
@[simp] theorem Partition.setTable_trapcfg (p : Partition) (n : Nat) (y : Option Table) : (p.setTable n y).trapcfg = p.trapcfg := rfl
@[simp] theorem Partition.setTable_spools (p : Partition) (n : Nat) (y : Option Table) : (p.setTable n y).spools = p.spools := rfl
@[simp] theorem Partition.setTable_gateSlots (p : Partition) (n : Nat) (y : Option Table) : (p.setTable n y).gateSlots = p.gateSlots := rfl
@[simp] theorem Partition.setTable_grids (p : Partition) (n : Nat) (y : Option Table) : (p.setTable n y).grids = p.grids := rfl
@[simp] theorem Partition.setTable_conts (p : Partition) (n : Nat) (y : Option Table) : (p.setTable n y).conts = p.conts := rfl
@[simp] theorem Partition.setTable_reports (p : Partition) (n : Nat) (y : Option Table) : (p.setTable n y).reports = p.reports := rfl
@[simp] theorem Partition.setTable_inSlice (p : Partition) (n : Nat) (y : Option Table) : (p.setTable n y).inSlice = p.inSlice := rfl
@[simp] theorem Partition.setTable_sliceUs (p : Partition) (n : Nat) (y : Option Table) : (p.setTable n y).sliceUs = p.sliceUs := rfl
@[simp] theorem Partition.setTable_ending (p : Partition) (n : Nat) (y : Option Table) : (p.setTable n y).ending = p.ending := rfl
@[simp] theorem Partition.setTable_debtNum (p : Partition) (n : Nat) (y : Option Table) : (p.setTable n y).debtNum = p.debtNum := rfl
@[simp] theorem Partition.setTable_closing (p : Partition) (n : Nat) (y : Option Table) : (p.setTable n y).closing = p.closing := rfl
@[simp] theorem Partition.setTable_turns (p : Partition) (n : Nat) (y : Option Table) : (p.setTable n y).turns = p.turns := rfl

/-! ### Read after write -/

@[simp] theorem State.team_setTeam (s : State) (n : Nat) (x : Option Team) : (s.setTeam n x).team n = x := by
  simp [State.team, State.setTeam]
theorem State.team_setTeam_ne (s : State) {n m : Nat} (x : Option Team) (h : m ≠ n) :
    (s.setTeam n x).team m = s.team m := by
  simp [State.team, State.setTeam, tget_tset_ne _ _ _ h]
@[simp] theorem State.partn_setPartn (s : State) (n : Nat) (x : Partition) : (s.setPartn n x).partn n = x := by
  simp [State.partn, State.setPartn]
theorem State.partn_setPartn_ne (s : State) {n m : Nat} (x : Partition) (h : m ≠ n) :
    (s.setPartn n x).partn m = s.partn m := by
  simp [State.partn, State.setPartn, tget_tset_ne _ _ _ h]
@[simp] theorem State.core_setCore (s : State) (n : Nat) (x : Core) : (s.setCore n x).core n = x := by
  simp [State.core, State.setCore]
@[simp] theorem State.cluster_setCluster (s : State) (n : Nat) (x : Cluster) : (s.setCluster n x).cluster n = x := by
  simp [State.cluster, State.setCluster]
@[simp] theorem State.gate_setGate (s : State) (n : Nat) (x : Gate) : (s.setGate n x).gate n = x := by
  simp [State.gate, State.setGate]
@[simp] theorem Partition.spool_setSpool (p : Partition) (n : Nat) (x : Spool) : (p.setSpool n x).spool n = x := by
  simp [Partition.spool, Partition.setSpool]
@[simp] theorem Partition.held_setTable (p : Partition) (n : Nat) (x : Option Table) : (p.setTable n x).held n = x := by
  simp [Partition.held, Partition.setTable]
theorem Partition.table_setTable (p : Partition) {n : Nat} (x : Option Table) (h : n ∉ p.closing) :
    (p.setTable n x).table n = x := by
  simp [Partition.table, h]
@[simp] theorem State.held_setTable (s : State) (n m : Nat) (x : Option Table) : (s.setTable n m x).held n m = x := by
  simp [State.held, State.setTable]
theorem State.table_setTable (s : State) {n m : Nat} (x : Option Table) (h : m ∉ (s.partn n).closing) :
    (s.setTable n m x).table n m = x := by
  simp [State.table, State.setTable, Partition.table_setTable _ _ h]

@[simp] theorem State.team_setPartn (s : State) (n m : Nat) (x : Partition) : (s.setPartn n x).team m = s.team m := rfl
@[simp] theorem State.group_setPartn (s : State) (n : Nat) (x : Partition) (r : GRef) :
    (s.setPartn n x).group r = s.group r := rfl
@[simp] theorem State.partn_setTeam (s : State) (n m : Nat) (x : Option Team) : (s.setTeam n x).partn m = s.partn m := rfl
@[simp] theorem State.core_setTeam (s : State) (n m : Nat) (x : Option Team) : (s.setTeam n x).core m = s.core m := rfl
@[simp] theorem State.core_setPartn (s : State) (n m : Nat) (x : Partition) : (s.setPartn n x).core m = s.core m := rfl
@[simp] theorem State.team_report (s : State) (n m : Nat) (x : List (BitVec 256)) : (s.report n x).team m = s.team m := rfl
@[simp] theorem State.group_report (s : State) (n : Nat) (x : List (BitVec 256)) (r : GRef) :
    (s.report n x).group r = s.group r := rfl

@[simp] theorem Group.rdS_wrS (g : Group) (n : Nat) (y : DWord) : (g.wrS n y).rdS n = y := by
  simp [Group.rdS, Group.wrS]
theorem Group.rdS_wrS_ne (g : Group) {n m : Nat} (y : DWord) (h : m ≠ n) : (g.wrS n y).rdS m = g.rdS m := by
  simp [Group.rdS, Group.wrS, tget_tset_ne _ _ _ h]
theorem Group.rdP_wrP (g : Group) {n : Nat} (y : Lanes) (h : n ≠ 7) : (g.wrP n y).rdP n = y := by
  simp [Group.rdP, Group.wrP, h]
theorem Group.rdP_wrP_ne (g : Group) {n m : Nat} (y : Lanes) (h : m ≠ n) : (g.wrP n y).rdP m = g.rdP m := by
  unfold Group.rdP Group.wrP
  by_cases h7 : n = 7
  · simp [h7]
  · by_cases hm : m = 7 <;> simp [h7, hm, tget_tset_ne _ _ _ h]
@[simp] theorem Group.rdX_wrX (g : Group) (n l : Nat) (y : Word) : (g.wrX n l y).rdX n l = y &&& 0x3FFFFFFF := by
  simp [Group.rdX, Group.wrX]
@[simp] theorem Group.rdC_wrC (g : Group) (n l : Nat) (y : Cursor) : (g.wrC n l y).rdC n l = y := by
  simp [Group.rdC, Group.wrC]

@[simp] theorem Group.inWs_wrV (g : Group) (n l m : Nat) (y : Word) : (g.wrV n l y).inWs m = g.inWs m := by
  simp [Group.inWs]
@[simp] theorem Group.rdV_wrV (g : Group) (n l : Nat) (y : Word) : (g.wrV n l y).rdV n l = y := by
  unfold Group.rdV
  rw [Group.inWs_wrV]
  unfold Group.wrV
  split <;> simp
/-- A write of one lane of one register leaves every other alone. -/
theorem Group.rdV_wrV_ne (g : Group) {n l n' l' : Nat} (y : Word) (hl : l < 32) (hl' : l' < 32)
    (h : n' ≠ n ∨ l' ≠ l) : (g.wrV n l y).rdV n' l' = g.rdV n' l' := by
  have hk : 32 * n' + l' ≠ 32 * n + l := by omega
  unfold Group.rdV
  rw [Group.inWs_wrV]
  unfold Group.wrV
  split <;> split <;> simp [tget_tset_ne _ _ _ hk]
@[simp] theorem Group.rdV_wrS (g : Group) (n l m : Nat) (y : DWord) : (g.wrS m y).rdV n l = g.rdV n l := by
  simp [Group.rdV, Group.inWs]
@[simp] theorem Group.rdV_orNF (g : Group) (n l : Nat) (y : Word) : (g.orNF y).rdV n l = g.rdV n l := by
  simp [Group.rdV, Group.inWs]
@[simp] theorem Group.rdS_wrV (g : Group) (n l m : Nat) (y : Word) : (g.wrV n l y).rdS m = g.rdS m := by
  simp [Group.rdS]
@[simp] theorem Group.rdP_wrV (g : Group) (n l m : Nat) (y : Word) : (g.wrV n l y).rdP m = g.rdP m := by
  simp [Group.rdP]

/-- The team of a group. -/
theorem State.team_of_group {s : State} {r : GRef} {t : Team} {g : Group} (h : s.group r = some (t, g)) :
    s.team r.team = some t ∧ t.groups[r.grp]? = some g := by
  unfold State.group at h
  split at h
  · cases h
  · split at h
    · cases h
    · cases h; exact ⟨‹_›, ‹_›⟩

/-- A group that its team holds is read back after it is put. -/
theorem State.group_putGroup (s : State) (r : GRef) (g : Group) {t : Team} {g0 : Group} (h : s.group r = some (t, g0)) :
    (s.putGroup r g).group r = some (t.putGroup r.grp g, g) := by
  obtain ⟨ht, hg⟩ := State.team_of_group h
  have hl : r.grp < t.groups.length := (List.getElem?_eq_some_iff.mp hg).1
  simp [State.putGroup, ht, State.group, Team.putGroup, hl]

end Sys2Proof.Machine
end

