-- ==== Sys2Proof/Laws/Registers.lean ====
section
/-! SUPPORT. Vector registers: read after write of runs of registers and of whole lane masks. -/

namespace Sys2Proof.Machine

/-! ### Runs of registers in one lane -/

/-- A run of registers written in one lane leaves every register outside it alone. -/
theorem Group.rdV_wrN_out (l : Nat) (hl : l < 32) : ∀ (k : Nat) (g : Group) (n v n' l' : Nat), l' < 32 →
    (l' ≠ l ∨ n' < n ∨ n + k ≤ n') → (g.wrN n l v k).rdV n' l' = g.rdV n' l' := by
  intro k
  induction k with
  | zero => intros; rfl
  | succ k ih =>
    intro g n v n' l' hl' h
    rw [Group.wrN, ih _ _ _ _ _ hl' (by omega), Group.rdV_wrV_ne _ _ hl hl' (by omega)]

/-- A run of registers read depends on these registers only. -/
theorem Group.rdN_congr (l : Nat) (g h : Group) : ∀ (k n : Nat), (∀ i, n ≤ i → i < n + k → g.rdV i l = h.rdV i l) →
    g.rdN n l k = h.rdN n l k := by
  intro k
  induction k with
  | zero => intros; rfl
  | succ k ih =>
    intro n hh
    rw [Group.rdN, Group.rdN, hh n (Nat.le_refl n) (by omega), ih (n + 1) fun i h1 h2 => hh i (by omega) (by omega)]

/-- Reading back a run of registers: the low 32 bits of each. -/
theorem Group.rdN_wrN (l : Nat) (hl : l < 32) : ∀ (k : Nat) (g : Group) (n v : Nat),
    (g.wrN n l v k).rdN n l k = v % 2 ^ (32 * k) := by
  intro k
  induction k with
  | zero => intro g n v; simp [Group.rdN, Nat.mod_one]
  | succ k ih =>
    intro g n v
    rw [Group.wrN, Group.rdN, ih, Group.rdV_wrN_out l hl k _ _ _ _ _ hl (by omega), Group.rdV_wrV, BitVec.toNat_ofNat,
      show 32 * (k + 1) = 32 + 32 * k by ring, pow_add, Nat.mod_mul]

/-! ### Fields that lane writes leave alone -/

/-- What a run of registers written in one lane leaves alone: all but the register files. -/
theorem Group.wrN_fields (l : Nat) : ∀ (k : Nat) (g : Group) (n v : Nat), ∃ V F, g.wrN n l v k = { g with v := V, fast := F } := by
  intro k
  induction k with
  | zero => intro g n v; exact ⟨g.v, g.fast, rfl⟩
  | succ k ih =>
    intro g n v
    obtain ⟨V, F, h⟩ := ih (g.wrV n l (BitVec.ofNat 32 v)) (n + 1) (v / 2 ^ 32)
    refine ⟨V, F, ?_⟩
    rw [Group.wrN, h]
    unfold Group.wrV
    split <;> rfl

/-- A fold of lane writes changes nothing but the register files. -/
theorem Group.foldWrN_fields (f : Nat → Nat) (v : Nat → Nat) (k : Nat) : ∀ (ls : List Nat) (g : Group),
    ∃ V F, ls.foldl (fun h l => h.wrN (f l) l (v l) k) g = { g with v := V, fast := F } := by
  intro ls
  induction ls with
  | nil => intro g; exact ⟨g.v, g.fast, rfl⟩
  | cons l ls ih =>
    intro g
    obtain ⟨V, F, h⟩ := Group.wrN_fields l k g (f l) (v l)
    obtain ⟨V', F', h'⟩ := ih (g.wrN (f l) l (v l) k)
    exact ⟨V', F', by rw [List.foldl_cons, h', h]⟩

theorem Group.wrLanes_fields (g : Group) (m : Lanes) (d : VOp) (k : Nat) (f : Nat → Nat) :
    ∃ V F, g.wrLanes m d k f = { g with v := V, fast := F } :=
  Group.foldWrN_fields (fun l => g.reg d l) f k _ g

theorem mem_laneList {m : Lanes} {l : Nat} : l ∈ laneList m ↔ l < 32 ∧ m.getLsbD l = true := by
  simp [laneList]

theorem nodup_laneList (m : Lanes) : (laneList m).Nodup := List.Nodup.filter _ List.nodup_range

/-- A fold of lane writes leaves alone every register that no lane writes. -/
theorem Group.rdV_foldWrN_out (f v : Nat → Nat) (k : Nat) : ∀ (ls : List Nat) (g : Group) (n' l' : Nat),
    (∀ l ∈ ls, l < 32) → l' < 32 → (l' ∉ ls ∨ n' < f l' ∨ f l' + k ≤ n') →
    (ls.foldl (fun h l => h.wrN (f l) l (v l) k) g).rdV n' l' = g.rdV n' l' := by
  intro ls
  induction ls with
  | nil => intros; rfl
  | cons l ls ih =>
    intro g n' l' hls hl' h
    rw [List.foldl_cons, ih _ _ _ (fun x hx => hls x (List.mem_cons_of_mem _ hx)) hl' (by
      rcases h with h | h
      · exact .inl fun hh => h (List.mem_cons_of_mem _ hh)
      · exact .inr h)]
    apply Group.rdV_wrN_out l (hls l (List.mem_cons_self ..)) k _ _ _ _ _ hl'
    by_cases e : l' = l
    · subst e
      rcases h with h | h
      · exact absurd (List.mem_cons_self ..) h
      · exact .inr h
    · exact .inl e

/-- Reading back what a lane of a fold of lane writes has written. -/
theorem Group.rdN_foldWrN (f v : Nat → Nat) (k : Nat) : ∀ (ls : List Nat) (g : Group) (l : Nat),
    (∀ l ∈ ls, l < 32) → ls.Nodup → l ∈ ls →
    (ls.foldl (fun h l => h.wrN (f l) l (v l) k) g).rdN (f l) l k = v l % 2 ^ (32 * k) := by
  intro ls
  induction ls with
  | nil => intro _ _ _ _ h; cases h
  | cons a ls ih =>
    intro g l hls hnd hl
    have hl32 := hls l hl
    rw [List.nodup_cons] at hnd
    rw [List.foldl_cons]
    rcases List.mem_cons.mp hl with rfl | hl'
    · rw [← Group.rdN_wrN l hl32 k g (f l) (v l)]
      refine Group.rdN_congr l _ _ k _ fun i _ _ => ?_
      exact Group.rdV_foldWrN_out f v k ls _ i l (fun x hx => hls x (List.mem_cons_of_mem _ hx)) hl32 (.inl hnd.1)
    · exact ih _ _ (fun x hx => hls x (List.mem_cons_of_mem _ hx)) hnd.2 hl'

/-- A lane that takes part reads back its result. -/
theorem Group.rdN_wrLanes (g : Group) {m : Lanes} (d : VOp) (k : Nat) (f : Nat → Nat) {l : Nat} (hl : l < 32)
    (hm : m.getLsbD l = true) : (g.wrLanes m d k f).rdN (g.reg d l) l k = f l % 2 ^ (32 * k) :=
  Group.rdN_foldWrN (fun l => g.reg d l) f k _ g l (fun _ h => (mem_laneList.mp h).1) (nodup_laneList m)
    (mem_laneList.mpr ⟨hl, hm⟩)

/-- Registers that no lane of the mask writes keep their values. -/
theorem Group.rdV_wrLanes_out (g : Group) {m : Lanes} (d : VOp) (k : Nat) (f : Nat → Nat) {n l : Nat} (hl : l < 32)
    (h : m.getLsbD l = true → n < g.reg d l ∨ g.reg d l + k ≤ n) : (g.wrLanes m d k f).rdV n l = g.rdV n l := by
  refine Group.rdV_foldWrN_out (fun l => g.reg d l) f k _ g n l (fun _ h => (mem_laneList.mp h).1) hl ?_
  by_cases hm : m.getLsbD l = true
  · exact .inr (h hm)
  · exact .inl fun hh => hm (mem_laneList.mp hh).2

/-- Index registers written in every lane of a mask. -/
theorem Iss.wrXs_fields (x : Iss) (d : BitVec 3) (f : Nat → Word) : ∃ X, x.wrXs d f = { x.g with x := X } := by
  unfold Iss.wrXs
  generalize x.g = g
  induction laneList x.act generalizing g with
  | nil => exact ⟨g.x, rfl⟩
  | cons l ls ih =>
    obtain ⟨X, h⟩ := ih (g.wrX d.toNat l (f l))
    exact ⟨X, by rw [List.foldl_cons, h]; rfl⟩

end Sys2Proof.Machine
end

