-- ==== Sys2Proof/Laws/Issue.lean ====
section
/-! SUPPORT. The frame in which every group instruction executes: what an issue without faults does, once for all. -/

namespace Sys2Proof.Machine

/-- A team that holds group `k`. -/
theorem lt_of_group {s : State} {r : GRef} {t : Team} {g : Group} (h : s.group r = some (t, g)) :
    r.grp < t.groups.length := (List.getElem?_eq_some_iff.mp (State.team_of_group h).2).1

theorem least_eq_none {l : List Nat} : least l = none ↔ l = [] := by
  cases l with
  | nil => simp [least]
  | cons a r => simp only [least, reduceCtorEq, iff_false]; split <;> simp

/-- The issue of a group instruction before its own effect. -/
def Iss.start (r : GRef) (t : Team) (g : Group) (i : Instr) : Iss :=
  { r := r, t := t, g := g, i := i, act := g.takingPart i, nf := [], rf := [] }

/-- With no register fault in a lane that takes part, the issue begins with all of them and without faults. -/
theorem startIss_issues {s : State} {r : GRef} {t : Team} {g : Group} {i : Instr} (h : Issues s r t g i) :
    startIss s r t g i = Iss.start r t g i := by
  unfold startIss
  have hm : ∀ l ∈ laneList (g.takingPart i), g.regFault (t.budget r.grp) l (i.uses ++ s.keyUses t g i) = none :=
    fun l hl => h.regs l (mem_laneList.mp hl).1 (mem_laneList.mp hl).2
  generalize laneList (g.takingPart i) = ls at hm
  change _ = ({ r := r, t := t, g := g, i := i, act := g.takingPart i, nf := [], rf := [] } : Iss)
  generalize ({ r := r, t := t, g := g, i := i, act := g.takingPart i, nf := [], rf := [] } : Iss) = x
  induction ls with
  | nil => rfl
  | cons l ls ih =>
    simp only [List.foldl_cons, hm l (List.mem_cons_self ..)]
    exact ih fun a ha => hm a (List.mem_cons_of_mem _ ha)

/-- A group instruction that issues without a trap executes its own effect on all the lanes that take part. -/
theorem onGroup_issues {s : State} {r : GRef} {t : Team} {g : Group} {i : Instr} (h : Issues s r t g i)
    (k : State → Iss → State) :
    onGroup i s k = .next (k s (Iss.start r t g i)) := by
  have hc : s.curGroup = some (r, t, g) := by simp [State.curGroup, h.cur, h.grp]
  simp [onGroup, hc, h.subs, least, startIss_issues h]

theorem tput_tput {α : Type} (m : List (Nat × α)) (i : Nat) (a b : α) : tput (tput m i a) i b = tput m i b := by
  induction m with
  | nil => simp [tput]
  | cons c r ih =>
    obtain ⟨k, w⟩ := c
    simp only [tput]
    split
    · simp [tput]
    · split
      · simp [tput]
      · simp_all [tput]

/-- The later of two writes of one team stands. -/
theorem State.setTeam_setTeam (s : State) (n : Nat) (a b : Team) :
    (s.setTeam n (some a)).setTeam n (some b) = s.setTeam n (some b) := by
  simp [State.setTeam, tset, tput_tput]

theorem Team.passMx_eq (t : Team) (k : Nat) : ∃ a, t.passMx k = { t with arr := a } := by
  unfold Team.passMx
  split
  · exact ⟨t.arr, rfl⟩
  · split
    · split
      · exact ⟨_, rfl⟩
      · exact ⟨t.arr, rfl⟩
    · exact ⟨t.arr, rfl⟩

theorem Team.dropToken_eq (t : Team) (k : Nat) : ∃ n, t.dropToken k = { t with token := n } := by
  unfold Team.dropToken
  split
  · exact ⟨_, rfl⟩
  · exact ⟨t.token, rfl⟩

theorem Team.abandonStream_eq (t : Team) : ∃ a b, t.abandonStream = { t with arr := a, abandon := b } := by
  unfold Team.abandonStream
  split
  · split
    · exact ⟨_, _, rfl⟩
    · exact ⟨t.arr, t.abandon, rfl⟩
  · exact ⟨t.arr, t.abandon, rfl⟩

/-- After a group has ended only the token and the stream with the group that it serves may differ. -/
theorem Team.afterEnd_eq (t : Team) (k : Nat) : ∃ n a b, t.afterEnd k = { t with token := n, arr := a, abandon := b } := by
  unfold Team.afterEnd
  split
  · exact ⟨t.token, t.arr, t.abandon, rfl⟩
  · split
    · obtain ⟨n, hn⟩ := t.dropToken_eq k
      obtain ⟨a, ha⟩ := (t.dropToken k).passMx_eq k
      obtain ⟨c, b, hc⟩ := ((t.dropToken k).passMx k).abandonStream_eq
      exact ⟨n, c, b, by rw [hc, ha, hn]⟩
    · exact ⟨t.token, t.arr, t.abandon, rfl⟩

theorem Team.afterEnd_groups (t : Team) (k : Nat) : (t.afterEnd k).groups = t.groups := by
  obtain ⟨n, a, b, h⟩ := t.afterEnd_eq k
  rw [h]

theorem Team.afterEnd_live (t : Team) (k : Nat) {g : Group} (h : t.groups[k]? = some g) (he : g.ended = false) :
    t.afterEnd k = t := by
  unfold Team.afterEnd
  simp [h, he]

theorem Team.afterEnd_rest (t : Team) (k : Nat) :
    t.afterEnd k =
      { t with token := (t.afterEnd k).token, arr := (t.afterEnd k).arr, abandon := (t.afterEnd k).abandon } := by
  obtain ⟨n, a, b, h⟩ := t.afterEnd_eq k
  rw [h]

/-- What an issue without faults comes to: the team with its group as issued, and the hand-over if the group has ended. -/
theorem Iss.finishAt_clean (x : Iss) (s : State) (pc : Word) (hn : x.nf = []) (hr : x.rf = []) :
    x.finishAt s pc = s.setTeam x.r.team (some ((x.t.putGroup x.r.grp (x.issued pc)).afterEnd x.r.grp)) := by
  simp [Iss.finishAt, hn, hr, State.takeFaults, State.putGroup, State.afterEnd, State.setTeam_setTeam]

theorem Iss.clearRs_fields (x : Iss) : ∃ S, x.clearRs = { x.g with slot := S } := by
  unfold Iss.clearRs
  split
  · split
    · exact ⟨_, rfl⟩
    · exact ⟨x.g.slot, rfl⟩
  · exact ⟨x.g.slot, rfl⟩

/-- The working set is left alone when the restartable bit is cleared. -/
theorem Iss.clearRs_inWs (x : Iss) (n : Nat) : x.clearRs.inWs n = x.g.inWs n := by
  unfold Iss.clearRs
  split
  · rename_i sl hs
    split <;> simp [Group.inWs, hs]
  · rfl

/-- The fields of the group as issued that an instruction's own effect does not decide. -/
theorem Iss.issued_fields (x : Iss) (pc : Word) : ∃ S W, x.issued pc =
    { x.g with pc := pc, slot := S, redo := none, starve := 0, wait := W, grant := none } := by
  obtain ⟨S, hS⟩ := x.clearRs_fields
  refine ⟨S, (x.issued pc).wait, ?_⟩
  unfold Iss.issued
  rw [hS]

theorem Iss.issued_rdV (x : Iss) (pc : Word) (n l : Nat) : (x.issued pc).rdV n l = x.g.rdV n l := by
  have hw : (x.issued pc).inWs n = x.g.inWs n := by
    rw [← x.clearRs_inWs n]
    unfold Iss.issued Group.inWs
    rfl
  obtain ⟨S, W, h⟩ := x.issued_fields pc
  unfold Group.rdV
  rw [hw, h]

theorem Iss.issued_rdN (x : Iss) (pc : Word) (n l k : Nat) : (x.issued pc).rdN n l k = x.g.rdN n l k :=
  Group.rdN_congr l _ _ k n fun i _ _ => x.issued_rdV pc i l

/-- The general completion of an issue: a group instruction that issues without a trap and without faults of its own
changes only its team, there only its group, and the group is the one that its effect leaves, with the program counter
moved. -/
theorem completes_of_finishAt {s : State} {r : GRef} {t : Team} {g : Group} {i : Instr} (h : Issues s r t g i)
    {x : Iss} (hx : x.r = r) (ht : x.t = t) (hn : x.nf = []) (hr : x.rf = []) {pc : Word} {P : Group → Prop}
    (he : exec i s = .next (x.finishAt s pc)) (hp : P (x.issued pc)) : Completes s r t i pc P := by
  subst hx ht
  have hlt := lt_of_group h.grp
  refine ⟨_, (x.t.putGroup x.r.grp (x.issued pc)).afterEnd x.r.grp, x.issued pc, he, ?_, ?_, ?_, ?_, hp⟩
  · rw [Iss.finishAt_clean x s pc hn hr]
    simp [State.group, Team.afterEnd_groups, Team.putGroup, hlt]
  · rw [Iss.finishAt_clean x s pc hn hr]
    simp [OnlyTeam]
  · refine ⟨fun j hj => ?_, ?_, fun hl => ?_⟩
    · have hj' : x.r.grp ≠ j := fun e => hj e.symm
      simp [Team.afterEnd_groups, Team.putGroup, hj']
    · rw [Team.afterEnd_rest]; rfl
    · have hg : (x.t.putGroup x.r.grp (x.issued pc)).groups[x.r.grp]? = some (x.issued pc) := by
        simp [Team.putGroup, hlt]
      rw [Team.afterEnd_live _ _ hg (hl _ (by rw [Team.afterEnd_groups]; exact hg))]
      exact ⟨rfl, rfl, rfl⟩
  · obtain ⟨S, W, hh⟩ := x.issued_fields pc
    rw [hh]

/-- A lane instruction completes: its group is as `k` leaves it. -/
theorem completes_lanesOp {s : State} {r : GRef} {t : Team} {g : Group} {i : Instr} (h : Issues s r t g i)
    {k : Iss → Group} (he : exec i s = onLanesOp i s k) (hk : (k (Iss.start r t g i)).pc = g.pc) {P : Group → Prop}
    (hp : P (Iss.issued { Iss.start r t g i with g := k (Iss.start r t g i) } (g.after i))) :
    Completes s r t i (g.after i) P := by
  refine completes_of_finishAt h (x := { Iss.start r t g i with g := k (Iss.start r t g i) }) rfl rfl rfl rfl ?_ hp
  rw [he, onLanesOp, onGroup_issues h]
  unfold Iss.finish Iss.next
  have hk' : ({ Iss.start r t g i with g := k (Iss.start r t g i) } : Iss).g.pc = g.pc := hk
  rw [hk']
  rfl

end Sys2Proof.Machine
end

