-- ==== Sys2Proof/Laws/Lanes.lean ====
section
/-! SUPPORT. What the lane moulds of Machine/Flags.lean do, once for all: the result registers of every lane that takes
part, the flags, and nothing else. -/

namespace Sys2Proof.Machine

theorem Still.of_fields {g g' : Group} {a : Word} {b : Lanes} {S : Option Slot} {e : Option Redo} {n : Nat}
    {W : GWait} {gr : Option Nat} {V F X : List (Nat × Word)} {sc : List (Nat × DWord)} {P : List (Nat × Lanes)} {w : Word}
    (h : g' = { g with pc := a, em := b, slot := S, redo := e, starve := n, wait := W, grant := gr, v := V, fast := F,
                       x := X, s := sc, p := P, nf := w }) : Still g g' := by
  subst h
  exact ⟨rfl, rfl, rfl, rfl, ⟨rfl, rfl, rfl, rfl⟩, rfl, ⟨rfl, rfl, rfl, rfl⟩, ⟨rfl, rfl⟩, ⟨rfl, rfl⟩⟩

/-- A lane instruction whose effect is a write of `n` registers in each lane that takes part, and flags. -/
theorem completes_wrLanes {s : State} {r : GRef} {t : Team} {g : Group} {i : Instr} (h : Issues s r t g i)
    {k : Iss → Group} (he : exec i s = onLanesOp i s k) {d : VOp} {n : Nat} {f : Nat → Nat} {w : Word}
    (hk : k (Iss.start r t g i) = (g.wrLanes (g.takingPart i) d n f).orNF w) :
    Completes s r t i (g.after i) fun g' =>
      LaneResult g g' i d n (fun l => f l % 2 ^ (32 * n)) ∧ Keeps g g' true false false false true ∧
        g'.nf = g.nf ||| w := by
  obtain ⟨V, F, hw⟩ := g.wrLanes_fields (g.takingPart i) d n f
  refine completes_lanesOp h he (by rw [hk, hw]; rfl) ?_
  obtain ⟨S, W, hi⟩ := ({ Iss.start r t g i with g := k (Iss.start r t g i) } : Iss).issued_fields (g.after i)
  have hg : ({ Iss.start r t g i with g := k (Iss.start r t g i) } : Iss).g = (g.wrLanes (g.takingPart i) d n f).orNF w := hk
  refine ⟨⟨fun l hl hm => ?_, fun m l hl hm => ?_⟩, ⟨by simp, fun _ => ?_, fun _ => ?_, fun _ => ?_, by simp, ?_, ?_, ?_⟩, ?_⟩
  · rw [Iss.issued_rdN, hg, ← Group.rdN_wrLanes g d n f hl hm]
    exact Group.rdN_congr l _ _ n _ fun j _ _ => by rw [Group.rdV_orNF]
  · rw [Iss.issued_rdV, hg, Group.rdV_orNF, Group.rdV_wrLanes_out g d n f hl hm]
  · rw [hi, hg, hw]; rfl
  · rw [hi, hg, hw]; rfl
  · rw [hi, hg, hw]; rfl
  · rw [hi, hg, hw]; rfl
  · rw [hi, hg, hw]; simp
  · rw [hi, hg, hw]; exact Still.of_fields rfl
  · rw [hi, hg, hw]; rfl

/-- A lane instruction whose effect is a write of one scalar register, and flags. -/
theorem completes_wrS {s : State} {r : GRef} {t : Team} {g : Group} {i : Instr} (h : Issues s r t g i)
    {k : Iss → Group} (he : exec i s = onLanesOp i s k) {n : Nat} {v : DWord} {w : Word}
    (hk : k (Iss.start r t g i) = (g.wrS n v).orNF w) :
    Completes s r t i (g.after i) fun g' =>
      ScalarResult g g' n v ∧ Keeps g g' false true false false true ∧ g'.nf = g.nf ||| w := by
  refine completes_lanesOp h he (by rw [hk]; rfl) ?_
  obtain ⟨S, W, hi⟩ := ({ Iss.start r t g i with g := k (Iss.start r t g i) } : Iss).issued_fields (g.after i)
  have hg : ({ Iss.start r t g i with g := k (Iss.start r t g i) } : Iss).g = (g.wrS n v).orNF w := hk
  refine ⟨⟨?_, fun m hm => ?_⟩, ⟨fun _ m l hl => ?_, by simp, fun _ => ?_, fun _ => ?_, by simp, ?_, ?_, ?_⟩, ?_⟩
  · rw [hi, hg]; exact Group.rdS_wrS g n v
  · rw [hi, hg]; exact Group.rdS_wrS_ne g v hm
  · rw [Iss.issued_rdV, hg]; simp
  · rw [hi, hg]; rfl
  · rw [hi, hg]; rfl
  · rw [hi, hg]; rfl
  · rw [hi, hg]; simp
  · rw [hi, hg]; exact Still.of_fields rfl
  · rw [hi, hg]; rfl

theorem lanesOf_getLsbD {ls : List Nat} (h : ∀ l ∈ ls, l < 32) {l : Nat} (hl : l < 32) :
    (lanesOf ls).getLsbD l = decide (l ∈ ls) := by
  have key : ∀ (ls : List Nat) (m : Lanes), (∀ l ∈ ls, l < 32) →
      (ls.foldl (fun m l => m ||| lane1 l) m).getLsbD l = (m.getLsbD l || decide (l ∈ ls)) := by
    intro ls
    induction ls with
    | nil => intro m _; simp
    | cons a ls ih =>
      intro m hls
      rw [List.foldl_cons, ih _ fun x hx => hls x (List.mem_cons_of_mem _ hx)]
      have h1 : (lane1 a).getLsbD l = decide (l = a) := by
        rw [lane1, BitVec.getLsbD_ofNat, Nat.testBit_two_pow]
        simp only [hl, decide_true, Bool.true_and, eq_comm]
      simp only [BitVec.getLsbD_or, h1, Bool.or_assoc, List.mem_cons, Bool.decide_or]
  simpa [lanesOf] using key ls 0 h

theorem lanesWhere_getLsbD (m : Lanes) (f : Nat → Bool) {l : Nat} (hl : l < 32) :
    (lanesWhere m f).getLsbD l = (m.getLsbD l && f l) := by
  unfold lanesWhere
  rw [lanesOf_getLsbD (fun l h => (mem_laneList.mp (List.mem_filter.mp h).1).1) hl]
  simp [mem_laneList, hl]

/-- A lane instruction whose effect is a predicate in each lane that takes part, and flags. -/
theorem completes_wrPOn {s : State} {r : GRef} {t : Team} {g : Group} {i : Instr} (h : Issues s r t g i)
    {k : Iss → Group} (he : exec i s = onLanesOp i s k) {n : Nat} (hn : n ≠ 7) {m : Lanes} {f : Nat → Bool} {w : Word}
    (hm : ∀ l, l < 32 → (g.takingPart i).getLsbD l = true → m.getLsbD l = f l)
    (hk : k (Iss.start r t g i) = (g.wrPOn n (g.takingPart i) m).orNF w) :
    Completes s r t i (g.after i) fun g' =>
      PredResult g g' i n f ∧ Keeps g g' false false true false true ∧ g'.nf = g.nf ||| w := by
  have hp : (g.wrPOn n (g.takingPart i) m) = { g with p := (g.wrPOn n (g.takingPart i) m).p } := by
    simp [Group.wrPOn, Group.wrP, hn]
  refine completes_lanesOp h he (by rw [hk, hp]; rfl) ?_
  obtain ⟨S, W, hi⟩ := ({ Iss.start r t g i with g := k (Iss.start r t g i) } : Iss).issued_fields (g.after i)
  have hg : ({ Iss.start r t g i with g := k (Iss.start r t g i) } : Iss).g =
      (g.wrPOn n (g.takingPart i) m).orNF w := hk
  refine ⟨⟨fun l hl => ?_, fun a ha => ?_⟩, ⟨fun _ m l hl => ?_, fun _ => ?_, by simp, fun _ => ?_, by simp, ?_, ?_, ?_⟩, ?_⟩
  · have : (Iss.issued { Iss.start r t g i with g := k (Iss.start r t g i) } (g.after i)).rdP n =
        (g.wrPOn n (g.takingPart i) m).rdP n := by rw [hi, hg]; rfl
    rw [this, Group.wrPOn, Group.rdP_wrP _ _ hn]
    simp only [BitVec.getLsbD_or, BitVec.getLsbD_and, BitVec.getLsbD_not, hl, decide_true, Bool.true_and]
    cases ht : (g.takingPart i).getLsbD l with
    | true => simp only [Bool.not_true, Bool.and_false, Bool.false_or, Bool.and_true, if_true, hm l hl ht]
    | false => simp
  · have : (Iss.issued { Iss.start r t g i with g := k (Iss.start r t g i) } (g.after i)).rdP a =
        (g.wrPOn n (g.takingPart i) m).rdP a := by rw [hi, hg]; rfl
    rw [this, Group.wrPOn, Group.rdP_wrP_ne _ _ ha]
  · rw [Iss.issued_rdV, hg, hp]; rfl
  · rw [hi, hg, hp]; rfl
  · rw [hi, hg, hp]; rfl
  · rw [hi, hg, hp]; rfl
  · rw [hi, hg, hp]; simp
  · rw [hi, hg, hp]; exact Still.of_fields rfl
  · rw [hi, hg, hp]; rfl

end Sys2Proof.Machine
end

