-- ==== Sys2Proof/Laws/Memory.lean ====
section
/-! SUPPORT. Every operation over the device's memory keeps its canonical form, and reset memory has it; and read after
write for one byte. -/

namespace Sys2Proof.Machine

theorem State.reset_memWf : State.reset.memWf := rfl

/-- A state with the same memory has the same form. -/
theorem State.memWf_of_mem {s s' : State} (h : s'.mem = s.mem) (w : s.memWf) : s'.memWf := by
  unfold State.memWf; rw [h]; exact w

/-! ### The base operations -/

theorem State.memWf_wr {s : State} (w : s.memWf) (key : Nat) (bs : List Byte) : (s.wr key bs).memWf :=
  twf_tsets emptyByte bs w key
theorem State.memWf_wrNat {s : State} (w : s.memWf) (key n v : Nat) : (s.wrNat key n v).memWf := State.memWf_wr w key _
theorem State.memWf_zeroRange {s : State} (w : s.memWf) (key n : Nat) : (s.zeroRange key n).memWf :=
  twf_filter emptyByte _ w
theorem State.memWf_clear {s : State} (w : s.memWf) (keep : Nat → Bool) : (s.clear keep).memWf :=
  twf_filter emptyByte _ w

/-- Read after write at the same place, and elsewhere. -/
theorem State.byte_wr (s : State) (key : Nat) (bs : List Byte) {i : Nat} (h : i < bs.length) :
    (s.wr key bs).byte (key + i) = bs[i] := tget_tsets_in emptyByte bs s.mem key i h
theorem State.byte_wr_out (s : State) (key : Nat) (bs : List Byte) {a : Nat} (h : a < key ∨ key + bs.length ≤ a) :
    (s.wr key bs).byte a = s.byte a := tget_tsets_out emptyByte bs s.mem key a h
theorem State.rd_wr (s : State) (key : Nat) (bs : List Byte) : (s.wr key bs).rd key bs.length = bs :=
  tgets_tsets emptyByte bs s.mem key

/-- A fold of operations that keep the form keeps it. -/
theorem State.memWf_foldl {α : Type} {f : State → α → State} (h : ∀ s x, s.memWf → (f s x).memWf) :
    ∀ (l : List α) {s : State}, s.memWf → (l.foldl f s).memWf
  | [], _, w => w
  | x :: l, _, w => State.memWf_foldl h l (h _ x w)

/-! ### Page tables, the points and table rows -/

theorem State.memWf_setD {s : State} (w : s.memWf) (leaf : Option Nat) : (s.setD leaf).memWf := by
  unfold State.setD
  split
  · exact State.memWf_wrNat w _ _ _
  · exact w

theorem State.memWf_logWrite {s : State} (w : s.memWf) (part va : Nat) : (s.logWrite part va).memWf := by
  unfold State.logWrite
  dsimp only
  split
  · exact State.memWf_wrNat w _ _ _
  · exact w

theorem State.memWf_markWrite {s : State} (w : s.memWf) (part va : Nat) (leaf : Option Nat) :
    (s.markWrite part va leaf).memWf :=
  State.memWf_logWrite (State.memWf_setD w leaf) part va

theorem State.memWf_clearPoison {s : State} (w : s.memWf) (key n : Nat) : (s.clearPoison key n).memWf := w

theorem State.memWf_applyDrops {s : State} (w : s.memWf) (part va : Nat) : (s.applyDrops part va).memWf := by
  unfold State.applyDrops
  dsimp only
  split
  · split
    · refine State.memWf_markWrite (State.memWf_foldl (fun s d h => ?_) _ ?_) _ _ _
      · split
        · exact State.memWf_clearPoison h _ _
        · exact State.memWf_zeroRange h _ _
      · exact State.memWf_of_mem (s := s) rfl w
    · exact w
  · exact w

theorem State.memWf_writeBack {s : State} (w : s.memWf) (c : Nat) (h : HotLine) (drop : Bool) :
    (s.writeBack c h drop).memWf := by
  have h0 : ∀ x : Cluster, (if h.own.isEmpty then s.setCluster c x
      else ((s.setCluster c x).logWrite h.part h.va).wr (128 * h.line) (bitsToBytes h.data)).memWf := fun x => by
    split
    · exact w
    · exact State.memWf_wr (State.memWf_logWrite (s := s.setCluster c x) w _ _) _ _
  exact h0 _

theorem State.memWf_recall {s : State} (w : s.memWf) (l : Nat) : (s.recall l).memWf := by
  unfold State.recall
  split
  · exact State.memWf_writeBack w _ _ _
  · exact w

theorem State.memWf_recallRange {s : State} (w : s.memWf) (key n : Nat) : (s.recallRange key n).memWf :=
  State.memWf_foldl (fun _ _ h => State.memWf_recall h _) _ w

theorem State.memWf_homeWrite {s : State} (w : s.memWf) (part va key : Nat) (bs : List Byte) :
    (s.homeWrite part va key bs).memWf := by
  unfold State.homeWrite
  split
  · exact w
  · split
    · exact State.memWf_of_mem (s := s) rfl w
    · exact State.memWf_wr (State.memWf_logWrite (State.memWf_recallRange w _ _) _ _) _ _

/-- The oldest write of a posted stream arrives. -/
theorem State.memWf_drainPost {s : State} (w : s.memWf) (part stream : Nat) : (s.drainPost part stream).memWf := by
  unfold State.drainPost
  split
  · split
    · exact State.memWf_wr (s := { s with posted := _ }) w _ _
    · exact w
  · exact w

theorem State.memWf_landWrite {s : State} (w : s.memWf) (core : Nat) (o : OutW) : (s.landWrite core o).memWf := by
  unfold State.landWrite
  dsimp only
  split
  · exact State.memWf_of_mem (s := s) rfl w
  · exact State.memWf_homeWrite w _ _ _ _

theorem State.memWf_moveWhere {s : State} (w : s.memWf) (core : Nat) (p : OutW → Bool) : (s.moveWhere core p).memWf :=
  State.memWf_foldl (fun _ _ h => State.memWf_landWrite h _ _) _ (State.memWf_of_mem (s := s) rfl w)

theorem State.memWf_flush {s : State} (w : s.memWf) (core : Nat) : (s.flush core).memWf := State.memWf_moveWhere w _ _

theorem State.mem_patchL1 (s : State) (core key : Nat) (bs : List Byte) : (s.patchL1 core key bs).mem = s.mem := by
  unfold State.patchL1
  split <;> rfl

theorem State.memWf_writeBackAll {s : State} (w : s.memWf) (c : Nat) : (s.writeBackAll c).memWf :=
  State.memWf_foldl (fun _ _ h => State.memWf_writeBack h _ _ _) _ w

theorem State.memWf_flushWide {s : State} (w : s.memWf) (core : Nat) : (s.flushWide core).memWf :=
  State.memWf_writeBackAll (State.memWf_flush w core) _

theorem State.memWf_storeAt {s : State} (w : s.memWf) (sc : Scope) (core part va : Nat) (leaf : Option Nat)
    (who : Nat × Nat × Nat) (key : Nat) (bs : List Byte) (half : Bool) :
    (s.storeAt sc core part va leaf who key bs half).memWf := by
  have tail : ∀ {u : State}, u.memWf → (u.patchL1 core key bs).memWf :=
    fun h => State.memWf_of_mem (State.mem_patchL1 _ _ _ _) h
  have hd := State.memWf_setD w leaf
  unfold State.storeAt
  refine tail ?_
  split
  · exact State.memWf_of_mem (s := s.setD leaf) rfl hd
  · exact State.memWf_of_mem (s := s.setD leaf) rfl hd
  · exact State.memWf_foldl (fun _ _ h => State.memWf_landWrite h _ _) _ (State.memWf_flush hd core)
  all_goals exact State.memWf_foldl (fun _ _ h => State.memWf_homeWrite h _ _ _ _) _ (State.memWf_flushWide hd core)

theorem State.memWf_takeLine {s : State} (w : s.memWf) (cl line part va : Nat) : (s.takeLine cl line part va).memWf := by
  unfold State.takeLine
  split
  · exact State.memWf_of_mem (s := s) rfl w
  · have h1 := State.memWf_recall w line
    have h2 : ∀ (u : State) x, u.memWf → (u.setCluster cl x).memWf := fun _ _ h => h
    refine h2 _ _ ?_
    split
    · exact h1
    · split
      · exact State.memWf_writeBack h1 _ _ _
      · exact h1

theorem State.memWf_atomicAtHome {s : State} (w : s.memWf) (core part va : Nat) (leaf : Option Nat) (op : AOp) (ty : ITy)
    (key : Nat) (b c : DWord) : (s.atomicAtHome core part va leaf op ty key b c).1.memWf := by
  unfold State.atomicAtHome
  dsimp only
  have h : ((s.flushWide core).recall (lineOf key)).memWf := State.memWf_recall (State.memWf_flushWide w core) _
  split
  · exact State.memWf_of_mem (State.mem_patchL1 _ _ _ _) h
  · exact State.memWf_of_mem (State.mem_patchL1 _ _ _ _) (State.memWf_homeWrite (State.memWf_setD h _) _ _ _ _)

theorem State.memWf_dropLater {s : State} (w : s.memWf) (d : Drop) : (s.dropLater d).memWf := by
  unfold State.dropLater
  split
  · exact w
  · exact State.memWf_of_mem (s := s) rfl w

theorem State.memWf_zeroImage (v : Option Nat) (part slot : Nat) (t : Table) : ∀ (fuel : Nat) {s : State}
    (_ : s.memWf) (off n : Nat), (s.zeroImage v part slot t fuel off n).memWf
  | 0, _, w, _, _ => w
  | fuel + 1, s, w, off, n => by
    have h0 : ∀ k m, (s.eraseOut k m).memWf := fun _ _ => w
    unfold State.zeroImage
    split
    · exact w
    · refine State.memWf_zeroImage v part slot t fuel ?_ _ _
      split
      · split
        · exact State.memWf_homeWrite (h0 _ _) _ _ _ _
        · exact State.memWf_zeroRange (State.memWf_markWrite (State.memWf_recallRange (h0 _ _) _ _) _ _ _) _ _
      · exact State.memWf_dropLater (State.memWf_logWrite w _ _) _

theorem State.memWf_clearCore {s : State} (w : s.memWf) (c : Nat) : (s.clearCore c).memWf :=
  State.memWf_of_mem (s := s.flush c) rfl (State.memWf_flush w c)

theorem State.memWf_clearCluster {s : State} (w : s.memWf) (c : Nat) : (s.clearCluster c).memWf :=
  State.memWf_foldl (fun _ _ h => State.memWf_writeBack h _ _ _) _
    (State.memWf_foldl (fun _ _ h => State.memWf_clearCore h _) _ w)

theorem State.memWf_drain {s : State} (w : s.memWf) (r : Span) : (s.drain r).memWf :=
  State.memWf_foldl (fun _ _ h => State.memWf_foldl (fun _ _ h => State.memWf_writeBack h _ _ _) _ h) _
    (State.memWf_foldl (fun _ _ h => State.memWf_moveWhere h _ _) _ w)

theorem State.memWf_dropCopies {s : State} (w : s.memWf) (key n : Nat) : (s.dropCopies key n).memWf := by
  unfold State.dropCopies
  refine State.memWf_foldl (fun u _ h => ?_) _ w
  exact State.memWf_of_mem (s := u) rfl h

/-- Writing a list of cells into a canonical memory. -/
theorem twf_putCells (f : Nat → Nat) : ∀ (cells : List Host.Cell) {m : List Host.Cell}, Memory.wf m →
    Memory.wf (cells.foldl (fun m c => tset emptyByte m (f c.1) c.2) m)
  | [], _, w => w
  | c :: l, _, w => twf_putCells f l (twf_tset emptyByte w (f c.1) c.2)

theorem State.memWf_copyPage {s : State} (w : s.memWf) (src too n : Nat) : (s.copyPage src too n).memWf := by
  have h1 : (((s.recallRange src n).recallRange too n).dropCopies too n).memWf :=
    State.memWf_dropCopies (State.memWf_recallRange (State.memWf_recallRange w _ _) _ _) _ _
  have h0 := State.memWf_clearPoison (State.memWf_zeroRange h1 too n) too n
  unfold State.copyPage
  refine State.memWf_foldl (fun u g h => ?_) _ ?_
  · exact (h : u.memWf)
  · exact twf_putCells (fun k => too + (k - src)) _ h0

end Sys2Proof.Machine
end

