-- ==== Sys2Proof/Tests/Slice0.lean ====
section
/-! SUPPORT. Tests: the checks of WellFormed, words of the manual's examples, single steps whose results the manual or a
hand calculation gives, and for every statement with hypotheses a concrete state and operands that meet them. -/

set_option maxRecDepth 100000
set_option Elab.async false

namespace Sys2Proof.Machine.Tests
open Sys2Proof Sys2Proof.Machine

/-! ### Small states -/

def bh : Hdr := { len := .base, p := 7, neg := false }
def eh : Hdr := { len := .ext, p := 7, neg := false }
def lh : Hdr := { len := .lit, p := 7, neg := false }
def xh : Hdr := { len := .extLit, p := 7, neg := false }
def rg (n : BitVec 10) : VOp := .reg n

/-- A table record: kind, key type, bytes of a row, capacity, slot, heap, index, paged; all rights, bobset and home 0. -/
def tab (kind kt width cap slot heap index : Nat) (paged : Bool := false) : Table :=
  { record := BitVec.ofNat 1024 (kind + kt * 2 ^ 4 + (width / 16 - 1) * 2 ^ 16 + slot * 2 ^ 32 + 2 ^ 44 + cap * 2 ^ 64 +
      heap * 2 ^ 256 + index * 2 ^ 320 + 63 * 2 ^ 384 + (if paged then 2 ^ 392 else 0) + 2 ^ 400)
    gens := [], keys := [], bad := false }

/-- Slot 2: dense, INT32, 64 rows of 16 bytes at 0x100000. Slot 3: ordered, INT32, rows of 16 bytes. Slot 4: dense, UINT32,
64 rows of 64 bytes at 0x300000. Slot 5: a ring of 16. Slot 6: dense, UINT32, rows of 32 bytes. Slot 7: ordhash. -/
def tDense : Table := tab 0 0 16 64 2 0x100000 0
def tOrd : Table := tab 1 0 16 64 3 0x200000 0x280000
def tBlk : Table := tab 0 1 64 64 4 0x300000 0
def tRing : Table := tab 0 1 32 16 5 0x400000 0
def tRows : Table := tab 0 1 32 64 6 0x480000 0
def tLive : Table := { tOrd with keys := [(-3, 0), (5, 1), (9, 2)] }

/-- The record of a team of two groups with the array, 16 scratchpad KiB and 8 queue entries, not co-resident. -/
def tRec : BitVec 256 := BitVec.ofNat 256 (loadRecord.toNat + 2 ^ 64 + 8 * 2 ^ 96 - 2 ^ 107)
def tGrid : Grid := { newGrid 0 0 tRec with placed := 1 }
def tm : Team := mkTeam 0 tGrid 0 1 0 0 0
def g0 : Group := Group.start tRec
def r0 : GRef := ⟨0, 0⟩

/-- The partition, its tables and its grid. -/
def pt : Partition :=
  { loadPart with
    tables := [(1, some loadTable), (2, some tDense), (3, some tLive), (4, some tBlk), (5, some tRing), (6, some tRows)]
    grids := [tGrid] }

/-- A state in which team `t` is resident alone and its group 0 issues. -/
def wt (t : Team) : State :=
  let s := State.reset.load false
  { (s.setPartn 0 pt).setTeam 0 (some t) with sched := [] }
/-- The same with a group 0 made by `f`. -/
def wg (f : Group → Group) : State := wt { tm with groups := [f g0, g0] }
/-- The same in which the sequencer of the team runs its array. -/
def wa (f : Arr → Arr) : State := { wt { tm with arr := some { f Arr.start with st := 1 } } with seq := some 0 }
def w0 : State := wg id
def p0 (f : Partition → Partition) : State := w0.setPartn 0 (f pt)

/-- What becomes of group 0. -/
def res (s : State) (i : Instr) : Option Group :=
  match exec i s with
  | .next s' => (s'.group r0).map Prod.snd
  | _ => none
/-- What a next state shows. -/
def shows (o : Host.Outcome State Fault Refusal) (p : State → Bool) : Bool :=
  match o with
  | .next s => p s
  | _ => false

/-- Whether the issuing group issues `i` without a trap, and `p` holds of it. -/
def issuesOk (s : State) (i : Instr) (p : State → GRef → Team → Group → Bool) : Bool :=
  match s.cur with
  | none => false
  | some r => match s.group r with
    | none => false
    | some (t, g) => (s.dynSubs t g i).isEmpty && ((List.range 32).all fun l => !(g.takingPart i).getLsbD l ||
        (g.regFault (t.budget r.grp) l (i.uses ++ s.keyUses t g i)).isNone) && p s r t g

/-- Every entry is a state in which the instruction issues without a trap and the condition holds. -/
def Meets (l : List (State × Instr × (State → GRef → Team → Group → Bool))) : Prop :=
  ∀ e, e ∈ l → ∃ r t g, Issues e.1 r t g e.2.1 ∧ e.2.2 e.1 r t g = true

theorem meets_of {l : List (State × Instr × (State → GRef → Team → Group → Bool))}
    (h : (l.all fun e => issuesOk e.1 e.2.1 e.2.2) = true) : Meets l := by
  intro e he
  have h1 := List.all_eq_true.mp h e he
  unfold issuesOk at h1
  split at h1
  · cases h1
  · split at h1
    · cases h1
    · rename_i r hr _ t g hg
      simp only [Bool.and_eq_true, List.all_eq_true, List.isEmpty_iff] at h1
      refine ⟨r, t, g, ⟨⟨hr, hg, h1.1.1⟩, fun l hl ht => ?_⟩, h1.2⟩
      have h2 := h1.1.2 l (List.mem_range.mpr hl)
      simpa [ht] using h2

/-- The same of an instruction that the group executes, whatever its registers. -/
theorem turn_of {s : State} {i : Instr} {p : State → GRef → Team → Group → Bool}
    (h : (match s.cur with
      | none => false
      | some r => match s.group r with
        | none => false
        | some (t, g) => (s.dynSubs t g i).isEmpty && p s r t g) = true) : ∃ r t g, Turn s r t g i ∧ p s r t g = true := by
  split at h
  · cases h
  · split at h
    · cases h
    · rename_i r hr _ t g hg
      simp only [Bool.and_eq_true, List.isEmpty_iff] at h
      exact ⟨r, t, g, ⟨hr, hg, h.1⟩, h.2⟩

def yes : State → GRef → Team → Group → Bool := fun _ _ _ _ => true
/-- Lanes take part; none does; they would trap. -/
def some_ (i : Instr) : State → GRef → Team → Group → Bool := fun _ _ _ g => g.takingPart i != 0
def none_ (i : Instr) : State → GRef → Team → Group → Bool := fun _ _ _ g => g.takingPart i == 0
def calm (g : Group) : Bool := g.trap.isNone && decide (g.parks.length < 4) && g.run != 0

/-- A group whose lane `l` holds `f l` in `v3`, and `s2`, `s3`, ... hold the slots 2, 3, ... -/
def gv (f : Nat → Word) : Group :=
  [2, 3, 4, 5, 6].foldl (fun g n => g.wrS n (BitVec.ofNat 64 n)) ((List.range 32).foldl (fun g l => g.wrV 3 l (f l)) g0)
def em (m : Lanes) (g : Group) : Group := { g with em := m }

/-! ### WellFormed: a term for each check that refuses it -/

theorem wf_iadd : (Instr.iadd bh ⟨.s32, false, false, rg 3, rg 4, .vec (rg 5)⟩).wf = true := by decide
theorem wf_guard_base : (Instr.exit { bh with neg := true }).wf = false := by decide
theorem wf_length : (Instr.imad bh ⟨.s32, false, false, rg 1, rg 2, .vec (rg 3)⟩ (rg 4)).wf = false := by decide
theorem wf_sat_base : (Instr.iadd bh ⟨.s32, true, false, rg 1, rg 2, .vec (rg 3)⟩).wf = false := by decide
theorem wf_sat_none : (Instr.and eh ⟨.s32, true, false, rg 1, rg 2, .vec (rg 3)⟩).wf = false := by decide
theorem wf_imm_base : (Instr.iadd bh ⟨.s32, false, false, rg 1, rg 2, .imm 1⟩).wf = false := by decide
theorem wf_register : (Instr.iadd eh ⟨.s32, false, false, rg 640, rg 2, .vec (rg 3)⟩).wf = false := by decide
theorem wf_pair : (Instr.iadd eh ⟨.s64, false, false, rg 1, rg 2, .vec (rg 4)⟩).wf = false := by decide
theorem wf_scalar : (Instr.iadd eh ⟨.s64, false, true, rg 64, rg 2, .vec (rg 4)⟩).wf = false := by decide
theorem wf_scalar_indexed : (Instr.iadd lh ⟨.s32, false, true, .idx 0 0, rg 2, .vec (rg 4)⟩).wf = false := by decide
theorem wf_carried : (Instr.iadd bh ⟨.s32, false, false, rg 64, rg 2, .vec (rg 3)⟩).wf = false := by decide
theorem wf_displacement : (Instr.bra bh .any 2).wf = false := by decide
theorem wf_displacement_far : (Instr.call bh .any 10 0x10000).wf = false := by decide
theorem wf_region : (Instr.rgn .base false false (.some 0 3 7)).wf = false := by decide
theorem wf_special : (Instr.mfsr bh .v 3 17).wf = false := by decide
theorem wf_mtsr : (Instr.mtsr .base 1 3).wf = false := by decide
theorem wf_cvt : (Instr.cvt eh .s32 .f32 0 .rn true (rg 2) (rg 3)).wf = false := by decide
theorem wf_pack : (Instr.pack eh true .bf16 .rn false (rg 2) (rg 3) (rg 4)).wf = false := by decide
theorem wf_segment : (Instr.shfl eh .idx 5 1 2 (.imm 0)).wf = false := by decide
theorem wf_float_atomic : (Instr.atoms eh ⟨.fadd, .s64, .team, 2, 4, 0, 0⟩ 6).wf = false := by decide
theorem wf_mask : (Instr.cpyqf bh none 0).wf = false := by decide
theorem wf_stream : (Instr.mxstart eh none 4).wf = false := by decide
theorem wf_barrier : (Instr.barinit bh 0 7 64).wf = false := by decide
theorem wf_tile_format : (Instr.tmm 0 0 .f32 false 0 false 0 0).tileWf = false := by decide
theorem wf_tile_increment : (Instr.tlda 0 0 false 16).tileWf = false := by decide
theorem wf_tile_target : (Instr.tloop 3 4).tileWf = false := by decide
theorem wf_tile : (Instr.tlw 1 .i4g 2 true 16).tileWf = true := by decide

/-! ### Words of the manual's examples, beside those of the statement on words -/

theorem decode_spawn : decodeTableWord 32 0x38621230 = some (.spawn bh 9 4 3) := by decide +kernel
theorem decode_dst_part : decodeTableWord 96 0x00000008_01800000_38610F72 =
    some (.dst eh ⟨.b32, .part, rg 7, 2, .vec 3, 8⟩) := by decide +kernel
theorem decode_tatom : decodeTableWord 96 0x00000008_01800000_F98215E6 =
    some (.tatom eh ⟨.add, .b64, .part, 10, 12, 0, 8⟩ 4) := by decide +kernel
theorem decode_datom : decodeTableWord 96 0x00000000_11004000_786113EA =
    some (.datom eh ⟨.or, .b32, .clu, 9, 4, 0, 0⟩ 2 3) := by decide +kernel
theorem decode_shfl : decodeTableWord 96 0x00000000_14000000_F88AA942 = some (.shfl eh .xor 2 20 21 (.imm 4)) := by
  decide +kernel
theorem decode_mov : decodeTableWord 160 0x00000001_00000000_00000000_34000000_3800089F =
    some (.mov xh true (.si 4 0x100000000)) := by decide +kernel
/-- A reserved value of XOP in an NMC and in an MXDRAIN, and a list longer than GATH takes: the lowest subcode (R60, R65, R202). -/
def subOf (ws : List Word) : Option Nat := match decode (wordsBytes ws) with | .bad c _ _ => some c | _ => none
theorem decode_reserved : [[0x380C29CA, 0x04000000, 0], [0x380A01DE, 0x04000000, 0], [0x398115C6, 0x00011000, 0x00044000]].map subOf =
    [some 5, some 5, some 10] := by decide +kernel
theorem decode_rgn : decodeTableWord 160 0x00000000_000000FF_00000000_00000010_F9E00027 =
    some (.rgn .extLit true true (.some 64 15 0xFF)) := by decide +kernel
theorem decode_tseek : decodeTableWord 96 0x00000000_0000B000_394101AE =
    some (.tseek eh ⟨0, 2, .vec 10, .vec 11⟩) := by decide +kernel
theorem decode_tnext : decodeTableWord 96 0x00000000_00002000_38C009B2 = some (.tnext eh .k32 4 2 6 0) := by decide +kernel
theorem decode_prio : decodeTableWord 32 0x3820002C = some (.prioPassImm bh 1) := by decide +kernel
theorem decode_mif : decodeTableWord 32 0x38008A18 = some (.mif false 5 1) := by decide +kernel
theorem decode_melse : decodeTableWord 32 0x3802801C = some (.melse 5) := by decide +kernel
theorem decode_mend : decodeTableWord 32 0x38028020 = some (.mend 5) := by decide +kernel
theorem decode_ret : decodeTableWord 32 0x38050014 = some (.ret bh .any 10) := by decide +kernel
theorem decode_ltrig : decodeTableWord 32 0x38000034 = some (.ltrig bh) := by decide +kernel
theorem decode_lds : decodeTableWord 32 0x38818D60 = some (.lds bh ⟨.b32, .vec (rg 3), 16, rg 6⟩) := by decide +kernel
theorem decode_sts : decodeTableWord 32 0x38018F64 = some (.sts bh ⟨.b32, .vec (rg 3), 0, rg 7⟩) := by decide +kernel
theorem decode_fetch : decodeTableWord 96 0x00000000_18006000_F8A1A97E =
    some (.fetch eh ⟨.e4m3, 3, rg 20, 3, .vec (rg 5), .vec (rg 6)⟩) := by decide +kernel
theorem decode_cpy : decodeTableWord 96 0x00000000_00010000_00C211C2 =
    some (.cpy { eh with p := 0 } .ld (some 0) none 8 4 6) := by decide +kernel
theorem decode_gath : decodeTableWord 96 0x00040007_00011000_398115C6 =
    some (.gath eh .k32 (some 1) 10 2 12 4 7) := by decide +kernel
theorem decode_cpyqf : decodeTableWord 32 0x386001D0 = some (.cpyqf bh none 3) := by decide +kernel
theorem decode_barinit : decodeTableWord 32 0x386381E0 = some (.barinit bh 0 7 3) := by decide +kernel
theorem decode_bararr : decodeTableWord 32 0x780381E0 = some (.bararr bh 0 7) := by decide +kernel
theorem decode_barg : decodeTableWord 32 0x380381EC = some (.barg bh 7) := by decide +kernel
theorem decode_gsig : decodeTableWord 96 0x00000001_04000000_380201F2 = some (.gsig eh 4 (.imm 1)) := by decide +kernel
theorem decode_grd : decodeTableWord 32 0xB8020FF0 = some (.grd bh 7 4) := by decide +kernel
theorem decode_gtry : decodeTableWord 96 0x00000010_04000000_F80203F2 = some (.gtry eh 1 4 (.imm 16)) := by decide +kernel
theorem decode_mxstart : decodeTableWord 96 0x00000200_04000000_380401D6 = some (.mxstart eh (some 8) 0x200) := by
  decide +kernel
theorem decode_mxstat : decodeTableWord 32 0x780019D4 = some (.mxstat 12) := by decide +kernel
theorem decode_mxdrain : decodeTableWord 32 0x380A01DC = some (.mxdrain bh none 20) := by decide +kernel
theorem decode_brk : decodeTableWord 32 0x780001F8 = some (.brk bh 0) := by decide +kernel
theorem decode_tret : decodeTableWord 32 0x500001FC = some (.tret { bh with p := 2 } .skip) ∧
    decodeTableWord 32 0x380001FC = some (.tret bh .retry) ∧ decodeTableWord 32 0xB80001FC = some (.tret bh .term) := by
  decide +kernel
theorem decode_tzero : decodeTableWord 64 0x8005 = some (.tzero 2) := by decide +kernel

/-! ### States that meet the statements' hypotheses -/

/-- The state in which lane `l` holds `l` in `v3`, with no lane active, and with a group made by `f`. -/
def W : State := wg fun _ => gv (fun l => BitVec.ofNat 32 l)
def Wn : State := wg fun _ => em 0 (gv (fun l => BitVec.ofNat 32 l))
def Wg (f : Group → Group) : State := wg fun _ => f (gv (fun l => BitVec.ofNat 32 l))

def lane : State → GRef → Team → Group → Bool := yes
/-- The vector form, the scalar form with lanes, and without. -/
def forms (v s : Instr) : List (State × Instr × (State → GRef → Team → Group → Bool)) :=
  [(W, v, yes), (W, s, some_ s), (Wn, s, none_ s)]
def ov : Alu := ⟨.b32, false, false, rg 5, rg 3, .vec (rg 4)⟩
def os : Alu := ⟨.s64, true, true, rg 10, rg 2, .vec (rg 4)⟩
def uv : Alu1 := ⟨.s32, false, false, rg 5, rg 3⟩
def us : Alu1 := ⟨.s64, false, true, rg 10, rg 2⟩
def fp : Fpu := ⟨.rn, false, rg 5, rg 3, .vec (rg 4)⟩
def ok (i : Instr) : State × Instr × (State → GRef → Team → Group → Bool) := (W, i, yes)
/-- With lanes, and without. -/
def both (i : Instr) : List (State × Instr × (State → GRef → Team → Group → Bool)) := [(W, i, some_ i), (Wn, i, none_ i)]

theorem witness_IntegerArithmetic : Meets (
    forms (.iadd bh ov) (.iadd eh os) ++ forms (.isub bh ov) (.isub eh os) ++ forms (.imul bh ov) (.imul eh os) ++
    forms (.imulh bh ov) (.imulh eh os) ++ forms (.imin bh ov) (.imin eh os) ++ forms (.imax bh ov) (.imax eh os) ++
    forms (.imad eh ov (rg 3)) (.imad eh os (rg 6)) ++ forms (.iabs bh uv) (.iabs eh us)) := meets_of (by decide +kernel)
theorem witness_IntegerBits : Meets (
    forms (.and bh ov) (.and eh os) ++ forms (.or bh ov) (.or eh os) ++ forms (.xor bh ov) (.xor eh os) ++
    forms (.not bh uv) (.not eh us) ++ forms (.shl bh ov) (.shl eh os) ++ forms (.shr bh ov) (.shr eh os) ++
    forms (.sar bh ov) (.sar eh os) ++ forms (.bfe bh ov) (.bfe eh os) ++
    forms (.bfi eh ov (.c (rg 3))) (.bfi eh os (.c (rg 6))) ++ forms (.bfi eh ov (.imm 0x808)) (.bfi eh os (.imm 0x2000)) ++
    forms (.popc bh uv) (.popc eh us) ++ forms (.clz bh uv) (.clz eh us) ++ forms (.brev bh uv) (.brev eh us)) :=
  meets_of (by decide +kernel)
theorem witness_CarryCompareSelect : Meets [
    ok (.iaddc eh false (rg 5) (rg 3) (.vec (rg 4)) 0 true 6), ok (.iset bh .lt .s32 0 (rg 3) (.vec (rg 4))),
    ok (.sel eh .s64 (rg 6) (rg 2) (.vec (rg 4)) 7 false)] := meets_of (by decide +kernel)
theorem witness_Moves : Meets ([
    ok (.mov bh false (.vv 5 3)), ok (.mov bh true (.vs 6 4)), ok (.mov lh false (.vi 5 9)), ok (.mov xh true (.vi 6 9)),
    ok (.mov eh false (.vi 5 9)), ok (.mtx bh 0 (rg 3)), ok (.mtxIdx bh 7 (rg 3)), ok (.mtxAdd bh 0 0x3F),
    (Wg (em 8), .mov bh false (.first 10 3), fun _ _ _ g => (g.takingPart (.mov bh false (.first 10 3))).getLsbD 3 &&
      (List.range 3).all fun j => !(g.takingPart (.mov bh false (.first 10 3))).getLsbD j)] ++
    both (.mov bh true (.ss 10 3)) ++ both (.mov bh false (.si 10 9)) ++ both (.mov bh true (.si 10 9))) :=
  meets_of (by decide +kernel)
theorem witness_SpecialRegisters : Meets ([
    ok (.mfsr bh .v 3 0), ok (.mfsr bh .pair 4 9), ok (.mfsr bh .s 10 3),
    (W, .mtsr .base 0 3, fun _ _ _ g => g.redo.isNone),
    (W, .mtsr .base 11 3, fun _ _ _ g => (g.rdS 3).setWidth 32 &&& (0xFFFFE0E0 : Word) == 0),
    (Wg (·.wrS 3 0x20), .mtsr .base 11 3, fun _ _ _ g => (g.rdS 3).setWidth 32 &&& (0xFFFFE0E0 : Word) != 0 && calm g),
    (W, .mtsr .base 12 3, fun _ _ _ g => g.rdS 3 &&& 0xFFFFFFF8 == 0),
    (Wg (·.wrS 3 8), .mtsr .base 12 3, fun _ _ _ g => g.rdS 3 &&& 0xFFFFFFF8 != 0 && calm g)] ++
    [13, 14, 15, 16].map fun n => ((Wg fun g => { g with trap := some ⟨0, [], 1, ⟨false, false, 0, 0, 0, [], false, none⟩, [], []⟩ }
      : State), Instr.mtsr .base n 3, yes)) := meets_of (by decide +kernel)
theorem witness_FloatResults :
    (FV.fin true 3 (-1)).num = some (-3 / 2) ∧ (FV.fin false 1 0).num = some 1 ∧ (-3 / 2 + 1 : Rat) ≠ 0 ∧
    (-3 / 2 * 1 : Rat) ≠ 0 ∧ (-3 / 2 * 1 + 1 : Rat) ≠ 0 := by
  norm_num [FV.num]
theorem witness_FloatResults_special : (FV.nan true).isNaN = true ∧ (FV.fin true 3 (-1)).num = some (-3 / 2) ∧
    (FV.fin false 6 (-2)).num = some (-(-3 / 2)) ∧ (FV.fin true 0 5).num = some 0 := by
  norm_num [FV.num, FV.isNaN]
/-- Of FFMA: a NaN that is no product of zero and infinity, an infinite factor, and a sum that is exactly zero. -/
theorem witness_FloatResults_fused : (FV.nan false).isNaN = true ∧ ((FV.nan false).isZero, (FV.nan false).isInf) = (false, false) ∧
    (FV.inf true).isInf = true ∧ ((FV.inf true).isNaN, (FV.inf true).isZero) = (false, false) ∧
    (FV.fin true 3 (-1)).isNaN = false ∧ (FV.fin true 3 (-1)).isZero = false ∧ (FV.fin false 2 0).num = some 2 ∧
    (FV.fin false 3 0).num = some (-(-3 / 2 * 2)) := by
  norm_num [FV.num, FV.isNaN, FV.isZero, FV.isInf]
theorem witness_FloatArithmetic : Meets [ok (.fadd bh fp), ok (.fsub bh fp), ok (.fmul bh fp), ok (.ffma eh fp (rg 3)),
    ok (.pfadd bh fp), ok (.pfmul bh fp), ok (.pffma eh fp (rg 3))] := meets_of (by decide +kernel)
theorem witness_FloatOrder : Meets [ok (.fmin bh (rg 5) (rg 3) (.vec (rg 4))), ok (.fmax bh (rg 5) (rg 3) (.vec (rg 4))),
    ok (.fset bh .lt 0 (rg 3) (.vec (rg 4)))] := meets_of (by decide +kernel)
theorem witness_FloatOrder_values : (fdec .f32 0x3F800000).num = some 1 ∧ (fdec .f32 0xBF800000).num = some (-1) ∧
    (fdec .f32 0x7FA00000).isNaN = true ∧ (fdec .f32 0x7F800000).isNaN = false ∧ fdec .f32 0xFF800000 = .inf true ∧
    fdec .f32 0x7F800000 ≠ .inf true ∧ fdec .f32 0x7F800000 = .inf false := by decide +kernel
theorem witness_SpecialFunctions : Meets [ok (.frcp bh ⟨.rn, rg 5, rg 3⟩), ok (.fsqrt bh ⟨.rn, rg 5, rg 3⟩),
    ok (.frsq bh (rg 5) (rg 3)), ok (.fexp2 bh (rg 5) (rg 3)), ok (.flog2 bh (rg 5) (rg 3)), ok (.fsin bh (rg 5) (rg 3)),
    ok (.fcos bh (rg 5) (rg 3)), ok (.ftanh bh (rg 5) (rg 3)), ok (.fsigm bh (rg 5) (rg 3))] := meets_of (by decide +kernel)
theorem witness_SpecialFunctions_values : (fdec .f32 0xBF800000).num = some (-1) ∧ (fdec .f32 0x43000000).num = some 128 ∧
    (fdec .f32 0xC3168000).num = some (-301 / 2) ∧ (fdec .f32 0x7FA00000).isNaN = true := by decide +kernel
theorem witness_Conversions : Meets [ok (.cvt eh .s64 .e4m3 3 .rz true (rg 6) (rg 3)), ok (.cvt eh .f32 .s32 0 .rn false (rg 5) (rg 3)),
    ok (.pack eh true .e4m3 .rn true (rg 5) (rg 3) (rg 4)), ok (.pack eh false .bf16 .rn false (rg 5) (rg 3) (rg 4))] :=
  meets_of (by decide +kernel)
theorem witness_ConversionsComplete : Meets [ok (.cvt eh .s64 .e4m3 3 .rz true (rg 6) (rg 3)), ok (.cvt eh .f32 .s32 0 .rn false (rg 5) (rg 3)),
    ok (.pack eh true .e4m3 .rn true (rg 5) (rg 3) (rg 4)), ok (.pack eh false .bf16 .rn false (rg 5) (rg 3) (rg 4))] :=
  meets_of (by decide +kernel)
theorem witness_Conversions_values : (fdec .e4m3 0x38).num = some 1 ∧ fdec .bf16 0x7FC0 = .nan false ∧
    fdec .f32 0x7F800000 = .inf false ∧ fdec .e5m2 0xFC = .inf true ∧ value .s64 7 ≠ 0 ∧ Fmt.isInt .f32 = false ∧
    Fmt.isInt .b64 = true ∧ value .s32 0 = 0 ∧ (match fdec .f32 0x80000000 with | .fin true 0 _ => true | _ => false) = true := by
  decide +kernel
theorem witness_ShuffleAndVote : Meets [ok (.shfl bh .xor 4 5 3 (.imm 1)), ok (.shfl bh .idx 0 5 3 (.vec 3)),
    ok (.voteBallot bh false 10 6), ok (.voteAny bh true 0 6), ok (.voteAll bh false 6 6), ok (.voteUni bh false 0 7)] :=
  meets_of (by decide +kernel)
theorem witness_ReduceScanRebalance : Meets [
    (W, .redg bh .add .s32 true 5 3, fun _ _ _ g => (treeNode .add .s32 (g.leaf (.redg bh .add .s32 true 5 3) .s32 3) 5 0).isSome),
    (W, .redg bh .fmax .s32 false 10 3, fun _ _ _ g =>
      (treeNode .fmax .s32 (g.leaf (.redg bh .fmax .s32 false 10 3) .s32 3) 5 0).isSome),
    (Wn, .redg bh .add .s32 true 5 3, none_ (.redg bh .add .s32 true 5 3)),
    ok (.scang bh .min .b64 true 6 4), ok (.rebal eh 8 2 3 4)] := meets_of (by decide +kernel)
theorem witness_NopOnlyAdvances : Meets [ok (.nop bh), (Wn, .nop bh, yes)] := meets_of (by decide +kernel)
theorem witness_NopOnlyAdvances_words : (0x38000004 : Word).setWidth 9 = (4 : BitVec 9) ∧
    (0x38000004 : Word).extractLsb' 30 2 = 0 ∧ (0x38000204 : Word).extractLsb' 9 18 ≠ 0 ∧
    (0x78000004 : Word).extractLsb' 30 2 ≠ 0 ∧ (6 : Word).extractLsb' 2 7 = (1 : BitVec 7) ∧
    (6 : Word).setWidth 2 ≠ (0 : BitVec 2) := by decide
theorem witness_Branches : Meets ([ok (.bra bh .any 64), (Wn, .bra bh .none 64, yes), ok (.brx bh .all 4 8), ok (.ret bh .any 4)] ++
    [(W, .call bh .any 10 64, fun _ _ _ g => g.takes (.call bh .any 10 64) .any),
     (Wn, .call bh .any 10 64, fun _ _ _ g => !g.takes (.call bh .any 10 64) .any)]) := meets_of (by decide +kernel)
theorem witness_MaskedSections : Meets ([Instr.mif false 10 6, .melse 4, .mend 4].map fun i =>
    (W, i, fun _ _ _ g => g.redo.isNone)) := meets_of (by decide +kernel)
theorem witness_EndingLanesAndToken : Meets [
    (Wg (em 1), .exit bh, fun _ _ _ g => g.trap.isNone && g.redo.isNone),
    (Wg fun g => em 3 { g with trap := some ⟨0, [], 3, ⟨false, false, 0, 0, 0, [], false, none⟩, [], []⟩, p := [(0, 1)] },
      .exit { bh with p := 0 }, fun _ _ _ g => match g.trap with
        | some ts => g.redo.isNone && (ts.pending &&& ~~~g.takingPart (.exit { bh with p := 0 })) != 0
        | none => false),
    ok (.ltrig bh), (W, .prioPassImm bh 1, fun _ _ _ g => !g.ended), (W, .prioPassReg bh 3, fun _ _ _ g => !g.ended)] :=
  meets_of (by decide +kernel)
theorem witness_EndingLanesAndToken_end : let g : Group := { g0 with exited := 0xFFFFFFFF }
    ({ tm with groups := [g, g0], token := some 0 } : Team).groups[0]? = some g ∧ g.exited = 0xFFFFFFFF := by decide +kernel

def oStopped : Pend := ⟨0, .store, .st, .team, 0, 4, 0, 2, 4, 0, none, false, false, [mkReq 0], [], false⟩
theorem witness_Regions : Meets [
    (W, .rgn .extLit true true (.some 8 3 7), fun _ r t g => fitsIn (.some 8 3 7) (t.budget r.grp) && g.redo.isNone &&
      g.trap.isNone && g.parks.isEmpty && g.catchUp.isNone && decide (g.stop = .running) && (g.em ||| g.exited) == 0xFFFFFFFF),
    (Wg (em 1), .rgn .extLit true true .none, fun _ _ _ g => g.parks.isEmpty && g.catchUp.isNone && decide (g.stop = .running) &&
      (g.em ||| g.exited) != 0xFFFFFFFF && calm g),
    (Wg fun g => em 1 { g with parks := [⟨true, false, 0, 0, 0, [(1, mkFault 0x11 0 0 0)], false, none⟩] },
      .rgn .extLit true true .none, fun _ _ _ g => !g.parks.isEmpty && g.catchUp.isNone && g.trap.isNone),
    (Wg fun g => { g with catchUp := some ⟨some 8, false, 0, 0, []⟩ }, .rgn .extLit true true .none, fun _ _ _ g => calm g &&
      (g.catchUp.bind fun c => c.head) == some 8 && g.pc != 8),
    (Wg fun g => { g with stop := .asked true }, .rgn .extLit true true .none, fun _ _ _ g => g.stop == .asked true &&
      g.trap.isNone && g.parks.isEmpty && g.catchUp.isNone && g.pend.isEmpty),
    (Wg fun g => { g with stop := .asked true, pend := [oStopped], nextOp := 1 }, .rgn .extLit true true .none, fun _ _ _ g =>
      g.stop == .asked true && g.trap.isNone && g.parks.isEmpty && g.catchUp.isNone && !g.pend.isEmpty),
    (Wg fun g => { g with stop := .asked false, slot := some ⟨8, 15, [], [], [], [], .none, true⟩ }, .rgn .extLit true true .none,
      fun _ _ _ g => g.stop == .asked false && g.trap.isNone && g.parks.isEmpty && g.catchUp.isNone && !g.halted && !g.ended &&
        g.whole.isNone && (g.slot.any fun sl => sl.rs))] :=
  meets_of (by decide +kernel)
theorem witness_Regions_budget : ∃ r t g, Turn W r t g (.rgn .extLit false false (.some 600 63 7)) ∧
    (!fitsIn (.some 600 63 7) (t.budget r.grp) && calm g) = true :=
  turn_of (p := fun _ r t g => !fitsIn (.some 600 63 7) (t.budget r.grp) && calm g) (by decide +kernel)
/-- A spool that takes SPAWN's pushes: enabled, DEV, ring slot 5, 16 positions. -/
def spawnPart (tail : Word) : Partition :=
  pt.setSpool 2 { Spool.reset with cfg := 0x4005A0, tail := tail }
def Ws (tail : Word) : State := W.setPartn 0 (spawnPart tail)
def pushed : Push → Bool | .done _ => true | _ => false
def waits : Push → Bool | .wait _ => true | _ => false
def isFull : Push → Bool | .full => true | _ => false
theorem witness_SpawnPushes : Meets [
    (Wn, .spawn bh 10 4 2, none_ (.spawn bh 10 4 2)),
    (Wg fun g => { g with pend := [⟨0, .store, .st, .team, 0, 4, 0, 2, 4, 0, none, false, false, [mkReq 0], [], false⟩], nextOp := 1 },
      .spawn bh 10 4 2, fun _ _ _ g => g.count .st != 0 && g.takingPart (.spawn bh 10 4 2) != 0),
    (W, .spawn bh 10 4 2, fun s _ _ g => g.takingPart (.spawn bh 10 4 2) != 0 && g.pend.isEmpty &&
      !spEN ((s.partn 0).spool 2)),
    (Ws 16, .spawn bh 10 4 2, fun s r t g => g.pend.isEmpty && (s.partn 0).pushable 2 &&
      decide (2 ^ spLOG ((s.partn 0).spool 2) < (((s.partn 0).spool 2).tail - ((s.partn 0).spool 2).head).toNat + 1)),
    (Ws 15, .spawn bh 10 4 2, fun s r t g => g.pend.isEmpty && (s.partn 0).pushable 2 &&
      pushed ((s.flushWide t.core).push (teamTie t) 2 [0]) && match s.table 0 (spSlot ((s.partn 0).spool 2)) with
        | some tb => (s.hubWait (teamTie t) (spSlot ((s.partn 0).spool 2)) tb (15 * 32) 32 true).isNone | none => false),
    ((Ws 15).setPartn 0 { spawnPart 15 with tables := [(1, some loadTable), (5, some { tRing with
        record := setFld tRing.record 319 256 (2 ^ 40) })] }, .spawn bh 10 4 2, fun s r t g => g.pend.isEmpty && (s.partn 0).pushable 2 && waits ((s.flushWide t.core).push (teamTie t) 2 [0]))] := meets_of (by decide +kernel)
theorem witness_InstructionCacheInvalidate : Meets [
    (Wn, .icinv bh .part 4 5, none_ (.icinv bh .part 4 5)),
    (W, .icinv bh .clu 4 5, some_ (.icinv bh .clu 4 5)),
    (W.setPartn 0 { pt with pcfg := 1 }, .icinv bh .dev 4 5, fun s _ _ g => !pWhole (s.partn 0) && g.takingPart (.icinv bh .dev 4 5) != 0)] :=
  meets_of (by decide +kernel)
theorem witness_InstructionCacheInvalidate_core :
    ((Wg fun g => { g with icReq := [(2, 0, 16), (3, 0, 16)] }).group r0).map (fun e => e.2.icReq) =
      some ([(2, 0, 16)] ++ (3, 0, 16) :: []) ∧ ([(2, 0, 16)].all fun q => q.1 != 3) = true ∧ 0 < 2 ^ 32 := by decide +kernel

/-! ### Accesses -/

def spa (d : Word) : SpAcc := ⟨.b32, .vec (rg 4), d, rg 5⟩
def spAt (i : Instr) (size : Nat) (path : Path) (a : Group → Nat → Nat) (odd : Bool) : State → GRef → Team → Group → Bool :=
  fun _ _ _ g => g.takingPart i != 0 && g.count path == 0 && calm g &&
    (List.range 32).all fun l => decide (a g l % size = 0) != odd
/-- A statement on a scratchpad instruction: aligned, to the last bytes and beyond them, and misaligned. -/
def spCases (i : Word → Instr) (path : Path) : List (State × Instr × (State → GRef → Team → Group → Bool)) :=
  [(W, i 16380, spAt (i 16380) 4 path (fun _ _ => 16380) false), (W, i 16384, spAt (i 16384) 4 path (fun _ _ => 16384) false),
   (W, i 2, spAt (i 2) 4 path (fun _ _ => 2) true)]
theorem witness_ScratchpadIssue : Meets (spCases (fun d => .lds eh (spa d)) .ld ++ spCases (fun d => .sts eh (spa d)) .st ++
    spCases (fun d => .atoms eh ⟨.add, .b32, .team, 5, 3, 0, d⟩ 4) .ld) := meets_of (by decide +kernel)
/-- One issue with a lane in range, lanes beyond the last bytes and misaligned lanes: lane `l` at 16380 + `l`. -/
def Wodd : State := Wg fun g => (List.range 32).foldl (fun g l => g.wrV 4 l (BitVec.ofNat 32 (16380 + l))) g
def oddLanes (i : Instr) : State × Instr × (State → GRef → Team → Group → Bool) := (Wodd, i, fun _ _ t g => calm g &&
  decide (g.parks.length + 1 ≤ 4) && shSCR t.shape == 16 && (laneList (g.takingPart i)).any (fun l => l == 0) && (g.takingPart i).getLsbD 1 &&
    (g.takingPart i).getLsbD 4)
theorem witness_ScratchpadIssue_lanes : Meets [oddLanes (.lds eh (spa 0)), oddLanes (.sts eh (spa 0)),
    oddLanes (.atoms eh ⟨.add, .b32, .team, 5, 3, 0, 0⟩ 4)] := meets_of (by decide +kernel)

/-- Whether the lanes meet the fates of which `p` holds: every lane goes, every lane faults, or all fates meet in one issue. -/
abbrev Chk := State → Team → Group → Nat → LaneFault ⊕ List Want
def fates (i : Instr) (acc : Nat) (chk : Chk) (p : List Fate → Bool) : State → GRef → Team → Group → Bool := fun s _ t g =>
  g.takingPart i != 0 && decide (g.wait = .none) && calm g && decide (g.parks.length + 2 ≤ 4) &&
    p ((laneList (g.takingPart i)).map fun l => fateOf s t acc (chk s t g l))
def goes : Fate → Bool | .goes _ => true | _ => false
def faults : Fate → Bool | .faults _ => true | _ => false
def misses : Fate → Bool | .misses _ => true | _ => false
def held : Fate → Bool | .waits => true | _ => false
def reach (i : Instr) (acc : Nat) (chk : Chk) := fates i acc chk fun l => l.all goes
def refuse (i : Instr) (acc : Nat) (chk : Chk) := fates i acc chk fun l => l.all faults
def mixed (i : Instr) (acc : Nat) (chk : Chk) := fates i acc chk fun l =>
  l.any goes && l.any faults && l.any misses && !l.any held

def dn (key : KeyOp) (off : BitVec 16) : DnAcc := ⟨.b32, .part, rg 5, 2, key, off⟩
def dk (o : DnAcc) (right : Table → Bool) : State → Team → Group → Nat → LaneFault ⊕ List Want :=
  fun _ _ g l => denseLane g tDense 2 (right tDense) o.key o.off.toNat 4 l id
/-- Slot 8, paged, four rows: its first lies in the page, the others in one that nothing maps. -/
def tEdge : Table := tab 0 0 16 4 8 0x3FFFFF0 0 true
def We2 : State := (Wg fun g => (List.range 32).foldl (fun g l => g.wrN 6 l (8 * 2 ^ 52 + l * 2 ^ 16 + 1) 2) (g.wrS 8 8)).setPartn 0
  { pt with tables := pt.tables ++ [(8, some tEdge)] }
def dk8 (o : DnAcc) (right : Table → Bool) : Chk := fun _ _ g l => denseLane g tEdge 8 (right tEdge) o.key o.off.toNat 4 l id
def dn8 : DnAcc := ⟨.b32, .part, rg 5, 8, .vec 3, 12⟩
theorem witness_TableAccessIssue : Meets [
    (W, .dld eh (dn (.vec 3) 12), reach (.dld eh (dn (.vec 3) 12)) 0 (dk (dn (.vec 3) 12) tRead)),
    (W, .dst eh (dn (.vec 3) 12), reach (.dst eh (dn (.vec 3) 12)) 1 (dk (dn (.vec 3) 12) tWrite)),
    (W, .datom eh ⟨.add, .b32, .part, 5, 3, 0, 12⟩ 2 3, reach (.datom eh ⟨.add, .b32, .part, 5, 3, 0, 12⟩ 2 3) 3 (dk (dn (.vec 3) 12) tWrite)),
    (W, .dld eh (dn (.vec 3) 13), refuse (.dld eh (dn (.vec 3) 13)) 0 (dk (dn (.vec 3) 13) tRead)),
    (W, .dld eh (dn (.vec 3) 16), refuse (.dld eh (dn (.vec 3) 16)) 0 (dk (dn (.vec 3) 16) tRead)),
    (We2, .dld eh dn8, mixed (.dld eh dn8) 0 (dk8 dn8 tRead)), (We2, .dst eh dn8, mixed (.dst eh dn8) 1 (dk8 dn8 tWrite)),
    (We2, .datom eh ⟨.add, .b32, .part, 5, 3, 0, 12⟩ 8 3, mixed (.datom eh ⟨.add, .b32, .part, 5, 3, 0, 12⟩ 8 3) 3 (dk8 dn8 tWrite)),
    (W, .dld eh { dn (.vec 3) 0 with tab := 9 }, fun s _ t g => (s.handle t.part (g.rdS 9)).isNone && calm g),
    (W, .dst eh { dn (.vec 3) 0 with tab := 9 }, fun s _ t g => (s.handle t.part (g.rdS 9)).isNone && calm g),
    (W, .datom eh ⟨.add, .b32, .part, 5, 3, 0, 0⟩ 9 3, fun s _ t g => (s.handle t.part (g.rdS 9)).isNone && calm g),
    (W, .fetch eh ⟨.f32, 0, rg 5, 9, .vec (rg 3), .imm 0⟩, fun s _ t g => (s.handle t.part (g.rdS 9)).isNone && calm g)] :=
  meets_of (by decide +kernel)
/-- Lane `l` holds a rowref of row `l` of slot 2 in `v6` and `v7`. -/
def Wr : State := Wg fun g => (List.range 32).foldl (fun g l => g.wrN 6 l (2 * 2 ^ 52 + l * 2 ^ 16 + 1) 2) g
def rk (wr : Bool) (off : Nat) : Chk :=
  fun s t g l => rowLane s t g wr 6 off 4 l id
def ro (off : BitVec 16) : RowAcc := ⟨.b32, .part, rg 5, 6, off, none⟩
theorem witness_TableAccessIssue_rows : Meets [
    (Wr, .tld eh (ro 12), reach (.tld eh (ro 12)) 0 (rk false 12)), (Wr, .tst eh (ro 12), reach (.tst eh (ro 12)) 1 (rk true 12)),
    (Wr, .tatom eh ⟨.add, .b32, .part, 5, 3, 0, 12⟩ 6, reach (.tatom eh ⟨.add, .b32, .part, 5, 3, 0, 12⟩ 6) 3 (rk true 12)),
    (Wr, .tld eh (ro 16), refuse (.tld eh (ro 16)) 0 (rk false 16)), (Wr, .tst eh (ro 14), refuse (.tst eh (ro 14)) 1 (rk true 14)),
    (W, .tatom eh ⟨.add, .b32, .part, 5, 3, 0, 12⟩ 6, refuse (.tatom eh ⟨.add, .b32, .part, 5, 3, 0, 12⟩ 6) 3 (rk true 12)),
    (We2, .tld eh (ro 12), mixed (.tld eh (ro 12)) 0 (rk false 12)), (We2, .tst eh (ro 12), mixed (.tst eh (ro 12)) 1 (rk true 12)),
    (Wn, .tld eh (ro 12), fun _ _ _ g => g.takingPart (.tld eh (ro 12)) == 0 && decide (g.wait = .none))] :=
  meets_of (by decide +kernel)
def fk (c : Word) : Instr := .fetch eh ⟨.bf16, 1, rg 8, 2, .vec (rg 3), .imm c⟩
theorem witness_FetchAndWait : Meets ([6, 7, 8].map (fun c => (W, fk c, fun s _ t g => g.takingPart (fk c) != 0 &&
      decide (g.wait = .none) && (match s.handle t.part (g.rdS 2) with
        | some (slot, tb) => tKind tb == 0 && tRead tb && (List.range 32).all fun l =>
            match s.place t.core t.part slot tb (l * tWidth tb + 14) 2 with | .at _ _ _ => true | _ => false
        | none => false))) ++ [
    (W, .wait .ext 0 63 63 63, fun _ _ _ g => g.count .ld == 0),
    (Wg fun g => { g with pend := [⟨0, .lds, .ld, .team, 0, 4, 0, 2, 4, 1, none, false, false, [mkReq 0], [], false⟩], nextOp := 1 },
      .wait .ext 0 63 63 63, fun _ _ _ g => g.count .ld == 1),
    (W, .waitp 0 8, fun _ _ _ g => g.count .ld == 0),
    (Wg fun g => { g with pend := [⟨0, .lds, .ld, .team, 0, 4, 0, 2, 4, 1, none, false, false, [mkReq 0], [], false⟩], nextOp := 1 },
      .waitp 0 8, fun _ _ _ g => decide ((g.rdS 8).toNat < g.count .ld))]) := meets_of (by decide +kernel)

/-! ### Points of the ordering machine -/

def pend (k : PKind) (p : Path) (size regs : Nat) (qs : List LaneReq) : Pend :=
  { id := 0, kind := k, path := p, scope := .part, pc := 0, next := 4, insn := 0, slot := 2, size := size, regs := regs
    pred := none, byRef := false, quiet := false, lanes := qs, faults := [], fin := false }
/-- The state in which group 0 has operation `o` under way. -/
def Wo (o : Pend) : State := Wg fun g => { g with pend := [o], nextOp := o.id + 1 }
def poison (a : Nat) (s : State) : State := s.addPoison a

def pointOk (s : State) (r : GRef) (o : Pend) (q : LaneReq) (p : State → Team → Group → Bool) : Bool :=
  match s.opAt r o.id with
  | none => false
  | some (t, g, o') => decide (o' = o) && decide (q.lane < 32) && decide ((o.lanes.filter fun a => a.lane == q.lane).head? = some q) &&
      !g.laneBlocked o q && o.faults.isEmpty && p s t g
theorem atPoint_of {s : State} {r : GRef} {o : Pend} {q : LaneReq} {p : State → Team → Group → Bool}
    (h : pointOk s r o q p = true) : ∃ t g, AtPoint s r t g o q ∧ p s t g = true := by
  unfold pointOk at h
  split at h
  · cases h
  · rename_i t g o' ho
    simp only [Bool.and_eq_true, decide_eq_true_eq, Bool.not_eq_true', List.isEmpty_iff] at h
    obtain ⟨⟨⟨⟨⟨rfl, h1⟩, h2⟩, h3⟩, h4⟩, h5⟩ := h
    obtain ⟨qs, hq⟩ := List.head?_eq_some_iff.mp h2
    exact ⟨t, g, ⟨ho, h1, ⟨qs, hq⟩, h3, h4⟩, h5⟩
/-- Every entry is a state in which the lane may take its point and the condition holds. -/
def MeetsPoint (l : List (State × Pend × LaneReq × (State → Team → Group → Bool))) : Prop :=
  ∀ e, e ∈ l → ∃ t g, AtPoint e.1 r0 t g e.2.1 e.2.2.1 ∧ e.2.2.2 e.1 t g = true
theorem meetsPoint_of {l : List (State × Pend × LaneReq × (State → Team → Group → Bool))}
    (h : (l.all fun e => pointOk e.1 r0 e.2.1 e.2.2.1 e.2.2.2) = true) : MeetsPoint l :=
  fun e he => atPoint_of (List.all_eq_true.mp h e he)

def any : State → Team → Group → Bool := fun _ _ _ => true
def q0 : LaneReq := { mkReq 0 with addr := 0x4000040, reg := 5, data := 9 }
def q1 : LaneReq := { mkReq 1 with addr := 0x4000042, reg := 5, data := 7 }
def qref (slot row gen : Nat) : LaneReq := { q0 with key := mkRowref slot row (BitVec.ofNat 16 gen) }
def ref (o : Pend) : Pend := { o with byRef := true }
def oLoad (q : LaneReq) : Pend := pend .load .ld 4 1 [q]
def oStore (q : LaneReq) : Pend := pend .store .st 4 0 [q]
/-- A lane's line lies with a peer. -/
def qPeer : LaneReq := { q0 with addr := 2 ^ 69 }

/-- A lane's bytes lie in host memory; half of a 16-byte access has taken effect. -/
def qHost : LaneReq := { q0 with addr := 2 ^ 68 }
def qHalf (hi : Bool) : LaneReq := { q0 with half := some hi }
def skein (v : DWord) (s : State) : State := { s with hub := { s.hub with skcfg := v } }
/-- An earlier write of the partition is on its way to the host. -/
def onItsWay (s : State) : State := { s with posted := [⟨0, 2 ^ 68 + 640, [1]⟩] }
theorem witness_LoadsComplete : MeetsPoint [
    (Wo (pend .lds .ld 4 1 [{ mkReq 0 with addr := 16380 }]), pend .lds .ld 4 1 [{ mkReq 0 with addr := 16380 }],
      { mkReq 0 with addr := 16380 }, any),
    (Wo (pend (.atoms .add .b32) .ld 4 1 [q0]), pend (.atoms .add .b32) .ld 4 1 [q0], q0, fun _ _ _ => !q0.zero),
    (Wo (ref (oLoad (qref 2 0 9))), ref (oLoad (qref 2 0 9)), qref 2 0 9, fun s t _ => match s.table t.part 2 with
      | some tb => !rowCurrent tb (qref 2 0 9).key | none => false),
    (Wo (ref (oLoad (qref 2 0 1))), ref (oLoad (qref 2 0 1)), qref 2 0 1, fun s t _ => match s.table t.part 2 with
      | some tb => rowCurrent tb (qref 2 0 1).key && !s.poisoned q0.addr 4 | none => false),
    (Wo (ref (oLoad (qref 9 0 1))), ref (oLoad (qref 9 0 1)), qref 9 0 1, fun s t _ => (s.table t.part 9).isNone),
    (Wo (oLoad q0), oLoad q0, q0, fun s _ _ => !s.poisoned q0.addr 4 && !isPeer q0.addr),
    (poison 0x4000040 (Wo (oLoad q0)), oLoad q0, q0, fun s _ _ => s.poisoned q0.addr 4 && !isPeer q0.addr),
    (Wo (oLoad qPeer), oLoad qPeer, qPeer, fun s t _ => isPeer qPeer.addr && !s.onSkein && !s.streamBusy t.part qPeer.addr),
    (skein 5 (Wo (oLoad qPeer)), oLoad qPeer, qPeer, fun s _ _ => isPeer qPeer.addr && s.onSkein && !s.portUp),
    (skein 0x405 (Wo (oLoad qPeer)), oLoad qPeer, qPeer, fun s _ _ => isPeer qPeer.addr && s.onSkein && s.portUp),
    (Wo (oLoad qHost), oLoad qHost, qHost, fun s t _ => isWindow qHost.addr && !s.l1Hit t.core (oLoad qHost) qHost &&
      !s.streamBusy t.part qHost.addr && !s.poisoned qHost.addr 4),
    (poison (2 ^ 68) (Wo (oLoad qHost)), oLoad qHost, qHost, fun s t _ => s.poisoned qHost.addr 4 && !s.streamBusy t.part qHost.addr),
    (onItsWay (Wo (oLoad qHost)), oLoad qHost, qHost, fun s t _ => s.streamBusy t.part qHost.addr),
    (Wo (pend .load .ld 16 4 [qHalf true]), pend .load .ld 16 4 [qHalf true], qHalf true, fun s _ _ => !s.poisoned q0.addr 16)] :=
  meetsPoint_of (by decide +kernel)
def Wft (q : LaneReq) : State :=
  let s := Wo (pend (.fetch .bf16) .ft 2 1 [q])
  s.setCore 0 { s.core 0 with ft := [(lineOf q0.addr, some 0x3F80)] }
theorem witness_LoadsAndFetchesDeliver : MeetsPoint [
    (Wft q0, pend (.fetch .bf16) .ft 2 1 [q0], q0, fun s t _ => !q0.zero && !isPeer q0.addr && !s.poisoned q0.addr 2 &&
      (tget none (s.core t.core).ft (lineOf q0.addr)).isSome),
    (Wft { q0 with zero := true }, pend (.fetch .bf16) .ft 2 1 [{ q0 with zero := true }], { q0 with zero := true }, any)] :=
  meetsPoint_of (by decide +kernel)
theorem witness_LoadsAndFetchesDeliver_lane : q0.lane < 32 ∧ g0.exited.getLsbD q0.lane = false ∧
    ({ g0 with exited := 1 } : Group).exited.getLsbD q0.lane = true := by decide +kernel
theorem witness_StoresPerform : MeetsPoint [
    (Wo (pend .sts .st 4 0 [{ mkReq 0 with addr := 16380 }]), pend .sts .st 4 0 [{ mkReq 0 with addr := 16380 }],
      { mkReq 0 with addr := 16380 }, any),
    (Wo (oStore q0), oStore q0, q0, fun s _ _ => !s.poisoned q0.addr 4), (Wo (oStore qHost), oStore qHost, qHost, fun _ _ _ =>
      isWindow qHost.addr),
    (Wo (pend .store .st 16 0 [qHalf false]), pend .store .st 16 0 [qHalf false], qHalf false, fun s _ _ => !s.poisoned q0.addr 16),
    (poison 0x4000040 (Wo (oStore q0)), oStore q0, q0, fun s _ g => s.poisoned q0.addr 4 && g.trap.isNone && g.whole.isNone &&
      !g.halted && g.redo.isNone && g.parks.isEmpty && !(g.exited ||| parkLanes g.parks).getLsbD q0.lane),
    (poison 0x4000040 (Wo (oLoad q0)), oLoad q0, q0, fun s _ g => s.poisoned q0.addr 4 && g.trap.isNone && g.whole.isNone &&
      !isPeer q0.addr && g.parks.isEmpty && !(g.exited ||| parkLanes g.parks).getLsbD q0.lane),
    (Wo (ref (oStore (qref 2 0 9))), ref (oStore (qref 2 0 9)), qref 2 0 9, fun s t _ => match s.table t.part 2 with
      | some tb => !rowCurrent tb (qref 2 0 9).key | none => false),
    (Wo (ref (oStore (qref 9 0 1))), ref (oStore (qref 9 0 1)), qref 9 0 1, fun s t _ => (s.table t.part 9).isNone)] :=
  meetsPoint_of (by decide +kernel)
theorem witness_StoresPerform_alone : (oStore q0).alone q0 ∧ (pend .sts .st 4 0 [q0]).alone q0 := by
  constructor <;> exact ⟨by decide, by simp [oStore, pend]⟩
def oSts : Pend := pend .sts .st 4 0 [{ mkReq 0 with addr := 0 }, { mkReq 1 with addr := 2 }]
theorem witness_StoresPerform_lanes : ((Wo oSts).opAt r0 0).isSome = true ∧
    (oSts.lanes.all fun q => decide (q.lane < 32) && !q.zero && !((Wo oSts).group r0).any fun e => e.2.laneBlocked oSts q) = true ∧
    oSts.lanes.Pairwise (fun a b => a.lane < b.lane) := by decide +kernel

def hotL : HotLine := { line := 0x80000, data := 5, own := [(0, 0, 0)], got := [], part := 0, va := 0 }
def Whot : State := W.setCluster 0 { Cluster.reset with hot := [hotL] }
def Wl1 : State := W.setCore 0 { Core.reset with l1 := [(0x80000, some 5)] }
def wOut (a : Nat) : OutW := { addr := a, bytes := [1, 2], who := (0, 0, 0), part := 0, va := 0, half := false }
/-- Two outbound writes that share a byte. -/
def Wout : State := W.setCore 0 { Core.reset with outb := [wOut 0x4000000, wOut 0x4000001] }
theorem witness_ScopePoints : tget none (Wl1.core 0).l1 (0x4000000 / 128) = some 5 ∧
    tget none (W.core 0).l1 (0x4000000 / 128) = none ∧ (W.core 0).outb = [] ∧
    (W.cluster 0).line (0x4000000 / 128) = none ∧ W.holder 0x80000 = none ∧ W.holder 0x80001 = none ∧
    (Whot.cluster 0).line (0x4000000 / 128) = some hotL ∧ (Whot.core 0).outb = [] ∧ isWindow 0x4000000 = false ∧
    (0, 0, 0) ∈ hotL.own ∧ 3 ∈ ({ hotL with got := [3] } : HotLine).got ∧ 0x4000000 % 128 + 8 ≤ 128 ∧
    ((W.partn 0).dlcfg).getLsbD 0 = false ∧ [(1 : Byte)] ≠ [] := by decide +kernel
theorem witness_OrderingSteps : (Wout.core 0).outb[0]? = some (wOut 0x4000000) ∧ (Wout.core 0).outb[1]? = some (wOut 0x4000001) ∧
    0x4000000 < 0x4000001 + 2 ∧ 0x4000001 < 0x4000000 + 2 ∧ (Wout.cluster 0).line (lineOf 0x4000000) = none ∧
    isHost 0x4000000 = false ∧ isPeer 0x4000000 = false ∧ Wout.holder 0x80000 = none ∧
    (Whot.cluster 0).line 0x80000 = some hotL := by decide +kernel

def oAtom (sc : Scope) (q : LaneReq) : Pend := { pend (.atom .add .b32) .ld 4 1 [q] with scope := sc }
/-- Partition 0 with a window over slot 2 that takes atomics, or not. -/
def Wwin (atomics : Bool) (o : Pend) : State :=
  (Wo o).setPartn 0 { pt with windows := [(0, (if atomics then 0x2000009 else 0x2000001))] }
theorem witness_AtomicPoints : MeetsPoint [
    (Wo (oAtom .part q0), oAtom .part q0, q0, fun s t g => !isWindow q0.addr && !g.laneBlocked (oAtom .part q0) q0 &&
      !s.poisoned q0.addr 4 && decide ((s.core t.core).outb = []) && (s.holder (q0.addr / 128)).isNone),
    (Wo (oAtom .team q0), oAtom .team q0, q0, fun s t g => !isWindow q0.addr && !g.laneBlocked (oAtom .team q0) q0 &&
      !s.poisoned q0.addr 4 && decide (t.core / 8 = 0)),
    (Wwin true (oAtom .sys qHost), oAtom .sys qHost, qHost, fun s t _ => isHost qHost.addr && !isPeer qHost.addr &&
      (((s.partn t.part).windowOf 2).getD 0).getLsbD 3 && !(s.flushWide t.core).streamBusy t.part qHost.addr),
    (onItsWay (Wwin true (oAtom .sys qHost)), oAtom .sys qHost, qHost, fun s t _ => (s.flushWide t.core).streamBusy t.part qHost.addr),
    (poison (2 ^ 68) (Wwin true (oAtom .sys qHost)), oAtom .sys qHost, qHost, fun s t _ => (((s.partn t.part).windowOf 2).getD 0).getLsbD 3 &&
      !(s.flushWide t.core).streamBusy t.part qHost.addr && (s.flushWide t.core).poisoned qHost.addr 4),
    (Wwin false (oAtom .sys qHost), oAtom .sys qHost, qHost, fun s t _ => isHost qHost.addr && !isPeer qHost.addr &&
      !(((s.partn t.part).windowOf 2).getD 0).getLsbD 3)] := meetsPoint_of (by decide +kernel)

/-! ### Keyed tables -/

def tp (tab : BitVec 10) : TPoint := ⟨6, 0, tab, .vec 3⟩
def asks (i : Instr) (good : State → Team → Group → Nat → Bool) : State → GRef → Team → Group → Bool := fun s _ t g =>
  g.takingPart i != 0 && calm g && g.count .tb == 0 && (laneList (g.takingPart i)).all fun l => good s t g l
def tl (tab : BitVec 10) (admits right : Table → Bool) (isReq : Bool) : State → Team → Group → Nat → Bool := fun s t g l =>
  match tableLane s t g tab admits right (.vec 3) l (fun _ _ q => q) with | .inr _ => isReq | .inl _ => !isReq
def idxK (tb : Table) : Bool := decide (1 ≤ tKind tb ∧ tKind tb ≤ 3)
def ordK (tb : Table) : Bool := tKind tb == 1 || tKind tb == 3
/-- A point operation or range that every lane may ask for, on the ordered table, and on none. -/
def tcase (i : BitVec 10 → Instr) (k : BitVec 10) (admits right : Table → Bool) :
    List (State × Instr × (State → GRef → Team → Group → Bool)) :=
  [(W, i k, asks (i k) (tl k admits right true)), (W, i 9, asks (i 9) (tl 9 admits right false))]
def Wcur (st : Nat) : State := Wg fun g => (List.range 32).foldl (fun g l => g.wrC 0 l ⟨3, 0, st, -5, 9, 5⟩) g
theorem witness_TableIssue : Meets (
    tcase (fun n => .tlk eh (tp n)) 3 (fun _ => true) tRead ++ tcase (fun n => .tins eh (tp n)) 3 idxK tInsert ++
    tcase (fun n => .tups eh (tp n)) 3 idxK tInsert ++ tcase (fun n => .tdel eh (tp n)) 3 idxK tDelete ++
    tcase (fun n => .tcnt eh ⟨6, n, .vec 3, .vec 4⟩) 3 ordK tRead ++
    tcase (fun n => .tdrop eh ⟨0, n, .vec 3, .vec 4⟩) 2 (fun tb => tKind tb == 0) tDelete ++ [
    (Wr, .tkey eh .k32 5 0 6, asks (.tkey eh .k32 5 0 6) fun s t g l => match s.table t.part (g.rdN 6 l 2 / 2 ^ 52) with
      | some tb => decide (g.rdN 6 l 2 / 2 ^ 16 % 2 ^ 36 < tCap tb) && decide (32 * KWidth.k32.regs = ktBits (tKType tb)) && tRead tb
      | none => false),
    (W, .tkey eh .k32 5 0 6, asks (.tkey eh .k32 5 0 6) fun s t g l => (s.table t.part (g.rdN 6 l 2 / 2 ^ 52)).isNone),
    (Wcur 1, .tnext eh .k32 4 0 8 0, asks (.tnext eh .k32 4 0 8 0) fun s t g l => (g.rdC 0 l).state == 1 &&
      (s.table t.part (g.rdC 0 l).slot).isSome),
    (Wcur 3, .tnext eh .k32 4 0 8 0, asks (.tnext eh .k32 4 0 8 0) fun _ _ g l => (g.rdC 0 l).state == 3),
    (W, .tseek eh ⟨0, 3, .vec 3, .vec 4⟩, asks (.tseek eh ⟨0, 3, .vec 3, .vec 4⟩) fun s t g _ =>
      match s.handle t.part (g.rdS 3) with | some (_, tb) => ordK tb && tRead tb | none => false)]) :=
  meets_of (by decide +kernel)
theorem witness_TableIndex : tLive.find 7 = none ∧ tRowCount tLive + 1 < 2 ^ 64 ∧ tLive.find 5 = some 1 ∧
    tLive.keys.Pairwise (fun a b => a.1 < b.1) ∧ tLive.keys.length < tCap tLive := by decide +kernel

def oTab (k : PKind) (q : LaneReq) : Pend := { pend k .tb 0 2 [q] with pred := some 0 }
def qKey (slot : Nat) (k : Int) : LaneReq := { mkReq 0 with addr := slot, lo := k, reg := 6 }
def Wtab (k : PKind) (q : LaneReq) : State := Wo (oTab k q)
def tpOk (s : State) (o : Pend) (q : LaneReq) (p : Table → Group → Bool) : Bool :=
  match s.group r0 with
  | none => false
  | some (t, g) => decide (g.findOp o.id = some o) && decide (o.path = .tb) && decide (o.lanes.head? = some q) &&
      g.pend.all (fun p => decide (o.id ≤ p.id)) && o.faults.isEmpty && match s.table t.part q.addr with
        | some tb => p tb g
        | none => false
/-- Every entry is a state in which the lane stands at the head of the table order and the condition holds of its table. -/
def MeetsTable (l : List (PKind × LaneReq × (State → State) × (Table → Group → Bool))) : Prop :=
  ∀ e, e ∈ l → ∃ t g tb, AtTablePoint (e.2.2.1 (Wtab e.1 e.2.1)) r0 t g (oTab e.1 e.2.1) e.2.1 ∧
    (e.2.2.1 (Wtab e.1 e.2.1)).table t.part e.2.1.addr = some tb ∧ e.2.2.2 tb g = true
theorem meetsTable_of {l : List (PKind × LaneReq × (State → State) × (Table → Group → Bool))}
    (h : (l.all fun e => tpOk (e.2.2.1 (Wtab e.1 e.2.1)) (oTab e.1 e.2.1) e.2.1 e.2.2.2) = true) : MeetsTable l := by
  intro e he
  have h1 := List.all_eq_true.mp h e he
  unfold tpOk at h1
  split at h1
  · cases h1
  · rename_i t g hg
    simp only [Bool.and_eq_true, decide_eq_true_eq, List.all_eq_true, List.isEmpty_iff] at h1
    obtain ⟨⟨⟨⟨⟨h1, h2⟩, h3⟩, h4⟩, h5⟩, h6⟩ := h1
    split at h6
    · rename_i tb ht
      exact ⟨t, g, tb, ⟨hg, h1, h2, h3, .inr fun p hp hlt => absurd (h4 p hp) (by omega), h5⟩, ht, h6⟩
    · cases h6
def full (s : State) : State := s.setPartn 0 { pt with tables := [(3, some { tLive with
  record := setFld (setFld tLive.record 111 64 3) 255 192 3 })] }
def lostIndex (s : State) : State := s.setPartn 0 { pt with tables := [(3, some { tLive with
  record := setFld tLive.record 383 320 (2 ^ 40) })] }
def badIdx (s : State) : State := s.setPartn 0 { pt with tables := [(3, some { tLive with bad := true })] }
/-- Slot 2 with rows that nothing maps; the table order can reach what its points need, or waits. -/
theorem witness_TableOrderPoints_waits : [(Wtab .tlk (qKey 2 0), oTab .tlk (qKey 2 0), qKey 2 0), (Wtab .tins (qKey 3 6), oTab .tins (qKey 3 6), qKey 3 6),
      (lostIndex (Wtab .tins (qKey 3 6)), oTab .tins (qKey 3 6), qKey 3 6)].map (fun e => (e.1.tbWait tm e.2.1 e.2.2 0).isSome) =
    [false, false, true] := by decide +kernel
def withCur (st : Nat) (s : State) : State := s.setTeam 0 ((s.team 0).map fun t => { t with
  groups := t.groups.map fun g => g.wrC 0 0 ⟨3, 0, st, -5, 9, 5⟩ })
theorem witness_TableOrderPoints : MeetsTable [
    (.tlk, qKey 2 0, id, fun tb _ => tKind tb == 0), (.tlk, qKey 2 64, id, fun tb _ => tKind tb == 0),
    (.tlk, qKey 3 5, id, fun tb _ => tKind tb != 0), (.tlk, qKey 3 6, id, fun tb _ => tKind tb != 0),
    (.tins, qKey 3 5, id, fun tb _ => (tb.find 5).isSome), (.tups, qKey 3 5, id, fun tb _ => (tb.find 5).isSome),
    (.tdel, qKey 3 5, id, fun tb _ => (tb.find 5).isSome), (.tdel, qKey 3 6, id, fun tb _ => (tb.find 6).isNone),
    (.tins, qKey 3 6, id, fun tb _ => (tb.find 6).isNone && decide (tRowCount tb < tCap tb)),
    (.tins, qKey 3 6, full, fun tb _ => (tb.find 6).isNone && decide (tRowCount tb = tCap tb)),
    (.tkey, { qKey 3 0 with key := mkRowref 3 1 1 }, id, fun _ _ => true), (.tcnt, { qKey 3 0 with hi := 7 }, id, fun _ _ => true),
    (.tdrop, { qKey 2 5 with hi := 4 }, id, fun _ _ => true), (.tdrop, { qKey 2 5 with hi := 5 }, id, fun tb _ => decide (tLo tb ≤ 5)),
    (.tnext .k32 8 0, qKey 3 0, withCur 1, fun _ g => (g.rdC 0 0).state == 1 && !g.exited.getLsbD 0),
    (.tlk, qKey 3 5, badIdx, fun tb _ => tb.bad && tKind tb == 1)] := meetsTable_of (by decide +kernel)

/-! ### Engines -/

def Wbar (e : Nat) (engs : List EngOp) : State :=
  wt { tm with groups := [gv fun l => BitVec.ofNat 32 l, g0], bars := [(1, { e := e, a := 0, ph := false })], engs := engs
               nextEng := 9 }
def busy (e : Engine) (n : Nat) : List EngOp := (List.range n).map fun k => { mkEng e none [] with id := k }
def noQueue : State := wt { tm with groups := [gv fun l => BitVec.ofNat 32 l, g0], record := loadRecord }
/-- An engine instruction: without a lane, at an inactive barrier, with its queue full, and handed over. -/
def eCases (i : Option (BitVec 4) → Instr) (e : Engine) (n : Nat) : List (State × Instr × (State → GRef → Team → Group → Bool)) :=
  [(Wn, i none, none_ (i none)),
   (Wbar 0 [], i (some 1), fun _ _ t g => calm g && (t.bar 1).e == 0), (Wbar 0 (busy e n), i none, some_ (i none)),
   (Wbar 1 [], i (some 1), fun _ _ t g => g.takingPart (i none) != 0 && (t.bar 1).e == 1 && (readyJoin [] t.engs).isNone)]
def noHandle (i : Instr) (n : Nat) : State × Instr × (State → GRef → Team → Group → Bool) :=
  (W, i, fun s _ t g => (s.handle t.part (g.rdS n)).isNone && calm g && g.takingPart i != 0)
theorem witness_EngineIssueRules : Meets (
    eCases (fun b => .cpy eh .ld b none 8 4 6) .copy 8 ++ eCases (fun b => .nmc bh b 8 10) .near 16 ++
    eCases (fun b => .coll bh b 8 4) .coll 8 ++ [noHandle (.cpy eh .ld none none 8 12 6) 12, noHandle (.coll bh none 8 12) 12,
    (noQueue, .cpy eh .ld none none 8 4 6, fun s _ t g => shCQ t.shape == 0 && calm g && (s.handle t.part (g.rdS 4)).isSome),
    (Wg fun g => g.wrS 13 65537, .gath eh .k32 none 8 2 12 0 3, fun _ _ _ g => decide (65536 < (g.rdS 13).toNat) && calm g),
    (Wg fun g => g.wrS 13 65536, .gath eh .k32 none 8 2 12 0 3, fun s _ t g => decide ((g.rdS 13).toNat ≤ 65536) &&
      (s.handle t.part (g.rdS 2)).isSome && (readyJoin [] t.engs).isNone && decide (shCQ t.shape = 8)),
    (Wbar 0 (busy .copy 8), .gath eh .k32 none 8 2 12 0 3, some_ (.gath eh .k32 none 8 2 12 0 3)),
    (Wbar 1 (busy .copy 1), .cpyqf bh (some 1) 3, fun _ _ t _ => t.engs.any (EngOp.inMask 3) && (readyJoin [] t.engs).isNone),
    (Wbar 1 (busy .near 1), .cpyqf bh (some 1) 3, fun _ _ t g => !t.engs.any (EngOp.inMask 3) && (readyJoin [] t.engs).isNone &&
      t.engs.all (fun e => e.id != t.nextEng) && g.pend.isEmpty)]) := meets_of (by decide +kernel)

/-- A layout of two rows of four FP32 elements of slot 2, from its first byte on, over the keys from 0 to 63. -/
def layout : Nat := 4 + 2 ^ 8 + 3 * 2 ^ 16 + 2 * 2 ^ 24 + 2 ^ 64 + 2 ^ 96 + 64 * 2 ^ 192
/-- An operand block: all-reduce of two INT32 elements of slot 2 over the communicator of slot 7. -/
def block : Nat := 1 + 2 * 2 ^ 28 + 2 * 2 ^ 40 + 7 * 2 ^ 52 + 2 * 2 ^ 192
def tComm : Table := tab 0 1 16 2 7 0x500000 0
def pe : Partition := { pt with tables := pt.tables ++ [(7, some tComm)] }
/-- Device addresses of the rows: the layout in row 0 of slot 4, the block in its row 1, rank 0 in the communicator. -/
def We (op : EngOp) : State :=
  let s := (wt { tm with groups := [g0, g0], engs := [op], nextEng := 1 }).setPartn 0 pe
  ((s.wrNat 0x4300000 64 layout).wrNat 0x4300040 64 block).wrNat 0x4500000 8 (2 ^ 63 + 0x3FF * 2 ^ 32)
def engOk (s : State) (e : Engine) (p : State → Team → EngOp → Bool) : Bool :=
  match s.team 0 with
  | none => false
  | some t => match t.engHead e with
    | none => false
    | some op => p s t op
/-- Every entry is a state in which the engine comes to an operation of which the condition holds. -/
def MeetsHead (l : List (State × Engine × (State → Team → EngOp → Bool))) : Prop :=
  ∀ e, e ∈ l → ∃ t op, AtHead e.1 0 t e.2.1 op ∧ e.2.2 e.1 t op = true
theorem meetsHead_of {l : List (State × Engine × (State → Team → EngOp → Bool))}
    (h : (l.all fun e => engOk e.1 e.2.1 fun s t op => !op.begun && op.stall.isNone && e.2.2 s t op) = true) :
    MeetsHead l := by
  intro e he
  have h1 := List.all_eq_true.mp h e he
  unfold engOk at h1
  split at h1
  · cases h1
  · rename_i t ht
    split at h1
    · cases h1
    · rename_i op ho
      simp only [Bool.and_eq_true, Bool.not_eq_true', Option.isNone_iff_eq_none] at h1
      exact ⟨t, op, ⟨ht, ho, h1.1.1, h1.1.2⟩, h1.2⟩
/-- Every entry is a state in which the engine may do item 1 of an operation of which the condition holds. -/
def MeetsItem (l : List (State × Engine × Nat × (State → Team → EngOp → Bool))) : Prop :=
  ∀ e, e ∈ l → ∃ t op, AtItem e.1 0 t e.2.1 op e.2.2.1 ∧ e.2.2.2 e.1 t op = true
theorem meetsItem_of {l : List (State × Engine × Nat × (State → Team → EngOp → Bool))}
    (h : (l.all fun e => engOk e.1 e.2.1 fun s t op =>
      op.begun && op.stall.isNone && hasItem e.2.2.1 op.items && e.2.2.2 s t op) = true) : MeetsItem l := by
  intro e he
  have h1 := List.all_eq_true.mp h e he
  unfold engOk at h1
  split at h1
  · cases h1
  · rename_i t ht
    split at h1
    · cases h1
    · rename_i op ho
      simp only [Bool.and_eq_true, Option.isNone_iff_eq_none] at h1
      exact ⟨t, op, ⟨ht, ho, h1.1.1.1, h1.1.1.2, h1.1.2⟩, h1.2⟩
def opCpy (pos key : DWord) : EngOp := mkEng .copy none [0, 0xFFFFFFFF, 4, pos, key]
def opCpyAt (dir : CpyDir) (key : DWord) : EngOp :=
  { (opCpy 0 key).laidOut 2 [BitVec.ofNat 512 layout] with dir := dir }
def opGath (n : DWord) : EngOp := { mkEng .gather none [0, 0xFFFFFFFF, 2, 64, n] with off := 4, len := 8 }
def opRef (n : DWord) : EngOp := { opGath n with kind := .ref }
/-- Tables 2 and 4 at addresses that nothing maps; every page being moved. -/
def lost (s : State) : State := s.setPartn 0 { s.partn 0 with tables := (s.partn 0).tables.map fun e =>
  if e.1 = 2 ∨ e.1 = 4 then (e.1, e.2.map fun t => { t with record := setFld t.record 319 256 (2 ^ 40) }) else e }
def moving (s : State) : State := s.wrNat 0x20000 8 0x4000017
def readsAs {α : Type} (r : Reach α) (p : α → Bool) : Bool := match r with | .ok x => p x | _ => false
def isCode {α : Type} : Reach α → Nat → Bool | .code c, n => c == n | _, _ => false
def isMiss {α : Type} : Reach α → Bool | .miss _ _ => true | _ => false
def isBusy {α : Type} : Reach α → Bool | .busy => true | _ => false
def missing : Avail → Bool | .miss _ => true | _ => false
def lyAt (s : State) (t : Team) (op : EngOp) : Reach (BitVec 512) :=
  (s.useLayout (some t.core) t.part (op.a 2) (op.a 3).toNat).layoutAt (some t.core) t.part (op.a 2) (op.a 3).toNat
theorem witness_EngineOperations : MeetsHead [
    (We { opCpy 0 0 with arg := [0, 0, 9, 0, 0] }, .copy, fun s t op => (s.handle t.part (op.a 2)).isNone && isCode (lyAt s t op) 0x1A),
    (We (opCpy 32 0), .copy, fun s t op => isCode (lyAt s t op) 0x1A && op.mc.isNone && (s.handle t.part (op.a 2)).isSome),
    (lost (We (opCpy 0 0)), .copy, fun s t op => isMiss (lyAt s t op)),
    (moving (We (opCpy 0 0)), .copy, fun s t op => isBusy (lyAt s t op)),
    (We (opCpy 64 0), .copy, fun s t op => readsAs (lyAt s t op) fun ly => (least (s.layoutCodes t.part ly)).isSome),
    (We (opCpy 0 0), .copy, fun s t op => readsAs (lyAt s t op) fun ly => (s.layoutCodes t.part ly).isEmpty),
    (We { opGath 2 with arg := [0, 0, 9, 64, 2] }, .gather, fun s t op => (s.handle t.part (op.a 2)).isNone && decide (op.kind ≠ .ref)),
    (We { opCpy 64 0 with mc := some 1 }, .copy, fun s t op => op.mc.isSome && readsAs (lyAt s t op) fun ly =>
      (least (s.layoutCodes t.part ly)).isSome),
    (We { opCpy 0 0 with mc := some 2 }, .copy, fun s t op => op.mc == some 2 && decide (t.gangSz ≤ 1) && readsAs (lyAt s t op) fun ly =>
      (s.layoutCodes t.part ly).isEmpty),
    (We { opCpy 0 0 with mc := some 1 }, .copy, fun s t op => op.mc == some 1 && decide (t.gangSz = 1) && op.dir == .ld &&
      readsAs (lyAt s t op) fun ly => (s.layoutCodes t.part ly).isEmpty),
    (We (opGath 2), .gather, fun s t op => (match s.handle t.part (op.a 2) with
      | some (_, tb) => tKind tb == 0 && tCopy tb && decide (op.off + op.len ≤ tWidth tb) && ktBits (tKType tb) == 32 | none => false) &&
      op.a 4 != 0),
    (We (opRef 2), .gather, fun _ _ op => decide (op.kind = .ref) && op.a 4 != 0)] := meetsHead_of (by decide +kernel)
def rowOk (key : Int) (poisoned : Bool) (av : Avail → Bool := (· == .ok)) : State → Team → EngOp → Bool := fun s t op =>
  decide (1 ≤ lyRows op.rec0) && match s.held t.part (lySlot op.rec0) with
    | none => false
    | some tb =>
      let k := keyOfNat (tKType tb) (op.a 4).toNat + 1 * lyKStride op.rec0
      k == key && decide (lyLo (tKType tb) op.rec0 ≤ k ∧ k < lyHi (tKType tb) op.rec0) &&
      let row := (k - tLo tb).toNat
      let s0 := s.touchRow (some t.core) t.part (lySlot op.rec0) tb row
      av (s0.runsAvail (some t.core) t.part (lySlot op.rec0) tb row (lyRuns op.rec0) false) && (lyRuns op.rec0).all fun run =>
        s0.imagePoison (some t.core) t.part (lySlot op.rec0) tb (row * tWidth tb + run.1) run.2 == poisoned
/-- The operation has read `v` as list element 1. -/
def hasRead (v : DWord) (op : EngOp) : EngOp := { op with read := [(1, v)] }
def gathOk (slot : Nat) (p : State → Team → Table → Bool) : State → Team → EngOp → Bool := fun s t op =>
  (op.read.find? fun e => e.1 == 1).isSome && match s.held t.part slot with | some tb => p s t tb | none => false
def rowClean (row : Nat) : State → Team → Table → Bool := fun s t tb =>
  let s0 := s.touchRow (some t.core) t.part 2 tb row
  s0.runsAvail (some t.core) t.part 2 tb row [(4, 8)] false == .ok &&
    !s0.imagePoison (some t.core) t.part 2 tb (row * tWidth tb + 4) 8
/-- The team's gang has two members, of which the other has gone. -/
def lone (s : State) : State := s.setTeam 0 ((s.team 0).map fun t => { t with gangSz := 2 })
theorem witness_EngineOperations_items : MeetsItem [
    (We (opCpyAt .ld 62), .copy, 1, rowOk 63 false), (We (opCpyAt .pf 5), .copy, 1, rowOk 6 false),
    (We { opCpyAt .ld 5 with mc := some 1 }, .copy, 1, fun s t op => rowOk 6 false (· == .ok) s t op && op.mc == some 1 &&
      (s.gangMember t.gang 0).isSome),
    (lone (We { opCpyAt .ld 5 with mc := some 3, items := [(0, 4)] }), .copy, 3, fun s t op => rowOk 6 false (· == .ok) s t op &&
      op.mc == some 3 && t.gangSz == 2 && lyRows op.rec0 == 1 && (s.gangMember t.gang 1).isNone && op.rej.isNone),
    (We (opCpyAt .st 5), .copy, 1, fun s t op => rowOk 6 false (· == .ok) s t op && match s.table t.part 2 with
      | some tb => readsAs (s.writeRuns (some t.core) false t.part 2 tb 6 (lyRuns op.rec0) (t.tileRow op.rec0 0 1)) fun _ => true
      | none => false),
    (poison 0x4100060 (We (opCpyAt .ld 5)), .copy, 1, rowOk 6 true),
    (lost (We (opCpyAt .ld 5)), .copy, 1, rowOk 6 false missing), (lost (We (opCpyAt .pf 5)), .copy, 1, rowOk 6 false missing),
    (We (opCpyAt .ld 63), .copy, 1, fun _ t op => decide (¬ (keyOfNat 0 (op.a 4).toNat + 1 < 64)) && t.part == 0),
    (We (opCpyAt .st 63), .copy, 1, fun _ t op => decide (¬ (keyOfNat 0 (op.a 4).toNat + 1 < 64)) && t.part == 0),
    (We ((opGath 2).laidOut 2 []), .gather, 1, fun _ _ op => op.read.isEmpty && decide (op.kind ≠ .ref)),
    (We ((opRef 2).laidOut 2 []), .gather, 1, fun s t op => op.read.isEmpty && (s.table t.part 0).isNone &&
      leNat (t.engRead 72 8) / 2 ^ 52 == 0),
    (We (hasRead 64 ((opGath 2).laidOut 2 [])), .gather, 1, gathOk 2 fun _ _ tb => decide (¬ (64 < tLo tb + tCap tb))),
    (We (hasRead 5 ((opGath 2).laidOut 2 [])), .gather, 1, gathOk 2 (rowClean 5)),
    (We (hasRead (mkRowref 3 1 1) { (opRef 2).laidOut 2 [] with off := 12 }), .gather, 1, gathOk 3 fun _ _ tb =>
      decide (tWidth tb < 12 + 8)),
    (We (hasRead (mkRowref 2 0 9) ((opRef 2).laidOut 2 [])), .gather, 1, gathOk 2 fun _ _ tb => !rowCurrent tb (mkRowref 2 0 9)),
    (We (hasRead (mkRowref 2 5 1) ((opRef 2).laidOut 2 [])), .gather, 1, gathOk 2 fun s t tb =>
      rowCurrent tb (mkRowref 2 5 1) && tRead tb && tCopy tb && rowClean 5 s t tb)] :=
  meetsItem_of (by decide +kernel)
theorem witness_EngineOperations_swizzle : (swizzle 3 5 (List.replicate 128 7)).length % (16 * 2 ^ 3) = 0 ∧ (List.replicate 128 (7 : Byte)).length % (16 * 2 ^ 3) = 0 := by
  decide +kernel
theorem witness_EngineOperations_end : (match (We (opCpy 0 0)).team 0 with
    | some t => (readyJoin [] (t.engs.filter fun e => e.id != 0)).isNone
    | none => false) = true ∧ (opCpy 0 0).mc = none ∧ (opCpyAt .ld 0).begun = true ∧
    (opCpyAt .ld 0).bad.length < 2 ^ 32 ∧ (opCpyAt .ld 0).total - itemsLeft (opCpyAt .ld 0).items - 0 < 2 ^ 32 ∧
    (opCpyAt .ld 0).code < 256 := by decide +kernel

/-- A near-memory command: FILL or CHECKSUM of the first four FP32 elements of row 6 of slot 2. -/
def opNear (cmd : Nat) : EngOp := mkEng .near none [0xFFFFFFFF, BitVec.ofNat 64 (cmd + 4 * 2 ^ 8 + 2 * 2 ^ 16), 6,
  BitVec.ofNat 64 (3 * 2 ^ 16), 0x3F800000]
def opColl : EngOp := mkEng .coll none [0xFFFFFFFF, 4, 1]
/-- The unit holds row 6 with one element, or two, still to be written. -/
def opHolds (n : Nat) : EngOp := { (opNear 1).laidOut 2 [] with
  hold := [{ item := 1, span := [(0x4100070, 16)], todo := (List.range n).map fun j =>
    ⟨j, 0x4100070 + 4 * j, 0x100070 + 4 * j, [1, 2, 3, 4]⟩ }] }
def opFma : EngOp := mkEng .near none [0xFFFFFFFF, BitVec.ofNat 64 (3 + 4 * 2 ^ 8 + 2 * 2 ^ 16), 6,
  BitVec.ofNat 64 (3 * 2 ^ 16 + 2 * 2 ^ 32), 0x3F800000]
theorem witness_NearMemoryCommands : MeetsHead [
    (We (opNear 6), .near, fun _ _ op => decide (5 < fld op.cmd 7 0)),
    (We { opNear 1 with arg := [0xFFFFFFFF, BitVec.ofNat 64 (1 + 4 * 2 ^ 8 + 9 * 2 ^ 16), 6, 0, 0] }, .near, fun s t op =>
      fld op.cmd 7 0 == 1 && fld op.cmd 11 8 == 4 && fld op.cmd 191 160 == 0 && (s.table t.part (fld op.cmd 27 16)).isNone),
    (We (opNear 1), .near, fun s t op => fld op.cmd 7 0 == 1 && fld op.cmd 11 8 == 4 && fld op.cmd 191 160 == 0 &&
      fld op.cmd 31 28 == 0 && fld op.cmd 15 12 == 0 && fld op.cmd 143 128 % 4 == 0 && match s.table t.part (fld op.cmd 27 16) with
        | some tb => tKind tb == 0 && tNear tb && decide (tLo tb ≤ keyOfNat (tKType tb) (fld op.cmd 127 64)) &&
            decide (keyOfNat (tKType tb) (fld op.cmd 127 64) + fld op.cmd 63 32 < tLo tb + tCap tb) &&
            decide (fld op.cmd 143 128 + (fld op.cmd 159 144 + 1) * 4 ≤ tWidth tb)
        | none => false)] := meetsHead_of (by decide +kernel)
/-- The near-memory engine can take up row `i` of the command at place `k` of its queue. -/
def rowGoes (s : State) (k i : Nat) (p : State → Team → EngOp → Bool) : Bool :=
  match s.team 0 with
  | none => false
  | some t => match t.nearQueue[k]? with
    | none => false
    | some op => (t.scratchDone op && op.begun && op.stall.isNone && hasItem i op.items) &&
        (op.hold.all (fun h => h.item != i) && (t.nearQueue.take k).all fun b => !s.nmcAfter t.part op i b) && p s t op
def MeetsRow (l : List (State × Nat × Nat × (State → Team → EngOp → Bool))) : Prop :=
  ∀ e, e ∈ l → ∃ t op, AtRow e.1 0 t e.2.1 op e.2.2.1 ∧ e.2.2.2 e.1 t op = true
theorem meetsRow_of {l : List (State × Nat × Nat × (State → Team → EngOp → Bool))}
    (h : (l.all fun e => rowGoes e.1 e.2.1 e.2.2.1 e.2.2.2) = true) : MeetsRow l := by
  intro e he
  have h1 := List.all_eq_true.mp h e he
  unfold rowGoes at h1
  split at h1
  · cases h1
  · rename_i t ht
    split at h1
    · cases h1
    · rename_i op ho
      simp only [Bool.and_eq_true, List.all_eq_true, Option.isNone_iff_eq_none, bne_iff_ne, Bool.not_eq_true'] at h1
      obtain ⟨⟨⟨⟨⟨hd, hb⟩, hs⟩, hi⟩, hn, hf⟩, hp⟩ := h1
      exact ⟨t, op, ⟨ht, ho, hd, hb, hs, hi, hn, hf⟩, hp⟩
def nearOk (poisoned : Bool) (p : State → Team → EngOp → Table → Bool := fun _ _ _ _ => true) : State → Team → EngOp → Bool :=
  fun s t op => (s.heldSpans none).isEmpty && match s.held t.part (fld op.cmd 27 16) with
    | some tb =>
      let s0 := s.touchImage none t.part 2 tb 112 16
      s0.avail none t.part 2 tb 112 16 true == .ok && s0.imagePoison none t.part 2 tb 112 16 == poisoned &&
        !s0.halfStored (s0.spanOf none t.part 2 tb 112 16) && !s0.tornOut (s0.spanOf none t.part 2 tb 112 16) && p s0 t op tb
    | none => false
/-- A second command, on rows 8 and 9, behind one on rows 6 and 7, or on the same rows. -/
def opNext (key : DWord) : EngOp := { (opNear 1).laidOut 2 [] with id := 1, arg := ((opNear 1).arg).set 2 key }
def Wtwo (key : DWord) : State := (We ((opNear 1).laidOut 2 [])).setTeam 0 (((We ((opNear 1).laidOut 2 [])).team 0).map fun t =>
  { t with engs := t.engs ++ [opNext key], nextEng := 2 })
/-- One half of a lane's 16-byte store to the row has performed. -/
def halfway (s : State) : State := s.putGroup r0 { g0 with pend := [pend .store .st 16 0 [{ qHalf true with addr := 0x4100070 }]] }
theorem witness_NearMemoryCommands_items : MeetsRow [
    (We ((opNear 1).laidOut 2 []), 0, 1, nearOk false), (We ((opNear 5).laidOut 2 []), 0, 1, nearOk false),
    (poison 0x4100070 (We ((opNear 1).laidOut 2 [])), 0, 1, nearOk true),
    (We (opFma.laidOut 2 []), 0, 1, nearOk false fun s t op tb => fld op.cmd 7 0 == 3 && fld op.cmd 171 160 == 2 &&
      s.avail none t.part 2 tb (7 * 16 + fld op.cmd 191 176) 16 false == .ok),
    (Wtwo 8, 1, 1, fun s t op => (s.held t.part (fld op.cmd 27 16)).isSome),
    (halfway (We ((opNear 1).laidOut 2 [])), 0, 1, fun s t _ => match s.held t.part 2 with
      | some tb => s.avail none t.part 2 tb 112 16 true == .ok && s.halfStored (s.spanOf none t.part 2 tb 112 16)
      | none => false)] := meetsRow_of (by decide +kernel)
/-- What the engine finds in its queue: a command that has not begun, one whose rows are done, a row behind an earlier one, and
rows that it holds with one element, or two, still to be written. -/
theorem witness_NearMemoryCommands_queue :
    [opNear 6, opNear 1, { opNear 1 with begun := true }].map (fun op => ((We op).team 0).map fun t =>
      (t.nearQueue[0]? == some op, t.scratchDone op, op.begun, op.items.isEmpty)) =
      [some (true, true, false, true), some (true, true, false, true), some (true, true, true, true)] ∧
    (((Wtwo 6).team 0).map fun t => (t.nearQueue.take 1).any fun b => (Wtwo 6).nmcAfter t.part (opNext 6) 1 b) = some true ∧
    (Wtwo 8).nmcAfter 0 (opNext 8) 1 ((opNear 1).laidOut 2 []) = false ∧
    [1, 2].map (fun n => (opHolds n).begun && !(opHolds n).items.isEmpty && (((opHolds n).hold.find? fun h => h.item == 1).bind fun h =>
      h.todo.find? fun e => e.num == 0).isSome) = [true, true] := by decide +kernel
theorem witness_NearMemoryCommands_values : (match W.locate none 0 2 tDense 112 with | (_, .ok _ _ _ _) => true | _ => false) = true ∧
    (fdec .bf16 0x7FC0).isNaN = true ∧ (fdec .bf16 0x3F80).isNaN = false ∧ (fdec .f32 0x7FC00000).isNaN = true ∧
    (fdec .f32 0x43000000).num = some 128 := by decide +kernel

/-- Two ranks: partition 0 of this device, and one of another. -/
def ranks : CollAt := { comm := 0, k := 0, lo := 0, rank := 0, ranks := [some 0, none] }
def heads1 : List CoHead := [⟨1, 0, BitVec.ofNat 512 block⟩]
def far1 : CoFar := { elems := [(1, some 5)], tree := .node (.leaf 0) (.leaf 1) }
def onSk (s : State) : State := { s with hub := { s.hub with skcfg := 5 + 2 ^ 10 } }
def opCollAt (kind : Nat) : EngOp := { opColl.laidOut 4 [BitVec.ofNat 512 (block - 1 + kind)] with coll := some ranks }
def opJoined : EngOp := { opColl with coll := some ranks, recd := [BitVec.ofNat 512 block] }
def blockAt (s : State) (t : Team) (op : EngOp) : Reach (BitVec 512) := s.coBlock t.part (op.a 1) (op.a 2)
def peerIs (p : Option Bool → Bool) (heads : List CoHead) : State → Team → EngOp → Bool := fun s t op =>
  op.coll == some ranks && !s.aborted.contains (t.part, coComm op.rec0) && (s.coCodes t.part op.rec0 (some ranks)).isEmpty &&
    p (s.coPeer op.rec0 ranks heads 1)
/-- Its source has been unbound since it joined, or its communicator aborted. -/
def unbound (s : State) : State := s.setPartn 0 { pe with tables := (s.partn 0).tables.filter fun e => e.1 != 2 }
def abortedOn (s : State) : State := { s with aborted := [(0, 7)] }
theorem witness_Collectives : MeetsHead [
    (We { opColl with arg := [0, 9, 1] }, .coll, fun s t op => isCode (blockAt s t op) 0x39 && op.coll.isNone),
    (lost (We opColl), .coll, fun s t op => isMiss (blockAt s t op)), (moving (We opColl), .coll, fun s t op => isBusy (blockAt s t op)),
    (We { opColl with arg := [0, 4, 2] }, .coll, fun s t op => readsAs (blockAt s t op) fun blk =>
      let s0 := (s.useBlock t.part (op.a 1) (op.a 2)).useComm t.part (coComm blk)
      isCode (s0.coRank t.part (coComm blk)) 0x39 && (least (s0.coCodes t.part blk none)).isSome),
    (We opJoined, .coll, peerIs Option.isNone []), (onSk (We opJoined), .coll, peerIs (· == some true) heads1),
    (onSk (We opJoined), .coll, peerIs (· == some false) [⟨1, 1, BitVec.ofNat 512 block⟩]),
    (unbound (We opJoined), .coll, fun s t op => op.coll == some ranks && (least (s.coCodes t.part op.rec0 (some ranks))).isSome),
    (abortedOn (We opJoined), .coll, fun s t op => op.coll == some ranks && (s.coCodes t.part op.rec0 (some ranks)).isEmpty &&
      s.aborted.contains (t.part, coComm op.rec0) && s.coPeer op.rec0 ranks [] 1 == none)] := meetsHead_of (by decide +kernel)
theorem witness_Collectives_joins : MeetsHead [
    (We opColl, .coll, fun s t op => readsAs (blockAt s t op) fun blk =>
      let s0 := (s.useBlock t.part (op.a 1) (op.a 2)).useComm t.part (coComm blk)
      readsAs (s0.coRank t.part (coComm blk)) fun c =>
        ((s0.joinColl c.comm t.part blk).coCodes t.part blk (some c)).isEmpty && c.rank == 0 && c.ranks == [some 0, none])] := meetsHead_of (by decide +kernel)
def collOk (kind i : Nat) : State → Team → EngOp → Bool := fun s t op =>
  let s := s.useSources t.part op.rec0 ranks i
  op.coll == some ranks && coKind op.rec0 == kind && treeCovers far1.tree 0 2 && match s.held t.part (coDst op.rec0) with
  | some tb => s.avail (some t.core) t.part 2 tb 4 4 true == .ok && !s.imagePoison (some t.core) t.part 2 tb 4 4 &&
      readsAs (s.coElem t.part op.rec0 ranks far1 0 1) (fun _ => true) && readsAs (s.coElem t.part op.rec0 ranks far1 1 1) (fun _ => true)
  | _ => false
theorem witness_Collectives_items : MeetsItem [
    (onSk (We (opCollAt 1)), .coll, 1, collOk 1 1), (onSk (We (opCollAt 2)), .coll, 1, collOk 2 1),
    (onSk (We (opCollAt 3)), .coll, 3, collOk 3 3)] := meetsItem_of (by decide +kernel)
/-- Two ranks of this device, of which the other has joined, and has sent its elements or not. -/
def both2 : CollAt := { ranks with ranks := [some 0, some 1] }
def Wsent (sent : Option (List (Option Nat))) : State :=
  { W with colls := [⟨0, 1, [⟨BitVec.ofNat 512 block, sent⟩]⟩] }
theorem witness_Collectives_sources : ((Wsent (some [some 7, none])).joined both2.comm 1)[both2.k]? =
      some ⟨BitVec.ofNat 512 block, some [some 7, none]⟩ ∧ both2.ranks[1 - both2.lo]? = some (some 1) ∧ both2.lo ≤ 1 ∧ 1 ≠ both2.rank ∧
    ((Wsent none).joined both2.comm 1)[both2.k]? = some ⟨BitVec.ofNat 512 block, none⟩ ∧
    isMiss ((Wsent none).coRead 1 (BitVec.ofNat 512 block) 0) = false ∧ (onSk W).onSkein = true ∧ (onSk W).portUp = true := by decide +kernel
theorem witness_Collectives_ranks : ranks.ranks[1 - ranks.lo]? = some none ∧ ranks.lo ≤ 1 ∧ 1 ≠ ranks.rank ∧
    (far1.elems.find? fun e => e.1 == 1) = some (1, some 5) := by decide +kernel

/-! ### Barriers and gates -/

def Wm (e : Nat) (mask : DWord) (f : Group → Group := id) : State :=
  wt { tm with groups := [f ((gv fun l => BitVec.ofNat 32 l).wrS 7 mask), g0], bars := [(1, { e := e, a := 0, ph := false })] }
def bCases (i : Instr) : List (State × Instr × (State → GRef → Team → Group → Bool)) :=
  [(Wm 2 1, i, fun _ _ _ g => (g.rdS 7).setWidth 32 != g.takingPart i && calm g),
   (Wm 2 0 (em 0), i, fun _ _ _ g => (g.rdS 7).setWidth 32 == g.takingPart i && g.takingPart i == 0),
   (Wm 2 0xFFFFFFFF, i, fun _ _ t g => (g.rdS 7).setWidth 32 == g.takingPart i && g.takingPart i != 0 && (t.bar 1).e == 2 &&
      g.pend.isEmpty)]
/-- The same in a co-resident team, in which BARG is no illegal instruction. -/
def Wco (mask : DWord) (f : Group → Group := id) : State :=
  (Wm 2 mask f).setTeam 0 (((Wm 2 mask f).team 0).map fun t => { t with record := t.record ||| BitVec.ofNat 256 (2 ^ 107) })
/-- The other group of the team has arrived, or ended. -/
def other (f : Group → Group) (s : State) : State := s.setTeam 0 ((s.team 0).map fun t => { t with groups :=
  (t.groups.mapIdx fun k g => if k = 1 then f g else g) })
def arrived (g : Group) : Group := { g with barg := some 0 }
def came (s : State) (g : Group) : State := s.putGroup r0 (arrived g)
theorem witness_Barriers : Meets (bCases (.barinit bh 1 7 64) ++ bCases (.bararr bh 1 7) ++ bCases (.barwait bh 1 7 true) ++
    bCases (.bartest bh 0 7 1 false) ++ [
    (Wm 0 0xFFFFFFFF, .bararr bh 1 7, fun _ _ t g => (t.bar 1).e == 0 && (g.rdS 7).setWidth 32 == g.takingPart (.bararr bh 1 7) && calm g),
    (Wm 2 0xFFFFFFFF fun g => { g with pend := [oLoad q0 |> fun o => { o with kind := .lds }], nextOp := 1 }, .bararr bh 1 7,
      fun _ _ _ g => g.pend.any fun o => !o.lanes.isEmpty && decide (o.kind = .lds)),
    (Wm 2 0xFFFFFFFF, .barwait bh 1 7 false, fun _ _ t _ => (t.bar 1).ph == false),
    (Wm 2 0xFFFFFFFF, .barwait bh 1 7 true, fun _ _ t _ => (t.bar 1).ph != true),
    (Wco 1, .barg bh 7, fun s _ t g => ((s.partn t.part).grid t.spool t.pos).isSome && (g.rdS 7).setWidth 32 != g.takingPart (.barg bh 7) && calm g),
    (Wco 0xFFFFFFFF fun g => { g with pend := [oStore q0], nextOp := 1 }, .barg bh 7, fun _ _ _ g => g.count .st != 0 &&
      (g.rdS 7).setWidth 32 == g.takingPart (.barg bh 7)),
    (Wco 0xFFFFFFFF, .barg bh 7, fun s _ t g => g.pend.isEmpty && (s.core t.core).outb.isEmpty && g.barg.isNone &&
      match (s.partn t.part).grid t.spool t.pos with | some gr => gr.phase == 0 && !(came s g).gridFull t.part gr | none => false),
    (other arrived (Wco 0xFFFFFFFF), .barg bh 7, fun s _ t g => g.pend.isEmpty && (s.core t.core).outb.isEmpty && g.barg.isNone &&
      match (s.partn t.part).grid t.spool t.pos with | some gr => (came s g).gridFull t.part gr | none => false),
    (Wco 0xFFFFFFFF arrived, .barg bh 7, fun s _ t g => g.barg == some 0 &&
      match (s.partn t.part).grid t.spool t.pos with | some gr => gr.phase == 0 && !s.gridFull t.part gr | none => false),
    (other (fun g => { g with exited := allOnes }) (Wco 0xFFFFFFFF arrived), .barg bh 7, fun s _ t g => g.barg == some 0 &&
      match (s.partn t.part).grid t.spool t.pos with | some gr => gr.phase == 0 && s.gridFull t.part gr | none => false),
    (Wco 0xFFFFFFFF fun g => { g with barg := some 7 }, .barg bh 7, fun s _ t g => g.barg == some 7 &&
      match (s.partn t.part).grid t.spool t.pos with | some gr => gr.phase != 7 | none => false)]) := meets_of (by decide +kernel)
theorem witness_Barriers_phase : ((Wco 0).partn 0).grid 0 0 = some tGrid ∧ tGrid.spool = 0 ∧ tGrid.pos = 0 ∧
    pFirst ((Wco 0).partn 0) ≤ 0 ∧ 0 < pFirst ((Wco 0).partn 0) + pClusters ((Wco 0).partn 0) ∧
    ((Wco 0).gridTeams 0 0 0).map Prod.fst = [0] := by decide +kernel

def oGate (k : PKind) : Pend := pend k .gt 0 0 [mkReq 0]
def aGate : Gate := { Gate.reset with st := 1, value := 5, acl := [(0, BitVec.ofNat 32 (15 * 2 ^ 28 + 0x3FF * 2 ^ 18))] }
def gSlots : List (Nat × DWord) := [(4, BitVec.ofNat 64 (2 ^ 63 + 0x3FF * 2 ^ 32 + 20))]
/-- The handle in `s4` names gate 20. -/
def Wgate (gt : Gate) (f : Group → Group := id) : State := ((Wg f).setGate 20 gt).setPartn 0 { pt with gateSlots := gSlots }
def askOk (right : Nat) (ok : Grant → Bool) (i : Instr) : State → GRef → Team → Group → Bool := fun s _ t g =>
  g.takingPart i != 0 && decide (g.wait = .none) && calm g && ok (s.grant t.part (g.rdS 4) right)
def gk : Nat := gateKey 0x3FF 20
def granted : Grant → Bool | .ok k _ => k == gk | _ => false
/-- This device has another number than the one that the slots name. -/
def elsewhere (s : State) : State := { s with hub := { s.hub with skcfg := 5 + 2 ^ 10 } }
/-- A gate instruction without a lane, on no gate, on a migrating gate, on the gate, and with its grant at hand; the same at another part. -/
def gCases (i : Instr) (right : Nat) : List (State × Instr × (State → GRef → Team → Group → Bool)) :=
  [(Wn, i, none_ i), (W, i, askOk right (fun a => match a with | .fault 1 4 => true | _ => false) i),
   (Wgate { aGate with st := 3 } , i, askOk right (fun a => match a with | .wait => right != 28 | .ok _ _ => right == 28 | _ => false) i),
   (Wgate aGate, i, askOk right granted i),
   (Wgate aGate fun g => { g with grant := some gk }, i, fun s _ _ g => decide (g.grant = some gk) && g.takingPart i != 0 &&
      s.gateHere gk == some 20),
   (elsewhere (Wgate aGate), i, askOk right (fun a => match a with | .far 4 => true | _ => false) i),
   (Wgate aGate fun g => { g with grant := some 5 }, i, fun s _ _ g => decide (g.grant = some 5) && (s.gateHere 5).isNone &&
      g.takingPart i != 0)]
theorem witness_GateInstructionsAndGrants : Meets (
    gCases (.gsig eh 4 (.imm 1)) 28 ++ gCases (.grd bh 7 4) 30 ++ gCases (.gtry eh 1 4 (.imm 5)) 30 ++ gCases (.gwait eh 7 4 (.imm 6)) 29 ++ [
    (Wgate aGate, .gwait eh 7 4 (.imm 5), fun s _ _ g => decide (5 ≤ (s.gate 20).value.toNat) && !s.gateOlder g g.nextOp gk),
    (Wgate aGate fun g => { g with pend := [oGate (.grd gk 7)], nextOp := 1 }, .gwait eh 7 4 (.imm 5), fun s _ _ g =>
      s.gateOlder g g.nextOp gk),
    (Wgate aGate fun g => { g with wait := .gwait gk 6 none }, .gwait eh 7 4 (.imm 6), fun _ _ _ g => decide (g.wait = .gwait gk 6 none)),
    (Wgate aGate fun g => { g with wait := .gwait gk 6 (some 9) }, .gwait eh 7 4 (.imm 6), fun _ _ _ g =>
      decide (g.wait = .gwait gk 6 (some 9)))]) := meets_of (by decide +kernel)
theorem witness_GateInstructionsAndGrants_here : gk / 65536 = (Wgate aGate).devNum ∧ ((Wgate aGate).gate (gk % 65536)).fwd = none ∧
    (match (elsewhere (Wgate aGate)).grant 0 4 28 with | .far 4 => true | _ => false) = true := by decide +kernel
def isFault (d : Nat) : Grant → Bool | .fault k 4 => k == d | _ => false
def isWait : Grant → Bool | .wait => true | _ => false
theorem witness_GateInstructionsAndGrants_order :
    isFault 1 (W.grant 0 4 28) = true ∧ isFault 1 ((Wgate Gate.reset).grant 0 4 28) = true ∧
    isFault 2 ((Wgate { aGate with acl := [] }).grant 0 4 28) = true ∧
    isFault 2 ((Wgate { aGate with acl := [(0, BitVec.ofNat 32 (2 ^ 31 + 0x3FF * 2 ^ 18))] }).grant 0 4 28) = true ∧
    isWait ((Wgate { aGate with st := 2 }).grant 0 4 29) = true ∧ granted ((Wgate { aGate with st := 2 }).grant 0 4 28) = true ∧
    isWait ((Wgate { aGate with limen := true }).grant 0 4 30) = true ∧
    isFault 3 ((Wgate { aGate with limen := true, mode := true }).grant 0 4 30) = true ∧
    granted ((Wgate { aGate with limen := true, tok := [(0, 1)] }).grant 0 4 30) = true := by decide +kernel
/-- A group that fetches GRD of gate 20, with that word in its code table. -/
def Wask : State := (Wgate aGate).wrNat loadCode 4 0xB8020FF0
theorem witness_GateInstructionsAndGrants_grant : (match Wask.group r0 with
    | some (t, g) => g.canIssue && g.grant.isNone && decide (g.wait = .none) && Wask.interlock t g (.grd bh 7 4) && g.pathFree (.grd bh 7 4) &&
        Instr.gateAsk (.grd bh 7 4) == some (4, 30) &&
        (match Wask.fetch t g.pc.toNat with
          | .got _ (.ok i) => decide (i = .grd bh 7 4) && g.takingPart i != 0 && granted (Wask.grant t.part (g.rdS 4) 30)
          | _ => false)
    | none => false) = true := by decide +kernel
def Wpoint (k : PKind) (more : List Pend) : State :=
  Wgate aGate fun g => { g with pend := more ++ [{ oGate k with id := 1 }], nextOp := 2 }
def gatePointOk (s : State) (here ready : Bool) : Bool := match s.group r0 with
  | some (t, g) => (match g.findOp 1 with
      | some o => o.lanes.length == 1 && decide (o.kind.gate = some gk) | none => false) &&
      (if here then s.gateHere gk == some 20 && (s.gate 20).st == 1 else (s.gateHere gk).isNone) &&
      g.signalReady 1 == ready && g.pend.all fun p => p.id == 1 || p.kind.gate.isNone
  | none => false
/-- A gate with the waiter group 0, registered for 5 or for 6. -/
def Wwaits (th : DWord) : State :=
  Wgate { aGate with waiters := [(.asked r0, th)] } fun g => { g with wait := .gwait gk th none }
def gateRec : BitVec 512 := BitVec.ofNat 512 (7 + (15 * 2 ^ 28 + 0x3FF * 2 ^ 18) * 2 ^ 128)
theorem witness_GatePoints : gatePointOk (Wpoint (.gsig gk 1) []) true true = true ∧
    gatePointOk (Wpoint (.gsig gk 1) [oStore q0]) true false = true ∧ gatePointOk (Wpoint (.grd gk 7) []) true true = true ∧
    gatePointOk (Wpoint (.gtry gk 1 5) []) true true = true ∧ gatePointOk (elsewhere (Wpoint (.gsig gk 1) [])) false true = true ∧
    (elsewhere W).onSkein = true ∧ (elsewhere W).portUp = true ∧ W.onSkein = false ∧
    ((Wwaits 5).gate 20).waiters = [(.asked r0, 5)] ∧ ((Wwaits 6).gate 20).waiters = [(.asked r0, 6)] ∧
    ((Wwaits 5).group r0).map (fun e => e.2.wait) = some (.gwait gk 5 none) ∧
    ((Wwaits 6).group r0).map (fun e => e.2.wait) = some (.gwait gk 6 none) ∧ (Wwaits 5).gateHere gk = some 20 ∧
    W.managed = true ∧ (Wgate aGate).gateBusy 20 = false ∧ (Wgate aGate fun g => { g with grant := some gk }).gateBusy 20 = true ∧
    twf Gate.reset (Wgate aGate).gates = true ∧ (gateCodes 0 gateRec).isEmpty = true ∧ (least (gateCodes 1 gateRec)).isSome = true ∧
    ((Wgate aGate).gate 20).st = 1 ∧ ((Wgate { aGate with st := 2 }).gate 20).st = 2 ∧ (Wgate { aGate with st := 2 }).devNum = 0x3FF ∧
    ((Wgate { aGate with st := 2 }).gate 21).st = 0 ∧
    (W.group r0).map (fun e => (e.2.findOp 0).isNone) = some true ∧ (elsewhere (Wwaits 6)).gateHere gk = none ∧
    ((elsewhere (Wwaits 6)).group r0).map (fun e => e.2.wait) = some (.gwait gk 6 none) ∧
    (elsewhere (Wgate { aGate with st := 2 })).devNum ≠ 7 ∧ ((W.partn 0).grid 0 0).isSome = true ∧
    (((Wgate { aGate with st := 2, held := [⟨.asked r0, 0⟩] } fun g => { g with grant := some gk }).heldAt 20).any fun h =>
      h.who == .asked r0) = true := by decide +kernel

/-! ### The array -/

def onePark (rpl resolved : Bool) : Park :=
  { rpl := rpl, async := false, pc := 64, next := 76, insn := 5, faults := [(0, mkFault 9 1 5 7)], resolved := resolved, op := none }
def ts0 : TrapSt := { em := 3, p := [(0, 1)], pending := 3, park := onePark false false, resume := [], skipped := [] }
/-- A group in trap mode with lanes 0 and 1 pending, or lane 0 alone and the others gone. -/
def inTrap (g : Group) : Group := em 3 { g with trap := some ts0 }
def lastTrap (g : Group) : Group := em 1 { g with trap := some { ts0 with pending := 1 }, exited := 0xFFFFFFFE }
def Wx (f : Arr → Arr) (g : Group → Group := id) : State :=
  let s := wt { tm with groups := [g (gv fun l => BitVec.ofNat 32 l), g0], arr := some (f Arr.start) }
  s.setPartn 0 { pt with tables := pt.tables ++ [(8, some (tab 0 1 64 16384 8 0x600000 0))] }
def image (st : Nat) : State := (Wx id fun g => (g.wrS 8 8).wrS 9 256).wrNat 0x4600100 5 (1 + st * 2 ^ 36)
def drainOk (i : Instr) (acc : Nat) : State → GRef → Team → Group → Bool := fun s _ t g =>
  g.takingPart i != 0 && decide (g.wait = .none) && match s.handle t.part (g.rdS 8) with
    | some (slot, tb) => tKind tb == 0 && tRead tb && tWrite tb && decide ((g.rdS 9).toNat % 256 = 0) &&
        decide ((g.rdS 9).toNat + 737536 ≤ tBytes tb) && (imageFault slot tb true (g.rdS 9).toNat).isNone && decide (s.imageStop t.core t.part slot tb (g.rdS 9).toNat 737536 acc = none)
    | none => false
def mxstartIn (st : Nat) : State × Instr × (State → GRef → Team → Group → Bool) :=
  (Wx fun a => { a with st := st }, .mxstart bh (some 4) 16, fun _ _ t g =>
    (t.arr.map Arr.st) == some st && g.takingPart (.mxstart bh (some 4) 16) != 0 && !g.ended)
theorem witness_MatrixInstructions : Meets ([0, 1, 2, 3, 4, 5].map mxstartIn ++ [
    (Wx id (em 0), .mxstart bh (some 4) 16, fun _ _ t g => t.arr.isSome && g.takingPart (.mxstart bh (some 4) 16) == 0),
    (Wx id, .mxstat 12, fun _ _ t _ => match t.arr with | some a => decide (a.st < 8 ∧ a.w0.wfmt < 16 ∧ a.w1.wfmt < 16) | none => false),
    (Wx id fun g => g.wrS 9 0x500, .mxrd bh 2 1 16 9, fun _ _ _ g => decide ((g.rdS 9).toNat / 256 % 8 + 3 ≤ 8)),
    (Wx id fun g => g.wrS 9 0x600, .mxrd bh 2 1 16 9, fun _ _ _ g => decide (8 < (g.rdS 9).toNat / 256 % 8 + 3) && g.count .mx == 0 && calm g),
    (Wx id fun g => g.wrS 9 0x500, .mxwr bh 2 1 16 9, fun _ _ _ g => decide ((g.rdS 9).toNat / 256 % 8 + 3 ≤ 8)),
    (Wx id fun g => g.wrS 9 0x600, .mxwr bh 2 1 16 9, fun _ _ _ g => decide (8 < (g.rdS 9).toNat / 256 % 8 + 3) && g.count .mx == 0 && calm g),
    (Wx (fun a => { a with st := 1 }) fun g => (g.wrS 8 8).wrS 9 0, .mxdrain bh none 8, fun s r t g =>
      drainOk (.mxdrain bh none 8) 1 s r t g && calm g && t.arr.map Arr.st == some 1),
    (Wx (fun a => { a with st := 3 }) fun g => (g.wrS 8 8).wrS 9 256, .mxdrain bh none 8, fun s r t g =>
      drainOk (.mxdrain bh none 8) 1 s r t g && t.arr.map Arr.st == some 3)]) := meets_of (by decide +kernel)
theorem witness_MatrixInstructions_rest : Meets [
    (Wx id fun g => (g.wrS 8 8).wrS 9 0, .mxrest bh none 8, fun s r t g => drainOk (.mxrest bh none 8) 0 s r t g && calm g),
    (image 5, .mxrest bh none 8, fun s r t g => drainOk (.mxrest bh none 8) 0 s r t g && !g.ended && match t.arr, s.table 0 8 with
      | some a, some tb => (a.ofCells (s.imageCells t.core t.part 8 tb 13 256 737536 0)).isSome
      | _, _ => false)] := meets_of (by decide +kernel)
/-- A group in trap mode whose cluster's core 0 has its array in STATE `st`; its image's place; and its stop. -/
def Wcore (st : Nat) : State := Wx (fun a => { a with st := st }) fun g => em 1 (inTrap ((g.wrS 8 8).wrS 9 256))
def imageAt (t : Table) (s : State) : State := s.setPartn 0 ((s.partn 0).setTable 8 (some t))
def behindWindow (s : State) : State := s.setPartn 0 { s.partn 0 with windows := [(0, 0x8000011)] }
def imgOk (i : Instr) (core : Option (BitVec 3)) (acc : Nat) (p : Option (Nat × Arr) → Option Place → Bool) :
    State → GRef → Team → Group → Bool := fun s r t g => g.takingPart i != 0 && (core.isNone || g.trap.isSome) &&
  match s.handle t.part (g.rdS 8) with
  | some (slot, tb) => (imageFault slot tb true (g.rdS 9).toNat).isNone &&
      p (s.arrayFor r t core) (s.imageStop t.core t.part slot tb (g.rdS 9).toNat 737536 acc)
  | none => false
def tAway : Table := tab 0 1 64 16384 8 0x80000000000 0 true
def isAway : Option Place → Bool | some (.away _) => true | _ => false
def imageCases (i : Option (BitVec 3) → Instr) (acc : Nat) : List (State × Instr × (State → GRef → Team → Group → Bool)) :=
  let own := Wx (fun a => { a with st := 3 }) fun g => (g.wrS 8 8).wrS 9 256
  [(own, i (some 0), fun _ _ _ g => calm g && g.count .mx == 0 && g.takingPart (i none) != 0),
   (W, i none, fun s _ t g => (s.handle t.part (g.rdS 8)).isNone && calm g && g.count .mx == 0),
   (Wx id fun g => (g.wrS 8 8).wrS 9 1, i none, fun s _ t g => (match s.handle t.part (g.rdS 8) with
      | some (slot, tb) => (imageFault slot tb true (g.rdS 9).toNat).isSome | none => false) && calm g),
   (Wcore 5, i (some 0), imgOk (i none) (some 0) acc fun a p => (a.map fun e => e.2.st) == some 5 && p.isNone),
   (Wcore 1, i (some 0), imgOk (i none) (some 0) acc fun a _ => (a.map fun e => e.2.st) == some 1),
   (Wcore 5, i (some 7), imgOk (i none) (some 7) acc fun a _ => a.isNone),
   (imageAt tAway own, i none, imgOk (i none) none acc fun a p => a.isSome && isAway p),
   (imageAt (tab 0 1 64 16384 8 0x80000000000 0) own, i none, imgOk (i none) none acc fun a p => a.isSome &&
      (match p with | some (.error _) => true | _ => false)),
   (moving own, i none, imgOk (i none) none acc fun a p => a.isSome && (match p with | some .busy => true | _ => false)),
   (imageAt (tab 0 1 64 16384 8 0x600000 0) own, i none, imgOk (i none) none acc fun a p => a.isSome && p.isNone)]
theorem witness_MatrixInstructions_images : Meets (imageCases (fun c => .mxdrain bh c 8) 1 ++ imageCases (fun c => .mxrest bh c 8) 0 ++ [
    (behindWindow (Wx (fun a => { a with st := 3 }) fun g => (g.wrS 8 8).wrS 9 256), .mxdrain bh none 8,
      imgOk (.mxdrain bh none 8) none 1 fun a p => a.isSome && (match p with | some .noRight => true | _ => false)),
    (poison 0x4600100 (image 5), .mxrest bh none 8, fun s r t g => drainOk (.mxrest bh none 8) 0 s r t g && calm g &&
      match s.table 0 8 with | some tb => s.imagePoison (some t.core) t.part 8 tb 256 737536 | none => false)]) :=
  meets_of (by decide +kernel)
theorem witness_MatrixInstructions_none : [Instr.mxstart bh none 4, .mxstat 12, .mxrd bh 2 1 16 9, .mxwr bh 2 1 16 9, .mxdrain bh none 8,
    .mxrest bh none 8].all (fun _ => match (wt { tm with record := setFld tRec 109 109 0, arr := none }).group r0 with
      | some (t, g) => !shMX t.shape && calm g && g.redo.isNone && g.faultLanes != 0
      | none => false) = true := by decide +kernel
theorem witness_MatrixInstructions_fits : Arr.start.fits :=
  ⟨⟨by decide, by simp [Arr.start]⟩, fun w hw => by
    rcases hw with rfl | rfl <;> exact ⟨by decide, by decide, by decide, by simp [Arr.start, WSlot.empty], by simp [Arr.start, WSlot.empty]⟩,
    by decide⟩
/-- An image that lies behind a window, whose places follow each other. -/
theorem witness_MatrixInstructions_places (x y : Nat) (h : x ≤ y) (page : (tHeap tBlk + x) / 65536 = (tHeap tBlk + y) / 65536) :
    (behindWindow (Wx id)).imageKey (some 0) 0 8 tBlk y =
    ((behindWindow (Wx id)).imageKey (some 0) 0 8 tBlk x).map fun k => k + (y - x) := by
  have w : ((behindWindow (Wx id)).partn 0).windowOf 8 = some 0x8000011 := by decide +kernel
  have base : fld (0x8000011 : BitVec 256) 255 192 = 0 := by decide
  rw [show tHeap tBlk = 0x300000 by decide +kernel] at page
  simp only [State.imageKey, State.locate, w, windowKey, mkKey, base, Option.map_some, Option.some.injEq]
  omega
theorem leNat_zeros (l : List Byte) (h : ∀ b, b ∈ l → b = 0) : leNat l = 0 := by
  induction l with
  | nil => rfl
  | cons b l ih =>
    simp only [leNat]
    rw [h b (by simp), ih fun c hc => h c (by simp [hc])]; rfl
/-- The image whose only byte is its version, and one without a version. -/
theorem witness_MatrixInstructions_cells : let byte := fun o => tget (0 : Byte) [(0, 1)] o
    let h : BitVec 2048 := BitVec.ofNat 2048 (imageNum byte 0 256)
    ([(0, 1)] : List (Nat × Byte)).Pairwise (fun x y => x.1 < y.1) ∧ fld h 15 0 = 1 ∧ fld h 2047 16 = 0 ∧
    (∀ o n, 0 < o → imageNum byte o n = 0) ∧
    fld (BitVec.ofNat 2048 (imageNum (fun o => tget 0 ([] : List (Nat × Byte)) o) 0 256)) 15 0 ≠ 1 := by
  refine ⟨by simp, by decide +kernel, by decide +kernel, fun o n ho => leNat_zeros _ fun b hb => ?_, by decide +kernel⟩
  obtain ⟨i, -, rfl⟩ := List.mem_map.mp hb
  simp [tget]; omega
theorem witness_MatrixInstructions_drained : (({ tm with st := .draining } : Team).st == .draining) = true ∧
    tm.part = 0 := by decide +kernel
theorem witness_MatrixInstructions_poison : ((Wx id).setPartn 0 pt).poison = [] ∧ (Wx id fun g => (g.wrS 8 8).wrS 9 0).mem.all
    (fun c => decide (c.1 < 0x4600000)) = true := by decide +kernel
theorem witness_MatrixInstructions_points : MeetsPoint [
    (Wo (pend (.mxrd 1) .mx 0 2 [{ mkReq 0 with addr := 3, va := 1, reg := 16 }]), pend (.mxrd 1) .mx 0 2 [{ mkReq 0 with addr := 3, va := 1, reg := 16 }],
      { mkReq 0 with addr := 3, va := 1, reg := 16 }, fun _ t _ => match t.arr with | some a => a.st != 5 | none => false),
    (Wo (pend (.mxwr 1) .mx 0 0 [{ mkReq 0 with addr := 3, va := 1, key := 2 }]), pend (.mxwr 1) .mx 0 0 [{ mkReq 0 with addr := 3, va := 1, key := 2 }],
      { mkReq 0 with addr := 3, va := 1, key := 2 }, fun _ t _ => match t.arr with | some a => a.st != 5 | none => false)] :=
  meetsPoint_of (by decide +kernel)

def wq (v : Word) (op : List Pend := []) : State :=
  { wt { tm with groups := [{ g0 with pend := op }, g0], bars := [(1, { e := 2, a := 0, ph := false })]
                 arr := some { Arr.start with st := 1, q := [(1, v)], op0 := 1 } } with seq := some 0 }
def seqOk (s : State) (p : Team → Arr → Bool) : Bool := match s.seq, s.team 0 with
  | some 0, some t => (match t.arr with | some a => a.st == 1 && p t a | none => false)
  | _, _ => false
theorem seqTurn_of {s : State} {p : Team → Arr → Bool} (h : seqOk s p = true) : ∃ t a, SeqTurn s 0 t a ∧ p t a = true := by
  unfold seqOk at h
  split at h
  · rename_i t hs ht
    split at h
    · rename_i a ha
      simp only [Bool.and_eq_true, beq_iff_eq] at h
      exact ⟨t, a, ⟨hs, ht, ha, h.1⟩, h.2⟩
    · cases h
  · cases h
/-- A team of whose array the sequencer executes a word; its barriers, its loop, its q[1] and the earlier accesses are as
each clause asks. -/
theorem witness_TileWords :
    (∃ t a, SeqTurn (wq 16) 0 t a ∧ ((tget 0 a.q 1).toNat % 16 == 0 && t.readsReady a && (t.bar 0).e == 0 && (t.bar 1).e != 0 &&
      (t.bar 1).ph != true && (t.bar 1).ph == false && a.lcnt == 0) = true) ∧
    (∃ t a, SeqTurn (wq 8) 0 t a ∧ ((tget 0 a.q 1).toNat % 16 != 0) = true) ∧
    (∃ t a, SeqTurn (wq 16 [{ oLoad q0 with kind := .lds }]) 0 t a ∧ (!t.readsReady a) = true) ∧
    (∃ t a, SeqTurn (wa fun a => { a with lcnt := 3, loff := 0, spc := 0 }) 0 t a ∧ (a.lcnt != 0 && a.loff == a.spc) = true) ∧
    (∃ t a, SeqTurn (wa fun a => { a with lcnt := 3, loff := 8, spc := 0 }) 0 t a ∧ (a.lcnt != 0 && a.loff != a.spc) = true) :=
  ⟨seqTurn_of (p := fun t a => (tget 0 a.q 1).toNat % 16 == 0 && t.readsReady a && (t.bar 0).e == 0 && (t.bar 1).e != 0 &&
      (t.bar 1).ph != true && (t.bar 1).ph == false && a.lcnt == 0) (by decide +kernel),
   seqTurn_of (p := fun _ a => (tget 0 a.q 1).toNat % 16 != 0) (by decide +kernel),
   seqTurn_of (p := fun t a => !t.readsReady a) (by decide +kernel),
   seqTurn_of (p := fun _ a => a.lcnt != 0 && a.loff == a.spc) (by decide +kernel),
   seqTurn_of (p := fun _ a => a.lcnt != 0 && a.loff != a.spc) (by decide +kernel)⟩
theorem witness_TileWords_values : (fdec .f32 0x7FA00000).isNaN = true ∧ fdec .f32 0xFF800000 = .inf true ∧
    (match fdec .f32 0 with | .fin false 0 _ => true | _ => false) = true ∧ (fdec .f32 0x3F800000).num = some 1 := by decide +kernel
theorem witness_TileWords_wait : (match (wa fun a => { a with bn := 1 }).team 0 with
    | some t => (match t.arr with
      | some a => (({ wa id with seq := some 0 } : State).setTeam 0 (some { t with arr := some { a with st := 2 } })).seq == some 0 &&
          (t.bar 1).ph != true
      | none => false)
    | none => false) = true := by decide +kernel
theorem witness_ArrayArithmetic : (FV.fin true 3 (-1)).num = some (-3 / 2) ∧ (List.replicate 32 (0 : Int)).length = 32 ∧
    twf 0 WSlot.empty.el = true ∧ (∀ k, k < 32 → elCls (tget 0 WSlot.empty.el k) = 0) ∧ WSlot.empty.colsq 0 0 = 0 := by
  refine ⟨by norm_num [FV.num], by decide, by decide, by decide +kernel, by decide +kernel⟩
/-- Bands of 1s, and of 1s with a NaN or an infinity; elements that are 1, but for one. -/
def band (x y : FV) : BandA := { xs := x :: y :: List.replicate 30 (.fin false 1 0), as := [], ea := 0, pads := [] }
def ones (e0 e1 : BitVec 24) : WSlot := { WSlot.empty with el := [(0, e0), (1, e1)] }
def one : FV := .fin false 1 0
/-- No special value; a NaN; an infinity on a zero; infinite products of both signs, and of one. -/
theorem witness_ArrayArithmetic_specials : (WSlot.empty.scale 0 0).num = some ((2 : Rat) ^ (-12 : Int)) ∧
    ((band one one).xs.all fun x => x.cls == 0) = true ∧ (WSlot.empty.el.all fun e => elCls e.2 == 0) = true ∧
    (band (.nan false) one).xs.length = 32 ∧ ((ones (elWord 3 0) 0).sort 0 0).1 = 3 ∧
    (ones 0 0).sort 0 0 = (0, none) ∧ (ones (elWord 0 1) (elWord 0 (-1))).sort 0 0 = (0, some false) ∧
    (ones (elWord 0 1) (elWord 0 (-1))).sort 0 1 = (0, some true) ∧ (ones (elWord 1 0) (elWord 2 0)).sort 0 1 = (2, some true) ∧
    (FV.inf false).isInf = true ∧ one.isZero = false ∧ ({ band (.inf false) one with pads := [true] } : BandA).pads.getD 0 false = true ∧
    (band (.inf false) one).pads.getD 0 false = false ∧ (ones 0 0).pad 0 0 = false ∧ (ones 0 0).wfmt = 0 ∧
    ({ ones 0 0 with wfmt := 5 } : WSlot).wfmt ≠ 0 ∧ fdec .f32 0x7F800000 = .inf false ∧ fdec .f32 0x7FA00000 = .nan true := by
  have scale : WSlot.empty.scale 0 0 = .fin false 1 (-12) := by decide +kernel
  refine ⟨by rw [scale]; norm_num [FV.num], ?_⟩
  decide +kernel

/-! ### Traps -/

def unmapped (s : State) : State := s.setPartn 0 { pt with tables := [(1, some (tab 0 1 16 64 1 0x80000000000 0))] }
def unmappedP (s : State) : State := s.setPartn 0 { pt with tables := [(1, some (tab 0 1 16 64 1 0x80000000000 0 true))] }
/-- The group's instruction issues again, for lane 0. -/
def again (s : State) : State := s.setTeam 0 ((s.team 0).map fun t => { t with
  groups := (t.groups.map fun g => { g with redo := some ⟨1, 64⟩ }) })
def atPc (pc : Word) : State := Wg fun g => { g with pc := pc }
/-- A code table of 16 bytes, with the base word of a 12-byte instruction at 8. -/
def short : State := ((atPc 8).setPartn 0 { pt with tables := [(1, some (tab 0 1 16 1 1 0 0))] }).wrNat 0x4000008 4 0xF8030C42
/-- Whether group 0 stands ready for a park of the whole group, and its fetch answers as asked. -/
def fetchOk (s : State) (p : Fetched → Bool) : Bool := match s.cur, s.group r0 with
  | some _, some (t, g) => decide (s.cur = some r0) && g.trap.isNone && decide (g.parks.length < 4) && g.faultLanes != 0 &&
      (match g.redo with | some d => g.faultLanes &&& d.noted != 0 | none => true) && p (s.fetch t g.pc.toNat)
  | _, _ => false
def stopsAs (st : List SeqStop) : State := wt { tm with groups := [g0, g0], arr := some { Arr.start with st := 4, stops := st } }
theorem witness_DeliberateTrapsAndStops : Meets ([Instr.trap bh 5, .brk bh 0].flatMap fun i =>
    [(Wn, i, none_ i), (W, i, fun _ _ _ g => calm g && g.takingPart i != 0),
     (Wg inTrap, i, fun _ _ _ g => g.trap.isSome && g.takingPart i != 0 && !g.ended)]) := meets_of (by decide +kernel)
theorem witness_DeliberateTrapsAndStops_fetch :
    fetchOk W (fun _ => true) = true ∧ fetchOk short (fun a => match a with | .range (some _) => true | _ => false) = true ∧
    fetchOk (atPc 1024) (fun a => match a with | .range none => true | _ => false) = true ∧
    fetchOk (poison 0x4000000 W) (fun a => match a with | .poison _ _ none => true | _ => false) = true ∧
    fetchOk (poison 0x4000040 ((atPc 60).wrNat 0x400003C 4 0xF8030C42)) (fun a => match a with | .poison _ _ (some _) => true | _ => false) = true ∧
    fetchOk (again (poison 0x4000000 W)) (fun a => match a with | .poison _ _ none => true | _ => false) = true ∧
    fetchOk (unmappedP W) (fun a => match a with | .miss _ => true | _ => false) = true ∧
    (unmappedP W).codePaged tm = true ∧ (unmapped W).codePaged tm = false ∧
    fetchOk (unmapped W) (fun a => match a with | .miss _ => true | _ => false) = true := by decide +kernel
theorem witness_DeliberateTrapsAndStops_tile :
    (∃ t a, SeqTurn (unmapped (wq 16)) 0 t a ∧ (!a.miss && match (unmapped (wq 16)).tfetch t a.spc.toNat with
      | .miss _ => true | _ => false) = true) :=
  seqTurn_of (p := fun t a => !a.miss && match (unmapped (wq 16)).tfetch t a.spc.toNat with | .miss _ => true | _ => false)
    (by decide +kernel)
theorem witness_DeliberateTrapsAndStops_stops : (match (stopsAs [⟨1, 0x22, 5, 8, 0⟩]).team 0 with
    | some t => (t.arr.map fun a => a.stops.length) == some 1 && (match t.groups[0]? with
      | some g => !g.ended && !g.halted && g.whole.isNone && g.trap.isNone && g.faultLanes != 0 && g.parks.isEmpty
      | none => false)
    | none => false) = true ∧ ((stopsAs []).team 0).map (fun t => t.arr.map Arr.stops) = some (some []) := by decide +kernel
/-- A group whose only lane is parked, and a handler at 256, or none. -/
def Wpark (p : Park) (en : Bool) : State :=
  (wg fun g => em 0 { g with exited := 0xFFFFFFFE, parks := [p] }).setPartn 0 { pt with trapcfg := if en then 0x100000100 else 0 }
def serveOk (s : State) (p : Park) (en : Bool) : Bool := match s.group r0 with
  | some (t, g) => g.serves && !g.atHead && !g.arrived && g.catchUp.isNone && decide (g.parks = [p]) && g.pend.isEmpty &&
      ((s.partn t.part).trapcfg).getLsbD 32 == en
  | none => false
/-- A stop for group 0, which has not ended or has, so that MXGRP passes to group 1. -/
theorem witness_DeliberateTrapsAndStops_passes : ({ tm with groups := [g0, g0] } : Team).passesTo 0 0 ∧
    ({ tm with groups := [{ g0 with exited := allOnes }, g0] } : Team).passesTo 0 1 ∧
    [g0, { g0 with whole := some ⟨1, 1, onePark true false, false⟩ }, { g0 with redo := some ⟨1, 64⟩ },
      { g0 with stop := .stopped }].map (fun g => (g.halted, g.whole.isNone && g.redo.isNone && decide (g.stop ≠ .stopped))) =
      [(false, true), (false, false), (false, false), (false, false)] := by
  refine ⟨⟨⟨g0, rfl, by decide +kernel⟩, fun _ => rfl, fun h => absurd ⟨g0, rfl, by decide +kernel⟩ h⟩,
    ⟨⟨g0, rfl, by decide +kernel⟩, fun ⟨g, hg, he⟩ => ?_, fun _ j hj ⟨g, hg, he⟩ => ?_⟩, by decide +kernel⟩
  · cases hg; revert he; decide +kernel
  · obtain rfl : j = 0 := by omega
    cases hg; revert he; decide +kernel
theorem witness_TakingAnException : serveOk (Wpark (onePark false false) true) (onePark false false) true = true ∧
    serveOk (Wpark (onePark false false) false) (onePark false false) false = true ∧
    (((Wpark { onePark false false with op := some 0 } true).setTeam 0 (((Wpark { onePark false false with op := some 0 } true).team 0).map fun t =>
      { t with groups := t.groups.map fun g => { g with pend := [oLoad q0] } })).group r0).any (fun e =>
        e.2.parks.any fun p => p.open e.2) = true ∧
    serveOk (Wpark (onePark true false) true) (onePark true false) true = true ∧
    serveOk (Wpark (onePark true true) true) (onePark true true) true = true ∧
    ((onePark false false).faults.map Prod.fst).Nodup ∧ (onePark false false).faults.all (fun x => decide (x.1 < 32)) = true := by
  decide +kernel
/-- Lanes that arrive where others wait, with a turn outstanding, with none and no park, and with a resolved park. -/
def arrives (resume : List LaneTurn) (ps : List Park) : Option Group := (Wg fun g => em 1 { g with
  catchUp := some ⟨some g.pc, false, 2, 2, resume⟩, parks := ps }).group r0 |>.map Prod.snd
theorem witness_TakingAnException_arrives : [arrives [⟨4, 4, 64⟩] [], arrives [] [], arrives [] [onePark true true]].all
    (fun g => g.any fun g => g.serves && g.arrived && g.catchUp.isSome) = true ∧ twf Gate.reset (Wgate aGate).gates = true := by
  decide +kernel
/-- Lanes that arrive where the others of an issue without a free slot wait, with a park that is not served there. -/
theorem witness_TakingAnException_point : ((Wg fun g => em 1 { g with catchUp := some ⟨some g.pc, true, 2, 2, []⟩
                                                                      parks := [onePark true true] }).group r0).map (fun e => (e.2.serves && e.2.arrived, e.2.catchUp.map CatchUp.point)) =
    some (true, some true) := by decide +kernel
/-- Four parks. -/
def fourParks (g : Group) : Group := em 1 { g with parks := List.replicate 4 (onePark false false) }
def noSlot (en : Bool) : State := (Wg fourParks).setPartn 0 { pt with trapcfg := if en then 0x100000100 else 0 }
theorem witness_TakingAnException_full : Meets ([true, false].map fun en => (noSlot en, .trap bh 5, fun s _ t g =>
    g.trap.isNone && !g.halted && !g.ended && g.catchUp.isNone && decide (4 ≤ g.parks.length) && g.takingPart (.trap bh 5) != 0 &&
      (s.partn t.part).trapcfg.getLsbD 32 == en)) := meets_of (by decide +kernel)
/-- Faults of two lanes with one cause, behind one with a higher cause: the record names lane 1's. -/
theorem witness_TakingAnException_record :
    let p : Park := { onePark false false with faults := [(0, mkFault 9 1 5 7), (1, mkFault 7 2 6 8), (2, mkFault 7 3 6 8)] }
    p.faults = [(0, mkFault 9 1 5 7)] ++ (1, mkFault 7 2 6 8) :: [(2, mkFault 7 3 6 8)] ∧
    (mkFault 7 2 6 8).cause.toNat < (mkFault 9 1 5 7).cause.toNat ∧ p.record.extractLsb' 16 16 = 2 := by decide +kernel
/-- TRET that hands a lane back, and TRET of the last lane. -/
def someBack (f : TretForm) : State × Instr × (State → GRef → Team → Group → Bool) :=
  (Wg fun g => em 1 (inTrap g), .tret bh f, fun _ _ _ g => match g.trap with
    | some ts => g.takingPart (.tret bh f) != 0 && g.redo.isNone && (ts.pending &&& ~~~g.takingPart (.tret bh f)) != 0 &&
        !g.ended && (g.exited ||| g.takingPart (.tret bh f)) != 0xFFFFFFFF
    | none => false)
def allBack (f : TretForm) : State × Instr × (State → GRef → Team → Group → Bool) :=
  (Wg lastTrap, .tret bh f, fun _ _ _ g => match g.trap with
    | some ts => g.takingPart (.tret bh f) != 0 && g.redo.isNone && (ts.pending &&& ~~~g.takingPart (.tret bh f)) == 0 &&
        ts.resume.isEmpty && ts.skipped.isEmpty && !g.ended && !g.halted && g.whole.isNone && decide (g.stop ≠ .stopped) &&
        !g.atHead && g.catchUp.isNone && ~~~(g.exited ||| parkLanes g.parks ||| g.takingPart (.tret bh f)) == 0
    | none => false)
/-- TRET.TERM of the last lane, after a lane that runs again. -/
def termBack : State × Instr × (State → GRef → Team → Group → Bool) :=
  (Wg fun g => { lastTrap g with exited := 0xFFFFFFFC, trap := some { ts0 with pending := 1, resume := [(2, 64)] } }, .tret bh .term,
      fun _ _ _ g => match g.trap with
        | some ts => (ts.pending &&& ~~~g.takingPart (.tret bh .term)) == 0 && ts.resume == [(2, 64)] && !g.ended &&
            (g.exited ||| g.takingPart (.tret bh .term)) != 0xFFFFFFFF &&
            ~~~(g.exited ||| g.takingPart (.tret bh .term) ||| parkLanes g.parks ||| 2) == 0
        | none => false)
theorem witness_TrapReturn : Meets ([TretForm.retry, .skip, .term].map someBack ++ [TretForm.retry, .skip].map allBack ++ [
    termBack,
    (Wg fun g => { lastTrap g with exited := 0xFFFFFFFC, catchUp := some ⟨none, false, 0, 2, []⟩ }, .tret bh .retry, fun _ _ _ g =>
      g.trap.isSome && g.catchUp.isSome && !g.ended && !g.halted && g.whole.isNone && decide (g.stop ≠ .stopped) && !g.atHead &&
        ~~~(g.exited ||| parkLanes g.parks ||| g.takingPart (.tret bh .retry) ||| 2) == 0),
    (W, .tret bh .retry, fun _ _ _ g => calm g && g.em != 0),
    (Wg fun g => em 0 (inTrap g), .tret bh .retry, fun _ _ _ g => g.trap.isSome && g.takingPart (.tret bh .retry) == 0)]) :=
  meets_of (by decide +kernel)

/-! ### Spools, commands, teams and reports -/

def spOn : Spool := { Spool.reset with cfg := 0x400520, tail := 1 }
def Wsp (sp : Spool) (p : Partition → Partition := id) : State := W.setPartn 0 (p (pt.setSpool 1 sp))
theorem witness_RegisterWrites : (Wsp Spool.reset).table 0 5 = some tRing ∧ ringTable tRing 4 = true ∧
    (((Wsp Spool.reset).partn 0).spool 1).cfg.getLsbD 5 = false ∧ fld (0x400520 : DWord) 19 8 = 5 ∧ fld (0x400520 : DWord) 24 20 = 4 ∧
    fld (0x400520 : DWord) 63 25 = 0 ∧ (0x400520 : DWord).getLsbD 6 = false ∧ (0x400520 : DWord).getLsbD 5 = true ∧
    (((Wsp spOn).partn 0).spool 1).cfg.getLsbD 5 = true ∧ spOn.cfg &&& ~~~(0x1FFFFBF : DWord) = 0 ∧
    (0x400521 : DWord) &&& 0x1FFFF9F ≠ spOn.cfg &&& 0x1FFFF9F ∧ spOn.cfg.getLsbD 7 = false ∧
    ((16 : Word) - spOn.head).toNat ≤ 2 ^ fld spOn.cfg 24 20 ∧ 2 ^ fld spOn.cfg 24 20 < ((17 : Word) - spOn.head).toNat ∧
    (0x4005A0 : DWord).getLsbD 7 = true ∧ (0x501 : DWord).getLsbD 0 = true ∧ fld (0x501 : DWord) 63 20 = 0 ∧
    fld (0x501 : DWord) 7 1 = 0 ∧ fld (0x501 : DWord) 19 8 = 5 ∧ trapSUP ((Wsp spOn).partn 0) = 0 ∧ tCap tRing < 2 ^ 5 ∧
    W.hub.boot = .running ∧ ({ W with hub := { W.hub with boot := .recovery } } : State).hub.boot = .recovery ∧
    barHas 0 0x10 8 = true ∧ (W.partn 0).timectl.getLsbD 0 = false ∧ ((Wgate aGate).gate 20).st ≠ 2 ∧
    (639 < 640 ∧ 640 ≤ 640 ∧ 1022 ≤ 1022 ∧ 1022 < 1023) := by decide +kernel
/-- Spool 1 holds one record: a work record like the running one, or a word of another kind. -/
def Wring (rec : Nat) (sp : Spool := spOn) (p : Partition → Partition := id) : State :=
  (Wsp sp p).wrNat 0x4400000 32 rec
def tie0 : ErrTie := { part := 0, spool := 1, pos := 0, slot := 5 }
/-- The running record, with row 6 of slot 2 as its root. -/
def workRec : Nat := loadRecord.toNat + 2 * 2 ^ 180 + 6 * 2 ^ 192
def takesOk (s : State) (c : Option Nat → Bool) : Bool := (s.partn 0).takes 1 && match s.table 0 5 with
  | some t =>
    let s0 := s.touchImage none 0 5 t 0 32
    (s.hubWait2 tie0 5 t 0 32).isNone && c (s0.recordCode 0 0 (BitVec.ofNat 256 (leNat (s0.imageRead none 0 5 t 0 32))))
  | none => false
/-- The same with the ring at an address that nothing maps. -/
def ringLost (s : State) : State := s.setPartn 0 ((s.partn 0).setTable 5 (some { tRing with record := setFld tRing.record 319 256 (2 ^ 40) }))
/-- The record before the next of spool 1, an early dependent launch allowed or not. -/
def beforeIt (trig : Bool) (p : Partition) : Partition :=
  { p with grids := [{ newGrid 1 0xFFFFFFFF loadRecord with placed := if trig then 1 else 0 }] }
theorem witness_TakingRecords : takesOk (Wring workRec) Option.isNone = true ∧ ((Wring workRec).partn 0).before 1 = none ∧
    takesOk (Wring (workRec + 2)) (· == some 0x20) = true ∧
    (((Wring workRec spOn (beforeIt true)).partn 0).before 1).isSome = true ∧
    ((((Wring workRec spOn (beforeIt true)).partn 0).before 1).map ((Wring workRec spOn (beforeIt true)).triggered 0)) = some true ∧
    ((((Wring workRec spOn (beforeIt false)).partn 0).before 1).map ((Wring workRec spOn (beforeIt false)).triggered 0)) = some false ∧
    (W.partn 0).takes 1 = false ∧ ((ringLost (Wring workRec)).partn 0).takes 1 = true ∧
    ((ringLost (Wring workRec)).table 0 5).any (fun t => ((ringLost (Wring workRec)).hubWait2 tie0 5 t 0 32).isSome) = true ∧
    (BitVec.ofNat 256 (workRec + 2 ^ 108)).getLsbD 108 = true ∧
    takesOk (Wring (workRec + 2 ^ 108) spOn (beforeIt true)) Option.isNone = true ∧
    takesOk (Wring workRec spOn (beforeIt true)) Option.isNone = true ∧ (BitVec.ofNat 256 workRec).getLsbD 108 = false := by
  decide +kernel
/-- A command on row 6 of slot 2, or with an operand block in slot 4, taken by spool 1. -/
def cmd (kind slot key : Nat) (op : Option EngOp) (x : Nat := 0) : Grid :=
  { newGrid 1 0 (BitVec.ofNat 256 (1 + kind * 4 + slot * 2 ^ 116 + key * 2 ^ 128 + x * 2 ^ 192)) with op := op }
/-- A copy between two tiles of slot 2, its layouts in rows 0 and 2 of slot 4, its block in row 3. -/
def copyBlock : Nat := 4 * 2 ^ 116 + 128 * 2 ^ 128 + 4 * 2 ^ 308 + 2 ^ 320 * 0 + 8 * 2 ^ 384
def Wcmd (g : Grid) : State :=
  let s := (We opColl).setPartn 0 { pe with grids := [g] }
  (s.wrNat 0x4300080 64 layout).wrNat 0x43000C0 64 copyBlock
def opCopyCmd : EngOp := (mkEng .copy none [0, 0, 4, 0, 63]).laidOut 2 [BitVec.ofNat 512 layout, BitVec.ofNat 512 layout]
def tgtOk (s : State) (kind : Nat) (c : Nat → Bool) : Bool := match (s.partn 0).command 1 kind with
  | some g => (match s.target 0 g.record with
    | some (slot, t, off) => (s.hubWait2 tie0 slot t off 8).isNone && (match s.imageKey none 0 slot t off with
      | some key => c ((s.touchImage none 0 slot t off 8).rdNat key 8) && (s.holder (key / 128)).isNone | none => false)
    | none => false)
  | none => false
theorem witness_SpoolCommands : tgtOk (Wcmd (cmd 1 2 6 none)) 1 (fun v => decide (0 ≤ v)) = true ∧
    tgtOk (Wcmd (cmd 1 2 6 none 1)) 1 (fun v => decide (¬ (1 ≤ v))) = true ∧ tgtOk (Wcmd (cmd 2 2 6 none)) 2 (fun _ => true) = true ∧
    ((Wcmd (cmd 2 2 6 none)).partn 0).grids.all (fun e => e.pos == 0) = true ∧
    [cmd 1 2 6 none, cmd 2 2 6 none].all (fun g => match (lost (Wcmd g)).target 0 g.record with
      | some (slot, t, off) => ((lost (Wcmd g)).hubWait tie0 slot t off 8 false).isSome && ((lost (Wcmd g)).hubWait2 tie0 slot t off 8).isSome
      | none => false) = true := by decide +kernel
theorem witness_SpoolCommands_copy :
    let s := Wcmd (cmd 3 4 3 none)
    ((s.partn 0).command 1 3).isSome = true ∧ s.denseRow 0 4 64 3 = true ∧ s.denseRow 0 4 64 64 = false ∧
    isMiss ((lost s).coBlock 0 4 3) = true ∧ isBusy ((moving s).coBlock 0 4 3) = true ∧
    readsAs (s.coBlock 0 4 3) (fun blk => fld blk 511 448 == 0 && fld blk 307 256 == 0 && fld blk 115 0 == 0 &&
      readsAs (s.layoutAt none 0 (BitVec.ofNat 64 (fld blk 127 116)) (fld blk 191 128)) fun sl =>
        readsAs (s.layoutAt none 0 (BitVec.ofNat 64 (fld blk 319 308)) (fld blk 383 320)) fun dl =>
          (s.layoutCodes 0 sl).isEmpty && (s.layoutCodes 0 dl).isEmpty && lyRows sl == lyRows dl) = true := by decide +kernel
theorem witness_SpoolCommands_items :
    (((Wcmd (cmd 3 4 3 (some opCopyCmd))).partn 0).command 1 3).map (fun g => g.op) = some (some opCopyCmd) ∧
    hasItem 0 opCopyCmd.items = true ∧ (lyRow tDense (BitVec.ofNat 512 layout) 63).isSome = true ∧
    lyRow tDense (BitVec.ofNat 512 layout) 64 = none ∧
    readsAs ((Wcmd (cmd 3 4 3 (some opCopyCmd))).writeRuns none false 0 2 tDense 63 (lyRuns (BitVec.ofNat 512 layout))
      (List.replicate 16 0)) (fun _ => true) = true ∧
    [id, poison 0x4100000, lost, moving].map (fun f =>
      let s := f (Wcmd (cmd 3 4 3 (some opCopyCmd)))
      (s.held 0 2).map fun tb =>
        let x := (s.touchRow none 0 2 tb 0).readRuns none 0 2 tb 0 (lyRuns (BitVec.ofNat 512 layout))
        if readsAs x fun _ => true then 0 else if isCode x 0x1C then 1 else if isMiss x then 2 else if isBusy x then 3 else 4) =
      [some 0, some 1, some 2, some 3] ∧
    isMiss ((Wcmd (cmd 3 4 3 (some opCopyCmd))).writeRuns none false 0 9 (tab 0 0 16 64 9 (2 ^ 40) 0) 0
      (lyRuns (BitVec.ofNat 512 layout)) (List.replicate 16 0)) = true := by decide +kernel
theorem witness_SpoolCommands_coll :
    let s := Wcmd (cmd 4 4 1 none)
    ((s.partn 0).command 1 4).isSome = true ∧ readsAs (s.coBlock 0 4 1) (fun blk => blk == BitVec.ofNat 512 block &&
      readsAs (s.coRank 0 7) fun c => (s.coCodes 0 blk (some c)).isEmpty) = true ∧ isCode (s.coBlock 0 9 1) 0x39 = true ∧
    isMiss ((lost s).coBlock 0 4 1) = true ∧ (let s0 := (s.useBlock 0 4 1).useComm 0 7
      readsAs (s0.coRank 0 7) fun c => (s0.coCodes 0 (BitVec.ofNat 512 block) (some c)).isEmpty) = true ∧
    coItems (BitVec.ofNat 512 block) 2 ≠ 0 ∧
    (onSk s).coPeer (BitVec.ofNat 512 block) ranks heads1 1 = some true ∧
    s.coPeer (BitVec.ofNat 512 block) ranks heads1 1 = none ∧
    readsAs (((onSk s).useSources 0 (BitVec.ofNat 512 block) ranks 1).coValue 0 (BitVec.ofNat 512 block) ranks 1 far1) (fun v =>
      readsAs (((onSk s).useSources 0 (BitVec.ofNat 512 block) ranks 1).coWrite none false 0 (BitVec.ofNat 512 block) (coAt (BitVec.ofNat 512 block) ranks 1) (.ok v)) fun _ => true) = true := by
  decide +kernel
theorem witness_SpoolCommands_begun : [opJoined, opCollAt 1].map (fun op =>
    (((Wcmd (cmd 4 4 1 (some op))).partn 0).command 1 4).map fun g => (g.op == some op, op.coll == some ranks, op.begun, op.stall)) =
    [some (true, true, false, none), some (true, true, true, none)] ∧ hasItem 1 (opCollAt 1).items = true ∧
    (Wcmd (cmd 4 4 1 (some opJoined))).coCodes 0 opJoined.rec0 (some ranks) = [] ∧ itemsLeft (opCollAt 1).items ≠ 1 ∧
    ({ opCopyCmd with items := [] } : EngOp).begun = true ∧ opCopyCmd.bad = [] ∧ opCopyCmd.rej = none := by decide +kernel
def newG : Grid := newGrid 1 0 loadRecord
def openG : Grid := { newG with record := BitVec.ofNat 256 (workRec - 2 ^ 107) }
/-- A co-resident grid of two teams with the array. -/
def wideG : Grid := { newG with record := BitVec.ofNat 256 (workRec + 2 ^ 128) }
def Wplace (g : Grid) : State := { State.reset with parts := [(0, { pt with grids := [g] })] }
theorem witness_TeamsStartAndEnd : ((Wplace openG).partn 0).grid 1 0 = some openG ∧ pEN ((Wplace openG).partn 0) = true ∧
    ((Wplace openG).partn 0).inSlice = true ∧ openG.open = true ∧ 3 ∈ ((Wplace openG).partn 0).clusterList ∧
    (Wplace openG).outranked 0 openG 3 = false ∧ shCORES (recShape openG.record) = false ∧
    (Wplace openG).nextGangAt 0 openG 3 = some [24] ∧
    (loadOf ((Wplace openG).coreTeams 0 24)).room (recShape openG.record) = some 0 ∧ (Wplace openG).hub.power = .p0 ∧
    (Wplace wideG).layout 0 wideG = some [[0], [1]] ∧ ([[0], [1]].all fun cs => !(Wplace wideG).outranked 0 wideG (cs.getD 0 0 / 8)) = true ∧
    (Wplace { openG with placed := 0, record := openG.record ||| BitVec.ofNat 256 (2 ^ 31 * 2 ^ 64 + 511 * 2 ^ 87) }).nextGangAt 0
      { openG with record := openG.record ||| BitVec.ofNat 256 (511 * 2 ^ 87) } 3 = none := by decide +kernel
/-- A team of one group that has ended. -/
def doneTeam : Team := { tm with groups := [{ g0 with exited := 0xFFFFFFFF }] }
def Wdone : State := (wt doneTeam).setPartn 0 { pt with grids := [{ newGrid 0 0 tRec with placed := 1 }] }
theorem witness_TeamsStartAndEnd_end : (match Wdone.team 0 with
    | some t => t.groups.all (fun g => g.ended && g.parks.isEmpty && g.pend.isEmpty) && t.engs.isEmpty &&
        (t.arr.map Arr.st) == some 0 && !t.record.getLsbD 155 && decide ((Wdone.core t.core).outb = []) &&
        decide ((Wdone.cluster (t.core / 8)).hot = []) && decide (t.why = .none) && !t.abandon &&
        (match (Wdone.partn t.part).grid t.spool t.pos with | some g => g.isWork && !g.retired && !g.aborted | none => false) &&
        decide (Wdone.teams.length = 1)
    | none => false) = true ∧ (match W.team 0 with | some t => t.groups.any fun g => !g.ended | none => false) = true := by
  decide +kernel
/-- Streams that are over, and streams that are abandoned. -/
theorem witness_TeamsStartAndEnd_abandoned : [(0, []), (3, []), (4, []), (2, []), (4, [⟨1, 0x22, 5, 8, 0⟩])].map (fun e =>
    let a : Arr := { Arr.start with st := e.1, stops := e.2 }
    decide (a.st = 2 ∨ (a.st = 4 ∧ a.stops ≠ []))) = [false, false, false, true, true] ∧
    ({ doneTeam with abandon := true } : Team).abandon = true := by decide +kernel
def Wcont (tail : Word) : State :=
  Wsp { spOn with cfg := 0x4005A0, tail := tail } fun p => { p with conts := [(1, loadRecord), (1, 0)] }
theorem witness_TeamsStartAndEnd_push : ((Wcont 0).partn 0).conts[0]? = some (1, loadRecord) ∧
    pushed ((Wcont 0).push tie0 1 [loadRecord]) = true ∧ isFull ((Wcont 16).push tie0 1 [loadRecord]) = true ∧
    waits ((ringLost (Wcont 0)).push tie0 1 [loadRecord]) = true := by decide +kernel
/-- A team whose join counter stands in row 0 of slot 4 at `v`, its continuation for spool `sp`. -/
def joinTeam : Team := { tm with record := BitVec.ofNat 256 (tRec.toNat + 2 ^ 155 + 4 * 2 ^ 156) }
def Wjoin (v sp : Nat) : State := (Wcont 0).wrNat 0x4300000 64 (v + sp * 2 ^ 64)
theorem witness_TeamsStartAndEnd_join : fld joinTeam.record 167 156 = 4 ∧ (Wjoin 1 1).table 0 4 = some tBlk ∧
    (Wjoin 1 1).table 0 77 = none ∧ (Wjoin 1 1).imageKey none 0 4 tBlk 0 = some 0x4300000 ∧ (Wjoin 1 1).joinWait joinTeam = none ∧
    (lost (Wjoin 1 1)).joinWait joinTeam ≠ none ∧
    [(0, 1), (1, 16), (1, 2), (1, 1), (2, 1)].map (fun e =>
      let s := (Wjoin e.1 e.2).recallRange 0x4300000 64
      let v : DWord := BitVec.ofNat 64 (s.rdNat 0x4300000 8) - 1
      let p := s.partn 0
      (decide (v.toInt < 0), decide (v = 0), decide (leNat (s.imageRead none 0 4 tBlk 8 4) < 16),
        (p.spool (leNat (s.imageRead none 0 4 tBlk 8 4))).cfg.getLsbD 5 && (p.spool (leNat (s.imageRead none 0 4 tBlk 8 4))).cfg.getLsbD 7)) =
      [(true, false, true, true), (false, true, false, false), (false, true, true, false), (false, true, true, true),
       (false, false, true, true)] := by decide +kernel
def done1 : Grid := { newG with retired := true }
def Wrep (g : Grid) (cq : DWord) (rs : List Report) : State :=
  Wsp { spOn with cq := cq } fun p => { p with grids := [g], reports := rs }
def rep (spool pos : Nat) : Report := { recs := [reportHdr 1 0 5 6 pos spool 0 0 0] }
theorem witness_CompletionsAndReports : ((Wrep done1 0 [rep 1 0]).partn 0).grid 1 0 = some done1 ∧ (rep 1 0).names 1 0 = true ∧
    (rep 2 0).names 1 0 = false ∧ newG.retired = false ∧ done1.retired = true ∧
    (((Wrep done1 0x501 []).partn 0).spool 1).cq.getLsbD 0 = true ∧ (Wrep done1 0x501 []).table 0 5 = some tRing ∧
    (Wrep done1 0x501 []).hubWait tie0 5 tRing 0 32 true = none ∧ ((ringLost (Wrep done1 0x501 [])).table 0 5).any (fun t =>
      ((ringLost (Wrep done1 0x501 [])).hubWait tie0 5 t 0 32 true).isSome) = true ∧
    pushed ((Wsp { spOn with cfg := 0x4005A0 } (fun p => { p with trapcfg := 0x1000000000, reports := [rep 1 0] })).push tie0 1 [0, 0]) = true ∧
    waits ((ringLost (Wsp { spOn with cfg := 0x4005A0 })).push tie0 1 [0, 0]) = true ∧
    isFull ((Wsp { spOn with cfg := 0x4005A0, tail := 16 } (fun p => { p with trapcfg := 0x1000000000 })).push tie0 1 [0, 0]) = true ∧
    (State.reset.hub.eltail - State.reset.hub.elhead).toNat ≠ 2 ^ fld State.reset.hub.elbase 3 0 ∧
    (∀ k, k ∈ Spool.reset.fin → k ≠ Spool.reset.done.toNat) ∧ ({ Spool.reset with fin := [0] } : Spool).fin = [Spool.reset.done.toNat] := by
  decide +kernel

/-! ### System software, the hub and the whole machine -/

/-- A bind record of a dense or an ordered table, and records that fail with the lowest codes. -/
def bindRec (kind kt cap homes index : Nat) : BitVec 1024 :=
  BitVec.ofNat 1024 (kind + kt * 2 ^ 4 + 9 * 2 ^ 32 + homes * 2 ^ 44 + cap * 2 ^ 64 + 0x700000 * 2 ^ 256 + index * 2 ^ 320 + 2 ^ 400)
def bindAns (r : BitVec 1024) : Option Nat := least (W.bindCodes 0 9 r)
def running (st : TeamSt) (f : Team → Team := id) : State := wt (f { tm with st := st })
def whole0 : Partition := { Partition.reset with pcfg := 0 }
theorem witness_TablesAndPartitions : bindAns (bindRec 0 0 64 1 0) = none ∧ bindAns (bindRec 4 0 64 1 0) = some 1 ∧
    bindAns (bindRec 0 4 64 1 0) = some 2 ∧ bindAns (bindRec 0 0 0 1 0) = some 3 ∧ bindAns (bindRec 1 0 64 0 4096) = some 4 ∧
    bindAns (bindRec 1 0 (2 ^ 36) 1 0) = some 5 ∧ fld (bindRec 1 0 (2 ^ 36) 1 0) 111 64 ≤ 2 ^ 36 ∧
    (fld (bindRec 1 0 64 1 0) 51 44).testBit (fld (bindRec 1 0 64 1 0) 54 52) = true ∧
    W.table 0 9 = none ∧ W.table 0 2 = some tDense ∧ (W.partn 0).slotNamed 1 = true ∧ (W.partn 0).slotNamed 2 = false ∧
    W.slotBusy 0 2 = false ∧ (We (opCpyAt .ld 0)).slotBusy 0 2 = true ∧
    [W, We (opCpyAt .ld 0)].map (fun s => let s := s.setPartn 0 { s.partn 0 with closing := [2] }
      (s.slotBusy 0 2, (s.partn 0).closing.contains 2)) = [(false, true), (true, true)] ∧ pEN (W.partn 0) = true ∧ pEN (W.partn 1) = false ∧
    (fld (BitVec.ofNat 64 (2 ^ 48 + 2 ^ 10 + 2 * 2 ^ 13) : DWord) 17 13 % 2 ^ fld (BitVec.ofNat 64 (2 ^ 48 + 2 ^ 10 + 2 * 2 ^ 13) : DWord) 12 10 = 0) ∧
    (((W.partn 0).pcfg ||| 1) ^^^ (W.partn 0).pcfg) &&& 0xFFFF00000003FC03 = 0 ∧ W.hub.boot = .running ∧
    twf Spool.reset (W.partn 0).spools = true ∧ (p0 fun p => { p with grids := [] }).teams.map (fun e => e.2.map Team.part) = [some 0] := by
  decide +kernel
/-- No other partition holds clusters, for a partition of two clusters that asks to be enabled. -/
theorem witness_TablesAndPartitions_sole : ∀ q, q < 32 → q ≠ 3 → pEN (State.reset.partn q) = true →
    2 + 2 ≤ pFirst (State.reset.partn q) ∨ pFirst (State.reset.partn q) + pClusters (State.reset.partn q) ≤ 2 := by
  intro q _ _ h
  rw [show State.reset.partn q = Partition.reset from rfl] at h
  exact absurd h (by decide)
def slot0 (rs : Bool) : Slot := { pc := 8, em := 15, s := [], p := [], x := [], c := [], ws := .none, rs := rs }
def asked (f : Group → Group) : State := wg fun g => f { g with stop := .asked false }
theorem witness_StoppingAndAborting : ((running .running).team 0).map (fun t => (t.st, shCORES t.shape, decide (t.why = .none))) =
      some (.running, false, true) ∧
    (g0.stop = .running ∧ g0.slot = none ∧ g0.trap = none ∧ g0.whole = none ∧ g0.halted = false ∧ g0.ended = false) ∧
    ((asked id).group r0).map (fun e => (e.2.asked, e.2.pend.length, decide (e.2.wait = .none), decide ((asked id).gates = []))) =
      some (true, 0, true, true) ∧
    ((asked fun g => { g with pend := [oStore q0] }).group r0).map (fun e => e.2.pend.length) = some 1 ∧
    [some (slot0 true), some (slot0 false), none].map (fun sl => ((asked fun g => { g with slot := sl }).group r0).map fun e =>
      (decide (e.2.stop = .asked false), e.2.wake.restartable, (asked fun g => { g with slot := sl }).completes e.1 e.2)) =
      [some (true, true, false), some (true, false, false), some (true, false, false)] ∧
    [true, false].map (fun ok => (g0.whole.isNone, ({ g0 with whole := some ⟨1, 1, onePark true ok, ok⟩ } : Group).whole.map
      Whole.resolved)) = [(true, some true), (true, some false)] ∧
    (W.group r0).map (fun e => e.2.asked) = some false ∧
    ((running .stopping fun t => { t with groups := [{ g0 with stop := .stopped }, { g0 with halted := true }] }).team 0).map
      (fun t => (t.st, t.groups.all fun g => (g.ended || decide (g.stop = .stopped) || g.halted) && g.pend.isEmpty, t.engs.length)) =
      some (.stopping, true, 0) ∧
    ((running .stopping).team 0).map (fun t => (t.st, t.groups.all fun g => decide (g.stop = .stopped))) = some (.stopping, false) ∧
    ((running .draining).team 0).map (fun t => (t.st, t.arr.isSome)) = some (.draining, true) ∧
    ((running .stopped fun t => { t with image := some { Arr.start with st := 5 } }).team 0).map (fun t => (t.st, t.image.map Arr.st)) =
      some (.stopped, some 5) ∧
    (running .stopped).coreUsable 0 = true ∧ pEN ((running .stopped).partn 0) = true ∧ ((running .stopped).partn 0).inSlice = true ∧
    ((running .running fun t => { t with groups := [{ g0 with halted := true }] }).team 0).map (fun t => t.groups.any Group.halted) =
      some true := by decide +kernel
def sliced (t : Team) : State := (wt t).setPartn 0 { pt with pcfg := pt.pcfg ||| 4 }
/-- A stopped team whose handler drained the array to an image of slot 8. -/
def drained : State := (image 5).setTeam 0 (((image 5).team 0).map fun t => { t with
  st := .stopped, image := none, imgAt := some (8, 256), groups := (t.groups.map fun g => { g with stop := .stopped }) })
theorem witness_StoppingAndAborting_drained : (match drained.team 0, drained.table 0 8 with
    | some t, some tb => t.arr.isSome && t.image.isNone && drained.coreUsable t.core && pEN (drained.partn 0) && (drained.partn 0).inSlice &&
        !shCORES t.shape && drained.waits.isEmpty && (drained.imageStop t.core 0 8 tb 256 737536 0).isNone &&
        (let s1 := drained.touchImage (some t.core) 0 8 tb 256 737536
         !s1.imagePoison (some t.core) 0 8 tb 256 737536 && (match t.arr with
           | some a => ((a.ofCells (s1.imageCells t.core 0 8 tb 13 256 737536 0)).map Arr.st) == some 5 | none => false))
    | _, _ => false) = true := by decide +kernel
theorem witness_StoppingAndAborting_slice : pSlice ((sliced tm).partn 0) ≠ 0 ∧ (sliced tm).teams = [(0, some tm)] ∧ tm.part = 0 ∧
    tm.st = .running ∧ (sliced { tm with st := .stopped }).teams = [(0, some { tm with st := .stopped })] ∧
    (tm.arr.isSome = true ∧ ({ tm with arr := none } : Team).arr = none) ∧
    (∀ sl, some (slot0 true) = some sl → sl.rs = true) := by
  refine ⟨by decide +kernel, by decide +kernel, by decide +kernel, by decide +kernel, by decide +kernel, by decide +kernel, ?_⟩
  intro sl h; cases h; rfl
def hung (lim : DWord) (wd : Nat) : State := W.setPartn 0 { pt with wdlim := lim, grids := [{ newG with wd := wd }] }
def throttled : State := (W.setPartn 0 { pt with pcfg := 1 }).setCluster 0 { Cluster.reset with frac := some (1, 3) }
theorem witness_StoppingAndAborting_abort : ((hung 5 5).partn 0).grid 1 0 = some { newG with wd := 5 } ∧ newG.retired = false ∧
    (hung 5 5).gridTeams 0 1 0 = [] ∧ (W.gridTeams 0 0 0).map Prod.fst = [0] ∧ W.aborted.contains (0, 7) = false ∧
    (((Wcmd (cmd 3 4 3 (some opCopyCmd))).partn 0).grid 1 0).map Grid.op = some (some opCopyCmd) ∧
    (Wcmd (cmd 3 4 3 (some opCopyCmd))).gridTeams 0 1 0 = [] ∧
    (((We (opCollAt 1)).setPartn 0 { pe with grids := [] }).partn 0).grids = [] ∧ (opCollAt 1).coll ≠ none ∧
    fld ((hung 5 5).partn 0).wdlim 31 0 ≤ 5 ∧ fld ((hung 5 4).partn 0).wdlim 31 0 = 5 ∧
    (We (opCollAt 1)).teams.length = 1 ∧ ((We (opCollAt 1)).team 0).map (fun t => t.engs) = some [opCollAt 1] ∧
    (opCollAt 1).eng = .coll ∧ (opCollAt 1).begun = true ∧ coComm (opCollAt 1).rec0 = 7 ∧ (opCollAt 1).total = itemsLeft (opCollAt 1).items ∧
    (throttled.cluster 0).frac = some (1, 3) ∧ pFirst (throttled.partn 0) = 0 ∧ pClusters (throttled.partn 0) = 1 ∧
    [none, some (1, 2)].all (fun f => ({ throttled with hub := { throttled.hub with capFrac := f } } : State).hub.capFrac == f) = true ∧ pEN (throttled.partn 0) = true ∧ (throttled.partn 0).inSlice = true := by decide +kernel
def mv : PageMove := { pte := 0x20000, asid := 0, va := 0, size := 65536, src := 0x4000000, tier := 1, byTq := true }
/-- A translation queue of one entry at 0x8000000. -/
def Wtq (e : Nat) (f : State → State := id) : State :=
  f ((wt tm).wrNat (mkKey 0 0x8000000) 32 e |> fun s => { s with hub := { s.hub with tqbase := 0x8000000, tqtail := 1 } })
def tqe (op va len : Nat) : Nat := op + len * 2 ^ 128 + va * 2 ^ 192
def mapped (s : State) (va : Nat) : Bool := match s.walk 0 va with | .ok _ _ _ _ => true | _ => false
theorem witness_TranslationAndTiers : (Wtq (tqe 1 0 65536)).hub.boot = .running ∧ (Wtq (tqe 1 0 65536)).hub.tqdone ≠ (Wtq (tqe 1 0 65536)).hub.tqtail ∧
    (Wtq (tqe 1 0 65536)).tqMoving = false ∧ ({ Wtq (tqe 1 0 65536) with pmoves := [(0, some mv)] } : State).tqMoving = true ∧ State.reset.hub.tqdone = State.reset.hub.tqtail ∧
    (Wtq (tqe 1 0 65536)).rdNat (mkKey 0 0x8000000) 32 = tqe 1 0 65536 ∧ (Wtq (tqe 1 0 65536)).cores = [] ∧
    (Wtq (tqe 1 0 65536)).clusters = [] ∧ twf none (Wtq (tqe 2 0 65536)).teams = true ∧ mapped (Wtq (tqe 3 0 (2 ^ 26))) 0 = true ∧
    mapped (Wtq (tqe 3 (2 ^ 44 - 65536) 65536)) (2 ^ 44 - 65536) = false ∧
    (match (Wtq (tqe 3 0 (2 ^ 26))).walk 0 0 with | .ok _ _ size _ => decide (size = 2 ^ 26) | _ => false) = true := by decide +kernel
/-- A discard of one page of the only table, which is paged; a page that moves from the last to another place; a tier that
runs low. -/
def Wdis : State := Wtq (tqe 4 0x100000 65536) fun s =>
  s.setPartn 0 { pt with tables := [(2, some (tab 0 0 16 4096 2 0x100000 0 true))] }
def Wmv : State := { (State.reset.wrNat 0x20000 8 0x4000007).wrNat 0x4000000 8 77 with pmoves := [(0, some mv)] }
def tierLow (free : Word) (dem : List Nat) (tables : List (Nat × Option Table)) : State :=
  { W.setPartn 0 { pt with tables := tables } with
    hub := { W.hub with tierwm := [(0, 0x900000005)], tierfree := [(0, free)], demoting := dem } }
/-- A queue beyond HBM, a row that a bobbin unit holds in the range, and room for a page that moves. -/
theorem witness_TranslationAndTiers_queue :
    (let s : State := { W with hub := { W.hub with tqbase := 2 ^ 39, tqtail := 1 } }
     decide (s.hub.boot = .running ∧ s.hub.tqdone ≠ s.hub.tqtail ∧ 2 ^ 39 ≤ fld s.hub.tqbase 51 12 * 4096) && !s.tqMoving) = true ∧
    (((We (opHolds 1)).team 0).bind fun t => some ((t.engs.getD 0 opColl).hold.flatMap fun h => h.todo.map fun e => (isWindow e.key, e.va))) =
      some [(false, 0x100070)] ∧ ((Wtq (tqe 3 0 (2 ^ 26))).freePlace 0 (2 ^ 26)).isSome = true ∧
    tget none (Wtq (tqe 3 0 (2 ^ 26))).pmoves 0 = none := by decide +kernel
theorem witness_TranslationAndTiers_pages : mapped Wdis 0x100000 = true ∧ (Wdis.partn 0).tables.length = 1 ∧
    (Wdis.partn 0).windowOf 2 = none ∧ tHeap (tab 0 0 16 4096 2 0x100000 0 true) = 0x100000 ∧
    tCap (tab 0 0 16 4096 2 0x100000 0 true) * tWidth (tab 0 0 16 4096 2 0x100000 0 true) = 65536 ∧
    tPaged (tab 0 0 16 4096 2 0x100000 0 true) = true ∧ tget none Wmv.pmoves 0 = some mv ∧ Wmv.using { asid := mv.asid, lo := mv.va, hi := mv.va + mv.size } = false ∧
    Wmv.placeFree mv.tier 0x9000000 mv.size = true ∧ Wmv.placeFree mv.tier (2 ^ 40) mv.size = false ∧ Wmv.teams = [] ∧ Wmv.cores = [] ∧
    Wmv.clusters = [] ∧ Memory.wf Wmv.mem ∧ 0x9000000 % mv.size = 0 ∧ 0x9000001 % mv.size ≠ 0 ∧ 0x9000000 + mv.size < 2 ^ 52 ∧
    mv.pte + 8 ≤ mkKey mv.tier 0x9000000 ∧
    fld (tget 0 (tierLow 4 [] []).hub.tierwm 0) 31 0 = 5 ∧ fld (tget 0 (tierLow 4 [] []).hub.tierwm 0) 63 32 = 9 ∧
    (tget 0 (tierLow 4 [] []).hub.tierfree 0).toNat = 4 ∧ (tierLow 9 [0] []).hub.demoting.contains 0 = true ∧
    mapped (tierLow 4 [] [(2, some (tab 0 0 16 64 2 0 0 true))]) 0 = true ∧
    ((tierLow 4 [] [(2, some (tab 0 0 16 64 2 0 0 true))]).partn 0).pagedAt 0 65536 = true ∧
    ((tierLow 4 [0] []).partn 0).pagedAt 0 65536 = false := by decide +kernel
/-- Two pages of 64 KiB of a paged table, the second used last. -/
def Wpages : State := ((((tierLow 4 [] [(2, some (tab 0 0 16 16384 2 0 0 true))]).wrNat 0x20000 8 0x30001).wrNat 0x30000 8
  0x40001).wrNat 0x40000 8 0x5000007).wrNat 0x40008 8 0x5010007
theorem witness_TranslationAndTiers_demotion :
    (match Wpages.walk 0 0 with | .ok key _ size _ => spaceOf key == 0 && size == 65536 | _ => false) = true ∧
    (Wpages.partn 0).pagedAt 0 65536 = true ∧ Wpages.inTier 1 0 = true ∧ tget none Wpages.pmoves 0 = none ∧ Wpages.oldest 0 0 0 = true ∧
    Wpages.demotables 0 = [(0, 0, 0x10000), (0, 0x10000, 0x10000)] ∧ (Wpages.freePlace 1 0x10000).isSome = true ∧ Wpages.inTier 2 0 = false ∧
    [[(0, 0)], [(0, 0), (0, 1)]].map (fun l => ({ Wpages with lru := l } : State).oldest 0 0 0) = [false, false] ∧
    ((tierLow 4 [3] []).hub.demoting.contains 3, (tierLow 4 [] []).hub.demoting.contains 3) = (true, false) ∧
    tget none ({ Wtq (tqe 3 0 (2 ^ 26)) with pmoves := [(0, some mv)] } : State).pmoves 0 ≠ none ∧
    (match (moving (Wtq (tqe 3 0 (2 ^ 26)))).walk 0 0 with | .busy _ => true | _ => false) = true := by decide +kernel
def win : BitVec 256 := BitVec.ofNat 256 (9 * 2 ^ 24 + 65536 * 2 ^ 128)
def Wap (f : Partition → Partition := id) (skcfg : DWord := 0x3FF) : State :=
  let s := wt tm
  { s.setPartn 0 (f { pt with tables := [] }) with hub := { s.hub with skcfg := skcfg } }
def entry : Word := BitVec.ofNat 32 (13 * 2 ^ 28 + 5 * 2 ^ 18 + 2)
def admits (s : State) (bit : Nat) : Bool :=
  let e := tget 0 (s.partn 0).peeracl 0
  e.getLsbD 31 && decide (fld e 27 18 = 5) && decide (fld e 4 0 = 2) && e.getLsbD bit
theorem witness_WindowsAndPeers : (fld win 127 64 = 0 ∧ fld win 48 36 = 0 ∧ fld win 23 8 = 0 ∧ win.getLsbD 5 = false ∧ fld win 2 1 = 0 ∧
      fld win 7 6 = 0 ∧ fld win 35 24 = 9) ∧ (Wap.partn 0).windows = [] ∧ Wap.hub.cxl = (false, false) ∧ (Wap.partn 0).table 9 = none ∧
    ((Wap fun p => { p with windows := [(0, win ||| 1)] }).partn 0).windowAt 0 = win ||| 1 ∧
    (Wap fun p => { p with windows := [(0, win ||| 1)] }).windowBusy 0 (win ||| 1) = false ∧
    (poison 0 (Wo (oLoad { q0 with addr := windowKey (win ||| 1) 0 }))).windowBusy 0 (win ||| 1) = true ∧
    mapped (Wap) 0x10 = true ∧ mapped (Wap) (2 ^ 40) = false ∧ (Wap).tlb = [] ∧ (Wap).drops = [] ∧ (Wap).cores = [] ∧
    (Wap).clusters = [] ∧ fld (Wap).hub.skcfg 9 0 = 0x3FF ∧ fld (Wap id 0x2A).hub.skcfg 9 0 ≠ 0x3FF ∧
    admits (Wap (fun p => { p with peeracl := [(0, entry)] }) 0x2A) 30 = true ∧
    admits (Wap (fun p => { p with peeracl := [(0, entry)] }) 0x2A) 28 = true ∧ admits (Wap id 0x2A) 30 = false ∧
    (match (Wap).walk 0 0x10 with | .ok _ _ _ w => w | _ => false) = true := by decide +kernel
/-- The same with a page that may not be written, and one that moves. -/
def flagsAt (v : Nat) : State := (Wap).wrNat 0x20000 8 v
theorem witness_WindowsAndPeers_pages : (match (flagsAt 0x4000003).walk 0 0x10 with | .ok _ _ _ w => !w | _ => false) = true ∧
    (match (flagsAt 0x4000017).walk 0 0x10 with | .busy _ => true | _ => false) = true := by decide +kernel
/-- A request of partition 2 of device 5 on gate 20, and on rows of poisoned memory. -/
def farGate (st : Nat) : State := skein 0x42A ((Wap).setGate 20 { aGate with st := st, acl := [(0, BitVec.ofNat 32 (15 * 2 ^ 28 + 5 * 2 ^ 18 + 2))] })
theorem witness_WindowsAndPeers_gates : fld (farGate 1).hub.skcfg 9 0 ≠ 0x3FF ∧ ((farGate 0).gate 20).st = 0 ∧
    gateEntry ((farGate 1).gate 20) 5 2 = some (0, BitVec.ofNat 32 (15 * 2 ^ 28 + 5 * 2 ^ 18 + 2)) ∧
    gateEntry ((farGate 1).gate 20) 6 2 = none ∧ ((farGate 1).gate 20).limen = false ∧ ((farGate 1).gate 20).value = 5 ∧
    (let s := skein 0x42A ((Wap).setGate 20 { Gate.reset with st := 3, fwd := some (7, 9) })
     decide ((s.gate 20).fwd = some (7, 9) ∧ 7 ≠ s.devNum ∧ s.redirect = [] ∧ fld s.hub.skcfg 9 0 ≠ 0x3FF)) = true ∧
    (Wap).vaPoison 0 0x10 4 = false ∧ (poison 0x4000010 Wap).vaPoison 0 0x10 4 = true ∧
    (match (poison 0x4000010 Wap).walk 0 0x10 with | .ok k _ _ _ => (poison 0x4000010 Wap).poisoned k 1 | _ => false) = true ∧
    fld ((Wap).partn 0).apbase 43 16 * 65536 + 0x10 = 0x10 := by decide +kernel
def recovering : State := { State.reset with hub := { Hub.reset with boot := .recovery } }
def standing (c : Nat) : State := State.reset.setCore c { Core.reset with noTeam := true }
def usedAt (s : State) (c n : Nat) : Bool := (List.range 8).any fun i => decide (fld (s.remapEntry (c / 8 * 8 + i)) 3 0 = n)
theorem witness_ResetsPowerAndErrors : State.reset.hub.boot = .running ∧ recovering.hub.boot = .recovery ∧
    (State.reset.partn 3).grids = [] ∧ ((hung 5 5).partn 0).grids.length = 1 ∧ (List.replicate 32 (0 : Byte)).length = 32 ∧
    (none : Option Nat).getD 0 < 32 ∧ State.reset.hub.power = .p0 ∧ State.reset.parts = [] ∧
    (W.parts.any fun e => e.2.pcfg.getLsbD 0) = true ∧ (W.team 0).map (fun t => t.core / 8) = some 0 ∧ State.reset.teams = [] ∧
    (W.group r0).map (fun e => e.2.ended) = some false ∧ ((standing 9).core 9).noTeam = true ∧ (State.reset.core 9).noTeam = false ∧
    usedAt (standing 9) 9 8 = false ∧ usedAt (standing 9) 9 1 = true ∧
    ((List.range 9).all fun n => n == 8 || usedAt (standing 9) 9 n) = true ∧
    (List.replicate 191 (0 : Byte)).length < 192 ∧ 0x4000000 < 2 ^ 39 ∧ 2 ^ 39 ≤ 2 ^ 40 := by decide +kernel
theorem witness_EncodingsRoundTrip : (Instr.iadd bh ⟨.s32, false, false, rg 3, rg 4, .vec (rg 5)⟩).wf = true ∧
    (Instr.tlw 1 .i4g 2 true 16).tileWf = true := by decide
/-- The program's group stands before IADD, before a word that is no instruction, and its sequencer before TWB. -/
def before (w : Nat) : State := State.reset.withFetchWord 32 w
def fetchesOk (s : State) : Bool := match s.sched, s.group r0 with
  | [.issue r], some (t, g) =>
    let used := ({ s with sched := [] } : State).useCode t g.pc.toNat
    decide (r = r0) && g.canIssue && g.whole.isNone && !g.awaits &&
      (g.restarts (({ s with sched := [] } : State).completes t g)).isNone && !s.codeHeld t g.pc.toNat &&
      (match s.table t.part (recCSlot t.record) with
        | some tb => (match (used.locate (some t.core) t.part (recCSlot t.record) tb g.pc.toNat).2 with
            | .ok key _ _ _ => decide (g.pc.toNat % 4 = 0) && decide (key = loadCode) && !used.readWaits t.part key &&
                (s.heldSpans none).isEmpty && !used.poisoned key 20
            | _ => false)
        | none => false)
  | _, _ => false
theorem witness_StepRunsTheDecodedInstruction : fetchesOk (before 0x38A20640) = true ∧
    (match decode ((before 0x38A20640).rd loadCode 4), (before 0x38A20640).group r0 with
      | .ok i, some (t, g) => (before 0x38A20640).mayIssue t g i | _, _ => false) = true ∧
    (match decode ((before 0).rd loadCode 4) with | .bad _ _ none => true | _ => false) = true ∧
    isEvent .coldReset = true := by decide +kernel
/-- The program's group is the one that its quadrant's policy chooses, or another of the quadrant has the token. -/
def chosen (s : State) : Option GRef := match s.sched, s.group r0 with
  | _ :: rest, some (t, _) => (choose (({ s with sched := rest } : State).readyGroups t.core 0)).map Ready.r
  | _, _ => none
theorem witness_StepRunsTheDecodedInstruction_policy : chosen (before 0x38A20640) = some r0 ∧
    chosen ((before 0x38A20640).setTeam 0 (((before 0x38A20640).team 0).map fun t =>
      { t with groups := [t.groups.getD 0 g0, g0, g0, g0, t.groups.getD 0 g0], token := some 4 })) = some ⟨0, 4⟩ := by decide +kernel
theorem witness_StepRunsTheDecodedInstruction_held : (We (opHolds 1)).heldSpans none = [(0x4100070, 16)] ∧
    (match step { We (opHolds 1) with sched := [.event .resume] } with | .next s => s.heldSpans none | _ => []) = [(0x4100070, 16)] := by
  decide +kernel
theorem witness_StepRunsTheDecodedInstruction_waits :
    let s := (before 0x38A20640).putGroup r0 { g0 with pend := [pend .lds .ld 4 1 [{ mkReq 0 with reg := 4 }]] }
    (match decode (s.rd loadCode 4), s.group r0 with | .ok i, some (t, g) => !s.mayIssue t g i && g.canIssue | _, _ => false) = true := by
  decide +kernel
/-- Asked to stop with a restartable region; with its only lane parked; halted; and waiting for a page. -/
theorem witness_StepRunsTheDecodedInstruction_turns : [fun g => { g with stop := .asked false, slot := some (slot0 true) },
    fun g => em 0 { g with exited := 0xFFFFFFFE, parks := [onePark false false] }, fun g => { g with halted := true },
    fun g => { g with wait := .xlate 0 }].map (fun f => ((Wg f).group r0).map fun e =>
      ((e.2.restarts ((Wg f).completes e.1 e.2)).isSome, e.2.serves, e.2.canIssue, e.2.awaits)) =
    [some (true, false, true, false), some (false, true, false, false), some (false, false, false, false),
     some (false, false, true, true)] := by decide +kernel
theorem witness_StepRunsTheDecodedInstruction_tile :
    let s := State.reset.withFetchWord 64 0x0000000100200009
    (match s.sched, s.team 0 with
      | [.tile 0], some t => (match t.arr, s.table t.part (recCSlot t.record) with
        | some a, some tb => a.st == 1 && !a.miss && a.spc.toNat % 8 == 0 && decide (a.spc.toNat + 8 ≤ tCap tb * tWidth tb) &&
            (let s := s.useFetch t.core t.part (recCSlot t.record) tb a.spc.toNat
             match (s.locate (some t.core) t.part (recCSlot t.record) tb a.spc.toNat).2 with
              | .ok key _ _ _ => !s.poisoned key 8 && !s.readWaits t.part key && (match decodeTile (BitVec.ofNat 64 (s.rdNat key 8)) with
                | .ok i => decide (i = .twb 1 true) | _ => false)
              | _ => false)
        | _, _ => false)
      | _, _ => false) = true := by decide +kernel
theorem witness_MemoryStaysCanonical : Memory.wf (before 0x38A20640).mem ∧
    (match step (before 0x38A20640) with | .next _ => true | _ => false) = true := by decide +kernel

/-! ### Single steps. The results come from the manual's text and from calculation by hand -/

/-- Every lane holds `a` in `v3` and `b` in `v4`, and `c` in `v8`. -/
def Wab (a b : Word) (c : Word := 0) : State :=
  Wg fun g => (List.range 32).foldl (fun g l => ((g.wrV 3 l a).wrV 4 l b).wrV 8 l c) g
/-- `v5` of lane 0 and NF after an instruction. -/
def out (s : State) (i : Instr) : Option (Nat × Nat) := (res s i).map fun g => ((g.rdV 5 0).toNat, g.nf.toNat)
def alu (ty : ITy) (sat : Bool := false) : Alu := ⟨ty, sat, false, rg 5, rg 3, .vec (rg 4)⟩
def alu1 (ty : ITy) (sat : Bool := false) : Alu1 := ⟨ty, sat, false, rg 5, rg 3⟩

theorem test_iadd : out (Wab 0x7FFFFFFF 1) (.iadd eh (alu .s32 true)) = some (0x7FFFFFFF, 4) ∧
    out (Wab 0x7FFFFFFF 1) (.iadd bh (alu .s32)) = some (0x80000000, 0) := by decide +kernel
theorem test_isub : out (Wab 0 1) (.isub bh (alu .b32)) = some (0xFFFFFFFF, 0) ∧
    out (Wab 0 1) (.isub eh (alu .b32 true)) = some (0, 4) := by decide +kernel
theorem test_imul : out (Wab 0xFFFFFFFF 3) (.imul bh (alu .s32)) = some (0xFFFFFFFD, 0) ∧
    out (Wab 0x10000 0x10000) (.imul eh (alu .s32 true)) = some (0x7FFFFFFF, 4) := by decide +kernel
theorem test_imulh : out (Wab 0xFFFFFFFF 0xFFFFFFFF) (.imulh bh (alu .b32)) = some (0xFFFFFFFE, 0) ∧
    out (Wab 0xFFFFFFFF 0xFFFFFFFF) (.imulh bh (alu .s32)) = some (0, 0) := by decide +kernel
theorem test_imad : out (Wab 5 7 0xFFFFFFFF) (.imad eh (alu .s32) (rg 8)) = some (34, 0) := by decide +kernel
theorem test_imin : out (Wab 0xFFFFFFFF 0) (.imin bh (alu .s32)) = some (0xFFFFFFFF, 0) ∧
    out (Wab 0xFFFFFFFF 0) (.imin bh (alu .b32)) = some (0, 0) := by decide +kernel
theorem test_imax : out (Wab 0xFFFFFFFF 0) (.imax bh (alu .s32)) = some (0, 0) := by decide +kernel
theorem test_iabs : out (Wab 0x80000000 0) (.iabs bh (alu1 .s32)) = some (0x80000000, 0) ∧
    out (Wab 0x80000000 0) (.iabs eh (alu1 .s32 true)) = some (0x7FFFFFFF, 4) := by decide +kernel
theorem test_logic : out (Wab 0xC 0xA) (.and bh (alu .b32)) = some (8, 0) ∧ out (Wab 0xC 0xA) (.or bh (alu .b32)) = some (0xE, 0) ∧
    out (Wab 0xC 0xA) (.xor bh (alu .b32)) = some (6, 0) ∧ out (Wab 0xC 0) (.not bh (alu1 .b32)) = some (0xFFFFFFF3, 0) := by
  decide +kernel
theorem test_shifts : out (Wab 1 32) (.shl bh (alu .b32)) = some (0, 0) ∧ out (Wab 1 31) (.shl bh (alu .b32)) = some (0x80000000, 0) ∧
    out (Wab 0x80000000 40) (.sar bh (alu .s32)) = some (0xFFFFFFFF, 0) ∧ out (Wab 0x80000000 31) (.shr bh (alu .b32)) = some (1, 0) := by
  decide +kernel
theorem test_fields : out (Wab 0x80 0x404) (.bfe bh (alu .s32)) = some (0xFFFFFFF8, 0) ∧
    out (Wab 0xFFFF 0x5) (.bfi eh (alu .b32) (.imm 0x404)) = some (0xFF5F, 0) := by decide +kernel
theorem test_counts : out (Wab 0xF0F 0) (.popc bh (alu1 .b32)) = some (8, 0) ∧ out (Wab 0 0) (.clz bh (alu1 .b32)) = some (32, 0) ∧
    out (Wab 1 0) (.brev bh (alu1 .b32)) = some (0x80000000, 0) := by decide +kernel
theorem test_iaddc : (res ((Wab 0xFFFFFFFF 0)) (.iaddc eh false (rg 5) (rg 3) (.vec (rg 4)) 0 true 7)).map
    (fun g => ((g.rdV 5 9).toNat, g.rdP 0)) = some (0, 0xFFFFFFFF) := by decide +kernel
theorem test_iset : (res W (.iset bh .lt .s32 0 (rg 3) (.vec (rg 4)))).map (fun g => g.rdP 0) = some 0 ∧
    (res (Wab 0xFFFFFFFF 0) (.iset bh .lt .s32 0 (rg 3) (.vec (rg 4)))).map (fun g => g.rdP 0) = some 0xFFFFFFFF := by
  decide +kernel
theorem test_sel : out (Wab 1 2) (.sel bh .b32 (rg 5) (rg 3) (.vec (rg 4)) 7 true) = some (2, 0) := by decide +kernel
theorem test_scalar : (res W (.iadd eh ⟨.s32, false, true, rg 10, rg 2, .imm 0xFFFFFFFD⟩)).map (fun g => g.rdS 10) =
    some 0xFFFFFFFFFFFFFFFF := by decide +kernel
theorem test_mov : (res (Wg (em 0xF0)) (.mov bh false (.first 10 3))).map (fun g => g.rdS 10) = some 4 := by decide +kernel
theorem test_mtx : (res W (.mtxAdd bh 2 0x3F)).map (fun g => g.rdX 2 5) = some 0x3FF := by decide +kernel
theorem test_mfsr : (res W (.mfsr bh .v 5 1)).map (fun g => (g.rdV 5 7).toNat) = some 7 := by decide +kernel
theorem test_mtsr : (res W (.mtsr .base 0 5)).map (fun g => g.em) = some 5 := by decide +kernel

def f2 : Fpu := ⟨.rn, false, rg 5, rg 3, .vec (rg 4)⟩
theorem test_fadd : out (Wab 0x3F800000 0x3F800000) (.fadd bh f2) = some (0x40000000, 0) ∧
    out (Wab 0x7F800000 0xFF800000) (.fadd bh f2) = some (0x7FC00000, 1) := by decide +kernel
theorem test_fsub : out (Wab 0x3F800000 0x3F800000) (.fsub bh { f2 with mode := .rm }) = some (0x80000000, 0) := by decide +kernel
theorem test_fmul : out (Wab 0x7F7FFFFF 0x40000000) (.fmul bh f2) = some (0x7F800000, 2) ∧
    out (Wab 0x7F7FFFFF 0x40000000) (.fmul bh { f2 with mode := .rz }) = some (0x7F7FFFFF, 2) := by decide +kernel
theorem test_ffma : out (Wab 0x3F800001 0x3F7FFFFF 0xBF800000) (.ffma eh f2 (rg 8)) = some (0x337FFFFE, 0) := by decide +kernel
theorem test_fminmax : out (Wab 0x80000000 0) (.fmin bh (rg 5) (rg 3) (.vec (rg 4))) = some (0x80000000, 0) ∧
    out (Wab 0x7FC00000 0x3F800000) (.fmax bh (rg 5) (rg 3) (.vec (rg 4))) = some (0x3F800000, 0) := by decide +kernel
theorem test_fset : (res (Wab 0x80000000 0) (.fset bh .eq 0 (rg 3) (.vec (rg 4)))).map (fun g => (g.rdP 0, g.nf)) =
    some (0xFFFFFFFF, 0) ∧ (res (Wab 0x7FC00000 0) (.fset bh .lt 0 (rg 3) (.vec (rg 4)))).map (fun g => (g.rdP 0, g.nf)) = some (0, 1) := by
  decide +kernel
theorem test_frcp : out (Wab 0x40400000 0) (.frcp bh ⟨.rn, rg 5, rg 3⟩) = some (0x3EAAAAAB, 0) := by decide +kernel
theorem test_fsqrt : out (Wab 0x40800000 0) (.fsqrt bh ⟨.rn, rg 5, rg 3⟩) = some (0x40000000, 0) ∧
    out (Wab 0xBF800000 0) (.fsqrt bh ⟨.rn, rg 5, rg 3⟩) = some (0x7FC00000, 1) := by decide +kernel
theorem test_special : out (Wab 0 0) (.frsq bh (rg 5) (rg 3)) = some (0x7F800000, 16) ∧
    out (Wab 0 0) (.flog2 bh (rg 5) (rg 3)) = some (0xFF800000, 16) ∧ out (Wab 0 0) (.fcos bh (rg 5) (rg 3)) = some (0x3F800000, 0) ∧
    out (Wab 0 0) (.fsigm bh (rg 5) (rg 3)) = some (0x3F000000, 0) := by decide +kernel
theorem test_packed : out (Wab 0x3F803F80 0x40003F80) (.pfadd bh f2) = some (0x40404000, 0) := by decide +kernel
theorem test_cvt : out (Wab 0x3FC00000 0) (.cvt eh .s32 .f32 0 .rn false (rg 5) (rg 3)) = some (2, 0) ∧
    out (Wab 0x7FC00000 0) (.cvt eh .s32 .f32 0 .rn false (rg 5) (rg 3)) = some (0, 1) := by decide +kernel
theorem test_pack : out (Wab 0x3F800000 0x40000000) (.pack eh false .bf16 .rn false (rg 5) (rg 3) (rg 4)) = some (0x40003F80, 0) := by
  decide +kernel
theorem test_shfl : (res W (.shfl bh .up 4 5 3 (.imm 1))).map (fun g => ((g.rdV 5 1).toNat, (g.rdV 5 2).toNat)) = some (0, 2) ∧
    (res W (.shfl bh .xor 0 5 3 (.imm 16))).map (fun g => (g.rdV 5 1).toNat) = some 17 := by decide +kernel
theorem test_vote : (res (Wg (em 6)) (.voteBallot bh false 10 7)).map (fun g => g.rdS 10) = some 6 := by decide +kernel
theorem test_redg : out W (.redg bh .add .s32 true 5 3) = some (496, 0) := by decide +kernel
theorem test_scang : (res W (.scang bh .add .s32 true 5 3)).map (fun g => ((g.rdV 5 0).toNat, (g.rdV 5 5).toNat)) = some (0, 10) := by
  decide +kernel
/-- Lane lengths 0, 1, 2, 3, ...: flattened row 4 is row 1 of lane 3. -/
theorem test_rebal : (res W (.rebal eh 8 2 3 10)).map (fun g => ((g.rdV 8 4).toNat, (g.rdV 9 4).toNat, (g.rdP 2).getLsbD 4)) =
    some (3, 1, true) := by decide +kernel
theorem test_branches : (res W (.bra bh .any 64)).map Group.pc = some 64 ∧ (res Wn (.bra bh .any 64)).map Group.pc = some 4 ∧
    (res W (.call bh .any 10 64)).map (fun g => (g.pc, g.rdS 10)) = some (64, 4) := by decide +kernel
theorem test_masks : (res (Wg fun g => { g with p := [(1, 0xFF)] }) (.mif true 10 1)).map (fun g => (g.em, g.rdS 10)) =
    some (0xFFFFFF00, 0xFFFFFFFFFF) := by decide +kernel
theorem test_rgn : (res W (.rgn .extLit true true (.some 3 1 2))).map (fun g => ((g.rdV 3 9).toNat, g.slot.isSome)) = some (0, true) := by
  decide +kernel
theorem test_exit : (res W (.exit bh)).map Group.ended = some true := by decide +kernel
theorem test_waits : shows (exec (.wait .ext 0 63 63 63) (Wo (oLoad q0))) (fun s => s == Wo (oLoad q0)) = true := by decide +kernel

/-- A store and a load of scratchpad: the bytes reach it at the point. -/
theorem test_scratchpad : shows (exec (.storePerform r0 0 1) (Wo (pend .sts .st 4 0 [{ mkReq 0 with addr := 8, data := 0x04030201 }])))
    (fun s => match s.team 0 with | some t => t.spRead 8 4 == [1, 2, 3, 4] | none => false) = true := by decide +kernel
theorem test_lds_beyond : (res W (.lds eh (spa 16384))).map (fun g => g.sf.getLsbD 0) = some true := by decide +kernel
/-- The highest-numbered lane prevails where lanes of one STS overlap. -/
theorem test_sts_overlap : shows (exec (.storePerform r0 0 0xFFFFFFFF) (Wo (pend .sts .st 4 0
    [{ mkReq 0 with addr := 0, data := 0x04030201 }, { mkReq 1 with addr := 2, data := 0x08070605 }])))
    (fun s => match s.team 0 with | some t => t.spRead 0 6 == [1, 2, 5, 6, 7, 8] | none => false) = true := by decide +kernel
/-- Row 3 of slot 2 begins 48 bytes into its image. -/
theorem test_dld : (res W (.dld eh (dn (.vec 3) 4))).map (fun g => (g.pend.map fun o => (o.lanes.map LaneReq.va).getD 3 0)) =
    some [0x100034] := by decide +kernel
theorem test_load_complete : shows (exec (.loadComplete r0 0 1 []) ((Wo (oLoad q0)).wrNat 0x4000040 4 0x11223344))
    (fun s => (s.group r0).any fun e => (e.2.rdV 5 0).toNat == 0x11223344 && e.2.pend.isEmpty) = true := by decide +kernel
theorem test_atomic : shows (exec (.homeSliceAtomic r0 0) ((Wo (oAtom .part q0)).wrNat 0x4000040 4 5))
    (fun s => s.rdNat 0x4000040 4 == 14 && (s.group r0).any fun e => (e.2.rdV 5 0).toNat == 5) = true := by decide +kernel
theorem test_move_home : shows (exec (.moveHome 0 1) Wout) (· == Wout) = true ∧
    shows (exec (.moveHome 0 0) Wout) (fun s => s.rdNat 0x4000000 2 == 0x201) = true := by decide +kernel
theorem test_tlk : shows (exec (.tableOrderPoint r0 0 0 false) (Wtab .tlk (qKey 3 5)))
    (fun s => (s.group r0).any fun e => e.2.rdN 6 0 2 == (mkRowref 3 1 1).toNat && (e.2.rdP 0).getLsbD 0) = true := by decide +kernel
theorem test_tins : shows (exec (.tableOrderPoint r0 0 0 false) (Wtab .tins (qKey 3 6)))
    (fun s => (s.table 0 3).any fun t => t.keys.map Prod.fst == [-3, 5, 6, 9]) = true := by decide +kernel
theorem test_tdel : shows (exec (.tableOrderPoint r0 0 0 false) (Wtab .tdel (qKey 3 5)))
    (fun s => (s.table 0 3).any fun t => t.keys.map Prod.fst == [-3, 9] && tGen t 1 == 2) = true := by decide +kernel
theorem test_copy : shows (exec (.copyEngineOperation 0 1 false) ((We (opCpyAt .ld 5)).wrNat 0x4100060 4 0xDDCCBBAA))
    (fun s => match s.team 0 with | some t => t.spRead 16 4 == [0xAA, 0xBB, 0xCC, 0xDD] | none => false) = true := by decide +kernel
theorem test_nmc : shows (exec (.nearMemoryCommandApply 0 ⟨0, 1, none⟩) (We ((opNear 1).laidOut 2 []))) (fun s =>
    shows (exec (.nearMemoryCommandApply 0 ⟨0, 1, some 2⟩) s) fun s => s.rdNat 0x4100078 4 == 0x3F800000 && s.rdNat 0x4100070 4 == 0) = true := by
  decide +kernel
theorem test_coll : shows (exec (.collectiveOperation 0 1 far1 heads1) ((onSk (We (opCollAt 1))).wrNat 0x4100004 4 7))
    (fun s => s.rdNat 0x4100004 4 == 12) = true := by decide +kernel
theorem test_barrier : shows (exec (.bararr bh 1 7) (Wm 1 0xFFFFFFFF))
    (fun s => match s.team 0 with | some t => t.bar 1 == ⟨1, 0, true⟩ | none => false) = true ∧
    shows (exec (.barinit bh 1 7 64) (Wm 1 0xFFFFFFFF))
    (fun s => match s.team 0 with | some t => t.bar 1 == ⟨64, 0, false⟩ | none => false) = true := by decide +kernel
theorem test_gate : shows (exec (.gatePoint r0 ⟨1, 0⟩) (Wpoint (.gsig gk 3) [])) (fun s => (s.gate 20).value == 8) = true ∧
    shows (exec (.gwait eh 7 4 (.imm 5)) (Wgate aGate)) (fun s => (s.group r0).any fun e => e.2.rdS 7 == 5) = true := by decide +kernel
def arrOf (o : Host.Outcome State Fault Refusal) (p : Arr → Bool) : Bool :=
  shows o fun s => match s.team 0 with | some t => (match t.arr with | some a => p a | none => false) | none => false
theorem test_tile_words : arrOf (exec (.tsetq 3 48) (wq 16)) (fun a => tget 0 a.q 3 == 48 && a.spc == 8) = true ∧
    arrOf (exec (.tloop 2 0xFFFFFFF8) (wq 16)) (fun a => a.lcnt == 2 && a.spc == 0xFFFFFFF8) = true ∧
    arrOf (exec .tend (wq 16)) (fun a => a.st == 3 && a.spc == 8) = true ∧
    arrOf (exec (.twb 1 false) (wq 16)) (fun a => a.st == 2 && a.bn == 1) = true ∧
    arrOf (exec (.tlda 0 1 true 16) (wq 8)) (fun a => a.st == 4 && a.tsub == 0x22) = true := by decide +kernel
theorem test_trap : (res W (.trap { bh with p := 7 } 5)).map (fun g => (g.parks.map fun p => p.record.setWidth 8, g.em)) =
    some ([0x1A], 0) := by decide +kernel
/-- The handler's entry and, after TRET.SKIP, the instruction behind the one that trapped. -/
theorem test_exception : shows (exec (.serveParkSlots r0) (Wpark (onePark false false) true))
    (fun s => (s.group r0).any fun e => e.2.pc == 256 && e.2.em == 1 && e.2.trapPC == 64 && e.2.trapCause.toNat == 9) = true ∧
    (res (Wg fun g => { lastTrap g with trapPC := 64 }) (.tret bh .skip)).map (fun g => (g.pc, g.em, g.trap.isNone)) =
      some (76, 1, true) := by decide +kernel
theorem test_take_record : shows (exec (.takeRecord 0 1) (Wring workRec)) (fun s => ((s.partn 0).spool 1).head == 1 &&
    s.rdNat 0x4400000 1 == 2 && (s.partn 0).grids.length == 2) = true := by decide +kernel
theorem test_push_report : shows (exec (.pushReport 0) (Wsp { spOn with cfg := 0x4005A0, tail := 0 } fun p => { p with
    trapcfg := 0x1000000000, reports := [rep 1 0], timeval := 9 })) (fun s => ((s.partn 0).spool 1).tail == 1 &&
    s.rdNat 0x4400018 8 == 9) = true := by decide +kernel
theorem test_table_bind : shows (exec (.tableBind 0 9 (bindRec 0 0 64 1 0)) W) (fun s => s.answer == [0] && (s.table 0 9).isSome) = true ∧
    shows (exec (.tableBind 0 9 (bindRec 4 0 64 1 0)) W) (fun s => s.answer == [1]) = true := by decide +kernel
theorem test_page_move : shows (exec (.pageMove ⟨0, 0x9000000⟩) Wmv)
    (fun s => s.rdNat (mkKey 1 0x9000000) 8 == 77 && s.rdNat 0x20000 8 == 0x1000000009000007) = true := by decide +kernel
theorem test_remap : shows (exec (.remapRewrite 9 (some 8)) (standing 9)) (fun s => fld (s.remapEntry 9) 3 0 == 8) = true := by
  decide +kernel
/-- The program that `withFetchWord` places is the first instruction that runs. -/
theorem test_first_step : shows (step (State.reset.withFetchWord 32 0x38A20640)) (fun s => (s.group r0).any fun e => e.2.pc == 4) = true ∧
    arrOf (step (State.reset.withFetchWord 64 0x8005)) (fun a => a.spc == 8) = true := by decide +kernel

end Sys2Proof.Machine.Tests
end

section
/-! SUPPORT. The canonical form of memory under the operations of Machine/Ops.lean and Machine/Memory.lean: what leaves
memory alone (an equivalence), what writes it and keeps the form, and outcomes that carry a state. -/

namespace Sys2Proof.Machine

/-! ### Updates of single parts -/

@[simp] theorem State.memWf_ite_iff (c : Prop) [Decidable c] (a b : State) :
    (if c then a else b).memWf ↔ if c then a.memWf else b.memWf := by split <;> rfl

theorem State.memWf_ite {c : Prop} [Decidable c] {a b : State} (ha : a.memWf) (hb : b.memWf) :
    (if c then a else b).memWf := by simp [ha, hb]

@[simp] theorem State.memWf_setTeam_iff (s : State) (n : Nat) (x : Option Team) : (s.setTeam n x).memWf ↔ s.memWf := .rfl
@[simp] theorem State.memWf_setPartn_iff (s : State) (n : Nat) (x : Partition) : (s.setPartn n x).memWf ↔ s.memWf := .rfl
@[simp] theorem State.memWf_setCore_iff (s : State) (n : Nat) (x : Core) : (s.setCore n x).memWf ↔ s.memWf := .rfl
@[simp] theorem State.memWf_setCluster_iff (s : State) (n : Nat) (x : Cluster) : (s.setCluster n x).memWf ↔ s.memWf := .rfl
@[simp] theorem State.memWf_setGate_iff (s : State) (n : Nat) (x : Gate) : (s.setGate n x).memWf ↔ s.memWf := .rfl
@[simp] theorem State.memWf_setTable_iff (s : State) (n m : Nat) (x : Option Table) :
    (s.setTable n m x).memWf ↔ s.memWf := .rfl
@[simp] theorem State.memWf_setL1_iff (s : State) (core line : Nat) (v : Option (BitVec 1024)) :
    (s.setL1 core line v).memWf ↔ s.memWf := .rfl
@[simp] theorem State.memWf_hub_iff (s : State) (h : Hub) : ({ s with hub := h } : State).memWf ↔ s.memWf := .rfl
@[simp] theorem State.memWf_answer_iff (s : State) (a : List DWord) : ({ s with answer := a } : State).memWf ↔ s.memWf := .rfl
@[simp] theorem State.memWf_sched_iff (s : State) (l : List Sched) : ({ s with sched := l } : State).memWf ↔ s.memWf := .rfl
@[simp] theorem State.memWf_cur_iff (s : State) (r : Option GRef) : ({ s with cur := r } : State).memWf ↔ s.memWf := .rfl
@[simp] theorem State.memWf_seq_iff (s : State) (n : Option Nat) : ({ s with seq := n } : State).memWf ↔ s.memWf := .rfl
@[simp] theorem State.memWf_nextTeam_iff (s : State) (n : Nat) : ({ s with nextTeam := n } : State).memWf ↔ s.memWf := .rfl
@[simp] theorem State.memWf_nextGang_iff (s : State) (n : Nat) : ({ s with nextGang := n } : State).memWf ↔ s.memWf := .rfl
@[simp] theorem State.memWf_pmoves_iff (s : State) (m : List (Nat × Option PageMove)) :
    ({ s with pmoves := m } : State).memWf ↔ s.memWf := .rfl
@[simp] theorem State.memWf_waits_iff (s : State) (l : List (Nat × Nat)) : ({ s with waits := l } : State).memWf ↔ s.memWf := .rfl
@[simp] theorem State.memWf_aborted_iff (s : State) (l : List (Nat × Nat)) :
    ({ s with aborted := l } : State).memWf ↔ s.memWf := .rfl
@[simp] theorem State.memWf_addPoison_iff (s : State) (key : Nat) : (s.addPoison key).memWf ↔ s.memWf := .rfl
@[simp] theorem State.memWf_clearPoison_iff (s : State) (key n : Nat) : (s.clearPoison key n).memWf ↔ s.memWf := .rfl
@[simp] theorem State.memWf_report_iff (s : State) (part : Nat) (rs : List (BitVec 256)) :
    (s.report part rs).memWf ↔ s.memWf := .rfl
@[simp] theorem State.memWf_teamReport_iff (s : State) (t : Team) (type code src slot item : Nat) (addr : DWord)
    (rs : List (BitVec 256)) : (s.teamReport t type code src slot item addr rs).memWf ↔ s.memWf := .rfl
@[simp] theorem State.memWf_leaveGates_iff (s : State) (r : GRef) : (s.leaveGates r).memWf ↔ s.memWf := .rfl
@[simp] theorem State.memWf_patchL1_iff (s : State) (core key : Nat) (bs : List Byte) :
    (s.patchL1 core key bs).memWf ↔ s.memWf := by rw [State.memWf, State.mem_patchL1, State.memWf]

/-- A fold of operations that leave the form as it is. -/
theorem State.memWf_foldl_iff {α : Type} {f : State → α → State} (h : ∀ s x, (f s x).memWf ↔ s.memWf) (l : List α) :
    ∀ s : State, (l.foldl f s).memWf ↔ s.memWf := by
  induction l with
  | nil => exact fun _ => .rfl
  | cons x l ih => exact fun s => (ih _).trans (h s x)

/-! ### Outcomes that carry a state -/

/-- The next state of an outcome, if there is one, has the form. -/
def NextWf (o : Host.Outcome State Fault Refusal) : Prop := ∀ s, o = .next s → s.memWf

@[simp] theorem nextWf_next (s : State) : NextWf (.next s) ↔ s.memWf :=
  ⟨fun h => h s rfl, fun h _ e => by cases e; exact h⟩
theorem State.memWf.next {s : State} (w : s.memWf) : NextWf (.next s) := (nextWf_next s).mpr w
theorem nextWf_ite {c : Prop} [Decidable c] {a b : Host.Outcome State Fault Refusal} (ha : NextWf a) (hb : NextWf b) :
    NextWf (if c then a else b) := by split <;> assumption
@[simp] theorem nextWf_fault (f : Fault) : NextWf (.fault f) := fun _ e => by cases e

/-- What an engine finds satisfies `p` where it finds something. -/
def Reach.All {α : Type} (p : α → Prop) (x : Reach α) : Prop := ∀ a, x = .ok a → p a

@[simp] theorem Reach.all_ok {α : Type} (p : α → Prop) (a : α) : (Reach.ok a).All p ↔ p a :=
  ⟨fun h => h a rfl, fun h _ e => by cases e; exact h⟩
@[simp] theorem Reach.all_code {α : Type} (p : α → Prop) (c : Nat) : (Reach.code c : Reach α).All p := fun _ e => by cases e
@[simp] theorem Reach.all_miss {α : Type} (p : α → Prop) (va slot : Nat) : (Reach.miss va slot : Reach α).All p :=
  fun _ e => by cases e
@[simp] theorem Reach.all_busy {α : Type} (p : α → Prop) : (Reach.busy : Reach α).All p := fun _ e => by cases e
theorem Reach.all_bind {α β : Type} {p : β → Prop} (x : Reach α) {f : α → Reach β} (h : ∀ a, (f a).All p) :
    (x.bind f).All p := by
  cases x with
  | ok a => exact h a
  | code | miss | busy => simp [Reach.bind]

/-! ### Groups, parks and exceptions -/

@[simp] theorem State.memWf_putGroup_iff (s : State) (r : GRef) (g : Group) : (s.putGroup r g).memWf ↔ s.memWf := by
  unfold State.putGroup
  split <;> simp

@[simp] theorem State.memWf_halt_iff (s : State) (r : GRef) (t : Team) (g : Group) (rs : List (BitVec 256)) :
    (s.halt r t g rs).memWf ↔ s.memWf := by simp [State.halt]

@[simp] theorem State.memWf_takeTrap_iff (s : State) (r : GRef) (t : Team) (g : Group) (p : Park) :
    (s.takeTrap r t g p).memWf ↔ s.memWf := by simp [State.takeTrap]

@[simp] theorem State.memWf_parkNow_iff (s : State) (r : GRef) (t : Team) (g : Group) (p : Park) (again : Lanes) :
    (s.parkNow r t g p again).memWf ↔ s.memWf := by simp [State.parkNow]

@[simp] theorem State.memWf_parkReplay_iff (s : State) (r : GRef) (t : Team) (g : Group) (p : Park) :
    (s.parkReplay r t g p).memWf ↔ s.memWf := by simp [State.parkReplay]

@[simp] theorem State.memWf_takeFaults_iff (s : State) (r : GRef) (t : Team) (g : Group) (pc next insn : Word)
    (op : Option Nat) (nf rf : List (Nat × LaneFault)) :
    (s.takeFaults r t g pc next insn op nf rf).memWf ↔ s.memWf := by
  simp only [State.takeFaults]
  split
  · simp
  · split
    · simp
    · rw [State.memWf_ite_iff]
      split
      · simp
      · split <;> simp

@[simp] theorem State.memWf_afterEnd_iff (s : State) (r : GRef) : (s.afterEnd r).memWf ↔ s.memWf := by
  unfold State.afterEnd
  split <;> simp

@[simp] theorem State.memWf_serveNext_iff (s : State) (r : GRef) (t : Team) (g : Group) (c : CatchUp) :
    (s.serveNext r t g c).memWf ↔ s.memWf := by
  simp only [State.serveNext]
  split
  · simp
  · split
    · simp
    · split <;> simp

@[simp] theorem State.memWf_serve_iff (s : State) (r : GRef) : (s.serve r).memWf ↔ s.memWf := by
  simp only [State.serve]
  split <;> simp

/-! ### The end of an issue -/

@[simp] theorem Iss.memWf_finishAt_iff (x : Iss) (s : State) (pc : Word) : (x.finishAt s pc).memWf ↔ s.memWf := by
  simp [Iss.finishAt]
@[simp] theorem Iss.memWf_finish_iff (x : Iss) (s : State) : (x.finish s).memWf ↔ s.memWf := by simp [Iss.finish]
@[simp] theorem Iss.memWf_fail_iff (x : Iss) (s : State) (f : LaneFault) : (x.fail s f).memWf ↔ s.memWf := by
  simp [Iss.fail]
@[simp] theorem Iss.memWf_failOn_iff (x : Iss) (s : State) (m : Lanes) (f : LaneFault) :
    (x.failOn s m f).memWf ↔ s.memWf := by simp [Iss.failOn]
@[simp] theorem Iss.memWf_failOp_iff (x : Iss) (s : State) (o : Pend) (f : LaneFault) :
    (x.failOp s o f).memWf ↔ s.memWf := by simp [Iss.failOp]
@[simp] theorem State.memWf_illegal_iff (s : State) (r : GRef) (t : Team) (g : Group) (sub : Nat) (len : Len) :
    (s.illegal r t g sub len).memWf ↔ s.memWf := by simp [State.illegal]

/-- A group instruction keeps the form where its own effect does. -/
theorem nextWf_onGroup {s : State} (w : s.memWf) (i : Instr) {k : State → Iss → State} (h : ∀ x, (k s x).memWf) :
    NextWf (onGroup i s k) := by
  unfold onGroup
  split
  · simp
  · split
    · simpa using w
    · exact (h _).next

/-- A lane instruction keeps the form. -/
theorem nextWf_onLanesOp {s : State} (w : s.memWf) (i : Instr) (k : Iss → Group) : NextWf (onLanesOp i s k) :=
  nextWf_onGroup w i fun _ => (Iss.memWf_finish_iff _ _).mpr w

/-! ### Pages and images -/

@[simp] theorem State.memWf_noteTlb_iff (s : State) (core part va : Nat) : (s.noteTlb core part va).memWf ↔ s.memWf := by
  simp only [State.noteTlb]
  split
  · rfl
  · split
    · rfl
    · split <;> rfl

@[simp] theorem State.memWf_noteUse_iff (s : State) (part va : Nat) : (s.noteUse part va).memWf ↔ s.memWf := .rfl

theorem State.memWf_usePage {s : State} (w : s.memWf) (v : Option Nat) (part va : Nat) : (s.usePage v part va).memWf := by
  have h : ((s.applyDrops part va).noteUse part va).memWf := State.memWf_applyDrops w part va
  unfold State.usePage
  split
  · exact (State.memWf_noteTlb_iff _ _ _ _).mpr h
  · exact h

theorem State.memWf_useFetch {s : State} (w : s.memWf) (core part slot : Nat) (t : Table) (off : Nat) :
    (s.useFetch core part slot t off).memWf := by
  unfold State.useFetch
  split
  · split
    · exact w
    · exact State.memWf_usePage w _ _ _
  · exact w

theorem State.memWf_touchImage {s : State} (w : s.memWf) (v : Option Nat) (part slot : Nat) (t : Table) (off n : Nat) :
    (s.touchImage v part slot t off n).memWf := by
  unfold State.touchImage
  split
  · exact w
  · exact State.memWf_foldl (fun _ _ h => State.memWf_usePage h _ _ _) _ w

theorem State.memWf_useImage {s : State} (w : s.memWf) (v : Option Nat) (part slot : Nat) (t : Table) (off n : Nat) :
    (s.useImage v part slot t off n).memWf := by
  unfold State.useImage
  split
  · exact State.memWf_touchImage w _ _ _ _ _ _
  · exact w

theorem State.memWf_imageWrite1 {s : State} (w : s.memWf) (v : Option Nat) (part slot : Nat) (t : Table) (off : Nat)
    (bs : List Byte) : (s.imageWrite1 v part slot t off bs).memWf := by
  unfold State.imageWrite1
  split
  · refine State.memWf_homeWrite ?_ _ _ _ _
    split
    · exact w
    · exact State.memWf_setD w _
  · exact w

theorem State.memWf_imageWrite (v : Option Nat) (part slot : Nat) (t : Table) : ∀ (n : Nat) {s : State} (_ : s.memWf)
    (off : Nat) (bs : List Byte), (s.imageWrite v part slot t n off bs).memWf
  | 0, _, w, _, _ => w
  | n + 1, _, w, off, bs => by
    unfold State.imageWrite
    split
    · exact w
    · exact State.memWf_imageWrite v part slot t n (State.memWf_imageWrite1 w _ _ _ _ _ _) _ _

theorem State.memWf_rowWrite {s : State} (w : s.memWf) (v : Option Nat) (part slot : Nat) (t : Table) (off : Nat)
    (bs : List Byte) : (s.rowWrite v part slot t off bs).memWf := State.memWf_imageWrite v part slot t _ w off bs

@[simp] theorem State.memWf_dropLater_iff (s : State) (d : Drop) : (s.dropLater d).memWf ↔ s.memWf := by
  unfold State.dropLater
  split <;> rfl

@[simp] theorem State.memWf_clearImage_iff (s : State) (v : Option Nat) (part slot : Nat) (t : Table) (off n : Nat) :
    (s.clearImage v part slot t off n).memWf ↔ s.memWf := by
  unfold State.clearImage
  refine State.memWf_foldl_iff (fun u o => ?_) _ s
  dsimp only
  split <;> simp

theorem State.memWf_ringWrite {s : State} (w : s.memWf) (part slot log2n pos : Nat) (r : BitVec 256) :
    (s.ringWrite part slot log2n pos r).memWf := by
  unfold State.ringWrite
  split
  · exact State.memWf_rowWrite (State.memWf_touchImage w _ _ _ _ _ _) _ _ _ _ _ _
  · exact w

/-! ### Waits of the hub, and pushes -/

@[simp] theorem State.memWf_hubMiss_iff (s : State) (tie : ErrTie) (va : Nat) : (s.hubMiss tie va).memWf ↔ s.memWf := by
  simp [State.hubMiss]

/-- The state in which the hub waits for a row range has the same memory. -/
theorem State.memWf_of_hubWait {s s' : State} (w : s.memWf) {tie : ErrTie} {slot : Nat} {t : Table} {off n : Nat}
    {wr : Bool} (h : s.hubWait tie slot t off n wr = some s') : s'.memWf := by
  simp only [State.hubWait] at h
  split at h
  · cases h; exact w
  · split at h <;> cases h
    · exact w
    · exact w
    · simpa using w

theorem State.memWf_of_hubWait2 {s s' : State} (w : s.memWf) {tie : ErrTie} {slot : Nat} {t : Table} {off n : Nat}
    (h : s.hubWait2 tie slot t off n = some s') : s'.memWf := by
  unfold State.hubWait2 at h
  split at h
  · rename_i hw
    cases h
    exact State.memWf_of_hubWait w hw
  · exact State.memWf_of_hubWait w h

theorem State.memWf_of_ringWait {s s' : State} (w : s.memWf) {tie : ErrTie} {slot log2n : Nat} : ∀ {n pos : Nat}
    (_ : s.ringWait tie slot log2n pos n = some s'), s'.memWf
  | n + 1, pos, h => by
    unfold State.ringWait at h
    split at h
    · cases h; exact w
    · split at h
      · rename_i hw
        cases h
        exact State.memWf_of_hubWait w hw
      · exact State.memWf_of_ringWait w h

theorem State.memWf_of_vaWait {s s' : State} (w : s.memWf) {tie : ErrTie} {va : Nat} {wr : Bool}
    (h : s.vaWait tie va wr = some s') : s'.memWf := by
  unfold State.vaWait at h
  split at h
  · cases h; exact w
  · split at h
    · split at h <;> cases h
      simpa using w
    · cases h; simpa using w
    · cases h; exact w

/-- The state that a push leaves, where there is one, has the form. -/
def Push.Wf : Push → Prop
  | .full => True
  | .wait s | .done s => s.memWf

theorem State.push_wf {s : State} (w : s.memWf) (tie : ErrTie) (spool : Nat) (recs : List (BitVec 256)) :
    (s.push tie spool recs).Wf := by
  simp only [State.push]
  split
  · trivial
  · split
    · exact State.memWf_of_ringWait w ‹_›
    · exact State.memWf_foldl (fun _ _ h => State.memWf_ringWrite h _ _ _ _ _) _ w

theorem State.memWf_of_push_wait {s s' : State} (w : s.memWf) {tie : ErrTie} {spool : Nat} {recs : List (BitVec 256)}
    (h : s.push tie spool recs = .wait s') : s'.memWf := by
  have hp := State.push_wf w tie spool recs
  rwa [h] at hp

theorem State.memWf_of_push_done {s s' : State} (w : s.memWf) {tie : ErrTie} {spool : Nat} {recs : List (BitVec 256)}
    (h : s.push tie spool recs = .done s') : s'.memWf := by
  have hp := State.push_wf w tie spool recs
  rwa [h] at hp

end Sys2Proof.Machine
end

section
/-! SUPPORT. The canonical form of memory under control, the points of the ordering machine and lane accesses
(Machine/Control.lean to Machine/Tables.lean, Machine/Events.lean). -/

namespace Sys2Proof.Machine

/-! ### Control and fetch -/

@[simp] theorem Iss.memWf_passToken_iff (x : Iss) (s : State) (n : Nat) : (x.passToken s n).memWf ↔ s.memWf := by
  simp [Iss.passToken]

@[simp] theorem State.memWf_endTrap_iff (s : State) (r : GRef) : (s.endTrap r).memWf ↔ s.memWf := by
  unfold State.endTrap
  split
  · rfl
  · split <;> simp

@[simp] theorem State.memWf_dropBlocks_iff (s : State) (core part slot first count : Nat) :
    (s.dropBlocks core part slot first count).memWf ↔ s.memWf := .rfl

theorem nextWf_execRgn {s : State} (w : s.memWf) (len : Len) (idem conv : Bool) (ws : WSet) :
    NextWf (execRgn len idem conv ws s) := by
  refine nextWf_onGroup w _ fun x => ?_
  dsimp only
  split <;> simp [w]

theorem nextWf_execSpawn {s : State} (w : s.memWf) (h : Hdr) (d a spool : BitVec 6) :
    NextWf (execSpawn h d a spool s) := by
  refine nextWf_onGroup w _ fun x => ?_
  have wf := State.memWf_flushWide w x.t.core
  dsimp only
  split
  · simpa using w
  · split
    · exact w
    · split
      · simpa using wf
      · split
        · simpa using wf
        · exact State.memWf_of_push_wait wf ‹_›
        · simpa using State.memWf_of_push_done wf ‹_›

theorem nextWf_execIcinvAcknowledge {s : State} (w : s.memWf) (r : GRef) (core : Nat) :
    NextWf (execIcinvAcknowledge r core s) := by
  unfold execIcinvAcknowledge
  split
  · simpa using w
  · split <;> simpa using w

theorem nextWf_execUnassignedEncoding {s : State} (w : s.memWf) (sub : BitVec 8) (len : Len) :
    NextWf (execUnassignedEncoding sub len s) := by
  unfold execUnassignedEncoding
  split <;> simp [w]

theorem nextWf_execCodeFetchFault {s : State} (w : s.memWf) (e : FetchErr) : NextWf (execCodeFetchFault e s) := by
  simp only [execCodeFetchFault]
  split
  · simp
  · cases e with
    | range => simpa using w
    | translation => dsimp only; split <;> simpa using w
    | poisoned => dsimp only; split <;> simpa using w

theorem State.memWf_useCode {s : State} (w : s.memWf) (t : Team) (pc : Nat) : (s.useCode t pc).memWf := by
  simp only [State.useCode]
  split
  · exact w
  · split
    · exact w
    · exact State.memWf_useFetch w _ _ _ _ _

/-! ### The team point and the cluster point -/

@[simp] theorem State.memWf_newL1_iff (s : State) (core line : Nat) : (s.newL1 core line).memWf ↔ s.memWf := by
  simp only [State.newL1, State.memWf_setL1_iff]
  split <;> simp

@[simp] theorem State.memWf_fillL1_iff (s : State) (core line : Nat) : (s.fillL1 core line).memWf ↔ s.memWf := by
  unfold State.fillL1
  split <;> simp

@[simp] theorem State.memWf_anyFill_iff (s : State) (core line : Nat) : (s.anyFill core line).memWf ↔ s.memWf := by
  simp [State.anyFill]

@[simp] theorem State.memWf_mayAcquire_iff (s : State) (core team : Nat) : (s.mayAcquire core team).memWf ↔ s.memWf := .rfl

theorem State.memWf_ownHome {s : State} (w : s.memWf) (core line : Nat) (who : Nat × Nat × Nat) :
    (s.ownHome core line who).memWf := by simp [State.ownHome, State.memWf_moveWhere w, w]

theorem State.memWf_ownBack {s : State} (w : s.memWf) (core line : Nat) (who : Nat × Nat × Nat) :
    (s.ownBack core line who).memWf := by
  unfold State.ownBack
  split
  · simp [State.memWf_writeBack w, w]
  · exact w

theorem State.memWf_beforeLoad {s : State} (w : s.memWf) (sc : Scope) (core line : Nat) (who : Nat × Nat × Nat) :
    (s.beforeLoad sc core line who).memWf := by
  have h := State.memWf_ownHome w core line who
  cases sc with
  | grp | team => exact w
  | clu => exact h
  | part | dev | sys => exact State.memWf_ownBack h core line who

theorem State.memWf_loadAt {s : State} (w : s.memWf) (sc : Scope) (core : Nat) (who : Nat × Nat × Nat) (key n : Nat) :
    (s.loadAt sc core who key n).1.memWf := by
  have h := State.memWf_beforeLoad w sc core (lineOf key) who
  simp only [State.loadAt]
  cases sc with
  | grp | team => simpa using h
  | clu => dsimp only; split <;> simpa using h
  | part | dev | sys => simpa using h

theorem State.memWf_atomicAtCluster {s : State} (w : s.memWf) (core part va : Nat) (leaf : Option Nat)
    (who : Nat × Nat × Nat) (op : AOp) (ty : ITy) (wide : Bool) (key : Nat) (b c : DWord) :
    (s.atomicAtCluster core part va leaf who op ty wide key b c).1.memWf := by
  have before : (if wide then (s.flush core).mayAcquire core who.1
      else s.moveWhere core fun w => decide (lineOf w.addr = lineOf key)).memWf := by
    simp [State.memWf_flush w, State.memWf_moveWhere w]
  have taken := State.memWf_takeLine before (core / 8) (lineOf key) part va
  simp only [State.atomicAtCluster]
  split
  · exact taken
  · split
    · exact (State.memWf_patchL1_iff ..).mpr taken
    · exact (State.memWf_patchL1_iff ..).mpr (State.memWf_setD (s := State.setCluster _ _ _) taken _)

/-! ### Accesses at issue -/

theorem State.memWf_touch {s : State} (w : s.memWf) (core part : Nat) (qs : List LaneReq) : (s.touch core part qs).memWf := by
  refine State.memWf_foldl (fun u q h => ?_) _ w
  simp [State.memWf_usePage h, h]

theorem Acc.memWf_launch (a : Acc) {s : State} (w : s.memWf) (o : Pend) : (a.launch s o).memWf := by
  unfold Acc.launch
  split
  · exact w
  · split
    · exact w
    · simpa using w
    · simpa using State.memWf_touch w _ _ _

@[simp] theorem Acc.memWf_launchSp_iff (a : Acc) (s : State) (o : Pend) : (a.launchSp s o).memWf ↔ s.memWf := by
  simp [Acc.launchSp]

@[simp] theorem State.memWf_noteStale_iff (s : State) (part : Nat) (rr : DWord) (wr : Bool) :
    (s.noteStale part rr wr).memWf ↔ s.memWf := .rfl

theorem nextWf_execPoint {s : State} (w : s.memWf) (i : Instr) (o : TPoint) (kind : PKind) (admits right : Table → Bool)
    (regs : Nat) : NextWf (execPoint i o kind admits right regs s) := by
  refine nextWf_onGroup w _ fun x => ?_
  dsimp only
  split <;> simpa using w

theorem nextWf_execRange {s : State} (w : s.memWf) (i : Instr) (o : TRange) (kind : PKind) (admits right : Table → Bool)
    (regs : Nat) : NextWf (execRange i o kind admits right regs s) := by
  refine nextWf_onGroup w _ fun x => ?_
  dsimp only
  split <;> simpa using w

/-! ### Late faults and results of lanes -/

@[simp] theorem State.memWf_lateFault_iff (s : State) (r : GRef) (o : Pend) (link : Option Nat)
    (fs : List (Nat × LaneFault)) : (s.lateFault r o link fs).memWf ↔ s.memWf := by
  simp only [State.lateFault]
  split
  · rfl
  · rw [State.memWf_ite_iff]
    split
    · rfl
    · split <;> simp

@[simp] theorem State.memWf_settleFaults_iff (s : State) (r : GRef) (id : Nat) : (s.settleFaults r id).memWf ↔ s.memWf := by
  simp only [State.settleFaults]
  split
  · rfl
  · split <;> simp

@[simp] theorem State.memWf_failLane_iff (s : State) (r : GRef) (g : Group) (o : Pend) (l : Nat) (f : LaneFault) :
    (s.failLane r g o l f).memWf ↔ s.memWf := by simp [State.failLane]

@[simp] theorem State.memWf_stale_iff (s : State) (part : Nat) (o : Pend) (q : LaneReq) (wr : Bool) :
    (s.stale part o q wr).memWf ↔ s.memWf := by simp [State.stale]

@[simp] theorem State.memWf_laneResult_iff (s : State) (r : GRef) (id : Nat) (q : LaneReq) (v : Nat) (p : Bool) :
    (s.laneResult r id q v p).memWf ↔ s.memWf := by
  unfold State.laneResult
  split <;> simp

/-! ### The table order -/

theorem State.memWf_tablePoint {s : State} (w : s.memWf) (r : GRef) (t : Team) (g : Group) (o : Pend) (q : LaneReq)
    (pick : Nat) (bad : Bool) : (s.tablePoint r t g o q pick bad).memWf := by
  have zeroed := fun (slot : Nat) (tb : Table) (fuel off n : Nat) => State.memWf_zeroImage none t.part slot tb fuel w off n
  simp only [State.tablePoint]
  split
  · split
    · simpa using w
    · split
      · simpa using w
      · split
        · simpa using w
        · split <;> simpa using w
  · split
    · simpa using w
    · split
      · simpa using w
      · split
        case h_1 => simpa using w
        case h_2 | h_3 => split <;> simp [w, zeroed]
        case h_4 => split <;> simpa using w
        case h_5 => split <;> simpa using w
        case h_6 => split <;> simp [w]
        case h_7 => simp [w, zeroed]
        case h_8 => exact w

theorem State.memWf_of_tbWait {s s' : State} (w : s.memWf) {t : Team} {o : Pend} {q : LaneReq} {pick : Nat}
    (h : s.tbWait t o q pick = some s') : s'.memWf := by
  unfold State.tbWait at h
  split at h
  · cases h
  · split at h
    · cases h
    · split at h
      · rename_i hw
        cases h
        split at hw
        · exact State.memWf_of_vaWait w hw
        · cases hw
      · split at h
        · exact State.memWf_of_hubWait w h
        · cases h

theorem State.memWf_markIndex {s : State} (w : s.memWf) (part : Nat) (o : Pend) (q : LaneReq) (bad : Bool) :
    (s.markIndex part o q bad).memWf := by
  unfold State.markIndex
  split
  · simp [State.memWf_markWrite w, w]
  · exact w

theorem State.memWf_beforePoint {s : State} (w : s.memWf) (t : Team) (o : Pend) (q : LaneReq) :
    (s.beforePoint t o q).memWf := by
  unfold State.beforePoint
  split
  · simp [State.memWf_flushWide w, w]
  · exact w

theorem nextWf_execTableOrderPoint {s : State} (w : s.memWf) (r : GRef) (op pick : Nat) (bad : Bool) :
    NextWf (execTableOrderPoint r op pick bad s) := by
  unfold execTableOrderPoint
  split
  · simpa using w
  · split
    · simpa using w
    · split
      · split
        · simpa using w
        · split
          · simpa using State.memWf_of_tbWait w ‹_›
          · simpa using State.memWf_tablePoint (State.memWf_markIndex (State.memWf_beforePoint w _ _ _) _ _ _ _) _ _ _ _ _ _ _
      · simpa using w

/-! ### Loads -/

theorem State.memWf_farSide {s : State} (w : s.memWf) (q : LaneReq) (n : Nat) (ext : Option (BitVec 128)) :
    (s.farSide q n ext).memWf := by
  unfold State.farSide
  split
  · simp [State.memWf_wrNat w, w]
  · exact w

theorem State.memWf_beforeFar {s : State} (w : s.memWf) (r : GRef) (t : Team) (o : Pend) (q : LaneReq) :
    (s.beforeFar r t o q).memWf := by simp [State.beforeFar, State.memWf_beforeLoad w, w]

theorem State.memWf_loadLane {s : State} (w : s.memWf) (r : GRef) (t : Team) (g : Group) (o : Pend) (q : LaneReq)
    (ext : Option (BitVec 128)) : (s.loadLane r t g o q ext).memWf := by
  have before := State.memWf_beforeFar w r t o q
  simp only [State.loadLane]
  split
  · simpa using w
  · simpa using w
  · generalize (isWindow q.addr && !s.l1Hit t.core o q) = far
    have source : (if far then (s.beforeFar r t o q).farSide q o.size ext else s.beforeFar r t o q).memWf := by
      simp [State.memWf_farSide before, before]
    simp [before, State.memWf_loadAt source]

@[simp] theorem State.memWf_ldsLane_iff (s : State) (r : GRef) (t : Team) (o : Pend) (q : LaneReq) :
    (s.ldsLane r t o q).memWf ↔ s.memWf := by simp [State.ldsLane]

@[simp] theorem State.memWf_atomsLane_iff (s : State) (r : GRef) (t : Team) (o : Pend) (op : AOp) (ty : ITy) (q : LaneReq) :
    (s.atomsLane r t o op ty q).memWf ↔ s.memWf := by simp [State.atomsLane]

@[simp] theorem State.memWf_ftFill_iff (s : State) (core line : Nat) : (s.ftFill core line).1.memWf ↔ s.memWf := by
  simp only [State.ftFill]
  split <;> simp

/-- The elements of a lane's FETCH leave memory alone. -/
theorem State.memWf_fetchLane {s : State} (w : s.memWf) (r : GRef) (t : Team) (g : Group) (o : Pend) (fmt : Fmt)
    (qs : List LaneReq) (l : Nat) (ext : Option (BitVec 128)) : (s.fetchLane r t g o fmt qs l ext).memWf := by
  have fold : ∀ (f : State × Group → LaneReq → State × Group) (_ : ∀ x q, (f x q).1.memWf ↔ x.1.memWf) (l : List LaneReq)
      (x : State × Group), x.1.memWf → (l.foldl f x).1.memWf := by
    intro f hf l
    induction l with
    | nil => exact fun _ h => h
    | cons q l ih => exact fun x h => ih _ ((hf x q).mpr h)
  simp only [State.fetchLane]
  split
  · exact w
  · simpa using w
  · rw [State.memWf_putGroup_iff]
    refine fold _ (fun x q => ?_) _ _ ?_
    · split <;> simp
    · split
      · exact State.memWf_farSide w _ _ _
      · exact w

@[simp] theorem State.memWf_mxrdLane_iff (s : State) (r : GRef) (t : Team) (o : Pend) (m : Nat) (q : LaneReq) :
    (s.mxrdLane r t o m q).memWf ↔ s.memWf := by
  unfold State.mxrdLane
  split <;> simp

theorem State.memWf_completeLane {s : State} (w : s.memWf) (r : GRef) (id l : Nat) (ext : Option (BitVec 128)) :
    (s.completeLane r id l ext).memWf := by
  unfold State.completeLane
  split
  · exact w
  · split
    · exact w
    · split
      · exact w
      · split
        · exact State.memWf_loadLane w _ _ _ _ _ _
        · simpa using w
        · simpa using w
        · exact State.memWf_fetchLane w _ _ _ _ _ _ _ _
        · simpa using w
        · exact w

theorem nextWf_execLoadComplete {s : State} (w : s.memWf) (r : GRef) (op : Nat) (lanes : Lanes)
    (ext : List (BitVec 128)) : NextWf (execLoadComplete r op lanes ext s) := by
  unfold execLoadComplete
  split
  · simpa using w
  · simpa using State.memWf_foldl (fun _ _ h => State.memWf_completeLane h _ _ _ _) _ w

/-! ### Stores and halves -/

theorem State.memWf_storeLane {s : State} (w : s.memWf) (r : GRef) (t : Team) (g : Group) (o : Pend) (q : LaneReq) :
    (s.storeLane r t g o q).memWf := by
  unfold State.storeLane
  split
  · simpa using w
  · simpa using w
  · simp [State.memWf_storeAt w, w]

theorem State.memWf_performLane {s : State} (w : s.memWf) (r : GRef) (id l : Nat) : (s.performLane r id l).memWf := by
  unfold State.performLane
  split
  · exact w
  · split
    · exact w
    · split
      · exact w
      · split
        · simp [State.memWf_storeLane w, w]
        · simp [w]
        · split <;> simp [w]
        · exact w

theorem nextWf_execStorePerform {s : State} (w : s.memWf) (r : GRef) (op : Nat) (lanes : Lanes) :
    NextWf (execStorePerform r op lanes s) := by
  unfold execStorePerform
  split
  · simpa using w
  · simpa using State.memWf_foldl (fun _ _ h => State.memWf_performLane h _ _ _) _ w

@[simp] theorem State.memWf_setReqs_iff (s : State) (r : GRef) (o : Pend) (f : LaneReq → LaneReq) :
    (s.setReqs r o f).memWf ↔ s.memWf := by
  unfold State.setReqs
  split <;> simp

theorem State.memWf_halfLoad {s : State} (w : s.memWf) (r : GRef) (t : Team) (o : Pend) (q : LaneReq) (hi : Bool)
    (ext : Option (BitVec 128)) : (s.halfLoad r t o q hi ext).memWf := by
  have before := State.memWf_beforeFar w r t o q
  simp only [State.halfLoad]
  split
  · exact before
  · rw [State.memWf_setReqs_iff]
    refine State.memWf_loadAt ?_ _ _ _ _ _
    split
    · exact State.memWf_farSide before _ _ _
    · exact before

theorem State.memWf_halfLane {s : State} (w : s.memWf) (r : GRef) (id l : Nat) (hi : Bool) (ext : Option (BitVec 128)) :
    (s.halfLane r id l hi ext).memWf := by
  simp only [State.halfLane]
  split
  · exact w
  · split
    · exact w
    · split
      · simp [State.memWf_halfLoad w, w]
      · simp [w]
      · split
        · exact w
        · rw [State.memWf_setReqs_iff]
          exact State.memWf_foldl (fun _ _ h => State.memWf_storeAt h _ _ _ _ _ _ _ _ _) _ w
      · simp [w]
      · exact w

/-! ### Steps of the team and cluster points, atomics -/

theorem nextWf_execMoveHome {s : State} (w : s.memWf) (core index : Nat) : NextWf (execMoveHome core index s) := by
  simp only [execMoveHome]
  split
  · simpa using w
  · split
    · simpa using w
    · exact (nextWf_next _).mpr (State.memWf_landWrite (s := s.setCore _ _) w _ _)

theorem nextWf_execClusterWriteBack {s : State} (w : s.memWf) (cluster line : Nat) (drop : Bool) :
    NextWf (execClusterWriteBack cluster line drop s) := by
  unfold execClusterWriteBack
  split
  · simpa using w
  · simpa using State.memWf_writeBack w _ _ _

theorem State.memWf_atomLane {s : State} (w : s.memWf) (r : GRef) (t : Team) (g : Group) (o : Pend) (op : AOp) (ty : ITy)
    (q : LaneReq) : (s.atomLane r t g o op ty q).memWf := by
  simp only [State.atomLane]
  split
  · simpa using w
  · simpa using w
  · split
    · simpa using w
    · rw [State.memWf_laneResult_iff]
      split
      · exact State.memWf_atomicAtCluster w _ _ _ _ _ _ _ _ _ _ _
      · exact State.memWf_atomicAtHome w _ _ _ _ _ _ _ _ _

theorem State.memWf_atomNext {s : State} (w : s.memWf) (r : GRef) (id : Nat) (cluster : Bool) :
    (s.atomNext r id cluster).memWf := by
  unfold State.atomNext
  split
  · exact w
  · split
    · split
      · exact w
      · simp [State.memWf_atomLane w, w]
    · exact w

theorem nextWf_execHomeSliceAtomic {s : State} (w : s.memWf) (r : GRef) (op : Nat) : NextWf (execHomeSliceAtomic r op s) := by
  simpa [execHomeSliceAtomic] using State.memWf_atomNext w r op false

theorem State.memWf_atomAll {s : State} (w : s.memWf) (q : GRef × Nat) : (s.atomAll q).memWf := by
  unfold State.atomAll
  split
  · exact w
  · simpa using State.memWf_foldl (fun _ _ h => State.memWf_atomNext h _ _ _) _ w

theorem nextWf_execClusterAtomicEngineBatch {s : State} (w : s.memWf) (cluster : Nat) (reqs : List (GRef × Nat)) :
    NextWf (execClusterAtomicEngineBatch cluster reqs s) := by
  simp only [execClusterAtomicEngineBatch]
  split
  · simpa using w
  · simpa using State.memWf_foldl (fun _ _ h => State.memWf_atomAll h _) _ w

theorem State.memWf_windowAtomic {s : State} (w : s.memWf) (r : GRef) (t : Team) (g : Group) (o : Pend) (op : AOp)
    (ty : ITy) (q : LaneReq) (c : Completion) (ext : DWord) : (s.windowAtomic r t g o op ty q c ext).memWf := by
  have flushed := State.memWf_flushWide w t.core
  simp only [State.windowAtomic]
  split
  · simpa using w
  · simpa using w
  · cases c with
    | unsupported | abort => simp [w, flushed]
    | ok => simp [w, flushed, State.memWf_wrNat flushed]

theorem State.memWf_onWindowAtomic {s : State} (w : s.memWf) (r : GRef) (id l : Nat)
    {f : Team → Group → Pend → AOp → ITy → LaneReq → State} (h : ∀ t g o op ty q, (f t g o op ty q).memWf) :
    (s.onWindowAtomic r id l f).memWf := by
  unfold State.onWindowAtomic
  split
  · exact w
  · split
    · simp [w, h]
    · exact w

theorem nextWf_execAtomicopCompletion {s : State} (w : s.memWf) (r : GRef) (op lane : Nat) (c : Completion)
    (ext : DWord) : NextWf (execAtomicopCompletion r op lane c ext s) := by
  simpa [execAtomicopCompletion] using
    State.memWf_onWindowAtomic w r op lane fun _ _ _ _ _ _ => State.memWf_windowAtomic w _ _ _ _ _ _ _ _ _

theorem nextWf_execCompletionTimeout {s : State} (w : s.memWf) (r : GRef) (op lane : Nat) :
    NextWf (execCompletionTimeout r op lane s) := by
  unfold execCompletionTimeout
  split
  · simpa using w
  · split
    · split <;> simpa using w
    · split <;> simpa using w
    · simpa using State.memWf_onWindowAtomic w r op lane fun _ _ _ _ _ _ => State.memWf_windowAtomic w _ _ _ _ _ _ _ _ _

end Sys2Proof.Machine
end

section
/-! SUPPORT. The canonical form of memory under the engines, barriers, gates and the array (Machine/Engines.lean to
Machine/Sequencer.lean). -/

namespace Sys2Proof.Machine

/-! ### Rows and layouts -/

theorem State.memWf_useLayout {s : State} (w : s.memWf) (v : Option Nat) (part : Nat) (h : DWord) (pos : Nat) :
    (s.useLayout v part h pos).memWf := by
  unfold State.useLayout
  split
  · exact State.memWf_useImage w _ _ _ _ _ _
  · exact w

theorem State.memWf_touchRow {s : State} (w : s.memWf) (v : Option Nat) (part slot : Nat) (t : Table) (row : Nat) :
    (s.touchRow v part slot t row).memWf := State.memWf_touchImage w _ _ _ _ _ _

@[simp] theorem State.memWf_dropLines_iff (s : State) (core key n : Nat) : (s.dropLines core key n).memWf ↔ s.memWf := .rfl

theorem State.memWf_unitWrite {s : State} (w : s.memWf) (core : Option Nat) (bar : Bool) (part slot : Nat) (t : Table)
    (off : Nat) (bs : List Byte) : (s.unitWrite core bar part slot t off bs).memWf := by
  have h := State.memWf_rowWrite w core part slot t off bs
  simp only [State.unitWrite]
  split
  · refine State.memWf_foldl (fun u o hu => ?_) _ h
    split
    · simpa using hu
    · exact hu
  · exact h

theorem State.memWf_putRuns (core : Option Nat) (bar : Bool) (part slot : Nat) (t : Table) (row : Nat) :
    ∀ (rs : List (Nat × Nat)) {s : State} (_ : s.memWf) (bs : List Byte), (s.putRuns core bar part slot t row rs bs).memWf
  | [], _, w, _ => w
  | (_, _) :: rs, _, w, _ => State.memWf_putRuns core bar part slot t row rs (State.memWf_unitWrite w _ _ _ _ _ _ _) _

theorem State.writeRuns_wf {s : State} (w : s.memWf) (core : Option Nat) (bar : Bool) (part slot : Nat) (t : Table)
    (row : Nat) (runs : List (Nat × Nat)) (bs : List Byte) :
    (s.writeRuns core bar part slot t row runs bs).All State.memWf := by
  unfold State.writeRuns
  split
  · simp
  · simp
  · simp
  · split
    · simp
    · refine (Reach.all_ok _ _).mpr ((State.memWf_foldl_iff (fun _ _ => ?_) _ _).mpr (State.memWf_putRuns _ _ _ _ _ _ _ w _))
      exact State.memWf_clearImage_iff ..

/-! ### Engine operations of a team -/

@[simp] theorem State.memWf_arriveAll_iff (s : State) (tn : Nat) (t : Team) (op : EngOp) :
    (s.arriveAll tn t op).memWf ↔ s.memWf := by
  unfold State.arriveAll
  split
  · rfl
  · split
    · split <;> simp
    · refine State.memWf_foldl_iff (fun u k => ?_) _ s
      split <;> simp

@[simp] theorem State.memWf_joins_iff (tn n : Nat) : ∀ s : State, (s.joins tn n).memWf ↔ s.memWf := by
  induction n with
  | zero => exact fun _ => .rfl
  | succ n ih =>
    intro s
    simp only [State.joins]
    split
    · rfl
    · split
      · rfl
      · split
        · simp
        · simp [ih]

@[simp] theorem State.memWf_engFinish_iff (s : State) (tn : Nat) (op : EngOp) : (s.engFinish tn op).memWf ↔ s.memWf := by
  simp only [State.engFinish]
  split
  · rfl
  · split
    all_goals simp

@[simp] theorem State.memWf_putEng_iff (s : State) (tn : Nat) (op : EngOp) : (s.putEng tn op).memWf ↔ s.memWf := by
  unfold State.putEng
  split <;> simp

@[simp] theorem State.memWf_engKeep_iff (s : State) (tn : Nat) (op : EngOp) : (s.engKeep tn op).memWf ↔ s.memWf := by
  simp [State.engKeep]

@[simp] theorem State.memWf_engStall_iff (s : State) (tn : Nat) (op : EngOp) (va slot : Nat) :
    (s.engStall tn op va slot).memWf ↔ s.memWf := by
  unfold State.engStall
  split <;> simp

@[simp] theorem State.memWf_engBegin_iff (s : State) (tn : Nat) (op : EngOp) (f : Reach EngOp) :
    (s.engBegin tn op f).memWf ↔ s.memWf := by
  unfold State.engBegin
  split
  · rfl
  · split <;> simp

theorem State.memWf_engItem {s zero : State} {f : Reach State} (w : s.memWf) (hf : f.All State.memWf) (hz : zero.memWf)
    (tn : Nat) (op : EngOp) (i : Nat) (fail : Bool) (addr : DWord) (slot : Nat) :
    (s.engItem tn op i fail addr slot f zero).memWf := by
  unfold State.engItem
  split
  · exact w
  · split
    · simpa using hf
    · simpa using hz
    · simp [w, hz]
    · simpa using w

@[simp] theorem Iss.memWf_engine_iff (x : Iss) (s : State) (path : Path) (handle : Option DWord) (op : EngOp) :
    (x.engine s path handle op).memWf ↔ s.memWf := by simp [Iss.engine]

/-! ### The copy and gather engines -/

theorem State.memWf_cpyItem {s : State} (w : s.memWf) (tn : Nat) (t : Team) (op : EngOp) (item : Nat) (fail : Bool) :
    (s.cpyItem tn t op item fail).memWf := by
  simp only [State.cpyItem]
  split
  · exact w
  · split
    · refine State.memWf_engItem w ((Reach.all_ok _ _).mpr ?_) w _ _ _ _ _ _
      split
      · split <;> simpa using w
      · exact w
    · have touched := fun slot tb row => State.memWf_touchRow w (some t.core) t.part slot tb row
      split
      · refine State.memWf_engItem (touched _ _ _) (Reach.all_bind _ fun bs => (Reach.all_ok _ _).mpr ?_) ?_ _ _ _ _ _ _
        · split <;> simp [touched]
        · split <;> simp [touched]
      · exact State.memWf_engItem (touched _ _ _) (State.writeRuns_wf (touched _ _ _) _ _ _ _ _ _ _ _) (touched _ _ _) _ _ _ _ _ _
      · refine State.memWf_engItem (touched _ _ _) ?_ (touched _ _ _) _ _ _ _ _ _
        split
        · simp
        · split <;> simp [touched]
        · simp
        · simp [touched]

theorem nextWf_execCopyEngineOperation {s : State} (w : s.memWf) (tn item : Nat) (fail : Bool) :
    NextWf (execCopyEngineOperation tn item fail s) := by
  unfold execCopyEngineOperation
  split
  · simpa using w
  · split
    · simpa using w
    · split
      · simpa using State.memWf_useLayout w _ _ _ _
      · split
        · simpa using State.memWf_cpyItem w _ _ _ _ _
        · simpa using w

theorem State.memWf_gathItem {s : State} (w : s.memWf) (tn : Nat) (t : Team) (op : EngOp) (i : Nat) (fail : Bool) :
    (s.gathItem tn t op i fail).memWf := by
  simp only [State.gathItem]
  split
  · simp [State.memWf_engItem, w]
  · split
    · simp [State.memWf_engItem, w]
    · simp [State.memWf_engItem, w]
    · have touched := fun slot tb row => State.memWf_touchRow w (some t.core) t.part slot tb row
      simp [State.memWf_engItem, Reach.all_bind, touched]

theorem nextWf_execGatherEngineOperation {s : State} (w : s.memWf) (tn item : Nat) (fail : Bool) :
    NextWf (execGatherEngineOperation tn item fail s) := by
  unfold execGatherEngineOperation
  split
  · simpa using w
  · split
    · simpa using w
    · split
      · simpa using w
      · split
        · simpa using State.memWf_gathItem w _ _ _ _ _
        · simpa using w

/-! ### The near-memory engine -/

theorem State.memWf_nmcItem {s : State} (w : s.memWf) (tn : Nat) (t : Team) (op : EngOp) (i : Nat) :
    (s.nmcItem tn t op i).memWf := by
  simp only [State.nmcItem]
  split
  · exact w
  · generalize hu : List.foldl _ s _ = u
    have wu : u.memWf := hu ▸ State.memWf_foldl (fun _ _ h => State.memWf_touchImage h _ _ _ _ _ _) _ w
    have recalled : ∀ l : List (Nat × Nat),
        (if nmCmd op.cmd = 5 then u else l.foldl (fun s p => s.recallRange p.1 p.2) u).memWf := fun l => by
      simp [wu, State.memWf_foldl (fun _ _ h => State.memWf_recallRange h _ _) l wu]
    have marked := fun (l : List (HeldElem × Option Nat)) {v : State} (wv : v.memWf) =>
      State.memWf_foldl (f := fun (s : State) e => s.setD e.2) (fun _ _ h => State.memWf_setD h _) l wv
    split
    · simp [State.memWf_engItem, wu]
    · simp [State.memWf_engItem, wu]
    · generalize hv : (if nmCmd op.cmd = 5 then u else _) = v
      have wv : v.memWf := hv ▸ recalled _
      refine State.memWf_ite (State.memWf_engItem wu (Reach.all_busy _) wu ..) (State.memWf_ite ?_ (State.memWf_ite ?_ ?_))
      · exact State.memWf_engItem wu (Reach.all_code _ _) wu ..
      · exact (State.memWf_engKeep_iff ..).mpr wv
      · exact (State.memWf_putEng_iff ..).mpr (marked _ wv)

theorem State.memWf_nmcElem {s : State} (w : s.memWf) (tn : Nat) (t : Team) (op : EngOp) (row j : Nat) :
    (s.nmcElem tn t op row j).memWf := by
  simp only [State.nmcElem]
  split
  · exact w
  · split
    · exact w
    · simp [State.memWf_homeWrite w]

theorem nextWf_execNearMemoryCommandApply {s : State} (w : s.memWf) (tn : Nat) (pick : NearPick) :
    NextWf (execNearMemoryCommandApply tn pick s) := by
  unfold execNearMemoryCommandApply
  split
  · simpa using w
  · split
    · simpa using w
    · split
      · simpa using w
      · split
        · simpa using w
        · split
          · simpa using w
          · split
            · simpa using State.memWf_nmcElem w _ _ _ _ _
            · split
              · simpa using w
              · simpa using State.memWf_nmcItem w _ _ _ _

/-! ### The collective engine -/

theorem State.memWf_useBlock {s : State} (w : s.memWf) (part : Nat) (h key : DWord) : (s.useBlock part h key).memWf := by
  unfold State.useBlock
  split
  · exact State.memWf_useImage w _ _ _ _ _ _
  · exact w

theorem State.memWf_useComm {s : State} (w : s.memWf) (part comm : Nat) : (s.useComm part comm).memWf := by
  unfold State.useComm
  split
  · exact State.memWf_useImage w _ _ _ _ _ _
  · exact w

@[simp] theorem State.memWf_setJoined_iff (s : State) (comm : BitVec 256) (part : Nat) (l : List CollPart) :
    (s.setJoined comm part l).memWf ↔ s.memWf := .rfl
@[simp] theorem State.memWf_joinColl_iff (s : State) (comm : BitVec 256) (part : Nat) (r : BitVec 512) :
    (s.joinColl comm part r).memWf ↔ s.memWf := .rfl

theorem State.coJoin_wf {s : State} (w : s.memWf) (part : Nat) (op : EngOp) (h key : DWord) :
    (s.coJoin part op h key).All fun x => x.1.memWf := by
  refine Reach.all_bind _ fun r => ?_
  have used := State.memWf_useComm (State.memWf_useBlock w part h key) part (coComm r)
  dsimp only
  split <;> simp [used]

theorem State.memWf_useSource {s : State} (w : s.memWf) (part : Nat) (r : BitVec 512) (j n : Nat) :
    (s.useSource part r j n).memWf := by
  unfold State.useSource
  split
  · exact State.memWf_useImage w _ _ _ _ _ _
  · exact w

theorem State.memWf_useSources {s : State} (w : s.memWf) (part : Nat) (r : BitVec 512) (c : CollAt) (i : Nat) :
    (s.useSources part r c i).memWf := by
  refine State.memWf_foldl (fun u q hu => ?_) _ w
  split
  · exact State.memWf_useSource hu _ _ _ _
  · split
    · split
      · simp [State.memWf_useSource hu, hu]
      · exact hu
    · exact hu

theorem State.coSend_wf {s : State} (w : s.memWf) (part : Nat) (r : BitVec 512) (c : CollAt) :
    (s.coSend part r c).All State.memWf := by
  unfold State.coSend
  split
  · simpa using w
  · refine Reach.all_bind _ fun l => ?_
    have used := State.memWf_useSource w part r 0 (coSources r c)
    dsimp only
    split
    · simpa using used
    · simpa using used

theorem State.coWrite_wf {s : State} (w : s.memWf) (core : Option Nat) (bar : Bool) (part : Nat) (r : BitVec 512)
    (off : Nat) (v : Reach Nat) : (s.coWrite core bar part r off v).All State.memWf := by
  simp only [State.coWrite]
  split
  · simp
  · split
    case h_7 =>
      split
      · simp
      · simpa using State.memWf_unitWrite (State.memWf_touchImage w _ _ _ _ _ _) _ _ _ _ _ _ _
    all_goals simp

theorem State.memWf_coPoison {s : State} (w : s.memWf) (core : Option Nat) (part : Nat) (r : BitVec 512) (off : Nat) :
    (s.coPoison core part r off).memWf := by
  simp only [State.coPoison]
  split
  · exact w
  · have touched := fun slot t off n => State.memWf_touchImage w core part slot t off n
    split <;> simp [touched]

/-- Before the last item of a COLL its sources are sent; before another nothing happens. -/
theorem State.memWf_of_lastSend {s u : State} (w : s.memWf) {c : Prop} [Decidable c] {part : Nat} {r : BitVec 512}
    {at_ : CollAt} (h : (if c then s.coSend part r at_ else .ok s) = .ok u) : u.memWf := by
  split at h
  · exact State.coSend_wf w _ _ _ _ h
  · cases h; exact w

theorem nextWf_execCollectiveOperation {s : State} (w : s.memWf) (tn item : Nat) (far : CoFar) (heads : List CoHead) :
    NextWf (execCollectiveOperation tn item far heads s) := by
  simp only [execCollectiveOperation]
  split
  · exact w.next
  · split
    · exact w.next
    · split
      · split
        · exact w.next
        · split
          · exact (nextWf_next _).mpr ((State.memWf_engKeep_iff ..).mpr (State.coJoin_wf w _ _ _ _ _ ‹_›))
          · exact (nextWf_next _).mpr ((State.memWf_engKeep_iff ..).mpr w)
          · exact (nextWf_next _).mpr ((State.memWf_engStall_iff ..).mpr w)
          · exact w.next
      · split
        · exact (nextWf_next _).mpr ((State.memWf_engBegin_iff ..).mpr w)
        · split
          · split
            · have wu := State.memWf_of_lastSend w ‹_›
              refine (nextWf_next _).mpr (State.memWf_engItem ?_ (State.coWrite_wf ?_ _ _ _ _ _ _) (State.memWf_coPoison ?_ ..) ..)
              all_goals exact State.memWf_useSources wu ..
            · exact (nextWf_next _).mpr (State.memWf_ite w ((State.memWf_engStall_iff ..).mpr w))
            · exact w.next
          · exact w.next

end Sys2Proof.Machine
end

section
/-! SUPPORT. The canonical form of memory under barriers, gates, the array and its sequencer (Machine/Sync.lean to
Machine/Traps.lean). -/

namespace Sys2Proof.Machine

/-! ### Barriers -/

theorem nextWf_onBarrier {s : State} (w : s.memWf) (i : Instr) (b : BitVec 4) (a : BitVec 6) {k : State → Iss → State}
    (h : ∀ x, (k s x).memWf) : NextWf (onBarrier i b a s k) := by
  refine nextWf_onGroup w _ fun x => ?_
  dsimp only
  split
  · simpa using w
  · simp [w, h]

@[simp] theorem State.memWf_putGrid_iff (s : State) (part : Nat) (g : Grid) : (s.putGrid part g).memWf ↔ s.memWf := .rfl
@[simp] theorem State.memWf_dropL1_iff (s : State) (core : Nat) : (s.dropL1 core).memWf ↔ s.memWf := .rfl

theorem State.memWf_gridPhase {s : State} (w : s.memWf) (part : Nat) (g : Grid) : (s.gridPhase part g).memWf := by
  have back := State.memWf_foldl (f := fun s c => s.writeBackAll c) (fun _ _ h => State.memWf_writeBackAll h _)
    ((List.range (pClusters (s.partn part))).map fun i => pFirst (s.partn part) + i) w
  simp only [State.gridPhase, State.memWf_putGrid_iff]
  exact State.memWf_foldl (fun _ _ h => (State.memWf_dropL1_iff _ _).mpr h) _ back

theorem nextWf_execBarg {s : State} (w : s.memWf) (h : Hdr) (a : BitVec 6) : NextWf (execBarg h a s) := by
  refine nextWf_onGroup w _ fun x => ?_
  dsimp only
  split
  · exact w
  · split
    · simp [w, State.memWf_gridPhase]
    · split
      · simpa using w
      · simp [w, State.memWf_gridPhase]

/-! ### Gates -/

@[simp] theorem State.memWf_stallGrid_iff (s : State) (t : Team) : (s.stallGrid t).memWf ↔ s.memWf := by
  unfold State.stallGrid
  split <;> simp

theorem State.memWf_of_grantAt {s s' : State} (w : s.memWf) {n slot dev part right k : Nat}
    (h : s.grantAt n slot dev part right = .ok k s') : s'.memWf := by
  simp only [State.grantAt] at h
  split at h
  · cases h
  · split at h
    · cases h
    · split at h
      · cases h
      · split at h
        · cases h
        · split at h
          · split at h <;> cases h
          · split at h <;> cases h <;> exact w

theorem State.memWf_of_grant {s s' : State} (w : s.memWf) {part right k : Nat} {hd : DWord}
    (h : s.grant part hd right = .ok k s') : s'.memWf := by
  simp only [State.grant] at h
  split at h
  · cases h
  · split at h
    · cases h
    · exact State.memWf_of_grantAt w h

theorem nextWf_onGate {s : State} (w : s.memWf) (i : Instr) {k : State → Iss → Nat → State}
    (h : ∀ u x n, u.memWf → (k u x n).memWf) : NextWf (onGate i s k) := by
  refine nextWf_onGroup w _ fun x => State.memWf_ite (by simpa using w) ?_
  split
  · exact h _ _ _ w
  · exact w
  · dsimp only
    split
    · simpa using w
    · simpa using w
    · exact w
    · exact h _ _ _ (State.memWf_of_grant w ‹_›)

theorem nextWf_execGsig {s : State} (w : s.memWf) (h : Hdr) (a : BitVec 6) (v : GateArg) : NextWf (execGsig h a v s) := by
  refine nextWf_onGate w _ fun u x n wu => ?_
  dsimp only
  split <;> simpa using wu

theorem nextWf_execGwait {s : State} (w : s.memWf) (h : Hdr) (d a : BitVec 6) (v : GateArg) :
    NextWf (execGwait h d a v s) := by
  refine nextWf_onGroup w _ fun x => ?_
  dsimp only
  split
  · simpa using w
  · exact w
  · refine State.memWf_ite (by simpa using w) ?_
    split
    · refine State.memWf_ite w ?_
      split <;> simpa using w
    · split
      · simpa using w
      · simpa using w
      · exact w
      · have granted := State.memWf_of_grant w ‹_›
        refine State.memWf_ite w ?_
        split <;> simpa using granted

@[simp] theorem State.memWf_noteStalls_iff (s : State) : s.noteStalls.memWf ↔ s.memWf := by
  refine State.memWf_foldl_iff (fun u e => ?_) _ s
  split
  · simp
  · rfl

theorem nextWf_execGateGrant {s : State} (w : s.memWf) (q : GateAsk) : NextWf (execGateGrant q s) := by
  simp only [execGateGrant]
  split
  · exact w.next
  · refine nextWf_ite w.next ?_
    split
    · split
      · exact w.next
      · refine nextWf_ite w.next ?_
        split
        · simpa using w
        · simpa using w
        · simpa using State.memWf_of_grant w ‹_›
        · refine nextWf_ite w.next ?_
          split <;> simpa using w
    · exact w.next

@[simp] theorem State.memWf_answerWaiters_iff (s : State) (n : Nat) : (s.answerWaiters n).memWf ↔ s.memWf := by
  refine (State.memWf_foldl_iff (fun u x => ?_) _ _).trans (State.memWf_setGate_iff ..)
  split
  · split
    · rfl
    · split <;> simp
  · rfl

@[simp] theorem State.memWf_signal_iff (s : State) (n : Nat) (add : DWord) : (s.signal n add).memWf ↔ s.memWf := by
  simp [State.signal]

@[simp] theorem State.memWf_gateDone_iff (s : State) (r : GRef) (op : Nat) : (s.gateDone r op).memWf ↔ s.memWf := by
  unfold State.gateDone
  split
  · rfl
  · split <;> simp

theorem nextWf_execGatePoint {s : State} (w : s.memWf) (r : GRef) (q : GateAt) : NextWf (execGatePoint r q s) := by
  unfold execGatePoint
  extract_lets op far
  split
  · exact w.next
  · split
    · split
      · split <;> simpa using w
      · exact w.next
    · split
      · exact w.next
      · extract_lets sig s1
        have w1 : s1.memWf := State.memWf_ite (State.memWf_flushWide w _) w
        clear_value sig s1
        refine nextWf_ite w.next ?_
        split
        · exact nextWf_ite (by simpa using w1) w.next
        · refine nextWf_ite w.next ?_
          split <;> simpa using w1

@[simp] theorem State.memWf_refillGates_iff (s : State) : s.refillGates.memWf ↔ s.memWf := .rfl

theorem State.memWf_of_farGate {s s' : State} (w : s.memWf) {dev part n right : Nat} {op : PeerOp} {a : List DWord}
    (h : s.farGate dev part n right op = some (a, s')) : s'.memWf := by
  simp only [State.farGate] at h
  split at h
  · cases h; exact w
  · cases h
  · cases h
  · have granted := State.memWf_of_grantAt w ‹_›
    split at h
    · cases h; simpa using granted
    · split at h <;> cases h <;> simpa using granted
    · cases h; exact granted

@[simp] theorem State.memWf_activate_iff (s : State) (n : Nat) (r : BitVec 512) : (s.activate n r).memWf ↔ s.memWf := by
  simp only [State.activate]
  split <;> rfl

theorem State.memWf_releaseHeld (n : Nat) : ∀ (l : List HeldSig) {s : State} (_ : s.memWf), (s.releaseHeld n l).memWf
  | [], _, w => w
  | h :: r, s, w => by
    simp only [State.releaseHeld]
    split
    · refine State.memWf_releaseHeld n r ?_
      rw [State.memWf_gateDone_iff, State.memWf_signal_iff]
      split
      · exact State.memWf_flushWide w _
      · exact w
    · exact State.memWf_releaseHeld n r ((State.memWf_signal_iff ..).mpr w)
    · exact State.memWf_releaseHeld n r w

theorem nextWf_execGateMigrate {s : State} (w : s.memWf) (n dev num : Nat) : NextWf (execGateMigrate n dev num s) := by
  simp only [execGateMigrate]
  split
  · simpa using w
  · split
    · simpa using w
    · split
      · split <;> simpa using w
      · split
        · simpa using w
        · refine (nextWf_next _).mpr (State.memWf_releaseHeld _ _ ?_)
          simp [w]

@[simp] theorem State.memWf_gateIn_iff (s : State) (from_ : Nat) (g : Gate) : (s.gateIn from_ g).memWf ↔ s.memWf := by
  unfold State.gateIn
  split
  · rfl
  · split <;> rfl

/-! ### The array -/

theorem State.memWf_writeImage {s : State} (w : s.memWf) (core part slot : Nat) (t : Table) (p : Nat) (a : Arr) :
    (s.writeImage core part slot t p a).memWf := by
  refine State.memWf_foldl (fun _ _ h => State.memWf_rowWrite h _ _ _ _ _ _) _ ?_
  exact (State.memWf_clearImage_iff ..).mpr (State.memWf_zeroImage _ _ _ _ _ w _ _)

@[simp] theorem Iss.memWf_accAccess_iff (x : Iss) (s : State) (kind : PKind) (wr : Bool) (n1 : BitVec 3) (d : BitVec 10)
    (a : BitVec 6) : (x.accAccess s kind wr n1 d a).memWf ↔ s.memWf := by simp [Iss.accAccess]

theorem nextWf_execMxstart {s : State} (w : s.memWf) (h : Hdr) (q : Option (BitVec 6)) (stream : Word) :
    NextWf (execMxstart h q stream s) := by
  refine nextWf_onGroup w _ fun x => State.memWf_ite (by simpa using w) ?_
  split <;> simp [w]

theorem nextWf_execMxstat {s : State} (w : s.memWf) (d : BitVec 6) : NextWf (execMxstat d s) := by
  refine nextWf_onGroup w _ fun x => ?_
  split <;> simp [w]

@[simp] theorem State.memWf_refreshL1_iff (s : State) (core : Nat) (spans : List (Nat × Nat)) (posts : List Post) :
    (s.refreshL1 core spans posts).memWf ↔ s.memWf := State.memWf_foldl_iff (fun _ _ => by simp) _ s

theorem Iss.memWf_arrImage (x : Iss) {s : State} (w : s.memWf) (core : Option (BitVec 3)) (a : BitVec 6) (wr : Bool)
    {k : State → Nat → Table → Nat → Nat → Arr → State} (h : ∀ u slot t p tn ar, u.memWf → (k u slot t p tn ar).memWf) :
    (x.arrImage s core a wr k).memWf := by
  have failed := fun o f => (Iss.memWf_failOp_iff x s o f).mpr w
  simp only [Iss.arrImage]
  refine State.memWf_ite (by simpa using w) (State.memWf_ite (failed _ _) ?_)
  split
  · exact failed _ _
  · refine State.memWf_ite (failed _ _) (State.memWf_ite (failed _ _) (State.memWf_ite (failed _ _) ?_))
    split
    · exact failed _ _
    · refine State.memWf_ite (failed _ _) ?_
      split
      · simpa using w
      · split
        · exact w
        · simpa using w
      · exact failed _ _
      · exact w
      · exact h _ _ _ _ _ _ (State.memWf_touchImage w _ _ _ _ _ _)

@[simp] theorem State.memWf_noteDrain_iff (s : State) (part tn slot p : Nat) :
    (s.noteDrain part tn slot p).memWf ↔ s.memWf := by
  unfold State.noteDrain
  split <;> simp

theorem nextWf_execMxdrain {s : State} (w : s.memWf) (h : Hdr) (core : Option (BitVec 3)) (a : BitVec 6) :
    NextWf (execMxdrain h core a s) := by
  refine nextWf_onGroup w _ fun x => x.memWf_arrImage w core a true fun u slot t p tn ar wu => ?_
  simp [State.memWf_writeImage, State.memWf_flushWide wu]

@[simp] theorem Iss.memWf_putArr_iff (x : Iss) (s : State) (tn : Nat) (a : Arr) : (x.putArr s tn a).1.memWf ↔ s.memWf := by
  unfold Iss.putArr
  split
  · rfl
  · split <;> simp

theorem nextWf_execMxrest {s : State} (w : s.memWf) (h : Hdr) (core : Option (BitVec 3)) (a : BitVec 6) :
    NextWf (execMxrest h core a s) := by
  refine nextWf_onGroup w _ fun x => x.memWf_arrImage w core a false fun u slot t p tn ar wu => ?_
  dsimp only
  refine State.memWf_ite (by simpa using wu) ?_
  split <;> simpa using wu

/-! ### The sequencer and traps -/

theorem nextWf_onSeq {s : State} (w : s.memWf) (two : Bool) {k : Nat → Team → Arr → State} (h : ∀ n t a, (k n t a).memWf) :
    NextWf (onSeq two s k) := by
  unfold onSeq
  split
  · simp
  · split
    · exact (nextWf_next _).mpr (h _ _ _)
    · exact w.next

@[simp] theorem State.memWf_wordDone_iff (s : State) (n : Nat) (t : Team) (a : Arr) (f : Word) :
    (s.wordDone n t a f).memWf ↔ s.memWf := .rfl
@[simp] theorem State.memWf_seqStop_iff (s : State) (n : Nat) (t : Team) (a : Arr) (tsub cause detail : Nat) (insn : Word) :
    (s.seqStop n t a tsub cause detail insn).memWf ↔ s.memWf := .rfl
@[simp] theorem State.memWf_seqIllegal_iff (s : State) (n : Nat) (t : Team) (a : Arr) (sub : Nat) :
    (s.seqIllegal n t a sub).memWf ↔ s.memWf := .rfl

theorem nextWf_onScratch {s : State} (w : s.memWf) (q : BitVec 3) (pi : Bool) (k : Word) (reads : Bool)
    {f : Nat → Team → Arr → Nat → State} (h : ∀ n t a ad, (f n t a ad).memWf) : NextWf (onScratch q pi k reads s f) :=
  nextWf_onSeq w _ fun _ _ _ => by simp [w, h]

theorem State.memWf_useTile {s : State} (w : s.memWf) (t : Team) (spc : Nat) : (s.useTile t spc).memWf := by
  simp only [State.useTile]
  split
  · exact w
  · exact State.memWf_ite w (State.memWf_useFetch w _ _ _ _ _)

theorem nextWf_execTileWordFetchMiss {s : State} (w : s.memWf) (n : Nat) : NextWf (execTileWordFetchMiss n s) := by
  simp only [execTileWordFetchMiss]
  split
  · simpa using w
  · split
    · simpa using w
    · split
      · simpa using w
      · split <;> simpa using w

theorem nextWf_execStopDelivery {s : State} (w : s.memWf) (n : Nat) : NextWf (execStopDelivery n s) := by
  simp only [execStopDelivery]
  split
  · simpa using w
  · split
    · simpa using w
    · split
      · simpa using w
      · split
        · simpa using w
        · split
          · simpa using w
          · split
            · simpa using w
            · split
              · simpa using w
              · rw [nextWf_next]
                split <;> simpa using w

theorem nextWf_execTret {s : State} (w : s.memWf) (h : Hdr) (form : TretForm) : NextWf (execTret h form s) := by
  refine nextWf_onGroup w _ fun x => ?_
  dsimp only
  split <;> simp [w]

end Sys2Proof.Machine
end

section
/-! SUPPORT. The canonical form of memory under the spooler and pre-emption (Machine/Spooler.lean, Machine/Preempt.lean). -/

namespace Sys2Proof.Machine

/-! ### Spool registers -/

@[simp] theorem State.memWf_writeSpcfg_iff (s : State) (part n : Nat) (v : DWord) :
    (s.writeSpcfg part n v).memWf ↔ s.memWf := by
  simp only [State.writeSpcfg]
  split
  · split <;> rfl
  · split
    · split <;> rfl
    · rfl

@[simp] theorem State.memWf_writeCqcfg_iff (s : State) (part n : Nat) (v : DWord) :
    (s.writeCqcfg part n v).memWf ↔ s.memWf := .rfl

theorem nextWf_execSpoolEnable {s : State} (w : s.memWf) (part spool : Nat) (v : DWord) :
    NextWf (execSpoolEnable part spool v s) := by simp [execSpoolEnable, w]

theorem nextWf_execSpoolDisable {s : State} (w : s.memWf) (part spool : Nat) : NextWf (execSpoolDisable part spool s) := by
  simp [execSpoolDisable, w]

theorem nextWf_execSptailWrite {s : State} (w : s.memWf) (part spool : Nat) (v : Word) :
    NextWf (execSptailWrite part spool v s) := by simp [execSptailWrite, w]

theorem nextWf_execCqcfgEnable {s : State} (w : s.memWf) (part spool : Nat) (v : DWord) :
    NextWf (execCqcfgEnable part spool v s) := by simp [execCqcfgEnable, w]

theorem nextWf_execSupackWrite {s : State} (w : s.memWf) (part : Nat) (v : Word) : NextWf (execSupackWrite part v s) := by
  simp [execSupackWrite, w]

/-! ### Records -/

theorem State.memWf_take {s : State} (w : s.memWf) (part n : Nat) (t : Table) (r : BitVec 256) :
    (s.take part n t r).memWf := by
  simp only [State.take]
  split <;> simp [State.memWf_rowWrite w]

theorem State.memWf_takeIf {s : State} (w : s.memWf) (part n : Nat) (ok : BitVec 256 → Bool) :
    (s.takeIf part n ok).memWf := by
  simp only [State.takeIf]
  split
  · exact w
  · split
    · exact State.memWf_of_hubWait2 w ‹_›
    · have touched := fun slot t off n => State.memWf_touchImage w none part slot t off n
      exact State.memWf_ite (State.memWf_take (touched ..) ..) (touched ..)

theorem nextWf_execTakeRecord {s : State} (w : s.memWf) (part spool : Nat) : NextWf (execTakeRecord part spool s) :=
  nextWf_ite w.next (State.memWf_takeIf w _ _ _).next

theorem nextWf_execEarlyDependentLaunch {s : State} (w : s.memWf) (part spool : Nat) :
    NextWf (execEarlyDependentLaunch part spool s) := by
  simp only [execEarlyDependentLaunch]
  split
  · exact w.next
  · exact nextWf_ite w.next (State.memWf_takeIf w _ _ _).next

/-! ### Commands -/

theorem State.memWf_of_targetWait {s s' : State} (w : s.memWf) {c : Prop} [Decidable c] {tie : ErrTie} {slot : Nat}
    {t : Table} {off n : Nat} (h : (if c then s.hubWait2 tie slot t off n else s.hubWait tie slot t off n false) = some s') :
    s'.memWf := by
  split at h
  · exact State.memWf_of_hubWait2 w h
  · exact State.memWf_of_hubWait w h

theorem State.memWf_onTarget {s : State} (w : s.memWf) (part : Nat) (g : Grid) (wr : Bool)
    {f : State → Nat → Table → Nat → Nat → State} (h : ∀ u slot t off k, u.memWf → (f u slot t off k).memWf) :
    (s.onTarget part g wr f).memWf := by
  unfold State.onTarget
  split
  · exact w
  · split
    · exact State.memWf_of_targetWait w ‹_›
    · split
      · exact h _ _ _ _ _ (State.memWf_touchImage w _ _ _ _ _ _)
      · exact w

theorem nextWf_execWaitOnValue {s : State} (w : s.memWf) (part spool : Nat) : NextWf (execWaitOnValue part spool s) := by
  unfold execWaitOnValue
  split
  · exact w.next
  · refine (State.memWf_onTarget w _ _ _ fun u _ _ _ _ wu => ?_).next
    exact State.memWf_ite ((State.memWf_putGrid_iff ..).mpr wu) wu

theorem nextWf_execSignalValue {s : State} (w : s.memWf) (part spool : Nat) : NextWf (execSignalValue part spool s) := by
  unfold execSignalValue
  split
  · exact w.next
  · refine nextWf_ite w.next (State.memWf_onTarget w _ _ _ fun u _ _ _ _ wu => ?_).next
    exact (State.memWf_putGrid_iff ..).mpr (State.memWf_rowWrite (State.memWf_recall wu _) _ _ _ _ _ _)

@[simp] theorem State.memWf_cmdKeep_iff (s : State) (part : Nat) (g : Grid) (op : EngOp) :
    (s.cmdKeep part g op).memWf ↔ s.memWf := by
  unfold State.cmdKeep
  split <;> rfl

@[simp] theorem State.memWf_cmdStall_iff (s : State) (part : Nat) (g : Grid) (op : EngOp) (va slot : Nat) :
    (s.cmdStall part g op va slot).memWf ↔ s.memWf := .rfl

theorem State.memWf_cmdBegin {s : State} (w : s.memWf) (part : Nat) (g : Grid) (op : EngOp) {f : Reach (State × EngOp)}
    (hf : f.All fun x => x.1.memWf) : (s.cmdBegin part g op f).memWf := by
  unfold State.cmdBegin
  refine State.memWf_ite w ?_
  split
  · simpa using hf
  · simpa using w
  · simpa using w
  · exact w

theorem State.memWf_cmdItem {s zero : State} {f : Reach State} (w : s.memWf) (hf : f.All State.memWf) (hz : zero.memWf)
    (part : Nat) (g : Grid) (op : EngOp) (i : Nat) (fail : Bool) (addr : DWord) (slot : Nat) :
    (s.cmdItem part g op i fail addr slot f zero).memWf := by
  unfold State.cmdItem
  refine State.memWf_ite w ?_
  split
  · simpa using hf
  · simpa using hz
  · exact State.memWf_ite (by simpa using hz) (by simpa using w)
  · exact w

theorem State.memWf_useCopy {s : State} (w : s.memWf) (part : Nat) (g : Grid) : (s.useCopy part g).memWf := by
  simp only [State.useCopy]
  split
  · exact State.memWf_useLayout (State.memWf_useLayout (State.memWf_useBlock w _ _ _) _ _ _ _) _ _ _ _
  · exact w

/-- The state of a write that its unit can reach, else the state before it. -/
theorem Reach.memWf_getD {f : Reach State} {s : State} (w : s.memWf) (hf : f.All State.memWf) :
    (match f with | .ok u => u | _ => s).memWf := by
  split
  · exact hf _ rfl
  · exact w

theorem State.memWf_copyItem {s : State} (w : s.memWf) (part : Nat) (g : Grid) (op : EngOp) (i : Nat) (fail : Bool) :
    (s.copyItem part g op i fail).memWf := by
  unfold State.copyItem
  extract_lets +onlyGivenNames sl dl
  split
  · extract_lets +onlyGivenNames sk dk zeros touch u put src done
    have wtouch : ∀ (u : State) slot t l k, u.memWf → (touch u slot t l k).memWf := fun u slot t l k wu => by
      dsimp only [touch]
      split
      · exact State.memWf_touchRow wu _ _ _ _ _
      · exact wu
    have wu : u.memWf := wtouch _ _ _ _ _ (wtouch _ _ _ _ _ w)
    have wput : ∀ bs, (put bs).All State.memWf := fun bs => by
      dsimp only [put]
      split
      · exact (Reach.all_ok _ _).mpr wu
      · exact State.writeRuns_wf wu _ _ _ _ _ _ _ _
    have wdone : done.All State.memWf := by
      dsimp only [done]
      split
      · simp
      · simp
      · exact Reach.all_bind _ wput
    exact State.memWf_cmdItem wu wdone (Reach.memWf_getD wu (wput _)) _ _ _ _ _ _ _
  · exact w

theorem nextWf_execCopyCommand {s : State} (w : s.memWf) (part spool item : Nat) (fail : Bool) :
    NextWf (execCopyCommand part spool item fail s) := by
  unfold execCopyCommand
  split
  · exact w.next
  · refine nextWf_ite (State.memWf_cmdBegin w _ _ _ ?_).next (nextWf_ite (State.memWf_copyItem w _ _ _ _ _).next w.next)
    exact Reach.all_bind _ fun _ => (Reach.all_ok _ _).mpr (State.memWf_useCopy w _ _)

theorem nextWf_execCollectiveCommand {s : State} (w : s.memWf) (part spool item : Nat) (far : CoFar) (heads : List CoHead) :
    NextWf (execCollectiveCommand part spool item far heads s) := by
  unfold execCollectiveCommand
  split
  · exact w.next
  · extract_lets +onlyGivenNames op
    split
    · exact (State.memWf_cmdBegin w _ _ _ (State.coJoin_wf w _ _ _ _)).next
    · refine nextWf_ite (State.memWf_cmdBegin w _ _ _ (Reach.all_bind _ fun _ => (Reach.all_ok _ _).mpr w)).next ?_
      refine nextWf_ite ?_ w.next
      dsimp only
      split
      · have wu := State.memWf_of_lastSend w ‹_›
        refine (State.memWf_cmdItem ?_ (State.coWrite_wf ?_ _ _ _ _ _ _) (State.memWf_coPoison ?_ ..) ..).next
        all_goals exact State.memWf_useSources wu ..
      · exact (State.memWf_ite w ((State.memWf_cmdStall_iff ..).mpr w)).next
      · exact w.next

/-! ### Placing and starting teams -/

@[simp] theorem State.memWf_startGang_iff (s : State) (part : Nat) (g : Grid) (cores : List Nat) :
    (s.startGang part g cores).memWf ↔ s.memWf := by
  simp only [State.startGang, State.memWf_putGrid_iff, State.memWf_setCluster_iff, State.memWf_nextGang_iff]
  refine State.memWf_foldl_iff (fun u i => ?_) _ s
  split <;> rfl

@[simp] theorem State.memWf_placeGangs_iff (s : State) (part : Nat) (g : Grid) (gangs : List (List Nat)) :
    (s.placeGangs part g gangs).memWf ↔ s.memWf := by
  simp only [State.placeGangs, State.memWf_setPartn_iff]
  refine State.memWf_foldl_iff (fun u i => ?_) _ s
  split <;> simp

theorem nextWf_execPlaceGang {s : State} (w : s.memWf) (part spool pos cluster : Nat) :
    NextWf (execPlaceGang part spool pos cluster s) := by
  simp only [execPlaceGang]
  split
  · exact w.next
  · refine nextWf_ite w.next ?_
    split
    · exact nextWf_ite w.next (by simpa using w)
    · exact w.next

/-! ### The end of a team -/

theorem State.memWf_joinDec {s : State} (w : s.memWf) (part : Nat) (t : Team) : (s.joinDec part t).memWf := by
  simp only [State.joinDec]
  split
  · exact w
  · split
    · exact w
    · have written := fun slot tb off k bs => State.memWf_rowWrite (State.memWf_recallRange
        (State.memWf_touchImage w none part slot tb off 64) k 64) none part slot tb off bs
      simp [written]

theorem State.memWf_of_joinWait {s s' : State} (w : s.memWf) {t : Team} (h : s.joinWait t = some s') : s'.memWf := by
  simp only [State.joinWait] at h
  split at h
  · cases h
  · split at h
    · cases h
    · exact State.memWf_of_hubWait2 w h

theorem State.memWf_endTeam {s : State} (w : s.memWf) (n : Nat) (t : Team) : (s.endTeam n t).memWf := by
  have flushed : ((s.flushWide t.core).setTeam n none).memWf := State.memWf_flushWide w _
  have joined := State.memWf_ite (c := fbit t.record 155 = true) (State.memWf_joinDec flushed t.part t) flushed
  simp only [State.endTeam]
  split
  · exact joined
  · exact (State.memWf_putGrid_iff ..).mpr joined

theorem State.memWf_endTeamOr {s : State} (w : s.memWf) (n : Nat) (t : Team) : (s.endTeamOr n t).memWf := by
  unfold State.endTeamOr
  split
  · exact State.memWf_of_joinWait w ‹_›
  · exact State.memWf_endTeam w _ _

theorem nextWf_execTeamEnd {s : State} (w : s.memWf) (n : Nat) : NextWf (execTeamEnd n s) := by
  unfold execTeamEnd
  split
  · exact w.next
  · exact nextWf_ite (State.memWf_endTeamOr w _ _).next w.next

theorem nextWf_execContinuationPush {s : State} (w : s.memWf) (part index : Nat) :
    NextWf (execContinuationPush part index s) := by
  simp only [execContinuationPush]
  split
  · exact w.next
  · refine nextWf_ite w.next ?_
    split
    · exact w.next
    · exact (State.memWf_of_push_wait w ‹_›).next
    · exact (nextWf_next _).mpr ((State.memWf_setPartn_iff ..).mpr (State.memWf_of_push_done w ‹_›))

theorem nextWf_execCompletionRecord {s : State} (w : s.memWf) (part spool pos : Nat) :
    NextWf (execCompletionRecord part spool pos s) := by
  unfold execCompletionRecord
  extract_lets +onlyGivenNames p
  split
  · exact w.next
  · refine nextWf_ite w.next ?_
    extract_lets +onlyGivenNames sp slot off finish
    have finished : ∀ u : State, u.memWf → NextWf (.next (finish u)) := fun _ wu => State.memWf.next wu
    clear_value finish
    split
    · exact finished _ w
    · refine nextWf_ite (finished _ w) ?_
      split
      · exact (State.memWf_of_hubWait w ‹_›).next
      · exact finished _ (State.memWf_rowWrite (State.memWf_touchImage w ..) ..)

/-! ### Reports -/

theorem State.memWf_logError {s : State} (w : s.memWf) (h : BitVec 256) : (s.logError h).memWf := by
  have written := fun l key bs => State.memWf_wr (State.memWf_recall w l) key bs
  simp only [State.logError]
  exact State.memWf_ite w ((State.memWf_hub_iff ..).mpr (State.memWf_ite (written ..) w))

theorem nextWf_execPushReport {s : State} (w : s.memWf) (part : Nat) : NextWf (execPushReport part s) := by
  unfold execPushReport
  extract_lets +onlyGivenNames p
  split
  · exact w.next
  · extract_lets +onlyGivenNames stamp recs
    clear_value recs
    refine nextWf_ite ?_ ?_
    · split
      · exact w.next
      · exact (State.memWf_of_push_wait w ‹_›).next
      · exact (nextWf_next _).mpr ((State.memWf_setPartn_iff ..).mpr (State.memWf_of_push_done w ‹_›))
    · split
      · exact (State.memWf_logError ((State.memWf_setPartn_iff ..).mpr w) _).next
      · simpa using w

/-! ### Stopping teams -/

@[simp] theorem State.memWf_askGroups_iff (s : State) (n : Nat) (t : Team) : (s.askGroups n t).memWf ↔ s.memWf := by
  simp only [State.askGroups]
  exact State.memWf_foldl_iff (fun _ _ => by simp) _ _

@[simp] theorem State.memWf_askTeam_iff (s : State) (n : Nat) (t : Team) : (s.askTeam n t).memWf ↔ s.memWf := by
  unfold State.askTeam
  split <;> simp

theorem nextWf_execPreemptRequest {s : State} (w : s.memWf) (n : Nat) : NextWf (execPreemptRequest n s) := by
  unfold execPreemptRequest
  split
  · exact w.next
  · exact (nextWf_next _).mpr ((State.memWf_foldl_iff (fun _ _ => by simp) _ _).mpr w)

theorem nextWf_execFullSave {s : State} (w : s.memWf) (r : GRef) : NextWf (execFullSave r s) := by
  unfold execFullSave
  split
  · exact w.next
  · refine nextWf_ite w.next ?_
    split
    · simpa using w
    · exact nextWf_ite w.next (by simpa using w)

theorem State.memWf_endStopped {s : State} (w : s.memWf) (n : Nat) (t : Team) : (s.endStopped n t).memWf :=
  State.memWf_endTeamOr w n t

theorem nextWf_execTeamStop {s : State} (w : s.memWf) (n : Nat) : NextWf (execTeamStop n s) := by
  have ended := fun t => (State.memWf_endStopped w n t).next
  unfold execTeamStop
  split
  · exact w.next
  · refine nextWf_ite (ended _) (nextWf_ite w.next (nextWf_ite (ended _) ?_))
    split
    · simpa using w
    · exact nextWf_ite (by simpa using w) (ended _)

theorem nextWf_execHubArrayDrain {s : State} (w : s.memWf) (n : Nat) : NextWf (execHubArrayDrain n s) := by
  unfold execHubArrayDrain
  split
  · exact w.next
  · exact nextWf_ite (by simpa using w) w.next

/-! ### Resuming -/

theorem State.memWf_of_restoreStop {s s' : State} (w : s.memWf) {t : Team} (h : s.restoreStop t = some s') : s'.memWf := by
  simp only [State.restoreStop] at h
  split at h
  · split at h
    · cases h
    · split at h
      · cases h; exact w
      · split at h <;> cases h
        · simpa using w
        · simpa using w
        · exact w
  · cases h

theorem State.memWf_restoreUse {s : State} (w : s.memWf) (t : Team) : (s.restoreUse t).memWf := by
  unfold State.restoreUse
  split
  · split
    · exact State.memWf_touchImage w _ _ _ _ _ _
    · exact w
  · exact w

theorem State.memWf_resumeTeam {s : State} (w : s.memWf) (n : Nat) (t : Team) : (s.resumeTeam n t).memWf := by
  have used := State.memWf_restoreUse w t
  simp only [State.resumeTeam]
  split
  · simpa using used
  · split
    · simpa using used
    · split <;> simpa using used

theorem nextWf_execTeamResume {s : State} (w : s.memWf) (n : Nat) : NextWf (execTeamResume n s) := by
  unfold execTeamResume
  split
  · exact w.next
  · refine nextWf_ite w.next ?_
    split
    · obtain ⟨e, _, he⟩ := List.exists_of_findSome?_eq_some ‹_›
      exact (State.memWf_of_restoreStop w he).next
    · exact (State.memWf_foldl (fun _ _ h => State.memWf_resumeTeam h _ _) _ w).next

/-! ### Ending teams and grids from outside -/

theorem nextWf_execEndHaltedTeam {s : State} (w : s.memWf) (n : Nat) : NextWf (execEndHaltedTeam n s) := by
  have ended := fun t => (State.memWf_endStopped w n t).next
  unfold execEndHaltedTeam
  split
  · exact w.next
  · refine nextWf_ite w.next (nextWf_ite (nextWf_ite (ended _) ?_) (ended _))
    simpa using w

@[simp] theorem State.memWf_abort_iff (s : State) (part spool pos : Nat) : (s.abort part spool pos).memWf ↔ s.memWf := by
  unfold State.abort
  split
  · rfl
  · split
    · rfl
    · refine (State.memWf_foldl_iff (fun u e => ?_) _ _).trans .rfl
      dsimp only
      split <;> simp

theorem nextWf_execGridAbort {s : State} (w : s.memWf) (part spool pos : Nat) : NextWf (execGridAbort part spool pos s) := by
  simpa [execGridAbort] using w

theorem nextWf_execCommunicatorAbort {s : State} (w : s.memWf) (part comm : Nat) :
    NextWf (execCommunicatorAbort part comm s) := by
  refine (nextWf_next _).mpr ((State.memWf_foldl_iff (fun u g => ?_) _ _).mpr
    ((State.memWf_foldl_iff (fun u e => ?_) _ _).mpr (by simpa using w)))
  · split
    · split <;> simp
    · rfl
  · split
    · rfl
    · split
      · rfl
      · split <;> simp

/-! ### Slices and PCFG -/

theorem State.memWf_sliceStart {s : State} (w : s.memWf) (part : Nat) : (s.sliceStart part).memWf :=
  State.memWf_foldl (fun _ _ h => State.memWf_clearCluster h _) _ w

theorem nextWf_execSliceEnd {s : State} (w : s.memWf) (part : Nat) : NextWf (execSliceEnd part s) := by
  refine nextWf_ite w.next (nextWf_ite ?_ ?_)
  · exact (State.memWf_sliceStart ((State.memWf_setPartn_iff ..).mpr w) _).next
  · exact (nextWf_next _).mpr ((State.memWf_foldl_iff (fun _ _ => by simp) _ _).mpr w)

@[simp] theorem State.memWf_setPerr_iff (s : State) (bit : Nat) : (s.setPerr bit).memWf ↔ s.memWf := .rfl

theorem State.memWf_firstSlice {s : State} (w : s.memWf) (part : Nat) : (s.firstSlice part).memWf :=
  State.memWf_ite ((State.memWf_setPartn_iff ..).mpr w) (State.memWf_ite w (State.memWf_sliceStart w _))

theorem State.memWf_disable {s : State} (w : s.memWf) (part : Nat) : (s.disable part).memWf := by
  unfold State.disable
  extract_lets +onlyGivenNames u p spools v
  have wv : v.memWf := (State.memWf_foldl_iff (fun _ _ => by simp) _ s).mpr w
  split
  · extract_lets +onlyGivenNames q x
    exact State.memWf_ite (State.memWf_sliceStart (s := x) wv _) wv
  · exact wv

theorem State.memWf_writePcfg {s : State} (w : s.memWf) (part : Nat) (v : DWord) : (s.writePcfg part v).memWf := by
  have set : ∀ p, (s.setPartn part p).memWf := fun _ => w
  unfold State.writePcfg
  extract_lets +onlyGivenNames p
  refine State.memWf_ite w (State.memWf_ite (State.memWf_ite (State.memWf_disable w _) ?_) (State.memWf_ite ?_ (set _)))
  · exact State.memWf_ite ((State.memWf_setPerr_iff ..).mpr w) (set _)
  · refine State.memWf_ite (set _) (State.memWf_ite ((State.memWf_setPerr_iff ..).mpr (set _)) ?_)
    exact State.memWf_firstSlice (set _) _

theorem nextWf_execPartitionEnable {s : State} (w : s.memWf) (part : Nat) (v : DWord) :
    NextWf (execPartitionEnable part v s) := (State.memWf_writePcfg w _ _).next

theorem nextWf_execPartitionDisable {s : State} (w : s.memWf) (part : Nat) : NextWf (execPartitionDisable part s) :=
  nextWf_ite (State.memWf_writePcfg w _ _).next w.next

/-! ### Throttling, the clock and the watchdog -/

theorem nextWf_execThermalThrottle {s : State} (w : s.memWf) (cluster num den : Nat) :
    NextWf (execThermalThrottle cluster num den s) := nextWf_ite w.next (by simpa using w)
theorem nextWf_execThermalThrottleEnd {s : State} (w : s.memWf) (cluster : Nat) :
    NextWf (execThermalThrottleEnd cluster s) := by simpa [execThermalThrottleEnd] using w
theorem nextWf_execPowerCapThrottle {s : State} (w : s.memWf) (num den : Nat) : NextWf (execPowerCapThrottle num den s) := by
  simpa [execPowerCapThrottle] using w
theorem nextWf_execPowerCapThrottleEnd {s : State} (w : s.memWf) : NextWf (execPowerCapThrottleEnd s) := by
  simpa [execPowerCapThrottleEnd] using w
theorem nextWf_execThrdebtWrite {s : State} (w : s.memWf) (part : Nat) (v : DWord) : NextWf (execThrdebtWrite part v s) :=
  nextWf_ite (by simpa using w) w.next

@[simp] theorem State.memWf_accrue_iff (s : State) (part : Nat) : (s.accrue part).memWf ↔ s.memWf := by
  simp only [State.accrue]
  split <;> simp

@[simp] theorem State.memWf_microsecond_iff (s : State) (turns : List Nat) (far : List GRef) :
    (s.microsecond turns far).memWf ↔ s.memWf := by
  refine (State.memWf_refillGates_iff _).trans (State.memWf_foldl_iff (fun u n => ?_) _ s)
  dsimp only
  split <;> simp

@[simp] theorem State.memWf_tick_iff (s : State) (ns : Nat) (turns : List Nat) (far : List GRef) :
    (s.tick ns turns far).memWf ↔ s.memWf :=
  (State.memWf_foldl_iff (fun _ _ => by simp) _ _).trans .rfl

theorem nextWf_execGateTokenRefill {s : State} (w : s.memWf) : NextWf (execGateTokenRefill s) := by
  simpa [execGateTokenRefill] using w

theorem nextWf_execHangWatchdogExpiry {s : State} (w : s.memWf) (part spool pos : Nat) :
    NextWf (execHangWatchdogExpiry part spool pos s) := by
  simp only [execHangWatchdogExpiry]
  split
  · exact w.next
  · exact nextWf_ite w.next (by simpa using w)

/-! ### Moving a partition between parts -/

@[simp] theorem State.memWf_partIn_iff (s : State) (part : Nat) (q : Partition) (ts : List Team) (bad : List Nat) :
    (s.partIn part q ts bad).memWf ↔ s.memWf := by
  unfold State.partIn
  extract_lets +onlyGivenNames p
  split
  · rfl
  · extract_lets +onlyGivenNames u v x
    have hv : v.memWf ↔ s.memWf := State.memWf_foldl_iff (fun _ _ => by simp) _ u
    have hx : x.memWf ↔ v.memWf := by
      refine State.memWf_foldl_iff ?_ ts v
      exact fun _ _ => .rfl
    exact hx.trans hv

@[simp] theorem State.memWf_partOut_iff (s : State) (part : Nat) : (s.partOut part).memWf ↔ s.memWf := by
  simp only [State.partOut]
  split
  · rfl
  · exact State.memWf_foldl_iff (f := fun (s : State) (t : Nat × Team) => s.setTeam t.1 none) (fun _ _ => .rfl) _ s

end Sys2Proof.Machine
end

section
/-! SUPPORT. The canonical form of memory under the registers, the translation queue, tiers, apertures, resets, errors and
BAR0 (Machine/System.lean, Machine/Hub.lean, Machine/Bar.lean). -/

namespace Sys2Proof.Machine

/-! ### Registers and tables -/

@[simp] theorem State.memWf_writeWindow_iff (s : State) (part i : Nat) (e : BitVec 256) :
    (s.writeWindow part i e).memWf ↔ s.memWf := by
  simp only [State.writeWindow]
  split
  · rfl
  · split
    · split <;> rfl
    · split
      · split <;> rfl
      · rfl

@[simp] theorem State.memWf_writePartReg_iff (s : State) (part : Nat) (f : Partition → Partition) :
    (s.writePartReg part f).memWf ↔ s.memWf := by
  unfold State.writePartReg
  split <;> rfl

@[simp] theorem State.memWf_writeHubReg_iff (s : State) (f : Hub → Hub) : (s.writeHubReg f).memWf ↔ s.memWf := by
  unfold State.writeHubReg
  split <;> rfl

theorem State.memWf_writeReg {s : State} (w : s.memWf) (r : RegName) (v : DWord) : (s.writeReg r v).memWf := by
  cases r
  case pcfg => exact State.memWf_writePcfg w _ _
  all_goals simp [State.writeReg, w]

theorem nextWf_execRegisterWrite {s : State} (w : s.memWf) (r : RegName) (v : DWord) : NextWf (execRegisterWrite r v s) :=
  (State.memWf_writeReg w r v).next

theorem nextWf_execWindowEnable {s : State} (w : s.memWf) (part index : Nat) (v : BitVec 256) :
    NextWf (execWindowEnable part index v s) := by simpa [execWindowEnable] using w
theorem nextWf_execWindowDisable {s : State} (w : s.memWf) (part index : Nat) :
    NextWf (execWindowDisable part index s) := by simpa [execWindowDisable] using w
theorem nextWf_execTimectlWrite {s : State} (w : s.memWf) (part : Nat) (v : DWord) : NextWf (execTimectlWrite part v s) := by
  simpa [execTimectlWrite] using w
theorem nextWf_execSkcfgWrite {s : State} (w : s.memWf) (v : DWord) : NextWf (execSkcfgWrite v s) := by
  simpa [execSkcfgWrite] using w

theorem nextWf_execTableBind {s : State} (w : s.memWf) (part slot : Nat) (r : BitVec 1024) :
    NextWf (execTableBind part slot r s) := by
  refine nextWf_ite w.next ?_
  split
  · simpa using w
  · exact State.memWf.next (State.memWf_of_mem (s := s) rfl w)

theorem nextWf_execTableUnbind {s : State} (w : s.memWf) (part slot : Nat) : NextWf (execTableUnbind part slot s) := by
  unfold execTableUnbind
  extract_lets p busy q u gone
  have wg : gone.memWf := State.memWf_of_mem (s := s) rfl w
  clear_value gone
  refine nextWf_ite w.next (nextWf_ite (State.memWf_ite w wg).next (nextWf_ite ?_ (nextWf_ite ?_ ?_)))
  · simpa using w
  · simpa using w
  · exact (State.memWf_ite ((State.memWf_setPartn_iff ..).mpr w) wg).next

/-! ### The translation queue -/

@[simp] theorem State.memWf_keepTlb_iff (s : State) (p : Tlb → Bool) : (s.keepTlb p).memWf ↔ s.memWf := by
  unfold State.keepTlb
  extract_lets u v
  have hu : u.memWf ↔ s.memWf := State.memWf_foldl_iff (fun _ _ => by simp) _ s
  have hv : v.memWf ↔ u.memWf := State.memWf_foldl_iff (fun _ _ => by simp) _ u
  exact Iff.trans (Iff.rfl : _ ↔ v.memWf) (hv.trans hu)

theorem State.memWf_shoot {s : State} (w : s.memWf) (r : Span) (hint : Nat) : (s.shoot r hint).memWf :=
  (State.memWf_keepTlb_iff ..).mpr (State.memWf_foldl (fun _ _ h => State.memWf_dropCopies h _ _) _ (State.memWf_drain w r))

@[simp] theorem State.memWf_tqDone_iff (s : State) : s.tqDone.memWf ↔ s.memWf := .rfl
@[simp] theorem State.memWf_tqFail_iff (s : State) : s.tqFail.memWf ↔ s.memWf := .rfl

theorem State.memWf_onTq {s : State} (w : s.memWf) (op : Nat) {k : BitVec 256 → State} (h : ∀ e, (k e).memWf) :
    (s.onTq op k).memWf := by
  unfold State.onTq
  split
  · exact w
  · exact State.memWf_ite w (State.memWf_ite ((State.memWf_tqFail_iff s).mpr w) (State.memWf_ite (h _) w))

theorem State.memWf_inval {s : State} (w : s.memWf) (e : BitVec 256) {k : State → State}
    (h : ∀ u, u.memWf → (k u).memWf) : (s.inval e k).memWf := by
  have shot := State.memWf_shoot w (tqSpan e) (tqHint e)
  exact State.memWf_ite shot ((State.memWf_tqDone_iff _).mpr (h _ shot))

theorem nextWf_execInval {s : State} (w : s.memWf) : NextWf (execInval s) :=
  (State.memWf_onTq w _ fun _ => State.memWf_inval w _ fun _ h => h).next

@[simp] theorem State.memWf_resolve_iff (s : State) (r : Span) : (s.resolve r).memWf ↔ s.memWf := by
  simp only [State.resolve, State.memWf_waits_iff, State.memWf_setPartn_iff]
  refine State.memWf_foldl_iff (fun u e => ?_) _ s
  split
  · split <;> simp
  · rfl

theorem nextWf_execResume {s : State} (w : s.memWf) : NextWf (execResume s) :=
  (State.memWf_onTq w _ fun _ => State.memWf_inval w _ fun u h => (State.memWf_resolve_iff u _).mpr h).next

theorem State.memWf_discardTable {s : State} (w : s.memWf) (part slot : Nat) (t : Table) (r : Span) :
    (s.discardTable part slot t r).memWf :=
  State.memWf_ite w ((State.memWf_clearImage_iff ..).mpr (State.memWf_zeroImage _ _ _ _ _ w _ _))

theorem State.memWf_discard {s : State} (w : s.memWf) (r : Span) : (s.discard r).memWf := by
  refine State.memWf_foldl (fun u e hu => ?_) _ w
  split
  · exact State.memWf_ite (State.memWf_discardTable hu _ _ _ _) hu
  · exact hu

theorem nextWf_execDiscard {s : State} (w : s.memWf) : NextWf (execDiscard s) :=
  (State.memWf_onTq w _ fun _ => State.memWf_inval w _ fun _ h => State.memWf_discard h _).next

/-! ### Moving pages, and tiers -/

theorem State.memWf_beginMove {s : State} (w : s.memWf) (part va tier : Nat) (byTq : Bool) :
    (s.beginMove part va tier byTq).memWf := by
  unfold State.beginMove
  split
  · refine State.memWf_ite w ((State.memWf_pmoves_iff _ _).mpr (State.memWf_shoot (State.memWf_wrNat w _ _ _) _ _))
  · exact w

theorem nextWf_execMove {s : State} (w : s.memWf) : NextWf (execMove s) :=
  (State.memWf_onTq w _ fun _ => State.memWf_beginMove w _ _ _ _).next

@[simp] theorem State.memWf_countFree_iff (s : State) (tier units : Nat) : (s.countFree tier units).memWf ↔ s.memWf := by
  unfold State.countFree
  split <;> rfl

theorem State.memWf_pmovesHub_iff (s : State) (m : List (Nat × Option PageMove)) (h : Hub) :
    ({ s with pmoves := m, hub := h } : State).memWf ↔ s.memWf := .rfl

theorem nextWf_execPageMove {s : State} (w : s.memWf) (to_ : TierPlace) : NextWf (execPageMove to_ s) := by
  unfold execPageMove
  extract_lets tier dest
  split
  · exact w.next
  · refine nextWf_ite w.next ?_
    extract_lets u e e' units v x
    have wu : u.memWf := State.memWf_copyPage (State.memWf_drain w _) _ _ _
    clear_value u e'
    have wv : v.memWf := State.memWf_wrNat wu _ _ _
    clear_value v
    have wx : x.memWf := (State.memWf_pmovesHub_iff v _ _).mpr wv
    exact (State.memWf_ite ((State.memWf_tqDone_iff x).mpr wx) wx).next

theorem nextWf_execTierDemotion {s : State} (w : s.memWf) (tier part va : Nat) :
    NextWf (execTierDemotion tier part va s) := by
  unfold execTierDemotion
  extract_lets h free on s1
  have w1 : s1.memWf := State.memWf_ite w ((State.memWf_hub_iff s _).mpr w)
  clear_value s1
  refine nextWf_ite w.next (nextWf_ite (by simpa using w) (nextWf_ite w.next (nextWf_ite ?_ (nextWf_ite ?_ w1.next))))
  · exact (State.memWf_ite w (State.memWf_logError w1 _)).next
  · exact (State.memWf_beginMove w1 _ _ _ _).next

/-! ### Apertures and peers -/

theorem State.memWf_perPage (part : Nat) {f : State → Nat → Nat → Nat → State}
    (h : ∀ u va key k, u.memWf → (f u va key k).memWf) : ∀ (fuel : Nat) {s : State} (_ : s.memWf) (va n : Nat),
    (s.perPage part f fuel va n).memWf
  | 0, _, w, _, _ => w
  | fuel + 1, s, w, va, n => by
    have used : ((s.applyDrops part va).noteUse part va).memWf := State.memWf_applyDrops w part va
    simp only [State.perPage]
    refine State.memWf_ite w (State.memWf_perPage part h fuel ?_ _ _)
    split
    · exact h _ _ _ _ used
    · exact used

theorem State.memWf_touchVa {s : State} (w : s.memWf) (part va n : Nat) : (s.touchVa part va n).memWf :=
  State.memWf_perPage part (fun _ _ _ _ h => h) _ w _ _

theorem State.memWf_apertureWrite {s : State} (w : s.memWf) (part va : Nat) (bs : List Byte) :
    (s.apertureWrite part va bs).memWf :=
  State.memWf_perPage part (fun _ _ _ _ h => State.memWf_homeWrite (State.memWf_setD h _) _ _ _ _) _ w _ _

@[simp] theorem State.memWf_apertureMiss_iff (s : State) (part va : Nat) : (s.apertureMiss part va).memWf ↔ s.memWf := .rfl
@[simp] theorem State.memWf_answers_iff (s : State) (a : List DWord) : (s.answers a).memWf ↔ s.memWf := .rfl

theorem State.memWf_inbound {s : State} (w : s.memWf) (part va n : Nat) (wr : Bool) {refused go : State → State}
    (hr : ∀ u, u.memWf → (refused u).memWf) (hg : ∀ u, u.memWf → (go u).memWf) :
    (s.inbound part va n wr refused go).memWf := by
  unfold State.inbound
  split
  · exact w
  · exact hr _ ((State.memWf_apertureMiss_iff ..).mpr w)
  · exact hg _ (State.memWf_touchVa w _ _ _)

theorem State.memWf_inboundAtomic {s : State} (w : s.memWf) (part va : Nat) (op : AOp) (ty : ITy) (b c : DWord) :
    (s.inboundAtomic part va op ty b c).memWf := by
  have recalled := fun l => State.memWf_recall w l
  simp only [State.inboundAtomic]
  split
  · refine (State.memWf_answers_iff ..).mpr ?_
    split
    · exact State.memWf_apertureWrite (recalled _) _ _ _
    · exact recalled _
  · exact w

theorem nextWf_execInboundApertureRead {s : State} (w : s.memWf) (part off n : Nat) :
    NextWf (execInboundApertureRead part off n s) := by
  refine (State.memWf_ite (State.memWf_inbound w _ _ _ _ ?_ ?_) w).next
  · exact fun u wu => (State.memWf_answers_iff u _).mpr wu
  · exact fun u wu => (State.memWf_answers_iff u _).mpr wu

theorem nextWf_execInboundApertureWrite {s : State} (w : s.memWf) (part off : Nat) (bytes : List Byte) :
    NextWf (execInboundApertureWrite part off bytes s) :=
  (State.memWf_ite (State.memWf_inbound w _ _ _ _ (fun _ h => h) fun _ h => State.memWf_apertureWrite h _ _ _) w).next

theorem State.memWf_hostAtomic {s : State} (w : s.memWf) (part off : Nat) (op : AOp) (ty : ITy) (b c : DWord) :
    (s.hostAtomic part off op ty b c).memWf :=
  State.memWf_ite (State.memWf_inbound w _ _ _ _ (fun _ h => h) fun _ h => State.memWf_inboundAtomic h _ _ _ _ _ _) w

theorem State.memWf_peerGate {s : State} (w : s.memWf) (dev part n right : Nat) (op : PeerOp) :
    (s.peerGate dev part n right op).memWf := by
  simp only [State.peerGate]
  refine State.memWf_ite (State.memWf_ite ((State.memWf_answers_iff ..).mpr w) ?_) ((State.memWf_answers_iff ..).mpr w)
  split
  · exact (State.memWf_answers_iff ..).mpr (State.memWf_of_farGate w ‹_›)
  · exact w

theorem nextWf_execPeerRequest {s : State} (w : s.memWf) (part srcDev srcPart off : Nat) (op : PeerOp) :
    NextWf (execPeerRequest part srcDev srcPart off op s) := by
  have refused := fun a => (State.memWf_answers_iff s a).mpr w
  refine (State.memWf_ite w ?_).next
  dsimp only
  split
  · refine State.memWf_ite (refused _) (State.memWf_inbound w _ _ _ _ (fun _ h => h) fun _ h => State.memWf_ite h h)
  · refine State.memWf_ite (State.memWf_logError w _) (State.memWf_inbound w _ _ _ _ (fun _ h => h) fun _ h => ?_)
    exact State.memWf_ite h (State.memWf_apertureWrite h _ _ _)
  · refine State.memWf_ite (refused _) (State.memWf_inbound w _ _ _ _ (fun _ h => h) fun _ h => ?_)
    exact State.memWf_ite h (State.memWf_inboundAtomic h _ _ _ _ _ _)
  · exact State.memWf_peerGate w _ _ _ _ _
  · exact State.memWf_peerGate w _ _ _ _ _
  · exact State.memWf_peerGate w _ _ _ _ _

@[simp] theorem State.memWf_farPoison_iff (s : State) (key : Nat) : (s.farPoison key).memWf ↔ s.memWf := by
  unfold State.farPoison
  split <;> rfl

theorem nextWf_execSkeinPortDown {s : State} (w : s.memWf) (port : Nat) : NextWf (execSkeinPortDown port s) :=
  nextWf_ite (by simpa using w) w.next

theorem nextWf_execLinkLevelRetry {s : State} (w : s.memWf) (port : Nat) : NextWf (execLinkLevelRetry port s) := w.next

/-! ### Resets, firmware and power -/

theorem nextWf_execColdReset {s : State} (w : s.memWf) : NextWf (execColdReset s) := (State.memWf_clear w _).next
theorem nextWf_execWarmReset {s : State} (w : s.memWf) : NextWf (execWarmReset s) := (State.memWf_clear w _).next

theorem nextWf_execFunctionLevelReset {s : State} (w : s.memWf) (part : Nat) : NextWf (execFunctionLevelReset part s) := by
  refine nextWf_ite w.next (nextWf_ite (by simpa using w) ?_)
  exact (nextWf_next _).mpr ((State.memWf_foldl_iff (fun _ _ => by simp) _ _).mpr w)

theorem nextWf_execMailboxImageWrite {s : State} (w : s.memWf) (image : List Byte) :
    NextWf (execMailboxImageWrite image s) := nextWf_ite w.next (by simpa using w)

theorem nextWf_execAttestationRequest {s : State} (w : s.memWf) (part : Option Nat) (nonce : List Byte) :
    NextWf (execAttestationRequest part nonce s) := nextWf_ite w.next (by simpa using w)

theorem State.memWf_coresOff {s : State} (w : s.memWf) : s.coresOff.memWf := by
  have cleared := State.memWf_foldl (f := fun s (c : Nat × Core) => s.clearCore c.1) (fun _ _ h => State.memWf_clearCore h _)
    s.cores w
  exact State.memWf_foldl (fun _ _ h => State.memWf_foldl (fun _ _ h => State.memWf_writeBack h _ _ _) _ h) _ cleared

theorem nextWf_execStandbyEntry {s : State} (w : s.memWf) : NextWf (execStandbyEntry s) :=
  nextWf_ite w.next (nextWf_ite (by simpa using w) (by simpa using State.memWf_coresOff w))

theorem nextWf_execStandbyExit {s : State} (w : s.memWf) : NextWf (execStandbyExit s) :=
  nextWf_ite (by simpa using w) w.next

theorem nextWf_execClusterIdle {s : State} (w : s.memWf) (cluster : Nat) : NextWf (execClusterIdle cluster s) :=
  nextWf_ite w.next (by simpa using w)

/-! ### Errors -/

@[simp] theorem State.memWf_hwReport_iff (s : State) (type code src : Nat) (tie : ErrTie) (addr : Nat) :
    (s.hwReport type code src tie addr).memWf ↔ s.memWf := .rfl

@[simp] theorem State.memWf_retire_iff (s : State) (u : Unit334) (tie : ErrTie) : (s.retire u tie).memWf ↔ s.memWf := by
  simp only [State.retire, State.memWf_hwReport_iff]
  split
  · rfl
  · split <;> rfl

@[simp] theorem State.memWf_errorReport_iff (s : State) (u : Unit334) (code : Nat) (tie : ErrTie) (addr : Nat) :
    (s.errorReport u code tie addr).memWf ↔ s.memWf := by
  simp only [State.errorReport]
  split <;> simp

@[simp] theorem State.memWf_haltGroups_iff (s : State) (n : Nat) (hit : Nat → Bool) :
    (s.haltGroups n hit).memWf ↔ s.memWf := by
  unfold State.haltGroups
  split <;> rfl

theorem nextWf_execUncorrectableError {s : State} (w : s.memWf) (e : ErrWhere) (lasting : Bool) (tie : ErrTie) :
    NextWf (execUncorrectableError e lasting tie s) := by
  unfold execUncorrectableError
  extract_lets code
  split
  · exact nextWf_ite w.next (by simpa using w)
  · exact nextWf_ite w.next (by simpa using w)
  · split
    · exact w.next
    · split
      · simpa using w
      · exact w.next
  · split <;> simpa using w
  · split <;> simpa using w

theorem nextWf_execCorrectedError {s : State} (w : s.memWf) (e : ErrWhere) : NextWf (execCorrectedError e s) := w.next

theorem nextWf_execSelfTest {s : State} (w : s.memWf) (unit : Unit334) (lasting : Bool) (tie : ErrTie) :
    NextWf (execSelfTest unit lasting tie s) := (State.memWf_ite ((State.memWf_errorReport_iff ..).mpr w) w).next

theorem nextWf_execRemapRewrite {s : State} (w : s.memWf) (core : Nat) (entry : Option Nat) :
    NextWf (execRemapRewrite core entry s) := by
  unfold execRemapRewrite
  extract_lets +onlyGivenNames resident
  refine nextWf_ite w.next ?_
  extract_lets old u c v put
  have wput : ∀ e, NextWf (.next (put e)) := fun _ => State.memWf.next (State.memWf_clearCore w core)
  clear_value put
  split
  · exact nextWf_ite (wput _) w.next
  · exact nextWf_ite w.next (wput _)

/-! ### BAR0 -/

@[simp] theorem State.memWf_hostRead_iff (s : State) (fn off n : Nat) : (s.hostRead fn off n).memWf ↔ s.memWf := by
  unfold State.hostRead
  split <;> rfl

theorem nextWf_windowWrite {s : State} (w : s.memWf) (part off : Nat) (v : DWord) : NextWf (windowWrite part off v s) := by
  have reg := fun r => nextWf_execRegisterWrite w r v
  refine nextWf_ite (reg _) (nextWf_ite (reg _) (nextWf_ite (nextWf_execSupackWrite w _ _) (nextWf_ite ?_
    (nextWf_ite (reg _) w.next))))
  split
  · exact reg _
  · exact nextWf_execSptailWrite w _ _ _
  · exact reg _
  · exact w.next

theorem nextWf_partWrite {s : State} (w : s.memWf) (part off : Nat) (v : DWord) : NextWf (partWrite part off v s) := by
  have reg := fun r => nextWf_execRegisterWrite w r v
  unfold partWrite
  split
  case h_2 => exact nextWf_execThrdebtWrite w _ _
  case h_7 => exact nextWf_execTimectlWrite w _ _
  case h_10 => exact nextWf_ite (reg _) w.next
  all_goals exact reg _

theorem nextWf_powerWrite {s : State} (w : s.memWf) (v : DWord) : NextWf (powerWrite v s) :=
  nextWf_ite (nextWf_execWarmReset w) (nextWf_ite (nextWf_execStandbyEntry w) (nextWf_execStandbyExit w))

theorem nextWf_manageWrite {s : State} (w : s.memWf) (off : Nat) (v : DWord) : NextWf (manageWrite off v s) := by
  have reg := fun r => nextWf_execRegisterWrite w r v
  refine nextWf_ite (reg _) (nextWf_ite (nextWf_powerWrite w _) ?_)
  refine nextWf_ite (reg _) (nextWf_ite (reg _) (nextWf_ite (reg _) (nextWf_ite (nextWf_partWrite w _ _ _) ?_)))
  refine nextWf_ite (reg _) (nextWf_ite (reg _) (nextWf_ite (reg _) (nextWf_ite (reg _) (nextWf_ite (reg _) ?_))))
  exact nextWf_ite (nextWf_execSkcfgWrite w _) (reg _)

theorem nextWf_hostWrite {s : State} (w : s.memWf) (fn off : Nat) (v : DWord) : NextWf (hostWrite fn off v s) :=
  nextWf_ite w.next (nextWf_ite (nextWf_manageWrite w _ _) (nextWf_windowWrite w _ _ _))

end Sys2Proof.Machine
end

section
/-! SUPPORT. The canonical form of memory under the instructions of a group and the words of a sequencer. -/

namespace Sys2Proof.Machine

/-! ### Control, exceptions and special registers -/

theorem nextWf_execCall {s : State} (w : s.memWf) (h : Hdr) (c : Cond) (d : BitVec 6) (disp : Word) :
    NextWf (execCall h c d disp s) := nextWf_onGroup w _ fun _ => by simp [w]
theorem nextWf_execExit {s : State} (w : s.memWf) (h : Hdr) : NextWf (execExit h s) :=
  nextWf_onGroup w _ fun _ => by simp [w]
theorem nextWf_execIcinv {s : State} (w : s.memWf) (h : Hdr) (sc : Scope) (a b : BitVec 6) :
    NextWf (execIcinv h sc a b s) := nextWf_onGroup w _ fun _ => by simp [w]
theorem nextWf_execMtsr {s : State} (w : s.memWf) (len : Len) (sr : BitVec 6) (a : BitVec 10) :
    NextWf (execMtsr len sr a s) :=
  nextWf_onGroup w _ fun _ => State.memWf_ite ((Iss.memWf_failOn_iff ..).mpr w) ((Iss.memWf_finish_iff ..).mpr w)
theorem nextWf_execWait {s : State} (w : s.memWf) (len : Len) (ld st cp mx : BitVec 6) :
    NextWf (execWait len ld st cp mx s) := nextWf_onGroup w _ fun _ => by simp [w]
theorem nextWf_execWaitp {s : State} (w : s.memWf) (path : BitVec 3) (a : BitVec 6) : NextWf (execWaitp path a s) :=
  nextWf_onGroup w _ fun _ => by simp [w]

theorem Iss.memWf_trap_iff (x : Iss) (s : State) (cause : Nat) (code : Word) : (x.trap s cause code).memWf ↔ s.memWf := by
  simp [Iss.trap]

/-! ### Memory accesses -/

theorem nextWf_execDld {s : State} (w : s.memWf) (h : Hdr) (o : DnAcc) : NextWf (execDld h o s) := by
  refine nextWf_onGroup w _ fun x => ?_
  dsimp only
  split
  · simpa using w
  · exact Acc.memWf_launch _ w _

theorem nextWf_execDst {s : State} (w : s.memWf) (h : Hdr) (o : DnAcc) : NextWf (execDst h o s) := by
  refine nextWf_onGroup w _ fun x => ?_
  dsimp only
  split
  · simpa using w
  · exact Acc.memWf_launch _ w _

theorem nextWf_execFetch {s : State} (w : s.memWf) (h : Hdr) (o : Fetch) : NextWf (execFetch h o s) := by
  refine nextWf_onGroup w _ fun x => ?_
  dsimp only
  split
  · simpa using w
  · exact Acc.memWf_launch _ w _

theorem nextWf_execDatom {s : State} (w : s.memWf) (h : Hdr) (o : Atom) (tab key : BitVec 10) :
    NextWf (execDatom h o tab key s) := by
  refine nextWf_onGroup w _ fun x => ?_
  dsimp only
  split
  · simpa using w
  · exact Acc.memWf_launch _ w _

theorem nextWf_execTseek {s : State} (w : s.memWf) (h : Hdr) (o : TRange) : NextWf (execTseek h o s) := by
  refine nextWf_onGroup w _ fun x => ?_
  dsimp only
  split <;> simpa using w

theorem nextWf_execGath {s : State} (w : s.memWf) (h : Hdr) (kind : GathKind) (bar : Option (BitVec 4)) (d a b : BitVec 10)
    (off len : BitVec 16) : NextWf (execGath h kind bar d a b off len s) :=
  nextWf_onGroup w _ fun _ => State.memWf_ite ((State.memWf_illegal_iff ..).mpr w) ((Iss.memWf_engine_iff ..).mpr w)

/-! ### Barriers and gates -/

theorem nextWf_execBararr {s : State} (w : s.memWf) (h : Hdr) (b : BitVec 4) (a : BitVec 6) :
    NextWf (execBararr h b a s) := nextWf_onBarrier w _ _ _ fun _ => by simp [w]
theorem nextWf_execBarwait {s : State} (w : s.memWf) (h : Hdr) (b : BitVec 4) (a : BitVec 6) (phase : Bool) :
    NextWf (execBarwait h b a phase s) := nextWf_onBarrier w _ _ _ fun _ => by simp [w]
theorem nextWf_execGateActivate {s : State} (w : s.memWf) (n : Nat) (r : BitVec 512) : NextWf (execGateActivate n r s) :=
  nextWf_ite ((State.memWf_activate_iff ..).mpr w).next w.next
theorem nextWf_execGateFreeze {s : State} (w : s.memWf) (n : Nat) : NextWf (execGateFreeze n s) :=
  nextWf_ite (by simpa using w) w.next

/-! ### The sequencer -/

theorem nextWf_execTarb {s : State} (w : s.memWf) (b : BitVec 4) : NextWf (execTarb b s) :=
  nextWf_onSeq w _ fun _ _ _ => by simp [w]
theorem nextWf_execTwb {s : State} (w : s.memWf) (b : BitVec 4) (phase : Bool) : NextWf (execTwb b phase s) :=
  nextWf_onSeq w _ fun _ _ _ => by simp [w]
theorem nextWf_execTloop {s : State} (w : s.memWf) (c : BitVec 7) (k : Word) : NextWf (execTloop c k s) :=
  nextWf_onSeq w _ fun _ _ _ => by simp [w]
theorem nextWf_execTileWordFetchFault {s : State} (w : s.memWf) (e : FetchErr) : NextWf (execTileWordFetchFault e s) :=
  nextWf_onSeq w _ fun _ _ _ => by cases e <;> simp [w]

end Sys2Proof.Machine
end

section
/-! SUPPORT. Every instruction and every step keeps the canonical form of memory (Machine/Dispatch.lean,
Machine/Agents.lean). -/

namespace Sys2Proof.Machine

/-- Every arm of the dispatcher keeps the canonical form. -/
theorem nextWf_exec {s : State} (w : s.memWf) (i : Instr) : NextWf (exec i s) := by
  unfold exec
  cases i
  all_goals dsimp only
  -- register arithmetic and lane exchange touch no memory
  case iadd | iaddc | isub | imul | imulh | imad | imin | imax | iabs | and | or | xor | not | shl | shr | sar | bfe | bfi
      | popc | clz | brev | iset | sel | mov | mtx | mtxIdx | mtxAdd | fadd | fsub | fmul | ffma | fmin | fmax | fset
      | frcp | frsq | fsqrt | fexp2 | flog2 | fsin | fcos | ftanh | fsigm | pfadd | pfmul | pffma | cvt | pack | shfl
      | voteBallot | voteAny | voteAll | voteUni | redg | scang | rebal => exact nextWf_onLanesOp w _ _
  -- control
  case nop | mif | melse | mend | ltrig | mfsr => exact nextWf_onGroup w _ fun _ => (Iss.memWf_finish_iff ..).mpr w
  case bra | brx | ret => exact nextWf_onGroup w _ fun _ => (Iss.memWf_finishAt_iff ..).mpr w
  case prioPassImm | prioPassReg => exact nextWf_onGroup w _ fun _ => (Iss.memWf_passToken_iff ..).mpr w
  case trap | brk => exact nextWf_onGroup w _ fun _ => (Iss.memWf_trap_iff ..).mpr w
  case call => exact nextWf_execCall w _ _ _ _
  case rgn => exact nextWf_execRgn w _ _ _ _
  case exit => exact nextWf_execExit w _
  case spawn => exact nextWf_execSpawn w _ _ _ _
  case icinv => exact nextWf_execIcinv w _ _ _ _
  case icinvAcknowledge => exact nextWf_execIcinvAcknowledge w _ _
  case mtsr => exact nextWf_execMtsr w _ _ _
  case wait => exact nextWf_execWait w _ _ _ _ _
  case waitp => exact nextWf_execWaitp w _ _
  case tret => exact nextWf_execTret w _ _
  case serveParkSlots => exact (nextWf_next _).mpr ((State.memWf_serve_iff ..).mpr w)
  case unassignedEncoding => exact nextWf_execUnassignedEncoding w _ _
  case codeFetchFault => exact nextWf_execCodeFetchFault w _
  -- memory accesses
  case lds | sts | atoms | tnext | tkey => exact nextWf_onGroup w _ fun _ => (Acc.memWf_launchSp_iff ..).mpr w
  case tld | tst | tatom => exact nextWf_onGroup w _ fun _ => Acc.memWf_launch _ w _
  case dld => exact nextWf_execDld w _ _
  case dst => exact nextWf_execDst w _ _
  case fetch => exact nextWf_execFetch w _ _
  case datom => exact nextWf_execDatom w _ _ _ _
  case tlk | tins | tups | tdel => exact nextWf_execPoint w _ _ _ _ _ _
  case tcnt | tdrop => exact nextWf_execRange w _ _ _ _ _ _
  case tseek => exact nextWf_execTseek w _ _
  case tableOrderPoint => exact nextWf_execTableOrderPoint w _ _ _ _
  case loadComplete => exact nextWf_execLoadComplete w _ _ _ _
  case storePerform => exact nextWf_execStorePerform w _ _ _
  case moveHome => exact nextWf_execMoveHome w _ _
  case l1Drop => exact (nextWf_next _).mpr ((State.memWf_setL1_iff ..).mpr w)
  case clusterWriteBack => exact nextWf_execClusterWriteBack w _ _ _
  case clusterAtomicEngineBatch => exact nextWf_execClusterAtomicEngineBatch w _ _
  case homeSliceAtomic => exact nextWf_execHomeSliceAtomic w _ _
  case atomicopCompletion => exact nextWf_execAtomicopCompletion w _ _ _ _ _
  case completionTimeout => exact nextWf_execCompletionTimeout w _ _ _
  -- engines
  case cpy | nmc | coll | cpyqf => exact nextWf_onGroup w _ fun _ => (Iss.memWf_engine_iff ..).mpr w
  case gath => exact nextWf_execGath w _ _ _ _ _ _ _ _
  case copyEngineOperation => exact nextWf_execCopyEngineOperation w _ _ _
  case gatherEngineOperation => exact nextWf_execGatherEngineOperation w _ _ _
  case nearMemoryCommandApply => exact nextWf_execNearMemoryCommandApply w _ _
  case collectiveOperation => exact nextWf_execCollectiveOperation w _ _ _ _
  -- the array and its sequencer
  case mxstart => exact nextWf_execMxstart w _ _ _
  case mxstat => exact nextWf_execMxstat w _
  case mxrd | mxwr => exact nextWf_onGroup w _ fun _ => (Iss.memWf_accAccess_iff ..).mpr w
  case mxdrain => exact nextWf_execMxdrain w _ _ _
  case mxrest => exact nextWf_execMxrest w _ _ _
  case tnop | tsetq | tzero => exact nextWf_onSeq w _ fun _ _ _ => (State.memWf_wordDone_iff ..).mpr w
  case tend => exact nextWf_onSeq w _ fun _ _ _ => (State.memWf_setTeam_iff ..).mpr w
  case tlw | tmm | tlda | tsto => exact nextWf_onScratch w _ _ _ _ fun _ _ _ _ => (State.memWf_wordDone_iff ..).mpr w
  case tarb => exact nextWf_execTarb w _
  case twb => exact nextWf_execTwb w _ _
  case tloop => exact nextWf_execTloop w _ _
  case unassignedTileWord => exact nextWf_onSeq w _ fun _ _ _ => (State.memWf_seqIllegal_iff ..).mpr w
  case tileWordFetchFault => exact nextWf_execTileWordFetchFault w _
  case tileWordFetchMiss => exact nextWf_execTileWordFetchMiss w _
  case stopDelivery => exact nextWf_execStopDelivery w _
  -- barriers and gates
  case barinit | bartest => exact nextWf_onBarrier w _ _ _ fun _ => (Iss.memWf_finish_iff ..).mpr w
  case bararr => exact nextWf_execBararr w _ _ _
  case barwait => exact nextWf_execBarwait w _ _ _ _
  case barg => exact nextWf_execBarg w _ _
  case grd | gtry => exact nextWf_onGate w _ fun _ _ _ wu => (Iss.memWf_finish_iff ..).mpr wu
  case gsig => exact nextWf_execGsig w _ _ _
  case gwait => exact nextWf_execGwait w _ _ _ _
  case gateGrant => exact nextWf_execGateGrant w _
  case gatePoint => exact nextWf_execGatePoint w _ _
  case gateTokenRefill => exact nextWf_execGateTokenRefill w
  case gateActivate => exact nextWf_execGateActivate w _ _
  case gateFreeze => exact nextWf_execGateFreeze w _
  case gateMigrate => exact nextWf_execGateMigrate w _ _ _
  -- the spooler
  case takeRecord => exact nextWf_execTakeRecord w _ _
  case waitOnValue => exact nextWf_execWaitOnValue w _ _
  case signalValue => exact nextWf_execSignalValue w _ _
  case copyCommand => exact nextWf_execCopyCommand w _ _ _ _
  case collectiveCommand => exact nextWf_execCollectiveCommand w _ _ _ _ _
  case earlyDependentLaunch => exact nextWf_execEarlyDependentLaunch w _ _
  case placeGang => exact nextWf_execPlaceGang w _ _ _ _
  case teamEnd => exact nextWf_execTeamEnd w _
  case continuationPush => exact nextWf_execContinuationPush w _ _
  case completionRecord => exact nextWf_execCompletionRecord w _ _ _
  case pushReport => exact nextWf_execPushReport w _
  -- registers and tables
  case spoolEnable => exact nextWf_execSpoolEnable w _ _ _
  case spoolDisable => exact nextWf_execSpoolDisable w _ _
  case sptailWrite => exact nextWf_execSptailWrite w _ _ _
  case cqcfgEnable => exact nextWf_execCqcfgEnable w _ _ _
  case supackWrite => exact nextWf_execSupackWrite w _ _
  case registerWrite => exact nextWf_execRegisterWrite w _ _
  case timectlWrite => exact nextWf_execTimectlWrite w _ _
  case windowEnable => exact nextWf_execWindowEnable w _ _ _
  case windowDisable => exact nextWf_execWindowDisable w _ _
  case skcfgWrite => exact nextWf_execSkcfgWrite w _
  case thrdebtWrite => exact nextWf_execThrdebtWrite w _ _
  case tableBind => exact nextWf_execTableBind w _ _ _
  case tableUnbind => exact nextWf_execTableUnbind w _ _
  -- pre-emption and the partitions' shares
  case partitionEnable => exact nextWf_execPartitionEnable w _ _
  case partitionDisable => exact nextWf_execPartitionDisable w _
  case sliceEnd => exact nextWf_execSliceEnd w _
  case preemptRequest => exact nextWf_execPreemptRequest w _
  case fullSave => exact nextWf_execFullSave w _
  case teamStop => exact nextWf_execTeamStop w _
  case hubArrayDrain => exact nextWf_execHubArrayDrain w _
  case teamResume => exact nextWf_execTeamResume w _
  case endHaltedTeam => exact nextWf_execEndHaltedTeam w _
  case gridAbort => exact nextWf_execGridAbort w _ _ _
  case communicatorAbort => exact nextWf_execCommunicatorAbort w _ _
  case thermalThrottle => exact nextWf_execThermalThrottle w _ _ _
  case thermalThrottleEnd => exact nextWf_execThermalThrottleEnd w _
  case powerCapThrottle => exact nextWf_execPowerCapThrottle w _ _
  case powerCapThrottleEnd => exact nextWf_execPowerCapThrottleEnd w
  case hangWatchdogExpiry => exact nextWf_execHangWatchdogExpiry w _ _ _
  -- translation, tiers, apertures and peers
  case inval => exact nextWf_execInval w
  case resume => exact nextWf_execResume w
  case move => exact nextWf_execMove w
  case discard => exact nextWf_execDiscard w
  case tierDemotion => exact nextWf_execTierDemotion w _ _ _
  case pageMove => exact nextWf_execPageMove w _
  case inboundApertureRead => exact nextWf_execInboundApertureRead w _ _ _
  case inboundApertureWrite => exact nextWf_execInboundApertureWrite w _ _ _
  case peerRequest => exact nextWf_execPeerRequest w _ _ _ _ _
  case skeinPortDown => exact nextWf_execSkeinPortDown w _
  case linkLevelRetry => exact nextWf_execLinkLevelRetry w _
  -- resets, power and errors
  case coldReset => exact nextWf_execColdReset w
  case warmReset => exact nextWf_execWarmReset w
  case functionLevelReset => exact nextWf_execFunctionLevelReset w _
  case mailboxImageWrite => exact nextWf_execMailboxImageWrite w _
  case attestationRequest => exact nextWf_execAttestationRequest w _ _
  case standbyEntry => exact nextWf_execStandbyEntry w
  case standbyExit => exact nextWf_execStandbyExit w
  case clusterIdle => exact nextWf_execClusterIdle w _
  case uncorrectableError => exact nextWf_execUncorrectableError w _ _ _
  case correctedError => exact nextWf_execCorrectedError w _
  case selfTest => exact nextWf_execSelfTest w _ _ _
  case remapRewrite => exact nextWf_execRemapRewrite w _ _

/-! ### A group's turn -/

theorem State.memWf_asCur {s : State} (w : s.memWf) (r : GRef) (t : Team) (g : Group) (w0 : Word) :
    (s.asCur r t g w0).memWf := by simp [State.asCur, State.memWf_useCode w]

theorem State.memWf_of_pick {s s1 : State} (w : s.memWf) {r : GRef} {i : Instr} (h : s.pick r = some (i, s1)) :
    s1.memWf := by
  have cur := fun t g w0 => State.memWf_asCur w r t g w0
  unfold State.pick at h
  split at h
  · cases h
  · split at h
    · cases h; exact w
    · split at h
      · cases h; exact w
      · split at h
        · cases h
        · dsimp only at h
          split at h
          case h_7 =>
            split at h <;> cases h
            exact cur _ _ _
          all_goals cases h
          all_goals exact cur _ _ _

theorem State.nextWf_of_going {s : State} (w : s.memWf) {r : GRef} {m : Going} (h : s.going r = some m) :
    NextWf m.out := by
  unfold State.going at h
  split at h <;> cases h
  exact nextWf_exec (State.memWf_of_pick w ‹_›) _

theorem State.nextWf_of_ready {s : State} (w : s.memWf) {r : GRef} {a : Ready} (h : s.ready r = some a) :
    NextWf a.out := by
  unfold State.ready at h
  split at h
  · split at h <;> cases h
    exact State.nextWf_of_going w ‹_›
  · cases h

theorem State.nextWf_of_mem_readyGroups {s : State} (w : s.memWf) {core quad : Nat} {a : Ready}
    (h : a ∈ s.readyGroups core quad) : NextWf a.out := by
  obtain ⟨e, _, he⟩ := List.mem_flatMap.mp h
  split at he
  · cases he
  · split at he
    · cases he
    · obtain ⟨n, _, hn⟩ := List.mem_filterMap.mp he
      split at hn
      · cases hn
      · exact State.nextWf_of_ready w hn

theorem mem_of_mostIdle {l : List Ready} : ∀ {a : Ready}, mostIdle l = some a → a ∈ l := by
  induction l with
  | nil => exact fun h => by cases h
  | cons b l ih =>
    intro a h
    unfold mostIdle at h
    split at h
    · cases h; exact List.mem_cons_self
    · have hm := ih ‹mostIdle l = some _›
      split at h <;> cases h
      · exact List.mem_cons_of_mem _ hm
      · exact List.mem_cons_self

theorem mem_of_choose {l : List Ready} {a : Ready} (h : choose l = some a) : a ∈ l := by
  unfold choose at h
  split at h
  · cases h; exact List.mem_of_find?_eq_some ‹_›
  · split at h
    · cases h; exact List.mem_of_find?_eq_some ‹_›
    · exact mem_of_mostIdle h

@[simp] theorem State.memWf_passOver_iff (s : State) (r : GRef) : (s.passOver r).memWf ↔ s.memWf := by
  unfold State.passOver
  split <;> simp

@[simp] theorem State.memWf_account_iff (s : State) (core quad : Nat) (l : List Ready) (a : Ready) :
    (s.account core quad l a).memWf ↔ s.memWf :=
  State.memWf_foldl_iff (f := fun s (b : Ready) => s.passOver b.r) (fun _ _ => by simp) _ s

theorem State.nextWf_policy {s : State} (w : s.memWf) (core quad : Nat) : NextWf (s.policy core quad) := by
  unfold State.policy
  dsimp only
  split
  · simpa using w
  · have ready := State.nextWf_of_mem_readyGroups w (mem_of_choose ‹_›)
    split
    · rename_i hs
      rw [hs] at ready
      simpa using ready
    · exact ready

theorem State.nextWf_issue {s : State} (w : s.memWf) (r : GRef) : NextWf (s.issue r) := by
  unfold State.issue
  split
  · refine nextWf_ite (State.nextWf_of_going w ‹_›) ?_
    dsimp only
    split
    · exact nextWf_ite (State.nextWf_policy w _ _) w.next
    · exact w.next
  · exact w.next

theorem State.memWf_of_tilePick {s s1 : State} (w : s.memWf) {n : Nat} {i : Instr} (h : s.tilePick n = some (i, s1)) :
    s1.memWf := by
  have used := fun t spc => State.memWf_useTile w t spc
  simp only [State.tilePick] at h
  split at h
  · cases h
  · split at h
    · cases h
    · split at h
      · cases h; exact w
      · split at h
        · cases h
        · split at h
          case h_5 =>
            split at h <;> cases h <;> exact used _ _
          all_goals cases h
          · exact w
          · exact used _ _
          · exact w

theorem State.nextWf_tile {s : State} (w : s.memWf) (n : Nat) : NextWf (s.tile n) := by
  unfold State.tile
  split
  · exact nextWf_exec (State.memWf_of_tilePick w ‹_›) _
  · exact w.next

/-! ### Caches and the schedule -/

theorem State.memWf_icFill {s : State} (w : s.memWf) (core part slot block : Nat) : (s.icFill core part slot block).memWf := by
  simp only [State.icFill]
  split
  · exact w
  · refine State.memWf_ite w ?_
    split
    · have used := fun t off => State.memWf_useFetch w core part slot t off
      exact State.memWf_ite (used _ _) (used _ _)
    · exact w

@[simp] theorem State.memWf_tlbEvict_iff (s : State) (level at_ index : Nat) :
    (s.tlbEvict level at_ index).memWf ↔ s.memWf := by
  unfold State.tlbEvict
  split <;> rfl

@[simp] theorem State.memWf_tlbSpill_iff (s : State) (core index : Nat) (ic : Bool) :
    (s.tlbSpill core index ic).memWf ↔ s.memWf := by
  unfold State.tlbSpill
  dsimp only
  split
  · rfl
  · split
    · rfl
    · split <;> rfl

theorem State.memWf_farWrite {s : State} (w : s.memWf) (key : Nat) (bs : List Byte) : (s.farWrite key bs).memWf :=
  State.memWf_ite (State.memWf_clearPoison (State.memWf_wr w key bs) _ _) w

@[simp] theorem State.memWf_farDeny_iff (s : State) (space : Nat) (on : Bool) : (s.farDeny space on).memWf ↔ s.memWf := .rfl

/-- Every choice of what moves next keeps the canonical form. -/
theorem State.nextWf_act {s : State} (w : s.memWf) (c : Sched) : NextWf (s.act c) := by
  cases c
  case issue => exact State.nextWf_issue w _
  case policy => exact State.nextWf_policy w _ _
  case tile => exact State.nextWf_tile w _
  case event => exact nextWf_ite (nextWf_exec w _) w.next
  case icFill => exact (State.memWf_icFill w _ _ _ _).next
  case drain => exact (State.memWf_drainPost w _ _).next
  case farWrite => exact (State.memWf_farWrite w _ _).next
  case hostWrite => exact nextWf_hostWrite w _ _ _
  case hostAtomic => exact (State.memWf_hostAtomic w _ _ _ _ _ _).next
  case half => exact (State.memWf_halfLane w _ _ _ _ _).next
  all_goals simp [State.act, w]

theorem State.nextWf_actHeld {s : State} (w : s.memWf) (c : Sched) : NextWf (s.actHeld c) := by
  have acted := State.nextWf_act w c
  unfold State.actHeld
  split
  · rename_i hs
    rw [hs] at acted
    exact (State.memWf_ite (acted _ rfl) w).next
  · exact acted

/-- Settles O59: what the schedule names, or the first thing that the device can do on its own, keeps the canonical form,
since every instruction and every agent does. -/
theorem memoryStaysCanonical : Obligations.MemoryStaysCanonical := by
  unfold Obligations.MemoryStaysCanonical
  intro s s' w h
  have next : ∀ rest c, State.actHeld { s with sched := rest } c = .next s' → s'.memWf := fun rest c hc =>
    State.nextWf_actHeld ((State.memWf_sched_iff s rest).mpr w) c _ hc
  unfold step at h
  split at h
  · exact next _ _ h
  · split at h
    · exact next _ _ h
    · cases h; exact w

end Sys2Proof.Machine
end

section
/-! SUPPORT. The state after a reset, and the step that a device at rest takes from it. -/

namespace Sys2Proof.Machine

theorem State.memWf_reset : State.reset.memWf := rfl

/-- Where no agent of the device has anything to do, only the translation queue has its turns. -/
theorem State.candidates_reset :
    State.reset.candidates = [.event .inval, .event .resume, .event .move, .event .discard] := rfl

theorem State.act_inval_of_no_entry {s : State} (h : s.tqEntry = none) : s.act (.event .inval) = .next s := by
  have idle : execInval s = .next s := by simp [execInval, State.onTq, h]
  exact idle

theorem State.actHeld_of_act_self {s : State} {c : Sched} (h : s.act c = .next s) : s.actHeld c = .next s := by
  simp [State.actHeld, h]

/-- The first step after a reset changes only what is scheduled. -/
theorem step_reset :
    step State.reset = .next { State.reset with sched := [.event .resume, .event .move, .event .discard] } := by
  have started : step State.reset = State.actHeld
      { State.reset with sched := [.event .resume, .event .move, .event .discard] } (.event .inval) := by
    simp only [step, State.candidates_reset]
    rfl
  rw [started]
  exact State.actHeld_of_act_self (State.act_inval_of_no_entry rfl)

/-- Settles O60: every part of the reset state reads as it is listed there, and with the translation queue empty the first
step does nothing. -/
theorem resetLeaves : Obligations.ResetLeaves := by
  unfold Obligations.ResetLeaves
  refine ⟨State.memWf_reset, fun _ => rfl, fun _ _ => rfl, fun _ => rfl, fun p => ?partition, fun _ => rfl, fun _ => ⟨rfl, rfl⟩,
    fun _ => ⟨rfl, rfl, rfl, rfl⟩, ?hub⟩
  case partition =>
    have closed : pEN Partition.reset = false := rfl
    refine ⟨rfl, rfl, rfl, rfl, rfl, rfl, rfl, rfl, rfl, rfl, rfl, rfl, closed, rfl, rfl, ?_⟩
    exact ⟨fun _ => rfl, fun _ => rfl, fun _ => rfl⟩
  case hub =>
    have skcfg : fld State.reset.hub.skcfg 9 0 = 0x3FF := by decide
    refine ⟨rfl, rfl, rfl, rfl, rfl, rfl, rfl, fun _ => rfl, rfl, rfl, skcfg, rfl, rfl, rfl, rfl, rfl, rfl, rfl, ?_⟩
    exact ⟨_, step_reset, rfl⟩

end Sys2Proof.Machine
end

section
/-! SUPPORT. Bits and fields of registers under the masks of a register write (R5). -/

namespace Sys2Proof.Machine

/-! ### Fields -/

theorem fld_eq_extractLsb' {w : Nat} (v : BitVec w) (hi lo : Nat) : fld v hi lo = (v.extractLsb' lo (hi + 1 - lo)).toNat := by
  simp [fld, Nat.shiftRight_eq_div_pow]

theorem ofNat_fld {w : Nat} (v : BitVec w) {hi lo n : Nat} (h : hi + 1 = lo + n) :
    BitVec.ofNat n (fld v hi lo) = v.extractLsb' lo n := by
  obtain rfl : n = hi + 1 - lo := by omega
  rw [fld_eq_extractLsb', BitVec.ofNat_toNat, BitVec.setWidth_eq]

/-- A field is zero where its bits are. -/
theorem fld_eq_zero_iff {w : Nat} (v : BitVec w) (hi lo : Nat) :
    fld v hi lo = 0 ↔ ∀ i, lo ≤ i → i ≤ hi → v.getLsbD i = false := by
  rw [fld_eq_extractLsb', ← BitVec.toNat_zero (w := hi + 1 - lo), BitVec.toNat_inj]
  constructor
  · intro h i hlo hhi
    have bit := congrArg (fun x => x.getLsbD (i - lo)) h
    simpa [show i - lo < hi + 1 - lo by omega, show lo + (i - lo) = i by omega] using bit
  · intro h
    refine BitVec.eq_of_getLsbD_eq fun i hi' => ?_
    simp [hi', h (lo + i) (by omega) (by omega)]

/-- A mask that is all ones over a field leaves it. -/
theorem fld_and_of_ones {w : Nat} (v : BitVec w) {m : BitVec w} {hi lo : Nat}
    (h : m.extractLsb' lo (hi + 1 - lo) = BitVec.allOnes _) : fld (v &&& m) hi lo = fld v hi lo := by
  rw [fld_eq_extractLsb', fld_eq_extractLsb', BitVec.extractLsb'_and, h, BitVec.and_allOnes]

/-! ### Masks -/

/-- A mask leaves a value whose bits outside it are zero. -/
theorem and_eq_self_iff_bits {w : Nat} {v m : BitVec w} :
    v &&& m = v ↔ ∀ i, i < w → m.getLsbD i = false → v.getLsbD i = false := by
  constructor
  · intro h i _ hm
    rw [← h, BitVec.getLsbD_and, hm, Bool.and_false]
  · intro h
    refine BitVec.eq_of_getLsbD_eq fun i hi => ?_
    have outside := h i hi
    rw [BitVec.getLsbD_and]
    cases hm : m.getLsbD i
    · simp [outside hm]
    · simp

theorem and_not_eq_zero_iff {w : Nat} {v m : BitVec w} : v &&& ~~~m = 0 ↔ v &&& m = v := by
  constructor
  · intro h
    refine and_eq_self_iff_bits.mpr fun i hi hm => ?_
    have bit : (v &&& ~~~m).getLsbD i = false := by rw [h]; exact BitVec.getLsbD_zero
    rw [BitVec.getLsbD_and, BitVec.getLsbD_not, hm] at bit
    simpa [hi] using bit
  · intro h
    rw [← h, BitVec.and_assoc, BitVec.and_not_self]
    simp

theorem xor_and_eq_zero_iff {w : Nat} {a b m : BitVec w} : (a ^^^ b) &&& m = 0 ↔ a &&& m = b &&& m := by
  have distrib : (a ^^^ b) &&& m = (a &&& m) ^^^ (b &&& m) := by
    ext i
    simp [Bool.and_xor_distrib_right]
  rw [distrib]
  exact BitVec.xor_eq_zero_iff

/-- A bit that is written as 1 is cleared. -/
theorem and_not_and_twoPow {w : Nat} (x v : BitVec w) (k : Nat) :
    x &&& ~~~v &&& BitVec.twoPow w k = if v.getLsbD k then 0 else x &&& BitVec.twoPow w k := by
  refine BitVec.eq_of_getLsbD_eq fun i hi => ?_
  by_cases hik : i = k
  · subst hik
    rw [BitVec.getLsbD_and, BitVec.getLsbD_and, BitVec.getLsbD_not]
    cases v.getLsbD i <;> simp [hi]
  · have off : (BitVec.twoPow w k).getLsbD i = false := by simp [BitVec.getLsbD_twoPow]; omega
    split <;> simp [off]

theorem and_low32 (v : DWord) : v &&& 0xFFFFFFFF = (v.setWidth 32).setWidth 64 := by
  apply BitVec.eq_of_toNat_eq
  have low : (0xFFFFFFFF : DWord).toNat = 2 ^ 32 - 1 := rfl
  rw [BitVec.toNat_and, low, Nat.and_two_pow_sub_one_eq_mod]
  simp
  omega

/-! ### Replaced fields -/

theorem fld_setFld_low {v : DWord} (n : Nat) (h : n < 1024) : fld (setFld v 9 0 n) 9 0 = n := by
  simp only [fld, setFld, BitVec.toNat_ofNat]
  have := v.isLt
  omega

theorem fld_setFld_high (v : DWord) (n : Nat) : fld (setFld v 9 0 n) 63 10 = fld v 63 10 := by
  simp only [fld, setFld, BitVec.toNat_ofNat]
  have := v.isLt
  omega

end Sys2Proof.Machine
end

section
/-! SUPPORT. What a write of a spool's registers does (R67 to R70, R325, R329). -/

namespace Sys2Proof.Machine

theorem State.managed_of_running {s : State} (h : s.hub.boot = .running) : s.managed = true := by simp [State.managed, h]
theorem State.managed_of_recovery {s : State} (h : s.hub.boot = .recovery) : s.managed = false := by simp [State.managed, h]

theorem State.spoolHere_of_running {s : State} (h : s.hub.boot = .running) {part n : Nat} (hp : part < 32) (hn : n < 16) :
    s.spoolHere part n = true := by simp [State.spoolHere, State.managed_of_running h, hp, hn]

theorem State.ringOk_iff (s : State) (part slot log : Nat) :
    s.ringOk part slot log = true ↔ ∃ t, s.table part slot = some t ∧ ringTable t log = true := by
  unfold State.ringOk
  split <;> simp_all

/-! ### SPCFG -/

/-- What a spool needs to be enabled with a value of SPCFG (R68). -/
def State.Enables (s : State) (part : Nat) (v : DWord) : Prop :=
  (∃ t, s.table part (fld v 19 8) = some t ∧ ringTable t (fld v 24 20) = true) ∧ 4 ≤ fld v 24 20 ∧ fld v 24 20 ≤ 20 ∧
    fld v 4 3 ≠ 3 ∧ fld v 63 25 = 0 ∧ v.getLsbD 6 = false

theorem spCfgRW_bit : ∀ i, i < 64 → (spCfgRW.getLsbD i = false ↔ i = 6 ∨ 25 ≤ i) := by decide

/-- The reserved bits of SPCFG are bit 6 and those from bit 25 on. -/
theorem and_spCfgRW_eq_self_iff (v : DWord) : v &&& spCfgRW = v ↔ fld v 63 25 = 0 ∧ v.getLsbD 6 = false := by
  rw [and_eq_self_iff_bits, fld_eq_zero_iff]
  constructor
  · intro h
    exact ⟨fun i hlo hhi => h i (by omega) ((spCfgRW_bit i (by omega)).mpr (.inr hlo)),
      h 6 (by omega) ((spCfgRW_bit 6 (by omega)).mpr (.inl rfl))⟩
  · rintro ⟨high, six⟩ i hi hm
    obtain rfl | hlo := (spCfgRW_bit i hi).mp hm
    · exact six
    · exact high i hlo (by omega)

theorem any_fails_iff {a b c d e f : Prop} : ((¬a ∨ ¬(b ∧ c)) ∨ d) ∨ ¬(e ∧ f) ↔ ¬(a ∧ b ∧ c ∧ ¬d ∧ e ∧ f) := by tauto

/-- The hub's checks of an enable are those of R68. -/
theorem State.enableChecks_iff (s : State) (part : Nat) (v : DWord) (sp : Spool) (h : sp.cfg = v &&& spCfgRW) :
    (!s.ringOk part (spSlot sp) (spLOG sp) || decide (spLOG sp < 4 ∨ 20 < spLOG sp) || spClass sp == 3 ||
      v &&& ~~~spCfgRW != 0) = true ↔ ¬ s.Enables part v := by
  have slot : spSlot sp = fld v 19 8 := by rw [spSlot, h]; exact fld_and_of_ones v (by decide)
  have log : spLOG sp = fld v 24 20 := by rw [spLOG, h]; exact fld_and_of_ones v (by decide)
  have cls : spClass sp = fld v 4 3 := by rw [spClass, h]; exact fld_and_of_ones v (by decide)
  have rsv : (v &&& ~~~spCfgRW != 0) = true ↔ ¬(fld v 63 25 = 0 ∧ v.getLsbD 6 = false) := by
    rw [bne_iff_ne, ← and_spCfgRW_eq_self_iff, ← and_not_eq_zero_iff]
  have ring : (!s.ringOk part (fld v 19 8) (fld v 24 20)) = true ↔
      ¬ ∃ t, s.table part (fld v 19 8) = some t ∧ ringTable t (fld v 24 20) = true := by
    rw [← State.ringOk_iff, Bool.not_eq_true', Bool.not_eq_true]
  have range : fld v 24 20 < 4 ∨ 20 < fld v 24 20 ↔ ¬(4 ≤ fld v 24 20 ∧ fld v 24 20 ≤ 20) := by omega
  rw [slot, log, cls, Bool.or_eq_true, Bool.or_eq_true, Bool.or_eq_true, rsv, ring, decide_eq_true_iff, beq_iff_eq, range]
  exact any_fails_iff

theorem and_spCfgRW_and_not_enable (v : DWord) : v &&& spCfgRW &&& ~~~(0x20 : DWord) = v &&& 0x1FFFF9F := by
  rw [BitVec.and_assoc]
  congr 1

section
variable (s : State) (part n : Nat) (v : DWord)

theorem State.writeSpcfg_refused (off : ((s.partn part).spool n).cfg.getLsbD 5 = false) (on : v.getLsbD 5 = true)
    (bad : ¬ s.Enables part v) :
    s.writeSpcfg part n v = s.setPartn part ((s.partn part).setSpool n { (s.partn part).spool n with
      cfg := v &&& 0x1FFFF9F, stat := ((s.partn part).spool n).stat ||| 8 }) := by
  have checks := (s.enableChecks_iff part v { (s.partn part).spool n with cfg := v &&& spCfgRW } rfl).mpr bad
  simp only [State.writeSpcfg, spEN, fbit, off, on, checks, and_spCfgRW_and_not_enable, if_true]
  rfl

/-- An enable that passes the checks, where the completion table is disabled. -/
theorem State.writeSpcfg_enabled (off : ((s.partn part).spool n).cfg.getLsbD 5 = false) (on : v.getLsbD 5 = true)
    (good : s.Enables part v) (noTable : ((s.partn part).spool n).cq.getLsbD 0 = false) :
    s.writeSpcfg part n v = s.setPartn part ((s.partn part).setSpool n { (s.partn part).spool n with cfg := v }) := by
  have self : v &&& spCfgRW = v := (and_spCfgRW_eq_self_iff v).mpr good.2.2.2.2
  have checks := mt (s.enableChecks_iff part v { (s.partn part).spool n with cfg := v &&& spCfgRW } rfl).mp
    (not_not_intro good)
  rw [self] at checks
  simp only [State.writeSpcfg, spEN, fbit, off, on, self, checks, noTable, if_true]
  rfl

/-- An enable checks the completion table again, and disables one that is too short (R325). -/
theorem State.writeSpcfg_enabled_short (off : ((s.partn part).spool n).cfg.getLsbD 5 = false) (on : v.getLsbD 5 = true)
    (good : s.Enables part v) (table : ((s.partn part).spool n).cq.getLsbD 0 = true)
    (short : ∀ t, s.table part (fld ((s.partn part).spool n).cq 19 8) = some t → tCap t < 2 ^ fld v 24 20) :
    s.writeSpcfg part n v = s.setPartn part ((s.partn part).setSpool n { (s.partn part).spool n with
      cfg := v, cq := (((s.partn part).spool n).cq &&& ~~~(1 : DWord)) ||| 2 }) := by
  have self : v &&& spCfgRW = v := (and_spCfgRW_eq_self_iff v).mpr good.2.2.2.2
  have checks := mt (s.enableChecks_iff part v { (s.partn part).spool n with cfg := v &&& spCfgRW } rfl).mp
    (not_not_intro good)
  rw [self] at checks
  cases ht : s.table part (fld ((s.partn part).spool n).cq 19 8) with
  | none =>
    simp only [State.writeSpcfg, spEN, fbit, off, on, self, checks, table, ht, if_true]
    rfl
  | some t =>
    have tooShort : decide (tCap t < 2 ^ spLOG { (s.partn part).spool n with cfg := v }) = true :=
      decide_eq_true (short t ht)
    simp only [State.writeSpcfg, spEN, fbit, off, on, self, checks, table, ht, tooShort, if_true]
    rfl

theorem State.writeSpcfg_changed (on : ((s.partn part).spool n).cfg.getLsbD 5 = true)
    (diff : v &&& 0x1FFFF9F ≠ ((s.partn part).spool n).cfg &&& 0x1FFFF9F) :
    s.writeSpcfg part n v = s.setPartn part ((s.partn part).setSpool n { (s.partn part).spool n with
      stat := ((s.partn part).spool n).stat ||| 4 }) := by
  have changed : ((v &&& spCfgRW ^^^ ((s.partn part).spool n).cfg) &&& ~~~(0x20 : DWord) != 0) = true := by
    rw [bne_iff_ne, Ne, xor_and_eq_zero_iff, and_spCfgRW_and_not_enable]
    intro h
    apply diff
    rw [← and_spCfgRW_and_not_enable ((s.partn part).spool n).cfg, BitVec.and_assoc, BitVec.and_comm spCfgRW,
      ← BitVec.and_assoc, ← h, BitVec.and_assoc]
    congr 1
  simp only [State.writeSpcfg, spEN, fbit, on, changed, if_true]

theorem State.writeSpcfg_disable (on : ((s.partn part).spool n).cfg.getLsbD 5 = true)
    (rw_ : ((s.partn part).spool n).cfg &&& ~~~(0x1FFFFBF : DWord) = 0) :
    s.writeSpcfg part n (((s.partn part).spool n).cfg &&& ~~~(0x20 : DWord)) =
      s.setPartn part ((s.partn part).setSpool n { (s.partn part).spool n with
        cfg := ((s.partn part).spool n).cfg &&& ~~~(0x20 : DWord) }) := by
  generalize hcfg : ((s.partn part).spool n).cfg = cfg at *
  have inside : cfg &&& spCfgRW = cfg := and_not_eq_zero_iff.mp rw_
  have written : cfg &&& ~~~(0x20 : DWord) &&& spCfgRW = cfg &&& ~~~(0x20 : DWord) := by
    rw [BitVec.and_assoc, BitVec.and_comm (~~~(0x20 : DWord)), ← BitVec.and_assoc, inside]
  have same : ((cfg &&& ~~~(0x20 : DWord) ^^^ cfg) &&& ~~~(0x20 : DWord) != 0) = false := by
    rw [bne_eq_false_iff_eq, xor_and_eq_zero_iff, BitVec.and_assoc, BitVec.and_self]
  simp only [State.writeSpcfg, spEN, fbit, hcfg, on, written, same, if_true]
  rfl

end

/-! ### SPTAIL, CQCFG and SUPACK -/

theorem cqRW_bit : ∀ i, i < 64 → cqRW.getLsbD i = false → 1 ≤ i ∧ i ≤ 7 ∨ 20 ≤ i := by decide

section
variable {v : DWord} (high : fld v 63 20 = 0) (low : fld v 7 1 = 0)
include high low

theorem and_cqRW_eq_self : v &&& cqRW = v := by
  rw [fld_eq_zero_iff] at high low
  refine and_eq_self_iff_bits.mpr fun i hi hm => ?_
  obtain ⟨hlo, hhi⟩ | hlo := cqRW_bit i hi hm
  · exact low i hlo hhi
  · exact high i hlo (by omega)

/-- No reserved bit is set: bit 1, which is read-only, counts for none. -/
theorem and_not_cqRW_or : v &&& ~~~(cqRW ||| 2) = 0 := by
  rw [← and_cqRW_eq_self high low, BitVec.not_or, BitVec.and_assoc, ← BitVec.and_assoc cqRW, BitVec.and_not_self]
  simp

theorem State.writeCqcfg_enable (s : State) (part n : Nat) (off : ((s.partn part).spool n).cq.getLsbD 0 = false)
    (on : v.getLsbD 0 = true)
    (ring : ∃ t, s.table part (fld v 19 8) = some t ∧ ringTable t (fld ((s.partn part).spool n).cfg 24 20) = true) :
    s.writeCqcfg part n v = s.setPartn part ((s.partn part).setSpool n { (s.partn part).spool n with cq := v }) := by
  have ok : s.ringOk part (fld v 19 8) (spLOG ((s.partn part).spool n)) = true := (s.ringOk_iff ..).mpr ring
  simp only [State.writeCqcfg, fbit, off, on, and_cqRW_eq_self high low, and_not_cqRW_or high low, ok]
  rfl

theorem State.writeCqcfg_refused (s : State) (part n : Nat) (off : ((s.partn part).spool n).cq.getLsbD 0 = false)
    (on : v.getLsbD 0 = true)
    (ring : ¬ ∃ t, s.table part (fld v 19 8) = some t ∧ ringTable t (fld ((s.partn part).spool n).cfg 24 20) = true) :
    s.writeCqcfg part n v = s.setPartn part ((s.partn part).setSpool n { (s.partn part).spool n with
      cq := (v &&& ~~~(1 : DWord)) ||| 2 }) := by
  have bad : s.ringOk part (fld v 19 8) (spLOG ((s.partn part).spool n)) = false := by
    rw [← Bool.not_eq_true, s.ringOk_iff]
    exact ring
  simp only [State.writeCqcfg, fbit, off, on, and_cqRW_eq_self high low, and_not_cqRW_or high low, bad]
  rfl

end

section
variable {s : State} {part n : Nat} (here : s.spoolHere part n = true) (w : Word)
include here

/-- A spool that the device feeds takes no tail from system software. -/
theorem execSptailWrite_device (dev : ((s.partn part).spool n).cfg.getLsbD 7 = true) :
    execSptailWrite part n w s = .next (s.setPartn part ((s.partn part).setSpool n
      { (s.partn part).spool n with stat := ((s.partn part).spool n).stat ||| 2 })) := by
  simp only [execSptailWrite, here, spDEV, fbit, dev, if_true]

theorem execSptailWrite_fits (dev : ((s.partn part).spool n).cfg.getLsbD 7 = false)
    (fits : (w - ((s.partn part).spool n).head).toNat ≤ 2 ^ fld ((s.partn part).spool n).cfg 24 20) :
    execSptailWrite part n w s = .next (s.setPartn part ((s.partn part).setSpool n
      { (s.partn part).spool n with tail := w })) := by
  simp only [execSptailWrite, here, spDEV, spLOG, fbit, dev, fits, if_true]
  rfl

theorem execSptailWrite_full (dev : ((s.partn part).spool n).cfg.getLsbD 7 = false)
    (full : 2 ^ fld ((s.partn part).spool n).cfg 24 20 < (w - ((s.partn part).spool n).head).toNat) :
    execSptailWrite part n w s = .next (s.setPartn part ((s.partn part).setSpool n
      { (s.partn part).spool n with stat := ((s.partn part).spool n).stat ||| 1 })) := by
  simp only [execSptailWrite, here, spDEV, spLOG, fbit, dev, Nat.not_le.mpr full, if_true]
  rfl

end

theorem execSupackWrite_here {s : State} {part n : Nat} (h : s.spoolHere part n = true)
    (sup : trapSUP (s.partn part) = n) (w : Word) {k : Word}
    (hk : k.toNat = min w.toNat (((s.partn part).spool n).tail - ((s.partn part).spool n).head).toNat) :
    execSupackWrite part w s = .next (s.setPartn part ((s.partn part).setSpool n { (s.partn part).spool n with
      head := ((s.partn part).spool n).head + k, done := ((s.partn part).spool n).done + k })) := by
  have count : BitVec.ofNat 32 k.toNat = k := by simp
  subst sup
  simp only [execSupackWrite, h, if_true, ← hk, count]

/-! ### Writes of no register -/

theorem State.spoolHere_of_outside {s : State} {part n : Nat} (h : 32 ≤ part ∨ 16 ≤ n ∨ s.hub.boot = .recovery) :
    s.spoolHere part n = false := by
  simp only [State.spoolHere, State.managed]
  obtain h | h | h := h
  · simp; omega
  · simp; omega
  · simp [h]

end Sys2Proof.Machine
end

section
/-! SUPPORT. What a write of another register does (R5, R335), gate records (R284, R279) and the registers of BAR0. -/

namespace Sys2Proof.Machine

theorem State.writePartReg_here {s : State} (h : s.hub.boot = .running) {part : Nat} (hp : part < 32)
    (f : Partition → Partition) : s.writePartReg part f = s.setPartn part (f (s.partn part)) := by
  simp [State.writePartReg, State.managed_of_running h, hp]

theorem State.writeHubReg_here {s : State} (h : s.hub.boot = .running) (f : Hub → Hub) :
    s.writeHubReg f = { s with hub := f s.hub } := by simp [State.writeHubReg, State.managed_of_running h]

theorem trapcfg_write (old v : DWord) :
    (v &&& 0xF1FFFFFFFF) ||| (old &&& ~~~v &&& 0x10000000000) =
      (v &&& 0xF1FFFFFFFF) ||| if v.getLsbD 40 then 0 else old &&& 0x10000000000 := by
  have bit : (0x10000000000 : DWord) = BitVec.twoPow 64 40 := by decide
  rw [bit, and_not_and_twoPow]

/-! ### Gate records -/

theorem State.writeGateRecord {s : State} (h : s.hub.boot = .running) {n : Nat} (hn : n < 65536) (k : Nat) (v : DWord) :
    s.writeReg (.gateRecord n k) v = s.noteStalls.setGate n ((s.gate n).writeWord k v) := by
  simp [State.writeReg, State.managed_of_running h, gateNum, Config.gates, hn]

theorem State.writeGateRecord_outside (s : State) {n : Nat} (hn : 65536 ≤ n) (k : Nat) (v : DWord) :
    s.writeReg (.gateRecord n k) v = s := by
  simp [State.writeReg, gateNum, Config.gates, Nat.not_lt.mpr hn]

theorem Gate.writeWord_value (g : Gate) (v : DWord) : g.writeWord 0 v = if g.st = 2 then { g with value := v } else g := rfl

theorem Gate.writeWord_rate (g : Gate) (v : DWord) :
    g.writeWord 1 v = { g with burst := v.extractLsb' 48 16, rate := v.extractLsb' 32 16, mode := v.getLsbD 3,
                               limen := v.getLsbD 2 } := by
  rw [← ofNat_fld v (hi := 63) (lo := 48) rfl, ← ofNat_fld v (hi := 47) (lo := 32) rfl]
  rfl

/-- Two entries of an access list after a write of the word that holds them. -/
def Gate.aclWord (g : Gate) (k : Nat) (v : DWord) : List (Nat × Word) :=
  tset 0 (tset 0 g.acl (2 * k) (v.setWidth 32 &&& 0xFFFC001F)) (2 * k + 1) (v.extractLsb' 32 32 &&& 0xFFFC001F)

theorem Gate.writeWord_acl (g : Gate) {k : Nat} (hk : k < 4) (v : DWord) :
    g.writeWord (2 + k) v = { g with acl := g.aclWord k v } := by
  have low : BitVec.ofNat 32 (fld v 31 0) = v.setWidth 32 := by rw [ofNat_fld v (n := 32) rfl]; rfl
  have high : BitVec.ofNat 32 (fld v 63 32) = v.extractLsb' 32 32 := ofNat_fld v rfl
  simp only [Gate.writeWord, low, high, Nat.add_sub_cancel_left, Gate.aclWord]
  rw [if_neg (by omega), if_neg (by omega), if_pos (by omega)]

theorem Gate.aclWord_low (g : Gate) (k : Nat) (v : DWord) :
    tget 0 (g.aclWord k v) (2 * k) = v.setWidth 32 &&& 0xFFFC001F := by
  rw [Gate.aclWord, tget_tset_ne 0 _ _ (by omega), tget_tset_self]

theorem Gate.aclWord_high (g : Gate) (k : Nat) (v : DWord) :
    tget 0 (g.aclWord k v) (2 * k + 1) = v.extractLsb' 32 32 &&& 0xFFFC001F := tget_tset_self ..

theorem Gate.aclWord_other (g : Gate) {k i : Nat} (v : DWord) (h : i ≠ 2 * k) (h' : i ≠ 2 * k + 1) :
    tget 0 (g.aclWord k v) i = tget 0 g.acl i := by
  rw [Gate.aclWord, tget_tset_ne 0 _ _ h', tget_tset_ne 0 _ _ h]

/-! ### Reads of BAR0 -/

/-- A read of all 8 bytes of a register. -/
theorem State.hostRead_eight (s : State) {fn off : Nat} {a : DWord} (h : barHas fn off 8 = true) (hr : s.barReg fn off = a) :
    s.hostRead fn off 8 = { s with answer := [a] } := by
  subst hr
  have aligned : off % 8 = 0 := by simp [barHas] at h; omega
  have at_ : off / 8 * 8 = off := by omega
  simp only [State.hostRead, h, if_true, at_, aligned, State.answers]
  simp [Nat.mod_eq_of_lt (s.barReg fn off).isLt]

theorem pair32_toNat (lo hi : Word) : (pair32 lo hi).toNat = hi.toNat * 2 ^ 32 + lo.toNat := by
  rw [pair32, BitVec.toNat_append, ← Nat.shiftLeft_add_eq_or_of_lt lo.isLt, Nat.shiftLeft_eq]

/-- A read of one half of two 32-bit registers. -/
theorem State.hostRead_low (s : State) {fn off : Nat} {lo hi : Word} (h : barHas fn off 4 = true) (aligned : off % 8 = 0)
    (hr : s.barReg fn off = pair32 lo hi) : s.hostRead fn off 4 = { s with answer := [lo.setWidth 64] } := by
  have at_ : off / 8 * 8 = off := by omega
  have low : (pair32 lo hi).toNat / 2 ^ (8 * 0) % 2 ^ (8 * 4) = lo.toNat := by
    rw [pair32_toNat]
    have := lo.isLt
    omega
  simp only [State.hostRead, h, if_true, at_, aligned, State.answers, hr, low, BitVec.ofNat_toNat]

theorem State.hostRead_high (s : State) {fn off : Nat} {lo hi : Word} (h : barHas fn (off + 4) 4 = true)
    (aligned : off % 8 = 0) (hr : s.barReg fn off = pair32 lo hi) :
    s.hostRead fn (off + 4) 4 = { s with answer := [hi.setWidth 64] } := by
  have at_ : (off + 4) / 8 * 8 = off := by omega
  have four : (off + 4) % 8 = 4 := by omega
  have high : (pair32 lo hi).toNat / 2 ^ (8 * 4) % 2 ^ (8 * 4) = hi.toNat := by
    rw [pair32_toNat]
    have := hi.isLt
    have := lo.isLt
    omega
  simp only [State.hostRead, h, if_true, at_, four, State.answers, hr, high, BitVec.ofNat_toNat]

end Sys2Proof.Machine
end

section
/-! SUPPORT. Where the registers lie in BAR0 (R335), and the obligation on register writes. -/

namespace Sys2Proof.Machine

/-! ### The offsets of a function's BAR0 -/

section
variable {s : State}

theorem State.barReg_part (h : s.hub.boot = .running) (part off : Nat) :
    s.barReg (part + 1) off = (s.partn part).windowReg off := by simp [State.barReg, State.managed_of_running h]

theorem State.barReg_hub (h : s.hub.boot = .running) {off : Nat} (hm : off < 0x10000 ∨ 0x11000 ≤ off) :
    s.barReg 0 off = s.manageReg off := by
  have outside : inMailbox off = false := by simp [inMailbox]; omega
  simp [State.barReg, State.managed_of_running h, outside]

theorem hostWrite_part (h : s.hub.boot = .running) {part : Nat} (hp : part < 32) (off : Nat) (v : DWord) :
    hostWrite (part + 1) off v s = windowWrite part off v s := by
  simp [hostWrite, State.managed_of_running h, show ¬ 32 < part + 1 by omega]

theorem hostWrite_hub (h : s.hub.boot = .running) (off : Nat) (v : DWord) : hostWrite 0 off v s = manageWrite off v s := by
  simp [hostWrite, State.managed_of_running h]

end

section
variable (p : Partition) {k : Nat} (hk : k < 16)
include hk

theorem Partition.windowReg_spool {off : Nat} (ho : off < 32) :
    p.windowReg (0x2000 + 32 * k + off) = match off / 8 with
      | 0 => (p.spool k).cfg
      | 1 => pair32 (p.spool k).head (p.spool k).tail
      | 2 => pair32 (p.spool k).done (p.spool k).stat
      | _ => 0 := by
  have spool : (0x2000 + 32 * k + off - 0x2000) / 32 = k := by omega
  have word : (0x2000 + 32 * k + off) % 32 / 8 = off / 8 := by omega
  rw [Partition.windowReg, if_neg (by omega), if_neg (by omega), if_neg (by omega), if_pos (by omega), spool, word] <;> rfl

theorem Partition.windowReg_cq : p.windowReg (0x2200 + 16 * k) = (p.spool k).cq := by
  have spool : (0x2200 + 16 * k - 0x2200) / 16 = k := by omega
  rw [Partition.windowReg, if_neg (by omega), if_neg (by omega), if_neg (by omega), if_neg (by omega), if_pos (by omega), spool]

theorem windowWrite_spool (part : Nat) {off : Nat} (ho : off < 32) (v : DWord) (s : State) :
    windowWrite part (0x2000 + 32 * k + off) v s = match (generalizing := false) off with
      | 0 => execRegisterWrite (.spcfg part k) v s
      | 0xC => execSptailWrite part k (v.setWidth 32) s
      | 0x14 => execRegisterWrite (.spstat part k) v s
      | _ => .next s := by
  have spool : (0x2000 + 32 * k + off - 0x2000) / 32 = k := by omega
  have place : (0x2000 + 32 * k + off) % 32 = off := by omega
  rw [windowWrite, if_neg (by omega), if_neg (by omega), if_neg (by omega), if_pos (by omega), spool, place] <;> rfl

end

section
variable (s : State) {part : Nat} (hp : part < 32)
include hp

theorem State.manageReg_part {off : Nat} (ho : off < 256) :
    s.manageReg (0x100000 + 256 * part + off) = (s.partn part).manageReg off := by
  have which : (0x100000 + 256 * part + off - 0x100000) / 256 = part := by omega
  have place : (0x100000 + 256 * part + off) % 256 = off := by omega
  rw [State.manageReg, if_neg (by omega), if_neg (by omega), if_neg (by omega), if_neg (by omega), if_neg (by omega),
    if_pos (by omega), which, place]

theorem manageWrite_pcfg (v : DWord) :
    manageWrite (0x100000 + 256 * part) v s = execRegisterWrite (.pcfg part) v s := by
  have which : (0x100000 + 256 * part - 0x100000) / 256 = part := by omega
  have place : (0x100000 + 256 * part) % 256 = 0 := by omega
  rw [manageWrite, if_neg (by omega), if_neg (by omega), if_neg (by omega), if_neg (by omega), if_neg (by omega),
    if_pos (by omega), which, place]
  rfl

end

theorem barHas_window {part off n : Nat} (hp : part < 32) (h : (n = 4 ∨ n = 8) ∧ off % n = 0 ∧ off < 0x10000) :
    barHas (part + 1) off n = true := by
  obtain ⟨rfl | rfl, aligned, low⟩ := h
  · simp [barHas, aligned]; omega
  · simp [barHas, aligned]; omega

theorem barHas_manage {off : Nat} (h : off % 8 = 0 ∧ off < 2 ^ 24) : barHas 0 off 8 = true := by
  simp [barHas, h.1]
  omega

/-! ### The obligation -/

/-- Settles O46: a spool's registers by the checks of an enable, SPTAIL, CQCFG and SUPACK; another register by what a write
of a partition's or the hub's registers puts there; BAR0 by where each register lies. -/
theorem registerWrites : Obligations.RegisterWrites := by
  unfold Obligations.RegisterWrites
  refine ⟨?spools, ?nowhere, ?registers, ?host, ?recovery⟩
  case spools =>
    intro s part n v hp hn run p sp put ring fits rest
    have here := State.spoolHere_of_running run hp hn
    have enable : ∀ x, s.writeSpcfg part n v = s.setPartn part (p.setSpool n x) → exec (.spoolEnable part n v) s = put x :=
      fun x hx => by
        show execSpoolEnable part n v s = _
        simp only [execSpoolEnable, here, if_true, hx, put]
    refine ⟨?_, ?_, ?_, ?_, ?_, ?_, ?_, ?_, ?_⟩
    · exact fun off on bad => enable _ (s.writeSpcfg_refused part n v off on bad)
    · exact fun off on good cq => enable _ (s.writeSpcfg_enabled part n v off on good cq)
    · exact fun off on good cq short => enable _ (s.writeSpcfg_enabled_short part n v off on good cq short)
    · exact fun on diff _ => enable _ (s.writeSpcfg_changed part n v on diff)
    · intro on inside
      show execSpoolDisable part n s = _
      rw [execSpoolDisable, if_pos here, s.writeSpcfg_disable part n on inside]
    · exact fun w => ⟨execSptailWrite_device here w, execSptailWrite_fits here w, execSptailWrite_full here w⟩
    · intro off on high low
      have table : ∀ x, s.writeCqcfg part n v = s.setPartn part (p.setSpool n x) → exec (.cqcfgEnable part n v) s = put x :=
        fun x hx => by
          show execCqcfgEnable part n v s = _
          rw [execCqcfgEnable, if_pos here, hx]
      exact ⟨fun ok => table _ (State.writeCqcfg_enable high low s part n off on ok),
        fun bad => table _ (State.writeCqcfg_refused high low s part n off on bad)⟩
    · exact fun w sup few => execSupackWrite_here here sup w (Nat.min_eq_left few).symm
    · intro w sup many
      have all : sp.head + (sp.tail - sp.head) = sp.tail := by rw [BitVec.add_comm, BitVec.sub_add_cancel]
      have acked := execSupackWrite_here here sup w (Nat.min_eq_right (Nat.le_of_lt many)).symm
      rw [all] at acked
      exact acked
  case nowhere =>
    intro s part n v w out
    have nowhere := State.spoolHere_of_outside out
    refine ⟨?_, ?_, ?_, ?_⟩
    · show execSpoolEnable part n v s = _
      simp [execSpoolEnable, nowhere]
    · show execSpoolDisable part n s = _
      simp [execSpoolDisable, nowhere]
    · show execSptailWrite part n w s = _
      simp [execSptailWrite, nowhere]
    · show execCqcfgEnable part n v s = _
      simp [execCqcfgEnable, nowhere]
  case registers =>
    intro s part v hp run p put hub w wr
    have reg : ∀ r x, s.writeReg r v = s.writePartReg part (fun _ => x) → wr r = put x := fun r x h => by
      show Host.Outcome.next (s.writeReg r v) = _
      rw [h, State.writePartReg_here run hp]
    have hubReg : ∀ r h, s.writeReg r v = s.writeHubReg (fun _ => h) → wr r = hub h := fun r x h => by
      show Host.Outcome.next (s.writeReg r v) = _
      rw [h, State.writeHubReg_here run]
    have timeval := reg (.timeval part) (if fbit p.timectl 0 then p else { p with timeval := v }) rfl
    refine ⟨reg (.stalestat part) _ rfl, ?trapcfg, ?wdlim, reg (.ptroot part) _ rfl, reg (.dlcfg part) _ rfl, ?counting,
      ?stopped, reg (.walloff part) _ rfl, reg (.apbase part) _ rfl, ?peeracl, ?gateSlot, ?gates, ?noGate,
      hubReg .perr _ rfl, hubReg .pwrcap _ rfl, hubReg .elbase _ rfl, hubReg .elhead _ rfl, hubReg .tqbase _ rfl,
      hubReg .tqtail _ rfl, hubReg .tqstat _ rfl, ?tierwm, fun _ => rfl, ?timectl, ?devnum, ?badDevnum, ?thrdebt⟩
    case trapcfg =>
      rw [← trapcfg_write]
      exact reg (.trapcfg part) _ rfl
    case wdlim =>
      rw [← and_low32]
      exact reg (.wdlim part) _ rfl
    case counting =>
      intro counts
      rw [timeval, fbit, if_pos counts]
    case stopped =>
      intro stands
      rw [timeval, fbit, if_neg (Bool.eq_false_iff.mp stands)]
    case peeracl =>
      intro i hi
      exact reg (.peeracl part i) _ (if_pos hi)
    case gateSlot =>
      intro i hi
      exact reg (.gateSlot part i) _ (if_pos hi)
    case gates =>
      intro n hn g gate
      have record : ∀ k, wr (.gateRecord n k) = gate (g.writeWord k v) := fun k =>
        congrArg Host.Outcome.next (State.writeGateRecord run hn k v)
      refine ⟨fun frozen => ?_, fun other => ?_, ?_, fun k hk => ?_⟩
      · rw [record, Gate.writeWord_value, if_pos frozen]
      · rw [record, Gate.writeWord_value, if_neg other]
      · rw [record, Gate.writeWord_rate]
      · refine ⟨g.aclWord k v, ?_, g.aclWord_low k v, g.aclWord_high k v, fun i => g.aclWord_other v⟩
        rw [record, Gate.writeWord_acl g hk]
    case noGate =>
      exact fun n k hn => congrArg Host.Outcome.next (s.writeGateRecord_outside hn k v)
    case tierwm =>
      intro t ht
      exact hubReg (.tierwm t) _ (if_pos ht)
    case timectl => exact congrArg Host.Outcome.next (State.writePartReg_here run hp _)
    case devnum =>
      intro free
      refine ⟨setFld s.hub.skcfg 9 0 (fld v 9 0), ?_, fld_setFld_low _ (Nat.mod_lt _ (by decide)), fld_setFld_high _ _⟩
      refine (congrArg Host.Outcome.next (State.writeHubReg_here run _)).trans ?_
      rw [if_neg (by omega)]
    case badDevnum =>
      intro low high
      refine (congrArg Host.Outcome.next (State.writeHubReg_here run _)).trans ?_
      rw [if_pos ⟨low, high⟩]
    case thrdebt =>
      show execThrdebtWrite part v s = _
      simp [execThrdebtWrite, State.managed_of_running run, hp, put, p]
  case host =>
    intro s part k v hp hk run p sp at_ reads
    have window : ∀ off, s.barReg (part + 1) off = p.windowReg off := State.barReg_part run part
    have spool : ∀ off, off < 32 → s.barReg (part + 1) (at_ + off) = match off / 8 with
        | 0 => sp.cfg
        | 1 => pair32 sp.head sp.tail
        | 2 => pair32 sp.done sp.stat
        | _ => 0 := fun _ ho => (window _).trans (p.windowReg_spool hk ho)
    have manage : ∀ off, off < 256 → s.barReg 0 (0x100000 + 256 * part + off) = p.manageReg off := fun off ho =>
      (State.barReg_hub run (by omega)).trans (s.manageReg_part hp ho)
    have aligned : at_ % 8 = 0 := by omega
    have low : at_ < 0x2200 := by omega
    have fixed : ∀ off, off % 8 = 0 ∧ off < 0x10000 → reads (part + 1) off 8 (p.windowReg off) := fun _ ho =>
      s.hostRead_eight (barHas_window hp ⟨.inr rfl, ho⟩) (window _)
    refine ⟨fixed 0x1800 (by decide), fixed 0x1808 (by decide), fixed 0x1810 (by decide), ?supack, ?cfg, ?head, ?tail, ?done,
      ?stat, ?cq, ?perr, ?power, ?pcfg, ?timeval, ?skcfg, ?ackWrite, ?tailWrite, ?cfgWrite, ?pcfgWrite, ?skcfgWrite, ?warm,
      ?standby⟩
    case supack => exact s.hostRead_low (barHas_window hp (by decide)) rfl (lo := 0) (hi := 0) (window _)
    case cfg => exact s.hostRead_eight (barHas_window hp (by omega)) (spool 0 (by decide))
    case head => exact s.hostRead_low (barHas_window hp (by omega)) (by omega) (spool 8 (by decide))
    case tail => exact s.hostRead_high (off := at_ + 8) (barHas_window hp (by omega)) (by omega) (spool 8 (by decide))
    case done => exact s.hostRead_low (barHas_window hp (by omega)) (by omega) (spool 16 (by decide))
    case stat => exact s.hostRead_high (off := at_ + 16) (barHas_window hp (by omega)) (by omega) (spool 16 (by decide))
    case cq => exact s.hostRead_eight (barHas_window hp (by omega)) ((window _).trans (p.windowReg_cq hk))
    case perr => exact s.hostRead_low (by decide) rfl (lo := s.hub.perr) (hi := 0) (State.barReg_hub run (by decide))
    case power =>
      refine (s.hostRead_eight (by decide) (State.barReg_hub run (by decide))).trans ?_
      show _ = ({ s with answer := [if s.hub.power = .p0 then 0 else 2] } : State)
      have code : s.manageReg 0x100 = s.hub.power.code := rfl
      rw [code]
      cases s.hub.power <;> rfl
    case pcfg => exact s.hostRead_eight (barHas_manage (by omega)) (manage 0 (by decide))
    case timeval => exact s.hostRead_eight (barHas_manage (by omega)) (manage 0x28 (by decide))
    case skcfg => exact s.hostRead_eight (by decide) (State.barReg_hub run (by decide))
    case ackWrite => exact hostWrite_part run hp _ _
    case tailWrite => exact (hostWrite_part run hp _ _).trans (windowWrite_spool hk part (off := 12) (by decide) v s)
    case cfgWrite => exact (hostWrite_part run hp _ _).trans (windowWrite_spool hk part (off := 0) (by decide) v s)
    case pcfgWrite => exact (hostWrite_hub run _ _).trans (manageWrite_pcfg s hp v)
    case skcfgWrite => exact hostWrite_hub run _ _
    case warm => exact hostWrite_hub run _ _
    case standby => exact hostWrite_hub run _ _
  case recovery =>
    intro s fn off v rec_
    have gone := State.managed_of_recovery rec_
    refine ⟨by simp [hostWrite, gone], fun has => ?_⟩
    rw [State.hostRead_eight s has (a := 0) (by rw [State.barReg, gone]; rfl)]

end Sys2Proof.Machine
end

section
/-! SUPPORT. The words of an instruction and of a tile word: what unpacking them, their length and their bytes give back
(R3, R50 to R53, R62). -/

namespace Sys2Proof

/-- Bits from `s` on are a field, where each of them is the field's. -/
theorem slice_eq {n s k : Nat} {x : BitVec n} {y : BitVec k} (bits : ∀ i < k, x.getLsbD (s + i) = y.getLsbD i) :
    x.extractLsb' s k = y :=
  BitVec.eq_of_getLsbD_eq fun i hi => by simp [hi, bits i hi]

theorem low_eq {n k : Nat} {x : BitVec n} {y : BitVec k} (bits : ∀ i < k, x.getLsbD i = y.getLsbD i) :
    x.setWidth k = y :=
  BitVec.eq_of_getLsbD_eq fun i hi => by simp [hi, bits i hi]

theorem slice_word_k (r : TRaw) : r.word.extractLsb' 32 32 = r.k := slice_eq fun i _ => by
  simp only [TRaw.word, BitVec.getLsbD_append]
  repeat rw [if_neg (by omega)]
  congr 1
  omega

theorem tunpack_word (r : TRaw) : tunpack r.word = r := by
  have high := slice_word_k r
  obtain ⟨top, pi, acc, qa, rsv, mt, ws, fmt, bn, n, k⟩ := r
  simp only [tunpack, high, TRaw.mk.injEq, and_true]
  simp only [TRaw.word]
  refine ⟨low_eq fun i hi => ?_, ?_, ?_, slice_eq fun i hi => ?_, slice_eq fun i hi => ?_, slice_eq fun i hi => ?_,
    slice_eq fun i hi => ?_, slice_eq fun i hi => ?_, slice_eq fun i hi => ?_, slice_eq fun i hi => ?_⟩ <;>
    simp only [BitVec.getLsbD_append] <;> grind

theorem unpack_words (r : Raw) : unpack r.word0 r.word1 r.imm r.lit = r := by
  obtain ⟨l, m, p, b, a, d, op, xop, sc, neg, c, bhi, ahi, dhi, imm, lit⟩ := r
  simp only [unpack, Raw.word0, Raw.word1, Raw.mk.injEq, and_true]
  refine ⟨low_eq fun i hi => ?_, slice_eq fun i hi => ?_, slice_eq fun i hi => ?_, slice_eq fun i hi => ?_,
    slice_eq fun i hi => ?_, slice_eq fun i hi => ?_, slice_eq fun i hi => ?_, slice_eq fun i hi => ?_,
    slice_eq fun i hi => ?_, ?_, slice_eq fun i hi => ?_, slice_eq fun i hi => ?_, slice_eq fun i hi => ?_,
    low_eq fun i hi => ?_⟩ <;> simp only [BitVec.getLsbD_append] <;> grind

theorem unpack_word0 (r : Raw) : unpack r.word0 0 0 r.lit =
    { r with xop := 0, sc := 0, neg := false, c := 0, bhi := 0, ahi := 0, dhi := 0, imm := 0 } := by
  have whole := congrArg (fun x : Raw =>
    { x with xop := 0, sc := 0, neg := false, c := 0, bhi := 0, ahi := 0, dhi := 0, imm := 0 }) (unpack_words r)
  simpa [unpack] using whole

theorem wordLE_wordBytes (w : Word) :
    wordLE (w.setWidth 8) (w.extractLsb' 8 8) (w.extractLsb' 16 8) (w.extractLsb' 24 8) = w := by
  apply BitVec.eq_of_getLsbD_eq
  intro i hi
  simp only [wordLE, BitVec.getLsbD_append, BitVec.getLsbD_extractLsb', BitVec.getLsbD_setWidth]
  grind

theorem halves_append (w : DWord) : w.extractLsb' 32 32 ++ w.setWidth 32 = w := by
  apply BitVec.eq_of_getLsbD_eq
  intro i hi
  simp only [BitVec.getLsbD_append, BitVec.getLsbD_extractLsb', BitVec.getLsbD_setWidth]
  grind

theorem lenOf_word0 (r : Raw) : lenOf r.word0 = r.len := by
  have low : r.word0.setWidth 2 = r.l := congrArg Raw.l (unpack_words r)
  simp only [lenOf, low, Raw.len]

/-- Fields whose words give them all back: those that the length does not carry are zero. -/
structure Raw.Fits (r : Raw) : Prop where
  short : r.len.isExt = false → r =
    { r with xop := 0, sc := 0, neg := false, c := 0, bhi := 0, ahi := 0, dhi := 0, imm := 0 }
  noLit : r.len.isLit = false → r.lit = 0

theorem decode_words {r : Raw} (fits : r.Fits) (rest : List Byte) : decode (wordsBytes r.words ++ rest) = r.decode := by
  obtain ⟨short, noLit⟩ := fits
  have u0 := unpack_word0 r
  have u1 := unpack_words r
  have l0 := lenOf_word0 r
  cases hl : r.len <;> rw [hl] at short noLit l0 <;>
    simp only [Raw.words, hl, wordsBytes, List.flatMap_cons, List.flatMap_nil, wordBytes, List.cons_append,
      List.nil_append, decode, wordLE_wordBytes, l0, rawOf, halves_append]
  · rw [← noLit rfl, u0, ← short rfl]
  · rw [u0, ← short rfl]
  · rw [← noLit rfl, u1]
  · rw [u1]

end Sys2Proof
end

section
/-! SUPPORT. An entry of the decoder that accepts, register operands and their selectors, and the lane mould (R55, R57, R65,
R108, R128). -/

namespace Sys2Proof

/-! ### Subcodes -/

@[simp] theorem err_eq_nil {b : Bool} {n : Nat} : err b n = [] ↔ b = false := by
  cases b <;> simp [err]

@[simp] theorem zeros_eq_nil {bs : List Bool} : zeros bs = [] ↔ ∀ b ∈ bs, b = true := by
  simp [zeros]

/-- A use that the check of a well-formed instruction lets pass. -/
def Use.Ok (u : Use) (l : Len) : Prop := (u.legal && u.aligned && u.carried l) = true

theorem useErrs_eq_nil {us : List Use} {l : Len} (ok : ∀ u ∈ us, u.Ok l) : useErrs us = [] := by
  simp only [useErrs, List.flatMap_eq_nil_iff, List.append_eq_nil_iff, err_eq_nil]
  intro u hu
  have := ok u hu
  simp only [Use.Ok, Bool.and_eq_true] at this
  simp [this]

theorem Hdr.wf_iff {h : Hdr} {lens : List Len} : h.wf lens = true ↔
    lens.contains h.len = true ∧ (h.len.isExt = false → h.neg = false) ∧ (h.neg && h.p == 7) = false := by
  cases hx : h.len.isExt <;> cases hn : h.neg <;> simp [Hdr.wf, hx, hn]

theorem plain_iff {h : Hdr} {b : Bool} : plain h b = true ↔ (h.len.isExt = false → b = true) := by
  cases hx : h.len.isExt <;> simp [plain, hx]

theorem entry_eq_ok {r : Raw} {h : Hdr} {lens : List Len} {mOk : Bool} {errs : List Nat} {i : Instr} (hdr : r.hdr = h)
    (wf : h.wf lens = true) (uses : ∀ u ∈ i.uses, u.Ok h.len) (m : mOk = true) (sc : r.sc.toNat < 6) (none : errs = []) :
    r.entry lens mOk errs i = .ok i := by
  subst hdr m none
  obtain ⟨len, -, guard⟩ := Hdr.wf_iff.mp wf
  have sc' : decide (6 ≤ r.sc.toNat) = false := by simpa using sc
  change lens.contains r.len = true at len
  change (r.neg && r.p == 7) = false at guard
  rw [Raw.entry, if_pos len, if_pos rfl, sc', guard, useErrs_eq_nil uses]
  rfl

/-! ### What an instruction's fields come to -/

/-- Whether extended words 1 and 2 would be zero, but for NEG. -/
def Raw.blank (r : Raw) : Bool := r.noX && r.noSc && r.noC && r.noHi && r.noImm

theorem hdr_eq {r : Raw} {h : Hdr} (l : r.l = h.len.code) (p : r.p = h.p) (neg : r.neg = h.neg) : r.hdr = h := by
  obtain ⟨len, hp, hneg⟩ := h
  simp only at l p neg
  simp only [Raw.hdr, Raw.len, l, p, neg]
  cases len <;> rfl

/-- The words of these fields are those of an instruction. -/
structure Raw.Reads (r : Raw) (i : Instr) : Prop where
  fits : r.Fits
  decodes : r.decode = .ok i

theorem Raw.Reads.of_entry {r : Raw} {h : Hdr} {lens : List Len} {mOk : Bool} {errs : List Nat} {i i' : Instr}
    (form : Raw → Dec) (dispatch : r.decode = form r) (decodes : form r = r.entry lens mOk errs i') (same : i' = i)
    (hdr : r.hdr = h) (wf : h.wf lens = true)
    (uses : ∀ u ∈ i.uses, u.Ok h.len) (m : mOk = true) (sc : r.sc.toNat < 6) (none : errs = [])
    (short : h.len.isExt = false → r.blank = true) (noLit : h.len.isLit = false → r.lit = 0) : r.Reads i := by
  subst same
  refine ⟨⟨fun s => ?_, fun s => ?_⟩, dispatch.trans (decodes.trans (entry_eq_ok hdr wf uses m sc none))⟩
  · subst hdr
    obtain ⟨-, neg, -⟩ := Hdr.wf_iff.mp wf
    have zero := short s
    have neg : r.neg = false := neg s
    simp only [blank, noX, noSc, noC, noHi, noImm, Bool.and_eq_true, beq_iff_eq] at zero
    obtain ⟨⟨⟨⟨x, sc⟩, c⟩, ⟨dhi, ahi⟩, bhi⟩, imm⟩ := zero
    obtain ⟨l, m, p, b, a, d, op, xop, sc, neg, c, bhi, ahi, dhi, imm, lit⟩ := r
    simp_all
  · subst hdr
    exact noLit s

/-! ### Register numbers and selectors -/

@[simp] theorem number_halves (n : BitVec 10) : n.extractLsb' 6 4 ++ n.setWidth 6 = n := by
  apply BitVec.eq_of_getLsbD_eq
  intro i hi
  simp only [BitVec.getLsbD_append, BitVec.getLsbD_extractLsb', BitVec.getLsbD_setWidth]
  grind

theorem high_eq_zero {n : BitVec 10} (lt : n.toNat < 64) : n.extractLsb' 6 4 = 0 := by
  apply BitVec.eq_of_toNat_eq
  simp [BitVec.extractLsb'_toNat, Nat.shiftRight_eq_div_pow]
  omega

/-- The selector of an operand (R108). -/
def VOp.sel : VOp → BitVec 16
  | .reg _ => 0
  | .idx x off => (1 : BitVec 1) ++ x ++ (0 : BitVec 2) ++ off

theorem slice_selWord {j k : Nat} (hk : k < 4) (o : VOp) : (o.selWord j).extractLsb' (16 * k) 16 =
    if j = k then o.sel else 0 := by
  cases o with
  | reg n => simp [VOp.selWord, VOp.sel]
  | idx x off =>
    apply BitVec.eq_of_getLsbD_eq
    intro i hi
    simp only [VOp.selWord, VOp.sel, BitVec.getLsbD_extractLsb', BitVec.getLsbD_shiftLeft, BitVec.getLsbD_setWidth]
    split
    · grind
    · have : ¬ 16 * k + i < 16 * j → 16 ≤ 16 * k + i - 16 * j := by omega
      grind

/-- An operand that the words of a length carry, where an indexed operand is accepted if `ok`. -/
def VOp.Fits (o : VOp) (ok : Bool) (l : Len) : Prop :=
  match o with
  | .reg n => l.isExt = false → n.toNat < 64
  | .idx _ off => ok = true ∧ l.isLit = true ∧ off.toNat < 640

theorem VOp.Fits.high {o : VOp} {ok : Bool} {l : Len} (fits : o.Fits ok l) (short : l.isExt = false) :
    o.num.extractLsb' 6 4 = 0 := by
  cases o with
  | reg n => exact high_eq_zero (fits short)
  | idx x off => exact BitVec.extractLsb'_zero

theorem VOp.Fits.selWord {o : VOp} {ok : Bool} {l : Len} (fits : o.Fits ok l) (short : l.isLit = false) (k : Nat) :
    o.selWord k = 0 := by
  cases o with
  | reg n => rfl
  | idx x off => simp [fits.2.1] at short

theorem sel_idx_fields (x : BitVec 3) (off : BitVec 10) : (VOp.idx x off).sel.getLsbD 15 = true ∧
    (VOp.idx x off).sel.extractLsb' 12 3 = x ∧ (VOp.idx x off).sel.extractLsb' 10 2 = 0 ∧
    (VOp.idx x off).sel.setWidth 10 = off := by
  refine ⟨?_, slice_eq fun i hi => ?_, slice_eq fun i hi => ?_, low_eq fun i hi => ?_⟩ <;>
    simp only [VOp.sel, BitVec.getLsbD_append] <;> grind

theorem vop_eq {r : Raw} {k : Nat} {o : VOp} {ok : Bool} (sel : r.sel k = o.sel) (fits : o.Fits ok r.len) :
    r.vop k o.num ok = o := by
  cases o with
  | reg n => simp [Raw.vop, sel, VOp.sel, VOp.num]
  | idx x off =>
    obtain ⟨on, field, -, low⟩ := sel_idx_fields x off
    obtain ⟨hok, lit, -⟩ := fits
    simp only [Raw.vop, sel, hok, lit, on, field, low, Bool.and_self, if_true]

theorem vopErrs_eq {r : Raw} {k : Nat} {o : VOp} {ok : Bool} (sel : r.sel k = o.sel) (fits : o.Fits ok r.len) :
    r.vopErrs k o.num ok = [] := by
  cases o with
  | reg n => simp [Raw.vopErrs, sel, VOp.sel]
  | idx x off =>
    obtain ⟨on, -, mid, low⟩ := sel_idx_fields x off
    obtain ⟨hok, lit, lt⟩ := fits
    simp [Raw.vopErrs, sel, hok, lit, on, mid, low, lt, VOp.num]

theorem vopErrs_zero {r : Raw} {k : Nat} {n : BitVec 10} {ok : Bool} (sel : r.sel k = 0) : r.vopErrs k n ok = [] := by
  simp [Raw.vopErrs, sel]

/-! ### What the uses of an instruction say -/

theorem vUse_fits {o : VOp} {n : Nat} {a : Nat} {dst : Bool} {l : Len} (ok : (vUse o n a dst).Ok l) : o.Fits
    (n == 1) l := by
  simp only [Use.Ok, Bool.and_eq_true] at ok
  obtain ⟨⟨legal, -⟩, carried⟩ := ok
  cases o with
  | reg n =>
    intro short
    simpa [vUse, Use.carried, short] using carried
  | idx x off =>
    simp only [vUse, Use.legal, Use.carried, decide_eq_true_eq] at legal carried
    exact ⟨by simp [legal], carried, by omega⟩

theorem sUse_fits {n : BitVec 10} {c a : Nat} {dst : Bool} {l : Len} (ok : (sUse n c a dst).Ok l)
    (short : l.isExt = false) :
    n.toNat < 64 := by
  simp only [Use.Ok, Bool.and_eq_true] at ok
  simpa [sUse, Use.carried, short] using ok.2

theorem vUse_high {n : BitVec 10} {c a : Nat} {dst : Bool} {l : Len} (ok : (vUse (.reg n) c a dst).Ok l)
    (short : l.isExt = false) : n.extractLsb' 6 4 = 0 :=
  (vUse_fits ok).high short

theorem sUse_high {n : BitVec 10} {c a : Nat} {dst : Bool} {l : Len} (ok : (sUse n c a dst).Ok l)
    (short : l.isExt = false) : n.extractLsb' 6 4 = 0 :=
  high_eq_zero (sUse_fits ok short)

theorem mouldUse_fits {sf : Bool} {o : VOp} {n : Nat} {dst : Bool} {l : Len} (ok : (mouldUse sf o n dst).Ok l)
    (scalar : scalarOk sf [o] = true) : o.Fits (n == 1 && !sf) l := by
  cases sf with
  | false => simpa using vUse_fits (n := n) ok
  | true =>
    cases o with
    | idx x off => simp [scalarOk] at scalar
    | reg n => exact sUse_fits (c := 1) (a := 1) (dst := dst) ok

/-- A source B that the words of a length carry. -/
def SrcB.Fits (b : SrcB) (ok : Bool) (l : Len) : Prop :=
  match b with
  | .vec o => o.Fits ok l
  | .sca _ | .imm _ => l.isExt = true

theorem srcUse_fits {sf : Bool} {b : SrcB} {n : Nat} {l : Len} (ok : ∀ u ∈ srcUse sf n b, u.Ok l)
    (scalar : scalarOk sf (srcOps b) = true) (plain : l.isExt = false → b.plain = true) :
    b.Fits (n == 1 && !sf) l := by
  cases b with
  | vec o =>
    refine mouldUse_fits (dst := false) ?_ scalar
    cases sf <;> simpa [srcUse, mouldUse] using ok
  | sca n | imm w =>
    show l.isExt = true
    simpa [SrcB.plain] using plain

/-! ### The mould -/

@[simp] theorem dn_setD (r : Raw) (n : BitVec 10) : (r.setD n).dn = n := number_halves n
@[simp] theorem an_setA (r : Raw) (n : BitVec 10) : (r.setA n).an = n := number_halves n
@[simp] theorem bn_setBn (r : Raw) (n : BitVec 10) : (r.setBn n).bn = n := number_halves n

theorem sel_or_selWord {r r' : Raw} {o : VOp} {j k : Nat} (hk : k < 4) (lit : r'.lit = r.lit ||| o.selWord j) :
    r'.sel k = r.sel k ||| if j = k then o.sel else 0 := by
  rw [Raw.sel, lit, BitVec.extractLsb'_or, slice_selWord hk]
  rfl

theorem sel_opD {k : Nat} (hk : k < 4) (r : Raw) (o : VOp) : (r.opD o).sel k = r.sel k ||| if 0 = k then o.sel else 0 :=
  sel_or_selWord hk rfl
theorem sel_opA {k : Nat} (hk : k < 4) (r : Raw) (o : VOp) : (r.opA o).sel k = r.sel k ||| if 1 = k then o.sel else 0 :=
  sel_or_selWord hk rfl
theorem sel_opB {k : Nat} (hk : k < 4) (r : Raw) (o : VOp) : (r.opB o).sel k = r.sel k ||| if 2 = k then o.sel else 0 :=
  sel_or_selWord hk rfl
theorem sel_opC {k : Nat} (hk : k < 4) (r : Raw) (o : VOp) : (r.opC o).sel k = r.sel k ||| if 3 = k then o.sel else 0 :=
  sel_or_selWord hk rfl
@[simp] theorem sel_raw (h : Hdr) (op : BitVec 7) (m : BitVec 2) (k : Nat) : (h.raw op m).sel k = 0 :=
  BitVec.extractLsb'_zero
@[simp] theorem sel_x (r : Raw) (x : BitVec 6) (k : Nat) : (r.x x).sel k = r.sel k := rfl

/-- The selector of source B. -/
def SrcB.sel : SrcB → BitVec 16
  | .vec o => o.sel
  | .sca _ | .imm _ => 0

theorem sel_srcE {k : Nat} (hk : k < 4) (r : Raw) (i j : Nat) (b : SrcB) :
    (r.srcE i j b).sel k = r.sel k ||| if 2 = k then b.sel else 0 := by
  cases b with
  | vec o => exact sel_opB hk r o
  | sca n | imm w => exact (by simp : r.sel k = r.sel k ||| if 2 = k then 0 else 0)

/-- The raw instruction of the lane mould (R128), its source B last. -/
def mouldRaw (h : Hdr) (op : BitVec 7) (m : BitVec 2) (x : BitVec 6) (d a : VOp) (b : SrcB) : Raw :=
  ((((h.raw op m).opD d).opA a).x x).srcE 0 2 b

section
variable (h : Hdr) (op : BitVec 7) (m : BitVec 2) (x : BitVec 6) (d a : VOp) (b : SrcB)

@[simp] theorem mouldRaw_op : (mouldRaw h op m x d a b).op = op := by cases b <;> rfl
@[simp] theorem mouldRaw_m : (mouldRaw h op m x d a b).m = m := by cases b <;> rfl
@[simp] theorem mouldRaw_sc : (mouldRaw h op m x d a b).sc = 0 := by cases b <;> rfl
@[simp] theorem mouldRaw_c : (mouldRaw h op m x d a b).c = 0 := by cases b <;> rfl
@[simp] theorem mouldRaw_hdr : (mouldRaw h op m x d a b).hdr = h := by cases b <;> exact hdr_eq rfl rfl rfl
@[simp] theorem mouldRaw_dn : (mouldRaw h op m x d a b).dn = d.num := by cases b <;> exact number_halves _
@[simp] theorem mouldRaw_an : (mouldRaw h op m x d a b).an = a.num := by cases b <;> exact number_halves _

theorem mouldRaw_sel {k : Nat} (hk : k < 4) : (mouldRaw h op m x d a b).sel k =
    if k = 0 then d.sel else if k = 1 then a.sel else if k = 2 then b.sel else 0 := by
  rw [mouldRaw, sel_srcE hk, sel_x, sel_opA hk, sel_opD hk, sel_raw]
  interval_cases k <;> simp

end

/-- Fields that read as the first two operands and the bits of the lane mould, where an indexed operand is accepted if
`ok`. -/
structure Raw.Two (r : Raw) (h : Hdr) (ok : Bool) (x : BitVec 6) (d a : VOp) : Prop where
  hdr : r.hdr = h
  sc : r.sc = 0
  dst : r.vop 0 r.dn ok = d
  dstErrs : r.vopErrs 0 r.dn ok = []
  fst : r.vop 1 r.an ok = a
  fstErrs : r.vopErrs 1 r.an ok = []
  sat : r.satB = x[1]
  sf : r.sfB = x[3]
  xhi : r.xhi = x.extractLsb' 4 2

/-- Fields that read as the operands of the lane mould, source B among them. -/
structure Raw.Mould (r : Raw) (h : Hdr) (ok : Bool) (x : BitVec 6) (d a : VOp) (b : SrcB) : Prop extends
    r.Two h ok x d a where
  src : r.srcB ok = b
  srcErrs : r.srcErrs ok = []

theorem mouldRaw_src {h : Hdr} {op : BitVec 7} {m : BitVec 2} {x : BitVec 6} {d a : VOp} {b : SrcB} {ok : Bool}
    (im : x[0] = false) (sb : x[2] = false) (fits : b.Fits ok h.len) :
    let r := mouldRaw h op m x d a b
    r.srcB ok = b ∧ r.srcErrs ok = [] ∧ r.satB = x[1] ∧ r.sfB = x[3] ∧ r.xhi = x.extractLsb' 4 2 := by
  have hdr := mouldRaw_hdr h op m x d a b
  have len := congrArg Hdr.len hdr
  have sel : (mouldRaw h op m x d a b).sel 2 = b.sel := mouldRaw_sel h op m x d a b (by decide)
  change (mouldRaw h op m x d a b).len = h.len at len
  have noX : (0 : BitVec 6) ||| x = x := BitVec.zero_or
  cases b with
  | vec o =>
    have bn : (mouldRaw h op m x d a (.vec o)).bn = o.num := number_halves _
    have xop : (mouldRaw h op m x d a (.vec o)).xop = x := noX
    have imm : (mouldRaw h op m x d a (.vec o)).imm = 0 := rfl
    rw [← len] at fits
    simp [Raw.srcB, Raw.srcErrs, Raw.imb, Raw.sbB, Raw.satB, Raw.sfB, Raw.xhi, Raw.noImm, xop, im, sb, bn, imm,
      vop_eq sel fits, vopErrs_eq sel fits]
  | sca n =>
    have bn : (mouldRaw h op m x d a (.sca n)).bn = n := number_halves _
    have xop : (mouldRaw h op m x d a (.sca n)).xop = x ||| 4 := congrArg (· ||| 4#6) noX
    have imm : (mouldRaw h op m x d a (.sca n)).imm = 0 := rfl
    simp [Raw.srcB, Raw.srcErrs, Raw.imb, Raw.sbB, Raw.satB, Raw.sfB, Raw.xhi, Raw.noImm, xop, im, bn, imm,
      vopErrs_zero sel, BitVec.extractLsb'_or]
  | imm w =>
    have bn : (mouldRaw h op m x d a (.imm w)).bn = 0 :=
      (by decide : (0 : BitVec 4) ++ (0 : BitVec 6) = (0 : BitVec 10))
    have xop : (mouldRaw h op m x d a (.imm w)).xop = x ||| 1 := congrArg (· ||| 1#6) noX
    have imm : (mouldRaw h op m x d a (.imm w)).imm = w := rfl
    simp [Raw.srcB, Raw.srcErrs, Raw.imb, Raw.sbB, Raw.satB, Raw.sfB, Raw.xhi, xop, sb, bn, imm,
      vopErrs_zero sel, BitVec.extractLsb'_or]

theorem mouldRaw_mould {h : Hdr} {op : BitVec 7} {m : BitVec 2} {x : BitVec 6} {d a : VOp} {b : SrcB} {ok : Bool}
    (im : x[0] = false) (sb : x[2] = false) (fd : d.Fits ok h.len) (fa : a.Fits ok h.len)
    (fb : b.Fits ok h.len) : (mouldRaw h op m x d a b).Mould h ok x d a b := by
  have hdr := mouldRaw_hdr h op m x d a b
  have len : (mouldRaw h op m x d a b).len = h.len := congrArg Hdr.len hdr
  obtain ⟨src, srcErrs, sat, sf, xhi⟩ := mouldRaw_src (op := op) (m := m) (d := d) (a := a) im sb fb
  have sel0 : (mouldRaw h op m x d a b).sel 0 = d.sel := mouldRaw_sel h op m x d a b (by decide)
  have sel1 : (mouldRaw h op m x d a b).sel 1 = a.sel := mouldRaw_sel h op m x d a b (by decide)
  rw [← len] at fd fa
  exact
    { hdr, src, srcErrs, sat, sf, xhi, sc := mouldRaw_sc ..
      dst := by rw [mouldRaw_dn]; exact vop_eq sel0 fd
      dstErrs := by rw [mouldRaw_dn]; exact vopErrs_eq sel0 fd
      fst := by rw [mouldRaw_an]; exact vop_eq sel1 fa
      fstErrs := by rw [mouldRaw_an]; exact vopErrs_eq sel1 fa }

theorem vop_congr {r r' : Raw} {k : Nat} {n : BitVec 10} {ok : Bool} (len : r'.len = r.len) (sel : r'.sel k = r.sel k) :
    r'.vop k n ok = r.vop k n ok := by
  rw [Raw.vop, Raw.vop, len, sel]

theorem vopErrs_congr {r r' : Raw} {k : Nat} {n : BitVec 10} {ok : Bool} (len : r'.len = r.len)
    (sel : r'.sel k = r.sel k) :
    r'.vopErrs k n ok = r.vopErrs k n ok := by
  rw [Raw.vopErrs, Raw.vopErrs, len, sel]

/-- A third source (R128) leaves the other operands as they read. -/
theorem Raw.Mould.opC {r : Raw} {h : Hdr} {ok : Bool} {x : BitVec 6} {d a : VOp} {b : SrcB} (m : r.Mould h ok x d a b)
    (c : VOp) : (r.opC c).Mould h ok x d a b := by
  have sel (k : Nat) (hk : k < 3) : (r.opC c).sel k = r.sel k := by
    rw [sel_opC (by omega), if_neg (by omega)]
    exact BitVec.or_zero
  have vop (k : Nat) (hk : k < 3) (n : BitVec 10) (ok : Bool) : (r.opC c).vop k n ok = r.vop k n ok :=
    vop_congr rfl (sel k hk)
  have vopErrs (k : Nat) (hk : k < 3) (n : BitVec 10) (ok : Bool) : (r.opC c).vopErrs k n ok = r.vopErrs k n ok :=
    vopErrs_congr rfl (sel k hk)
  have src : (r.opC c).srcB ok = r.srcB ok := by
    rw [Raw.srcB, vop 2 (by decide)]
    rfl
  have srcErrs : (r.opC c).srcErrs ok = r.srcErrs ok := by
    rw [Raw.srcErrs, vopErrs 2 (by decide)]
    rfl
  exact ⟨⟨m.hdr, m.sc, (vop 0 (by decide) _ _).trans m.dst, (vopErrs 0 (by decide) _ _).trans m.dstErrs,
    (vop 1 (by decide) _ _).trans m.fst, (vopErrs 1 (by decide) _ _).trans m.fstErrs, m.sat, m.sf,
    m.xhi⟩, src.trans m.src, srcErrs.trans m.srcErrs⟩

theorem mouldRaw_blank {h : Hdr} {op : BitVec 7} {m : BitVec 2} {x : BitVec 6} {d a : VOp} {b : SrcB} {ok : Bool}
    (short : h.len.isExt = false) (x0 : x = 0) (fd : d.Fits ok h.len) (fa : a.Fits ok h.len)
    (fb : b.Fits ok h.len) : (mouldRaw h op m x d a b).blank = true := by
  cases b with
  | sca n | imm w => exact absurd (short.symm.trans fb) (by decide)
  | vec o =>
    have hd := fd.high short
    have ha := fa.high short
    have hb := VOp.Fits.high fb short
    simp [Raw.blank, Raw.noX, Raw.noSc, Raw.noC, Raw.noHi, Raw.noImm, mouldRaw, Raw.srcE, Raw.opB, Raw.opA, Raw.opD,
      Raw.setD, Raw.setA, Raw.setBn, Raw.x, Hdr.raw, x0, hd, ha, hb]

theorem mouldRaw_lit {h : Hdr} {op : BitVec 7} {m : BitVec 2} {x : BitVec 6} {d a : VOp} {b : SrcB} {ok : Bool}
    (noLit : h.len.isLit = false) (fd : d.Fits ok h.len) (fa : a.Fits ok h.len)
    (fb : b.Fits ok h.len) : (mouldRaw h op m x d a b).lit = 0 := by
  cases b with
  | sca n | imm w =>
    simp [mouldRaw, Raw.srcE, Raw.opA, Raw.opD, Raw.setD, Raw.setA, Raw.setBn, Raw.x, Hdr.raw, fd.selWord noLit,
      fa.selWord noLit]
  | vec o =>
    have fo : o.Fits ok h.len := fb
    simp [mouldRaw, Raw.srcE, Raw.opB, Raw.opA, Raw.opD, Raw.setD, Raw.setA, Raw.setBn, Raw.x, Hdr.raw,
      fd.selWord noLit, fa.selWord noLit, fo.selWord noLit]

@[simp] theorem ity_code (ty : ITy) : ITy.ofCode ty.code = ty := by cases ty <;> rfl

/-- The XOP bits of .sat and the scalar form. -/
def aluBits (sat sf : Bool) : BitVec 6 := bit1 sat 1 ||| bit1 sf 3

theorem aluBits_fields (sat sf : Bool) : (aluBits sat sf)[0] = false ∧ (aluBits sat sf)[1] = sat ∧
    (aluBits sat sf)[2] = false ∧ (aluBits sat sf)[3] = sf ∧ (aluBits sat sf).extractLsb' 4 2 = 0 := by
  cases sat <;> cases sf <;> decide

/-- What the check of a binary integer instruction says of its operands. -/
theorem Alu.fits {o : Alu} {h : Hdr} {sat : Bool} (wf : o.wf h sat = true)
    (scalar : scalarOk o.sf ([o.d, o.a] ++ srcOps o.b) = true)
    (uses : ∀ u ∈ o.uses, u.Ok h.len) : o.d.Fits (single o.ty o.sf) h.len ∧ o.a.Fits (single o.ty o.sf) h.len ∧
      o.b.Fits (single o.ty o.sf) h.len := by
  simp only [Alu.wf, Bool.and_eq_true, plain_iff] at wf
  obtain ⟨⟨-, plain⟩, -⟩ := wf
  simp only [Alu.uses, List.cons_append, List.nil_append, List.forall_mem_cons] at uses
  obtain ⟨ud, ua, ub⟩ := uses
  simp only [scalarOk, List.cons_append, List.nil_append, List.all_cons, Bool.or_eq_true, Bool.and_eq_true] at scalar
  refine ⟨mouldUse_fits ud ?_, mouldUse_fits ua ?_, srcUse_fits ub ?_ fun short => (plain short).2⟩
  · simp only [scalarOk, List.all_cons, Bool.or_eq_true, Bool.and_eq_true]
    exact scalar.imp_right fun s => ⟨s.1, rfl⟩
  · simp only [scalarOk, List.all_cons, Bool.or_eq_true, Bool.and_eq_true]
    exact scalar.imp_right fun s => ⟨s.2.1, rfl⟩
  · simp only [scalarOk, Bool.or_eq_true]
    exact scalar.imp_right fun s => s.2.2

theorem Alu.bits_short {o : Alu} {h : Hdr} {sat : Bool} (wf : o.wf h sat = true) (short : h.len.isExt = false) :
    aluBits o.sat o.sf = 0 := by
  simp only [Alu.wf, Bool.and_eq_true, plain_iff] at wf
  obtain ⟨⟨-, plain⟩, -⟩ := wf
  obtain ⟨⟨hsat, hsf⟩, -⟩ := plain short
  simp only [Bool.not_eq_true'] at hsat hsf
  rw [hsat, hsf]
  decide

theorem Alu.mould {o : Alu} {h : Hdr} {sat : Bool} (op : BitVec 7) (wf : o.wf h sat = true)
    (scalar : scalarOk o.sf ([o.d, o.a] ++ srcOps o.b) = true) (uses : ∀ u ∈ o.uses, u.Ok h.len) :
    (o.raw h op).Mould h (single o.ty o.sf) (aluBits o.sat o.sf) o.d o.a o.b := by
  obtain ⟨fd, fa, fb⟩ := Alu.fits wf scalar uses
  obtain ⟨im, -, sb, -⟩ := aluBits_fields o.sat o.sf
  exact mouldRaw_mould im sb fd fa fb

theorem Alu.sat_of_wf {o : Alu} {h : Hdr} {sat : Bool} (wf : o.wf h sat = true) : (o.sat && !sat) = false := by
  simp only [Alu.wf, Bool.and_eq_true] at wf
  cases hs : sat <;> simp_all

/-- A raw instruction of the mould with the bits of `o` reads as `o`. -/
theorem alu_eq {r : Raw} {h : Hdr} {o : Alu} (m : r.Mould h (single o.ty o.sf) (aluBits o.sat o.sf) o.d o.a o.b)
    (ty : r.ity = o.ty) : r.alu = o := by
  obtain ⟨-, sat, -, sf, -⟩ := aluBits_fields o.sat o.sf
  simp only [Raw.alu, ty, m.sf, sf, m.dst, m.fst, m.src, m.sat, sat]

theorem aluErrs_nil {r : Raw} {h : Hdr} {o : Alu} {sat : Bool}
    (m : r.Two h (single o.ty o.sf) (aluBits o.sat o.sf) o.d o.a) (ty : r.ity = o.ty)
    (wf : o.wf h sat = true) : r.aluErrs sat = [] := by
  obtain ⟨-, hsat, -, sf, hi⟩ := aluBits_fields o.sat o.sf
  have sat_ok := Alu.sat_of_wf wf
  simp [Raw.aluErrs, ty, m.sf, sf, m.dstErrs, m.fstErrs, m.xhi, hi, m.sat, hsat, sat_ok, Raw.noSc, m.sc]

theorem hdr_of_alu {o : Alu} {h : Hdr} {sat : Bool} (wf : o.wf h sat = true) : h.wf allLens = true := by
  simp only [Alu.wf, Bool.and_eq_true] at wf
  exact wf.1.1

theorem bin_reads {h : Hdr} {o : Alu} {op : BitVec 7} {sat : Bool} {mk : Hdr → Alu → Instr}
    (dispatch : (o.raw h op).decode = (o.raw h op).bin sat mk) (mkUses : (mk h o).uses = o.uses)
    (formOk : (o.wf h sat && scalarOk o.sf ([o.d, o.a] ++ srcOps o.b)) = true)
    (uses : ∀ u ∈ (mk h o).uses, u.Ok h.len) : (o.raw h op).Reads (mk h o) := by
  simp only [Bool.and_eq_true] at formOk
  obtain ⟨wf, scalar⟩ := formOk
  rw [mkUses] at uses
  have m := Alu.mould op wf scalar uses
  obtain ⟨fd, fa, fb⟩ := Alu.fits wf scalar uses
  obtain ⟨-, -, -, sf, -⟩ := aluBits_fields o.sat o.sf
  have ty : (o.raw h op).ity = o.ty := (congrArg ITy.ofCode (mouldRaw_m ..)).trans (ity_code o.ty)
  have c : (o.raw h op).c = 0 := mouldRaw_c ..
  have sel3 : (o.raw h op).sel 3 = 0 := mouldRaw_sel h op _ _ _ _ _ (by decide)
  exact .of_entry (Raw.bin · sat mk) dispatch rfl (by rw [m.hdr, alu_eq m ty]) m.hdr (hdr_of_alu wf) (mkUses ▸ uses) rfl
    (by rw [m.sc]; decide)
    (by simp [aluErrs_nil m.toTwo ty wf, ty, m.sf, sf, m.srcErrs, Raw.noC, c, vopErrs_zero sel3])
    (fun short => mouldRaw_blank short (Alu.bits_short wf short) fd fa fb)
    (fun noLit => mouldRaw_lit noLit fd fa fb)

theorem Alu.raw_op (o : Alu) (h : Hdr) (op : BitVec 7) : (o.raw h op).op = op := mouldRaw_op ..

end Sys2Proof
end

section
/-! SUPPORT. The words of the control instructions (R97 to R106). -/

namespace Sys2Proof

/-! ### Fields of a raw instruction that is written out -/

@[simp] theorem noX_eq (r : Raw) : r.noX = (r.xop == 0) := rfl
@[simp] theorem noSc_eq (r : Raw) : r.noSc = (r.sc == 0) := rfl
@[simp] theorem noC_eq (r : Raw) : r.noC = (r.c == 0) := rfl
@[simp] theorem noHi_eq (r : Raw) : r.noHi = (r.dhi == 0 && r.ahi == 0 && r.bhi == 0) := rfl
@[simp] theorem noImm_eq (r : Raw) : r.noImm = (r.imm == 0) := rfl
@[simp] theorem noGuard_eq (r : Raw) : r.noGuard = (r.p == 7) := rfl
@[simp] theorem isExt_eq (r : Raw) : r.isExt = r.len.isExt := rfl

section
variable (h : Hdr) (len : Len) (m : BitVec 2) (p : BitVec 3) (neg : Bool) (b a d x : BitVec 6) (op : BitVec 7)
    (sc : BitVec 3) (c : BitVec 10)
  (bhi ahi dhi : BitVec 4) (imm : Word) (lit : DWord)

@[simp] theorem len_mk : Raw.len ⟨len.code, m, p, b, a, d, op, x, sc, neg, c, bhi, ahi, dhi, imm, lit⟩ = len := by
  cases len <;> rfl

@[simp] theorem hdr_mk : Raw.hdr ⟨len.code, m, p, b, a, d, op, x, sc, neg, c, bhi, ahi, dhi, imm, lit⟩ = ⟨len, p, neg⟩ :=
  hdr_eq rfl rfl rfl

end

theorem Raw.Reads.of_fields {r : Raw} {h : Hdr} {lens : List Len} {mOk : Bool} {errs : List Nat} {i i' : Instr}
    (form : Raw → Dec) (wf : h.wf lens = true) (uses : ∀ u ∈ i.uses, u.Ok h.len) (dispatch : r.decode = form r)
    (decodes : form r = r.entry lens mOk errs i')
    (fields : r.hdr = h ∧ i' = i ∧ mOk = true ∧ r.sc.toNat < 6 ∧ errs = [] ∧ (h.len.isExt = false → r.blank = true) ∧
      (h.len.isLit = false → r.lit = 0)) : r.Reads i := by
  obtain ⟨hdr, same, m, sc, none, short, noLit⟩ := fields
  exact .of_entry form dispatch decodes same hdr wf uses m sc none short noLit

/-! ### Control -/

@[simp] theorem cond_code (c : Cond) : Cond.ofCode c.code = c := by cases c <;> rfl
@[simp] theorem cond_code_ne (c : Cond) : ¬ c.code = 3#2 := by cases c <;> decide

/-- A displacement of a short form is its field, sign-extended and times 4 (R100). -/
theorem disp_slice {d : Word} {w : Nat} (hw : w = 18 ∨ w = 12) (four : d.toNat % 4 = 0)
    (low : -(2 ^ (w + 1) : Int) ≤ d.toInt)
    (high : d.toInt < 2 ^ (w + 1)) : (d.extractLsb' 2 w).signExtend 32 <<< 2 = d := by
  apply BitVec.eq_of_toNat_eq
  simp only [BitVec.toNat_shiftLeft, BitVec.toNat_signExtend, BitVec.toNat_setWidth, BitVec.extractLsb'_toNat,
      BitVec.msb_eq_decide,
    Nat.shiftRight_eq_div_pow, Nat.shiftLeft_eq, BitVec.toInt_eq_toNat_cond] at *
  have := d.isLt
  rcases hw with rfl | rfl <;> simp at * <;> split at low <;> split <;> omega

section
variable {h : Hdr}

theorem plain0_reads {mk : Hdr → Instr} {op : BitVec 7} (decodes : (h.raw op 0).decode = (h.raw op 0).plain0 mk)
    (wf : h.wf [.base] = true) (uses : ∀ u ∈ (mk h).uses, u.Ok h.len) : (h.raw op 0).Reads (mk h) :=
  .of_fields (Raw.plain0 · mk) wf uses decodes rfl (by simp [Hdr.raw, Raw.blank])

theorem bra_slices (d : Word) : d.extractLsb' 14 6 ++ d.extractLsb' 8 6 ++ d.extractLsb' 2 6 = d.extractLsb' 2 18 := by
  apply BitVec.eq_of_getLsbD_eq
  intro i hi
  simp only [BitVec.getLsbD_append, BitVec.getLsbD_extractLsb']
  grind

theorem call_slices (d : Word) : d.extractLsb' 8 6 ++ d.extractLsb' 2 6 = d.extractLsb' 2 12 := by
  apply BitVec.eq_of_getLsbD_eq
  intro i hi
  simp only [BitVec.getLsbD_append, BitVec.getLsbD_extractLsb']
  grind

theorem low_two_eq_zero {d : Word} (four : d.toNat % 4 = 0) : d.setWidth 2 = 0 :=
  BitVec.eq_of_toNat_eq (by simpa using four)

theorem bra_reads {c : Cond} {d : Word} (formOk : (h.wf shortLens && dispOk h 18 d) = true)
    (uses : ∀ u ∈ (Instr.bra h c d).uses, u.Ok h.len) : ∃ r, (Instr.bra h c d).raw = some r ∧ r.Reads (.bra h c d) := by
  simp only [dispOk, Bool.and_eq_true, Bool.or_eq_true, decide_eq_true_eq] at formOk
  obtain ⟨wf, four, range⟩ := formOk
  have low := low_two_eq_zero four
  refine ⟨_, rfl, ?_⟩
  cases ext : h.len.isExt with
  | true => exact .of_fields Raw.bra wf uses rfl rfl (by simp [Hdr.raw, Raw.branchZ, ext, low])
  | false =>
    obtain ⟨lo, hi⟩ := range.resolve_left (by simp [ext])
    have disp := disp_slice (.inl rfl) four lo hi
    exact .of_fields Raw.bra wf uses rfl rfl (by simp [Hdr.raw, Raw.branchZ, Raw.blank, ext, bra_slices, disp])

theorem brx_reads {c : Cond} {a : BitVec 6} {off : Word} (formOk : (h.wf shortLens && plain h (off == 0)) = true)
    (uses : ∀ u ∈ (Instr.brx h c a off).uses, u.Ok h.len) : Raw.Reads { h.raw 0x03 c.code with a := a, imm := off }
    (.brx h c a off) := by
  simp only [Bool.and_eq_true, plain_iff] at formOk
  exact .of_fields Raw.brx formOk.1 uses rfl rfl (by simpa [Hdr.raw, Raw.branchZ, Raw.blank] using formOk.2)

theorem call_reads {c : Cond} {d : BitVec 6} {disp : Word} (formOk : (h.wf shortLens && dispOk h 12 disp) = true)
    (uses : ∀ u ∈ (Instr.call h c d disp).uses, u.Ok h.len) :
    ∃ r, (Instr.call h c d disp).raw = some r ∧ r.Reads (.call h c d disp) := by
  simp only [dispOk, Bool.and_eq_true, Bool.or_eq_true, decide_eq_true_eq] at formOk
  obtain ⟨wf, four, range⟩ := formOk
  have low := low_two_eq_zero four
  refine ⟨_, rfl, ?_⟩
  cases ext : h.len.isExt with
  | true => exact .of_fields Raw.call wf uses rfl rfl (by simp [Hdr.raw, Raw.branchZ, ext, low])
  | false =>
    obtain ⟨lo, hi⟩ := range.resolve_left (by simp [ext])
    have disp := disp_slice (.inr rfl) four lo hi
    exact .of_fields Raw.call wf uses rfl rfl (by simp [Hdr.raw, Raw.branchZ, Raw.blank, ext, call_slices, disp])

theorem ret_reads {c : Cond} {a : BitVec 6} (wf : h.wf shortLens = true)
    (uses : ∀ u ∈ (Instr.ret h c a).uses, u.Ok h.len) :
    Raw.Reads { h.raw 0x05 c.code with a := a } (.ret h c a) :=
  .of_fields Raw.ret wf uses rfl rfl (by simp [Hdr.raw, Raw.branchZ, Raw.blank])

theorem noGuard_wf {len : Len} {lens : List Len} (mem : lens.contains len = true) : (noGuard len).wf lens = true := by
  simp_all [Hdr.wf, noGuard]

theorem mif_reads {inv : Bool} {d : BitVec 6} {a : BitVec 3} (uses : ∀ u ∈ (Instr.mif inv d a).uses, u.Ok .base) :
    Raw.Reads { (noGuard .base).raw 0x06 (if inv then 1 else 0) with d := d, a := a.setWidth 6 } (.mif inv d a) := by
  refine .of_fields Raw.mif (h := noGuard .base) rfl uses rfl rfl ?_
  have lt := a.isLt
  have mod : a.toNat % 64 < 8 := by omega
  cases inv <;> simp [noGuard, Hdr.raw, Raw.blank, mod]

theorem melse_reads {a : BitVec 6} (uses : ∀ u ∈ (Instr.melse a).uses, u.Ok .base) :
    Raw.Reads { (noGuard .base).raw 0x07 0 with a := a } (.melse a) :=
  .of_fields Raw.melse (h := noGuard .base) rfl uses rfl rfl (by simp [noGuard, Hdr.raw, Raw.blank])

theorem mend_reads {a : BitVec 6} (uses : ∀ u ∈ (Instr.mend a).uses, u.Ok .base) :
    Raw.Reads { (noGuard .base).raw 0x08 0 with a := a } (.mend a) :=
  .of_fields Raw.mend (h := noGuard .base) rfl uses rfl rfl (by simp [noGuard, Hdr.raw, Raw.blank])

/-- RGN with no working set, as it decodes (R103). -/
theorem rgn_of_none {r : Raw} (x : r.xop.getLsbD 0 = true) : r.rgn = r.entry allLens true
    (err (r.xop.extractLsb' 1 5 != (0 : BitVec 5)) 5 ++ zeros
      ([r.noGuard, r.d == 0, r.noSc, r.noC, r.dhi == 0, r.bhi == 0,
      r.noImm] ++ [r.an == 0, r.b == 0, r.lit == 0])) (.rgn r.len (r.m.getLsbD 0) (r.m.getLsbD 1) .none) :=
  if_pos x

/-- The live mask of RGN: the literal, or all of the working set. -/
def Raw.liveMask (r : Raw) : DWord := if r.len.isLit then r.lit else BitVec.ofNat 64 (2 ^ (r.b.toNat + 1) - 1)

/-- RGN with a working set, as it decodes (R103). -/
theorem rgn_of_some {r : Raw} (x : r.xop.getLsbD 0 = false) : r.rgn = r.entry allLens true
    (err (r.xop.extractLsb' 1 5 != (0 : BitVec 5)) 5 ++ zeros
      ([r.noGuard, r.d == 0, r.noSc, r.noC, r.dhi == 0, r.bhi == 0,
      r.noImm] ++ [decide (r.liveMask.toNat < 2 ^ (r.b.toNat + 1))]) ++ err (decide (640 ≤ r.an.toNat + r.b.toNat)) 8)
    (.rgn r.len (r.m.getLsbD 0) (r.m.getLsbD 1) (.some r.an r.b r.liveMask)) :=
  if_neg (ne_true_of_eq_false x)

theorem rgn_none_reads {len : Len} {idem conv : Bool} (ext : len.isExt = true)
    (uses : ∀ u ∈ (Instr.rgn len idem conv .none).uses, u.Ok len) :
    Raw.Reads { (noGuard len).raw 0x09 (BitVec.ofBool conv ++ BitVec.ofBool idem) with xop := 1 }
      (.rgn len idem conv .none) := by
  have wf : (noGuard len).wf allLens = true := noGuard_wf (by cases len <;> rfl)
  refine .of_fields Raw.rgn wf uses rfl (rgn_of_none (by simp)) ?_
  cases idem <;> cases conv <;> simp [noGuard, Hdr.raw, Raw.an, ext]

theorem rgn_some_reads {len : Len} {idem conv : Bool} {vb : BitVec 10} {n1 : BitVec 6} {live : DWord}
    (formOk : (decide (vb.toNat + n1.toNat < 640) && if len.isLit then decide (live.toNat < 2 ^ (n1.toNat + 1))
      else decide (live.toNat = 2 ^ (n1.toNat + 1) - 1)) = true)
    (uses : ∀ u ∈ (Instr.rgn len idem conv (.some vb n1 live)).uses, u.Ok len) :
    Raw.Reads { ((noGuard len).raw 0x09 (BitVec.ofBool conv ++ BitVec.ofBool idem)).setA vb with
      b := n1, lit := if len.isLit then live else 0 } (.rgn len idem conv (.some vb n1 live)) := by
  have wf : (noGuard len).wf allLens = true := noGuard_wf (by cases len <;> rfl)
  have ub : (vUse (.reg vb) (n1.toNat + 1) 1 false).Ok len := uses _ (.head _)
  have high := vUse_high ub
  simp only [Bool.and_eq_true, decide_eq_true_eq] at formOk
  obtain ⟨lt, mask⟩ := formOk
  have pos : 0 < 2 ^ (n1.toNat + 1) := by positivity
  refine .of_fields Raw.rgn wf uses rfl (rgn_of_some (by simp [Hdr.raw, Raw.setA])) ?_
  cases lit : len.isLit with
  | true =>
    have mask : live.toNat < 2 ^ (n1.toNat + 1) := by simpa [lit] using mask
    cases idem <;> cases conv <;> simpa [noGuard, Hdr.raw, Raw.setA, Raw.an, lit, Raw.blank, Raw.liveMask, mask,
        lt] using high
  | false =>
    have mask : live.toNat = 2 ^ (n1.toNat + 1) - 1 := by simpa [lit] using mask
    have same : BitVec.ofNat 64 (2 ^ (n1.toNat + 1) - 1) = live := by rw [← mask]; simp
    cases idem <;> cases conv <;>
      simpa [noGuard, Hdr.raw, Raw.setA, Raw.an, lit, Raw.blank, Raw.liveMask, same, mask, lt, pos] using high

theorem prioPassImm_reads {t : BitVec 6} (wf : h.wf [.base] = true)
    (uses : ∀ u ∈ (Instr.prioPassImm h t).uses, u.Ok h.len) : Raw.Reads { h.raw 0x0B 0 with b := t }
    (.prioPassImm h t) :=
  .of_fields Raw.prio wf uses rfl rfl (by simp [Hdr.raw, Raw.blank])

theorem prioPassReg_reads {a : BitVec 6} (wf : h.wf [.base] = true)
    (uses : ∀ u ∈ (Instr.prioPassReg h a).uses, u.Ok h.len) : Raw.Reads { h.raw 0x0B 1 with a := a }
    (.prioPassReg h a) :=
  .of_fields Raw.prio wf uses rfl rfl (by simp [Hdr.raw, Raw.blank])

theorem spawn_reads {d a spool : BitVec 6} (wf : h.wf [.base] = true)
    (uses : ∀ u ∈ (Instr.spawn h d a spool).uses, u.Ok h.len) :
    Raw.Reads { h.raw 0x0C 0 with d := d, a := a, b := spool } (.spawn h d a spool) :=
  .of_fields Raw.spawn wf uses rfl rfl (by simp [Hdr.raw, Raw.blank])

/-- The scope that the fields of `scE` give back. -/
theorem scope_scE {r : Raw} {h : Hdr} {s : Scope} (hdr : r.hdr = h) (sc : r.sc = scE h s)
    (short : h.len.isExt = false → s = .team) : r.scope = s := by
  subst hdr
  change r.len.isExt = false → s = .team at short
  change r.sc = if r.len.isExt then s.code else 0 at sc
  cases ext : r.len.isExt <;> rw [ext] at sc short
  · simp [Raw.scope, ext, short]
  · simp only [Raw.scope, isExt_eq, ext, sc, if_true]
    cases s <;> rfl

theorem scE_lt (h : Hdr) (s : Scope) : (scE h s).toNat < 6 := by
  cases ext : h.len.isExt <;> cases s <;> simp [scE, ext, Scope.code]

theorem scE_short {h : Hdr} {s : Scope} (short : h.len.isExt = false) : scE h s = 0 := by
  simp [scE, short]

theorem icinv_reads {s : Scope} {a b : BitVec 6} (formOk : (h.wf shortLens && plain h (s == .team)) = true)
    (uses : ∀ u ∈ (Instr.icinv h s a b).uses, u.Ok h.len) :
    Raw.Reads { h.raw 0x0E 0 with a := a, b := b, sc := scE h s } (.icinv h s a b) := by
  simp only [Bool.and_eq_true, plain_iff, beq_iff_eq] at formOk
  obtain ⟨wf, team⟩ := formOk
  have scope : Raw.scope { h.raw 0x0E 0 with a := a, b := b, sc := scE h s } = s := scope_scE
    (hdr_eq rfl rfl rfl) rfl team
  refine .of_fields Raw.icinv wf uses rfl rfl ?_
  rw [scope]
  simpa [Hdr.raw, Raw.blank, scE_lt] using scE_short

end

end Sys2Proof
end

section
/-! SUPPORT. The words of the integer instructions, the moves and the special registers (R129 to R141). -/

namespace Sys2Proof

/-! ### The integer instructions (R131 to R137) -/

theorem ext_of_wf {h : Hdr} (wf : h.wf extLens = true) : h.len.isExt = true := by
  obtain ⟨mem, -⟩ := Hdr.wf_iff.mp wf
  revert mem
  cases h.len <;> decide

theorem wf_ext {h : Hdr} {lens : List Len} (wf : h.wf lens = true) (ext : h.len.isExt = true) : h.wf extLens = true := by
  obtain ⟨-, neg, guard⟩ := Hdr.wf_iff.mp wf
  refine Hdr.wf_iff.mpr ⟨?_, neg, guard⟩
  revert ext
  cases h.len <;> decide

/-- A raw instruction of the mould whose source B is not used. -/
theorem mouldRaw_noB (h : Hdr) (op : BitVec 7) (m : BitVec 2) (x : BitVec 6) (d a : VOp) :
    (((h.raw op m).opD d).opA a).x x = mouldRaw h op m x d a (.vec (.reg 0)) := by
  simp [mouldRaw, Raw.srcE, Raw.opB, Raw.opA, Raw.opD, Raw.setD, Raw.setA, Raw.setBn, Raw.x, Hdr.raw, VOp.num,
    VOp.selWord]

theorem mouldRaw_noB_fields (h : Hdr) (op : BitVec 7) (m : BitVec 2) (x : BitVec 6) (d a : VOp) :
    let r := mouldRaw h op m x d a (.vec (.reg 0))
    r.bn = 0 ∧ r.imm = 0 ∧ r.xop = x ∧ r.sel 2 = 0 ∧ r.sel 3 = 0 :=
  ⟨number_halves 0, rfl, BitVec.zero_or, mouldRaw_sel h op _ _ _ _ _ (by decide),
    mouldRaw_sel h op _ _ _ _ _ (by decide)⟩

/-- One-source operands, with the register 0 that their unused source B field would name. -/
def Alu1.two (o : Alu1) : Alu := { ty := o.ty, sat := o.sat, sf := o.sf, d := o.d, a := o.a, b := .vec (.reg 0) }

theorem Alu1.raw_two (o : Alu1) (h : Hdr) (op : BitVec 7) : o.raw h op = o.two.raw h op := mouldRaw_noB ..

theorem Alu1.two_uses {o : Alu1} {l : Len} (uses : ∀ u ∈ o.uses, u.Ok l) : ∀ u ∈ o.two.uses, u.Ok l := by
  have zero : ∀ u ∈ srcUse o.sf o.ty.regs (.vec (.reg 0)), u.Ok l := by
    cases o.sf <;> cases o.ty <;> simp [srcUse, vUse, Use.Ok, Use.legal, Use.aligned, Use.carried, ITy.regs]
  intro u mem
  exact (List.mem_append.mp mem).elim (uses u) (zero u)

theorem una_reads {h : Hdr} {o : Alu1} {op : BitVec 7} {mOk sat : Bool} {mk : Hdr → Alu1 → Instr}
    (dispatch : (o.raw h op).decode = (o.raw h op).una mOk sat mk) (mkUses : (mk h o).uses = o.uses)
    (m : mOk = true) (formOk : (o.wf h sat && scalarOk o.sf [o.d, o.a]) = true)
    (uses : ∀ u ∈ (mk h o).uses, u.Ok h.len) : (o.raw h op).Reads (mk h o) := by
  simp only [Bool.and_eq_true] at formOk
  obtain ⟨wf1, scalar1⟩ := formOk
  have wf : o.two.wf h sat = true := by simpa [Alu.wf, Alu1.wf, Alu1.two, SrcB.plain] using wf1
  have scalar : scalarOk o.two.sf ([o.two.d, o.two.a] ++ srcOps o.two.b) = true := by
    simpa [scalarOk, Alu1.two, srcOps] using scalar1
  rw [mkUses] at uses
  have uses2 := Alu1.two_uses uses
  rw [Alu1.raw_two] at dispatch ⊢
  have mould := Alu.mould op wf scalar uses2
  obtain ⟨fd, fa, fb⟩ := Alu.fits wf scalar uses2
  obtain ⟨bn, imm, xop, sel2, sel3⟩ := mouldRaw_noB_fields h op o.ty.code (aluBits o.sat o.sf) o.d o.a
  obtain ⟨im, sat_, sb, sf, -⟩ := aluBits_fields o.sat o.sf
  change (o.two.raw h op).bn = 0 at bn
  change (o.two.raw h op).imm = 0 at imm
  change (o.two.raw h op).xop = _ at xop
  have ty : (o.two.raw h op).ity = o.ty := (congrArg ITy.ofCode (mouldRaw_m ..)).trans (ity_code o.ty)
  have c : (o.two.raw h op).c = 0 := mouldRaw_c ..
  have alu : (o.two.raw h op).alu1 = o := by
    have two := alu_eq mould ty
    exact congrArg (fun p : Alu => (⟨p.ty, p.sat, p.sf, p.d, p.a⟩ : Alu1)) two
  exact .of_entry (Raw.una · mOk sat mk) dispatch rfl (by rw [mould.hdr, alu]) mould.hdr (hdr_of_alu wf)
    (mkUses ▸ uses) m
    (by rw [mould.sc]; decide)
    (by simp [aluErrs_nil mould.toTwo ty wf, Raw.imb, Raw.sbB, xop, im, sb, bn, imm, c, vopErrs_zero
      (r := o.two.raw h op) sel2,
      vopErrs_zero (r := o.two.raw h op) sel3])
    (fun short => mouldRaw_blank short (Alu.bits_short wf short) fd fa fb)
    (fun noLit => mouldRaw_lit noLit fd fa fb)

/-- A third source reads back. -/
theorem opC_third {r : Raw} {c : VOp} {ok : Bool} (sel : r.sel 3 = 0) (fits : c.Fits ok r.len) :
    (r.opC c).vop 3 (r.opC c).c ok = c ∧ (r.opC c).vopErrs 3 (r.opC c).c ok = [] := by
  have sel3 : (r.opC c).sel 3 = c.sel := by
    rw [sel_opC (by decide), sel, if_pos rfl]
    exact BitVec.zero_or
  exact ⟨vop_eq sel3 fits, vopErrs_eq sel3 fits⟩

theorem scalarOk_three {sf : Bool} {d a c : VOp} {os : List VOp} (scalar : scalarOk sf ([d, a, c] ++ os) = true) :
    scalarOk sf ([d, a] ++ os) = true ∧ scalarOk sf [c] = true := by
  cases sf with
  | false => exact ⟨rfl, rfl⟩
  | true =>
    simp only [scalarOk, List.cons_append, List.nil_append, List.all_cons, List.all_nil, Bool.not_true, Bool.false_or,
      Bool.and_eq_true, Bool.and_true] at scalar ⊢
    obtain ⟨d, a, c, os⟩ := scalar
    exact ⟨⟨d, a, os⟩, c⟩

theorem imad_reads {h : Hdr} {o : Alu} {c : VOp}
    (formOk : (o.wf h true && h.len.isExt && scalarOk o.sf ([o.d, o.a, c] ++ srcOps o.b)) = true)
    (uses : ∀ u ∈ (Instr.imad h o c).uses, u.Ok h.len) : ((o.raw h 0x15).opC c).Reads (.imad h o c) := by
  simp only [Bool.and_eq_true] at formOk
  obtain ⟨⟨wf, ext⟩, scalar3⟩ := formOk
  obtain ⟨scalar, scalarC⟩ := scalarOk_three scalar3
  have each : ∀ u ∈ o.uses ++ [mouldUse o.sf c o.ty.regs false], u.Ok h.len := uses
  obtain ⟨usesO, usesC⟩ := List.forall_mem_append.mp each
  have m0 := Alu.mould 0x15 wf scalar usesO
  have m := m0.opC c
  obtain ⟨fd, fa, fb⟩ := Alu.fits wf scalar usesO
  have fc : c.Fits (single o.ty o.sf) h.len := mouldUse_fits (usesC _ (.head _)) scalarC
  obtain ⟨-, -, -, sf, -⟩ := aluBits_fields o.sat o.sf
  have op : ((o.raw h 0x15).opC c).op = 0x15 := mouldRaw_op ..
  have ty : ((o.raw h 0x15).opC c).ity = o.ty := (congrArg ITy.ofCode (mouldRaw_m ..)).trans (ity_code o.ty)
  have sel3 : (o.raw h 0x15).sel 3 = 0 := mouldRaw_sel h _ _ _ _ _ _ (by decide)
  have len : (o.raw h 0x15).len = h.len := congrArg Hdr.len m0.hdr
  rw [← len] at fc
  obtain ⟨third, thirdErrs⟩ := opC_third sel3 fc
  refine .of_entry Raw.imad (by rw [Raw.decode, op]; rfl) rfl ?_ m.hdr (wf_ext (hdr_of_alu wf) ext) uses rfl
    (by rw [m.sc]; decide) ?_
    (fun short => absurd (ext.symm.trans short) (by decide)) (fun noLit => ?_)
  · rw [m.hdr, alu_eq m ty, ty, m.sf, sf]
    exact congrArg (Instr.imad h o) third
  · rw [aluErrs_nil m.toTwo ty wf, ty, m.sf, sf, m.srcErrs, thirdErrs]
    rfl
  · have lit : (o.raw h 0x15).lit = 0 := mouldRaw_lit noLit fd fa fb
    show (o.raw h 0x15).lit ||| c.selWord 3 = 0
    rw [lit, fc.selWord (len ▸ noLit)]
    rfl

/-! ### BFI, IADDC, SEL and the compares (R133, R135, R136) -/

def SrcB.isImm : SrcB → Bool
  | .imm _ => true
  | .vec _ | .sca _ => false

theorem mouldRaw_imb {h : Hdr} {op : BitVec 7} {m : BitVec 2} {x : BitVec 6} {d a : VOp} {b : SrcB}
    (im : x[0] = false) (reg : b.isImm = false) : (mouldRaw h op m x d a b).imb = false := by
  have noX : (0 : BitVec 6) ||| x = x := BitVec.zero_or
  cases b with
  | vec o =>
    have xop : (mouldRaw h op m x d a (.vec o)).xop = x := noX
    simp [Raw.imb, xop, im]
  | sca n =>
    have xop : (mouldRaw h op m x d a (.sca n)).xop = x ||| 4 := congrArg (· ||| 4#6) noX
    simp [Raw.imb, xop, im]
  | imm w => exact absurd reg.symm Bool.false_ne_true

/-- A register as source B, as BFI reads it. -/
theorem Raw.Mould.srcReg {r : Raw} {h : Hdr} {ok : Bool} {x : BitVec 6} {d a : VOp} {b : SrcB} (m : r.Mould h ok x d a b)
    (im : r.imb = false) : (if r.sbB then SrcB.sca r.bn else .vec (r.vop 2 r.bn ok)) = b ∧ r.noImm = true ∧
      r.vopErrs 2 r.bn (ok && !r.sbB) = [] := by
  have src := m.src
  have errs := m.srcErrs
  rw [Raw.srcB, im, if_neg Bool.false_ne_true] at src
  rw [Raw.srcErrs, im, if_neg Bool.false_ne_true] at errs
  simp only [Bool.not_false, Bool.and_true, List.append_eq_nil_iff, zeros_eq_nil, List.mem_singleton, forall_eq] at errs
  exact ⟨src, errs.1.1, errs.2⟩

theorem bfi_form {h : Hdr} {o : Alu} {ctl : Ctl} (formOk : (Instr.bfi h o ctl).formOk = true) :
    (o.wf h false && h.len.isExt && scalarOk o.sf ([o.d, o.a] ++ srcOps o.b)) = true ∧ o.b.isImm = false ∧
      ∀ c, ctl = .c c → scalarOk o.sf [c] = true := by
  obtain ⟨front, last⟩ := Bool.and_eq_true_iff.mp formOk
  refine ⟨front, ?_⟩
  obtain ⟨ty, sat, sf, d, a, b⟩ := o
  cases b with
  | imm w => exact absurd last Bool.false_ne_true
  | vec _ | sca _ =>
    refine ⟨rfl, fun c eq => ?_⟩
    subst eq
    exact last

/-- The bit that says IMM32 carries BFI's control leaves the mould's other operands. -/
theorem Raw.Two.immBit {r : Raw} {h : Hdr} {ok : Bool} {x : BitVec 6} {d a : VOp} (m : r.Two h ok x d a) (w : Word) :
    let r' : Raw := { r.x (bit1 true 0) with imm := w }
    r'.Two h ok x d a ∧ r'.imb = true ∧ r'.sbB = r.sbB := by
  have bits : let r' : Raw := { r.x (bit1 true 0) with imm := w }
      r'.imb = true ∧ r'.sbB = r.sbB ∧ r'.satB = x[1] ∧ r'.sfB = x[3] ∧ r'.xhi = x.extractLsb' 4 2 := by
    have sat : r.xop[1] = x[1] := by simpa [Raw.satB] using m.sat
    have sf : r.xop[3] = x[3] := by simpa [Raw.sfB] using m.sf
    have hi := m.xhi
    simp only [Raw.xhi] at hi
    simp [Raw.imb, Raw.sbB, Raw.satB, Raw.sfB, Raw.xhi, Raw.x, bit1, BitVec.extractLsb'_or, sat, sf, hi]
  obtain ⟨imb, sbB, sat, sf, hi⟩ := bits
  exact ⟨⟨m.hdr, m.sc, m.dst, m.dstErrs, m.fst, m.fstErrs, sat, sf, hi⟩, imb, sbB⟩

/-- BFI, where its operands and its control read back. -/
theorem bfi_reads_of {r : Raw} {h : Hdr} {o : Alu} {ctl : Ctl} (wf : o.wf h false = true) (ext : h.len.isExt = true)
    (uses : ∀ u ∈ (Instr.bfi h o ctl).uses, u.Ok h.len) (hdr : r.hdr = h) (op : r.op = 0x21) (sc : r.sc = 0)
    (operands : ({ ty := r.ity, sat := r.satB, sf := r.sfB, d := r.vop 0 r.dn (single r.ity r.sfB),
                   a := r.vop 1 r.an (single r.ity r.sfB),
                   b := if r.sbB then .sca r.bn else .vec (r.vop 2 r.bn (single r.ity r.sfB)) } : Alu) = o)
    (control : (if r.imb then Ctl.imm r.imm else .c (r.vop 3 r.c (single r.ity r.sfB))) = ctl)
    (aluErrs : r.aluErrs false = []) (srcErrs : r.vopErrs 2 r.bn (single r.ity r.sfB && !r.sbB) = [])
    (unused : (if r.imb then r.noC else r.noImm) = true)
    (ctlErrs : r.vopErrs 3 r.c (single r.ity r.sfB && !r.imb) = [])
    (noLit : h.len.isLit = false → r.lit = 0) : r.Reads (.bfi h o ctl) := by
  refine .of_entry Raw.bfi (by rw [Raw.decode, op]; rfl) rfl ?_ hdr (wf_ext (hdr_of_alu wf) ext) uses rfl
    (by rw [sc]; decide) ?_ (fun short => absurd (ext.symm.trans short) (by decide)) noLit
  · rw [hdr, operands, control]
  · rw [aluErrs, srcErrs, unused, ctlErrs]
    rfl

theorem bfi_reads {h : Hdr} {o : Alu} {ctl : Ctl} (formOk : (Instr.bfi h o ctl).formOk = true)
    (uses : ∀ u ∈ (Instr.bfi h o ctl).uses, u.Ok h.len) : ∃ r, (Instr.bfi h o ctl).raw = some r ∧ r.Reads
    (.bfi h o ctl) := by
  obtain ⟨front, reg, scalarC⟩ := bfi_form formOk
  simp only [Bool.and_eq_true] at front
  obtain ⟨⟨wf, ext⟩, scalar⟩ := front
  have usesO : ∀ u ∈ o.uses, u.Ok h.len := (List.forall_mem_append.mp uses).1
  have m0 := Alu.mould 0x21 wf scalar usesO
  obtain ⟨fd, fa, fb⟩ := Alu.fits wf scalar usesO
  obtain ⟨im, hsat, -, hsf, hhi⟩ := aluBits_fields o.sat o.sf
  have imb : (o.raw h 0x21).imb = false := mouldRaw_imb im reg
  have op : (o.raw h 0x21).op = 0x21 := mouldRaw_op ..
  have ty : (o.raw h 0x21).ity = o.ty := (congrArg ITy.ofCode (mouldRaw_m ..)).trans (ity_code o.ty)
  have sel3 : (o.raw h 0x21).sel 3 = 0 := mouldRaw_sel h _ _ _ _ _ _ (by decide)
  have c0 : (o.raw h 0x21).c = 0 := mouldRaw_c ..
  have len : (o.raw h 0x21).len = h.len := congrArg Hdr.len m0.hdr
  have lit0 (noLit : h.len.isLit = false) : (o.raw h 0x21).lit = 0 := mouldRaw_lit noLit fd fa fb
  refine ⟨_, rfl, ?_⟩
  cases ctl with
  | c v =>
    have usesC : (mouldUse o.sf v o.ty.regs false).Ok h.len := (List.forall_mem_append.mp uses).2 _ (.head _)
    have fc : v.Fits (single o.ty o.sf) h.len := mouldUse_fits usesC (scalarC v rfl)
    have m := m0.opC v
    rw [← len] at fc
    obtain ⟨third, thirdErrs⟩ := opC_third sel3 fc
    have imb : ((o.raw h 0x21).opC v).imb = false := imb
    have ty : ((o.raw h 0x21).opC v).ity = o.ty := ty
    obtain ⟨src, noImm, srcErrs⟩ := m.srcReg imb
    refine bfi_reads_of wf ext uses m.hdr op m.sc ?_ ?_ (aluErrs_nil m.toTwo ty wf) ?_ ?_ ?_ fun noLit => ?_
    · rw [ty, m.sf, hsf, m.dst, m.fst, src, m.sat, hsat]
    · rw [imb, ty, m.sf, hsf, third]
      rfl
    · rw [ty, m.sf, hsf, srcErrs]
    · rw [imb]
      exact noImm
    · rw [imb, ty, m.sf, hsf, Bool.not_false, Bool.and_true, thirdErrs]
    · show (o.raw h 0x21).lit ||| v.selWord 3 = 0
      rw [lit0 noLit, fc.selWord (len ▸ noLit)]
      rfl
  | imm w =>
    obtain ⟨src, -, srcErrs⟩ := m0.srcReg imb
    obtain ⟨m, imb', sbB⟩ := m0.immBit w
    have ty' : Raw.ity { (o.raw h 0x21).x (bit1 true 0) with imm := w } = o.ty := ty
    refine bfi_reads_of wf ext uses m.hdr op m.sc ?_ ?_ (aluErrs_nil m ty' wf) ?_ ?_ ?_ lit0
    · rw [ty', m.sf, hsf, m.dst, m.fst, sbB, m.sat, hsat]
      exact congrArg (fun b : SrcB => (⟨o.ty, o.sat, o.sf, o.d, o.a, b⟩ : Alu)) src
    · rw [imb']
      rfl
    · rw [ty', m.sf, hsf, sbB]
      exact srcErrs
    · rw [imb', if_pos rfl, noC_eq]
      exact beq_iff_eq.mpr c0
    · exact vopErrs_zero sel3

/-! ### IADDC and SEL (R133, R136) -/

theorem vSrc_fits {b : SrcB} {n : Nat} {l : Len} (ok : ∀ u ∈ srcUse false n b, u.Ok l)
    (plain : l.isExt = false → b.plain = true) : b.Fits (n == 1) l := by
  simpa using srcUse_fits ok rfl plain

/-- Field C (R52) is none of the mould's operands. -/
theorem Raw.Mould.setC {r : Raw} {h : Hdr} {ok : Bool} {x : BitVec 6} {d a : VOp} {b : SrcB} (m : r.Mould h ok x d a b)
    (c : BitVec 10) : Raw.Mould { r with c := c } h ok x d a b :=
  ⟨⟨m.hdr, m.sc, m.dst, m.dstErrs, m.fst, m.fstErrs, m.sat, m.sf, m.xhi⟩, m.src, m.srcErrs⟩

theorem carry_fields (po : BitVec 3) (cie : Bool) (pi : BitVec 3) :
    let c : BitVec 10 := (0 : BitVec 3) ++ po ++ BitVec.ofBool cie ++ pi
    c.extractLsb' 7 3 = 0 ∧ c.extractLsb' 4 3 = po ∧ c.getLsbD 3 = cie ∧ c.setWidth 3 = pi := by
  refine ⟨slice_eq fun i hi => ?_, slice_eq fun i hi => ?_, ?_, low_eq fun i hi => ?_⟩ <;>
    simp only [BitVec.getLsbD_append] <;> grind

theorem selector_fields (inv : Bool) (pc : BitVec 3) :
    let c : BitVec 10 := (0 : BitVec 6) ++ BitVec.ofBool inv ++ pc
    c.extractLsb' 4 6 = 0 ∧ c.getLsbD 3 = inv ∧ c.setWidth 3 = pc := by
  refine ⟨slice_eq fun i hi => ?_, ?_, low_eq fun i hi => ?_⟩ <;> simp only [BitVec.getLsbD_append] <;> grind

/-- Where no XOP bit but source B's is set, the mould's raw instruction is built without them. -/
theorem mouldRaw_zero (h : Hdr) (op : BitVec 7) (m : BitVec 2) (d a : VOp) (b : SrcB) :
    (((h.raw op m).opD d).opA a).srcE 0 2 b = mouldRaw h op m 0 d a b := by
  simp [mouldRaw, Raw.x]

/-- Subcodes that a set bit of an XOP without .sat and without the scalar form would have. -/
theorem Raw.Two.noBits {r : Raw} {h : Hdr} {ok : Bool} {d a : VOp} (m : r.Two h ok 0 d a) :
    (r.satB || r.sfB || r.xhi != 0) = false := by
  rw [m.sat, m.sf, m.xhi]
  decide

theorem iaddc_reads_of {r : Raw} {h : Hdr} {w64 cie : Bool} {d a : VOp} {b : SrcB} {po pi : BitVec 3}
    (wf : h.wf extLens = true) (uses : ∀ u ∈ (Instr.iaddc h w64 d a b po cie pi).uses, u.Ok h.len)
    (m : r.Mould h (!w64) 0 d a b) (op : r.op = 0x11) (hm : r.m = if w64 then 3 else 1)
    (c : r.c = (0 : BitVec 3) ++ po ++ BitVec.ofBool cie ++ pi) (sel3 : r.sel 3 = 0)
    (noLit : h.len.isLit = false → r.lit = 0) : r.Reads (.iaddc h w64 d a b po cie pi) := by
  obtain ⟨high, hpo, hcie, hpi⟩ := carry_fields po cie pi
  have w : (r.m == 3) = w64 := by rw [hm]; cases w64 <;> rfl
  refine .of_entry Raw.iaddc (by rw [Raw.decode, op]; rfl) rfl ?_ m.hdr wf uses ?_ (by rw [m.sc]; decide) ?_
    (fun short => absurd ((ext_of_wf wf).symm.trans short) (by decide)) noLit
  · rw [w, m.hdr, m.dst, m.fst, m.src, c, hpo, hcie, hpi]
  · rw [hm]
    cases w64 <;> rfl
  · rw [w, m.noBits, m.srcErrs, m.dstErrs, m.fstErrs, vopErrs_zero sel3, noSc_eq, m.sc, c, high]
    rfl

theorem iaddc_reads {h : Hdr} {w64 cie : Bool} {d a : VOp} {b : SrcB} {po pi : BitVec 3} (wf : h.wf extLens = true)
    (uses : ∀ u ∈ (Instr.iaddc h w64 d a b po cie pi).uses, u.Ok h.len) :
    ∃ r, (Instr.iaddc h w64 d a b po cie pi).raw = some r ∧ r.Reads (.iaddc h w64 d a b po cie pi) := by
  have ext := ext_of_wf wf
  have each : ∀ n, n = (if w64 then 2 else 1) → ∀ u ∈ [vUse d n n true, vUse a n n false, pUse po true, pUse pi false] ++
      srcUse false n b, u.Ok h.len := fun n eq => eq ▸ uses
  obtain ⟨fd, fa, fb⟩ : d.Fits (!w64) h.len ∧ a.Fits (!w64) h.len ∧ b.Fits (!w64) h.len := by
    have one : ((if w64 then 2 else 1) == 1) = !w64 := by cases w64 <;> rfl
    obtain ⟨front, back⟩ := List.forall_mem_append.mp (each _ rfl)
    rw [← one]
    exact ⟨vUse_fits (front _ (.head _)), vUse_fits (front _ (.tail _ (.head _))),
      vSrc_fits back fun short => absurd (ext.symm.trans short) (by decide)⟩
  refine ⟨_, rfl, ?_⟩
  rw [mouldRaw_zero]
  exact iaddc_reads_of wf uses ((mouldRaw_mould rfl rfl fd fa fb).setC _) (mouldRaw_op ..) (mouldRaw_m ..) rfl
    (mouldRaw_sel h 0x11 _ _ _ _ _ (by decide)) fun noLit => mouldRaw_lit noLit fd fa fb

theorem sel_reads_of {r : Raw} {h : Hdr} {ty : ITy} {d a : VOp} {b : SrcB} {pc : BitVec 3} {inv : Bool}
    (wf : h.wf extLens = true) (uses : ∀ u ∈ (Instr.sel h ty d a b pc inv).uses, u.Ok h.len)
    (m : r.Mould h (single ty false) 0 d a b) (op : r.op = 0x26) (hm : r.m = ty.code)
    (c : r.c = (0 : BitVec 6) ++ BitVec.ofBool inv ++ pc) (sel3 : r.sel 3 = 0)
    (noLit : h.len.isLit = false → r.lit = 0) : r.Reads (.sel h ty d a b pc inv) := by
  obtain ⟨high, hinv, hpc⟩ := selector_fields inv pc
  have t : r.ity = ty := (congrArg ITy.ofCode hm).trans (ity_code ty)
  refine .of_entry Raw.selI (by rw [Raw.decode, op]; rfl) rfl ?_ m.hdr wf uses rfl (by rw [m.sc]; decide) ?_
    (fun short => absurd ((ext_of_wf wf).symm.trans short) (by decide)) noLit
  · rw [t, m.hdr, m.dst, m.fst, m.src, c, hinv, hpc]
  · rw [t, m.noBits, m.srcErrs, m.dstErrs, m.fstErrs, vopErrs_zero sel3, noSc_eq, m.sc, c, high]
    rfl

theorem sel_reads {h : Hdr} {ty : ITy} {d a : VOp} {b : SrcB} {pc : BitVec 3} {inv : Bool} (wf : h.wf extLens = true)
    (uses : ∀ u ∈ (Instr.sel h ty d a b pc inv).uses, u.Ok h.len) :
    ∃ r, (Instr.sel h ty d a b pc inv).raw = some r ∧ r.Reads (.sel h ty d a b pc inv) := by
  have ext := ext_of_wf wf
  have each : ∀ u ∈ [vUse d ty.regs ty.regs true, vUse a ty.regs ty.regs false, pUse pc false] ++ srcUse false ty.regs b,
    u.Ok h.len := uses
  obtain ⟨front, back⟩ := List.forall_mem_append.mp each
  have one : single ty false = (ty.regs == 1) := Bool.and_true _
  have fd : d.Fits (single ty false) h.len := one ▸ vUse_fits (front _ (.head _))
  have fa : a.Fits (single ty false) h.len := one ▸ vUse_fits (front _ (.tail _ (.head _)))
  have fb : b.Fits (single ty false) h.len := srcUse_fits back rfl fun short => absurd (ext.symm.trans short) (by decide)
  refine ⟨_, rfl, ?_⟩
  rw [mouldRaw_zero]
  exact sel_reads_of wf uses ((mouldRaw_mould rfl rfl fd fa fb).setC _) (mouldRaw_op ..) (mouldRaw_m ..) rfl
    (mouldRaw_sel h 0x26 _ _ _ _ _ (by decide)) fun noLit => mouldRaw_lit noLit fd fa fb

/-! ### ISET and FSET (R136) -/

/-- The raw instruction of a compare, its source B last. -/
def setRaw (h : Hdr) (op : BitVec 7) (m : BitVec 2) (cmp : Cmp) (d : BitVec 3) (a : VOp) (b : SrcB) : Raw :=
  ((((h.raw op m).setD (d.setWidth 10)).opA a).x (cmp.code.setWidth 6)).srcE 3 4 b

section
variable (h : Hdr) (op : BitVec 7) (m : BitVec 2) (cmp : Cmp) (d : BitVec 3) (a : VOp) (b : SrcB)

theorem setRaw_op : (setRaw h op m cmp d a b).op = op := by cases b <;> rfl
theorem setRaw_m : (setRaw h op m cmp d a b).m = m := by cases b <;> rfl
theorem setRaw_sc : (setRaw h op m cmp d a b).sc = 0 := by cases b <;> rfl
theorem setRaw_c : (setRaw h op m cmp d a b).c = 0 := by cases b <;> rfl
theorem setRaw_hdr : (setRaw h op m cmp d a b).hdr = h := by cases b <;> exact hdr_eq rfl rfl rfl
theorem setRaw_dn : (setRaw h op m cmp d a b).dn = d.setWidth 10 := by cases b <;> exact number_halves _
theorem setRaw_an : (setRaw h op m cmp d a b).an = a.num := by cases b <;> exact number_halves _

theorem setRaw_sel {k : Nat} (hk : k < 4) : (setRaw h op m cmp d a b).sel k =
    if k = 1 then a.sel else if k = 2 then b.sel else 0 := by
  have setD : ((h.raw op m).setD (d.setWidth 10)).sel k = 0 := sel_raw h op m k
  rw [setRaw, sel_srcE hk, sel_x, sel_opA hk, setD]
  interval_cases k <;> simp

end

/-- The code of a compare, beside the bits that say which kind source B is. -/
theorem cmp_code_low (cmp : Cmp) : ((cmp.code.setWidth 6 : BitVec 6).setWidth 3 : BitVec 3) = cmp.code ∧
    ((cmp.code.setWidth 6 ||| 8#6).setWidth 3 : BitVec 3) = cmp.code ∧
    ((cmp.code.setWidth 6 ||| 16#6).setWidth 3 : BitVec 3) = cmp.code := by
  cases cmp <;> decide

@[simp] theorem cmp_code (cmp : Cmp) : Cmp.ofCode cmp.code.toNat = cmp := by cases cmp <;> rfl

/-- A compare reads back: its operands, its code, and no subcode. -/
theorem setRaw_fields {h : Hdr} {op : BitVec 7} {m : BitVec 2} {cmp : Cmp} {d : BitVec 3} {a : VOp} {b : SrcB} {s : Bool}
    (fa : a.Fits s h.len) (fb : b.Fits s h.len) :
    let r := setRaw h op m cmp d a b
    r.vop 1 r.an s = a ∧ r.setB s = b ∧ r.setErrs s = [] ∧ (r.xop.setWidth 3 : BitVec 3) = cmp.code := by
  have hdr := setRaw_hdr h op m cmp d a b
  have len : (setRaw h op m cmp d a b).len = h.len := congrArg Hdr.len hdr
  have dn := setRaw_dn h op m cmp d a b
  have an := setRaw_an h op m cmp d a b
  have sc := setRaw_sc h op m cmp d a b
  have c := setRaw_c h op m cmp d a b
  have sel0 : (setRaw h op m cmp d a b).sel 0 = 0 := setRaw_sel h op m cmp d a b (by decide)
  have sel1 : (setRaw h op m cmp d a b).sel 1 = a.sel := setRaw_sel h op m cmp d a b (by decide)
  have sel2 : (setRaw h op m cmp d a b).sel 2 = b.sel := setRaw_sel h op m cmp d a b (by decide)
  have sel3 : (setRaw h op m cmp d a b).sel 3 = 0 := setRaw_sel h op m cmp d a b (by decide)
  have low : ¬ 8 ≤ d.toNat % 1024 := by have := d.isLt; omega
  have noX : (0 : BitVec 6) ||| cmp.code.setWidth 6 = cmp.code.setWidth 6 := BitVec.zero_or
  obtain ⟨vec, imm, sca⟩ := cmp_code_low cmp
  rw [← len] at fa
  have fst := vop_eq sel1 fa
  have fstErrs := vopErrs_eq sel1 fa
  cases b with
  | vec o =>
    have bn : (setRaw h op m cmp d a (.vec o)).bn = o.num := number_halves _
    have xop : (setRaw h op m cmp d a (.vec o)).xop = cmp.code.setWidth 6 := noX
    have imm32 : (setRaw h op m cmp d a (.vec o)).imm = 0 := rfl
    rw [← len] at fb
    refine ⟨an ▸ fst, ?_, ?_, xop ▸ vec⟩
    · simp [Raw.setB, xop, bn, vop_eq sel2 fb]
    · simp [Raw.setErrs, xop, bn, vopErrs_eq sel2 fb, sc, c, imm32, dn, low, an, fstErrs, vopErrs_zero sel0,
        vopErrs_zero sel3]
  | sca n =>
    have bn : (setRaw h op m cmp d a (.sca n)).bn = n := number_halves _
    have xop : (setRaw h op m cmp d a (.sca n)).xop = cmp.code.setWidth 6 ||| 16 := congrArg (· ||| 16#6) noX
    have imm32 : (setRaw h op m cmp d a (.sca n)).imm = 0 := rfl
    refine ⟨an ▸ fst, ?_, ?_, xop ▸ sca⟩
    · simp [Raw.setB, xop, bn]
    · simp [Raw.setErrs, xop, bn, vopErrs_zero sel2, sc, c, imm32, dn, low, an, fstErrs, vopErrs_zero sel0,
        vopErrs_zero sel3]
  | imm w =>
    have bn : (setRaw h op m cmp d a (.imm w)).bn = 0 :=
      (by decide : (0 : BitVec 4) ++ (0 : BitVec 6) = (0 : BitVec 10))
    have xop : (setRaw h op m cmp d a (.imm w)).xop = cmp.code.setWidth 6 ||| 8 := congrArg (· ||| 8#6) noX
    have imm32 : (setRaw h op m cmp d a (.imm w)).imm = w := rfl
    refine ⟨an ▸ fst, ?_, ?_, xop ▸ imm⟩
    · simp [Raw.setB, xop, imm32]
    · simp [Raw.setErrs, xop, bn, vopErrs_zero sel2, sc, c, dn, low, an, fstErrs, vopErrs_zero sel0,
        vopErrs_zero sel3]

theorem setRaw_blank {h : Hdr} {op : BitVec 7} {m : BitVec 2} {d : BitVec 3} {a : VOp} {b : SrcB} {s : Bool}
    (short : h.len.isExt = false) (fa : a.Fits s h.len) (fb : b.Fits s h.len) :
    (setRaw h op m .eq d a b).blank = true := by
  cases b with
  | sca n | imm w => exact absurd (short.symm.trans fb) (by decide)
  | vec o =>
    have hd : (d.setWidth 10).extractLsb' 6 4 = 0 := high_eq_zero (by have := d.isLt; simp; omega)
    have ha := fa.high short
    have hb := VOp.Fits.high fb short
    simp [Raw.blank, setRaw, Raw.srcE, Raw.opB, Raw.opA, Raw.setD, Raw.setA, Raw.setBn, Raw.x, Hdr.raw, Cmp.code, hd, ha,
      hb]

theorem setRaw_lit {h : Hdr} {op : BitVec 7} {m : BitVec 2} {cmp : Cmp} {d : BitVec 3} {a : VOp} {b : SrcB} {s : Bool}
    (noLit : h.len.isLit = false) (fa : a.Fits s h.len) (fb : b.Fits s h.len) :
    (setRaw h op m cmp d a b).lit = 0 := by
  cases b with
  | sca n | imm w =>
    simp [setRaw, Raw.srcE, Raw.opA, Raw.setD, Raw.setA, Raw.setBn, Raw.x, Hdr.raw, fa.selWord noLit]
  | vec o =>
    have fo : o.Fits s h.len := fb
    simp [setRaw, Raw.srcE, Raw.opB, Raw.opA, Raw.setD, Raw.setA, Raw.setBn, Raw.x, Hdr.raw, fa.selWord noLit,
      fo.selWord noLit]

theorem iset_reads {h : Hdr} {cmp : Cmp} {ty : ITy} {d : BitVec 3} {a : VOp} {b : SrcB}
    (formOk : (h.wf allLens && plain h (cmp == .eq && b.plain) && cmp != .num && cmp != .nan) = true)
    (uses : ∀ u ∈ (Instr.iset h cmp ty d a b).uses, u.Ok h.len) :
    (setRaw h 0x25 ty.code cmp d a b).Reads (.iset h cmp ty d a b) := by
  simp only [Bool.and_eq_true, plain_iff, beq_iff_eq, bne_iff_ne] at formOk
  obtain ⟨⟨⟨wf, short⟩, num⟩, nan⟩ := formOk
  have each : ∀ u ∈ [pUse d true, vUse a ty.regs ty.regs false] ++ srcUse false ty.regs b, u.Ok h.len := uses
  obtain ⟨front, back⟩ := List.forall_mem_append.mp each
  have one : single ty false = (ty.regs == 1) := Bool.and_true _
  have fa : a.Fits (single ty false) h.len := one ▸ vUse_fits (front _ (.tail _ (.head _)))
  have fb : b.Fits (single ty false) h.len := srcUse_fits back rfl fun s => (short s).2
  have hdr := setRaw_hdr h 0x25 ty.code cmp d a b
  have t : (setRaw h 0x25 ty.code cmp d a b).ity = ty := (congrArg ITy.ofCode (setRaw_m ..)).trans (ity_code ty)
  have low : cmp.code.toNat < 6 := by revert num nan; cases cmp <;> decide
  obtain ⟨fst, setB, setErrs, code⟩ := setRaw_fields (op := 0x25) (m := ty.code) (cmp := cmp) (d := d) fa fb
  refine .of_entry Raw.iset (by rw [Raw.decode, setRaw_op]; rfl) rfl ?_ hdr wf uses rfl (by rw [setRaw_sc]; decide) ?_
    (fun s => ?_) (fun noLit => setRaw_lit noLit fa fb)
  · simp only [t, hdr, fst, setB, code, setRaw_dn, cmp_code]
    simp
  · rw [t, setErrs, code]
    simp [low]
  · rw [(short s).1]
    exact setRaw_blank s fa fb

theorem fset_reads {h : Hdr} {cmp : Cmp} {d : BitVec 3} {a : VOp} {b : SrcB}
    (formOk : (h.wf allLens && plain h (cmp == .eq && b.plain)) = true)
    (uses : ∀ u ∈ (Instr.fset h cmp d a b).uses, u.Ok h.len) :
    (setRaw h 0x36 0 cmp d a b).Reads (.fset h cmp d a b) := by
  simp only [Bool.and_eq_true, plain_iff, beq_iff_eq] at formOk
  obtain ⟨wf, short⟩ := formOk
  have each : ∀ u ∈ [pUse d true, vUse a 1 1 false] ++ srcUse false 1 b, u.Ok h.len := uses
  obtain ⟨front, back⟩ := List.forall_mem_append.mp each
  have fa : a.Fits true h.len := vUse_fits (front _ (.tail _ (.head _)))
  have fb : b.Fits true h.len := vSrc_fits back fun s => (short s).2
  have hdr := setRaw_hdr h 0x36 0 cmp d a b
  obtain ⟨fst, setB, setErrs, code⟩ := setRaw_fields (op := 0x36) (m := 0) (cmp := cmp) (d := d) fa fb
  refine .of_entry Raw.fset (by rw [Raw.decode, setRaw_op]; rfl) rfl ?_ hdr wf uses ?_
    (by rw [setRaw_sc]; decide) setErrs
    (fun s => ?_) (fun noLit => setRaw_lit noLit fa fb)
  · simp only [hdr, fst, setB, code, setRaw_dn, cmp_code]
    simp
  · rw [setRaw_m]
    rfl
  · rw [(short s).1]
    exact setRaw_blank s fa fb

/-! ### Moves and special registers (R138 to R141) -/

theorem sc_lt {r : Raw} (sc : r.sc = 0) : r.sc.toNat < 6 := by
  rw [sc]
  decide

theorem wf_mono {h : Hdr} {as bs : List Len} (wf : h.wf as = true) (sub : as ⊆ bs) : h.wf bs = true := by
  obtain ⟨mem, neg, guard⟩ := Hdr.wf_iff.mp wf
  exact Hdr.wf_iff.mpr ⟨List.contains_iff_mem.mpr (sub (List.contains_iff_mem.mp mem)), neg, guard⟩

/-- A header of an entry with the extended form alone. -/
theorem ext_of_only {h : Hdr} (wf : h.wf [.ext] = true) : h.len = .ext := by
  obtain ⟨mem, -⟩ := Hdr.wf_iff.mp wf
  simpa using mem

section
variable {h : Hdr} {w : Bool}

/-- MOV's lengths (R138): a literal only where it moves 64 bits of one. -/
def Raw.movLens (r : Raw) : List Len :=
  if r.xop.extractLsb' 1 2 = (2 : BitVec 2) && r.xop.getLsbD 0 then [.base, .ext, .extLit] else shortLens

/-- The form that the XOP bits of MOV select between registers. -/
def movReg (x : BitVec 6) (d a : BitVec 10) : MovForm :=
  if x[3] then (if x.extractLsb' 1 2 = 3#2 then .first d a else .ss d a)
  else if x.extractLsb' 1 2 = 0#2 then .vv d a else .vs d a

theorem mov_reg_reads {x : BitVec 6} {d a : BitVec 10} {f : MovForm} (wf : h.wf shortLens = true)
    (uses : ∀ u ∈ (Instr.mov h w f).uses, u.Ok h.len) (form : movReg x d a = f)
    (bits : x[0] = w ∧ x.extractLsb' 1 2 ≠ 2#2 ∧ x.extractLsb' 4 2 = 0#2 ∧ (x[3] = false → x.extractLsb' 1 2 ≠ 3#2) ∧
      (x[3] = true → x.extractLsb' 1 2 ≠ 0#2))
    (short : h.len.isExt = false → x = 0 ∧ d.extractLsb' 6 4 = 0 ∧ a.extractLsb' 6 4 = 0) :
    ((((h.raw 0x27 0).setD d).setA a).x x).Reads (.mov h w f) := by
  obtain ⟨w64, notImm, hi, v, s⟩ := bits
  subst form
  refine .of_fields Raw.mov (lens := Raw.movLens _) ?_ uses rfl rfl ?_
  · simpa [Raw.movLens, Hdr.raw, Raw.setD, Raw.setA, Raw.x, notImm] using wf
  · simp [Hdr.raw, Raw.setD, Raw.setA, Raw.x, Raw.blank, Raw.xhi, Raw.dn, Raw.an, Raw.bn, w64, notImm, hi]
    refine ⟨?_, ⟨v, s⟩, short⟩
    cases sd : x[3] with
    | true => simp [movReg, sd]
    | false =>
      have one (y : BitVec 2) : y ≠ 2 → y ≠ 3 → y = 0 ∨ y = 1 := by revert y; decide
      obtain src | src := one _ notImm (v sd) <;> simp [movReg, sd, src]

theorem mov_vv_reads {d a : BitVec 10} (formOk : (h.wf shortLens && plain h (!w)) = true)
    (uses : ∀ u ∈ (Instr.mov h w (.vv d a)).uses, u.Ok h.len) :
    ((((h.raw 0x27 0).setD d).setA a).x (bit1 w 0)).Reads (.mov h w (.vv d a)) := by
  have ud : (vUse (.reg d) (if w then 2 else 1) (if w then 2 else 1) true).Ok h.len := uses _ (.head _)
  have ua : (vUse (.reg a) (if w then 2 else 1) (if w then 2 else 1) false).Ok h.len := uses _ (.tail _ (.head _))
  simp only [Bool.and_eq_true, plain_iff, Bool.not_eq_true'] at formOk
  obtain ⟨wf, short⟩ := formOk
  exact mov_reg_reads wf uses (by cases w <;> rfl) (by cases w <;> decide) fun s =>
    ⟨by rw [short s]; rfl, vUse_high ud s, vUse_high ua s⟩

/-- The register forms of MOV that only the extended form has. -/
theorem mov_ext_reads {x : BitVec 6} {d a : BitVec 10} {f : MovForm} (wf : h.wf [.ext] = true)
    (uses : ∀ u ∈ (Instr.mov h w f).uses, u.Ok h.len) (form : movReg x d a = f)
    (bits : x[0] = w ∧ x.extractLsb' 1 2 ≠ 2#2 ∧ x.extractLsb' 4 2 = 0#2 ∧ (x[3] = false → x.extractLsb' 1 2 ≠ 3#2) ∧
      (x[3] = true → x.extractLsb' 1 2 ≠ 0#2)) : ((((h.raw 0x27 0).setD d).setA a).x x).Reads (.mov h w f) :=
  mov_reg_reads (wf_mono wf (by decide)) uses form bits fun short => by
    rw [ext_of_only wf] at short
    cases short

/-- The immediate forms of MOV: the 32 bits of IMM32, or the literal. -/
theorem mov_imm_reads {x : BitVec 6} {d : BitVec 10} {raw : DWord} {sd : Bool}
    (formOk : (h.wf extLens && if h.len.isLit then w else decide (raw.toNat < 2 ^ 32)) = true)
    (uses : ∀ u ∈ (Instr.mov h w (if sd then .si d raw else .vi d raw)).uses, u.Ok h.len)
    (bits : x[0] = w ∧ x.extractLsb' 1 2 = 2#2 ∧ x.extractLsb' 4 2 = 0#2 ∧ x[3] = sd) :
    Raw.Reads (if h.len.isLit then { ((h.raw 0x27 0).setD d).x x with lit := raw }
      else { ((h.raw 0x27 0).setD d).x x with imm := raw.setWidth 32 })
        (.mov h w (if sd then .si d raw else .vi d raw)) := by
  obtain ⟨w64, src, hi, hsd⟩ := bits
  simp only [Bool.and_eq_true] at formOk
  obtain ⟨wf, fits⟩ := formOk
  have ext := ext_of_wf wf
  cases lit : h.len.isLit with
  | true =>
    rw [lit, if_pos rfl] at fits
    subst fits
    refine .of_fields Raw.mov (lens := Raw.movLens _) ?_ uses rfl rfl ?_
    · simpa [Raw.movLens, Hdr.raw, Raw.setD, Raw.x, src, w64] using wf_mono wf (by decide)
    · cases sd <;> simp [Hdr.raw, Raw.setD, Raw.x, Raw.xhi, Raw.dn, Raw.an, Raw.bn, w64, src, hi, hsd, lit, ext]
  | false =>
    rw [lit, if_neg Bool.false_ne_true, decide_eq_true_eq] at fits
    have back : (raw.setWidth 32).setWidth 64 = raw := BitVec.eq_of_toNat_eq (by simp; omega)
    have len : h.wf [.ext] = true := by
      obtain ⟨mem, neg, guard⟩ := Hdr.wf_iff.mp wf
      refine Hdr.wf_iff.mpr ⟨?_, neg, guard⟩
      revert lit mem
      cases h.len <;> decide
    refine .of_fields Raw.mov (lens := Raw.movLens _) ?_ uses rfl rfl ?_
    · cases w <;> simpa [Raw.movLens, Hdr.raw, Raw.setD, Raw.x, src, w64] using wf_mono len (by decide)
    · cases sd <;> simp [Hdr.raw, Raw.setD, Raw.x, Raw.xhi, Raw.dn, Raw.an, Raw.bn, w64, src, hi, hsd, lit, ext, back]

theorem mov_reads {f : MovForm} (formOk : (Instr.mov h w f).formOk = true)
    (uses : ∀ u ∈ (Instr.mov h w f).uses, u.Ok h.len) : ∃ r, (Instr.mov h w f).raw = some r ∧ r.Reads (.mov h w f) := by
  refine ⟨_, rfl, ?_⟩
  cases f with
  | vv d a => exact mov_vv_reads formOk uses
  | vs d a => exact mov_ext_reads formOk uses (by cases w <;> rfl) (by cases w <;> decide)
  | ss d a => exact mov_ext_reads formOk uses (by cases w <;> rfl) (by cases w <;> decide)
  | first d a => exact mov_ext_reads formOk uses (by cases w <;> rfl) (by cases w <;> decide)
  | vi d raw => exact mov_imm_reads (sd := false) formOk uses (by cases w <;> decide)
  | si d raw => exact mov_imm_reads (sd := true) formOk uses (by cases w <;> decide)

/-- MTX, as it decodes from and to a register (R139). -/
theorem mtx_of_reg {r : Raw} (m : ¬ r.m = 2) : r.mtx = r.entry allLens (r.m != 3)
    (err (r.xop != 0) 5 ++ zeros [r.noSc, r.noC, r.noImm] ++ err (decide (8 ≤ r.dn.toNat)) 8 ++ r.vopErrs 0 r.dn false ++
      r.vopErrs 2 r.bn false ++ r.vopErrs 3 r.c false ++ r.vopErrs 1 r.an true ++ zeros [r.bn == 0])
    (if r.m = 0 then .mtx r.hdr (r.dn.setWidth 3) (r.vop 1 r.an true)
      else .mtxIdx r.hdr (r.dn.setWidth 3) (r.vop 1 r.an true)) :=
  if_neg m

/-- A small register number takes no high bits, and is below 8. -/
theorem small_number (d : BitVec 3) : (d.setWidth 10).extractLsb' 6 4 = 0 ∧ ¬ 8 ≤ d.toNat % 1024 := by
  have lt := d.isLt
  exact ⟨high_eq_zero (by simp; omega), by omega⟩

@[simp] theorem small_halves (d : BitVec 3) : (d.setWidth 10).extractLsb' 6 4 ++ d.setWidth 6 = d.setWidth 10 := by
  revert d
  decide

/-- MTX from a register, or with its value as an index (R139). -/
theorem mtx_reg_reads {m : BitVec 2} {d : BitVec 3} {a : VOp} {i : Instr} (reg : m = 0 ∨ m = 1)
    (wf : h.wf allLens = true) (uses : ∀ u ∈ i.uses, u.Ok h.len) (ua : (vUse a 1 1 false).Ok h.len)
    (same : (if m = 0 then .mtx h d a else .mtxIdx h d a) = i) :
    (((h.raw 0x28 m).setD (d.setWidth 10)).opA a).Reads i := by
  have fa : a.Fits true h.len := vUse_fits ua
  obtain ⟨high, low⟩ := small_number d
  have hdr : (((h.raw 0x28 m).setD (d.setWidth 10)).opA a).hdr = h := hdr_eq rfl rfl rfl
  have len : (((h.raw 0x28 m).setD (d.setWidth 10)).opA a).len = h.len := congrArg Hdr.len hdr
  have dn : (((h.raw 0x28 m).setD (d.setWidth 10)).opA a).dn = d.setWidth 10 := number_halves _
  have an : (((h.raw 0x28 m).setD (d.setWidth 10)).opA a).an = a.num := number_halves _
  have bn : (((h.raw 0x28 m).setD (d.setWidth 10)).opA a).bn = 0 :=
    (by decide : (0 : BitVec 4) ++ (0 : BitVec 6) = (0 : BitVec 10))
  have hm : (((h.raw 0x28 m).setD (d.setWidth 10)).opA a).m = m := rfl
  have sel (k : Nat) (hk : k < 4) : (((h.raw 0x28 m).setD (d.setWidth 10)).opA a).sel k = if 1 =
    k then a.sel else 0 := by
    rw [sel_opA hk]
    show (h.raw 0x28 m).sel k ||| _ = _
    rw [sel_raw]
    exact BitVec.zero_or
  have fa' := len.symm ▸ fa
  have two : ¬ m = 2 := by rcases reg with rfl | rfl <;> decide
  have three : (m != 3) = true := by rcases reg with rfl | rfl <;> decide
  have noX : (((h.raw 0x28 m).setD (d.setWidth 10)).opA a).xop = 0 := rfl
  refine .of_entry Raw.mtx rfl (mtx_of_reg two) ?_ hdr wf uses three (sc_lt rfl) ?_ (fun short => ?_) (fun noLit => ?_)
  · have back : ((d.setWidth 10).setWidth 3 : BitVec 3) = d := by simp
    rw [← same, hm, dn, an, hdr, vop_eq (sel 1 (by decide)) fa', back]
  · rw [dn, an, bn, noX, vopErrs_eq (sel 1 (by decide)) fa', vopErrs_zero (sel 0 (by decide)),
      vopErrs_zero (sel 2 (by decide)), vopErrs_zero (sel 3 (by decide))]
    simp [low, Raw.opA, Raw.setA, Raw.setD, Hdr.raw]
  · simp [Raw.blank, Raw.opA, Raw.setA, Raw.setD, Hdr.raw, fa.high short, high]
  · show (0 : DWord) ||| a.selWord 1 = 0
    rw [fa.selWord noLit]
    rfl

/-- MTX, as it decodes where it adds to an index (R139). -/
theorem mtx_of_add {r : Raw} (m : r.m = 2) : r.mtx = r.entry allLens true
    (err (r.xop != 0) 5 ++ zeros [r.noSc, r.noC, r.noImm] ++ err (decide (8 ≤ r.dn.toNat)) 8 ++ r.vopErrs 0 r.dn false ++
      r.vopErrs 2 r.bn false ++ r.vopErrs 3 r.c false ++ r.vopErrs 1 r.an false ++ zeros [r.an == 0, r.bhi == 0])
    (.mtxAdd r.hdr (r.dn.setWidth 3) r.b) :=
  if_pos m

@[simp] theorem vopErrs_noLit (l m p b a d op x sc neg c bhi ahi dhi imm) (k : Nat) (n : BitVec 10) (ok : Bool) :
    Raw.vopErrs ⟨l, m, p, b, a, d, op, x, sc, neg, c, bhi, ahi, dhi, imm, 0#64⟩ k n ok = [] :=
  vopErrs_zero BitVec.extractLsb'_zero

theorem mtxAdd_reads {d : BitVec 3} {imm : BitVec 6} (wf : h.wf allLens = true)
    (uses : ∀ u ∈ (Instr.mtxAdd h d imm).uses, u.Ok h.len) :
    Raw.Reads { (h.raw 0x28 2).setD (d.setWidth 10) with b := imm } (.mtxAdd h d imm) := by
  obtain ⟨high, low⟩ := small_number d
  exact .of_fields Raw.mtx wf uses rfl (mtx_of_add rfl)
    (by simpa [Hdr.raw, Raw.setD, Raw.dn, Raw.an, Raw.blank] using ⟨Nat.not_le.mp low, fun _ => high⟩)

theorem mfsr_reads {out : SrDst} {d : BitVec 10} {sr : BitVec 6}
    (formOk : (h.wf shortLens && decide (sr.toNat ≤ 16) && (out != .s || (h.p == 7 && sr != 1))) = true)
    (uses : ∀ u ∈ (Instr.mfsr h out d sr).uses, u.Ok h.len) :
    ∃ r, (Instr.mfsr h out d sr).raw = some r ∧ r.Reads (.mfsr h out d sr) := by
  simp only [Bool.and_eq_true, decide_eq_true_eq] at formOk
  obtain ⟨⟨wf, le⟩, guard⟩ := formOk
  have lt : sr.toNat < 17 := by omega
  refine ⟨_, rfl, ?_⟩
  have high : h.len.isExt = false → d.extractLsb' 6 4 = 0 := by
    cases out with
    | v =>
      have ud : (vUse (.reg d) 1 1 true).Ok h.len := uses _ (.head _)
      exact vUse_high ud
    | s =>
      have ud : (sUse d 1 1 true).Ok h.len := uses _ (.head _)
      exact sUse_high ud
    | pair =>
      have ud : (vUse (.reg d) 2 2 true).Ok h.len := uses _ (.head _)
      exact vUse_high ud
  refine .of_fields Raw.mfsr wf uses rfl rfl ?_
  cases out with
  | v | pair => simpa [Hdr.raw, Raw.setD, Raw.dn, Raw.bn, Raw.blank, lt] using high
  | s =>
    obtain ⟨p7, notLane⟩ : h.p = 7#3 ∧ ¬ sr = 1#6 := by simpa using guard
    obtain ⟨len, p, neg⟩ := h
    subst p7
    simpa [Hdr.raw, Raw.setD, Raw.dn, Raw.bn, Raw.blank, lt, notLane] using high

theorem mtsr_reads {len : Len} {sr : BitVec 6} {a : BitVec 10}
    (formOk : ([Len.base, .ext].contains len && [0, 11, 12, 13, 14, 15, 16].contains sr.toNat) = true)
    (uses : ∀ u ∈ (Instr.mtsr len sr a).uses, u.Ok len) :
    Raw.Reads { ((noGuard len).raw 0x2A 0).setA a with d := sr } (.mtsr len sr a) := by
  simp only [Bool.and_eq_true] at formOk
  obtain ⟨mem, num⟩ := formOk
  have ua : (sUse a 1 1 false).Ok len := uses _ (.head _)
  have writable : writableSr sr.toNat = true := by
    simp only [List.contains_cons, List.contains_nil, Bool.or_eq_true, beq_iff_eq, Bool.or_false] at num
    simp only [writableSr, Bool.or_eq_true, Bool.and_eq_true, decide_eq_true_eq, beq_iff_eq]
    omega
  exact .of_fields Raw.mtsr (noGuard_wf mem) uses rfl rfl
    (by simpa [noGuard, Hdr.raw, Raw.setA, Raw.an, Raw.bn, Raw.blank, writable] using sUse_high ua)

end

end Sys2Proof
end

section
/-! SUPPORT. The words of floating point, of conversions and of the lane exchange (R115 to R127, R148 to R152). -/

namespace Sys2Proof

/-! ### Floating point (R142 to R147) -/

@[simp] theorem mode_code (m : RMode) : RMode.ofCode m.code = m := by cases m <;> rfl

/-- The XOP bits of .sat and the rounding mode. -/
def fpuBits (sat : Bool) (mode : RMode) : BitVec 6 := bit1 sat 1 ||| mode.code ++ (0 : BitVec 4)

theorem fpuBits_fields (sat : Bool) (mode : RMode) : (fpuBits sat mode)[0] = false ∧ (fpuBits sat mode)[1] = sat ∧
    (fpuBits sat mode)[2] = false ∧ (fpuBits sat mode)[3] = false ∧ (fpuBits sat mode).extractLsb' 4 2 = mode.code := by
  cases sat <;> cases mode <;> decide

theorem fpu_fits {d a : VOp} {b : SrcB} {l : Len}
    (uses : ∀ u ∈ [vUse d 1 1 true, vUse a 1 1 false] ++ srcUse false 1 b, u.Ok l)
    (plain : l.isExt = false → b.plain = true) : d.Fits true l ∧ a.Fits true l ∧ b.Fits true l := by
  obtain ⟨front, back⟩ := List.forall_mem_append.mp uses
  exact ⟨vUse_fits (front _ (.head _)), vUse_fits (front _ (.tail _ (.head _))), vSrc_fits back plain⟩

/-- What the check of a floating-point instruction says of its lengths and of its short form. -/
theorem Fpu.wf_iff {o : Fpu} {h : Hdr} {lens : List Len} : o.wf h lens = true ↔
    h.wf lens = true ∧ (h.len.isExt = false → o.sat = false ∧ o.mode = .rn ∧ o.b.plain = true) := by
  simp [Fpu.wf, plain_iff, and_assoc]

theorem Raw.Mould.fpu_eq {r : Raw} {h : Hdr} {o : Fpu} (m : r.Mould h true (fpuBits o.sat o.mode) o.d o.a o.b) :
    r.fpu = o ∧ r.fpuErrs = [] := by
  obtain ⟨-, sat, -, sf, hi⟩ := fpuBits_fields o.sat o.mode
  constructor
  · rw [Raw.fpu, m.xhi, hi, m.sat, sat, m.dst, m.fst, m.src, mode_code]
  · rw [Raw.fpuErrs, m.sf, sf, noSc_eq, m.sc, m.dstErrs, m.fstErrs, m.srcErrs]
    rfl

theorem fpu_short {sat : Bool} {mode : RMode} (s : sat = false) (m : mode = .rn) : fpuBits sat mode = 0 := by
  rw [s, m]
  decide

section
variable {h : Hdr}

theorem fbin_reads {o : Fpu} {op : BitVec 7} {mk : Hdr → Fpu → Instr}
    (dispatch : (o.raw h op).decode = (o.raw h op).fbin mk) (mkUses : (mk h o).uses = o.uses)
    (formOk : o.wf h allLens = true) (uses : ∀ u ∈ (mk h o).uses, u.Ok h.len) : (o.raw h op).Reads (mk h o) := by
  obtain ⟨wf, short⟩ := Fpu.wf_iff.mp formOk
  obtain ⟨fd, fa, fb⟩ := fpu_fits (mkUses ▸ uses) fun s => (short s).2.2
  obtain ⟨im, -, sb, -⟩ := fpuBits_fields o.sat o.mode
  have m : (o.raw h op).Mould h true (fpuBits o.sat o.mode) o.d o.a o.b := mouldRaw_mould im sb fd fa fb
  obtain ⟨fpu, errs⟩ := m.fpu_eq
  have hm : (o.raw h op).m = 0 := mouldRaw_m ..
  have c : (o.raw h op).c = 0 := mouldRaw_c ..
  have sel3 : (o.raw h op).sel 3 = 0 := mouldRaw_sel h op _ _ _ _ _ (by decide)
  refine .of_entry (Raw.fbin · mk) dispatch rfl ?_ m.hdr wf uses ?_ (sc_lt m.sc) ?_ (fun s => ?_)
    (fun noLit => mouldRaw_lit noLit fd fa fb)
  · rw [m.hdr, fpu]
  · rw [hm]
    rfl
  · rw [errs, noC_eq, c, vopErrs_zero sel3]
    rfl
  · obtain ⟨sat, mode, -⟩ := short s
    exact mouldRaw_blank s (fpu_short sat mode) fd fa fb

theorem ffma3_reads {o : Fpu} {c : VOp} {op : BitVec 7} {mk : Hdr → Fpu → VOp → Instr}
    (dispatch : ((o.raw h op).opC c).decode = ((o.raw h op).opC c).ffma3 mk)
    (mkUses : (mk h o c).uses = o.uses ++ [vUse c 1 1 false]) (formOk : o.wf h extLens = true)
    (uses : ∀ u ∈ (mk h o c).uses, u.Ok h.len) : ((o.raw h op).opC c).Reads (mk h o c) := by
  obtain ⟨wf, short⟩ := Fpu.wf_iff.mp formOk
  have each := uses
  rw [mkUses] at each
  obtain ⟨usesO, usesC⟩ := List.forall_mem_append.mp each
  obtain ⟨fd, fa, fb⟩ := fpu_fits usesO fun s => (short s).2.2
  have fc : c.Fits true h.len := vUse_fits (usesC _ (.head _))
  obtain ⟨im, -, sb, -⟩ := fpuBits_fields o.sat o.mode
  have m0 : (o.raw h op).Mould h true (fpuBits o.sat o.mode) o.d o.a o.b := mouldRaw_mould im sb fd fa fb
  have m := m0.opC c
  obtain ⟨fpu, errs⟩ := m.fpu_eq
  have hm : ((o.raw h op).opC c).m = 0 := mouldRaw_m ..
  have sel3 : (o.raw h op).sel 3 = 0 := mouldRaw_sel h op _ _ _ _ _ (by decide)
  have len : (o.raw h op).len = h.len := congrArg Hdr.len m0.hdr
  obtain ⟨third, thirdErrs⟩ := opC_third sel3 (len.symm ▸ fc)
  refine .of_entry (Raw.ffma3 · mk) dispatch rfl ?_ m.hdr wf uses ?_ (sc_lt m.sc) ?_
    (fun s => absurd ((ext_of_wf wf).symm.trans s) (by decide)) (fun noLit => ?_)
  · rw [m.hdr, fpu, third]
  · rw [hm]
    rfl
  · rw [errs, thirdErrs]
    rfl
  · have lit : (o.raw h op).lit = 0 := mouldRaw_lit noLit fd fa fb
    show (o.raw h op).lit ||| c.selWord 3 = 0
    rw [lit, fc.selWord noLit]
    rfl

theorem fmnxRaw_eq (op : BitVec 7) (d a : VOp) (b : SrcB) : fmnxRaw h op d a b = mouldRaw h op 0 0 d a b :=
  mouldRaw_zero ..

theorem fmnx_reads {d a : VOp} {b : SrcB} {op : BitVec 7} {mk : Hdr → VOp → VOp → SrcB → Instr}
    (dispatch : (mouldRaw h op 0 0 d a b).decode = (mouldRaw h op 0 0 d a b).fmnx mk)
    (mkUses : (mk h d a b).uses = [vUse d 1 1 true, vUse a 1 1 false] ++ srcUse false 1 b)
    (formOk : (h.wf allLens && plain h b.plain) = true) (uses : ∀ u ∈ (mk h d a b).uses, u.Ok h.len) :
    (fmnxRaw h op d a b).Reads (mk h d a b) := by
  simp only [Bool.and_eq_true, plain_iff] at formOk
  obtain ⟨wf, short⟩ := formOk
  obtain ⟨fd, fa, fb⟩ := fpu_fits (mkUses ▸ uses) short
  have m : (mouldRaw h op 0 0 d a b).Mould h true 0 d a b := mouldRaw_mould rfl rfl fd fa fb
  rw [fmnxRaw_eq]
  refine .of_entry (Raw.fmnx · mk) dispatch rfl ?_ m.hdr wf uses ?_ (sc_lt m.sc) ?_
    (fun s => mouldRaw_blank s rfl fd fa fb) (fun noLit => mouldRaw_lit noLit fd fa fb)
  · rw [m.hdr, m.dst, m.fst, m.src]
  · rw [mouldRaw_m]
    rfl
  · have bits := m.noBits
    rw [Bool.or_assoc, Bool.or_eq_false_iff, Bool.or_eq_false_iff] at bits
    obtain ⟨sat, sf, hi⟩ := bits
    have sel3 : (mouldRaw h op 0 0 d a b).sel 3 = 0 := mouldRaw_sel h op _ _ _ _ _ (by decide)
    rw [Raw.fpuErrs, sat, sf, hi, m.dstErrs, m.fstErrs, m.srcErrs, noSc_eq, m.sc, noC_eq, mouldRaw_c, vopErrs_zero sel3]
    rfl

/-- The XOP bits of the special functions: the rounding mode alone. -/
theorem sfn_bits (mode : RMode) : let x : BitVec 6 := mode.code ++ (0 : BitVec 4)
    x[0] = false ∧ x[2] = false ∧ (x.setWidth 4 : BitVec 4) = 0 ∧ x.extractLsb' 4 2 = mode.code := by
  cases mode <;> decide

theorem sfn_reads {round : RMode} {d a : VOp} {op : BitVec 7} {mode : Bool} {mk : Hdr → RMode → VOp → VOp → Instr}
    (dispatch : (mouldRaw h op 0 (round.code ++ (0 : BitVec 4)) d a (.vec (.reg 0))).decode =
      (mouldRaw h op 0 (round.code ++ (0 : BitVec 4)) d a (.vec (.reg 0))).sfn mode mk)
    (mkUses : (mk h round d a).uses = [vUse d 1 1 true, vUse a 1 1 false])
    (fixed : mode = false → round = .rn) (formOk : (h.wf allLens && plain h (round == .rn)) = true)
    (uses : ∀ u ∈ (mk h round d a).uses, u.Ok h.len) : (sfnRaw h op round d a).Reads (mk h round d a) := by
  simp only [Bool.and_eq_true, plain_iff, beq_iff_eq] at formOk
  obtain ⟨wf, short⟩ := formOk
  have each := uses
  rw [mkUses] at each
  have fd : d.Fits true h.len := vUse_fits (each _ (.head _))
  have fa : a.Fits true h.len := vUse_fits (each _ (.tail _ (.head _)))
  have fb : (SrcB.vec (.reg 0)).Fits true h.len := fun _ => by decide
  obtain ⟨im, sb, low, hi⟩ := sfn_bits round
  have m := mouldRaw_mould (op := op) (m := 0) im sb fd fa fb
  obtain ⟨bn, imm, xop, sel2, sel3⟩ := mouldRaw_noB_fields h op 0 (round.code ++ (0 : BitVec 4)) d a
  have eq : sfnRaw h op round d a = mouldRaw h op 0 (round.code ++ (0 : BitVec 4)) d a (.vec (.reg 0)) := mouldRaw_noB ..
  rw [eq]
  refine .of_entry (Raw.sfn · mode mk) dispatch rfl ?_ m.hdr wf uses ?_ (sc_lt m.sc) ?_ (fun s => ?_)
    (fun noLit => mouldRaw_lit noLit fd fa fb)
  · rw [m.hdr, m.xhi, hi, mode_code, m.dst, m.fst]
  · rw [mouldRaw_m]
    rfl
  · have modeOk : (round.code != 0 && !mode) = false := by
      cases mode with
      | true => exact Bool.and_false _
      | false => rw [fixed rfl]; decide
    rw [xop, low, m.xhi, hi, modeOk, noSc_eq, m.sc, noC_eq, mouldRaw_c, noImm_eq, imm, bn, m.dstErrs, m.fstErrs,
      vopErrs_zero sel2, vopErrs_zero sel3]
    rfl
  · refine mouldRaw_blank s ?_ fd fa fb
    rw [short s]
    decide

end

/-! ### CVT and PACK (R146, R147) -/

@[simp] theorem cvtFmt_code {f : Fmt} (inCvt : f.inCvt = true) : cvtFmt f.code = f ∧ f.code.getLsbD 3 = false := by
  revert inCvt
  cases f <;> decide

theorem cvt_bits (mode : RMode) (f : Fmt) : let x : BitVec 6 := mode.code ++ f.code
    (x.setWidth 4 : BitVec 4) = f.code ∧ x.extractLsb' 4 2 = mode.code := by
  cases mode <;> cases f <;> decide

theorem cvt_source (sat : Bool) (f : Fmt) : let b : BitVec 6 := BitVec.ofBool false ++ BitVec.ofBool sat ++ f.code
    (b.setWidth 4 : BitVec 4) = f.code ∧ b.getLsbD 4 = sat ∧ b.getLsbD 5 = false := by
  cases sat <;> cases f <;> decide

theorem pack_bits (mode : RMode) (fc : BitVec 2) (sat : Bool) :
    let x : BitVec 6 := mode.code ++ fc ++ BitVec.ofBool sat ++ BitVec.ofBool false
    x.extractLsb' 2 2 = fc ∧ x.getLsbD 1 = sat ∧ x.getLsbD 0 = false ∧ x.extractLsb' 4 2 = mode.code := by
  revert fc
  cases mode <;> cases sat <;> decide

section
variable {h : Hdr}

theorem cvtBad_eq (dt st : Fmt) (mode : RMode) (sat : Bool) : cvtBad dt st mode sat =
    !(if st.isInt then (if dt.isInt then mode == .rn else !(sat && dt == .f32))
      else if dt.isInt then !sat
      else !exactConv dt st || (mode == .rn && !sat)) := by
  rw [cvtBad]
  cases st.isInt <;> cases dt.isInt <;> simp [bne]

theorem cvt_form {dt st : Fmt} {el : BitVec 2} {mode : RMode} {sat : Bool} {d a : VOp}
    (formOk : (Instr.cvt h dt st el mode sat d a).formOk = true) : h.wf allLens = true ∧
      (h.len.isExt = false → dt = .s32 ∧ mode = .rn) ∧ dt.inCvt = true ∧ st.inCvt = true ∧ cvtElOk st el = true ∧
      cvtBad dt st mode sat = false := by
  obtain ⟨rest, uses⟩ := Bool.and_eq_true_iff.mp formOk
  obtain ⟨rest, hel⟩ := Bool.and_eq_true_iff.mp rest
  obtain ⟨rest, hst⟩ := Bool.and_eq_true_iff.mp rest
  obtain ⟨rest, hdt⟩ := Bool.and_eq_true_iff.mp rest
  obtain ⟨wf, short⟩ := Bool.and_eq_true_iff.mp rest
  simp only [plain_iff, Bool.and_eq_true, beq_iff_eq] at short
  refine ⟨wf, short, hdt, hst, ?_, ?_⟩
  · cases st <;> exact hel
  · rw [cvtBad_eq, Bool.not_eq_false']
    exact uses

theorem cvt_reads {dt st : Fmt} {el : BitVec 2} {mode : RMode} {sat : Bool} {d a : VOp}
    (formOk : (Instr.cvt h dt st el mode sat d a).formOk = true)
    (uses : ∀ u ∈ (Instr.cvt h dt st el mode sat d a).uses, u.Ok h.len) :
    ∃ r, (Instr.cvt h dt st el mode sat d a).raw = some r ∧ r.Reads (.cvt h dt st el mode sat d a) := by
  obtain ⟨wf, short, hdt, hst, hel, bad⟩ := cvt_form formOk
  have ud : (vUse d dt.regs dt.regs true).Ok h.len := uses _ (.head _)
  have ua : (vUse a st.regs st.regs false).Ok h.len := uses _ (.tail _ (.head _))
  have fd := vUse_fits ud
  have fa := vUse_fits ua
  obtain ⟨dcode, dbit⟩ := cvtFmt_code hdt
  obtain ⟨scode, sbit⟩ := cvtFmt_code hst
  obtain ⟨xlow, xhi⟩ := cvt_bits mode dt
  obtain ⟨blow, bsat, bhi⟩ := cvt_source sat st
  refine ⟨_, rfl, ?_⟩
  have sel (k : Nat) (hk : k < 4) : (((h.raw 0x43 el).opD d).opA a).sel k =
      if k = 0 then d.sel else if k = 1 then a.sel else 0 := by
    rw [sel_opA hk, sel_opD hk, sel_raw]
    interval_cases k <;> simp
  generalize eq : ({ ((h.raw 0x43 el).opD d).opA a with
      b := BitVec.ofBool false ++ BitVec.ofBool sat ++ st.code, xop := mode.code ++ dt.code } : Raw) = r
  have hdr : r.hdr = h := eq ▸ hdr_eq rfl rfl rfl
  have len : r.len = h.len := congrArg Hdr.len hdr
  have hm : r.m = el := eq ▸ rfl
  have sc : r.sc = 0 := eq ▸ rfl
  have c : r.c = 0 := eq ▸ rfl
  have imm : r.imm = 0 := eq ▸ rfl
  have hbhi : r.bhi = 0 := eq ▸ rfl
  have dn : r.dn = d.num := eq ▸ number_halves _
  have an : r.an = a.num := eq ▸ number_halves _
  have xop : r.xop = mode.code ++ dt.code := eq ▸ rfl
  have hb : r.b = BitVec.ofBool false ++ BitVec.ofBool sat ++ st.code := eq ▸ rfl
  have sel0 : r.sel 0 = d.sel := eq ▸ sel 0 (by decide)
  have sel1 : r.sel 1 = a.sel := eq ▸ sel 1 (by decide)
  have sel2 : r.sel 2 = 0 := eq ▸ sel 2 (by decide)
  have sel3 : r.sel 3 = 0 := eq ▸ sel 3 (by decide)
  have dispatch : r.decode = r.cvt := eq ▸ rfl
  rw [← len] at fd fa
  refine .of_entry Raw.cvt dispatch rfl ?_ hdr wf uses ?_ (sc_lt sc) ?_ (fun s => ?_) (fun noLit => ?_)
  · rw [xop, xlow, dcode, hb, blow, scode, bsat, Raw.xhi, xop, xhi, mode_code, dn, an, vop_eq sel0 fd, vop_eq sel1 fa,
      hdr, hm]
  · rw [hb, blow, scode, hm]
    exact hel
  · rw [xop, xlow, dcode, hb, blow, scode, bsat, Raw.xhi, xop, xhi, mode_code, dn, an, vopErrs_eq sel0 fd,
      vopErrs_eq sel1 fa, vopErrs_zero sel2, vopErrs_zero sel3, dbit, sbit, bad, bhi, noSc_eq, sc, noC_eq, c, noImm_eq,
        imm,
      hbhi]
    rfl
  · obtain ⟨s32, rn⟩ := short s
    have x0 : r.xop = 0 := by rw [xop, s32, rn]; decide
    have dhi : r.dhi = 0 := by rw [← eq]; exact fd.high (len ▸ s)
    have ahi : r.ahi = 0 := by rw [← eq]; exact fa.high (len ▸ s)
    simp [Raw.blank, x0, sc, c, imm, hbhi, dhi, ahi]
  · rw [← eq]
    show (0 : DWord) ||| d.selWord 0 ||| a.selWord 1 = 0
    rw [fd.selWord (len ▸ noLit), fa.selWord (len ▸ noLit)]
    rfl

theorem pack_reads_of {hi sat : Bool} {fmt : Fmt} {mode : RMode} {d a b : VOp} {fc : BitVec 2}
    (wf : h.wf allLens = true) (code : (if fc = 0 then Fmt.bf16 else if fc = 1 then .e4m3 else .e5m2) = fmt)
    (three : fc ≠ 3) (one : hi = true → fc ≠ 0) (short : h.len.isExt = false → fc = 0 ∧ mode = .rn ∧ sat = false)
    (uses : ∀ u ∈ (Instr.pack h hi fmt mode sat d a b).uses, u.Ok h.len) :
    Raw.Reads { ((((h.raw 0x44 (if hi then 1 else 0)).opD d).opA a).opB b) with
      xop := mode.code ++ fc ++ BitVec.ofBool sat ++ BitVec.ofBool false } (.pack h hi fmt mode sat d a b) := by
  have ud : (vUse d 1 1 true).Ok h.len := uses _ (.head _)
  have ua : (vUse a 1 1 false).Ok h.len := uses _ (.tail _ (.head _))
  have ub : (vUse b 1 1 false).Ok h.len := uses _ (.tail _ (.tail _ (.head _)))
  have fd : d.Fits true h.len := vUse_fits ud
  have fa : a.Fits true h.len := vUse_fits ua
  have fb : b.Fits true h.len := vUse_fits ub
  have sel (k : Nat) (hk : k < 4) : ((((h.raw 0x44 (if hi then 1 else 0)).opD d).opA a).opB b).sel k =
      if k = 0 then d.sel else if k = 1 then a.sel else if k = 2 then b.sel else 0 := by
    rw [sel_opB hk, sel_opA hk, sel_opD hk, sel_raw]
    interval_cases k <;> simp
  generalize eq : ({ ((((h.raw 0x44 (if hi then 1 else 0)).opD d).opA a).opB b) with
      xop := mode.code ++ fc ++ BitVec.ofBool sat ++ BitVec.ofBool false } : Raw) = r
  have hdr : r.hdr = h := eq ▸ hdr_eq rfl rfl rfl
  have len : r.len = h.len := congrArg Hdr.len hdr
  have hm : r.m = if hi then 1 else 0 := eq ▸ rfl
  have sc : r.sc = 0 := eq ▸ rfl
  have c : r.c = 0 := eq ▸ rfl
  have imm : r.imm = 0 := eq ▸ rfl
  have dn : r.dn = d.num := eq ▸ number_halves _
  have an : r.an = a.num := eq ▸ number_halves _
  have bn : r.bn = b.num := eq ▸ number_halves _
  have xop : r.xop = mode.code ++ fc ++ BitVec.ofBool sat ++ BitVec.ofBool false := eq ▸ rfl
  have sel0 : r.sel 0 = d.sel := eq ▸ sel 0 (by decide)
  have sel1 : r.sel 1 = a.sel := eq ▸ sel 1 (by decide)
  have sel2 : r.sel 2 = b.sel := eq ▸ sel 2 (by decide)
  have sel3 : r.sel 3 = 0 := eq ▸ sel 3 (by decide)
  have dispatch : r.decode = r.pack := eq ▸ rfl
  obtain ⟨xfc, xsat, x0, xhi⟩ := pack_bits mode fc sat
  rw [← len] at fd fa fb
  refine .of_entry Raw.pack dispatch rfl ?_ hdr wf uses ?_ (sc_lt sc) ?_ (fun s => ?_) (fun noLit => ?_)
  · have hhi : ((if hi then 1 else 0 : BitVec 2) == 1) = hi := by cases hi <;> rfl
    rw [xop, xfc, xsat, Raw.xhi, xop, xhi, mode_code, dn, an, bn, vop_eq sel0 fd, vop_eq sel1 fa, vop_eq sel2 fb, hdr,
        hm, hhi,
      code]
  · rw [hm, xop, xfc]
    cases hi with
    | false => rfl
    | true => simpa using one rfl
  · rw [xop, xfc, x0, dn, an, bn, vopErrs_eq sel0 fd, vopErrs_eq sel1 fa, vopErrs_eq sel2 fb, vopErrs_zero sel3,
      noSc_eq, sc, noC_eq, c, noImm_eq, imm]
    simpa using three
  · obtain ⟨fc0, rn, nosat⟩ := short s
    have noX : r.xop = 0 := by rw [xop, fc0, rn, nosat]; decide
    have dhi : r.dhi = 0 := by rw [← eq]; exact fd.high (len ▸ s)
    have ahi : r.ahi = 0 := by rw [← eq]; exact fa.high (len ▸ s)
    have bhi : r.bhi = 0 := by rw [← eq]; exact fb.high (len ▸ s)
    simp [Raw.blank, noX, sc, c, imm, bhi, dhi, ahi]
  · rw [← eq]
    show (0 : DWord) ||| d.selWord 0 ||| a.selWord 1 ||| b.selWord 2 = 0
    rw [fd.selWord (len ▸ noLit), fa.selWord (len ▸ noLit), fb.selWord (len ▸ noLit)]
    rfl

theorem pack_reads {hi sat : Bool} {fmt : Fmt} {mode : RMode} {d a b : VOp}
    (formOk : (Instr.pack h hi fmt mode sat d a b).formOk = true)
    (uses : ∀ u ∈ (Instr.pack h hi fmt mode sat d a b).uses, u.Ok h.len) :
    ∃ r, (Instr.pack h hi fmt mode sat d a b).raw = some r ∧ r.Reads (.pack h hi fmt mode sat d a b) := by
  obtain ⟨rest, form⟩ := Bool.and_eq_true_iff.mp formOk
  obtain ⟨wf, short⟩ := Bool.and_eq_true_iff.mp rest
  simp only [plain_iff, Bool.and_eq_true, beq_iff_eq, Bool.not_eq_true'] at short
  refine ⟨_, rfl, ?_⟩
  cases fmt with
  | bf16 =>
    have low : hi = false := by simpa using form
    exact pack_reads_of wf rfl (by decide) (by simp [low]) (fun s => ⟨rfl, (short s).1.2, (short s).2⟩) uses
  | e4m3 => exact pack_reads_of wf rfl (by decide) (by simp) (fun s => by simpa using short s) uses
  | e5m2 => exact pack_reads_of wf rfl (by decide) (by simp) (fun s => by simpa using short s) uses
  | s32 | b32 | s64 | b64 | f32 | i4g | i3g => exact absurd form Bool.false_ne_true

end

/-! ### Lane exchange (R148 to R152) -/

theorem seg_bits (seg : BitVec 3) : let x : BitVec 6 := (0 : BitVec 2) ++ seg ++ (0 : BitVec 1)
    x.extractLsb' 1 3 = seg ∧ x[0] = false ∧ x.extractLsb' 4 2 = 0 ∧ (x ||| 1).extractLsb' 1 3 = seg ∧
      (x ||| 1)[0] = true ∧ (x ||| 1).extractLsb' 4 2 = 0 := by
  revert seg
  decide

section
variable {h : Hdr}

theorem shfl_vec_reads {mode : ShMode} {seg : BitVec 3} {d a b : BitVec 10} {x : BitVec 6} (wf : h.wf shortLens = true)
    (bits : x.extractLsb' 1 3 = seg ∧ x[0] = false ∧ x.extractLsb' 4 2 = 0) (le : seg.toNat ≤ 4)
    (short : h.len.isExt = false → x = 0) (uses : ∀ u ∈ (Instr.shfl h mode seg d a (.vec b)).uses, u.Ok h.len) :
    Raw.Reads { (((h.raw 0x50 mode.code).setD d).setA a).setBn b with xop := x } (.shfl h mode seg d a (.vec b)) := by
  have ud : (vUse (.reg d) 1 1 true).Ok h.len := uses _ (.head _)
  have ua : (vUse (.reg a) 1 1 false).Ok h.len := uses _ (.tail _ (.head _))
  have ub : (vUse (.reg b) 1 1 false).Ok h.len := uses _ (.tail _ (.tail _ (.head _)))
  obtain ⟨hseg, reg, hi⟩ := bits
  have lt : seg.toNat < 5 := by omega
  refine .of_fields Raw.shfl wf uses rfl rfl ?_
  cases mode <;> simpa [Hdr.raw, Raw.setD, Raw.setA, Raw.setBn, Raw.dn, Raw.an, Raw.bn, Raw.xhi, hseg, reg, hi, lt,
    Raw.blank, ShMode.code] using fun s => ⟨short s, ⟨vUse_high ud s, vUse_high ua s⟩, vUse_high ub s⟩

theorem shfl_imm_reads {mode : ShMode} {seg : BitVec 3} {d a : BitVec 10} {b x : BitVec 6} (wf : h.wf shortLens = true)
    (bits : x.extractLsb' 1 3 = seg ∧ x[0] = true ∧ x.extractLsb' 4 2 = 0) (le : seg.toNat ≤ 4)
    (ext : h.len.isExt = true) (uses : ∀ u ∈ (Instr.shfl h mode seg d a (.imm b)).uses, u.Ok h.len) :
    Raw.Reads { ((h.raw 0x50 mode.code).setD d).setA a with b := b, xop := x } (.shfl h mode seg d a (.imm b)) := by
  obtain ⟨hseg, imm, hi⟩ := bits
  have lt : seg.toNat < 5 := by omega
  refine .of_fields Raw.shfl wf uses rfl rfl ?_
  cases mode <;> simp [Hdr.raw, Raw.setD, Raw.setA, Raw.dn, Raw.an, Raw.xhi, hseg, imm, hi, lt, ext, ShMode.code]

theorem shfl_reads {mode : ShMode} {seg : BitVec 3} {d a : BitVec 10} {n : ShN}
    (formOk : (Instr.shfl h mode seg d a n).formOk = true)
    (uses : ∀ u ∈ (Instr.shfl h mode seg d a n).uses, u.Ok h.len) :
    ∃ r, (Instr.shfl h mode seg d a n).raw = some r ∧ r.Reads (.shfl h mode seg d a n) := by
  obtain ⟨rest, le⟩ := Bool.and_eq_true_iff.mp formOk
  obtain ⟨wf, short⟩ := Bool.and_eq_true_iff.mp rest
  simp only [plain_iff, Bool.and_eq_true, beq_iff_eq, decide_eq_true_eq] at short le
  obtain ⟨vseg, v0, vhi, iseg, i0, ihi⟩ := seg_bits seg
  refine ⟨_, rfl, ?_⟩
  cases n with
  | vec b =>
    refine shfl_vec_reads wf ⟨vseg, v0, vhi⟩ le (fun s => ?_) uses
    rw [(short s).1]
    decide
  | imm b =>
    have ext : h.len.isExt = true := by
      by_contra s
      exact absurd (short (eq_false_of_ne_true s)).2 Bool.false_ne_true
    exact shfl_imm_reads wf ⟨iseg, i0, ihi⟩ le ext uses

theorem bit1_bits (b : Bool) : (bit1 b 0).extractLsb' 1 5 = 0#5 ∧ (bit1 b 0)[0] = b ∧ (b = false → bit1 b 0 = 0) := by
  cases b <;> decide

/-- A predicate number in a register field. -/
@[simp] theorem predicate_number (a : BitVec 3) : 0#4 ++ a.setWidth 6 = a.setWidth 10 := by
  revert a
  decide

@[simp] theorem predicate_high (p : BitVec 3) : (p.setWidth 10).extractLsb' 3 7 = 0#7 := by
  revert p
  decide

theorem isExt_of_only {h : Hdr} (wf : h.wf [.ext] = true) : h.len.isExt = true := by
  rw [ext_of_only wf]
  rfl

theorem predicate_lt (a : BitVec 3) : a.toNat % 1024 < 8 := by
  have lt := a.isLt
  omega

theorem voteBallot_reads {inv : Bool} {d : BitVec 10} {a : BitVec 3}
    (formOk : (h.wf shortLens && plain h (!inv)) = true) (uses : ∀ u ∈ (Instr.voteBallot h inv d a).uses, u.Ok h.len) :
    Raw.Reads { (h.raw 0x51 0).setD d with a := a.setWidth 6, xop := bit1 inv 0 } (.voteBallot h inv d a) := by
  simp only [Bool.and_eq_true, plain_iff, Bool.not_eq_true'] at formOk
  obtain ⟨wf, short⟩ := formOk
  have ud : (sUse d 1 1 true).Ok h.len := uses _ (.head _)
  obtain ⟨hi, hinv, zero⟩ := bit1_bits inv
  have blank (s : h.len.isExt = false) : bit1 inv 0 = 0 ∧ d.extractLsb' 6 4 = 0 := ⟨zero (short s), sUse_high ud s⟩
  exact .of_fields Raw.vote wf uses rfl rfl
    (by simpa [Hdr.raw, Raw.setD, Raw.dn, Raw.an, Raw.bn, Raw.blank, hi, hinv, predicate_lt] using blank)

/-- The form of VOTE that M selects, where it writes a predicate (R150). -/
def votePred (m : BitVec 2) (h : Hdr) (inv : Bool) (d a : BitVec 3) : Instr :=
  if m = 1 then .voteAny h inv d a else if m = 2 then .voteAll h inv d a else .voteUni h inv d a

/-- VOTE into a predicate, as it decodes (R150). -/
theorem vote_of_pred {r : Raw} (m : ¬ r.m = 0) : r.vote = r.entry shortLens true
    (err (r.xop.extractLsb' 1 5 != 0) 5 ++ zeros [r.noSc, r.noC, r.noImm, r.bn == 0] ++ err
      (decide (8 ≤ r.an.toNat)) 8 ++
      err (decide (8 ≤ r.dn.toNat)) 8)
    (votePred r.m r.hdr (r.xop.getLsbD 0) (r.dn.setWidth 3) (r.an.setWidth 3)) := by
  rw [Raw.vote, if_neg m, votePred]
  by_cases m1 : r.m = 1
  · rw [if_pos m1, if_pos m1]
  · by_cases m2 : r.m = 2
    · rw [if_neg m1, if_pos m2, if_neg m1, if_pos m2]
    · rw [if_neg m1, if_neg m2, if_neg m1, if_neg m2]

theorem votePred_reads {m : BitVec 2} {inv : Bool} {d a : BitVec 3} (hm : ¬ m = 0)
    (formOk : (h.wf shortLens && plain h (!inv)) = true) (uses : ∀ u ∈ (votePred m h inv d a).uses, u.Ok h.len) :
    Raw.Reads { h.raw 0x51 m with d := d.setWidth 6, a := a.setWidth 6, xop := bit1 inv 0 } (votePred m h inv d a) := by
  simp only [Bool.and_eq_true, plain_iff, Bool.not_eq_true'] at formOk
  obtain ⟨wf, short⟩ := formOk
  obtain ⟨hi, hinv, zero⟩ := bit1_bits inv
  have blank (s : h.len.isExt = false) : bit1 inv 0 = 0 := zero (short s)
  exact .of_fields Raw.vote wf uses rfl (vote_of_pred hm)
    (by simpa [Hdr.raw, Raw.dn, Raw.an, Raw.bn, Raw.blank, hi, hinv, predicate_lt] using blank)

theorem rop_code (op : ROp) : ROp.ofCode op.code.toNat = some op := by cases op <;> rfl

theorem red_bits (ty : ITy) (op : ROp) : let x : BitVec 6 := ty.code ++ op.code
    (x.setWidth 4 : BitVec 4) = op.code ∧ x.extractLsb' 4 2 = ty.code := by
  cases ty <;> cases op <;> decide

/-- What the check of REDG and SCANG says (R151). -/
theorem red_form {op : ROp} {ty : ITy} {toV : Bool} {d a : BitVec 10}
    (formOk : (Instr.redg h op ty toV d a).formOk = true) : h.wf shortLens = true ∧ (op.isF = true → ty = .s32) ∧
      (h.len.isExt = false → (ty.code ++ op.code : BitVec 6) = 0) := by
  obtain ⟨rest, float⟩ := Bool.and_eq_true_iff.mp formOk
  obtain ⟨wf, short⟩ := Bool.and_eq_true_iff.mp rest
  simp only [plain_iff, Bool.and_eq_true, beq_iff_eq] at short
  refine ⟨wf, fun f => ?_, fun s => ?_⟩
  · cases op with
    | fadd | fmin | fmax => exact beq_iff_eq.mp float
    | add | min | max | and | or | xor => exact absurd f Bool.false_ne_true
  · obtain ⟨add, s32⟩ := short s
    rw [add, s32]
    decide

/-- REDG and SCANG (R151). -/
theorem red_reads_of {op : ROp} {ty : ITy} {m : Bool} {d a : BitVec 10} {code : BitVec 7} {x : BitVec 6}
    {mk : Hdr → ROp → ITy → Bool → BitVec 10 → BitVec 10 → Instr}
    (dispatch : Raw.decode { ((h.raw code (if m then 1 else 0)).setD d).setA a with xop := x } =
      Raw.red { ((h.raw code (if m then 1 else 0)).setD d).setA a with xop := x } mk)
    (bits : (x.setWidth 4 : BitVec 4) = op.code ∧ x.extractLsb' 4 2 = ty.code) (wf : h.wf shortLens = true)
    (float : op.isF = true → ty = .s32)
    (short : h.len.isExt = false → x = 0 ∧ d.extractLsb' 6 4 = 0 ∧ a.extractLsb' 6 4 = 0)
    (uses : ∀ u ∈ (mk h op ty m d a).uses, u.Ok h.len) :
    Raw.Reads { ((h.raw code (if m then 1 else 0)).setD d).setA a with xop := x } (mk h op ty m d a) := by
  obtain ⟨low, hi⟩ := bits
  refine .of_fields (Raw.red · mk) wf uses dispatch rfl ?_
  cases m <;> simpa [Hdr.raw, Raw.setD, Raw.setA, Raw.dn, Raw.an, Raw.bn, Raw.xhi, Raw.blank, low, hi, rop_code] using
    ⟨float, short⟩

theorem redg_reads {op : ROp} {ty : ITy} {toV : Bool} {d a : BitVec 10}
    (formOk : (Instr.redg h op ty toV d a).formOk = true) (uses : ∀ u ∈ (Instr.redg h op ty toV d a).uses, u.Ok h.len) :
    Raw.Reads { ((h.raw 0x52 (if toV then 1 else 0)).setD d).setA a with xop := ty.code ++ op.code }
      (.redg h op ty toV d a) := by
  obtain ⟨wf, float, short⟩ := red_form formOk
  have each : ∀ u ∈ (if toV then [vUse (.reg d) ty.regs ty.regs true] else [sUse d 1 1 true]) ++
    [vUse (.reg a) ty.regs ty.regs false], u.Ok h.len := uses
  obtain ⟨ud, ua⟩ := List.forall_mem_append.mp each
  refine red_reads_of rfl (red_bits ty op) wf float (fun s => ⟨short s, ?_, vUse_high (ua _ (.head _)) s⟩) uses
  cases toV with
  | true => exact vUse_high (ud _ (.head _)) s
  | false => exact sUse_high (ud _ (.head _)) s

theorem scang_reads {op : ROp} {ty : ITy} {excl : Bool} {d a : BitVec 10}
    (formOk : (Instr.scang h op ty excl d a).formOk = true)
    (uses : ∀ u ∈ (Instr.scang h op ty excl d a).uses, u.Ok h.len) :
    Raw.Reads { ((h.raw 0x53 (if excl then 1 else 0)).setD d).setA a with xop := ty.code ++ op.code }
      (.scang h op ty excl d a) := by
  obtain ⟨wf, float, short⟩ := red_form (toV := excl) (d := d) (a := a) formOk
  have ud : (vUse (.reg d) ty.regs ty.regs true).Ok h.len := uses _ (.head _)
  have ua : (vUse (.reg a) ty.regs ty.regs false).Ok h.len := uses _ (.tail _ (.head _))
  exact red_reads_of rfl (red_bits ty op) wf float (fun s => ⟨short s, vUse_high ud s, vUse_high ua s⟩) uses

theorem rebal_reads {d : BitVec 10} {p : BitVec 3} {a b : BitVec 10} (wf : h.wf [.ext] = true)
    (uses : ∀ u ∈ (Instr.rebal h d p a b).uses, u.Ok h.len) :
    Raw.Reads { (((h.raw 0x54 0).setD d).setA a).setBn b with c := p.setWidth 10 } (.rebal h d p a b) :=
  .of_fields Raw.rebal wf uses rfl rfl
    (by simp [Hdr.raw, Raw.setD, Raw.setA, Raw.setBn, Raw.dn, Raw.an, Raw.bn, isExt_of_only wf])

end

end Sys2Proof
end

section
/-! SUPPORT. The words of the memory accesses, of FETCH and of the waits (R158 to R171, R266). -/

namespace Sys2Proof

/-! ### Atomics (R60, R167, R266) -/

theorem aop_bits (op : AOp) : let x : BitVec 6 := op.code.setWidth 6
    (x.setWidth 4 : BitVec 4) = op.code ∧ x.extractLsb' 4 2 = 0 := by
  cases op <;> decide

/-- An atomic operation reads back, with no subcode. -/
theorem atom_fields {r : Raw} {op : AOp} {ty : ITy} (xop : r.xop = op.code.setWidth 6) (m : r.m = ty.code)
    (float : op.isF = true → ty = .b32) : r.aop = op ∧ r.atomErrs = [] := by
  obtain ⟨low, hi⟩ := aop_bits op
  constructor
  · rw [Raw.aop, xop, low]
    cases op <;> rfl
  · rw [Raw.atomErrs, xop, low, Raw.xhi, xop, hi, m, err_eq_nil]
    cases op with
    | fadd | pbfadd =>
      rw [float rfl]
      decide
    | add | min | max | and | or | xor | exch | cas => cases ty <;> decide

section
variable {h : Hdr}

theorem atoms_form {o : Atom} {a : BitVec 10} (formOk : (Instr.atoms h o a).formOk = true) : h.wf shortLens = true ∧
    (h.len.isExt = false → o.op = .add ∧ o.off = 0) ∧ (o.op ≠ .cas → o.c = 0) ∧ o.scope = .team ∧
      (o.op.isF = true → o.ty = .b32) := by
  obtain ⟨rest, float⟩ := Bool.and_eq_true_iff.mp formOk
  simp only [plain_iff, Bool.and_eq_true, Bool.or_eq_true, beq_iff_eq] at rest
  obtain ⟨⟨⟨wf, short⟩, cas⟩, team⟩ := rest
  refine ⟨wf, short, cas.resolve_left, team, fun f => ?_⟩
  revert float f
  cases o.op <;> simp [AOp.isF]

/-- The raw instruction of the atomics, three register numbers and field C in it. -/
def atomRaw (h : Hdr) (op : BitVec 7) (m : BitVec 2) (d a b c : BitVec 10) (off : Word) (sc : BitVec 3) (x : BitVec 6) :
    Raw :=
  { (((h.raw op m).setD d).setA a).setBn b with c := c, imm := off, sc := sc, xop := x }

theorem atomRaw_regs (op : BitVec 7) (m : BitVec 2) (d a b c : BitVec 10) (off : Word) (sc : BitVec 3) (x : BitVec 6) :
    let r := atomRaw h op m d a b c off sc x
    r.hdr = h ∧ r.dn = d ∧ r.an = a ∧ r.bn = b :=
  ⟨hdr_eq rfl rfl rfl, number_halves d, number_halves a, number_halves b⟩

theorem atomRaw_blank {op : BitVec 7} {m : BitVec 2} {d a b c : BitVec 10} {off : Word} {sc : BitVec 3} {x : BitVec 6}
    (hd : d.extractLsb' 6 4 = 0) (ha : a.extractLsb' 6 4 = 0) (hb : b.extractLsb' 6 4 = 0) (hc : c = 0) (hoff : off = 0)
    (hsc : sc = 0) (hx : x = 0) : (atomRaw h op m d a b c off sc x).blank = true := by
  simp [atomRaw, Raw.blank, Raw.setD, Raw.setA, Raw.setBn, hd, ha, hb, hc, hoff, hsc, hx]

theorem atoms_reads {o : Atom} {a : BitVec 10} (formOk : (Instr.atoms h o a).formOk = true)
    (uses : ∀ u ∈ (Instr.atoms h o a).uses, u.Ok h.len) :
    (atomRaw h 0x5A o.ty.code o.d a o.b o.c o.off 0 (o.op.code.setWidth 6)).Reads (.atoms h o a) := by
  obtain ⟨wf, short, cas, team, float⟩ := atoms_form formOk
  have ud : (vUse (.reg o.d) o.ty.regs o.ty.regs true).Ok h.len := uses _ (.head _)
  have ua : (vUse (.reg a) 1 1 false).Ok h.len := uses _ (.tail _ (.head _))
  have ub : (vUse (.reg o.b) o.ty.regs o.ty.regs false).Ok h.len := uses _ (.tail _ (.tail _ (.head _)))
  obtain ⟨hdr, dn, an, bn⟩ := atomRaw_regs (h := h) 0x5A o.ty.code o.d a o.b o.c o.off 0 (o.op.code.setWidth 6)
  obtain ⟨aop, errs⟩ := atom_fields (r := atomRaw h 0x5A o.ty.code o.d a o.b o.c o.off 0
      (o.op.code.setWidth 6)) rfl rfl float
  have ty : (atomRaw h 0x5A o.ty.code o.d a o.b o.c o.off 0 (o.op.code.setWidth 6)).ity = o.ty := ity_code o.ty
  refine .of_entry Raw.atoms rfl rfl ?_ hdr wf uses rfl (sc_lt rfl) ?_ (fun s => ?_) (fun _ => rfl)
  · rw [hdr, dn, an, bn, aop, ty, ← team]
    rfl
  · have c : (o.op == .cas || o.c == 0) = true := by
      by_cases is : o.op = .cas
      · simp [is]
      · simp [cas is]
    rw [errs, aop]
    show zeros [true, o.op == .cas || o.c == 0] = []
    rw [c]
    rfl
  · obtain ⟨add, off⟩ := short s
    exact atomRaw_blank (vUse_high ud s) (vUse_high ua s) (vUse_high ub s) (cas (by rw [add]; decide)) off rfl
      (by rw [add]; decide)

theorem tatom_form {o : Atom} {ref : BitVec 10} (formOk : (Instr.tatom h o ref).formOk = true) : h.wf shortLens = true ∧
    (h.len.isExt = false → o.op = .add ∧ o.off = 0 ∧ o.scope = .team) ∧ (o.op ≠ .cas → o.c = 0) ∧ o.off.toNat < 65536 ∧
      (o.op.isF = true → o.ty = .b32) := by
  obtain ⟨rest, float⟩ := Bool.and_eq_true_iff.mp formOk
  simp only [plain_iff, Bool.and_eq_true, Bool.or_eq_true, beq_iff_eq, decide_eq_true_eq] at rest
  obtain ⟨⟨⟨wf, short⟩, cas⟩, lt⟩ := rest
  refine ⟨wf, fun s => ⟨(short s).1.1, (short s).1.2, (short s).2⟩, cas.resolve_left, lt, fun f => ?_⟩
  revert float f
  cases o.op <;> simp [AOp.isF]

theorem tatom_reads {o : Atom} {ref : BitVec 10} (formOk : (Instr.tatom h o ref).formOk = true)
    (uses : ∀ u ∈ (Instr.tatom h o ref).uses, u.Ok h.len) :
    (atomRaw h 0x79 o.ty.code o.d ref o.b o.c o.off (scE h o.scope) (o.op.code.setWidth 6)).Reads (.tatom h o ref) := by
  obtain ⟨wf, short, cas, lt, float⟩ := tatom_form formOk
  have ud : (vUse (.reg o.d) o.ty.regs o.ty.regs true).Ok h.len := uses _ (.head _)
  have ua : (vUse (.reg ref) 2 2 false).Ok h.len := uses _ (.tail _ (.head _))
  have ub : (vUse (.reg o.b) o.ty.regs o.ty.regs false).Ok h.len := uses _ (.tail _ (.tail _ (.head _)))
  generalize eq : atomRaw h 0x79 o.ty.code o.d ref o.b o.c o.off (scE h o.scope) (o.op.code.setWidth 6) = r
  obtain ⟨hdr, dn, an, bn⟩ : r.hdr = h ∧ r.dn = o.d ∧ r.an = ref ∧ r.bn = o.b := eq ▸ atomRaw_regs ..
  obtain ⟨aop, errs⟩ := atom_fields (r := r) (eq ▸ rfl) (eq ▸ rfl) float
  have ty : r.ity = o.ty := eq ▸ ity_code o.ty
  have hc : r.c = o.c := eq ▸ rfl
  have imm : r.imm = o.off := eq ▸ rfl
  have sc : r.sc = scE h o.scope := eq ▸ rfl
  have scope : r.scope = o.scope := scope_scE hdr sc fun s => (short s).2.2
  have c : (o.op == .cas || o.c == 0) = true := by
    by_cases is : o.op = .cas
    · simp [is]
    · simp [cas is]
  refine .of_entry Raw.tatom (eq ▸ rfl) rfl ?_ hdr wf uses rfl (sc ▸ scE_lt ..) ?_ (fun s => ?_) (fun _ => eq ▸ rfl)
  · rw [hdr, dn, an, bn, aop, ty, hc, imm, scope]
  · rw [errs, aop, noC_eq, hc, imm, c]
    simpa using lt
  · obtain ⟨add, off, -⟩ := short s
    rw [← eq]
    exact atomRaw_blank (vUse_high ud s) (vUse_high ua s) (vUse_high ub s) (cas (by rw [add]; decide)) off (scE_short s)
      (by rw [add]; decide)

theorem datom_form {o : Atom} {tab key : BitVec 10} (formOk : (Instr.datom h o tab key).formOk = true) :
    h.wf [.ext] = true ∧ o.c = 0 ∧ o.off.toNat < 65536 ∧ (o.op.isF = true → o.ty = .b32) := by
  obtain ⟨rest, float⟩ := Bool.and_eq_true_iff.mp formOk
  simp only [Bool.and_eq_true, beq_iff_eq, decide_eq_true_eq] at rest
  obtain ⟨⟨wf, c⟩, lt⟩ := rest
  refine ⟨wf, c, lt, fun f => ?_⟩
  revert float f
  cases o.op <;> simp [AOp.isF]

theorem datom_reads {o : Atom} {tab key : BitVec 10} (formOk : (Instr.datom h o tab key).formOk = true)
    (uses : ∀ u ∈ (Instr.datom h o tab key).uses, u.Ok h.len) :
    (atomRaw h 0x7A o.ty.code o.d tab key o.b o.off (scE h o.scope) (o.op.code.setWidth 6)).Reads
    (.datom h o tab key) := by
  obtain ⟨wf, c0, lt, float⟩ := datom_form formOk
  have ext := isExt_of_only wf
  generalize eq : atomRaw h 0x7A o.ty.code o.d tab key o.b o.off (scE h o.scope) (o.op.code.setWidth 6) = r
  obtain ⟨hdr, dn, an, bn⟩ : r.hdr = h ∧ r.dn = o.d ∧ r.an = tab ∧ r.bn = key := eq ▸ atomRaw_regs ..
  obtain ⟨aop, errs⟩ := atom_fields (r := r) (eq ▸ rfl) (eq ▸ rfl) float
  have ty : r.ity = o.ty := eq ▸ ity_code o.ty
  have hc : r.c = o.b := eq ▸ rfl
  have imm : r.imm = o.off := eq ▸ rfl
  have sc : r.sc = scE h o.scope := eq ▸ rfl
  have scope : r.scope = o.scope := scope_scE hdr sc fun s => absurd (ext.symm.trans s) (by decide)
  refine .of_entry Raw.datom (eq ▸ rfl) rfl ?_ hdr wf uses rfl (sc ▸ scE_lt ..) ?_
    (fun s => absurd (ext.symm.trans s) (by decide)) (fun _ => eq ▸ rfl)
  · rw [hdr, dn, an, bn, aop, ty, hc, imm, scope, ← c0]
  · rw [errs, imm]
    simpa using lt

end

/-! ### Scratchpad and table accesses (R161, R165, R168, R169) -/

@[simp] theorem size_code (s : Size) : Size.ofCode s.code = s ∧ s.code ≠ 3#2 := by cases s <;> decide

theorem size_one (s : Size) : (s.regs == 1) = (s == .b32) := by cases s <;> rfl

theorem VOp.Fits.of_scalar {o : VOp} {ok : Bool} {l : Len} (fits : o.Fits true l)
    (scalar : ok = true ∨ scalarOk true [o] = true) :
    o.Fits ok l := by
  cases o with
  | reg n => exact fits
  | idx x off => exact ⟨scalar.resolve_right (by simp [scalarOk]), fits.2⟩

/-- Fields that read as an access's data register, displacement and size, whatever its base. -/
structure Raw.SpFront (r : Raw) (h : Hdr) (o : SpAcc) : Prop where
  hdr : r.hdr = h
  m : r.m = o.size.code
  sc : r.sc = 0
  c : r.c = 0
  data : r.vop 0 r.dn (o.size == .b32) = o.data
  dataErrs : r.vopErrs 0 r.dn (o.size == .b32) = []
  sel2 : r.sel 2 = 0
  sel3 : r.sel 3 = 0
  disp : (if r.isExt then r.imm else r.b.setWidth 32 <<< 2) = o.disp
  bn : (!r.isExt || r.bn == 0) = true

/-- The base of a scratchpad address, as it decodes (R161). -/
def Raw.spBase (r : Raw) (one : Bool) : SpBase :=
  if (r.xop.setWidth 2 : BitVec 2) = 0 then .vec (r.vop 1 r.an one)
  else if (r.xop.setWidth 2 : BitVec 2) = 1 then .sca r.an else .none

section
variable {h : Hdr}

theorem spAcc_reads_of {r : Raw} {o : SpAcc} {mk : Hdr → SpAcc → Instr} {x : BitVec 6} (f : r.SpFront h o)
    (dispatch : r.decode = r.spAcc mk) (wf : h.wf allLens = true) (uses : ∀ u ∈ (mk h o).uses, u.Ok h.len)
    (xop : r.xop = x) (base : r.spBase (o.size == .b32) = o.base)
    (bits : ((x.setWidth 2 : BitVec 2) == 3 || (x.extractLsb' 2 4 : BitVec 4) != 0) = false)
    (noBase : ((x.setWidth 2 : BitVec 2) != 2 || r.an == 0) = true)
    (baseErrs : r.vopErrs 1 r.an ((o.size == .b32) && (x.setWidth 2 : BitVec 2) == 0) = [])
    (short : h.len.isExt = false → r.blank = true) (noLit : h.len.isLit = false → r.lit = 0) : r.Reads (mk h o) := by
  obtain ⟨size, three⟩ := size_code o.size
  refine .of_entry (Raw.spAcc · mk) dispatch rfl ?_ f.hdr wf uses ?_ (sc_lt f.sc) ?_ short noLit
  · rw [f.hdr, f.m, size, f.disp, f.data]
    exact congrArg (fun b => mk h ⟨o.size, b, o.disp, o.data⟩) base
  · rw [f.m]
    exact bne_iff_ne.mpr three
  · rw [f.m, size, xop, bits, noBase, baseErrs, f.dataErrs, vopErrs_zero f.sel2, vopErrs_zero f.sel3, f.bn, noSc_eq,
      f.sc,
      noC_eq, f.c]
    rfl

/-- The raw instruction of an access before its base. -/
def spFront (h : Hdr) (op : BitVec 7) (o : SpAcc) : Raw :=
  if h.len.isExt then { (h.raw op o.size.code).opD o.data with imm := o.disp }
  else { (h.raw op o.size.code).opD o.data with b := o.disp.extractLsb' 2 6 }

theorem disp_short {d : Word} (four : d.toNat % 4 = 0) (lt : d.toNat < 256) :
    (d.extractLsb' 2 6).setWidth 32 <<< 2 = d := by
  apply BitVec.eq_of_toNat_eq
  simp [Nat.shiftRight_eq_div_pow, Nat.shiftLeft_eq]
  omega

theorem vop_of {r : Raw} {k : Nat} {n : BitVec 10} {o : VOp} {ok : Bool} (num : n = o.num) (sel : r.sel k = o.sel)
    (fits : o.Fits ok r.len) : r.vop k n ok = o ∧ r.vopErrs k n ok = [] := by
  subst num
  exact ⟨vop_eq sel fits, vopErrs_eq sel fits⟩

theorem spFront_front {op : BitVec 7} {o : SpAcc} (fits : o.data.Fits (o.size == .b32) h.len)
    (disp : spOk h o.disp = true) : (spFront h op o).SpFront h o := by
  have sel (k : Nat) (hk : k < 4) : ((h.raw op o.size.code).opD o.data).sel k = if 0 = k then o.data.sel else 0 := by
    rw [sel_opD hk, sel_raw]
    exact BitVec.zero_or
  simp only [spOk, Bool.or_eq_true, decide_eq_true_eq] at disp
  have hdr : (spFront h op o).hdr = h := by rw [spFront]; split <;> exact hdr_eq rfl rfl rfl
  have len : (spFront h op o).len = h.len := congrArg Hdr.len hdr
  have dn : (spFront h op o).dn = o.data.num := by rw [spFront]; split <;> exact number_halves _
  have sels (k : Nat) (hk : k < 4) : (spFront h op o).sel k = if 0 = k then o.data.sel else 0 := by
    rw [spFront]
    split <;> exact sel k hk
  obtain ⟨data, dataErrs⟩ := vop_of dn (sels 0 (by decide)) (len.symm ▸ fits)
  refine ⟨hdr, ?_, ?_, ?_, data, dataErrs, sels 2 (by decide), sels 3 (by decide), ?_, ?_⟩
  · rw [spFront]; split <;> rfl
  · rw [spFront]; split <;> rfl
  · rw [spFront]; split <;> rfl
  · rw [isExt_eq, len, spFront]
    cases ext : h.len.isExt with
    | true => rfl
    | false =>
      obtain ⟨four, lt⟩ := disp.resolve_left (by simp [ext])
      exact disp_short four lt
  · rw [isExt_eq, len, spFront]
    cases ext : h.len.isExt with
    | true => exact (by decide : (!true || (0 : BitVec 4) ++ (0 : BitVec 6) == (0 : BitVec 10)) = true)
    | false => rfl

/-- A change of the A field and of XOP leaves the rest of an access. -/
theorem Raw.SpFront.based {r r' : Raw} {o : SpAcc} (f : r.SpFront h o) (same : r' = { r with
      a := r'.a, ahi := r'.ahi, xop := r'.xop, lit := r'.lit })
    (sel : ∀ k, k ≠ 1 → k < 4 → r'.sel k = r.sel k) : r'.SpFront h o := by
  have hdr : r'.hdr = h := by rw [same]; exact f.hdr
  have len : r'.len = r.len := by rw [same]; rfl
  have dn : r'.dn = r.dn := by rw [same]; rfl
  refine ⟨hdr, ?_, ?_, ?_, ?_, ?_, (sel 2 (by decide) (by decide)).trans f.sel2,
      (sel 3 (by decide) (by decide)).trans f.sel3,
    ?_, ?_⟩
  · rw [same]; exact f.m
  · rw [same]; exact f.sc
  · rw [same]; exact f.c
  · rw [dn, vop_congr len (sel 0 (by decide) (by decide))]
    exact f.data
  · rw [dn, vopErrs_congr len (sel 0 (by decide) (by decide))]
    exact f.dataErrs
  · rw [same]; exact f.disp
  · rw [same]; exact f.bn

theorem spFront_fields (op : BitVec 7) (o : SpAcc) : let r := spFront h op o
    r.op = op ∧ r.xop = 0 ∧ r.lit = 0 ||| o.data.selWord 0 ∧ r.dhi = o.data.num.extractLsb' 6 4 ∧ r.bhi = 0 ∧ r.an = 0 ∧
      r.sel 1 = 0 ∧ (h.len.isExt = false → r.imm = 0) := by
  have zero : (0 : BitVec 4) ++ (0 : BitVec 6) = (0 : BitVec 10) := by decide
  have sel1 : ((h.raw op o.size.code).opD o.data).sel 1 = 0 := by
    rw [sel_opD (by decide), sel_raw, if_neg Nat.zero_ne_one]
    rfl
  rw [spFront]
  split
  next ext => exact ⟨rfl, rfl, rfl, rfl, rfl, zero, sel1, fun s => absurd (ext.symm.trans s) (by decide)⟩
  next => exact ⟨rfl, rfl, rfl, rfl, rfl, zero, sel1, fun _ => rfl⟩

theorem blank_iff {r : Raw} : r.blank = true ↔
    r.xop = 0 ∧ r.sc = 0 ∧ r.c = 0 ∧ r.dhi = 0 ∧ r.ahi = 0 ∧ r.bhi = 0 ∧ r.imm = 0 := by
  simp [Raw.blank, and_assoc]

theorem spBase_vec_fits {o : SpAcc} {v : VOp} (base : o.base = .vec v) {l : Len} (ok : (vUse v 1 1 false).Ok l)
    (scalar : (o.size == .b32 || (match o.base with | .vec b => scalarOk true [b] | _ => true)) = true) :
    v.Fits (o.size == .b32) l := by
  rw [base, Bool.or_eq_true] at scalar
  exact (vUse_fits ok : v.Fits true l).of_scalar scalar

theorem sp_reads {op : BitVec 7} {o : SpAcc} {mk : Hdr → SpAcc → Instr}
    (dispatch : ∀ r : Raw, r.op = op → r.decode = r.spAcc mk) (formOk : (Instr.lds h o).formOk = true)
    (dst : Bool) (mkUses : (mk h o).uses = vUse o.data o.size.regs o.size.regs dst :: spUse o.base)
    (uses : ∀ u ∈ (mk h o).uses, u.Ok h.len) : (o.raw h op).Reads (mk h o) := by
  obtain ⟨rest, scalar⟩ := Bool.and_eq_true_iff.mp formOk
  obtain ⟨rest, -⟩ := Bool.and_eq_true_iff.mp rest
  obtain ⟨rest, short⟩ := Bool.and_eq_true_iff.mp rest
  obtain ⟨wf, disp⟩ := Bool.and_eq_true_iff.mp rest
  have each := uses
  rw [mkUses, List.forall_mem_cons] at each
  obtain ⟨ud, ub⟩ := each
  have fd : o.data.Fits (o.size == .b32) h.len := size_one o.size ▸ vUse_fits ud
  have front := spFront_front (op := op) fd disp
  obtain ⟨hop, xop, lit, dhi, bhi, an, sel1, imm⟩ := spFront_fields (h := h) op o
  have len : (spFront h op o).len = h.len := congrArg Hdr.len front.hdr
  cases base : o.base with
  | vec v =>
    rw [base] at ub
    have fa : v.Fits (o.size == .b32) h.len := spBase_vec_fits base (ub _ (.head _)) scalar
    have raw : o.raw h op = (spFront h op o).opA v := by rw [SpAcc.raw, base]; rfl
    have aSel : ((spFront h op o).opA v).sel 1 = v.sel := by
      rw [sel_opA (by decide), sel1]
      exact BitVec.zero_or
    obtain ⟨fst, fstErrs⟩ := vop_of (r := (spFront h op o).opA v) (number_halves _) aSel (len.symm ▸ fa)
    rw [raw]
    refine spAcc_reads_of (front.based rfl fun k one hk => ?_) (dispatch _ hop) wf uses xop ?_ (by decide) rfl ?_
      (fun s => ?_)
      (fun noLit => ?_)
    · rw [sel_opA hk, if_neg one.symm]
      exact BitVec.or_zero
    · rw [base, Raw.spBase, show ((spFront h op o).opA v).xop = 0 from xop]
      exact congrArg SpBase.vec fst
    · exact (congrArg _ (Bool.and_true _)).trans fstErrs
    · exact blank_iff.mpr ⟨xop, front.sc, front.c, dhi.trans (fd.high s), fa.high s, bhi, imm s⟩
    · show (spFront h op o).lit ||| v.selWord 1 = 0
      rw [lit, fd.selWord noLit, fa.selWord noLit]
      rfl
  | sca n =>
    have ext : h.len.isExt = true := by rw [base] at short; exact short
    have raw : o.raw h op = { (spFront h op o).setA n with xop := 1 } := by rw [SpAcc.raw, base]; rfl
    rw [raw]
    refine spAcc_reads_of (x := 1) (front.based rfl fun k _ _ => rfl) (dispatch _ hop) wf uses rfl ?_ (by decide) rfl
      (vopErrs_zero sel1)
      (fun s => absurd (ext.symm.trans s) (by decide)) (fun noLit => ?_)
    · rw [base]
      exact congrArg SpBase.sca (number_halves n)
    · show (spFront h op o).lit = 0
      rw [lit, fd.selWord noLit]
      rfl
  | none =>
    have ext : h.len.isExt = true := by rw [base] at short; exact short
    have raw : o.raw h op = { spFront h op o with xop := 2 } := by rw [SpAcc.raw, base]; rfl
    rw [raw]
    refine spAcc_reads_of (x := 2) (front.based rfl fun k _ _ => rfl) (dispatch _ hop) wf uses rfl ?_ (by decide) ?_
      (vopErrs_zero sel1)
      (fun s => absurd (ext.symm.trans s) (by decide)) (fun noLit => ?_)
    · rw [base]
      rfl
    · exact beq_iff_eq.mpr an
    · show (spFront h op o).lit = 0
      rw [lit, fd.selWord noLit]
      rfl

end

/-! ### Dense tables and rows (R161, R168, R169) -/

theorem off_lt (off : BitVec 16) : (off.setWidth 32 : Word).toNat < 65536 := by
  have lt := off.isLt
  simp only [BitVec.toNat_setWidth]
  omega

@[simp] theorem off_wide (off : BitVec 16) : ((off.setWidth 32 : Word).setWidth 16 : BitVec 16) = off := by
  simp

section
variable {h : Hdr}

/-- The data register of an access whose other operands are plain register numbers. -/
theorem data_fields {r : Raw} {o : VOp} {ok : Bool} (lit : r.lit = 0 ||| o.selWord 0) (dn : r.dn = o.num)
    (fits : o.Fits ok r.len) : r.vop 0 r.dn ok = o ∧ r.vopErrs 0 r.dn ok = [] ∧ r.sel 1 = 0 ∧ r.sel 2 = 0 ∧ r.sel 3 =
    0 := by
  have sel (k : Nat) (hk : k < 4) : r.sel k = if 0 = k then o.sel else 0 :=
    (sel_or_selWord (r := (noGuard .base).raw 0 0) hk lit).trans (by rw [sel_raw]; exact BitVec.zero_or)
  obtain ⟨data, errs⟩ := vop_of dn (sel 0 (by decide)) fits
  exact ⟨data, errs, sel 1 (by decide), sel 2 (by decide), sel 3 (by decide)⟩

theorem key_isS (key : KeyOp) : (if key.isS then KeyOp.sca key.num else .vec key.num) = key := by
  cases key <;> rfl

theorem keyUse_high {key : KeyOp} {l : Len} (ok : key.use.Ok l) (short : l.isExt = false) : key.num.extractLsb' 6 4 =
    0 := by
  cases key with
  | vec n => exact vUse_high ok short
  | sca n => exact sUse_high ok short

theorem dn_reads {op : BitVec 7} {o : DnAcc} {mk : Hdr → DnAcc → Instr} (dst : Bool)
    (dispatch : ∀ r : Raw, r.op = op → r.decode = r.dnAcc mk) (formOk : (Instr.dld h o).formOk = true)
    (mkUses : (mk h o).uses = [vUse o.data o.size.regs o.size.regs dst, sUse o.tab 1 1 false, o.key.use])
    (uses : ∀ u ∈ (mk h o).uses, u.Ok h.len) : (o.raw h op).Reads (mk h o) := by
  obtain ⟨rest, -⟩ := Bool.and_eq_true_iff.mp formOk
  obtain ⟨wf, short⟩ := Bool.and_eq_true_iff.mp rest
  simp only [plain_iff, Bool.and_eq_true, beq_iff_eq] at short
  have each := uses
  rw [mkUses, List.forall_mem_cons, List.forall_mem_cons] at each
  obtain ⟨ud, ua, ub⟩ := each
  have ub := ub _ (.head _)
  have fd : o.data.Fits (o.size == .b32) h.len := size_one o.size ▸ vUse_fits ud
  obtain ⟨size, three⟩ := size_code o.size
  obtain ⟨hi, isS, -⟩ := bit1_bits o.key.isS
  generalize eq : o.raw h op = r
  have hdr : r.hdr = h := eq ▸ hdr_eq rfl rfl rfl
  have len : r.len = h.len := congrArg Hdr.len hdr
  have m : r.m = o.size.code := eq ▸ rfl
  have dn : r.dn = o.data.num := eq ▸ number_halves _
  have an : r.an = o.tab := eq ▸ number_halves _
  have bn : r.bn = o.key.num := eq ▸ number_halves _
  have xop : r.xop = bit1 o.key.isS 0 := eq ▸ rfl
  have sc : r.sc = scE h o.scope := eq ▸ rfl
  have imm : r.imm = o.off.setWidth 32 := eq ▸ rfl
  have c : r.c = 0 := eq ▸ rfl
  have lit : r.lit = 0 ||| o.data.selWord 0 := eq ▸ rfl
  have scope : r.scope = o.scope := scope_scE hdr sc fun s => (short s).1.1
  obtain ⟨data, dataErrs, sel1, sel2, sel3⟩ := data_fields lit dn (len.symm ▸ fd)
  refine .of_entry (Raw.dnAcc · mk) (dispatch r (eq ▸ rfl)) rfl ?_ hdr wf uses (by rw [m]; exact bne_iff_ne.mpr three)
    (sc ▸ scE_lt ..) ?_ (fun s => ?_) (fun noLit => by rw [lit, fd.selWord noLit]; rfl)
  · rw [hdr, m, size, scope, data, an, bn, xop, imm, off_wide,
      BitVec.getLsbD_eq_getElem (by decide), isS, key_isS]
  · rw [m, size, xop, hi, dataErrs, vopErrs_zero sel1, vopErrs_zero sel2, vopErrs_zero sel3, noC_eq, c, imm,
      decide_eq_true (off_lt _)]
    rfl
  · obtain ⟨⟨team, off⟩, vec⟩ := short s
    have isS : o.key.isS = false := by
      cases key : o.key with
      | vec n => rfl
      | sca n =>
        rw [key] at vec
        exact absurd vec Bool.false_ne_true
    exact blank_iff.mpr ⟨by rw [xop, isS]; rfl, sc.trans (scE_short s), c, eq ▸ fd.high s, eq ▸ sUse_high ua s,
      eq ▸ keyUse_high ub s, by rw [imm, off]; rfl⟩

/-- Fields that read as an access's data register, row and offset. -/
structure Raw.RowFront (r : Raw) (h : Hdr) (o : RowAcc) : Prop where
  hdr : r.hdr = h
  m : r.m = o.size.code
  sc : r.sc = scE h o.scope
  lit : r.lit = 0 ||| o.data.selWord 0
  dn : r.dn = o.data.num
  an : r.an = o.ref
  off : (if r.isExt then r.imm.setWidth 16 else r.b.setWidth 16 <<< 2) = o.off
  imm : r.imm.toNat < 65536
  bn : (!r.isExt || r.bn == 0) = true
  high : r.dhi = o.data.num.extractLsb' 6 4 ∧ r.ahi = o.ref.extractLsb' 6 4 ∧ r.bhi = 0
  short : h.len.isExt = false → r.imm = 0

/-- The raw instruction of an access to a row before its predicate. -/
def rowFront (h : Hdr) (op : BitVec 7) (o : RowAcc) : Raw :=
  let r := { ((h.raw op o.size.code).opD o.data).setA o.ref with sc := scE h o.scope }
  if h.len.isExt then { r with imm := o.off.setWidth 32 } else { r with b := o.off.extractLsb' 2 6 }

theorem off_short {d : BitVec 16} (four : d.toNat % 4 = 0) (lt : d.toNat < 256) :
    (d.extractLsb' 2 6).setWidth 16 <<< 2 = d := by
  apply BitVec.eq_of_toNat_eq
  simp [Nat.shiftRight_eq_div_pow, Nat.shiftLeft_eq]
  omega

theorem rowFront_front {op : BitVec 7} {o : RowAcc}
    (short : h.len.isExt = false → o.off.toNat % 4 = 0 ∧ o.off.toNat < 256) : (rowFront h op o).RowFront h o := by
  have zero : ((0 : BitVec 4) ++ (0 : BitVec 6) == (0 : BitVec 10)) = true := by decide
  cases ext : h.len.isExt with
  | true =>
    have raw : rowFront h op o = { ((h.raw op o.size.code).opD o.data).setA o.ref with
      sc := scE h o.scope, imm := o.off.setWidth 32 } := if_pos ext
    generalize rowFront h op o = r at raw
    have hdr : r.hdr = h := raw ▸ hdr_eq rfl rfl rfl
    have isExt : r.isExt = true := (congrArg (·.len.isExt) hdr).trans ext
    refine ⟨hdr, raw ▸ rfl, raw ▸ rfl, raw ▸ rfl, raw ▸ number_halves _, raw ▸ number_halves _, ?_, raw ▸ off_lt _, ?_,
      raw ▸ ⟨rfl, rfl, rfl⟩, fun s => absurd (ext.symm.trans s) (by decide)⟩
    · rw [isExt, raw]
      exact off_wide _
    · rw [isExt, raw]
      exact zero
  | false =>
    obtain ⟨four, lt⟩ := short ext
    have raw : rowFront h op o = { ((h.raw op o.size.code).opD o.data).setA o.ref with
      sc := scE h o.scope, b := o.off.extractLsb' 2 6 } := if_neg (ne_true_of_eq_false ext)
    generalize rowFront h op o = r at raw
    have hdr : r.hdr = h := raw ▸ hdr_eq rfl rfl rfl
    have isExt : r.isExt = false := (congrArg (·.len.isExt) hdr).trans ext
    have imm : r.imm = 0 := raw ▸ rfl
    refine ⟨hdr, raw ▸ rfl, raw ▸ rfl, raw ▸ rfl, raw ▸ number_halves _, raw ▸ number_halves _, ?_, by rw [imm]; decide,
        ?_,
      raw ▸ ⟨rfl, rfl, rfl⟩, fun _ => imm⟩
    · rw [isExt, raw]
      exact off_short four lt
    · rw [isExt]
      rfl

/-- What TLD and TST have in common once the predicate of TLD.ck is known (R169). -/
theorem rowAcc_reads_of {r : Raw} {o : RowAcc} {load : Bool} {mk : Hdr → RowAcc → Instr} (f : r.RowFront h o)
    (dispatch : r.decode = r.rowAcc load mk) (wf : h.wf allLens = true) (uses : ∀ u ∈ (mk h o).uses, u.Ok h.len)
    (fd : o.data.Fits (o.size == .b32) h.len) (ref : h.len.isExt = false → o.ref.extractLsb' 6 4 = 0)
    (team : h.len.isExt = false → o.scope = .team)
    (bits : (if load then r.xop.extractLsb' 1 5 != (0 : BitVec 5) else !r.noX) = false)
    (ck : (if load && r.xop.getLsbD 0 then some (r.c.setWidth 3) else none) = o.ck)
    (unused : (if load && r.xop.getLsbD 0 then r.c.extractLsb' 3 7 == (0 : BitVec 7) else r.noC) = true)
    (none : h.len.isExt = false → r.xop = 0 ∧ r.c = 0) : r.Reads (mk h o) := by
  obtain ⟨size, three⟩ := size_code o.size
  have len : r.len = h.len := congrArg Hdr.len f.hdr
  have scope : r.scope = o.scope := scope_scE f.hdr f.sc team
  obtain ⟨data, dataErrs, sel1, sel2, sel3⟩ := data_fields f.lit f.dn (len.symm ▸ fd)
  refine .of_entry (Raw.rowAcc · load mk) dispatch rfl ?_ f.hdr wf uses (by rw [f.m]; exact bne_iff_ne.mpr three)
    (f.sc ▸ scE_lt ..) ?_ (fun s => ?_) (fun noLit => by rw [f.lit, fd.selWord noLit]; rfl)
  · rw [f.hdr, f.m, size, scope, data, f.an, f.off, ck]
  · rw [f.m, size, bits, dataErrs, vopErrs_zero sel1, vopErrs_zero sel2, vopErrs_zero sel3, unused, f.bn,
      decide_eq_true f.imm]
    rfl
  · obtain ⟨dhi, ahi, bhi⟩ := f.high
    obtain ⟨xop, c⟩ := none s
    exact blank_iff.mpr ⟨xop, f.sc.trans (scE_short s), c, dhi.trans (fd.high s), ahi.trans (ref s), bhi, f.short s⟩

theorem rowFront_rest (op : BitVec 7) (o : RowAcc) :
    (rowFront h op o).op = op ∧ (rowFront h op o).xop = 0 ∧ (rowFront h op o).c = 0 := by
  rw [rowFront]
  split <;> exact ⟨rfl, rfl, rfl⟩

/-- TLD and TST with no predicate. -/
theorem row_reads {op : BitVec 7} {o : RowAcc} {load : Bool} {mk : Hdr → RowAcc → Instr}
    (dispatch : ∀ r : Raw, r.op = op → r.decode = r.rowAcc load mk) (wf : h.wf allLens = true)
    (short : h.len.isExt = false → o.scope = .team ∧ o.off.toNat % 4 = 0 ∧ o.off.toNat < 256) (ck : o.ck = none)
    (ud : (vUse o.data o.size.regs o.size.regs load).Ok h.len) (ur : (vUse (.reg o.ref) 2 2 false).Ok h.len)
    (uses : ∀ u ∈ (mk h o).uses, u.Ok h.len) : (o.raw h op).Reads (mk h o) := by
  have raw : o.raw h op = rowFront h op o := by rw [RowAcc.raw, ck]; rfl
  obtain ⟨hop, xop, c⟩ := rowFront_rest (h := h) op o
  rw [raw]
  refine rowAcc_reads_of (rowFront_front fun s => (short s).2) (dispatch _ hop) wf uses (size_one o.size ▸ vUse_fits ud)
    (vUse_high ur) (fun s => (short s).1) ?_ ?_ ?_ (fun _ => ⟨xop, c⟩)
  · rw [noX_eq, xop]
    cases load <;> rfl
  · rw [xop, ck]
    cases load <;> rfl
  · rw [xop, noC_eq, c]
    cases load <;> rfl

theorem predicate_low (p : BitVec 3) : ((p.setWidth 10 : BitVec 10).setWidth 3 : BitVec 3) = p := by
  revert p
  decide

theorem tst_reads {o : RowAcc} (formOk : (Instr.tst h o).formOk = true) (uses : ∀ u ∈ (Instr.tst h o).uses, u.Ok h.len) :
    (o.raw h 0x5E).Reads (.tst h o) := by
  obtain ⟨rest, -⟩ := Bool.and_eq_true_iff.mp formOk
  obtain ⟨rest, ck⟩ := Bool.and_eq_true_iff.mp rest
  obtain ⟨wf, short⟩ := Bool.and_eq_true_iff.mp rest
  simp only [plain_iff, Bool.and_eq_true, beq_iff_eq, decide_eq_true_eq] at short
  exact row_reads (fun r op => by rw [Raw.decode, op]; rfl) wf short (Option.isNone_iff_eq_none.mp ck) (uses _ (.head _))
    (uses _ (.tail _ (.head _))) uses

theorem tld_reads {o : RowAcc} (formOk : (Instr.tld h o).formOk = true) (uses : ∀ u ∈ (Instr.tld h o).uses, u.Ok h.len) :
    (o.raw h 0x5D).Reads (.tld h o) := by
  obtain ⟨rest, -⟩ := Bool.and_eq_true_iff.mp formOk
  obtain ⟨wf, short⟩ := Bool.and_eq_true_iff.mp rest
  simp only [plain_iff, Bool.and_eq_true, beq_iff_eq, decide_eq_true_eq] at short
  have ud : (vUse o.data o.size.regs o.size.regs true).Ok h.len := uses _ (.head _)
  have ur : (vUse (.reg o.ref) 2 2 false).Ok h.len := uses _ (.tail _ (.head _))
  have dispatch (r : Raw) (op : r.op = 0x5D) : r.decode = r.rowAcc true .tld := by rw [Raw.decode, op]; rfl
  cases ck : o.ck with
  | none => exact row_reads dispatch wf (fun s => ⟨(short s).1.1, (short s).2⟩) ck ud ur uses
  | some p =>
    have ext : h.len.isExt = true := by
      by_contra s
      have none := (short (eq_false_of_ne_true s)).1.2
      rw [ck] at none
      exact absurd none Bool.false_ne_true
    have raw : o.raw h 0x5D = { rowFront h 0x5D o with xop := 1, c := p.setWidth 10 } := by rw [RowAcc.raw, ck]; rfl
    obtain ⟨hop, -, -⟩ := rowFront_rest (h := h) 0x5D o
    have short (s : h.len.isExt = false) {P : Prop} : P := absurd (ext.symm.trans s) (by decide)
    have f := rowFront_front (op := 0x5D) (o := o) fun s => short s
    rw [raw]
    refine rowAcc_reads_of ⟨f.hdr, f.m, f.sc, f.lit, f.dn, f.an, f.off, f.imm, f.bn, f.high, f.short⟩
      (dispatch _ hop) wf uses
      (size_one o.size ▸ vUse_fits ud) (vUse_high ur) (fun s => short s)
      (by decide : ((1 : BitVec 6).extractLsb' 1 5 != (0 : BitVec 5)) = false) ?_ ?_ (fun s => short s)
    · rw [ck]
      refine (if_pos ?_).trans (congrArg some (predicate_low p))
      exact (by decide : (true && (1 : BitVec 6).getLsbD 0) = true)
    · refine (if_pos ?_).trans (beq_iff_eq.mpr (predicate_high p))
      exact (by decide : (true && (1 : BitVec 6).getLsbD 0) = true)

end

/-! ### FETCH and the waits (R170, R171) -/

def FKey.isS : FKey → Bool
  | .vec _ => false
  | .sca _ => true

/-- The register number that a key operand of FETCH leaves in its field. -/
def FKey.num : FKey → BitVec 10
  | .vec o => o.num
  | .sca n => n

def FKey.sel : FKey → BitVec 16
  | .vec o => o.sel
  | .sca _ => 0

def FIdx.isImm : FIdx → Bool
  | .vec _ => false
  | .imm _ => true

/-- The register number that an index of FETCH leaves in field C. -/
def FIdx.num : FIdx → BitVec 10
  | .vec o => o.num
  | .imm _ => 0

def FIdx.word : FIdx → Word
  | .vec _ => 0
  | .imm w => w

def FIdx.sel : FIdx → BitVec 16
  | .vec o => o.sel
  | .imm _ => 0

def FKey.Fits (k : FKey) (l : Len) : Prop :=
  match k with
  | .vec o => o.Fits true l
  | .sca _ => True

def FIdx.Fits (c : FIdx) (l : Len) : Prop :=
  match c with
  | .vec o => o.Fits true l
  | .imm _ => True

theorem fetchKey_reads {r : Raw} {k : FKey} (bn : r.bn = k.num) (sel : r.sel 2 = k.sel) (fits : k.Fits r.len) :
    (if k.isS then FKey.sca r.bn else .vec (r.vop 2 r.bn true)) = k ∧ r.vopErrs 2 r.bn (!k.isS) = [] := by
  cases k with
  | vec o =>
    obtain ⟨op, errs⟩ := vop_of bn sel fits
    exact ⟨congrArg FKey.vec op, errs⟩
  | sca n => exact ⟨congrArg FKey.sca bn, vopErrs_zero sel⟩

theorem fetchIdx_reads {r : Raw} {c : FIdx} (hc : r.c = c.num) (imm : r.imm = c.word) (sel : r.sel 3 = c.sel)
    (fits : c.Fits r.len) : (if c.isImm then FIdx.imm r.imm else .vec (r.vop 3 r.c true)) = c ∧
      r.vopErrs 3 r.c (!c.isImm) = [] ∧ (if c.isImm then r.noC else r.noImm) = true := by
  cases c with
  | vec o =>
    obtain ⟨op, errs⟩ := vop_of hc sel fits
    exact ⟨congrArg FIdx.vec op, errs, beq_iff_eq.mpr imm⟩
  | imm w => exact ⟨congrArg FIdx.imm imm, vopErrs_zero sel, beq_iff_eq.mpr hc⟩

theorem fetch_bits (s i : Bool) (f : BitVec 4) : let x : BitVec 6 := bit1 s 4 ||| bit1 i 5 ||| f.setWidth 6
    (x.setWidth 4 : BitVec 4) = f ∧ x.getLsbD 4 = s ∧ x.getLsbD 5 = i := by
  revert s i f
  decide

/-- The key of FETCH in a raw instruction (R170). -/
def Raw.fetchKey (r : Raw) (k : FKey) : Raw :=
  match k with | .vec v => r.opB v | .sca n => (r.setBn n).x (bit1 true 4)

/-- The element index of FETCH in a raw instruction (R170). -/
def Raw.fetchIdx (r : Raw) (c : FIdx) : Raw :=
  match c with | .vec v => r.opC v | .imm w => { r.x (bit1 true 5) with imm := w }

/-- The raw instruction of FETCH (R170). -/
def Fetch.raw (o : Fetch) (h : Hdr) : Raw :=
  (((((h.raw 0x5F o.n1).opD o.d).setA o.tab).fetchKey o.key).fetchIdx o.c).x (o.fmt.code.setWidth 6)

theorem fetchKey_xop (r : Raw) (k : FKey) : (r.fetchKey k).xop = r.xop ||| bit1 k.isS 4 := by
  cases k with
  | vec o => exact BitVec.or_zero.symm
  | sca n => rfl

theorem fetchIdx_xop (r : Raw) (c : FIdx) : (r.fetchIdx c).xop = r.xop ||| bit1 c.isImm 5 := by
  cases c with
  | vec o => exact BitVec.or_zero.symm
  | imm w => rfl

theorem fetchKey_sel {k : Nat} (hk : k < 4) (r : Raw) (key : FKey) :
    (r.fetchKey key).sel k = r.sel k ||| if 2 = k then key.sel else 0 := by
  cases key with
  | vec o => exact sel_opB hk r o
  | sca n => exact (by simp : r.sel k = r.sel k ||| if 2 = k then 0 else 0)

theorem fetchIdx_sel {k : Nat} (hk : k < 4) (r : Raw) (c : FIdx) :
    (r.fetchIdx c).sel k = r.sel k ||| if 3 = k then c.sel else 0 := by
  cases c with
  | vec o => exact sel_opC hk r o
  | imm w => exact (by simp : r.sel k = r.sel k ||| if 3 = k then 0 else 0)

section
variable {h : Hdr}

theorem fetch_xop (o : Fetch) : (o.raw h).xop = bit1 o.key.isS 4 ||| bit1 o.c.isImm 5 ||| o.fmt.code.setWidth 6 := by
  have zero : (0 : BitVec 6) ||| bit1 o.key.isS 4 = bit1 o.key.isS 4 := BitVec.zero_or
  refine congrArg (· ||| o.fmt.code.setWidth 6) ?_
  rw [fetchIdx_xop, fetchKey_xop]
  exact congrArg (· ||| bit1 o.c.isImm 5) zero

theorem fetch_fields (o : Fetch) : (o.raw h).hdr = h ∧ (o.raw h).op = 0x5F ∧ (o.raw h).m = o.n1 ∧ (o.raw h).sc = 0 ∧
    (o.raw h).dn = o.d.num ∧ (o.raw h).an = o.tab ∧ (o.raw h).bn = o.key.num ∧ (o.raw h).c = o.c.num ∧
      (o.raw h).imm = o.c.word := by
  have hdr {r : Raw} (l : r.l = h.len.code) (p : r.p = h.p) (neg : r.neg = h.neg) : r.hdr = h := hdr_eq l p neg
  obtain ⟨fmt, n1, d, tab, key, c⟩ := o
  cases key <;> cases c <;> exact ⟨hdr rfl rfl rfl, rfl, rfl, rfl, number_halves _, number_halves _,
    number_halves _, rfl, rfl⟩

theorem fetch_sel (o : Fetch) {k : Nat} (hk : k < 4) : (o.raw h).sel k =
    if k = 0 then o.d.sel else if k = 2 then o.key.sel else if k = 3 then o.c.sel else 0 := by
  refine (fetchIdx_sel hk _ _).trans ?_
  rw [fetchKey_sel hk]
  have front : (((h.raw 0x5F o.n1).opD o.d).setA o.tab).sel k = 0 ||| if 0 = k then o.d.sel else 0 :=
    (sel_opD hk _ _).trans (by rw [sel_raw])
  rw [front]
  interval_cases k <;> simp

theorem fetch_lit {o : Fetch} {l : Len} (noLit : l.isLit = false) (fd : o.d.Fits (o.n1 == 0) l) (fk : o.key.Fits l)
    (fc : o.c.Fits l) : (o.raw h).lit = 0 := by
  have hd := fd.selWord noLit 0
  obtain ⟨fmt, n1, d, tab, key, c⟩ := o
  have lit0 : (0 : DWord) ||| d.selWord 0 = 0 := by rw [hd]; rfl
  have hk : ((((h.raw 0x5F n1).opD d).setA tab).fetchKey key).lit = 0 := by
    cases key with
    | vec v => exact (congrArg₂ (· ||| ·) lit0 (VOp.Fits.selWord fk noLit 2)).trans BitVec.zero_or
    | sca n => exact lit0
  cases c with
  | vec v => exact (congrArg₂ (· ||| ·) hk (VOp.Fits.selWord fc noLit 3)).trans BitVec.zero_or
  | imm w => exact hk

theorem fetchFmt_code {f : Fmt}
    (formOk : (match f with | .s32 | .b32 | .f32 | .bf16 | .e4m3 | .e5m2 => true | _ => false) = true) :
    fetchFmt f.code = some f := by
  revert formOk
  cases f <;> decide

theorem n1_one (n1 : BitVec 2) : (n1.toNat + 1 == 1) = (n1 == 0) := by
  revert n1
  decide

theorem fetch_reads {o : Fetch} (formOk : (Instr.fetch h o).formOk = true)
    (uses : ∀ u ∈ (Instr.fetch h o).uses, u.Ok h.len) : (o.raw h).Reads (.fetch h o) := by
  obtain ⟨rest, -⟩ := Bool.and_eq_true_iff.mp formOk
  obtain ⟨wf, fmt⟩ := Bool.and_eq_true_iff.mp rest
  have each : ∀ u ∈ ([vUse o.d (o.n1.toNat + 1) 1 true, sUse o.tab 1 1 false] ++
      (match o.key with | .vec k => [vUse k 1 1 false] | .sca n => [sUse n 1 1 false])) ++
      (match o.c with | .vec c => [vUse c 1 1 false] | .imm _ => []), u.Ok h.len := uses
  simp only [List.forall_mem_append, List.forall_mem_cons] at each
  obtain ⟨⟨⟨ud, -, -⟩, uk⟩, uc⟩ := each
  have fd : o.d.Fits (o.n1 == 0) h.len := n1_one o.n1 ▸ vUse_fits ud
  have fk : o.key.Fits h.len := by
    cases key : o.key with
    | vec v =>
      rw [key] at uk
      exact vUse_fits (uk _ (.head _))
    | sca n => trivial
  have fc : o.c.Fits h.len := by
    cases c : o.c with
    | vec v =>
      rw [c] at uc
      exact vUse_fits (uc _ (.head _))
    | imm w => trivial
  obtain ⟨hdr, hop, m, sc, dn, an, bn, c, imm⟩ := fetch_fields (h := h) o
  have len : (o.raw h).len = h.len := congrArg Hdr.len hdr
  have xop := fetch_xop (h := h) o
  obtain ⟨low, ks, ci⟩ := fetch_bits o.key.isS o.c.isImm o.fmt.code
  have ext := ext_of_wf wf
  have sel1 : (o.raw h).sel 1 = 0 := fetch_sel o (by decide)
  obtain ⟨data, dataErrs⟩ := vop_of (k := 0) (ok := o.n1 == 0) dn (fetch_sel o (by decide)) (len.symm ▸ fd)
  obtain ⟨key, keyErrs⟩ := fetchKey_reads bn (fetch_sel o (by decide)) (len.symm ▸ fk)
  obtain ⟨idx, idxErrs, unused⟩ := fetchIdx_reads c imm (fetch_sel o (by decide)) (len.symm ▸ fc)
  refine .of_entry Raw.fetch (by rw [Raw.decode, hop]; rfl) rfl ?_ hdr wf uses rfl (sc_lt sc) ?_
    (fun s => absurd (ext.symm.trans s) (by decide)) (fun noLit => fetch_lit noLit fd fk fc)
  · rw [hdr, m, xop, low, ks, ci, data, an, key, idx, fetchFmt_code fmt]
    rfl
  · rw [m, xop, low, ks, ci, dataErrs, vopErrs_zero sel1, keyErrs, idxErrs, unused, noSc_eq, sc,
      fetchFmt_code fmt]
    rfl

theorem wait_reads {len : Len} {ld st cp mx : BitVec 6}
    (formOk : ([Len.base, .ext].contains len && (len.isExt || mx == 63)) = true)
    (uses : ∀ u ∈ (Instr.wait len ld st cp mx).uses, u.Ok len) :
    Raw.Reads { (noGuard len).raw 0x60 0 with
      d := ld, a := st, b := cp, c := if len.isExt then mx.setWidth 10 else 0 } (.wait len ld st cp mx) := by
  obtain ⟨mem, max⟩ := Bool.and_eq_true_iff.mp formOk
  have wf : (noGuard len).wf shortLens = true := noGuard_wf mem
  refine .of_fields Raw.wait wf uses rfl rfl ?_
  cases ext : len.isExt with
  | true =>
    have hi : (mx.setWidth 10 : BitVec 10).extractLsb' 6 4 = 0 := high_eq_zero (by
      have lt := mx.isLt
      simp only [BitVec.toNat_setWidth]
      omega)
    simp [noGuard, Hdr.raw, ext, hi]
  | false =>
    have full : mx = 63#6 := by simpa [ext] using max
    simp [noGuard, Hdr.raw, Raw.blank, ext, full]

theorem path_high (path : BitVec 3) : (path.setWidth 6 : BitVec 6).extractLsb' 3 3 = 0#3 := by
  revert path
  decide

theorem waitp_reads {path : BitVec 3} {a : BitVec 6} (uses : ∀ u ∈ (Instr.waitp path a).uses, u.Ok .base) :
    Raw.Reads { (noGuard .base).raw 0x61 0 with b := path.setWidth 6, a := a } (.waitp path a) := by
  exact .of_fields Raw.waitp (h := noGuard .base) rfl uses rfl rfl (by simp [noGuard, Hdr.raw, Raw.blank, path_high])

end

end Sys2Proof
end

section
/-! SUPPORT. The words of keyed tables, engines, the array, barriers, gates and traps (R176, R200 to R213, R229 to R242, R284,
R301, R302). -/

namespace Sys2Proof

/-! ### Keyed tables (R176) -/

@[simp] theorem keyOp_isS (key : KeyOp) : keyOp key.isS key.num = key := by cases key <;> rfl

theorem key_bits (lo hi : Bool) : let x : BitVec 6 := bit1 lo 0 ||| bit1 hi 1
    x.extractLsb' 2 4 = 0#4 ∧ x[0] = lo ∧ x[1] = hi := by
  revert lo hi
  decide

@[simp] theorem kwidth_code (w : KWidth) : KWidth.ofCode w.code = w ∧ w.code ≠ 3#2 := by cases w <;> decide

section
variable {h : Hdr}

theorem cursor_lt {n : BitVec 10} {dst : Bool} {l : Len} (ok : (⟨.c, .reg n, 1, 1, dst⟩ : Use).Ok l) : n.toNat < 8 := by
  simp only [Use.Ok, Use.legal, Bool.and_eq_true, decide_eq_true_eq] at ok
  omega

theorem point_reads {op : BitVec 7} {m : BitVec 2} {o : TPoint} {d : Bool} {mk : Hdr → TPoint → Instr}
    (dispatch : (o.raw h op m).decode = (o.raw h op m).point true d mk) (wf : h.wf [.ext] = true)
    (unused : (d || o.d == 0) = true) (uses : ∀ u ∈ (mk h o).uses, u.Ok h.len) : (o.raw h op m).Reads (mk h o) := by
  obtain ⟨hi, k0, k1⟩ := key_bits o.key.isS false
  refine .of_fields (Raw.point · true d mk) wf uses dispatch rfl ?_
  have bits : bit1 o.key.isS 0 = bit1 o.key.isS 0 ||| bit1 false 1 := BitVec.or_zero.symm
  rw [TPoint.raw, bits]
  generalize bit1 o.key.isS 0 ||| bit1 false 1 = x at hi k0 k1
  simpa [Hdr.raw, Raw.setD, Raw.setA, Raw.setBn, Raw.dn, Raw.an, Raw.bn, isExt_of_only wf, Raw.tblErrs, hi, k0, k1] using
    unused

theorem range_reads {op : BitVec 7} {o : TRange} {d cur : Bool} {mk : Hdr → TRange → Instr}
    (dispatch : (o.raw h op).decode = (o.raw h op).range d cur mk) (wf : h.wf [.ext] = true)
    (unused : (d || o.d == 0) = true) (cursor : cur = true → o.d.toNat < 8) (uses : ∀ u ∈ (mk h o).uses, u.Ok h.len) :
    (o.raw h op).Reads (mk h o) := by
  obtain ⟨hi, k0, k1⟩ := key_bits o.lo.isS o.hi.isS
  refine .of_fields (Raw.range · d cur mk) wf uses dispatch rfl ?_
  rw [TRange.raw]
  generalize bit1 o.lo.isS 0 ||| bit1 o.hi.isS 1 = x at hi k0 k1
  simpa [Hdr.raw, Raw.setD, Raw.setA, Raw.setBn, Raw.dn, Raw.an, Raw.bn, isExt_of_only wf, Raw.tblErrs, hi, k0, k1] using
    And.intro unused cursor

theorem tnext_reads {w : KWidth} {d : BitVec 10} {p : BitVec 3} {k cur : BitVec 10} (wf : h.wf [.ext] = true)
    (uses : ∀ u ∈ (Instr.tnext h w d p k cur).uses, u.Ok h.len) :
    Raw.Reads { (((h.raw 0x6C w.code).setD d).setA cur).setBn k with c := p.setWidth 10 } (.tnext h w d p k cur) := by
  have uc : (⟨.c, .reg cur, 1, 1, true⟩ : Use).Ok h.len := uses _ (.tail _ (.tail _ (.tail _ (.head _))))
  refine .of_fields Raw.tnext wf uses rfl rfl ?_
  simpa [Hdr.raw, Raw.setD, Raw.setA, Raw.setBn, Raw.dn, Raw.an, Raw.bn, isExt_of_only wf,
      Raw.tblErrs] using cursor_lt uc

theorem tkey_reads {w : KWidth} {d : BitVec 10} {p : BitVec 3} {ref : BitVec 10} (wf : h.wf [.ext] = true)
    (uses : ∀ u ∈ (Instr.tkey h w d p ref).uses, u.Ok h.len) :
    Raw.Reads { ((h.raw 0x6D w.code).setD d).setA ref with c := p.setWidth 10 } (.tkey h w d p ref) := by
  refine .of_fields Raw.tkey wf uses rfl rfl ?_
  simp [Hdr.raw, Raw.setD, Raw.setA, Raw.dn, Raw.an, Raw.bn, isExt_of_only wf, Raw.tblErrs]

end

/-! ### Engines (R200 to R208) -/

/-- Field C with a barrier in it. -/
def barC : Option (BitVec 4) → BitVec 10
  | none => 0
  | some n => (1 : BitVec 6) ++ n

theorem barRaw_eq {r : Raw} {b : Option (BitVec 4)} (c : r.c = 0) : barRaw r b = { r with c := barC b } := by
  cases b with
  | none =>
    show r = { r with c := 0 }
    rw [← c]
  | some n => rfl

theorem barC_some (n : BitVec 4) : let x : BitVec 10 := (1 : BitVec 6) ++ n
    x[4] = true ∧ x.setWidth 4 = n ∧ x.extractLsb' 5 5 = 0#5 := by
  revert n
  decide

@[simp] theorem barC_bits (b : Option (BitVec 4)) :
    (if (barC b)[4] = true then some ((barC b).setWidth 4) else none) = b ∧ (barC b).extractLsb' 5 5 = 0#5 ∧
      ((barC b)[4] = true ∨ (barC b).setWidth 4 = 0#4) := by
  cases b with
  | none => exact ⟨rfl, by decide, .inr (by decide)⟩
  | some n =>
    obtain ⟨on, low, hi⟩ := barC_some n
    exact ⟨(if_pos on).trans (congrArg some low), hi, .inl on⟩

/-- What an engine instruction says of its barrier in a short form. -/
theorem barC_short {h : Hdr} {b : Option (BitVec 4)} (ok : barOk h b = true) (short : h.len.isExt = false) : barC b =
    0 := by
  have none : b = none := by simpa [barOk, short] using ok
  rw [none]
  rfl

section
variable {h : Hdr}

theorem cpy_bits (k : BitVec 8) : let w : Word := k.setWidth 32
    w.extractLsb' 8 24 = 0#24 ∧ w.setWidth 8 = k :=
  ⟨slice_eq fun i _ => by simp [BitVec.getLsbD_setWidth], by simp⟩

theorem cpy_reads {dir : CpyDir} {bar : Option (BitVec 4)} {mc : Option (BitVec 8)} {d a b : BitVec 10}
    (formOk : (h.wf shortLens && barOk h bar && plain h mc.isNone) = true)
    (uses : ∀ u ∈ (Instr.cpy h dir bar mc d a b).uses, u.Ok h.len) :
    ∃ r, (Instr.cpy h dir bar mc d a b).raw = some r ∧ r.Reads (.cpy h dir bar mc d a b) := by
  simp only [Bool.and_eq_true, plain_iff] at formOk
  obtain ⟨⟨wf, barrier⟩, short⟩ := formOk
  have ud : (sUse d 2 2 false).Ok h.len := uses _ (.head _)
  have ua : (sUse a 2 2 false).Ok h.len := uses _ (.tail _ (.head _))
  have ub : (sUse b 1 1 false).Ok h.len := uses _ (.tail _ (.tail _ (.head _)))
  refine ⟨_, rfl, ?_⟩
  rw [barRaw_eq rfl]
  refine .of_fields Raw.cpy wf uses ?_ rfl ?_
  · cases mc <;> rfl
  cases mc with
  | none =>
    have blank (s : h.len.isExt = false) : barC bar = 0 ∧ (d.extractLsb' 6 4 = 0 ∧ a.extractLsb' 6 4 = 0) ∧
        b.extractLsb' 6 4 = 0 := ⟨barC_short barrier s, ⟨sUse_high ud s, sUse_high ua s⟩, sUse_high ub s⟩
    cases dir <;> simpa [Hdr.raw, Raw.setD, Raw.setA, Raw.setBn, Raw.dn, Raw.an, Raw.bn, Raw.bar, Raw.barErrs, Raw.blank,
      CpyDir.code] using blank
  | some k =>
    have ext : h.len.isExt = true := by
      by_contra s
      exact absurd (short (eq_false_of_ne_true s)) Bool.false_ne_true
    obtain ⟨hi, low⟩ := cpy_bits k
    cases dir <;> simp [Hdr.raw, Raw.setD, Raw.setA, Raw.setBn, Raw.dn, Raw.an, Raw.bn, Raw.bar, Raw.barErrs, ext,
      CpyDir.code, hi, low]

theorem gath_bits (off len : BitVec 16) : let w : Word := off ++ len
    w.extractLsb' 16 16 = off ∧ w.setWidth 16 = len :=
  ⟨slice_eq fun _ _ => BitVec.getLsbD_append.trans (by grind), low_eq fun _ hi => BitVec.getLsbD_append.trans
      (if_pos hi)⟩

theorem gath_reads {k : GathKind} {bar : Option (BitVec 4)} {d a b : BitVec 10} {off len : BitVec 16}
    (formOk : (h.wf [.ext] && (k != .ref || a == 0) && decide (len.toNat < 16384)) = true)
    (uses : ∀ u ∈ (Instr.gath h k bar d a b off len).uses, u.Ok h.len) :
    Raw.Reads { barRaw ((((h.raw 0x71 k.code).setD d).setA a).setBn b) bar with imm := off ++ len }
      (.gath h k bar d a b off len) := by
  simp only [Bool.and_eq_true, decide_eq_true_eq] at formOk
  obtain ⟨⟨wf, ref⟩, lt⟩ := formOk
  obtain ⟨hoff, hlen⟩ := gath_bits off len
  rw [barRaw_eq rfl]
  refine .of_fields Raw.gath wf uses rfl rfl ?_
  generalize off ++ len = w at hoff hlen
  cases k with
  | k32 | k64 =>
    simpa [Hdr.raw, Raw.setD, Raw.setA, Raw.setBn, Raw.dn, Raw.an, Raw.bn, Raw.bar, Raw.barErrs, isExt_of_only wf,
      GathKind.code, hoff, hlen] using lt
  | ref =>
    simpa [Hdr.raw, Raw.setD, Raw.setA, Raw.setBn, Raw.dn, Raw.an, Raw.bn, Raw.bar, Raw.barErrs, isExt_of_only wf,
      GathKind.code, hoff, hlen] using And.intro ref lt

/-- NMC and COLL (R204, R208). -/
theorem descriptor_reads {op : BitVec 7} {bar : Option (BitVec 4)} {d a : BitVec 10} {n : Nat}
    {mk : Hdr → Option (BitVec 4) → BitVec 10 → BitVec 10 → Instr} {form : Raw → Dec}
    (dispatch : Raw.decode { ((h.raw op 0).setD d).setA a with c := barC bar } =
      form { ((h.raw op 0).setD d).setA a with c := barC bar })
    (decodes : ∀ r : Raw, form r = r.entry shortLens (r.m == 0)
      (err (!r.noX) 5 ++ r.barErrs ++ zeros [r.noImm, r.bn == 0])
      (mk r.hdr r.bar r.dn r.an))
    (formOk : (h.wf shortLens && barOk h bar) = true)
    (mkUses : (mk h bar d a).uses = [sUse d 1 1 false, sUse a n n false])
    (uses : ∀ u ∈ (mk h bar d a).uses, u.Ok h.len) :
    (barRaw (((h.raw op 0).setD d).setA a) bar).Reads (mk h bar d a) := by
  simp only [Bool.and_eq_true] at formOk
  obtain ⟨wf, barrier⟩ := formOk
  have each := uses
  rw [mkUses, List.forall_mem_cons] at each
  obtain ⟨ud, ua⟩ := each
  have blank (s : h.len.isExt = false) : barC bar = 0 ∧ d.extractLsb' 6 4 = 0 ∧ a.extractLsb' 6 4 = 0 :=
    ⟨barC_short barrier s, sUse_high ud s, sUse_high (ua _ (.head _)) s⟩
  rw [barRaw_eq rfl]
  refine .of_fields form wf uses dispatch (decodes _) ?_
  simpa [Hdr.raw, Raw.setD, Raw.setA, Raw.dn, Raw.an, Raw.bn, Raw.bar, Raw.barErrs, Raw.blank] using blank

theorem mask_high (mask : BitVec 4) : (mask.setWidth 6 : BitVec 6).extractLsb' 4 2 = 0#2 := by
  revert mask
  decide

theorem cpyqf_reads {bar : Option (BitVec 4)} {mask : BitVec 4}
    (formOk : (h.wf shortLens && barOk h bar && mask != 0) = true)
    (uses : ∀ u ∈ (Instr.cpyqf h bar mask).uses, u.Ok h.len) :
    Raw.Reads { barRaw (h.raw 0x74 0) bar with b := mask.setWidth 6 } (.cpyqf h bar mask) := by
  simp only [Bool.and_eq_true, bne_iff_ne] at formOk
  obtain ⟨⟨wf, barrier⟩, some⟩ := formOk
  rw [barRaw_eq rfl]
  refine .of_fields Raw.cpyqf wf uses rfl rfl ?_
  simpa [Hdr.raw, Raw.dn, Raw.an, Raw.bn, Raw.bar, Raw.barErrs, Raw.blank, mask_high] using ⟨some, barC_short barrier⟩

end

/-! ### The array (R229 to R242) -/

/-- MXSTART, as it decodes (R241). -/
theorem mxs_of_start {r : Raw} (m : r.m = 0) : r.mxs = r.entry [.ext] true
    (err (r.xop.extractLsb' 1 5 != (0 : BitVec 5)) 5 ++ zeros [r.noSc, r.noC, r.noHi, r.b == 0, r.d == 0,
      r.xop.getLsbD 0 || r.a == 0, r.imm.setWidth 3 == (0 : BitVec 3)])
    (.mxstart r.hdr (if r.xop.getLsbD 0 then some r.a else none) r.imm) := by
  rw [Raw.mxs, m]
  rfl

/-- MXSTAT, as it decodes (R241). -/
theorem mxs_of_stat {r : Raw} (m : r.m = 1) :
    r.mxs = r.entry [.base] true (zeros [r.noGuard, r.a == 0, r.b == 0]) (.mxstat r.d) := by
  rw [Raw.mxs, m]
  rfl

theorem low_three_eq_zero {d : Word} (eight : d.toNat % 8 = 0) : d.setWidth 3 = 0#3 :=
  BitVec.eq_of_toNat_eq (by simpa using eight)

/-- The tile of MXRD and MXWR (R242). -/
theorem tile_bits (m : BitVec 2) (n1 : BitVec 3) : let x : BitVec 6 := (0 : BitVec 1) ++ m ++ n1
    x.setWidth 3 = n1 ∧ x.extractLsb' 3 2 = m ∧ x[5] = false := by
  revert m n1
  decide

/-- The core that MXDRAIN and MXREST name (R238). -/
def coreB : Option (BitVec 3) → BitVec 6
  | none => 0
  | some k => (1 : BitVec 3) ++ k

theorem coreB_bits (core : Option (BitVec 3)) :
    (if (coreB core)[3] = true then some ((coreB core).setWidth 3) else none) = core ∧
    (coreB core).extractLsb' 4 2 = 0#2 ∧ ((coreB core)[3] = true ∨ (coreB core).setWidth 3 = 0#3) := by
  cases core with
  | none => decide
  | some k =>
    revert k
    decide

section
variable {h : Hdr}

theorem mxstart_reads {q : Option (BitVec 6)} {stream : Word}
    (formOk : (h.wf [.ext] && decide (stream.toNat % 8 = 0)) = true)
    (uses : ∀ u ∈ (Instr.mxstart h q stream).uses, u.Ok h.len) :
    ∃ r, (Instr.mxstart h q stream).raw = some r ∧ r.Reads (.mxstart h q stream) := by
  simp only [Bool.and_eq_true, decide_eq_true_eq] at formOk
  obtain ⟨wf, eight⟩ := formOk
  refine ⟨_, rfl, ?_⟩
  cases q <;> exact .of_fields Raw.mxs wf uses rfl (mxs_of_start rfl)
    (by simp [Hdr.raw, isExt_of_only wf, low_three_eq_zero eight])

theorem mxstat_reads {d : BitVec 6} (uses : ∀ u ∈ (Instr.mxstat d).uses, u.Ok .base) :
    Raw.Reads { (noGuard .base).raw 0x75 1 with d := d } (.mxstat d) :=
  .of_fields Raw.mxs (h := noGuard .base) rfl uses rfl (mxs_of_stat rfl) (by simp [noGuard, Hdr.raw, Raw.blank])

/-- MXRD and MXWR. -/
theorem mxrw_reads {m : BitVec 2} {n1 : BitVec 3} {t : BitVec 2} {d : BitVec 10} {a : BitVec 6} {dst : Bool}
    {mk : Hdr → BitVec 3 → BitVec 2 → BitVec 10 → BitVec 6 → Instr}
    (decodes : ∀ r : Raw, r.m = m → r.mxrw = r.entry shortLens true
      (err (!r.noX) 5 ++ zeros [r.noSc, r.noC, r.ahi == 0, r.bhi == 0, r.noImm, !r.b.getLsbD 5])
      (mk r.hdr (r.b.setWidth 3) (r.b.extractLsb' 3 2) r.dn r.a))
    (wf : h.wf shortLens = true) (mkUses : (mk h n1 t d a).uses =
      [vUse (.reg d) (n1.toNat + 1) 1 dst, s6Use a 1 1 false])
    (uses : ∀ u ∈ (mk h n1 t d a).uses, u.Ok h.len) :
    Raw.Reads { (h.raw 0x76 m).setD d with a := a, b := (0 : BitVec 1) ++ t ++ n1 } (mk h n1 t d a) := by
  have each := uses
  rw [mkUses, List.forall_mem_cons] at each
  have high := vUse_high each.1
  obtain ⟨low, mid, top⟩ := tile_bits t n1
  refine .of_fields Raw.mxrw wf uses rfl (decodes _ rfl) ?_
  generalize ((0 : BitVec 1) ++ t ++ n1 : BitVec 6) = b at low mid top
  simpa [Hdr.raw, Raw.setD, Raw.dn, Raw.blank, low, mid, top] using high

/-- MXDRAIN and MXREST. -/
theorem mxdr_reads {m : BitVec 2} {core : Option (BitVec 3)} {a : BitVec 6}
    {mk : Hdr → Option (BitVec 3) → BitVec 6 → Instr}
    (decodes : ∀ r : Raw, r.m = m → r.mxdr = r.entry shortLens true
      (err (!r.noX) 5 ++ zeros [r.noSc, r.noC, r.noHi, r.noImm, r.d == 0, r.b.extractLsb' 4 2 == (0 : BitVec 2),
        r.b.getLsbD 3 || r.b.setWidth 3 == (0 : BitVec 3)])
      (mk r.hdr (if r.b.getLsbD 3 then some (r.b.setWidth 3) else none) r.a))
    (wf : h.wf shortLens = true) (uses : ∀ u ∈ (mk h core a).uses, u.Ok h.len) :
    Raw.Reads { h.raw 0x77 m with a := a, b := coreB core } (mk h core a) :=
  .of_fields Raw.mxdr wf uses rfl (decodes _ rfl) (by simp [Hdr.raw, Raw.blank, coreB_bits])

/-! ### Barriers and gates (R209 to R213, R284) -/

theorem predicate_six (d : BitVec 3) : (d.setWidth 6 : BitVec 6).setWidth 3 = d ∧ d.toNat % 64 < 8 := by
  revert d
  decide

theorem test_bits (phase : Bool) (b : BitVec 4) : let x : BitVec 6 := (0 : BitVec 1) ++ BitVec.ofBool phase ++ b
    x.setWidth 4 = b ∧ x[4] = phase ∧ x[5] = false := by
  revert phase b
  decide

theorem barrier_bits (b : BitVec 4) : (b.setWidth 6 : BitVec 6).setWidth 4 = b ∧ b.toNat % 64 < 16 := by
  revert b
  decide

/-- The count of BARINIT in a short form is field B. -/
theorem count_short {count : BitVec 12} (le : count.toNat ≤ 63) : (count.setWidth 6 : BitVec 6).setWidth 12 = count :=
  BitVec.eq_of_toNat_eq (by simp; omega)

theorem count_lt (count : BitVec 12) : count.toNat % 4294967296 < 4096 := by
  have lt := count.isLt
  omega

theorem barinit_reads {b : BitVec 4} {a : BitVec 6} {count : BitVec 12}
    (formOk : (h.wf shortLens && plain h (decide (count.toNat ≤ 63))) = true)
    (uses : ∀ u ∈ (Instr.barinit h b a count).uses, u.Ok h.len) :
    ∃ r, (Instr.barinit h b a count).raw = some r ∧ r.Reads (.barinit h b a count) := by
  simp only [Bool.and_eq_true, plain_iff, decide_eq_true_eq] at formOk
  obtain ⟨wf, short⟩ := formOk
  refine ⟨_, rfl, ?_⟩
  cases ext : h.len.isExt with
  | true =>
    rw [if_pos rfl]
    exact .of_fields Raw.barrier wf uses rfl rfl (by simp [Hdr.raw, ext, barrier_bits, count_lt])
  | false =>
    rw [if_neg Bool.false_ne_true]
    exact .of_fields Raw.barrier wf uses rfl rfl
      (by simp [Hdr.raw, ext, barrier_bits, Raw.blank, count_short (short ext)])

theorem bararr_reads {b : BitVec 4} {a : BitVec 6} (wf : h.wf shortLens = true)
    (uses : ∀ u ∈ (Instr.bararr h b a).uses, u.Ok h.len) :
    Raw.Reads { h.raw 0x78 1 with d := b.setWidth 6, a := a } (.bararr h b a) :=
  .of_fields Raw.barrier wf uses rfl rfl (by simp [Hdr.raw, barrier_bits, Raw.blank])

theorem barwait_reads {b : BitVec 4} {a : BitVec 6} {phase : Bool} (wf : h.wf shortLens = true)
    (uses : ∀ u ∈ (Instr.barwait h b a phase).uses, u.Ok h.len) :
    Raw.Reads { h.raw 0x78 2 with d := b.setWidth 6, a := a, b := bit1 phase 0 } (.barwait h b a phase) :=
  .of_fields Raw.barrier wf uses rfl rfl (by simp [Hdr.raw, barrier_bits, Raw.blank, bit1_bits])

theorem bartest_reads {d : BitVec 3} {a : BitVec 6} {b : BitVec 4} {phase : Bool} (wf : h.wf shortLens = true)
    (uses : ∀ u ∈ (Instr.bartest h d a b phase).uses, u.Ok h.len) :
    Raw.Reads { h.raw 0x78 3 with d := d.setWidth 6, a := a, b := (0 : BitVec 1) ++ BitVec.ofBool phase ++ b }
      (.bartest h d a b phase) := by
  obtain ⟨low, hp, top⟩ := test_bits phase b
  refine .of_fields Raw.barrier wf uses rfl rfl ?_
  generalize ((0 : BitVec 1) ++ BitVec.ofBool phase ++ b : BitVec 6) = x at low hp top
  simp [Hdr.raw, predicate_six, Raw.blank, low, hp, top]

theorem barg_reads {a : BitVec 6} (wf : h.wf shortLens = true) (uses : ∀ u ∈ (Instr.barg h a).uses, u.Ok h.len) :
    Raw.Reads { h.raw 0x7B 0 with a := a } (.barg h a) :=
  .of_fields Raw.barg wf uses rfl rfl (by simp [Hdr.raw, Raw.blank])

theorem isExt_of_plain (short : plain h false = true) : h.len.isExt = true := by
  simpa [plain] using short

theorem gsig_reads {a : BitVec 6} {v : GateArg} (formOk : (Instr.gsig h a v).formOk = true)
    (uses : ∀ u ∈ (Instr.gsig h a v).uses, u.Ok h.len) :
    ∃ r, (Instr.gsig h a v).raw = some r ∧ r.Reads (.gsig h a v) := by
  obtain ⟨wf, short⟩ := Bool.and_eq_true_iff.mp formOk
  refine ⟨_, rfl, ?_⟩
  cases v with
  | sca n => exact .of_fields Raw.gate wf uses rfl rfl (by simp [Hdr.raw, Raw.blank])
  | imm w => exact .of_fields Raw.gate wf uses rfl rfl (by simp [Hdr.raw, isExt_of_plain short])

theorem gwait_reads {d a : BitVec 6} {v : GateArg} (formOk : (Instr.gwait h d a v).formOk = true)
    (uses : ∀ u ∈ (Instr.gwait h d a v).uses, u.Ok h.len) :
    ∃ r, (Instr.gwait h d a v).raw = some r ∧ r.Reads (.gwait h d a v) := by
  obtain ⟨wf, short⟩ := Bool.and_eq_true_iff.mp formOk
  refine ⟨_, rfl, ?_⟩
  cases v with
  | sca n => exact .of_fields Raw.gate wf uses rfl rfl (by simp [Hdr.raw, Raw.blank])
  | imm w => exact .of_fields Raw.gate wf uses rfl rfl (by simp [Hdr.raw, isExt_of_plain short])

theorem grd_reads {d a : BitVec 6} (wf : h.wf shortLens = true) (uses : ∀ u ∈ (Instr.grd h d a).uses, u.Ok h.len) :
    Raw.Reads { h.raw 0x7C 2 with d := d, a := a } (.grd h d a) :=
  .of_fields Raw.gate wf uses rfl rfl (by simp [Hdr.raw, Raw.blank])

theorem gtry_reads {d : BitVec 3} {a : BitVec 6} {v : GateArg} (formOk : (Instr.gtry h d a v).formOk = true)
    (uses : ∀ u ∈ (Instr.gtry h d a v).uses, u.Ok h.len) :
    ∃ r, (Instr.gtry h d a v).raw = some r ∧ r.Reads (.gtry h d a v) := by
  obtain ⟨wf, short⟩ := Bool.and_eq_true_iff.mp formOk
  refine ⟨_, rfl, ?_⟩
  cases v with
  | sca n => exact .of_fields Raw.gate wf uses rfl rfl (by simp [Hdr.raw, Raw.blank, predicate_six])
  | imm w => exact .of_fields Raw.gate wf uses rfl rfl (by simp [Hdr.raw, isExt_of_plain short, predicate_six])

/-! ### TRAP, BRK and TRET (R301, R302) -/

/-- The code of TRAP and BRK in a short form is field B. -/
theorem code_short {code : Word} (le : code.toNat ≤ 63) : (code.setWidth 6 : BitVec 6).setWidth 32 = code :=
  BitVec.eq_of_toNat_eq (by simp; omega)

/-- TRAP and BRK. -/
theorem trap_reads {m : BitVec 2} {code : Word} {mk : Hdr → Word → Instr}
    (decodes : ∀ r : Raw, r.m = m → r.trapI = r.entry shortLens true
      (err (!r.noX) 5 ++ zeros [r.noSc, r.noC, r.noHi, r.a == 0, r.d == 0, !r.isExt || r.b == 0])
      (mk r.hdr (if r.isExt then r.imm else r.b.setWidth 32)))
    (formOk : (h.wf shortLens && plain h (decide (code.toNat ≤ 63))) = true)
    (uses : ∀ u ∈ (mk h code).uses, u.Ok h.len) :
    Raw.Reads (if h.len.isExt then { h.raw 0x7E m with imm := code } else { h.raw 0x7E m with b := code.setWidth 6 })
      (mk h code) := by
  simp only [Bool.and_eq_true, plain_iff, decide_eq_true_eq] at formOk
  obtain ⟨wf, short⟩ := formOk
  cases ext : h.len.isExt with
  | true =>
    rw [if_pos rfl]
    exact .of_fields Raw.trapI wf uses rfl (decodes _ rfl) (by simp [Hdr.raw, ext])
  | false =>
    rw [if_neg Bool.false_ne_true]
    exact .of_fields Raw.trapI wf uses rfl (decodes _ rfl)
      (by simp [Hdr.raw, ext, Raw.blank, code_short (short ext)])

theorem tret_reads {form : TretForm} (wf : h.wf [.base] = true) (uses : ∀ u ∈ (Instr.tret h form).uses, u.Ok h.len) :
    (h.raw 0x7F form.code).Reads (.tret h form) := by
  refine .of_fields Raw.tret wf uses rfl rfl ?_
  cases form <;> simp [Hdr.raw, Raw.blank, TretForm.code]

end

end Sys2Proof
end

section
/-! SUPPORT. Every instruction and every tile word, and the obligation on encodings. -/

namespace Sys2Proof

/-! ### Every instruction -/

/-- The words of a group instruction read back as it. -/
def Instr.Encodes (i : Instr) : Prop := ∃ r, i.raw = some r ∧ r.Reads i

theorem Alu1.raw_op (o : Alu1) (h : Hdr) (op : BitVec 7) : (o.raw h op).op = op := rfl

theorem Fpu.opC_op (o : Fpu) (h : Hdr) (op : BitVec 7) (c : VOp) : ((o.raw h op).opC c).op = op := mouldRaw_op ..

theorem Fpu.raw_op (o : Fpu) (h : Hdr) (op : BitVec 7) : (o.raw h op).op = op := mouldRaw_op ..

/-- A function of one operand with no rounding mode (R121 to R125). -/
theorem sfnPlain_reads {h : Hdr} {d a : VOp} {op : BitVec 7} {mk : Hdr → VOp → VOp → Instr}
    (dispatch : (mouldRaw h op 0 0 d a (.vec (.reg 0))).decode =
      (mouldRaw h op 0 0 d a (.vec (.reg 0))).sfn false fun h _ d a => mk h d a)
    (mkUses : (mk h d a).uses = [vUse d 1 1 true, vUse a 1 1 false]) (wf : h.wf allLens = true)
    (uses : ∀ u ∈ (mk h d a).uses, u.Ok h.len) : (sfnRaw h op .rn d a).Reads (mk h d a) :=
  sfn_reads (mode := false) (mk := fun h _ d a => mk h d a) dispatch mkUses (fun _ => rfl)
    (Bool.and_eq_true_iff.mpr ⟨wf, Bool.or_true _⟩) uses

theorem encodes_of_wf (i : Instr) (formOk : i.formOk = true) (uses : ∀ u ∈ i.uses, u.Ok i.len) : i.Encodes := by
  cases i with
  | nop h | exit h | ltrig h => exact ⟨_, rfl, plain0_reads rfl formOk uses⟩
  | bra h c d => exact bra_reads formOk uses
  | brx h c a off => exact ⟨_, rfl, brx_reads formOk uses⟩
  | call h c d disp => exact call_reads formOk uses
  | ret h c a => exact ⟨_, rfl, ret_reads formOk uses⟩
  | mif inv d a => exact ⟨_, rfl, mif_reads uses⟩
  | melse a => exact ⟨_, rfl, melse_reads uses⟩
  | mend a => exact ⟨_, rfl, mend_reads uses⟩
  | rgn len idem conv ws =>
    cases ws with
    | none => exact ⟨_, rfl, rgn_none_reads formOk uses⟩
    | some vb n1 live => exact ⟨_, rfl, rgn_some_reads formOk uses⟩
  | prioPassImm h t => exact ⟨_, rfl, prioPassImm_reads formOk uses⟩
  | prioPassReg h a => exact ⟨_, rfl, prioPassReg_reads formOk uses⟩
  | spawn h d a spool => exact ⟨_, rfl, spawn_reads formOk uses⟩
  | icinv h sc a b => exact ⟨_, rfl, icinv_reads formOk uses⟩
  | iadd h o | isub h o | imul h o | imulh h o | imin h o | imax h o | and h o | or h o | xor h o | shl h o | shr h o
  | sar h o | bfe h o => exact ⟨_, rfl, bin_reads (by rw [Raw.decode, Alu.raw_op]; rfl) rfl formOk uses⟩
  | iaddc h w64 d a b po cie pi => exact iaddc_reads formOk uses
  | imad h o c => exact ⟨_, rfl, imad_reads formOk uses⟩
  | iabs h o =>
    obtain ⟨rest, scalar⟩ := Bool.and_eq_true_iff.mp formOk
    obtain ⟨wf, signed⟩ := Bool.and_eq_true_iff.mp rest
    have ty : (o.raw h 0x18).ity = o.ty := ity_code o.ty
    exact ⟨_, rfl, una_reads rfl rfl (ty.symm ▸ signed) (Bool.and_eq_true_iff.mpr ⟨wf, scalar⟩) uses⟩
  | not h o | popc h o | clz h o | brev h o => exact ⟨_, rfl, una_reads rfl rfl rfl formOk uses⟩
  | bfi h o ctl => exact bfi_reads formOk uses
  | iset h cmp ty d a b => exact ⟨_, rfl, iset_reads formOk uses⟩
  | sel h ty d a b pc inv => exact sel_reads formOk uses
  | mov h w f => exact mov_reads formOk uses
  | mtx h d a => exact ⟨_, rfl, mtx_reg_reads (.inl rfl) formOk uses (uses _ (.head _)) rfl⟩
  | mtxIdx h d a => exact ⟨_, rfl, mtx_reg_reads (.inr rfl) formOk uses (uses _ (.head _)) rfl⟩
  | mtxAdd h d imm => exact ⟨_, rfl, mtxAdd_reads formOk uses⟩
  | mfsr h out d sr => exact mfsr_reads formOk uses
  | mtsr len sr a => exact ⟨_, rfl, mtsr_reads formOk uses⟩
  | fadd h o | fsub h o | fmul h o | pfadd h o | pfmul h o =>
    exact ⟨_, rfl, fbin_reads (by rw [Raw.decode, Fpu.raw_op]; rfl) rfl formOk uses⟩
  | ffma h o c | pffma h o c =>
    exact ⟨_, rfl, ffma3_reads (by rw [Raw.decode, Fpu.opC_op]; rfl) rfl formOk uses⟩
  | fmin h d a b | fmax h d a b => exact ⟨_, rfl, fmnx_reads (by rw [Raw.decode, mouldRaw_op]; rfl) rfl formOk uses⟩
  | fset h cmp d a b => exact ⟨_, rfl, fset_reads formOk uses⟩
  | frcp h o =>
    exact ⟨_, rfl, sfn_reads (mode := true) (mk := fun h m d a => .frcp h ⟨m, d, a⟩) rfl rfl
      (fun one => absurd one (by decide)) formOk uses⟩
  | fsqrt h o =>
    exact ⟨_, rfl, sfn_reads (mode := true) (mk := fun h m d a => .fsqrt h ⟨m, d, a⟩) rfl rfl
      (fun one => absurd one (by decide)) formOk uses⟩
  | frsq h d a | fexp2 h d a | flog2 h d a | fsin h d a | fcos h d a | ftanh h d a | fsigm h d a =>
    exact ⟨_, rfl, sfnPlain_reads rfl rfl formOk uses⟩
  | cvt h dt st el mode sat d a => exact cvt_reads formOk uses
  | pack h hi fmt mode sat d a b => exact pack_reads formOk uses
  | shfl h mode seg d a n => exact shfl_reads formOk uses
  | voteBallot h inv d a => exact ⟨_, rfl, voteBallot_reads formOk uses⟩
  | voteAny h inv d a => exact ⟨_, rfl, votePred_reads (m := 1) (by decide) formOk uses⟩
  | voteAll h inv d a => exact ⟨_, rfl, votePred_reads (m := 2) (by decide) formOk uses⟩
  | voteUni h inv d a => exact ⟨_, rfl, votePred_reads (m := 3) (by decide) formOk uses⟩
  | redg h op ty toV d a => exact ⟨_, rfl, redg_reads formOk uses⟩
  | scang h op ty excl d a => exact ⟨_, rfl, scang_reads formOk uses⟩
  | rebal h d p a b => exact ⟨_, rfl, rebal_reads formOk uses⟩
  | lds h o => exact ⟨_, rfl, sp_reads (fun r op => by rw [Raw.decode, op]; rfl) formOk true rfl uses⟩
  | sts h o => exact ⟨_, rfl, sp_reads (fun r op => by rw [Raw.decode, op]; rfl) formOk false rfl uses⟩
  | atoms h o a => exact ⟨_, rfl, atoms_reads formOk uses⟩
  | dld h o => exact ⟨_, rfl, dn_reads true (fun r op => by rw [Raw.decode, op]; rfl) formOk rfl uses⟩
  | dst h o => exact ⟨_, rfl, dn_reads false (fun r op => by rw [Raw.decode, op]; rfl) formOk rfl uses⟩
  | tld h o => exact ⟨_, rfl, tld_reads formOk uses⟩
  | tst h o => exact ⟨_, rfl, tst_reads formOk uses⟩
  | fetch h o => exact ⟨_, rfl, fetch_reads formOk uses⟩
  | wait len ld st cp mx => exact ⟨_, rfl, wait_reads formOk uses⟩
  | waitp path a => exact ⟨_, rfl, waitp_reads uses⟩
  | tlk h o | tins h o | tups h o => exact ⟨_, rfl, point_reads (d := true) rfl formOk rfl uses⟩
  | tdel h o =>
    obtain ⟨wf, unused⟩ := Bool.and_eq_true_iff.mp formOk
    exact ⟨_, rfl, point_reads (d := false) rfl wf unused uses⟩
  | tseek h o => exact ⟨_, rfl, range_reads (d := true) rfl formOk rfl (fun _ => cursor_lt (uses _ (.head _))) uses⟩
  | tcnt h o => exact ⟨_, rfl, range_reads (d := true) (cur := false) rfl formOk rfl
      (fun no => absurd no (by decide)) uses⟩
  | tdrop h o =>
    obtain ⟨wf, unused⟩ := Bool.and_eq_true_iff.mp formOk
    exact ⟨_, rfl, range_reads (d := false) (cur := false) rfl wf unused (fun no => absurd no (by decide)) uses⟩
  | tnext h w d p k cur => exact ⟨_, rfl, tnext_reads formOk uses⟩
  | tkey h w d p ref => exact ⟨_, rfl, tkey_reads formOk uses⟩
  | cpy h dir bar mc d a b => exact cpy_reads formOk uses
  | gath h kind bar d a b off len => exact ⟨_, rfl, gath_reads formOk uses⟩
  | nmc h bar d a => exact ⟨_, rfl, descriptor_reads (form := Raw.nmc) rfl (fun _ => rfl) formOk rfl uses⟩
  | coll h bar d a => exact ⟨_, rfl, descriptor_reads (form := Raw.coll) rfl (fun _ => rfl) formOk rfl uses⟩
  | cpyqf h bar mask => exact ⟨_, rfl, cpyqf_reads formOk uses⟩
  | mxstart h q stream => exact mxstart_reads formOk uses
  | mxstat d => exact ⟨_, rfl, mxstat_reads uses⟩
  | mxrd h n1 m d a => exact ⟨_, rfl, mxrw_reads (fun r m => by rw [Raw.mxrw, m]; rfl) formOk rfl uses⟩
  | mxwr h n1 m d a => exact ⟨_, rfl, mxrw_reads (fun r m => by rw [Raw.mxrw, m]; rfl) formOk rfl uses⟩
  | mxdrain h core a =>
    exact ⟨_, by cases core <;> rfl, mxdr_reads (core := core) (fun r m => by rw [Raw.mxdr, m]; rfl) formOk uses⟩
  | mxrest h core a =>
    exact ⟨_, by cases core <;> rfl, mxdr_reads (core := core) (fun r m => by rw [Raw.mxdr, m]; rfl) formOk uses⟩
  | barinit h b a count => exact barinit_reads formOk uses
  | bararr h b a => exact ⟨_, rfl, bararr_reads formOk uses⟩
  | barwait h b a phase => exact ⟨_, rfl, barwait_reads formOk uses⟩
  | bartest h d a b phase => exact ⟨_, rfl, bartest_reads formOk uses⟩
  | tatom h o ref => exact ⟨_, rfl, tatom_reads formOk uses⟩
  | datom h o tab key => exact ⟨_, rfl, datom_reads formOk uses⟩
  | barg h a => exact ⟨_, rfl, barg_reads formOk uses⟩
  | gsig h a v => exact gsig_reads formOk uses
  | gwait h d a v => exact gwait_reads formOk uses
  | grd h d a => exact ⟨_, rfl, grd_reads formOk uses⟩
  | gtry h d a v => exact gtry_reads formOk uses
  | trap h code => exact ⟨_, rfl, trap_reads (fun r m => by rw [Raw.trapI, m]; rfl) formOk uses⟩
  | brk h code => exact ⟨_, rfl, trap_reads (fun r m => by rw [Raw.trapI, m]; rfl) formOk uses⟩
  | tret h form => exact ⟨_, rfl, tret_reads formOk uses⟩
  | _ => exact absurd formOk Bool.false_ne_true

/-! ### Tile words (R62 to R64) -/

@[simp] theorem fmt_code (f : Fmt) : Fmt.ofCode f.code.toNat = some f := by cases f <;> rfl

theorem decodeTile_word (r : TRaw) : decodeTile r.word = r.decode := congrArg TRaw.decode (tunpack_word r)

theorem weight_code {f : Fmt} (ok : (match f with | .bf16 | .e4m3 | .e5m2 | .i4g | .i3g => true | _ => false) = true) :
    5 ≤ f.code.toNat ∧ f.code.toNat ≤ 9 := by
  revert ok
  cases f <;> decide

theorem multiply_code {f : Fmt} (ok : (match f with | .bf16 | .e4m3 | .e5m2 => true | _ => false) = true) :
    5 ≤ f.code.toNat ∧ f.code.toNat ≤ 7 := by
  revert ok
  cases f <;> decide

theorem store_code {f : Fmt} (ok : (match f with | .f32 | .bf16 | .e4m3 | .e5m2 => true | _ => false) = true) :
    4 ≤ f.code.toNat ∧ f.code.toNat ≤ 7 := by
  revert ok
  cases f <;> decide

theorem increment_ok {pi : Bool} {k : Word} (ok : (pi || k == 0) = true) : pi = true ∨ k = 0#32 := by
  simpa using ok

/-- The fields of a tile word decode to it. -/
theorem traw_decode {i : Instr} (wf : i.tileWf = true) : ∃ r, i.traw = some r ∧ r.decode = .ok i := by
  cases i with
  | tnop | tend => exact ⟨_, rfl, rfl⟩
  | tsetq q k => exact ⟨_, rfl, by simp [Instr.traw.mk, TRaw.decode, TRaw.z, tok]⟩
  | tzero m => exact ⟨_, rfl, by simp [Instr.traw.mk, TRaw.decode, TRaw.z, tok]⟩
  | tarb b => exact ⟨_, rfl, by simp [Instr.traw.mk, TRaw.decode, TRaw.z, tok]⟩
  | twb b ph => exact ⟨_, rfl, by cases ph <;> simp [Instr.traw.mk, TRaw.decode, TRaw.z, tok]⟩
  | tlw ws f q pi k =>
    obtain ⟨fmt, inc⟩ := Bool.and_eq_true_iff.mp wf
    exact ⟨_, rfl, by simp [Instr.traw.mk, TRaw.decode, TRaw.z, tok, weight_code fmt, increment_ok inc]⟩
  | tmm m ws f acc q pi n k =>
    obtain ⟨fmt, inc⟩ := Bool.and_eq_true_iff.mp wf
    exact ⟨_, rfl, by simp [Instr.traw.mk, TRaw.decode, TRaw.z, tok, multiply_code fmt, increment_ok inc]⟩
  | tlda m q pi k => exact ⟨_, rfl, by simp [Instr.traw.mk, TRaw.decode, TRaw.z, tok, increment_ok wf]⟩
  | tsto m f q pi k =>
    obtain ⟨fmt, inc⟩ := Bool.and_eq_true_iff.mp wf
    exact ⟨_, rfl, by simp [Instr.traw.mk, TRaw.decode, TRaw.z, tok, store_code fmt, increment_ok inc]⟩
  | tloop n k =>
    have eight : k.toNat % 8 = 0 := of_decide_eq_true wf
    exact ⟨_, rfl, by simp [Instr.traw.mk, TRaw.decode, TRaw.z, tok, eight]⟩
  | _ => exact absurd wf Bool.false_ne_true

theorem decode_encode {i : Instr} (wf : i.wf = true) (rest : List Byte) : decode (wordsBytes (encode i) ++ rest) =
    .ok i := by
  obtain ⟨formOk, uses⟩ := Bool.and_eq_true_iff.mp wf
  obtain ⟨r, raw, reads⟩ := encodes_of_wf i formOk (List.all_eq_true.mp uses)
  rw [encode, raw]
  exact (decode_words reads.fits rest).trans reads.decodes

theorem decodeTile_encodeTile {i : Instr} (wf : i.tileWf = true) : decodeTile (encodeTile i) = .ok i := by
  obtain ⟨r, raw, decodes⟩ := traw_decode wf
  rw [encodeTile, raw]
  exact (decodeTile_word r).trans decodes

/-- Settles O57: the words that the encoder gives unpack to the instruction's fields, and these decode to it, entry by
entry of the opcode map. -/
theorem encodingsRoundTrip : Obligations.EncodingsRoundTrip :=
  ⟨fun _ rest wf => decode_encode wf rest, fun _ wf => decodeTile_encodeTile wf⟩

end Sys2Proof
end

section
/-! SUPPORT. The park of a fault that falls on a whole issue (R294, R295). -/

namespace Sys2Proof.Machine

/-! ### The park of an issue (R294, R295) -/

theorem lanesOf_laneList (m : Lanes) : lanesOf (laneList m) = m := by
  refine BitVec.eq_of_getLsbD_eq fun l hl => ?_
  rw [lanesOf_getLsbD (fun l h => (mem_laneList.mp h).1) hl]
  simp [mem_laneList, hl]

theorem onLanes_lanes (m : Lanes) (f : Nat → LaneFault) :
    ((laneList m).map fun l => (l, f l)).map Prod.fst = laneList m := by
  simp [Function.comp_def]

theorem laneList_ne_nil {m : Lanes} (some : m ≠ 0) : laneList m ≠ [] := by
  intro none
  have back := lanesOf_laneList m
  rw [none] at back
  exact some back.symm

theorem onLanes_isEmpty {m : Lanes} (some : m ≠ 0) (f : LaneFault) : (onLanes m f).isEmpty = false := by
  simpa [onLanes] using laneList_ne_nil some

@[simp] theorem onLanes_zero (f : LaneFault) : onLanes 0 f = [] := rfl

/-- The park of a fault of a whole instruction. -/
def wholePark (rpl : Bool) (pc next insn : Word) (m : Lanes) (f : LaneFault) (op : Option Nat) : Park :=
  { rpl := rpl, async := false, pc := pc, next := next, insn := insn, faults := onLanes m f, resolved := false, op := op }

theorem lanesOf_wholePark {rpl : Bool} {pc next insn : Word} {m : Lanes} {f : LaneFault} {op : Option Nat} :
    lanesOf ((wholePark rpl pc next insn m f op).faults.map Prod.fst) = m :=
  (congrArg lanesOf (onLanes_lanes m fun _ => f)).trans (lanesOf_laneList m)

theorem minCause_eq_of_all {f : LaneFault} {fs : List (Nat × LaneFault)} (some : fs ≠ []) (all : ∀ x ∈ fs, x.2 = f) :
    minCause fs = f.cause.toNat := by
  induction fs with
  | nil => exact absurd rfl some
  | cons x fs ih =>
    rw [minCause, all x List.mem_cons_self]
    cases fs with
    | nil =>
      have := f.cause.isLt
      simp only [minCause]
      omega
    | cons y fs => rw [ih (List.cons_ne_nil y fs) fun z hz => all z (List.mem_cons_of_mem x hz), Nat.min_self]

/-- The record of a park of one fault is of that fault. -/
theorem wholePark_lead {rpl : Bool} {pc next insn : Word} {m : Lanes} {f : LaneFault} {op : Option Nat} (lanes : m ≠ 0) :
    (wholePark rpl pc next insn m f op).lead = f := by
  have all : ∀ x ∈ (wholePark rpl pc next insn m f op).faults, x.2 = f := by
    intro x hx
    obtain ⟨l, -, rfl⟩ := List.mem_map.mp hx
    rfl
  have some : (wholePark rpl pc next insn m f op).faults ≠ [] := fun none =>
    laneList_ne_nil lanes (List.map_eq_nil_iff.mp none)
  obtain ⟨x, fs, faults⟩ := List.exists_cons_of_ne_nil some
  have here : x.2 = f := all x (faults ▸ List.mem_cons_self)
  have least := minCause_eq_of_all some all
  rw [faults] at least
  unfold Park.lead
  rw [faults, List.find?_cons_of_pos (by simp [here, least])]
  exact here

/-- A non-replayable park with a slot free takes its lanes out of EM, and nothing else happens. -/
theorem State.parkNow_slot {s : State} {r : GRef} {t : Team} {g : Group} {p : Park} {again : Lanes}
    (free : g.parks.length < 4) :
    s.parkNow r t g p again =
      s.putGroup r { g with em := g.em &&& ~~~lanesOf (p.faults.map Prod.fst), parks := g.parks ++ [p] } :=
  if_pos free

/-- A fault of a whole instruction outside trap mode parks its lanes. -/
theorem State.takeFaults_parks {s : State} {r : GRef} {t : Team} {g : Group} {pc next insn : Word} {op : Option Nat}
    {m : Lanes} {f : LaneFault} (out : g.trap = none) (free : g.parks.length < 4) (some : m ≠ 0) :
    s.takeFaults r t g pc next insn op (onLanes m f) [] = s.putGroup r
      { g with em := g.em &&& ~~~m, parks := g.parks ++ [wholePark false pc next insn m f op] } := by
  have parks := s.parkNow_slot (r := r) (t := t) (p := wholePark false pc next insn m f op) (again := 0) free
  rw [lanesOf_wholePark] at parks
  refine Eq.trans ?_ parks
  simp only [State.takeFaults, onLanes_isEmpty some, out, Bool.false_and, List.isEmpty_nil, if_true, Bool.false_eq_true,
    if_false]
  rfl

/-- In trap mode it is a double fault. -/
theorem State.takeFaults_doubleFault {s : State} {r : GRef} {t : Team} {g : Group} {pc next insn : Word} {op : Option Nat}
    {m : Lanes} {f : LaneFault} {ts : TrapSt} (trap : g.trap = some ts) (some : m ≠ 0) :
    s.takeFaults r t g pc next insn op (onLanes m f) [] =
      s.halt r t g [ts.park.record, (wholePark false pc next insn m f op).record] := by
  simp only [State.takeFaults, onLanes_isEmpty some, trap]
  rfl

theorem State.putGroup_report (s : State) (r : GRef) (g : Group) (part : Nat) (recs : List (BitVec 256)) :
    (s.putGroup r g).report part recs = (s.report part recs).putGroup r g := by
  simp only [State.putGroup, State.team_report]
  cases s.team r.team <;> rfl

theorem State.putGroup_teamReport (s : State) (r : GRef) (g : Group) (t : Team) (type code src slot item : Nat)
    (addr : DWord) (recs : List (BitVec 256)) : (s.putGroup r g).teamReport t type code src slot item addr recs =
      (s.teamReport t type code src slot item addr recs).putGroup r g :=
  s.putGroup_report r g _ _

theorem Team.putGroup_putGroup (t : Team) (k : Nat) (a b : Group) : (t.putGroup k a).putGroup k b = t.putGroup k b := by
  simp [Team.putGroup]

/-- The later of two writes of one group stands. -/
theorem State.putGroup_putGroup (s : State) (r : GRef) (a b : Group) :
    (s.putGroup r a).putGroup r b = s.putGroup r b := by
  cases team : s.team r.team with
  | none => simp [State.putGroup, team]
  | some t => simp [State.putGroup, team, State.setTeam_setTeam, Team.putGroup_putGroup]

/-- A replayable fault of a whole instruction parks its lanes, and a copy of the record is reported (R295, R311). -/
theorem State.takeFaults_replay {s : State} {r : GRef} {t : Team} {g g0 : Group} {pc next insn : Word} {op : Option Nat}
    {m : Lanes} {f : LaneFault} (grp : s.group r = some (t, g0)) (out : g.trap = none) (run : g.halted = false)
    (free : g.parks.length < 4) (some : m ≠ 0) :
    let p := wholePark true pc next insn m f op
    s.takeFaults r t g pc next insn op [] (onLanes m f) =
      (s.teamReport t 6 0 6 f.slot 0 f.addr [p.record]).putGroup r
        { g with em := g.em &&& ~~~m, parks := g.parks ++ [p] } := by
  intro p
  have again : (s.putGroup r g).group r = Option.some (t.putGroup r.grp g, g) := s.group_putGroup r g grp
  have lanes : lanesOf (p.faults.map Prod.fst) = m := lanesOf_wholePark
  have lead : p.lead = f := wholePark_lead some
  have slot : ({ g with em := g.em &&& ~~~lanesOf (p.faults.map Prod.fst), parks := g.parks ++ [p] } : Group) =
      { g with em := g.em &&& ~~~m, parks := g.parks ++ [p] } := by rw [lanes]
  have parks : (s.putGroup r g).parkReplay r (t.putGroup r.grp g) g p =
      ((s.putGroup r g).teamReport t 6 0 6 f.slot 0 f.addr [p.record]).putGroup r
        { g with em := g.em &&& ~~~lanesOf (p.faults.map Prod.fst), parks := g.parks ++ [p] } := by
    rw [State.parkReplay, if_neg (by simp [out, run]), ← lead]
    exact if_pos free
  rw [s.putGroup_teamReport, State.putGroup_putGroup, slot] at parks
  refine Eq.trans ?_ parks
  simp only [State.takeFaults, onLanes_isEmpty some, out, again, Bool.and_false, List.isEmpty_nil, if_true,
    Bool.false_eq_true, if_false]
  rfl

end Sys2Proof.Machine
end

section
/-! SUPPORT. TRAP and BRK (R300, R302). -/

namespace Sys2Proof.Machine

section
variable {s : State} {r : GRef} {t : Team} {g : Group} {i : Instr} {f : LaneFault}

/-- The issue of an instruction that faults as a whole. -/
def Iss.failed (r : GRef) (t : Team) (g : Group) (i : Instr) (f : LaneFault) : Iss :=
  { Iss.start r t g i with nf := onLanes (g.takingPart i) f, act := 0 }

theorem Iss.fail_start : (Iss.start r t g i).fail s f = (Iss.failed r t g i f).finishAt s (g.after i) := rfl

theorem Iss.failed_opId (grp : s.group r = some (t, g)) : (Iss.failed r t g i f).opId = none := by
  have own : (Iss.failed r t g i f).t.groups[(Iss.failed r t g i f).r.grp]? = some g := (State.team_of_group grp).2
  have same : (Iss.failed r t g i f).g.nextOp = g.nextOp := rfl
  simp [Iss.opId, own, same]

theorem Iss.failed_issued_trap : ((Iss.failed r t g i f).issued (g.after i)).trap = g.trap := by
  obtain ⟨S, W, fields⟩ := (Iss.failed r t g i f).issued_fields (g.after i)
  rw [fields]
  rfl

/-- The team of the group that issues is in its place. -/
theorem State.putGroup_setTeam (grp : s.group r = some (t, g)) (g' : Group) :
    (s.setTeam r.team (some t)).putGroup r g' = s.putGroup r g' := by
  obtain ⟨team, -⟩ := State.team_of_group grp
  simp [State.putGroup, team, State.setTeam_setTeam]

/-- The issue whose group has the faulting lanes parked already. -/
def Iss.parked (r : GRef) (t : Team) (g : Group) (i : Instr) (f : LaneFault) : Iss :=
  { Iss.start r t g i with
    g := { g with em := g.em &&& ~~~g.takingPart i
                  parks := g.parks ++ [parkOf g i (g.takingPart i) fun _ => f] }
    act := 0 }

theorem Iss.parked_issued (pc : Word) : (Iss.parked r t g i f).issued pc = { (Iss.failed r t g i f).issued pc with
    em := g.em &&& ~~~g.takingPart i, parks := g.parks ++ [parkOf g i (g.takingPart i) fun _ => f] } := by
  have out : (Iss.parked r t g i f).writesOut = (Iss.failed r t g i f).writesOut := rfl
  have slot : (Iss.parked r t g i f).g.slot = g.slot := rfl
  have slot' : (Iss.failed r t g i f).g.slot = g.slot := rfl
  have instr : (Iss.parked r t g i f).i = (Iss.failed r t g i f).i := rfl
  simp only [Iss.issued, Iss.clearRs, slot, slot', out, instr]
  cases g.slot with
  | none => rfl
  | some sl =>
    dsimp only
    generalize (sl.rs && (Instr.noRepeat (Iss.failed r t g i f).i || (Iss.failed r t g i f).writesOut)) = again
    cases again <;> rfl

theorem Iss.fail_parks (grp : s.group r = some (t, g)) (out : g.trap = none) (free : g.parks.length < 4)
    (lanes : g.takingPart i ≠ 0) :
    (Iss.start r t g i).fail s f = (Iss.parked r t g i f).finishAt s (g.after i) := by
  obtain ⟨S, W, fields⟩ := (Iss.failed r t g i f).issued_fields (g.after i)
  have parks : ((Iss.failed r t g i f).issued (g.after i)).parks = g.parks := by rw [fields]; rfl
  have em : ((Iss.failed r t g i f).issued (g.after i)).em = g.em := by rw [fields]; rfl
  have taken := (s.setTeam r.team (some t)).takeFaults_parks (r := r) (t := t) (pc := g.pc) (next := g.after i)
    (insn := g.insn) (op := none) (f := f) (Iss.failed_issued_trap.trans out) (parks ▸ free) lanes
  rw [em, parks] at taken
  rw [Iss.fail_start, Iss.finishAt, Iss.failed_opId grp, Iss.finishAt, Iss.parked_issued]
  refine congrArg (State.afterEnd · r) (taken.trans ?_)
  rfl

/-- What a fault of the whole instruction leaves alone in the group, but for its parks and EM. -/
theorem Iss.parked_keeps (pc : Word) : Keeps { g with parks := g.parks ++ [parkOf g i (g.takingPart i) fun _ => f] }
    { (Iss.parked r t g i f).issued pc with em := g.em } false false false false false := by
  obtain ⟨S, W, fields⟩ := (Iss.parked r t g i f).issued_fields pc
  refine ⟨fun _ n l _ => (Iss.parked r t g i f).issued_rdV pc n l, ?_, ?_, ?_, ?_, rfl, ?_, ?_⟩
  · rw [fields]; exact fun _ => rfl
  · rw [fields]; exact fun _ => rfl
  · rw [fields]; exact fun _ => rfl
  · rw [fields]; exact fun _ => rfl
  · rw [fields]; exact (List.append_nil _).symm
  · rw [fields]; exact Still.of_fields rfl

theorem trapsOn_of_fail (h : Issues s r t g i) (he : exec i s = .next ((Iss.start r t g i).fail s f)) :
    TrapsOn s r t g i (g.takingPart i) fun _ => f := by
  intro out free lanes
  have parks := he.trans (congrArg _ (Iss.fail_parks h.grp out free lanes))
  refine ⟨none, completes_of_finishAt h (x := Iss.parked r t g i f) rfl rfl rfl rfl parks ⟨Iss.parked_keeps _, ?_⟩⟩
  obtain ⟨S, W, fields⟩ := (Iss.parked r t g i f).issued_fields (g.after i)
  rw [fields]
  rfl

/-- With no lane that takes part the fault falls on none. -/
theorem completes_of_fail_none (h : Issues s r t g i) (he : exec i s = .next ((Iss.start r t g i).fail s f))
    (none : g.takingPart i = 0) : Completes s r t i (g.after i) fun g' => Keeps g g' false false false false false := by
  have clean : (Iss.failed r t g i f).nf = [] := (congrArg (onLanes · f) none).trans (onLanes_zero f)
  refine completes_of_finishAt h (x := Iss.failed r t g i f) rfl rfl clean rfl he ?_
  obtain ⟨S, W, fields⟩ := (Iss.failed r t g i f).issued_fields (g.after i)
  refine ⟨fun _ n l _ => (Iss.failed r t g i f).issued_rdV _ n l, ?_, ?_, ?_, ?_, ?_, ?_, ?_⟩
  · rw [fields]; exact fun _ => rfl
  · rw [fields]; exact fun _ => rfl
  · rw [fields]; exact fun _ => rfl
  · rw [fields]; exact fun _ => rfl
  · rw [fields]; rfl
  · rw [fields]; exact (List.append_nil _).symm
  · rw [fields]; exact Still.of_fields rfl

/-- A group that has not ended hands nothing over. -/
theorem State.afterEnd_putGroup (grp : s.group r = some (t, g)) {g' : Group} (live : g'.ended = false) :
    (s.putGroup r g').afterEnd r = s.putGroup r g' := by
  obtain ⟨team, -⟩ := State.team_of_group grp
  have own : (t.putGroup r.grp g').groups[r.grp]? = some g' := by simp [Team.putGroup, lt_of_group grp]
  simp [State.putGroup, team, State.afterEnd, Team.afterEnd_live _ _ own live, State.setTeam_setTeam]

theorem halts_of_fail (h : Issues s r t g i) (he : exec i s = .next ((Iss.start r t g i).fail s f)) {ts : TrapSt}
    (lanes : g.takingPart i ≠ 0) (trap : g.trap = some ts) (live : g.ended = false) :
    ∃ g', exec i s = .next ((s.putGroup r g').teamReport t 3 0 6 0 0 0
      [ts.park.record, (parkOf g i (g.takingPart i) fun _ => f).record]) ∧ g'.halted = true ∧ g'.parks = g.parks := by
  obtain ⟨S, W, fields⟩ := (Iss.failed r t g i f).issued_fields (g.after i)
  have halt := (s.setTeam r.team (some t)).takeFaults_doubleFault (r := r) (t := t) (pc := g.pc) (next := g.after i)
    (insn := g.insn) (op := none) (f := f) ((Iss.failed_issued_trap (i := i) (f := f) (r := r) (t := t)).trans trap) lanes
  refine ⟨{ (Iss.failed r t g i f).issued (g.after i) with halted := true }, ?_, rfl, by rw [fields]; rfl⟩
  rw [he, Iss.fail_start, Iss.finishAt, Iss.failed_opId h.grp]
  refine congrArg Host.Outcome.next ((congrArg (State.afterEnd · r) halt).trans ?_)
  rw [State.halt, State.putGroup_setTeam h.grp, State.putGroup_teamReport]
  refine (State.afterEnd_putGroup (s := s.teamReport t 3 0 6 0 0 0 _) (g := g) h.grp ?_).trans
    (State.putGroup_teamReport ..).symm
  rw [fields]
  exact live

/-- TRAP and BRK, as O43 says them (R300, R302). -/
theorem deliberate_traps {cause : Nat} {code : Word} (h : Issues s r t g i)
    (he : exec i s = onGroup i s fun s x => x.trap s cause code) :
    let f := mkFault cause (code.toNat % 65536) (code.setWidth 64) 0
    (g.takingPart i = 0 → Completes s r t i (g.after i) fun g' => Keeps g g' false false false false false) ∧
    (g.takingPart i ≠ 0 → TrapsOn s r t g i (g.takingPart i) fun _ => f) ∧
    (∀ ts, g.takingPart i ≠ 0 → g.trap = some ts → g.ended = false → ∃ g', exec i s =
      .next ((s.putGroup r g').teamReport t 3 0 6 0 0 0
        [ts.park.record, (parkOf g i (g.takingPart i) fun _ => f).record]) ∧
      g'.halted = true ∧ g'.parks = g.parks) := by
  intro f
  have fails : exec i s = .next ((Iss.start r t g i).fail s f) := he.trans (onGroup_issues h _)
  exact ⟨completes_of_fail_none h fails, fun _ => trapsOn_of_fail h fails, fun ts => halts_of_fail h fails⟩

end

end Sys2Proof.Machine
end

section
/-! SUPPORT. Code that is no instruction, the sequencer's misses and its stops (R58, R65, R226, R227, R303, R332). -/

namespace Sys2Proof.Machine

/-! ### Code that is no instruction (R58, R65, R295, R332) -/

section
variable {s : State} {r : GRef} {t : Team} {g : Group}

theorem State.curGroup_eq (cur : s.cur = some r) (grp : s.group r = some (t, g)) : s.curGroup = some (r, t, g) := by
  simp [State.curGroup, cur, grp]

theorem exec_unassigned (cur : s.curGroup = some (r, t, g)) (sub : BitVec 8) (len : Len) :
    exec (.unassignedEncoding sub len) s = .next (s.illegal r t g sub.toNat len) := by
  show execUnassignedEncoding sub len s = _
  rw [execUnassignedEncoding, cur]

/-- A code fetch that faults with the base word `w0`, if it could be read. -/
def State.fetchFails (s : State) (r : GRef) (t : Team) (g : Group) (w0 : Option Word)
    (nf rf : List (Nat × LaneFault)) : State :=
  s.takeFaults r t { g with redo := none, pc := g.goesTo (g.fetched w0).2 }
    g.pc (g.fetched w0).2 (g.fetched w0).1 none nf rf

theorem exec_range (cur : s.curGroup = some (r, t, g)) {w0 : Option Word} (fetch : s.fetch t g.pc.toNat = .range w0) :
    exec (.codeFetchFault .range) s =
      .next (s.fetchFails r t g w0 (onLanes g.issueLanes (mkFault 4 0 (g.pc.setWidth 64) 0)) []) := by
  show execCodeFetchFault .range s = _
  simp only [execCodeFetchFault, cur, fetch]
  rfl

theorem exec_poisoned (cur : s.curGroup = some (r, t, g)) {key : DWord} {slot : Nat} {w0 : Option Word}
    (fetch : s.fetch t g.pc.toNat = .poison key slot w0) : exec (.codeFetchFault .poisoned) s =
      .next (s.fetchFails r t g w0 (onLanes g.issueLanes (mkFault 0x10 0 key (mkAux slot 0))) []) := by
  show execCodeFetchFault .poisoned s = _
  simp only [execCodeFetchFault, cur, fetch]
  rfl

theorem exec_missing (cur : s.curGroup = some (r, t, g)) {va : Nat} (fetch : s.fetch t g.pc.toNat = .miss va) :
    exec (.codeFetchFault .translation) s = .next (if s.codePaged t then
      s.fetchFails r t g none [] (onLanes g.issueLanes (missFault 2 va (recCSlot t.record)))
      else (s.putGroup r { g with wait := .xlate va }).teamReport t 7 0 10 (recCSlot t.record) 0
        (BitVec.ofNat 64 va) []) := by
  show execCodeFetchFault .translation s = _
  simp only [execCodeFetchFault, cur, fetch]
  split <;> rfl

theorem State.fetchFails_some {w0 : Word} {nf rf : List (Nat × LaneFault)} :
    s.fetchFails r t g (some w0) nf rf = s.takeFaults r t { g with
      pc := g.goesTo (g.pc + BitVec.ofNat 32 (lenOf w0).bytes), starve := g.starve, redo := none } g.pc
      (g.pc + BitVec.ofNat 32 (lenOf w0).bytes) w0 none nf rf := rfl

theorem State.fetchFails_none {nf rf : List (Nat × LaneFault)} :
    s.fetchFails r t g none nf rf = s.takeFaults r t { g with
      pc := g.goesTo (g.goesTo g.pc), starve := g.starve, redo := none } g.pc (g.goesTo g.pc) 0 none nf rf := rfl

/-- Where a group goes on behind an instruction that is not fetched (R295). -/
theorem Group.goesTo_behind : g.goesTo (g.goesTo g.pc) = g.goesTo g.pc := by
  rw [Group.goesTo, Group.goesTo]
  cases g.redo with
  | none => rfl
  | some d =>
    dsimp only
    split
    · rfl
    · rfl

end

/-! ### The sequencer's fetch and its stops (R226, R227, R303) -/

theorem Team.live_iff {t : Team} {k : Nat} : t.live k = true ↔ t.lives k := by
  unfold Team.live Team.lives
  cases t.groups[k]? <;> simp

theorem Team.firstLive_eq {t : Team} {k : Nat} (lives : t.lives k) (first : ∀ j, j < k → ¬ t.lives j) :
    t.firstLive = some k := by
  have lt : k < t.groups.length := by
    obtain ⟨g, at_, -⟩ := lives
    exact (List.getElem?_eq_some_iff.mp at_).1
  show (List.range t.groups.length).find? t.live = some k
  refine List.find?_range_eq_some.mpr ⟨Team.live_iff.mpr lives, List.mem_range.mpr lt, fun j hj => ?_⟩
  simpa using fun l => first j hj (Team.live_iff.mp l)

theorem Team.mxPass_eq {t : Team} {n k : Nat} (passes : t.passesTo n k) : t.mxPass n = some k := by
  obtain ⟨lives, own, other⟩ := passes
  unfold Team.mxPass
  by_cases live : t.live n = true
  · rw [if_pos live, own (Team.live_iff.mp live)]
  · rw [if_neg live]
    exact Team.firstLive_eq lives (other fun l => live (Team.live_iff.mpr l))

/-- The record of a tile word whose fetch missed (R226). -/
def tileMissRecord (va : Nat) (spc : Word) : BitVec 256 :=
  BitVec.ofNat 64 va ++ (0 : Word) ++ (0 : Word) ++ spc ++ spc ++ (0 : Word) ++ (2 : BitVec 16) ++ (0 : BitVec 6) ++
    (3 : BitVec 2) ++ (0x11 : BitVec 8)

/-- A field is the value whose bits stand there. -/
theorem fld_eq_of_bits {w n : Nat} {v : BitVec w} {hi lo : Nat} {x : BitVec n} (width : hi + 1 - lo = n)
    (bits : ∀ i < n, v.getLsbD (lo + i) = x.getLsbD i) : fld v hi lo = x.toNat := by
  subst width
  rw [fld_eq_extractLsb']
  exact congrArg BitVec.toNat (BitVec.eq_of_getLsbD_eq fun i hi => by simp [hi, bits i hi])

theorem tileMissRecord_fields (va : Nat) (spc : Word) : let rec_ := tileMissRecord va spc
    fld rec_ 7 0 = 0x11 ∧ rec_.getLsbD 8 = true ∧ rec_.getLsbD 9 = true ∧ fld rec_ 31 16 = 2 ∧ fld rec_ 63 32 = 0 ∧
      fld rec_ 95 64 = spc.toNat ∧ fld rec_ 127 96 = spc.toNat ∧ fld rec_ 159 128 = 0 ∧
      fld rec_ 255 192 = va % 2 ^ 64 := by
  refine ⟨fld_eq_of_bits (x := (0x11 : BitVec 8)) rfl fun i hi => ?_, ?_, ?_,
    fld_eq_of_bits (x := (2 : BitVec 16)) rfl fun i hi => ?_, fld_eq_of_bits (x := (0 : Word)) rfl fun i hi => ?_,
    fld_eq_of_bits (x := spc) rfl fun i hi => ?_, fld_eq_of_bits (x := spc) rfl fun i hi => ?_,
    fld_eq_of_bits (x := (0 : Word)) rfl fun i hi => ?_,
    (fld_eq_of_bits (x := BitVec.ofNat 64 va) rfl fun i hi => ?_).trans (BitVec.toNat_ofNat va 64)⟩ <;>
    simp only [tileMissRecord, BitVec.getLsbD_append] <;> grind

theorem exec_tileMiss {s : State} {n : Nat} {t : Team} {a : Arr} {va : Nat} (team : s.team n = some t)
    (arr : t.arr = some a) (st : a.st = 1) (first : a.miss = false) (fetch : s.tfetch t a.spc.toNat = .miss va) :
    exec (.tileWordFetchMiss n) s = .next ((s.setTeam n (some { t with arr := some { a with miss := true } })).teamReport
      t 6 0 5 (recCSlot t.record) 0 (BitVec.ofNat 64 va) [tileMissRecord va a.spc]) := by
  show execTileWordFetchMiss n s = _
  simp only [execTileWordFetchMiss, team, arr, st, first, fetch]
  rfl

theorem exec_tileTranslation {s : State} {n : Nat} {t : Team} {a : Arr} (turn : SeqTurn s n t a) :
    exec (.tileWordFetchFault .translation) s =
      .next (s.setTeam n (some { t with arr := some { a with miss := true } })) := by
  show execTileWordFetchFault .translation s = _
  have cur : s.curSeq = some (n, t, a) := by simp [State.curSeq, turn.cur, turn.team, turn.arr]
  simp only [execTileWordFetchFault, onSeq, cur, turn.runs]
  rfl

section
variable {s : State} {n : Nat} {t : Team} {a : Arr}

theorem exec_noStop (team : s.team n = some t) (arr : t.arr = some a) (none : a.stops = []) :
    exec (.stopDelivery n) s = .next s := by
  show execStopDelivery n s = _
  simp only [execStopDelivery, team, arr, none]

variable {p : SeqStop} {rest : List SeqStop} {k : Nat} {g : Group}

/-- The state once the oldest stop has left the queue. -/
def State.stopTaken (s : State) (n : Nat) (t : Team) (a : Arr) (rest : List SeqStop) (grp : Nat) : State :=
  s.setTeam n (some { t with arr := some { a with stops := rest, mxgrp := grp } })

theorem State.group_stopTaken {grp : Nat} (at_ : t.groups[k]? = some g) : (s.stopTaken n t a rest grp).group ⟨n, k⟩ =
    some ({ t with arr := some { a with stops := rest, mxgrp := grp } }, g) := by
  simp [State.stopTaken, State.group, at_]

theorem exec_stopWaits (team : s.team n = some t) (arr : t.arr = some a) (stops : a.stops = p :: rest)
    (passes : t.passesTo p.grp k) (at_ : t.groups[k]? = some g) (run : g.halted = false)
    (busy : g.whole ≠ none ∨ g.redo ≠ none ∨ g.faultLanes = 0 ∨ g.stop = .stopped) :
    exec (.stopDelivery n) s = .next s := by
  have waits : (g.whole.isSome || g.redo.isSome || g.faultLanes == 0 || g.stop == .stopped) = true := by
    simpa [Option.isSome_iff_ne_none, or_assoc] using busy
  have grp := State.group_stopTaken (s := s) (n := n) (a := a) (rest := rest) (grp := (t.mxPass a.mxgrp).getD a.mxgrp) at_
  show execStopDelivery n s = _
  unfold State.stopTaken at grp
  simp only [execStopDelivery, team, arr, stops, Team.mxPass_eq passes, grp, run, waits, if_true, Bool.false_eq_true,
    if_false]

theorem exec_stopDelivers {grp : Nat} (team : s.team n = some t) (arr : t.arr = some a) (stops : a.stops = p :: rest)
    (mx : t.passesTo a.mxgrp grp) (passes : t.passesTo p.grp k) (at_ : t.groups[k]? = some g) (run : g.halted = false)
    (whole : g.whole = none) (redo : g.redo = none) (out : g.trap = none) (stop : g.stop ≠ .stopped)
    (lanes : g.faultLanes ≠ 0) (free : g.parks.length < 4) :
    let g' := { g.dropLanes g.faultLanes with
      em := g.em &&& ~~~g.faultLanes, parks := g.parks ++ [p.park g g.faultLanes] }
    exec (.stopDelivery n) s = .next (s.setTeam n (some { t.putGroup k g' with
      arr := some { a with stops := rest, mxgrp := grp } })) := by
  intro g'
  have masks : lanesOf ((p.park g g.faultLanes).faults.map Prod.fst) = g.faultLanes :=
    (congrArg lanesOf (onLanes_lanes _ _)).trans (lanesOf_laneList _)
  have waits : (g.whole.isSome || g.redo.isSome || g.faultLanes == 0 || g.stop == .stopped) = false := by
    simpa [whole, redo, stop] using lanes
  have taken := State.group_stopTaken (s := s) (n := n) (a := a) (rest := rest) (grp := grp) at_
  have parks := (s.stopTaken n t a rest grp).parkNow_slot (r := ⟨n, k⟩)
    (t := { t with arr := some { a with stops := rest, mxgrp := grp } }) (g := g.dropLanes g.faultLanes)
    (p := p.park g g.faultLanes) (again := 0) free
  have emDrop : (g.dropLanes g.faultLanes).em &&& ~~~lanesOf ((p.park g g.faultLanes).faults.map Prod.fst) =
      g.em &&& ~~~g.faultLanes := by
    rw [masks]
    exact (BitVec.and_assoc ..).trans (congrArg _ BitVec.and_self)
  rw [emDrop] at parks
  show execStopDelivery n s = _
  unfold State.stopTaken at taken parks
  simp only [execStopDelivery, team, arr, stops, Team.mxPass_eq mx, Team.mxPass_eq passes, Option.getD_some, taken, run,
    waits, Bool.false_eq_true, if_false, out]
  refine congrArg Host.Outcome.next (parks.trans ?_)
  simp only [State.putGroup, State.team_setTeam, State.setTeam_setTeam]
  rfl

end

end Sys2Proof.Machine
end

section
/-! SUPPORT. The obligation on deliberate traps and stops. -/

namespace Sys2Proof.Machine

theorem exec_trap (h : Hdr) (code : Word) (s : State) :
    exec (.trap h code) s = onGroup (.trap h code) s fun s x => x.trap s 0x1A code := rfl

theorem exec_brk (h : Hdr) (code : Word) (s : State) :
    exec (.brk h code) s = onGroup (.brk h code) s fun s x => x.trap s 0x1B code := rfl

theorem Group.goesTo_pc_none {g : Group} (redo : g.redo = none) : g.goesTo g.pc = g.pc := by
  rw [Group.goesTo, redo]

theorem Group.goesTo_pc_some {g : Group} {d : Redo} (redo : g.redo = some d) : g.goesTo g.pc = d.next := by
  rw [Group.goesTo, redo]
  exact ite_eq_right_iff.mpr Eq.symm

/-- The park of a fault that falls on the lanes for which an instruction issues. -/
theorem exec_parks {s : State} {r : GRef} {t : Team} {g : Group} {i : Instr} {next insn : Word} {starve : Nat}
    {f : LaneFault} (he : exec i s = .next (s.takeFaults r t
      { g with pc := g.goesTo next, starve := starve, redo := none } g.pc next insn none (onLanes g.issueLanes f) []))
    (out : g.trap = none) (free : g.parks.length < 4) (lanes : g.issueLanes ≠ 0) :
    exec i s = .next (s.putGroup r { g with
      pc := g.goesTo next, em := g.em &&& ~~~g.issueLanes, starve := starve, redo := none
      parks := g.parks ++ [wholePark false g.pc next insn g.issueLanes f none] }) :=
  he.trans (congrArg _ (State.takeFaults_parks out free lanes))

/-- The park of a missing page of code. -/
theorem exec_missParks {s : State} {r : GRef} {t : Team} {g : Group} {va : Nat} (cur : s.cur = some r)
    (grp : s.group r = some (t, g)) (fetch : s.fetch t g.pc.toNat = .miss va) (paged : s.codePaged t = true)
    (out : g.trap = none) (run : g.halted = false) (free : g.parks.length < 4) (lanes : g.issueLanes ≠ 0) :
    let p := wholePark true g.pc (g.goesTo g.pc) 0 g.issueLanes (missFault 2 va (recCSlot t.record)) none
    exec (.codeFetchFault .translation) s =
      .next ((s.teamReport t 6 0 6 (recCSlot t.record) 0 (BitVec.ofNat 64 va) [p.record]).putGroup r
        { g with pc := g.goesTo g.pc, em := g.em &&& ~~~g.issueLanes, parks := g.parks ++ [p], redo := none }) := by
  intro p
  have park := State.takeFaults_replay (g := { g with pc := g.goesTo g.pc, redo := none }) (pc := g.pc)
    (next := g.goesTo g.pc) (insn := 0) (op := none) (f := missFault 2 va (recCSlot t.record)) grp out run free lanes
  rw [exec_missing (State.curGroup_eq cur grp) fetch, if_pos paged, State.fetchFails_none, Group.goesTo_behind]
  exact congrArg _ park

theorem exec_missWaits {s : State} {r : GRef} {t : Team} {g : Group} {va : Nat} (cur : s.cur = some r)
    (grp : s.group r = some (t, g)) (fetch : s.fetch t g.pc.toNat = .miss va) (unpaged : s.codePaged t = false) :
    exec (.codeFetchFault .translation) s =
      .next ((s.putGroup r { g with wait := .xlate va }).teamReport t 7 0 10 (recCSlot t.record) 0
        (BitVec.ofNat 64 va) []) :=
  (exec_missing (State.curGroup_eq cur grp) fetch).trans (congrArg _ (if_neg (ne_true_of_eq_false unpaged)))

/-- Settles O43: TRAP and BRK by the fault of a whole issue, the fates of code by the park that a fault of EM leaves, the
sequencer's misses and stops by the group to which MXGRP passes. -/
theorem deliberateTrapsAndStops : Obligations.DeliberateTrapsAndStops := by
  unfold Obligations.DeliberateTrapsAndStops
  refine ⟨?_, ?_, ?_, ?_, ?_, ?_⟩
  case refine_2 => exact fun _ _ _ _ => exec_tileTranslation
  case refine_5 => exact fun _ _ _ _ _ _ _ _ => exec_stopWaits
  case refine_6 => exact fun _ _ _ _ => exec_noStop
  · intro deliberate parks behind
    have parked {s : State} {r : GRef} {t : Team} {g : Group} {i : Instr} {next insn : Word} {starve : Nat}
        {f : LaneFault} (he : s.curGroup = some (r, t, g) → exec i s = .next (s.takeFaults r t
          { g with pc := g.goesTo next, starve := starve, redo := none } g.pc next insn none
            (onLanes g.issueLanes f) [])) : parks s r t g i next insn starve f := by
      intro cur grp out free
      have park := exec_parks (he (State.curGroup_eq cur grp)) out free
      rw [Group.goesTo, Group.issueLanes] at park
      cases redo : g.redo <;>
        rw [redo] at park <;>
        exact park
    have goes (g : Group) : g.goesTo g.pc = behind g := by
      unfold behind
      cases redo : g.redo with
      | none => exact Group.goesTo_pc_none redo
      | some d => exact Group.goesTo_pc_some redo
    refine ⟨?_, ?_, ?_, ?_, ?_, ?_, ?_, ?_⟩
    · exact fun h code s r t g issues => deliberate_traps issues (exec_trap h code s)
    · exact fun h code s r t g issues => deliberate_traps issues (exec_brk h code s)
    · exact fun sub len s r t g => parked fun cur => exec_unassigned cur sub len
    · exact fun s r t g w0 fetch => parked fun cur => (exec_range cur fetch).trans (congrArg _ State.fetchFails_some)
    · intro s r t g fetch
      rw [← goes g]
      exact parked fun cur => (exec_range cur fetch).trans (congrArg _ State.fetchFails_none)
    · intro s r t g key slot fetch
      rw [← goes g]
      exact parked fun cur => (exec_poisoned cur fetch).trans (congrArg _ State.fetchFails_none)
    · exact fun s r t g key slot w0 fetch => parked fun cur =>
        (exec_poisoned cur fetch).trans (congrArg _ State.fetchFails_some)
    · intro s r t g va fetch cur grp
      have paged := exec_missParks cur grp fetch
      have waits := exec_missWaits cur grp fetch
      rw [goes, Group.issueLanes] at paged
      unfold behind at paged
      cases redo : g.redo <;>
        rw [redo] at paged waits <;>
        exact ⟨paged, waits⟩
  · intro s n t a va team arr st first fetch
    exact ⟨_, exec_tileMiss team arr st first fetch, tileMissRecord_fields va a.spc⟩
  · intro s n t a p rest grp k g team arr stops mx passes at_ run whole redo out stop lanes free
    exact ⟨_, exec_stopDelivers team arr stops mx passes at_ run whole redo out stop lanes free,
      rfl, rfl, rfl, rfl, rfl, rfl, rfl, rfl, rfl, rfl⟩

end Sys2Proof.Machine
end

section
/-! SUPPORT. The obligation on words of the manual. -/

namespace Sys2Proof

/-- Settles O56: the decoder, run on each word. -/
theorem wordsDecode : Obligations.WordsDecode := by
  unfold Obligations.WordsDecode
  refine ⟨?_, ?_, ?_, ?_, ?_, ?_, ?_, ?_, ?_, ?_, ?_, ?_, ?_, ?_, ?_, ?_, ?_⟩
  all_goals decide +kernel

end Sys2Proof
end

section
/-! SUPPORT. What a fetch finds in memory (R58, R90, R226). -/

namespace Sys2Proof.Machine

/-! ### A fetch that uses its page leaves the tables and the instruction caches (R190, R312) -/

theorem State.setD_units (s : State) (leaf : Option Nat) :
    (s.setD leaf).parts = s.parts ∧ (s.setD leaf).cores = s.cores := by
  cases leaf <;> exact ⟨rfl, rfl⟩

theorem State.logWrite_units (s : State) (part va : Nat) :
    (s.logWrite part va).parts = s.parts ∧ (s.logWrite part va).cores = s.cores := by
  unfold State.logWrite
  dsimp only
  split <;> exact ⟨rfl, rfl⟩

theorem State.markWrite_units (s : State) (part va : Nat) (leaf : Option Nat) :
    (s.markWrite part va leaf).parts = s.parts ∧ (s.markWrite part va leaf).cores = s.cores := by
  obtain ⟨logParts, logCores⟩ := (s.setD leaf).logWrite_units part va
  obtain ⟨parts, cores⟩ := s.setD_units leaf
  exact ⟨logParts.trans parts, logCores.trans cores⟩

theorem State.foldl_units {α : Type} {f : State → α → State}
    (keeps : ∀ s x, (f s x).parts = s.parts ∧ (f s x).cores = s.cores) (l : List α) (s : State) :
    (l.foldl f s).parts = s.parts ∧ (l.foldl f s).cores = s.cores := by
  induction l generalizing s with
  | nil => exact ⟨rfl, rfl⟩
  | cons x l ih =>
    obtain ⟨parts, cores⟩ := ih (f s x)
    exact ⟨parts.trans (keeps s x).1, cores.trans (keeps s x).2⟩

theorem State.applyDrops_units (s : State) (part va : Nat) :
    (s.applyDrops part va).parts = s.parts ∧ (s.applyDrops part va).cores = s.cores := by
  have drop (at_ : Drop → Nat) (s : State) (d : Drop) :
      (if d.clean then s.clearPoison (at_ d) d.bytes else s.zeroRange (at_ d) d.bytes).parts = s.parts ∧
        (if d.clean then s.clearPoison (at_ d) d.bytes else s.zeroRange (at_ d) d.bytes).cores = s.cores := by
    split <;> exact ⟨rfl, rfl⟩
  unfold State.applyDrops
  dsimp only
  split
  · split
    · exact ⟨(State.markWrite_units ..).1.trans (State.foldl_units (drop _) ..).1,
        (State.markWrite_units ..).2.trans (State.foldl_units (drop _) ..).2⟩
    · exact ⟨rfl, rfl⟩
  · exact ⟨rfl, rfl⟩

theorem State.noteTlb_parts (s : State) (core part va : Nat) : (s.noteTlb core part va).parts = s.parts := by
  simp only [State.noteTlb]
  split
  · rfl
  · split
    · rfl
    · split <;> rfl

/-- The instruction cache of the core that caches a translation. -/
theorem State.noteTlb_icache (s : State) (core part va : Nat) :
    ((s.noteTlb core part va).core core).icache = (s.core core).icache := by
  have put (tlb : List Tlb) : ((s.setCore core { s.core core with tlb := tlb }).core core).icache =
      (s.core core).icache := by rw [State.core_setCore]
  simp only [State.noteTlb]
  split
  · rfl
  · split
    · exact put _
    · split
      · exact put _
      · rfl

theorem State.useFetch_keeps (s : State) (core part slot : Nat) (t : Table) (off : Nat) :
    (s.useFetch core part slot t off).parts = s.parts ∧
      ((s.useFetch core part slot t off).core core).icache = (s.core core).icache := by
  unfold State.useFetch
  split
  · split
    · exact ⟨rfl, rfl⟩
    · rename_i va _ _ _ _ _ _
      obtain ⟨parts, cores⟩ := s.applyDrops_units part va
      refine ⟨(State.noteTlb_parts _ core part va).trans parts, (State.noteTlb_icache _ core part va).trans ?_⟩
      exact congrArg (fun l => (tget Core.reset l core).icache) cores
  · exact ⟨rfl, rfl⟩

theorem State.table_useFetch (s : State) (core p slot : Nat) (tb : Table) (off part n : Nat) :
    (s.useFetch core p slot tb off).table part n = s.table part n :=
  congrArg (fun l => (tget Partition.reset l part).table n) (s.useFetch_keeps core p slot tb off).1

theorem State.codeHeld_useCode (s : State) (t : Team) (pc : Nat) : (s.useCode t pc).codeHeld t pc = s.codeHeld t pc := by
  unfold State.useCode
  dsimp only
  split
  · rfl
  · split
    · rfl
    · exact congrArg (fun m => (tget none m (icKey t.part (recCSlot t.record) (pc / 128))).isSome)
        (s.useFetch_keeps t.core t.part (recCSlot t.record) _ pc).2

theorem State.table_useCode (s : State) (t : Team) (pc part n : Nat) :
    (s.useCode t pc).table part n = s.table part n := by
  unfold State.useCode
  dsimp only
  split
  · rfl
  · split
    · rfl
    · exact s.table_useFetch ..

/-! ### What a fetch from memory finds (R58, R90, R226) -/

theorem State.codeBytes_memory {s : State} {t : Team} {tb : Table} {pc n key leaf size : Nat} {wr : Bool}
    (home : s.codeHeld t pc = false)
    (walk : (s.locate (some t.core) t.part (recCSlot t.record) tb pc).2 = .ok key leaf size wr) :
    s.codeBytes t tb pc n = s.rd key n := by
  have none : tget none (s.core t.core).icache (icKey t.part (recCSlot t.record) (pc / 128)) = none :=
    Option.isNone_iff_eq_none.mp (Option.isSome_eq_false_iff.mp home)
  simp only [State.codeBytes, none, walk]

theorem State.codeWord_memory {s : State} {t : Team} {tb : Table} {pc key leaf size : Nat} {wr : Bool}
    (home : s.codeHeld t pc = false)
    (walk : (s.locate (some t.core) t.part (recCSlot t.record) tb pc).2 = .ok key leaf size wr) (aligned : pc % 4 = 0) :
    s.codeWord t tb pc = some (BitVec.ofNat 32 (s.rdNat key 4)) := by
  have whole : min 4 (128 - pc % 128) = 4 := by omega
  have len : (s.rd key 4).length = 4 := length_tgets _ _ _ _
  simp only [State.codeWord, whole, s.codeBytes_memory home walk, Nat.lt_irrefl, if_false, List.append_nil, len, if_true]
  rfl

theorem State.fetch_memory {s used : State} {t : Team} {pc n : Nat} {tb : Table} {key leaf size : Nat} {wr : Bool}
    {w0 : Word} (use : s.useCode t pc = used) (table : s.table t.part (recCSlot t.record) = some tb)
    (home : s.codeHeld t pc = false)
    (walk : (used.locate (some t.core) t.part (recCSlot t.record) tb pc).2 = .ok key leaf size wr)
    (waits : used.readWaits t.part key = false) (word : BitVec.ofNat 32 (used.rdNat key 4) = w0)
    (len : (lenOf w0).bytes = n) (aligned : pc % 4 = 0) (block : pc % 128 + n ≤ 128) (inside : pc + n ≤ tBytes tb)
    (clean : used.poisoned key 4 = false) (cleanN : used.poisoned key n = false) :
    s.fetch t pc = .got w0 (decode (used.rd key n)) := by
  have four : 4 ≤ n := by
    rw [← len]
    cases lenOf w0 <;> decide
  have usedHome : used.codeHeld t pc = false := use ▸ (s.codeHeld_useCode t pc).trans home
  have usedTable : used.table t.part (recCSlot t.record) = some tb := use ▸ (s.table_useCode ..).trans table
  have read : used.codeWord t tb pc = some w0 := (State.codeWord_memory usedHome walk aligned).trans (congrArg some word)
  have bytes : used.codeBytes t tb pc n = used.rd key n := State.codeBytes_memory usedHome walk
  have range : ¬ tBytes tb < pc + 4 := by omega
  have whole : ¬ 128 < pc % 128 + n := by omega
  have fits : ¬ (pc % 4 ≠ 0 ∨ tBytes tb < pc + n) := by omega
  simp only [State.fetch, use, usedTable, usedHome, walk, waits, clean, read, len, cleanN, bytes, range, whole, fits,
    Bool.not_false, Bool.true_and, Bool.false_eq_true, if_false]

theorem State.tfetch_memory {s used : State} {t : Team} {spc : Nat} {tb : Table} {key leaf size : Nat} {wr : Bool}
    (use : s.useFetch t.core t.part (recCSlot t.record) tb spc = used)
    (table : s.table t.part (recCSlot t.record) = some tb) (aligned : spc % 8 = 0) (inside : spc + 8 ≤ tBytes tb)
    (walk : (used.locate (some t.core) t.part (recCSlot t.record) tb spc).2 = .ok key leaf size wr)
    (waits : used.readWaits t.part key = false) (clean : used.poisoned key 8 = false) :
    s.useTile t spc = used ∧ s.tfetch t spc = .got (BitVec.ofNat 64 (used.rdNat key 8)) := by
  have fits : (spc % 8 != 0 || decide (tBytes tb < spc + 8)) = false := by simp [aligned, inside]
  have tile : s.useTile t spc = used := by
    simp only [State.useTile, table, fits, Bool.false_eq_true, if_false, use]
  have usedTable : used.table t.part (recCSlot t.record) = some tb := use ▸ (s.table_useFetch ..).trans table
  refine ⟨tile, ?_⟩
  simp only [State.tfetch, tile, usedTable, fits, walk, waits, clean, Bool.false_eq_true, if_false]

end Sys2Proof.Machine
end

section
/-! SUPPORT. The turn of a group and of the sequencer (R65, R92 to R95, R226, R322). -/

namespace Sys2Proof.Machine

/-! ### A choice that no held row keeps back (R322) -/

theorem step_sched {s : State} {c : Sched} {rest : List Sched} (sched : s.sched = c :: rest) :
    step s = State.actHeld { s with sched := rest } c := by
  rw [step, sched]

theorem State.actHeld_free {s : State} {c : Sched} (free : s.heldSpans c.nearTeam = []) : s.actHeld c = s.act c := by
  unfold State.actHeld
  cases s.act c with
  | next s' => simp [State.spares, free]
  | fault f => rfl
  | refused r => rfl

/-- The rows of all teams but one are among those of all. -/
theorem State.heldSpans_eq_nil {s : State} (free : s.heldSpans none = []) (but : Option Nat) : s.heldSpans but = [] := by
  refine List.flatMap_eq_nil_iff.mpr fun e mem => ?_
  have none := List.flatMap_eq_nil_iff.mp free e mem
  cases team : e.2 with
  | none => rfl
  | some t =>
    rw [team] at none
    exact ite_eq_left_iff.mpr fun _ => none

/-- With no row held, a step is what the schedule names. -/
theorem step_free {s : State} {c : Sched} {rest : List Sched} (sched : s.sched = c :: rest)
    (free : s.heldSpans none = []) : step s = State.act { s with sched := rest } c :=
  (step_sched sched).trans (State.actHeld_free (s := { s with sched := rest }) (s.heldSpans_eq_nil free _))

theorem State.rd_of_spares {s s' : State} {c : Sched} {p : Nat × Nat} (spares : s.spares s' c = true)
    (old : p ∈ s.heldSpans c.nearTeam) (new : p ∈ s'.heldSpans c.nearTeam) : s'.rd p.1 p.2 = s.rd p.1 p.2 := by
  have some : (s.heldSpans c.nearTeam).isEmpty = false := List.isEmpty_eq_false_iff_exists_mem.mpr ⟨p, old⟩
  have keeps : s.keepsHeld s' c.nearTeam = true := by
    simp only [State.spares, some, Bool.false_or, Bool.and_eq_true] at spares
    exact spares.1
  have row := List.all_eq_true.mp keeps p new
  simp only [List.contains_iff_mem.mpr old, Bool.not_true, Bool.false_or, Bool.and_eq_true, beq_iff_eq] at row
  exact row.1

/-- A step leaves the bytes of every row that stays held. -/
theorem State.rd_actHeld {s s' : State} {c : Sched} {p : Nat × Nat} (act : s.actHeld c = .next s')
    (old : p ∈ s.heldSpans c.nearTeam) (new : p ∈ s'.heldSpans c.nearTeam) : s'.rd p.1 p.2 = s.rd p.1 p.2 := by
  unfold State.actHeld at act
  split at act
  next s1 _ =>
    by_cases spares : s.spares s1 c = true
    · rw [if_pos spares] at act
      cases act
      exact State.rd_of_spares spares old new
    · rw [if_neg spares] at act
      cases act
      rfl
  next o other => exact absurd act (other s')

/-! ### What a group does next (R65, R92, R296) -/

/-- Where parks are to be served nothing issues. -/
theorem Group.serves_of_canIssue {g : Group} (can : g.canIssue = true) : g.serves = false := by
  simp only [Group.canIssue, Bool.and_eq_true, Bool.not_eq_true'] at can
  obtain ⟨⟨⟨⟨⟨-, serves⟩, -⟩, -⟩, -⟩, -⟩ := can
  exact serves

section
variable {s : State} {r : GRef} {t : Team} {g : Group}

theorem State.pick_restarts (grp : s.group r = some (t, g)) (restarts : g.restarts (s.completes t g) ≠ none) :
    s.pick r = some (.fullSave r, s) := by
  simp only [State.pick, grp, Option.isSome_iff_ne_none.mpr restarts, if_true]

variable (stays : g.restarts (s.completes t g) = none)
include stays

theorem State.pick_serves (grp : s.group r = some (t, g)) (serves : g.serves = true) :
    s.pick r = some (.serveParkSlots r, s) := by
  simp only [State.pick, grp, stays, serves, Option.isSome_none, Bool.false_eq_true, if_false, if_true]

theorem State.pick_waits (grp : s.group r = some (t, g)) (serves : g.serves = false)
    (waits : g.canIssue = false ∨ g.awaits = true) : s.pick r = none := by
  have stop : (!g.canIssue || g.awaits) = true := by simpa using waits
  simp only [State.pick, grp, stays, serves, stop, Option.isSome_none, Bool.false_eq_true, if_false, if_true]

section
variable (grp : s.group r = some (t, g)) (can : g.canIssue = true) (whole : g.whole = none) (awake : g.awaits = false)
  {w0 : Word}
include grp can whole awake

theorem State.pick_decoded {i : Instr} (fetch : s.fetch t g.pc.toNat = .got w0 (.ok i)) :
    s.pick r = if s.mayIssue t g i then some (i, s.asCur r t g w0) else none := by
  have wake : g.wake = g := by rw [Group.wake, whole]
  simp only [State.pick, grp, stays, Group.serves_of_canIssue can, can, awake, wake, fetch, Option.isSome_none,
    Bool.not_true, Bool.or_self, Bool.false_eq_true, if_false]

theorem State.pick_illegal {sub : Nat} {len : Len} (fetch : s.fetch t g.pc.toNat = .got w0 (.bad sub len none)) :
    s.pick r = some (.unassignedEncoding (BitVec.ofNat 8 sub) len, s.asCur r t g w0) := by
  have wake : g.wake = g := by rw [Group.wake, whole]
  simp only [State.pick, grp, stays, Group.serves_of_canIssue can, can, awake, wake, fetch, Option.isSome_none,
    Bool.not_true, Bool.or_self, Bool.false_eq_true, if_false]
  rfl

end
end

/-! ### A group's turn and its quadrant's policy (R92 to R95) -/

section
variable {s : State} {r : GRef} {t : Team} {g : Group}

theorem State.going_of_pick {i : Instr} {s1 : State} (pick : s.pick r = some (i, s1)) :
    ∃ issues, s.going r = some { i := i, out := exec i s1, issues := issues } :=
  ⟨_, by rw [State.going, pick]⟩

theorem State.issue_waits (grp : s.group r = some (t, g)) (pick : s.pick r = none) : s.issue r = .next s := by
  have going : s.going r = none := by rw [State.going, pick]
  simp only [State.issue, grp, going]

theorem State.issue_now {m : Going} (grp : s.group r = some (t, g)) (going : s.going r = some m)
    (now : m.issues = false) : s.issue r = m.out := by
  simp only [State.issue, grp, going, now, Bool.not_false, if_true]

theorem State.issue_restarts (grp : s.group r = some (t, g)) (pick : s.pick r = some (.fullSave r, s)) :
    s.issue r = exec (.fullSave r) s :=
  State.issue_now grp (m := ⟨.fullSave r, exec (.fullSave r) s, false⟩) (by rw [State.going, pick]) rfl

theorem State.issue_serves (grp : s.group r = some (t, g)) (pick : s.pick r = some (.serveParkSlots r, s)) :
    s.issue r = exec (.serveParkSlots r) s :=
  State.issue_now grp (m := ⟨.serveParkSlots r, exec (.serveParkSlots r) s, false⟩) (by rw [State.going, pick]) rfl

/-- A ready group comes to what its turn comes to. -/
theorem State.going_of_ready {a : Ready} (ready : s.ready r = some a) :
    a.r = r ∧ ∃ m, s.going r = some m ∧ a.out = m.out := by
  unfold State.ready at ready
  split at ready
  next m _ going =>
    split at ready <;> cases ready
    exact ⟨rfl, m, going, rfl⟩
  · cases ready

theorem State.ready_of_mem_readyGroups {core quad : Nat} {a : Ready} (h : a ∈ s.readyGroups core quad) :
    s.ready a.r = some a := by
  obtain ⟨e, _, he⟩ := List.mem_flatMap.mp h
  split at he
  · cases he
  · split at he
    · cases he
    · obtain ⟨n, _, hn⟩ := List.mem_filterMap.mp he
      split at hn
      · cases hn
      · rw [(State.going_of_ready hn).1]
        exact hn

theorem State.issue_chosen {m : Going} {a : Ready} {s1 : State} (grp : s.group r = some (t, g))
    (going : s.going r = some m) (issues : m.issues = true)
    (chosen : choose (s.readyGroups t.core ((t.base + r.grp) % 4)) = some a) (own : a.r = r)
    (out : m.out = .next s1) : s.issue r =
      .next (s1.account t.core ((t.base + r.grp) % 4) (s.readyGroups t.core ((t.base + r.grp) % 4)) a) := by
  have ready := State.ready_of_mem_readyGroups (mem_of_choose chosen)
  rw [own] at ready
  obtain ⟨-, m', going', same⟩ := State.going_of_ready ready
  cases going.symm.trans going'
  have policy := same.trans out
  simp only [State.issue, grp, going, issues, chosen, own, State.policy, policy, Bool.not_true, Bool.false_eq_true,
    if_false, if_true]

theorem State.issue_other {m : Going} {a : Ready} (grp : s.group r = some (t, g)) (going : s.going r = some m)
    (issues : m.issues = true) (chosen : choose (s.readyGroups t.core ((t.base + r.grp) % 4)) = some a)
    (other : a.r ≠ r) : s.issue r = .next s := by
  simp only [State.issue, grp, going, issues, chosen, other, Bool.not_true, Bool.false_eq_true, if_false]

end

/-! ### The sequencer's turn (R226) -/

section
variable {s used : State} {n : Nat} {t : Team} {a : Arr} {w : DWord}

/-- The sequencer executes what the word it fetched decodes to. -/
theorem State.tile_fetched (team : s.team n = some t) (arr : t.arr = some a) (st : a.st = 1) (miss : a.miss = false)
    (use : s.useTile t a.spc.toNat = used) (fetch : s.tfetch t a.spc.toNat = .got w) {i : Instr}
    (decoded : decodeTile w = .ok i ∨
      ∃ sub, decodeTile w = .bad sub ∧ i = .unassignedTileWord (BitVec.ofNat 8 sub)) :
    s.tile n =
      exec i { used.setTeam n (some { t with arr := some { a with word := w } }) with seq := some n } := by
  have two : ¬ (1 : Nat) = 2 := by decide
  have runs : ¬ ((1 : Nat) ≠ 1 ∨ false = true) := by decide
  rcases decoded with ok | ⟨sub, bad, rfl⟩
  · simp only [State.tile, State.tilePick, team, arr, st, miss, use, fetch, two, runs, if_false, ok]
    rfl
  · simp only [State.tile, State.tilePick, team, arr, st, miss, use, fetch, two, runs, if_false, bad]
    rfl

end

end Sys2Proof.Machine
end

section
/-! SUPPORT. The obligation on steps. -/

namespace Sys2Proof.Machine

/-- What O58 says of a group's turn: the bytes at its program counter decode, and it executes what they decode to. -/
theorem step_issues {s s0 : State} {r : GRef} {t : Team} {g : Group} {i : Instr} {s1 : State} (act : step s = s0.issue r)
    (grp : s0.group r = some (t, g)) (pick : s0.pick r = some (i, s1)) :
    let quad := (t.base + r.grp) % 4
    let ready := s0.readyGroups t.core quad
    ∃ issues, s0.going r = some { i := i, out := exec i s1, issues := issues } ∧
      (issues = false → step s = exec i s1) ∧
      (∀ a s2, issues = true → choose ready = some a → a.r = r → exec i s1 = .next s2 →
        step s = .next (s2.account t.core quad ready a)) ∧
      (∀ a, issues = true → choose ready = some a → a.r ≠ r → step s = .next s0) := by
  obtain ⟨issues, going⟩ := State.going_of_pick pick
  exact ⟨issues, going, fun now => act.trans (State.issue_now grp going now),
    fun _ _ ready chosen own out => act.trans (State.issue_chosen grp going ready chosen own out),
    fun _ ready chosen other => act.trans (State.issue_other grp going ready chosen other)⟩

/-- Settles O58: each choice of the schedule by the turn of its agent, the group's and the sequencer's by what their fetch
finds. -/
theorem stepRunsTheDecodedInstruction : Obligations.StepRunsTheDecodedInstruction := by
  unfold Obligations.StepRunsTheDecodedInstruction
  refine ⟨?_, ?_, ?_, ?_, ?_⟩
  · intro s rest r t g tb key leaf size wr sched grp can whole awake table s0 stays used home walk waits free w0
      n issuing ready runs aligned block inside clean cleanN
    have act : step s = s0.issue r := step_free sched free
    have fetch : s0.fetch t g.pc.toNat = .got w0 (decode (used.rd key n)) :=
      State.fetch_memory rfl table home walk waits rfl rfl aligned block inside clean cleanN
    refine ⟨fun i decoded may => ?_, fun i decoded may => ?_, fun sub len decoded => ?_⟩
    · rw [decoded] at fetch
      exact step_issues act grp ((State.pick_decoded stays grp can whole awake fetch).trans (if_pos may))
    · rw [decoded] at fetch
      exact act.trans (State.issue_waits grp ((State.pick_decoded stays grp can whole awake fetch).trans
        (if_neg (ne_true_of_eq_false may))))
    · rw [decoded] at fetch
      exact step_issues act grp (State.pick_illegal stays grp can whole awake fetch)
  · intro s rest r t g sched grp free s0 restart
    have act : step s = s0.issue r := step_free sched free
    exact ⟨fun restarts => act.trans (State.issue_restarts grp (State.pick_restarts grp restarts)),
      fun stays serves => act.trans (State.issue_serves grp (State.pick_serves stays grp serves)),
      fun stays serves waits => act.trans (State.issue_waits grp (State.pick_waits stays grp serves waits))⟩
  · intro s rest n t a tb key leaf size wr sched team arr st miss table aligned inside free s0 used walk waits
      clean w running
    have act : step s = s0.tile n := step_free sched free
    obtain ⟨use, fetch⟩ := State.tfetch_memory (s := s0) rfl table aligned inside walk waits clean
    exact ⟨fun i ok => act.trans (State.tile_fetched (s := s0) team arr st miss use fetch (.inl ok)),
      fun sub bad => act.trans (State.tile_fetched (s := s0) team arr st miss use fetch (.inr ⟨sub, bad, rfl⟩))⟩
  · intro s rest i sched event free
    exact (step_free sched free).trans (if_pos event)
  · intro s s' rest c p sched stepped old new
    exact State.rd_actHeld (s := { s with sched := rest }) ((step_sched sched).symm.trans stepped) old new

end Sys2Proof.Machine
end
